-- ==== Sys2Proof/Word.lean ====
section
/-! DEFINITION. The words and the sparse tables the model is written in (R3 to R6 of 00_scope.md). -/

namespace Sys2Proof

/-- One byte. -/
abbrev Byte := BitVec 8

/-- A 48-bit event counter: every counter register of the module wraps at 2^48 (R102, R125, R215, R230). -/
abbrev C48 := BitVec 48

/-- An fp24 pattern: sign [23], exponent [22:15], fraction [14:0] (R150). -/
abbrev Fp24 := BitVec 24

/-- An fp32 pattern: sign [31], exponent [30:23], fraction [22:0] (R150). -/
abbrev Fp32 := BitVec 32

/-- A sparse table: pairs of a key and a value, keys strictly rising, no pair whose value is the table's default. -/
abbrev Tbl (α : Type) := List (Nat × α)

/-- The status codes of Table 14.2 (R314). -/
inductive Status where
  | ok | badOpcode | badLength | noRight | stateConflict | noResource | seqGap | archMismatch
  | badSignature | timeout | dataError | stallTorn | quota | badDescriptor | version | busy
  deriving DecidableEq, Repr, Inhabited

/-- The byte of a status code (Table 14.2). -/
def Status.code : Status → Byte
  | .ok => 0x00#8 | .badOpcode => 0x01#8 | .badLength => 0x02#8 | .noRight => 0x03#8
  | .stateConflict => 0x04#8 | .noResource => 0x05#8 | .seqGap => 0x06#8 | .archMismatch => 0x07#8
  | .badSignature => 0x08#8 | .timeout => 0x09#8 | .dataError => 0x0A#8 | .stallTorn => 0x0B#8
  | .quota => 0x0C#8 | .badDescriptor => 0x0D#8 | .version => 0x0E#8 | .busy => 0x0F#8

end Sys2Proof
end

