-- ==== Sys2Proof/Syntax.lean ====
section
/-! DEFINITION. The commands of the block: one constructor of `Instr` for each row of spec/opcode_table.json, and the
plain data those commands carry (command headers, VCT messages, frames, feature tokens, compiled stage programs). -/

namespace Sys2Proof

/-! ## What a host command carries -/

/-- The 16-byte command header of Table 13.2 (R289), with the session and the VCT sequence number the command came in on.
The opcode (byte 0) is the constructor's own. -/
structure CmdHdr where
  session : Nat
  seq     : BitVec 32      -- VCT seq of the COMMAND; the response's cmd_seq
  rsv1    : Byte := 0      -- byte 1, reserved
  bytes   : BitVec 16      -- bytes 2-3, body bytes as the header states them
  tag     : BitVec 32
  target  : BitVec 16      -- [13:0] stall, [14] module scope, [15] reserved
  rsv10   : BitVec 16 := 0 -- bytes 10-11, reserved
  rsv12   : BitVec 32 := 0 -- bytes 12-15, reserved
  deriving DecidableEq, Repr, Inhabited

/-! ## The feed path -/

/-- A feature token (Table 2.1, R28). -/
structure FToken where
  phone    : BitVec 16
  duration : BitVec 16
  pitch0   : BitVec 16
  pitch1   : BitVec 16
  energy   : Byte
  emphasis : Byte
  flags    : Byte
  rsv      : Byte := 0
  condA    : BitVec 16
  condB    : BitVec 16
  deriving DecidableEq, Repr, Inhabited

/-- A feed chunk: the header of Table 12.3 and its tokens (R271). -/
structure Chunk where
  stream : BitVec 32       -- [17:0] stream, [31:18] reserved
  seq    : BitVec 32
  rsv    : BitVec 48 := 0  -- bytes 10-15, reserved
  tokens : List FToken
  deriving DecidableEq, Repr, Inhabited

/-! ## The network -/

/-- Where a message came from: the Ethernet port, the source address (IPv4-mapped when IPv4) and the UDP source port. -/
structure Src where
  port : Nat
  addr : BitVec 128
  udp  : BitVec 16
  deriving DecidableEq, Repr, Inhabited

/-- A VCT message (Table 12.1, R260), field by field in the order of the header. -/
structure VctMsg where
  version : Byte
  type    : Byte
  flags   : Byte           -- [0] sack, [1] resume, [7:2] reserved
  nsack   : Byte           -- [2:0] n_sack, [7:3] reserved
  session : BitVec 16      -- [10:0] session, [14:11] reserved, [15] refused
  stall   : BitVec 16      -- [13:0] stall, [14] module, [15] reserved
  seq     : BitVec 32
  ack     : BitVec 32
  window  : BitVec 16
  length  : BitVec 16
  epoch   : BitVec 32
  rsv     : BitVec 32 := 0
  crc     : BitVec 32
  sacks   : List (BitVec 32 × BitVec 32) := []
  payload : List Byte
  deriving DecidableEq, Repr, Inhabited

/-- What an Ethernet frame carries, as far as R258 and R259 tell frames apart. -/
inductive FrameBody where
  | pfc (enabled : Byte) (times : List Nat)          -- IEEE 802.1Qbb: priority enable vector and pause times
  | pause                                            -- IEEE 802.3 Annex 31B
  | arp (sender target : BitVec 32)                  -- a request
  | nd (sender target : BitVec 128)                  -- a neighbour solicitation
  | echo4 (src dst : BitVec 32) (data : List Byte)   -- an echo request: identifier, sequence number and data
  | echo6 (src dst : BitVec 128) (data : List Byte)
  | udp4 (src dst : BitVec 32) (sport dport : BitVec 16) (len : Nat) (csumOk : Bool) (data : List Byte)
  | udp6 (src dst : BitVec 128) (sport dport : BitVec 16) (len : Nat) (csumOk : Bool) (data : List Byte)
  | other
  deriving DecidableEq, Repr, Inhabited

/-- A received Ethernet frame (R257, R259), and the FEC codewords received with it that were corrected or could not be. Where
`bytes` are given, they are the frame from destination address to FCS, and the other fields are read from them. -/
structure Frame where
  fcsOk    : Bool
  dst      : BitVec 48
  src      : BitVec 48 := 0
  vlan     : Option (BitVec 12) := none
  fragment : Bool := false
  options  : Bool := false          -- IPv4 options or IPv6 extension headers
  length   : Nat := 1518            -- bytes from destination address to FCS
  body     : FrameBody
  fecCorr  : Nat := 0
  fecUncorr : Nat := 0
  bytes    : List Byte := []
  deriving DecidableEq, Repr, Inhabited

/-! ## Outcomes that the memories, the sensors and the pins hand to the block -/

/-- What a memory hands back with an access (R233 to R235): the attempts of its link burst that failed their CRC, and the
bad bytes of each code of the granule, or the bad bits of each word of a state-store memory. -/
structure MemAnswer where
  crc : Nat := 0
  bad : List Nat := []
  deriving DecidableEq, Repr, Inhabited

/-- A stage that takes a beat, and what the memories that its step reads answer, by the stream of the token (R233). -/
structure StageVisit where
  stage : Nat
  reads : List (Nat × MemAnswer) := []
  deriving DecidableEq, Repr, Inhabited

/-- One liveness probe target of R303. -/
inductive Probe where
  | core (i : Nat) | scheduler (row : Nat) | engine (e : Nat) | press (p : Nat)
  deriving DecidableEq, Repr, Inhabited

/-- What flash patrol scrub found on one page (R389, R393, R395). -/
structure ScrubPage where
  block    : Nat
  channel  : Nat
  corrBits : Nat           -- most corrected bits in one codeword
  corrWords: Nat           -- codewords corrected
  retries  : Nat           -- read-retry levels used
  readable : Bool          -- false: uncorrectable
  rebuilt  : Bool          -- an unreadable page that redundancy rebuilt
  entry    : Option Nat    -- library entry whose stripe lost two pages or more (R403)
  deriving DecidableEq, Repr, Inhabited

/-- What the boot ROM meets between PLL lock and Palhani's start (R435, R443, R444, R217). -/
structure BootResult where
  entropyFails : Nat            -- start-up tests failed in a row, 0 to 3
  hashKey      : BitVec 128     -- the key the entropy source supplied
  untrained    : List Nat       -- GDDR7 channels that failed link training
  keyOk        : Bool := true   -- the maker's key in the ROM has the fused hash
  deriving DecidableEq, Repr, Inhabited

/-- A device of the boundary-scan chain (Table 21.7). -/
inductive ChainDev where
  | retimer0 | retimer1 | hub
  deriving DecidableEq, Repr, Inhabited

/-! ## Compiled stage programs (chapters 4 to 8) -/

/-- A quantisation record (Table 7.3) with the data its offsets point at. -/
structure Quant where
  int4      : Bool
  channelScale : Bool           -- scale_mode 1
  sround    : Bool
  weigh     : Bool
  gate      : Nat               -- Table 5.5 code
  outliers  : List Nat          -- strictly ascending logical input channels
  scales    : List Fp24         -- s_w per output channel; [] when scale_mode = 0
  deriving DecidableEq, Repr, Inhabited

/-- An operator descriptor (Table 6.1). -/
structure OpDesc where
  op       : Nat
  replicate : Bool
  includePad : Bool
  compressOut : Bool
  timeAxis : Bool
  spatial  : Bool
  cIn : Nat
  cOut : Nat
  g   : Nat
  inF : Nat
  kF  : Nat
  sF  : Nat
  dilF : Nat
  padLo : Nat
  padHi : Nat
  kT  : Nat
  dilT : Nat
  upT : Nat
  gatherH : Nat
  deriving DecidableEq, Repr, Inhabited

/-- A state-space layer's modal parameters in the formats of Table 5.1, modes in logical order (R103 to R105). -/
structure Modal where
  logModes : Fin 7              -- M = 2^logModes modes per channel (R103)
  lam   : List (BitVec 25 × BitVec 25)  -- two's complement, n / 2^23
  b     : List (Fp24 × Fp24)
  c     : List (Fp24 × Fp24)
  d     : List Fp24             -- one per channel
  e0    : BitVec 8
  kLess : BitVec 8              -- K - 1: the renormalisation period is 1 to 256
  integrator : List Bool        -- read by Igrael only
  deriving DecidableEq, Repr, Inhabited

/-- The reductions a vector stage program can name (R167). -/
inductive Reduction where
  | sum | mean | squares
  deriving DecidableEq, Repr, Inhabited

/-- Where an operation of a canonical image keeps its records and data: byte offsets in the canonical section. The spec
lays out the records themselves, and Machine/Image.lean reads them; it does not say where an image keeps them. -/
inductive OpAt where
  | token
  | matmul (quant cIn cOut weights : Nat) (bias : Option Nat) (residual : Bool) (rng : BitVec 7)
  | conv (desc quant weights : Nat) (bias : Option Nat) (residual : Bool) (rng : BitVec 7)
  | upsample (desc quant weights : Nat) (bias : Option Nat) (residual : Bool) (rng : BitVec 7)
  | modal (logModes : Fin 7) (channels : Nat) (lam : List (BitVec 25 × BitVec 25)) (b c d : Nat) (e0 kLess : BitVec 8)
      (integrator : List Bool)
  | finish (quant channels : Nat) (bias : Option Nat) (residual : Bool) (rng : BitVec 7)
  | hold
  | keep
  | pool (desc quant : Nat)
  | reduce (kind : Reduction)
  | dither (step : Nat) (rng : BitVec 7)
  | argmax (desc : Nat)
  | sampler (desc table : Nat) (rng : BitVec 7)
  | context (off len : Nat)
  | adapter (index : Nat)
  | egress
  deriving DecidableEq, Repr, Inhabited

/-- What a canonical section keeps where: its operations in logical order, the fp24 tables of its table section (offset
and number of entries), and the bytes of context cache (Table 10.2, cold_bytes). -/
structure ImageMap where
  ops    : List OpAt
  tables : List (Nat × Nat)
  cold   : Nat
  deriving DecidableEq, Repr, Inhabited

/-- One layer or operation of a row's program. -/
inductive LayerOp where
  | token                                                     -- length regulation and table lookups (R31)
  | matmul (q : Quant) (w : List (List Int)) (bias : List Fp24) (residual : Bool) (rng : Nat)
  | conv (d : OpDesc) (q : Quant) (w : List (List Int)) (bias : List Fp24) (residual : Bool) (rng off : Nat)
  | upsample (d : OpDesc) (q : Quant) (w : List (List Int)) (bias : List Fp24) (residual : Bool) (rng off : Nat)
  | modal (m : Modal) (lo off : Nat) (lead : Bool)            -- channels from lo on; lead: its unit's first (Table 5.6)
  | finish (q : Quant) (bias : List Fp24) (residual : Bool) (rng : Nat)  -- the return port (R122)
  | hold                                                      -- first of a pair on the return port (R124)
  | keep                                                      -- copy into the section buffer (the residual)
  | pool (d : OpDesc) (sround : Bool)                         -- sround of its quantisation record (R175)
  | reduce (kind : Reduction)                                 -- a vector stage's reduction (R167)
  | dither (q : Fp24) (rng : Nat)
  | argmax (d : OpDesc)
  | sampler (d : OpDesc) (table : List Int) (rng : Nat)
  | context (off len : Nat)                                   -- a window of the context cache (R224)
  | adapter (index : Nat)                                     -- an operation of the token's voice's hot part (R25)
  | egress
  deriving DecidableEq, Repr, Inhabited

/-- One stage of a placement: where it runs, its beat size, and its cycles per token where the spec leaves them to the
placement (R81, R89). -/
structure StageDef where
  key   : Nat                   -- 16 * press + stage
  beat  : Nat                   -- b_s, 1 to 512
  cyc   : Nat                   -- ARCLK per token for an operation the spec gives no cost of
  units : List Nat              -- unit nodes of the gate tree it uses (Table 18.2)
  kind  : Nat                   -- 0 token, 1 platen, 2 recurrence, 3 vector, 4 egress (Table 2.4)
  deriving DecidableEq, Repr, Inhabited

/-- A porter descriptor (Table 9.2). Address words are those of R192. -/
structure Desc where
  op      : Nat                 -- 0 COPY, 1 INDEXED, 2 FENCE, 3 SIGNAL, 4 WAIT, 5 SWAP
  notify  : Bool := false
  expand  : Bool := false
  sys     : Bool := false
  vfill   : Bool := false
  dims    : Nat := 1
  cls     : Nat := 7
  stall   : Nat := 0
  stream  : Nat := 0
  src     : BitVec 64 := 0
  dst     : BitVec 64 := 0
  count0  : Nat := 1
  counts  : List Nat := [1, 1, 1, 1]
  opArg   : BitVec 32 := 0
  sstride : List Int := [0, 0, 0, 0]
  dstride : List Int := [0, 0, 0, 0]
  index   : BitVec 64 := 0
  indexCount : Nat := 0
  tag     : BitVec 64 := 0
  deriving DecidableEq, Repr, Inhabited

/-- What a placement says (R33, R36 to R38): the stages, which stages run each operation of the image (for a layer of
modes the blocks each stage takes, R105), the share of a hot part each press takes, the working memory each press uses,
the buffer pairs, the queue limits and the stored descriptors of its sequencers. -/
structure PlacementMap where
  stages : List StageDef
  parts  : List (List (Nat × Nat)) -- by operation: stage key and number of blocks
  shares : List Nat             -- of an adapter: bytes of its hot part that each press of the row takes (R38)
  work   : List Nat             -- bytes of working memory by press
  pairs  : List (Nat × Nat × Nat) -- press, buffer pair, KiB of one half (Table 9.4)
  limits : List (Nat × Nat × Nat) -- press engine, queue, outstanding limit (R189)
  descs  : List (Nat × Nat × List Byte) -- stage key of the producer, queue of its press's engine, stored descriptor (Table 9.2)
  waits  : List (Nat × Nat × Nat × Nat) -- stage key, index in the row's program, barrier counter and count its core waits for (R203)
  reads  : List (Nat × Nat × Nat) -- stage key, index in the program and buffer pair whose recto it reads (R205)
  maps   : List (Nat × Nat × Nat) -- stage key, index in the program and press-memory address of its compressed rows (R145)
  banks  : List (Nat × Nat × List Nat) -- stage key, index in the program and the scale bank of each of its tiles (R162)
  wins   : List (Nat × Nat × Nat) -- stage key, index in the program and press-memory address of its converted window (R136)
  deriving DecidableEq, Repr, Inhabited

/-! ## The commands -/

/-- The commands of the block, one per row of spec/opcode_table.json.
A host command carries its header and its body bytes in network byte order (R308); an event carries what the
environment, a clock or a memory hands to the block with it. -/
inductive Instr where
  -- commands in the mailbox (chapter 14)
  | hello (h : CmdHdr) (body : List Byte)
  | resync (h : CmdHdr) (body : List Byte)
  | roleAssert (h : CmdHdr) (body : List Byte)
  | stallOpen (h : CmdHdr) (body : List Byte)
  | stallClose (h : CmdHdr) (body : List Byte)
  | stallQuery (h : CmdHdr) (body : List Byte)
  | stallLimits (h : CmdHdr) (body : List Byte)
  | voiceLoad (h : CmdHdr) (body : List Byte)
  | voiceUnload (h : CmdHdr) (body : List Byte)
  | rowConfigure (h : CmdHdr) (body : List Byte)
  | streamOpen (h : CmdHdr) (body : List Byte)
  | streamFeed (session : Nat) (c : Chunk)
  | streamMark (h : CmdHdr) (body : List Byte)
  | streamPause (h : CmdHdr) (body : List Byte)
  | streamResume (h : CmdHdr) (body : List Byte)
  | streamEnd (h : CmdHdr) (body : List Byte)
  | streamPark (h : CmdHdr) (body : List Byte)
  | streamExport (h : CmdHdr) (body : List Byte)
  | streamImport (h : CmdHdr) (body : List Byte)
  | streamQuery (h : CmdHdr) (body : List Byte)
  | sapConfig (h : CmdHdr) (body : List Byte)
  | sapSlotmask (h : CmdHdr) (body : List Byte)
  | sapBind (h : CmdHdr) (body : List Byte)
  | libWrite (h : CmdHdr) (body : List Byte)
  | libList (h : CmdHdr) (body : List Byte)
  | libErase (h : CmdHdr) (body : List Byte)
  | attest (h : CmdHdr) (body : List Byte)
  | unlockChallenge (h : CmdHdr) (body : List Byte)
  | unlockResponse (h : CmdHdr) (body : List Byte)
  | fwStage (h : CmdHdr) (body : List Byte)
  | fwCommit (h : CmdHdr) (body : List Byte)
  | auditRead (h : CmdHdr) (body : List Byte)
  | regRead (h : CmdHdr) (body : List Byte)
  | regWrite (h : CmdHdr) (body : List Byte)
  | freqMeasure (h : CmdHdr) (body : List Byte)
  | countersRead (h : CmdHdr) (body : List Byte)
  | heartbeat (h : CmdHdr) (body : List Byte)
  -- register accesses with rows of their own
  | clkGateOn (h : CmdHdr) (node : Nat)
  | clkGateOff (h : CmdHdr) (node : Nat)
  | warmReset (h : CmdHdr) (force : Bool)
  | coldResetRequest (h : CmdHdr) (force : Bool)
  | perDieReset (h : CmdHdr) (die : Nat)
  | secCredCommit (h : CmdHdr) (slot : Nat)
  | secCredClear (h : CmdHdr) (slot : Nat)
  | secCfgSave (h : CmdHdr)
  | exportImageRead (h : CmdHdr) (handle index count : Nat)
  -- VCT messages and frames (chapter 12)
  | vctOpen (src : Src) (m : VctMsg)
  | vctClose (src : Src) (m : VctMsg)
  | vctAck (src : Src) (m : VctMsg)
  | vctCommand (src : Src) (m : VctMsg)
  | vctFeed (src : Src) (m : VctMsg)
  | frameReceive (port : Nat) (f : Frame)
  | retransmissionTimeout (session : Nat) (seq : BitVec 32)
  | sessionSilenceTimeout (session : Nat)
  | sessionFreeTimeout (session : Nat)
  | feedStatus (session : Nat)
  | grant (stall : Nat)
  | crier (source : Nat)
  | heartbeatRaise (missed : List Probe)
  | heartbeatSend (session : Nat)
  | clerkWatchdog (core : Nat)
  -- rows and streams (chapters 3 and 4)
  | staging (row : Nat)
  | stagingComplete (stream : Nat)
  | admission (row : Nat)
  | beat (press : Nat) (stage : StageVisit)
  | quireEnd (stream : Nat)
  | folioWritten (stream : Nat)
  -- porters (chapter 9)
  | transferIssue (engine : Nat)
  | transferComplete (engine index : Nat) (rd wr : MemAnswer)
  | wait (engine queue : Nat)
  | signal (engine queue : Nat)
  | swap (press pair : Nat)
  | pageInComplete (stream : Nat) (ok : Bool) (image : List Byte)
  | remoteFetchFail (stream : Nat)
  | remoteFetchTimeout (stream : Nat)
  | teardownComplete (stall : Nat)
  | dlkFired (die younger older : Nat)
  | consCheck
  | patrolScrub (channel slot : Nat) (out : MemAnswer)
  | baseGranuleRewrite (granule : Nat)
  | streamEntryRewrite (stream : Nat)
  | rowFault (row press : Nat)
  | rowBuildDone (row : Nat)
  -- egress, links and serial audio (chapters 12 and 16)
  | rtpPacketSend (stream : Nat)
  | audio (stream : Nat)
  | linkDown (port : Nat)
  | linkUp (port : Nat)
  | sapFrameSync (port bclk : Nat) (din : List (BitVec 32))
  | sapWatchdog (port : Nat)
  | sapMutedPeriod (port : Nat)
  | sapMaskCommit (port : Nat)
  -- clocks (chapter 18)
  | clkSrcSwitchDone (mux : Nat)
  | clkSrcDeadold (mux : Nat)
  | freqMeasureDone (count : Nat)
  | fmtrTimeout
  | diagTimeout (h : CmdHdr) (press : Option Nat)
  -- flash (chapter 17)
  | parkDone (stream : Nat) (ok : Bool)
  | tallyRefill
  | tallySave
  | flashScrub (page : ScrubPage)
  | bootScrubComplete (refreshed : Nat)
  | flashChannelReset (channel : Nat)
  | libEntryTimeout (entry : Nat)
  | libEraseDone (entry : Nat)
  | orphanExpire (record : Nat)
  -- kept things that expire
  | exportExpire (handle : Nat)
  | snapshotExpire (session : Nat) (report : Bool)
  | challengeExpire
  | lockoutEnd
  | scheduledReset
  | probationEnd
  -- power and thermal (chapter 20)
  | powerCapTick (volts amps watts : Nat)
  | thermalStep (temps : List Int)
  | thermalFailure
  | thermalTrip
  | inputLoss
  | powerUp
  | resetN
  | pllLock (b : BootResult)
  | palhaniStart
  | portsEnable
  | attestKeyReady
  | entropyFail
  -- boundary scan and test (chapter 21)
  | extest (dev : ChainDev) (cells : List Bool)
  | extestPulse (dev : ChainDev) (cells : List Bool)
  | extestTrain (dev : ChainDev) (cells : List Bool)
  | idcode (dev : ChainDev)
  | samplePreload (dev : ChainDev) (pins cells : List Bool)
  | highz (dev : ChainDev)
  | clamp (dev : ChainDev)
  | bypass (dev : ChainDev)
  | dbgRd (addr : BitVec 64)
  | dbgWr (addr : BitVec 64) (value : Byte)
  | fpgm (image : List Byte)
  | tapReset
  | spineLinkFail (die : Nat)
  | referenceClockLoss (ethernet : Bool)
  | resetNRelease (slotId : BitVec 4) (fpgmN : Bool)
  | perDieResetComplete (die : Nat) (untrained : List Nat)
  | pfcPauseExpire (port priority : Nat)
  deriving DecidableEq, Repr, Inhabited

end Sys2Proof
end

