-- ==== Sys2Proof/Config.lean ====
section
/-! DEFINITION. The constants of the module, and the free values: what the spec leaves open or does not lay out, as
constants without a body, so that no proof can see what they are. -/

namespace Sys2Proof.Config

/-! ## Counts and sizes of the spec -/

/-- Streams tracked (R16, R51). -/
def nStreams : Nat := 262144
/-- Stalls (R16, R54). -/
def nStalls : Nat := 16384
/-- Voices (R16, R25). -/
def nVoices : Nat := 1024
/-- Rows (R16). -/
def nRows : Nat := 8
/-- VCT sessions (Table 12.1: session ID 0 to 2,047). -/
def nSessions : Nat := 2048
/-- Pitches (R241). -/
def nPitches : Nat := 16384
/-- Egress buffers (R241). -/
def nEgress : Nat := 49152
/-- Shared feed buffers of one state-store die (R241). -/
def feedShared : Nat := 180224
/-- Bytes of a folio slot (R224). -/
def folioBytes : Nat := 524288
/-- Bytes of a hot image (R224). -/
def hotBytes : Nat := 262144
/-- Porter engines (R186). -/
def nEngines : Nat := 25
/-- The wear tally's cap in units of 512 KiB (R391). -/
def tallyCap : Nat := 8808038
/-- CTCLK cycles in one second (R7). -/
def ctPerSecond : Nat := 525000000
/-- Frames a stall may have pending (R57). -/
def pendingLimit : Nat := 16777215
/-- Base of the weight region in space 0 (Table 10.1). -/
def weightBase : Nat := 0x2000000000
/-- One past the weight region (Table 10.1). -/
def weightEnd : Nat := 0x2A00000000
/-- Base of the feature journal (Table 10.1, R353). -/
def journalBase : Nat := 0x2A00000000
/-- Bytes of one journal slot (R353). -/
def journalSlot : Nat := 32768
/-- Bytes of the journal's records in a slot (Table 15.4). -/
def journalCap : Nat := 32704

/-! ## Free values (logged in notes/assumptions) -/

/-- A value the spec leaves open, or draws from the entropy source: the n-th one drawn. (DESIGN CHOICE, log 4) -/
opaque freeWord : Nat → BitVec 256

/-- Where a canonical section keeps its operations' records and data. The spec lays out each record (Tables 5.1, 6.1 and
7.3), not where an image keeps it. (DESIGN CHOICE, log 14) -/
opaque imageMap : (canonical : List Byte) → ImageMap

/-- What a placement's bytes say: the spec lays out its descriptors (Table 9.2) and no other part of it. (DESIGN CHOICE, log 14) -/
opaque placementMap : (placement : List Byte) → PlacementMap

/-- The token stage's lookups for one frame: the features of R31 (phone, pitch, energy, emphasis, cond_a, cond_b, flags)
to the entries of the voice's tables, the base's tables first, that make the first layer's vector. (DESIGN CHOICE, log 15) -/
opaque tableIndex : (base adapter : List Byte) → List Nat → List Nat

/-- What a step does with a window of the context cache: the operation's index, the window's bytes and the token's values
to the window's new bytes and values. The spec names the cache and its place and gives no formula. (DESIGN CHOICE, log 15) -/
opaque contextStep : (baseHash : BitVec 256) → Nat → List Byte → List Fp24 → List Byte × List Fp24

/-- The bits of a siphash24 value that enter a block's bank and bank group (R222 does not say which). (DESIGN CHOICE, log 120) -/
opaque bankBits : BitVec 64 → BitVec 64

/-- The integer quotient of an exact value by a weigh-pass scale that has been flushed to zero (R157 states none). (DESIGN CHOICE, log 18) -/
opaque byZeroScale : Int → Int

/-- SLH-DSA-SHA2-128s verification (FIPS 205): public key, message, signature. (DESIGN CHOICE, log 13) -/
opaque slhVerify128s : List Byte → List Byte → List Byte → Bool

/-- SLH-DSA-SHA2-128f signing by the attestation key of a boot: boot count, message. (DESIGN CHOICE, logs 12, 13) -/
opaque attestSign : Nat → List Byte → List Byte

/-- The attestation public key and certificate of a boot (R440): boot count to the 32 and 7,856 bytes. (DESIGN CHOICE, log 12) -/
opaque attestCert : Nat → List Byte

/-- The module's identity public key and certificate (R439). (DESIGN CHOICE, log 12) -/
opaque identityCert : List Byte

/-- The maker's SLH-DSA public key in the boot ROM (R435). (DESIGN CHOICE, log 12) -/
opaque makerPub : List Byte

/-- The 16-byte device identity serial (R439, Table 13.4). (DESIGN CHOICE, log 12) -/
opaque deviceId : List Byte

/-- Build level of the module, ASCII (R1: level B or later). (DESIGN CHOICE, log 12) -/
opaque buildLevel : Byte

/-- Messages the VCT receive buffer of a port holds: the spec gives it no size, only the thresholds of R258. (DESIGN CHOICE, log 17) -/
opaque rxCapacity : Nat

/-- The MAC address of port 0 or 1, derived from device_id (R439). (DESIGN CHOICE, log 12) -/
opaque mac : Nat → BitVec 48

/-- SHA-256 of the configuration record (Table 19.3), whose layout the spec does not give: the saved NETn words, the
credential slots and the peer credential, as numbers, to the hash. (DESIGN CHOICE, log 16) -/
opaque configHash : List (List Nat) → BitVec 256

/-- Identification of an IPv4 header that leaves. (PRESUMED, log 145) -/
opaque ipIdent : BitVec 16

/-- The don't-fragment flag of an IPv4 header that leaves (R259: it is never a fragment). (PRESUMED, log 145) -/
opaque ipDont : Bool

/-- PCP and DSCP of the answers to ARP, Neighbor Discovery and echo requests. (PRESUMED, log 145) -/
opaque replyPrio : BitVec 3 × BitVec 6

/-- The hop limit of an IP header that leaves. (PRESUMED, log 145) -/
opaque ipHops : Byte

/-- The MAC address that frames from a port to an IP address are sent to. (PRESUMED, log 145) -/
opaque nextHop : Nat → BitVec 128 → BitVec 48

end Sys2Proof.Config
end

