-- ==== Sys2Proof/WellFormed.lean ====
section
/-! DEFINITION. When a command's operands name things the module has: its sessions, streams, stalls, ports, dies and
engines (R16, R186, R216, R233, Table 12.1), and when the bits a field has are all that the field uses. -/

namespace Sys2Proof

/-- A command header names a session of Table 12.1. The other fields are checked by the clerk (R292). -/
def CmdHdr.wf (h : CmdHdr) : Bool := decide (h.session < Config.nSessions)

/-- A message arrives on one of the two Ethernet ports (R257). -/
def Src.wf (x : Src) : Bool := decide (x.port < 2)

/-- A heartbeat probe's target exists (R303). -/
def Probe.wf : Probe → Bool
  | .core i => decide (i < 4)
  | .scheduler r => decide (r < Config.nRows)
  | .engine e => decide (e < Config.nEngines)
  | .press p => decide (p < 16)

/-- A scan of a device shifts its boundary register whole: 16 cells in a retimer, 156 in the hub (Table 21.7). -/
def cellsWf (dev : ChainDev) (cells : List Bool) : Bool := decide (cells.length = if dev = .hub then 156 else 16)

/-- A page that patrol scrub reads lies in one of the 1,048,576 blocks on one of the 8 channels; its codewords, 8 of 2 KiB,
have at most 120 bits corrected each, and a read takes at most 15 read-retry levels (R388, R389). -/
def ScrubPage.wf (g : ScrubPage) : Bool :=
  decide (g.block < 1048576 ∧ g.channel < 8 ∧ g.corrBits ≤ 120 ∧ g.corrWords ≤ 8 ∧ g.retries ≤ 15)

/-- The operands name what the module has. (DESIGN CHOICE, log 111) -/
def Instr.wf : Instr → Bool
  | .hello h _ | .resync h _ | .roleAssert h _ | .stallOpen h _ | .stallClose h _ | .stallQuery h _
  | .stallLimits h _ | .voiceLoad h _ | .voiceUnload h _ | .rowConfigure h _ | .streamOpen h _
  | .streamMark h _ | .streamPause h _ | .streamResume h _ | .streamEnd h _ | .streamPark h _
  | .streamExport h _ | .streamImport h _ | .streamQuery h _ | .sapConfig h _ | .sapSlotmask h _
  | .sapBind h _ | .libWrite h _ | .libList h _ | .libErase h _ | .attest h _ | .unlockChallenge h _
  | .unlockResponse h _ | .fwStage h _ | .fwCommit h _ | .auditRead h _ | .regRead h _ | .regWrite h _
  | .freqMeasure h _ | .countersRead h _ | .heartbeat h _ => h.wf
  | .streamFeed k _ => decide (k < Config.nSessions)
  | .clkGateOn h _ | .clkGateOff h _ | .warmReset h _ | .coldResetRequest h _ | .secCfgSave h
  | .exportImageRead h _ _ _ => h.wf
  | .perDieReset h d => h.wf && decide (d < 24)
  | .secCredCommit h i | .secCredClear h i => h.wf && decide (i < 3)
  | .vctOpen x _ | .vctClose x _ | .vctAck x _ | .vctCommand x _ | .vctFeed x _ => x.wf
  | .frameReceive p _ => decide (p < 2)
  | .retransmissionTimeout k _ | .sessionSilenceTimeout k | .sessionFreeTimeout k | .feedStatus k
  | .heartbeatSend k | .snapshotExpire k _ => decide (k < Config.nSessions)
  | .grant k | .teardownComplete k => decide (k < Config.nStalls)
  | .crier src => decide (src < 15)
  | .heartbeatRaise l => l.all Probe.wf
  | .clerkWatchdog c => decide (c < 4)
  | .staging r | .admission r | .rowBuildDone r => decide (r < Config.nRows)
  | .stagingComplete n | .quireEnd n | .folioWritten n | .pageInComplete n _ _ | .remoteFetchFail n
  | .remoteFetchTimeout n | .streamEntryRewrite n | .rtpPacketSend n | .audio n | .parkDone n _ =>
    decide (n < Config.nStreams)
  | .beat p g => decide (p < 16) && decide (g.stage < 16)
  | .transferIssue e | .transferComplete e _ _ _ | .wait e _ | .signal e _ => decide (e < Config.nEngines)
  | .swap p i => decide (p < 16) && decide (i < 64)
  | .dlkFired d a b => decide (d < 4) && decide (a < Config.nStreams) && decide (b < Config.nStreams)
  | .patrolScrub c _ _ => decide (c < 48)
  | .rowFault r p => decide (r < Config.nRows) && decide (p < 16)
  | .linkDown p | .linkUp p | .pfcPauseExpire p _ => decide (p < 2)
  | .sapFrameSync p _ _ | .sapWatchdog p | .sapMutedPeriod p | .sapMaskCommit p => decide (p < 16)
  | .clkSrcSwitchDone m | .clkSrcDeadold m => decide (m < 17)
  | .flashScrub g => g.wf
  | .flashChannelReset c => decide (c < 8)
  | .extest d l | .extestPulse d l | .extestTrain d l => cellsWf d l
  | .samplePreload d a b => cellsWf d a && cellsWf d b
  | .spineLinkFail d => decide (d < 25)
  | .perDieResetComplete d _ => decide (d < 24)
  | .consCheck | .baseGranuleRewrite _ | .freqMeasureDone _ | .fmtrTimeout | .diagTimeout _ _ | .tallyRefill
  | .tallySave | .bootScrubComplete _ | .libEntryTimeout _ | .libEraseDone _ | .orphanExpire _ | .exportExpire _
  | .challengeExpire | .lockoutEnd | .scheduledReset | .probationEnd | .powerCapTick _ _ _ | .thermalStep _
  | .thermalFailure | .thermalTrip | .inputLoss | .powerUp | .resetN | .pllLock _ | .palhaniStart | .portsEnable
  | .attestKeyReady | .entropyFail | .idcode _ | .highz _ | .clamp _ | .bypass _ | .dbgRd _ | .dbgWr _ _ | .fpgm _
  | .tapReset | .referenceClockLoss _ | .resetNRelease _ _ => true

end Sys2Proof
end

