-- ==== Sys2Proof/Decode.lean ====
section
/-! DEFINITION. The command a word of spec/opcode_table.json spells. The table gives none of its rows any bits: host
commands travel as bytes with an opcode of their own (Table 14.1) and events have no encoding, so no word spells one. -/

namespace Sys2Proof

/-- The command spelled by the table's bits: the table gives no row bits, so none. -/
def decodeTableWord (_nbits _w : Nat) : Option Instr := none

end Sys2Proof
end

