-- ==== Sys2Proof/Machine/State.lean ====
section
/-! DEFINITION. The machine's state as plain data: every table, register, queue, counter, mode and pin the spec gives
the VX25, the queue of waiting commands, and the state after a cold reset. Register counters are 48 bits wide and wrap
(R102). Sparse tables are read through their default entry (Machine/Ops.lean). -/

namespace Sys2Proof.Machine

/-- Why a step stops. Raised by every meaning that would act after the loss of a reference oscillator (R426): there the
spec says the module's behaviour is not defined. Safe: the model says nothing further. -/
inductive Fault where
  | undefinedAfterClockLoss     -- R426: behaviour after loss of a reference is not defined (safe)
  deriving DecidableEq, Repr

/-- Why a step gives no meaning. `notModelled` is raised by an arm of exec for a command that has no meaning yet; safe. -/
inductive Refusal where
  | notModelled (mnemonic : String)
  deriving DecidableEq, Repr

/-! ## Deferred responses -/

/-- A response still owed: the session, the COMMAND's VCT sequence number, its tag, its opcode (R294), and which use of
the session ID and which life of the session it belongs to. -/
structure Defer where
  session : Nat
  seq     : BitVec 32
  tag     : BitVec 32
  opcode  : Nat
  gen     : Nat
  life    : Nat := 0
  deriving DecidableEq, Repr, Inhabited

/-! ## Streams (chapter 3) -/

/-- Stream states (Table 3.3). -/
inductive SState where
  | free | idle | queued | resident | draining | parked | faulted
  deriving DecidableEq, Repr, Inhabited

/-- Where the valid image of a stream's eight folio pages is (R209, R211: the pages come together). -/
inductive Residence where
  | present | inFlash | remote
  deriving DecidableEq, Repr, Inhabited

/-- A folio copy between GDDR7 and a pitch: not asked for, under way, or complete. -/
inductive CopySt where
  | none | running | done
  deriving DecidableEq, Repr, Inhabited

/-- A chunk held in the feed queue, with the buffers it holds (R244): shared buffers by die, and its floor if it took it. -/
structure HeldChunk where
  seq    : BitVec 32
  tokens : List FToken
  frame0 : Nat                  -- absolute frame at which its first token starts (R31)
  bufs   : List (Nat × Nat)     -- die and number of each shared buffer held, those of its first tokens first
  floor  : Bool
  freed  : Nat := 0             -- buffers of its first tokens already released (R246)
  deriving DecidableEq, Repr, Inhabited

/-- An admitted quire (R94, R96). -/
structure Quire where
  frame0 : Nat                  -- first frame
  frames : Nat
  marks  : List Nat             -- pending marks that fell on it and were placed (R98)
  left   : Bool                 -- its last sample token has left the egress stage
  backs  : Nat := 0             -- slices written back to the pitch, each with its signal (R204)
  deriving DecidableEq, Repr, Inhabited

/-- An import's fetch from the exporting peer (R211, R327). -/
structure Fetch where
  addr   : BitVec 128
  udp    : BitVec 16
  handle : BitVec 32
  bytes  : Nat
  chunks : Nat                  -- pending chunks in the image
  bufs   : List (Nat × Nat)     -- die and number of each feed buffer taken at acceptance (R246), until the chunk section has been read
  deriving DecidableEq, Repr, Inhabited

/-- A stream: its table entry (Table 3.1) and what the scheduler, the feed path and Palhani hold for it. The default is
the FREE entry after cold reset. -/
structure Stream where
  st        : SState := .free
  staged    : Bool := false
  scan      : Bool := false
  paused    : Bool := false
  inFlash   : Bool := false
  endReq    : Bool := false
  exportReq : Bool := false
  exportMove : Bool := false
  status    : Status := .ok
  stall     : Nat := 0
  voice     : Nat := 0
  row       : Option Nat := none     -- none with st ≠ free is row_none = 1
  pitch     : Nat := 0
  outKind   : Nat := 0
  outIndex  : Nat := 0
  lastAcc   : BitVec 32 := 0
  lastEm    : BitVec 32 := 0
  pendFrames : Nat := 0
  samples   : Nat := 0
  marks     : List Nat := []         -- pending reset marks, ascending; mark_pos is the first
  lastMark  : Nat := 0
  handle    : BitVec 32 := 0
  ssrc      : BitVec 32 := 0
  origin    : Nat := 0
  -- what the hardware and Palhani hold beside the entry
  seed      : BitVec 64 := 0         -- rng_seed of the folio header
  chunks    : List HeldChunk := []   -- feed queue, oldest first
  fedFrames : Nat := 0               -- absolute frame at which the next chunk starts
  quire     : Option Quire := none
  queuedAt  : Nat := 0               -- order in which it became QUEUED (R93)
  readyAt   : Option Nat := none     -- order in which its staging completed (R94)
  claimAt   : Nat := 0               -- order of its staging claim (R250)
  copyIn    : CopySt := .none
  copyOut   : CopySt := .none
  res       : Residence := .present
  undef     : Bool := false          -- folio_undefined of the shadow (R239)
  fetch     : Option Fetch := none
  deferPause : List Defer := []      -- responses owed to PAUSE commands, oldest first
  deferExport : Option Defer := none
  cancelled : Option Defer := none   -- a pending move export that STREAM_END cancelled: answered at the quire end (R326)
  barrier   : Bool := false          -- journal-replayed: it binds to rows in barrier mode only (R358)
  aborted   : Bool := false          -- an abort STREAM_END has been accepted
  dropped   : Nat := 0               -- pending marks an abort discarded before FREE
  movedBy   : Option Nat := none     -- of a FREE entry: the stall whose move export has freed it (Table 14.6)
  deriving DecidableEq, Repr, Inhabited

/-- A run of samples in one egress buffer (R248): the position of its first sample and its samples, each with the CTCLK of
its arrival. A shared buffer holds one run; the floor buffer may hold several. -/
structure EgrBuf where
  pos     : Nat
  samples : List (Int × Nat)
  floor   : Bool
  deriving DecidableEq, Repr, Inhabited

/-- A stream ID's egress: its entry (Table 12.5), its samples and the formatter's history. It outlives the stream's
return to FREE until its samples are sent (R52, R65). -/
structure Egress where
  dstAddr   : BitVec 128 := 0
  dstPort   : BitVec 16 := 0
  seqBase   : BitVec 16 := 0
  pt        : Nat := 0
  codec     : Nat := 0
  rate      : Nat := 0
  ptime     : Nat := 0
  markerNext : Bool := false
  lastSent  : Nat := 0
  -- beside the entry
  stall     : Nat := 0
  kind      : Nat := 3               -- out_kind its samples leave by
  index     : Nat := 0
  gen       : Nat := 0               -- out_kind 2: which use of the session ID it names (R282)
  life      : Nat := 0               -- which opening of the stream ID it belongs to: an order stamp
  rVoice    : Nat := 0               -- the voice's out_rate in Hz
  ssrc      : BitVec 32 := 0         -- the stream's ssrc, kept for packets that leave after it is FREE
  bufs      : List EgrBuf := []
  floorRsv  : Bool := false          -- egress floor reservation held (R247)
  quireEnd  : Nat := 0               -- position one past the last quire written
  final     : Option Nat := none     -- final sample_count after a graceful end
  marks     : List Nat := []         -- applied marks that R280 still needs, ascending
  hist      : List (Nat × Int) := [] -- voice-rate samples already released that R280 still reads
  released  : Nat := 0               -- buffers below this position are released
  lastPkt   : Option Nat := none     -- CTCLK at which the previous packet was sent
  cutTo     : Option Nat := none     -- after a stream fault: position up to which complete packets still leave (R78)
  deriving DecidableEq, Repr, Inhabited

/-- A stream's journal slot (R353): its header (Table 15.4) and its records. -/
structure Journal where
  firstFrame : Nat := 0
  replayMark : Nat := 0
  firstSeq   : BitVec 32 := 0
  complete   : Bool := false
  records    : List HeldChunk := []
  deriving DecidableEq, Repr, Inhabited

/-! ## Stalls (chapter 3) -/

/-- Stall states (Table 3.2). -/
inductive StallSt where
  | free | open_ | quiescing | torn
  deriving DecidableEq, Repr, Inhabited

/-- A stall table entry (Table 3.2) with Palhani's ledger of its credits. -/
structure Stall where
  st       : StallSt := .free
  weight   : Nat := 0
  tear     : Status := .ok
  quota    : Nat := 0
  opened   : Nat := 0
  voices   : Nat := 0
  vquota   : Nat := 0
  seed     : BitVec 64 := 0
  tally    : Nat := 0
  held     : Nat := 0
  pitches  : Nat := 0
  egress   : Nat := 0
  porter   : Nat := 0
  faults   : Nat := 0
  ceiling  : Nat := 0                -- feed ceiling (R316)
  granted  : BitVec 32 := 0          -- granted_total (R273)
  abort    : Bool := false           -- the close in force is an abort
  ended    : Nat := 0                -- streams freed since STALL_OPEN (log 164)
  tearing  : Bool := false           -- teardown under way (R77)
  deriving DecidableEq, Repr, Inhabited

/-! ## Voices, bases, rows, presses (chapters 2 and 4) -/

/-- A loaded voice (R24 to R26). -/
structure Voice where
  loaded   : Bool := false
  stall    : Nat := 0
  hash     : BitVec 256 := 0
  mask     : BitVec 8 := 0
  entry    : Nat := 0
  baseHash : BitVec 256 := 0
  scan     : Bool := false
  scanFrames : Nat := 0
  rate     : Nat := 0                -- out_rate in Hz
  hop      : Nat := 0
  inventory : Nat := 0
  hot      : Nat := 0                -- hot-part bytes
  addr     : Nat := 0                -- extent in space 0
  bytes    : Nat := 0
  inRegion : Bool := false           -- the adapter image is in the weight region (R77 step 6 frees it)
  deriving DecidableEq, Repr, Inhabited

/-- A base model that some row names (R27). -/
structure Base where
  used   : Bool := false
  hash   : BitVec 256 := 0
  entry  : Nat := 0
  addr   : Nat := 0
  bytes  : Nat := 0
  loaded : Bool := false             -- the image has been written into its extent
  scan   : Bool := false
  scanFrames : Nat := 0
  rate   : Nat := 0
  hop    : Nat := 0
  inventory : Nat := 0
  deriving DecidableEq, Repr, Inhabited

/-- Row states (Table 2.6). -/
inductive RowSt where
  | absent | draining | building | live
  deriving DecidableEq, Repr, Inhabited

/-- The configuration a ROW_CONFIGURE gives a row (R322). -/
structure RowCfg where
  first   : Nat := 0
  presses : Nat := 0
  overlap : Bool := false
  quire   : Nat := 0
  base    : Option Nat := none       -- index into the table of bases
  entry   : Nat := 0                 -- base_entry: the library entry whose placement it loads (R47)
  deriving DecidableEq, Repr, Inhabited

/-- A block of BF-state (R106): exponent and 16 complex mantissas. -/
structure BfBlock where
  e : Nat
  m : List (Int × Int)
  deriving DecidableEq, Repr, Inhabited

/-- An int8 row or window: its scale, zero point, codes and outlier codes (R157). -/
structure QRow where
  s  : Fp24
  z  : Int
  xq : List Int
  xo : List (Nat × Int)
  deriving DecidableEq, Repr, Inhabited

/-- A step token (Table 4.1) and the values it carries from stage to stage. -/
structure Tok where
  stream : Nat
  stall  : Nat
  voice  : Nat
  pos    : Nat
  reset  : Bool := false
  void   : Bool := false
  first  : Bool := false
  last   : Bool := false
  -- what the pipeline holds of it beside Table 4.1
  adm    : Nat := 0                  -- its row's admission that it belongs to: tells tokens of one stream ID's lives apart
  gone   : Bool := false             -- its stream has left the row by a fault of its own (R76)
  cut    : Bool := false             -- the last token of a sample beat (R84)
  hop    : Nat := 1                  -- samples per frame of the stream's voice
  chans  : Nat := 0                  -- channels at one position of val; 0: all of it
  next   : Nat := 0                  -- index of the row program's next operation
  frame  : Bool := true              -- on the frame grid
  val    : List Fp24 := []
  row    : Option QRow := none
  held   : List Fp24 := []           -- first result of a pair (R124)
  res    : List Fp24 := []           -- section buffer (residual)
  sample : Int := 0
  deriving DecidableEq, Repr, Inhabited

/-- One stateful operation's slice of a stream's state while the stream is resident (R96). -/
structure Slice where
  blocks : List BfBlock := []
  hist   : List (List Fp24) := []    -- oldest step first (R134)
  tail   : List (List Fp24) := []    -- upsampler tail (R138)
  seg    : List Tok := []            -- scan mode: the tokens of the segment under way (R121)
  deriving DecidableEq, Repr, Inhabited

/-- A voice's hot part in a row's adapter cache (R25, R40): its operations. -/
structure Hot where
  here  : Bool := false
  ops   : List LayerOp := []
  deriving DecidableEq, Repr, Inhabited

/-- A row (Table 2.6, Table 4.7) and its scheduler (R92 to R94). -/
structure Row where
  st       : RowSt := .absent
  cfg      : RowCfg := {}
  newCfg   : Option RowCfg := none   -- accepted configuration, while DRAINING or BUILDING
  defer    : Option Defer := none
  prog     : List (Nat × LayerOp) := []
  slices   : Tbl Slice := []         -- key: operation × 2^18 + stream
  issue    : List Tok := []          -- frame tokens of admitted quires, not yet taken by the token stage
  admits   : C48 := 0
  resident : Nat := 0
  staged   : Nat := 0
  inflight : Nat := 0                -- frame tokens in flight
  withheld : Nat := 0                -- staging places withheld (R466)
  cur      : Option Nat := none
  lastServed : Nat := 16383
  weight   : Nat := 0                -- weight of cur, as it stood when it became cur
  granted  : Tbl Nat := []
  coldBytes : Nat := 0
  hotState : Nat := 0
  cache    : Tbl Hot := []           -- hot parts in the row's adapter cache, by voice
  waits    : List (Nat × Nat × Nat × Nat) := [] -- stage, operation, barrier counter and count its core waits for (R203)
  reads    : List (Nat × Nat × Nat) := []       -- stage, operation and buffer pair whose recto it reads (R205)
  maps     : List (Nat × Nat × Nat) := []       -- stage, operation and press-memory address of its compressed rows (R145)
  banks    : List (Nat × Nat × List Nat) := []  -- stage, operation and the scale banks of its tiles (R162)
  wins     : List (Nat × Nat × Nat) := []       -- stage, operation and press-memory address of its converted window (R136)
  deriving DecidableEq, Repr, Inhabited

/-- A buffer pair (Table 9.4). -/
structure Pair where
  recto : Bool := false
  full  : Bool := false
  held  : Bool := false
  void  : Bool := false
  req   : Bool := false
  kib   : Nat := 0
  swaps : Nat := 0                   -- swaps taken: tells a SWAP descriptor that its own has taken effect (R206)
  deriving DecidableEq, Repr, Inhabited

/-- A press: retirement, row faults, counters (Tables 6.4, 7.9, 8.5, 9.8), buffer pairs and scale banks (Table 7.5). -/
structure Press where
  retired : Bool := false
  faultAt : Option Nat := none       -- CTCLK of its latest row fault (R345)
  dead : C48 := 0
  kettle : C48 := 0
  cmapRaw : C48 := 0
  cmapOut : C48 := 0
  cmapBad : C48 := 0
  qsat : C48 := 0
  osat : C48 := 0
  fsat : C48 := 0
  flush : C48 := 0
  weigh : C48 := 0
  rngBlocks : C48 := 0
  rngSround : C48 := 0
  rngDither : C48 := 0
  rngGumbel : C48 := 0
  pwHalt : C48 := 0
  pwBarrier : C48 := 0
  pwFence : C48 := 0
  pwLimit : C48 := 0
  pwSlot : C48 := 0
  pwArb : C48 := 0
  pwFlight : C48 := 0
  pwQueue : C48 := 0
  memCe  : C48 := 0                  -- corrected words of press memory: RESYNC's Faults section (R344)
  pairs  : Tbl Pair := []
  scales : Tbl Fp24 := []            -- key: platen × 2,048 + i
  deriving DecidableEq, Repr, Inhabited

/-- Why a core waits for porter data (Table 9.8). -/
inductive Cause where
  | halt | barrier | fence | limit | slot | arb | flight | queue
  deriving DecidableEq, Repr, Inhabited

/-- A stage: its part of the placement, its recto and verso beats (R82) and its cycle counters (Table 4.7). -/
structure Stage where
  row   : Option Nat := none
  kind  : Nat := 0
  beat  : Nat := 0
  cyc   : Nat := 0
  units : List Nat := []             -- units of the press it uses (Table 18.2)
  recto : List Tok := []             -- the computed beat, until it has been handed on
  verso : List Tok := []             -- the input being filled
  back  : List Tok := []             -- tokens of its own beats that have come back to it (R88)
  out   : List (List (Nat × Nat)) := [] -- its beats that are away, by stream, position and admission
  fired : List (Nat × Nat) := []     -- stream and ARCLK cycle of steps issued in the last 96 (R85)
  issueAt : Nat := 0                 -- ARCLK cycle at which its unit may issue next
  acct  : Nat := 0                   -- ARCLK cycle up to which its cycles are counted (R102)
  oweBusy : Nat := 0                 -- cycles of the beat under way not counted yet
  oweLoop : Nat := 0
  oweHand : Nat := 0
  cause : Option Cause := none       -- why its core waits for porter data (R214)
  busy : C48 := 0
  starve : C48 := 0
  loop : C48 := 0
  handoff : C48 := 0
  block : C48 := 0
  deriving DecidableEq, Repr, Inhabited

/-- Counters of a recurrence unit (Table 5.6). -/
structure RecUnit where
  steps : C48 := 0
  grow : C48 := 0
  renorm : C48 := 0
  sat : C48 := 0
  resets : C48 := 0
  segs : C48 := 0
  deriving DecidableEq, Repr, Inhabited

/-! ## Porters (chapter 9) -/

/-- A descriptor in a queue, with its progress (R196, R209). -/
structure QDesc where
  id     : Nat
  d      : Desc
  elem   : Nat := 0                  -- element of the next transfer, i1 fastest; the saved position when halted
  off    : Nat := 0                  -- its byte offset within that element
  doneN  : Nat := 0                  -- transfers completed into their destination
  flying : Nat := 0                  -- transfers issued and not complete
  halted : Bool := false
  resumed : Bool := false            -- cleared to issue again after a halt
  asked  : Option Nat := none        -- a SWAP that has requested its swap: the swaps its pair had taken then (R206)
  deriving DecidableEq, Repr, Inhabited

/-- The producer of a queue (R188): none, a sequencer core by its stage, a row's stream scheduler, the VCT engine, the clerk. -/
inductive Producer where
  | none | core (stage : Nat) | scheduler (row : Nat) | vct | clerk
  deriving DecidableEq, Repr, Inhabited

/-- A queue of an engine (Table 9.9). -/
structure PQueue where
  limit : Nat := 64
  producer : Producer := .none
  descs : List QDesc := []
  deriving DecidableEq, Repr, Inhabited

/-- The slot a transfer holds: a shared one, its queue's floor or its stream's floor (R249). -/
inductive SlotKind where
  | shared | queue | stream
  deriving DecidableEq, Repr, Inhabited

/-- An issued transfer: it holds one slot until its last byte is written (R186). -/
structure Xfer where
  serial : Nat := 0                  -- order of issue over all engines
  slot  : SlotKind := .shared
  queue : Nat
  desc  : Nat
  op    : Nat
  src   : Nat
  dst   : Nat
  len   : Nat
  cls   : Nat
  sys   : Bool
  stall : Nat
  stream : Nat
  data  : List Byte := []            -- the bytes it carries, read as it issued (R197)
  at_   : Nat := 0                   -- where they land: dst, or an expanded record's place
  corrupt : Bool := false            -- it ends a record that R146 calls corrupt
  discard : Bool := false
  deriving DecidableEq, Repr, Inhabited

/-- A completion record (Table 9.5). -/
structure CompRec where
  tag : BitVec 64
  status : Status
  op : Nat
  engine : Nat
  queue : Nat
  transfers : Nat
  deriving DecidableEq, Repr, Inhabited

/-- A porter engine (R186 to R215). -/
structure Engine where
  queues  : Tbl PQueue := []
  issued  : List Xfer := []
  floors  : List Nat := []           -- streams whose porter floor is reserved here (R247)
  halts   : Nat := 0                 -- descriptors on the halt list
  bars    : Tbl (BitVec 32) := []
  barOwner : Tbl Nat := []           -- whom a barrier counter is assigned to: 0 the system, 1 + n stall n (R204)
  cur     : Option Nat := none       -- contender served now: 0 the system, 1 + n stall n (R190)
  last    : Nat := 16384             -- stall 16383
  weight  : Nat := 0                 -- weight of cur, as it stood when it became cur
  sent    : Nat := 0
  lastQ   : Tbl Nat := []            -- last served queue of each contender
  nextId  : Nat := 0
  xfers   : C48 := 0
  bytes   : Tbl C48 := []            -- by class
  halted  : C48 := 0
  faults  : C48 := 0
  cancel  : C48 := 0
  barsat  : C48 := 0
  deriving DecidableEq, Repr, Inhabited

/-! ## GDDR7 and state store (chapter 10) -/

/-- A granule request in a channel controller (R229): the granule's slot, its bank (R222), the transfer it belongs to,
and whether the granule was corrected and written back while it waited (R234, R240). -/
structure GReq where
  slot   : Nat
  bank   : BitVec 64
  serial : Nat
  fixed  : Bool := false
  deriving DecidableEq, Repr, Inhabited

/-- A GDDR7 channel (Table 10.3), its poisoned granules, and the CTCLK of its recent uncorrectable errors (R217). -/
structure Channel where
  rd : C48 := 0
  wr : C48 := 0
  rmw : C48 := 0
  ce : C48 := 0
  ue : C48 := 0
  retry : C48 := 0
  scrub : C48 := 0
  ueSeen : Bool := false
  failed : Bool := false
  trained : Bool := false
  trainedAt : Nat := 0
  slots0 : Nat := 0                  -- slots counted before the latest per-die reset
  poison : List Nat := []            -- slots
  reqs   : List GReq := []           -- requests in order of arrival; the controller holds the first 256 (R229)
  ueTimes : List Nat := []
  deriving DecidableEq, Repr, Inhabited

/-- The part of one granule that Palhani's move into a GDDR7 die in reset covers: it waits (R422, R424). -/
structure HeldMove where
  addr  : Nat
  len   : Nat
  bytes : Option (List Byte)     -- what a write brings, and 0 behind it; none for a read
  deriving DecidableEq, Repr, Inhabited

/-- A state-store die (R233, Table 11.2). -/
structure Die where
  pitchFree : Nat := 4096
  feedFree  : Nat := 180224
  feedUsed  : List Nat := []         -- numbers of the shared buffers held, rising
  feedFloor : Nat := 0
  ce : C48 := 0
  ue : C48 := 0
  ueSeen : Bool := false
  dlk : C48 := 0
  deriving DecidableEq, Repr, Inhabited

/-! ## What has left the module (the model's own log) -/

/-- An RTP packet as it leaves a port (R276): addressing, priorities, header fields and payload. -/
structure RtpPkt where
  stream  : Nat
  dst     : BitVec 128
  dport   : BitVec 16
  sport   : BitVec 16
  dscp    : Nat
  vlan    : Option (Nat × Nat)             -- VLAN ID and PCP when frames are tagged
  pt      : Nat
  marker  : Bool
  seq     : BitVec 16
  stamp   : BitVec 32
  ssrc    : BitVec 32
  payload : List Byte
  deriving DecidableEq, Repr, Inhabited

/-- One thing the module has sent. -/
inductive Sent where
  | vct (session type : Nat) (seq : BitVec 32) (body : List Byte)
  | ackTo (dst : Src) (session : Nat) (epoch : BitVec 32) (refused : Bool)
  | ackMsg (session : Nat) (ack : BitVec 32) (sacks : List (BitVec 32 × BitVec 32)) (body : List Byte)
  | rtp (port : Nat) (p : RtpPkt)
  | reply (port kind : Nat) (mac : BitVec 48) (dst : BitVec 128) (data : List Byte) -- 0 ARP, 1 ND, 2 ICMP echo, 3 ICMPv6 echo
  | pfc (port priority : Nat) (pause : Bool)
  | queued (cfg qos ports ipv4 : BitVec 32) (ipv6 : BitVec 128) (x : Sent) -- a frame that was held, under the words it was queued with
  deriving DecidableEq, Repr, Inhabited

/-! ## Network and sessions (chapters 12 and 13) -/

/-- An Ethernet port (Table 12.7): its configuration registers, status and counters. -/
structure NetPort where
  cfg    : BitVec 32 := 0x05DC0000#32   -- mtu 1,500
  qos    : BitVec 32 := 0x0002E000#32   -- rtp_dscp 46
  ports  : BitVec 32 := 0xB7FEB7FC#32   -- rtp_sport 47,102, vct_port 47,100
  ipv4   : BitVec 32 := 0
  mask4  : BitVec 32 := 0
  gw4    : BitVec 32 := 0
  ipv6   : BitVec 128 := 0
  gw6    : BitVec 128 := 0
  prefix6 : BitVec 32 := 64
  up     : Bool := false
  lost   : Bool := false                -- link_lost
  paused : Byte := 0                    -- priorities paused by received PFC frames
  held   : List Sent := []              -- VCT frames held while vct_pcp is paused, oldest first (R258)
  rxFrames : C48 := 0
  txFrames : C48 := 0
  rxDrop : C48 := 0
  fecCorr : C48 := 0
  fecUncorr : C48 := 0
  deriving DecidableEq, Repr, Inhabited

/-- A device message kept until the host acknowledges it (R266 to R268). -/
structure TxMsg where
  seq   : BitVec 32
  type  : Nat
  body  : List Byte
  sentAt : Nat
  retx  : Nat := 0
  rto   : Nat
  sacked : Bool := false
  fast  : Bool := false                 -- sent again as a hole below three SACKed messages (R268)
  stream : Option (Nat × Nat × Nat) := none -- an AUDIO message: stream, position its buffers free up to, the entry's life
  deriving DecidableEq, Repr, Inhabited

/-- A command held in a command ring (R288): the VCT seq it came in and its payload, whether Palhani has started it (R294),
and the life of the session in which it was delivered (Table 12.6). -/
structure RingCmd where
  seq   : BitVec 32
  bytes : List Byte
  started : Bool := false
  life  : Nat := 0
  deriving DecidableEq, Repr, Inhabited

/-- A feed status record (Table 12.4). -/
structure FeedRec where
  stream : Nat
  none_  : Bool
  seq    : BitVec 32
  status : Status
  credits : Nat
  state  : Nat
  info   : BitVec 32
  deriving DecidableEq, Repr, Inhabited

/-- A RESYNC snapshot or an attestation report kept for paging (R304, R334): its number, the report's bytes or the
snapshot's sections of one or more records, each with its section type, and the streams that section 8 lists. -/
structure Kept where
  id      : Nat
  bytes   : List Byte := []
  records : List (Nat × List Byte) := []
  ids     : Option (List Nat) := none   -- none: no section 8
  deriving DecidableEq, Repr, Inhabited

/-- Session states (R263, R269). -/
inductive SessSt where
  | closed | opened | dead
  deriving DecidableEq, Repr, Inhabited

/-- A VCT session with its transport state, its rings and its role. -/
structure Session where
  st      : SessSt := .closed
  src     : Src := { port := 0, addr := 0, udp := 0 }
  version : Nat := 0
  epoch   : BitVec 32 := 0
  stall   : Option Nat := none          -- none: a module session
  txNext  : BitVec 32 := 0
  tx      : List TxMsg := []            -- sent and unacknowledged, oldest first
  txWait  : List TxMsg := []            -- waiting for the host's window
  window  : Nat := 1
  rxNext  : BitVec 32 := 0              -- ack
  rxHeld  : List VctMsg := []           -- out-of-order messages held
  srtt    : Option Nat := none          -- CTCLK
  rttvar  : Nat := 0
  lastRx  : Nat := 0
  role    : Nat := 0
  peer    : Bool := false
  greeted : Bool := false
  hbPeriod : Nat := 0                   -- units of 10 ms
  hbSent  : Nat := 0                    -- hb_count last sent
  ring    : List RingCmd := []
  rspUsed : Nat := 0
  rspWait : List (BitVec 32 × List Byte) := []   -- responses waiting for a response ring entry: cmd_seq and payload
  feedRecs : List FeedRec := []         -- status records not yet sent, oldest first
  snap    : Option Kept := none
  report  : Option Kept := none
  gen     : Nat := 0                    -- times the session ID has been freed
  life    : Nat := 0                    -- times the session has been resumed (R269)
  deriving DecidableEq, Repr, Inhabited

/-- A crier record (Table 13.6); `ext` is its extension when it names two units. -/
structure CrierRec where
  seq    : Nat
  source : Nat
  status : Status
  event  : Nat
  gap    : Bool := false
  stall  : Option Nat := none           -- none: a module event
  stream : Option Nat := none
  unit   : Nat := 0
  arg    : BitVec 64 := 0
  ext    : List Nat := []               -- extension words of 4 bytes
  deriving DecidableEq, Repr, Inhabited

/-- A crier source (R298, R300). -/
structure CrierSrc where
  seq  : Nat := 0
  ring : List CrierRec := []            -- oldest first
  gap  : Bool := false                  -- a record has been discarded since the last one kept
  deriving DecidableEq, Repr, Inhabited

/-- What Palhani asks of an exporting module over the peer path, as a host would (R364): the OPEN of a module session at version
7, or a COMMAND's opcode and body. -/
inductive PeerAsk where
  | opened
  | command (opcode : Nat) (body : List Byte)
  deriving DecidableEq, Repr, Inhabited

/-- The VCT and RTP counters of Table 12.7. -/
structure Vct where
  rx    : List (Src × VctMsg) := []     -- receive buffer, oldest first
  pfcSent : List Nat := []              -- ports on which PFC for vct_pcp is in force
  bad   : C48 := 0
  badCrc : C48 := 0
  retx  : C48 := 0
  lost  : C48 := 0
  audioDrop : C48 := 0
  peers : List (BitVec 128 × BitVec 16) := []          -- exporters with an open peer session (R364)
  asked : List ((BitVec 128 × BitVec 16) × PeerAsk) := [] -- the model's own log of what they were asked, newest first
  dups  : C48 := 0                      -- duplicate chunks (R56); no register shows them
  rtpPkts : C48 := 0
  rtpDrop : C48 := 0
  deriving DecidableEq, Repr, Inhabited

/-- The clerk's counters (Table 13.10), and pool and recovery registers of the hub (Tables 11.2 and 15.9). -/
structure Clerk where
  cmds    : C48 := 0
  refused : C48 := 0
  hb      : C48 := 0
  crierLost : C48 := 0
  feedGrant : Nat := 0                  -- HUB_FEED_GRANT
  grantLast : Nat := 16383              -- last stall served with a GRANT (R273)
  egrFree : Nat := 49152                -- HUB_EGR_POOL.free
  consChecks : C48 := 0
  consFail : C48 := 0
  rowFaults : C48 := 0
  jrnlOvf : C48 := 0
  replayPeer : C48 := 0
  replayJrnl : C48 := 0
  nextSnap : Nat := 1
  nextReport : Nat := 1
  -- totals RESYNC section 5 reports (Table 13.9)
  streamFaults : C48 := 0
  stallTears : C48 := 0
  moduleFailures : C48 := 0
  hung    : Bool := false               -- a core waits for an access that never completes (R423)
  failed  : Option Nat := none          -- cause of the module failure in force
  deriving DecidableEq, Repr, Inhabited

/-- An export image (R326, R365). -/
structure ExportImg where
  held   : Bool := false
  bytes  : List Byte := []
  read   : List Nat := []               -- 512-byte entries read at least once
  deriving DecidableEq, Repr, Inhabited

/-! ## Flash (chapter 17) -/

/-- A library entry (R331, R401). -/
structure LibEntry where
  used   : Bool := false
  ready  : Bool := false
  total  : Nat := 0
  bytes  : List Byte := []
  addr   : Nat := 0                     -- extent in space 3
  owner  : Nat × Nat := (0, 0)          -- session that created it, and which use of its ID
  damaged : Bool := false               -- R403
  erasing : Bool := false               -- out of the listing, blocks not yet erased (R402)
  deriving DecidableEq, Repr, Inhabited

/-- States of a park record (Table 17.6). -/
inductive ParkSt where
  | free | writing | valid | orphan
  deriving DecidableEq, Repr, Inhabited

/-- A park record (Table 17.6, R397). -/
structure Park where
  st     : ParkSt := .free
  gen    : Nat := 0
  stall  : Nat := 0
  samples : Nat := 0
  discard : Option Status := none       -- the write will be discarded, PARK_DONE with this status (R405)
  writing : Bool := false               -- the latest park's write is in progress
  gone    : List (Status × Nat) := []   -- discarded writes of earlier parks still in progress: status and stall
  copied  : Nat := 0                    -- writes whose bytes the hub porter has copied (R397)
  reading : Bool := false               -- a page-in of the record is under way
  fetched : Bool := false               -- the hub porter has copied the record back (R211)
  read   : List Nat := []               -- entries of an orphan read by the peer path
  deriving DecidableEq, Repr, Inhabited

/-- A flash block (R390): its erase count, the pages programmed since, and those of them that hold data. -/
structure FBlock where
  erases : Nat := 0
  pages  : Nat := 0
  live   : Nat := 0
  since  : Nat := 0                     -- CTCLK of the first page programmed since the erase, or else of the erase (R393)
  bad    : Bool := false                -- retired (R395)
  deriving DecidableEq, Repr, Inhabited

/-- Per-channel flash counters (Table 17.6). -/
structure FlashCh where
  reads : C48 := 0
  programs : C48 := 0
  corr : C48 := 0
  retry : C48 := 0
  uncorr : C48 := 0
  deriving DecidableEq, Repr, Inhabited

/-- A datum in flash: the free value that seats its copies or stripes on channels (Table 17.1), and the blocks that hold its
pages, with how many. -/
structure Datum where
  seat : Nat := 0
  on   : Tbl Nat := []
  deriving DecidableEq, Repr, Inhabited

/-- What Palhani knows of the flash blocks (R390, R393, R395; Machine/Wear.lean): each block, the block that new pages of a
channel go to, where each datum lies, and the channels' counters. -/
structure Wear where
  blocks : Tbl FBlock := []
  openOn : Tbl (Option Nat) := []
  data   : Tbl Datum := []
  chans  : Tbl FlashCh := []
  deriving DecidableEq, Repr, Inhabited

/-- A firmware image in a slot: its hash, its version, and whether it passes R436. (DESIGN CHOICE, log 5) -/
structure FwImage where
  hash  : BitVec 256
  minor : Nat
  patch : Nat
  good  : Bool
  deriving DecidableEq, Repr, Inhabited

/-- A credential slot (R431): salt and verifier; a zero verifier is unset. -/
structure Cred where
  salt : BitVec 128 := 0
  ver  : BitVec 256 := 0
  deriving DecidableEq, Repr, Inhabited

/-- The configuration record in flash (R285, R431): NETn RW values when one has been saved, credential slots, and the
credential this module presents to a peer (R364). (DESIGN CHOICE, log 5) -/
structure CfgRec where
  nets  : Option (List (List (BitVec 32))) := none
  creds : List Cred := [{}, {}, {}]
  peer  : List Byte := []
  deriving DecidableEq, Repr, Inhabited

/-- The flash store, which alone survives loss of input power (R388, R459). (DESIGN CHOICE, log 5) -/
structure Flash where
  tally   : Nat := 8808038
  saved   : Nat := 8808038
  tallyZero : Bool := false
  readOnly : Bool := false
  bootScrub : Bool := true
  bootPages : Nat := 0                  -- pages refreshed since the cold reset, while its scrub runs (Table 17.4)
  auditDone : Nat := 0                  -- audit records whose pages are programmed (R450)
  auditPages : Nat := 0                 -- pages of each copy of the audit log programmed so far
  spares  : Nat := 98304
  parks   : C48 := 0
  unparks : C48 := 0
  parkFail : C48 := 0
  refresh : C48 := 0
  retired : C48 := 0
  wear    : Wear := {}
  park    : Tbl Park := []
  lib     : Tbl LibEntry := []
  slots   : List (Option FwImage) := [some ⟨0, 2, 0, true⟩, none]
  perm    : Nat := 0                    -- permanent slot
  probation : Option Nat := none        -- slot under probation (R337)
  fallback : Option (BitVec 256) := none -- image refused or failed at the last boot, until Palhani records it
  cfg     : CfgRec := {}
  bootCount : Nat := 0
  deriving DecidableEq, Repr, Inhabited

/-- Firmware staging and restart (R336, R337). -/
structure Fw where
  part    : List Byte := []             -- bytes staged so far
  partTotal : Nat := 0
  partOwner : Option (Nat × Nat) := none -- session that staged offset 0, and which use of its ID
  partAt  : Nat := 0                    -- CTCLK of the last part (R331)
  staged  : Option FwImage := none      -- checked, in the idle slot
  committed : Bool := false             -- FW_COMMIT has named it
  running : Nat := 0                    -- slot of the running image
  greeted : Bool := false               -- a HELLO was answered ST_OK since boot
  restart : Option Nat := none          -- accepted reset: 0 FW_COMMIT mode 1, 1 warm, 2 cold
  deriving DecidableEq, Repr, Inhabited

/-! ## Security (chapter 19) -/

/-- An unlock challenge (R335). -/
structure Challenge where
  id    : Nat
  level : Nat
  nonce : BitVec 256
  got   : List Byte := []
  deriving DecidableEq, Repr, Inhabited

/-- Roles, credentials, unlock, entropy and the audit log's head (Table 19.8). -/
structure Sec where
  stage   : List (BitVec 64) := [0, 0, 0, 0, 0, 0]
  failRun : Nat := 0
  lockout : Bool := false
  credFail : Bool := false
  credFails : C48 := 0
  unlocks : C48 := 0
  entFails : C48 := 0
  entropyFail : Bool := false
  debug   : Nat := 0
  challenge : Option Challenge := none
  issued  : Tbl Nat := []               -- level of every challenge issued since cold reset, by id
  nextCh  : Nat := 1
  attestReady : Bool := false
  hashKey : BitVec 128 := 0
  audit   : List (List Byte) := []      -- kept records, newest first
  auditSeq : Nat := 0
  deriving DecidableEq, Repr, Inhabited

/-! ## Serial audio (chapter 16) -/

/-- A slot of a serial audio port (Table 16.4, SAP_SLOT_TABLE) with its inbound detection. -/
structure Slot where
  bound  : Bool := false
  stream : Nat := 0
  group  : Nat := 0
  codec  : Nat := 0
  hold   : Bool := false
  joined : Bool := false                -- the port has taken its first sample: a group member has joined (R382)
  played : Bool := false                -- its first sample has been played (Table 16.4)
  due    : Option Nat := none           -- output one past the sample taken for the next frame (R380)
  inMuted : Bool := false
  next   : Nat := 0                     -- next output sample to play or discard
  base   : Int := 0                     -- the base b_m of a joined group member (R382)
  csBits : List Bool := []              -- C bits of the channel-status block under way, newest first
  csOn   : Bool := false                -- inside a block
  quiet  : Nat := 0                     -- frames without a preamble
  deriving DecidableEq, Repr, Inhabited

/-- A slot group (R382): its index, and whether a held group has started. -/
structure Group where
  index : Nat := 0
  started : Bool := false
  deriving DecidableEq, Repr, Inhabited

/-- A serial audio port (Table 16.4). -/
structure Sap where
  mode  : Nat := 0
  master : Bool := false
  mclk  : Nat := 0
  mux   : Nat := 0                         -- where the master-clock mux stands (R414)
  muxTo : Nat := 0                         -- where a switch in progress takes it
  enable : Bool := false
  slots : Nat := 2
  bits  : Nat := 32
  rate  : Nat := 48000
  through : Bool := false
  cs    : Bool := false
  ctrlNext : Option (Bool × Bool) := none  -- SAPn_CTRL written, in force from the next frame sync
  pend  : BitVec 128 := 0
  act   : BitVec 128 := 0
  writes : List (BitVec 128 × Defer) := [] -- mask writes not yet committed, oldest first, with their responses (R329, R419)
  count : Option Nat := none               -- frame syncs since the latest commit not yet active
  wd    : Bool := false
  wdLive : Bool := false
  nonaudio : Bool := false
  underrun : Bool := false
  framing : Bool := false
  running : Bool := false
  synced : Bool := false                   -- a frame sync has come since the port's start (R372)
  good  : Nat := 0                         -- consecutive right frames while muted
  csFrame : Nat := 0                       -- frames since start, mod 192
  tbl   : Tbl Slot := []
  groups : Tbl Group := []
  next  : List (Option (BitVec 32)) := []  -- words that bound slots play in the next frame; none: no sample (R380)
  dout  : List (Option (BitVec 32)) := []  -- words of the frame being sent; none: high impedance
  tail  : Option Bool := none              -- last bit of the frame before, which DOUT carries up to the first bit of slot 0 (R373)
  frames : C48 := 0
  wdEvents : C48 := 0
  underruns : C48 := 0
  skip  : C48 := 0
  holds : C48 := 0
  muted : C48 := 0
  nonaudios : C48 := 0
  framings : C48 := 0
  deriving DecidableEq, Repr, Inhabited

/-! ## Clocks, power, pins, test (chapters 18, 20, 21) -/

/-- Clock registers (Table 18.8). `on` holds the gate-tree nodes that are on, ascending. -/
structure Clk where
  ctrlNode : Nat := 0
  ctrlOn : Bool := false
  on     : List Nat := []
  used   : List Nat := []                  -- unit nodes a stage of a row's placement uses
  offWait : List Nat := []                 -- presses in use that Palhani turns off once their engine holds no transfer (R413)
  refusedSeen : Bool := false
  lastNode : Nat := 0
  refused : C48 := 0
  switching : BitVec 16 := 0
  ctSwitch : Bool := false                 -- the hub boot mux is switching
  ctDead : Bool := false                   -- that switch found its old source stopped
  ctPll  : Bool := false
  muxed  : BitVec 16 := 0                  -- switches whose mux has changed (step 3 of R414)
  sapWait : List Nat := []                 -- ports with a second switch waiting
  switches : C48 := 0
  deadold : C48 := 0
  flushes : C48 := 0
  diag   : C48 := 0
  fmTarget : Nat := 0
  fmRef  : Nat := 0
  fmK    : Nat := 0
  fmBusy : Bool := false
  fmCount : BitVec 32 := 0
  fmDone : Bool := false
  fmSat  : Bool := false
  fmTimeout : Bool := false
  fmDefer : Option Defer := none
  deriving DecidableEq, Repr, Inhabited

/-- How far the module has come after power (Table 20.2). -/
inductive Phase where
  | off          -- no rails
  | tripped      -- a temperature trip: rails down until the input is cycled or reset is asserted (R470)
  | held         -- RESET_N holds the module in reset
  | released     -- reset released, before root PLL lock
  | booting      -- PLL locked and firmware loaded; Palhani not started
  | started      -- Palhani runs; ports not yet enabled
  | up           -- ports enabled
  | stuck        -- no firmware runs (R437, R444)
  | factory      -- factory programming (R480)
  deriving DecidableEq, Repr, Inhabited

/-- Power, thermal and module-pin state (Tables 20.7 and 21.4). (DESIGN CHOICE, log 5) -/
structure Power where
  phase  : Phase := .released
  ref100 : Bool := true                    -- the 100 MHz reference runs
  ref156 : Bool := true                    -- the 156.25 MHz reference runs
  cap    : Nat := 100
  thermCap : Nat := 100                    -- cap the thermal steps leave, units of 25 W
  volts  : Nat := 0
  amps   : Nat := 0
  watts  : Nat := 0
  binding : Bool := false
  temps  : Tbl Int := []                   -- by die, units of 0.25 °C
  throttleSeen : Bool := false
  overLimit : Bool := false
  capMs  : C48 := 0
  throttleMs : C48 := 0
  warm   : C48 := 0
  dieResets : C48 := 0
  dieWait : List (Nat × Bool) := []        -- per-die resets under way: die; true once it has started
  asked  : Option (Nat × Option Defer) := none -- the press of a kind-3 reset, and the response owed until it starts (R464, R471)
  withhold : Nat := 0                      -- staging places withheld per press, 0 to 512 (R466)
  resetN : Bool := true                    -- level of RESET_N
  alertMask : BitVec 6 := 0x0E#6
  slotPins : BitVec 4 := 0                 -- levels of SLOT_ID3 to SLOT_ID0
  fpgmPin : Bool := true                   -- level of FPGM_N
  slotId : BitVec 4 := 0                   -- SLOT_ID as sampled at reset release (R479)
  fpgmN  : Bool := true                    -- FPGM_N as sampled at reset release (R480)
  programmed : Bool := false               -- factory programming has written its image (R480)
  faultN : Bool := false                   -- level of FAULT_N; low from reset until release (R477)
  uptime0 : Nat := 0                       -- value of `now` at the latest cold reset
  deriving DecidableEq, Repr, Inhabited

/-- The instruction a chain device holds (Table 21.8). -/
inductive TapIr where
  | idcode | bypass | extest | extestPulse | extestTrain | samplePreload | highz | clamp | dbgRd | dbgWr | fpgm
  deriving DecidableEq, Repr, Inhabited

/-- One device of the boundary-scan chain (Table 21.7): its instruction, its update and capture cells, its data register. -/
structure TapDev where
  ir      : TapIr := .idcode
  update  : List Bool := []
  capture : List Bool := []
  dr      : BitVec 64 := 0                 -- IDCODE, the bypass bit, the FPGM status word or the last debug datum
  deriving DecidableEq, Repr, Inhabited

/-- The TAP chain (R485). -/
structure Jtag where
  retimer0 : TapDev := { dr := 0x10A26B4B#64 }
  retimer1 : TapDev := { dr := 0x10A26B4B#64 }
  hub      : TapDev := { dr := 0x10A25B4B#64 }
  debug    : Tbl Byte := []                -- bytes that DBG_WR has written: the model's own (R445)
  deriving DecidableEq, Repr, Inhabited

/-! ## The whole state -/

/-- The state of the VX25 with its queue of waiting commands. -/
structure State where
  pending  : List Instr := []
  now      : Nat := 0                      -- CTCLK cycles, advanced by idle steps
  stamp    : Nat := 0                      -- order stamps of queueing, staging and claims
  free     : Nat := 0                      -- the model's own: free values drawn so far
  power    : Power := {}
  streams  : Tbl Stream := []
  egress   : Tbl Egress := []
  journals : Tbl Journal := []
  stalls   : Tbl Stall := []
  voices   : Tbl Voice := []
  bases    : Tbl Base := []
  rows     : Tbl Row := []
  presses  : Tbl Press := []
  stages   : Tbl Stage := []
  rings    : List (Producer × CompRec) := [] -- the producers' completion rings, oldest first (R208)
  recUnits : Tbl RecUnit := []
  engines  : Tbl Engine := []
  channels : Tbl Channel := []
  dies     : Tbl Die := []
  mem      : List Host.Cell := []
  heldMoves : List HeldMove := []          -- Palhani's moves that wait for a GDDR7 die in reset, oldest first (R424)
  nets     : Tbl NetPort := []
  sessions : Tbl Session := []
  vct      : Vct := {}
  criers   : Tbl CrierSrc := []
  clerk    : Clerk := {}
  exports  : Tbl ExportImg := []
  flash    : Flash := {}
  fw       : Fw := {}
  sec      : Sec := {}
  saps     : Tbl Sap := []
  clk      : Clk := {}
  jtag     : Jtag := {}
  sent     : List Sent := []               -- newest first
  deriving DecidableEq, Repr, Inhabited

/-- The state right after a cold reset has been released: every field at the value its table gives, or at the value a
log entry names (R9, Table 20.4). (DESIGN CHOICE, log 5) -/
def State.reset : State := {}

end Sys2Proof.Machine
end

