-- ==== Sys2Proof/Machine/Tables.lean ====
section
/-! DEFINITION. Sparse tables and memory: reading through a default, writing in canonical form; and the byte orders of
R5: network order for what travels, little-endian for what is stored. -/

namespace Sys2Proof.Machine

/-! ## Tables -/

/-- The entry of key `k`, or the default `d` when the table lists none. -/
def tget {α : Type} (d : α) : Tbl α → Nat → α
  | [], _ => d
  | (i, a) :: t, k => if i = k then a else tget d t k

/-- Put `v` at `k`, before the first greater key, replacing an entry of `k`. -/
def tput {α : Type} : Tbl α → Nat → α → Tbl α
  | [], k, v => [(k, v)]
  | (i, a) :: t, k, v =>
    if k < i then (k, v) :: (i, a) :: t
    else if k = i then (k, v) :: t
    else (i, a) :: tput t k v

/-- Remove every entry of key `k`. -/
def tdel {α : Type} (t : Tbl α) (k : Nat) : Tbl α := t.filter (fun p => decide (p.1 ≠ k))

/-- Write `v` at `k`: an entry equal to the default is not listed. -/
def tset {α : Type} [DecidableEq α] (d : α) (t : Tbl α) (k : Nat) (v : α) : Tbl α :=
  if v = d then tdel t k else tput t k v

/-- The canonical form: keys strictly rising, no entry equal to the default. -/
def twf {α : Type} [DecidableEq α] (d : α) (t : Tbl α) : Bool :=
  (t.map Prod.fst).Pairwise (· < ·) && t.all (fun p => decide (p.2 ≠ d))

/-- The least key below `n` (from `i` on, `fuel` of them) for which `free` holds. -/
def findFrom (free : Nat → Bool) : Nat → Nat → Option Nat
  | 0, _ => none
  | fuel + 1, i => if free i then some i else findFrom free fuel (i + 1)

/-- The least of the keys below `n` that is free. -/
def lowest (n : Nat) (free : Nat → Bool) : Option Nat := findFrom free n 0

/-! ## Bytes -/

/-- A number as `n` bytes, most significant first (network byte order, R5). -/
def beBytes : Nat → Nat → List Byte
  | 0, _ => []
  | n + 1, v => BitVec.ofNat 8 (v / 256 ^ n) :: beBytes n v

/-- A number as `n` bytes, least significant first (R5). -/
def leBytes : Nat → Nat → List Byte
  | 0, _ => []
  | n + 1, v => BitVec.ofNat 8 v :: leBytes n (v / 256)

/-- The number that bytes spell, most significant first. -/
def beNat (bs : List Byte) : Nat := bs.foldl (fun a b => a * 256 + b.toNat) 0

/-- The number that bytes spell, least significant first. -/
def leNat : List Byte → Nat
  | [] => 0
  | b :: bs => b.toNat + 256 * leNat bs

/-- The `n`-byte field at offset `off` of a body in network byte order (R308). -/
def fld (body : List Byte) (off n : Nat) : Nat := beNat ((body.drop off).take n)

/-- The `n`-byte field at offset `off` of a little-endian structure (R5). -/
def lfld (bs : List Byte) (off n : Nat) : Nat := leNat ((bs.drop off).take n)

/-- Bits [hi:lo] of a number (R4). -/
def bits (v hi lo : Nat) : Nat := v / 2 ^ lo % 2 ^ (hi + 1 - lo)

/-- One bit as a number. -/
def b2n (b : Bool) : Nat := if b then 1 else 0

/-- Bit `i` of a number. -/
def bitAt (v i : Nat) : Bool := decide (v / 2 ^ i % 2 = 1)

/-- Quotient rounded up. -/
def ceilDiv (a b : Nat) : Nat := (a + b - 1) / b

/-! ## Memory (Table 9.3): cells keyed by address word -/

/-- What a byte that nothing has written reads as: 0 (DESIGN CHOICE, log 3; unsafe). -/
def memDefault : Byte := 0

/-- The key of a byte: its address word, [47:0] address, [51:48] space, [55:52] unit (R192). (DESIGN CHOICE, log 3) -/
def addrWord (space unit addr : Nat) : Nat := addr + 2 ^ 48 * space + 2 ^ 52 * unit

/-- Memory in its canonical form (Tables 9.3 and 10.1: one sparse space for all of it). (DESIGN CHOICE, log 3) -/
def Memory.wf (m : List Host.Cell) : Bool := twf memDefault m

/-- One byte of memory. (DESIGN CHOICE, log 3) -/
def mget (m : List Host.Cell) (a : Nat) : Byte := tget memDefault m a

/-- Write one byte. (DESIGN CHOICE, log 3) -/
def mset (m : List Host.Cell) (a : Nat) (v : Byte) : List Host.Cell := tset memDefault m a v

/-- `n` bytes from `a` on. -/
def mread (m : List Host.Cell) (a n : Nat) : List Byte := (List.range n).map (fun i => mget m (a + i))

/-- Write bytes from `a` on. -/
def mwrite : List Host.Cell → Nat → List Byte → List Host.Cell
  | m, _, [] => m
  | m, a, b :: bs => mwrite (mset m a b) (a + 1) bs

/-- Set `n` bytes from `a` on to the default. -/
def mclear (m : List Host.Cell) (a n : Nat) : List Host.Cell :=
  m.filter (fun c => decide (¬ (a ≤ c.1 ∧ c.1 < a + n)))

/-- Copy `n` bytes from `src` to `dst`, as they stand before the copy. -/
def mcopy (m : List Host.Cell) (src dst n : Nat) : List Host.Cell :=
  (m.filter (fun c => decide (src ≤ c.1 ∧ c.1 < src + n))).foldl
    (fun acc c => mset acc (c.1 - src + dst) c.2) (mclear m dst n)

end Sys2Proof.Machine
end

