-- ==== Sys2Proof/Machine/Access.lean ====
section
/-! DEFINITION. One reader and one writer for each table of the state: every read and write of an entry goes through
them, so a table's default and its canonical form are settled once (Machine/Tables.lean). -/

namespace Sys2Proof.Machine

/-- The stream table entry (R51). -/
def State.stream (s : State) (k : Nat) : Stream := tget {} s.streams k

/-- Write the stream table entry (R51). -/
def State.putStream (s : State) (k : Nat) (v : Stream) : State := { s with streams := tset {} s.streams k v }

/-- Change the stream table entry (R51). -/
def State.modStream (s : State) (k : Nat) (f : Stream → Stream) : State := s.putStream k (f (s.stream k))

/-- The egress of a stream ID (R275). -/
def State.egr (s : State) (k : Nat) : Egress := tget {} s.egress k

/-- Write the egress of a stream ID (R275). -/
def State.putEgr (s : State) (k : Nat) (v : Egress) : State := { s with egress := tset {} s.egress k v }

/-- Change the egress of a stream ID (R275). -/
def State.modEgr (s : State) (k : Nat) (f : Egress → Egress) : State := s.putEgr k (f (s.egr k))

/-- The journal slot (R353). -/
def State.journal (s : State) (k : Nat) : Journal := tget {} s.journals k

/-- Write the journal slot (R353). -/
def State.putJournal (s : State) (k : Nat) (v : Journal) : State := { s with journals := tset {} s.journals k v }

/-- Change the journal slot (R353). -/
def State.modJournal (s : State) (k : Nat) (f : Journal → Journal) : State := s.putJournal k (f (s.journal k))

/-- The stall table entry (R54). -/
def State.stall (s : State) (k : Nat) : Stall := tget {} s.stalls k

/-- Write the stall table entry (R54). -/
def State.putStall (s : State) (k : Nat) (v : Stall) : State := { s with stalls := tset {} s.stalls k v }

/-- Change the stall table entry (R54). -/
def State.modStall (s : State) (k : Nat) (f : Stall → Stall) : State := s.putStall k (f (s.stall k))

/-- The voice (R25). -/
def State.voice (s : State) (k : Nat) : Voice := tget {} s.voices k

/-- Write the voice (R25). -/
def State.putVoice (s : State) (k : Nat) (v : Voice) : State := { s with voices := tset {} s.voices k v }

/-- Change the voice (R25). -/
def State.modVoice (s : State) (k : Nat) (f : Voice → Voice) : State := s.putVoice k (f (s.voice k))

/-- The base model (R27). -/
def State.base (s : State) (k : Nat) : Base := tget {} s.bases k

/-- Write the base model (R27). -/
def State.putBase (s : State) (k : Nat) (v : Base) : State := { s with bases := tset {} s.bases k v }

/-- Change the base model (R27). -/
def State.modBase (s : State) (k : Nat) (f : Base → Base) : State := s.putBase k (f (s.base k))

/-- The row (R45). -/
def State.row (s : State) (k : Nat) : Row := tget {} s.rows k

/-- Write the row (R45). -/
def State.putRow (s : State) (k : Nat) (v : Row) : State := { s with rows := tset {} s.rows k v }

/-- Change the row (R45). -/
def State.modRow (s : State) (k : Nat) (f : Row → Row) : State := s.putRow k (f (s.row k))

/-- The press (R13). -/
def State.press (s : State) (k : Nat) : Press := tget {} s.presses k

/-- Write the press (R13). -/
def State.putPress (s : State) (k : Nat) (v : Press) : State := { s with presses := tset {} s.presses k v }

/-- Change the press (R13). -/
def State.modPress (s : State) (k : Nat) (f : Press → Press) : State := s.putPress k (f (s.press k))

/-- The stage of a press, keyed 16 × press + stage (R36). -/
def State.stage (s : State) (k : Nat) : Stage := tget {} s.stages k

/-- Write the stage of a press, keyed 16 × press + stage (R36). -/
def State.putStage (s : State) (k : Nat) (v : Stage) : State := { s with stages := tset {} s.stages k v }

/-- Change the stage of a press, keyed 16 × press + stage (R36). -/
def State.modStage (s : State) (k : Nat) (f : Stage → Stage) : State := s.putStage k (f (s.stage k))

/-- The recurrence unit, keyed 4 × press + unit (R125). -/
def State.recUnit (s : State) (k : Nat) : RecUnit := tget {} s.recUnits k

/-- Write the recurrence unit, keyed 4 × press + unit (R125). -/
def State.putRecUnit (s : State) (k : Nat) (v : RecUnit) : State := { s with recUnits := tset {} s.recUnits k v }

/-- Change the recurrence unit, keyed 4 × press + unit (R125). -/
def State.modRecUnit (s : State) (k : Nat) (f : RecUnit → RecUnit) : State := s.putRecUnit k (f (s.recUnit k))

/-- The porter engine (R186). -/
def State.engine (s : State) (k : Nat) : Engine := tget {} s.engines k

/-- Write the porter engine (R186). -/
def State.putEngine (s : State) (k : Nat) (v : Engine) : State := { s with engines := tset {} s.engines k v }

/-- Change the porter engine (R186). -/
def State.modEngine (s : State) (k : Nat) (f : Engine → Engine) : State := s.putEngine k (f (s.engine k))

/-- The GDDR7 channel (R216). -/
def State.channel (s : State) (k : Nat) : Channel := tget {} s.channels k

/-- Write the GDDR7 channel (R216). -/
def State.putChannel (s : State) (k : Nat) (v : Channel) : State := { s with channels := tset {} s.channels k v }

/-- Change the GDDR7 channel (R216). -/
def State.modChannel (s : State) (k : Nat) (f : Channel → Channel) : State := s.putChannel k (f (s.channel k))

/-- The state-store die (R231). -/
def State.die (s : State) (k : Nat) : Die := tget {} s.dies k

/-- Write the state-store die (R231). -/
def State.putDie (s : State) (k : Nat) (v : Die) : State := { s with dies := tset {} s.dies k v }

/-- Change the state-store die (R231). -/
def State.modDie (s : State) (k : Nat) (f : Die → Die) : State := s.putDie k (f (s.die k))

/-- The Ethernet port (R257). -/
def State.net (s : State) (k : Nat) : NetPort := tget {} s.nets k

/-- Write the Ethernet port (R257). -/
def State.putNet (s : State) (k : Nat) (v : NetPort) : State := { s with nets := tset {} s.nets k v }

/-- Change the Ethernet port (R257). -/
def State.modNet (s : State) (k : Nat) (f : NetPort → NetPort) : State := s.putNet k (f (s.net k))

/-- The VCT session (R263). -/
def State.sess (s : State) (k : Nat) : Session := tget {} s.sessions k

/-- Write the VCT session (R263). -/
def State.putSess (s : State) (k : Nat) (v : Session) : State := { s with sessions := tset {} s.sessions k v }

/-- Change the VCT session (R263). -/
def State.modSess (s : State) (k : Nat) (f : Session → Session) : State := s.putSess k (f (s.sess k))

/-- The crier source (R298). -/
def State.crierSrc (s : State) (k : Nat) : CrierSrc := tget {} s.criers k

/-- Write the crier source (R298). -/
def State.putCrierSrc (s : State) (k : Nat) (v : CrierSrc) : State := { s with criers := tset {} s.criers k v }

/-- Change the crier source (R298). -/
def State.modCrierSrc (s : State) (k : Nat) (f : CrierSrc → CrierSrc) : State := s.putCrierSrc k (f (s.crierSrc k))

/-- The export image (R326). -/
def State.img (s : State) (k : Nat) : ExportImg := tget {} s.exports k

/-- Write the export image (R326). -/
def State.putImg (s : State) (k : Nat) (v : ExportImg) : State := { s with exports := tset {} s.exports k v }

/-- Change the export image (R326). -/
def State.modImg (s : State) (k : Nat) (f : ExportImg → ExportImg) : State := s.putImg k (f (s.img k))

/-- The serial audio port (R386). -/
def State.sap (s : State) (k : Nat) : Sap := tget {} s.saps k

/-- Write the serial audio port (R386). -/
def State.putSap (s : State) (k : Nat) (v : Sap) : State := { s with saps := tset {} s.saps k v }

/-- Change the serial audio port (R386). -/
def State.modSap (s : State) (k : Nat) (f : Sap → Sap) : State := s.putSap k (f (s.sap k))

/-- The park record of a stream ID (R397). -/
def State.park (s : State) (k : Nat) : Park := tget {} s.flash.park k

/-- Write the park record of a stream ID (R397). -/
def State.putPark (s : State) (k : Nat) (v : Park) : State :=
  { s with flash := { s.flash with park := tset {} s.flash.park k v } }

/-- Change the park record of a stream ID (R397). -/
def State.modPark (s : State) (k : Nat) (f : Park → Park) : State := s.putPark k (f (s.park k))

/-- The library entry (R401). -/
def State.lib (s : State) (k : Nat) : LibEntry := tget {} s.flash.lib k

/-- Write the library entry (R401). -/
def State.putLib (s : State) (k : Nat) (v : LibEntry) : State :=
  { s with flash := { s.flash with lib := tset {} s.flash.lib k v } }

/-- Change the library entry (R401). -/
def State.modLib (s : State) (k : Nat) (f : LibEntry → LibEntry) : State := s.putLib k (f (s.lib k))

/-- The flash channel (R388). -/
def State.flashCh (s : State) (k : Nat) : FlashCh := tget {} s.flash.wear.chans k

/-- Write the flash channel (R388). -/
def State.putFlashCh (s : State) (k : Nat) (v : FlashCh) : State :=
  { s with flash := { s.flash with wear := { s.flash.wear with chans := tset {} s.flash.wear.chans k v } } }

/-- Change the flash channel (R388). -/
def State.modFlashCh (s : State) (k : Nat) (f : FlashCh → FlashCh) : State := s.putFlashCh k (f (s.flashCh k))

end Sys2Proof.Machine
end

