-- ==== Sys2Proof/Machine/Crypto.lean ====
section
/-! DEFINITION. The functions the spec names by their standards: CRC-32C (R261), SipHash-2-4 (R221), SHA-256 (R32,
R431, R448) and HMAC-SHA-256 (R446). Their inner workings are PRESUMED from those standards (log 6). -/

namespace Sys2Proof.Machine

/-! ## CRC-32C (R261): polynomial 0x1EDC6F41 reflected, initial value and final exclusive-or all ones -/

/-- One bit of the reflected CRC. -/
def crcBit (c : BitVec 32) : BitVec 32 :=
  if c.getLsbD 0 then (c >>> 1) ^^^ 0x82F63B78#32 else c >>> 1

/-- One byte of the CRC. -/
def crcByte (c : BitVec 32) (b : Byte) : BitVec 32 :=
  Nat.repeat crcBit 8 (c ^^^ b.setWidth 32)

/-- CRC-32C of a byte string. (PRESUMED, log 6) -/
def crc32c (bs : List Byte) : BitVec 32 := (bs.foldl crcByte 0xFFFFFFFF#32) ^^^ 0xFFFFFFFF#32

/-! ## SipHash-2-4 -/

/-- One SipRound. -/
def sipRound (v : BitVec 64 × BitVec 64 × BitVec 64 × BitVec 64) : BitVec 64 × BitVec 64 × BitVec 64 × BitVec 64 :=
  let (v0, v1, v2, v3) := v
  let v0 := v0 + v1
  let v1 := v1.rotateLeft 13 ^^^ v0
  let v0 := v0.rotateLeft 32
  let v2 := v2 + v3
  let v3 := v3.rotateLeft 16 ^^^ v2
  let v0 := v0 + v3
  let v3 := v3.rotateLeft 21 ^^^ v0
  let v2 := v2 + v1
  let v1 := v1.rotateLeft 17 ^^^ v2
  let v2 := v2.rotateLeft 32
  (v0, v1, v2, v3)

/-- Absorb one 64-bit word. -/
def sipWord (v : BitVec 64 × BitVec 64 × BitVec 64 × BitVec 64) (w : BitVec 64) :
    BitVec 64 × BitVec 64 × BitVec 64 × BitVec 64 :=
  let (v0, v1, v2, v3) := v
  let (a, b, c, d) := sipRound (sipRound (v0, v1, v2, v3 ^^^ w))
  (a ^^^ w, b, c, d)

/-- SipHash-2-4 of 8 bytes: the words are the message and the length byte's word (R221: j as 8 bytes, little-endian). (PRESUMED, log 6) -/
def siphash24 (key : BitVec 128) (j : Nat) : BitVec 64 :=
  let k0 : BitVec 64 := key.setWidth 64
  let k1 : BitVec 64 := (key >>> 64).setWidth 64
  let v := (k0 ^^^ 0x736f6d6570736575#64, k1 ^^^ 0x646f72616e646f6d#64,
            k0 ^^^ 0x6c7967656e657261#64, k1 ^^^ 0x7465646279746573#64)
  let v := sipWord v (BitVec.ofNat 64 j)
  let (v0, v1, v2, v3) := sipWord v 0x0800000000000000#64
  let (a, b, c, d) := sipRound (sipRound (sipRound (sipRound (v0, v1, v2 ^^^ 0xFF#64, v3))))
  a ^^^ b ^^^ c ^^^ d

/-! ## SHA-256 -/

/-- The round constants of SHA-256. -/
def shaK : List (BitVec 32) := [
  0x428a2f98#32, 0x71374491#32, 0xb5c0fbcf#32, 0xe9b5dba5#32, 0x3956c25b#32, 0x59f111f1#32, 0x923f82a4#32, 0xab1c5ed5#32,
  0xd807aa98#32, 0x12835b01#32, 0x243185be#32, 0x550c7dc3#32, 0x72be5d74#32, 0x80deb1fe#32, 0x9bdc06a7#32, 0xc19bf174#32,
  0xe49b69c1#32, 0xefbe4786#32, 0x0fc19dc6#32, 0x240ca1cc#32, 0x2de92c6f#32, 0x4a7484aa#32, 0x5cb0a9dc#32, 0x76f988da#32,
  0x983e5152#32, 0xa831c66d#32, 0xb00327c8#32, 0xbf597fc7#32, 0xc6e00bf3#32, 0xd5a79147#32, 0x06ca6351#32, 0x14292967#32,
  0x27b70a85#32, 0x2e1b2138#32, 0x4d2c6dfc#32, 0x53380d13#32, 0x650a7354#32, 0x766a0abb#32, 0x81c2c92e#32, 0x92722c85#32,
  0xa2bfe8a1#32, 0xa81a664b#32, 0xc24b8b70#32, 0xc76c51a3#32, 0xd192e819#32, 0xd6990624#32, 0xf40e3585#32, 0x106aa070#32,
  0x19a4c116#32, 0x1e376c08#32, 0x2748774c#32, 0x34b0bcb5#32, 0x391c0cb3#32, 0x4ed8aa4a#32, 0x5b9cca4f#32, 0x682e6ff3#32,
  0x748f82ee#32, 0x78a5636f#32, 0x84c87814#32, 0x8cc70208#32, 0x90befffa#32, 0xa4506ceb#32, 0xbef9a3f7#32, 0xc67178f2#32]

/-- The message schedule: 48 further words, newest first. -/
def shaExpand : Nat → List (BitVec 32) → List (BitVec 32)
  | 0, w => w
  | n + 1, w =>
    let x15 := w.getD 14 0
    let x2 := w.getD 1 0
    let s0 := x15.rotateRight 7 ^^^ x15.rotateRight 18 ^^^ (x15 >>> 3)
    let s1 := x2.rotateRight 17 ^^^ x2.rotateRight 19 ^^^ (x2 >>> 10)
    shaExpand n ((w.getD 15 0 + s0 + w.getD 6 0 + s1) :: w)

/-- One SHA-256 round over the eight working words. -/
def shaRound (h : List (BitVec 32)) (kw : BitVec 32 × BitVec 32) : List (BitVec 32) :=
  match h with
  | [a, b, c, d, e, f, g, hh] =>
    let s1 := e.rotateRight 6 ^^^ e.rotateRight 11 ^^^ e.rotateRight 25
    let ch := (e &&& f) ^^^ (~~~e &&& g)
    let t1 := hh + s1 + ch + kw.1 + kw.2
    let s0 := a.rotateRight 2 ^^^ a.rotateRight 13 ^^^ a.rotateRight 22
    let maj := (a &&& b) ^^^ (a &&& c) ^^^ (b &&& c)
    [t1 + s0 + maj, a, b, c, d + t1, e, f, g]
  | _ => h

/-- The sixteen words of a 64-byte block. -/
def shaWords : Nat → List Byte → List (BitVec 32)
  | 0, _ => []
  | n + 1, bs => BitVec.ofNat 32 (beNat (bs.take 4)) :: shaWords n (bs.drop 4)

/-- One block into the chaining value. -/
def shaBlock (h : List (BitVec 32)) (blk : List Byte) : List (BitVec 32) :=
  let w := (shaExpand 48 (shaWords 16 blk).reverse).reverse
  let o := (List.zip shaK w).foldl shaRound h
  List.zipWith (· + ·) h o

/-- Blocks of 64 bytes, `n` of them. -/
def shaBlocks : Nat → List (BitVec 32) → List Byte → List (BitVec 32)
  | 0, h, _ => h
  | n + 1, h, bs => shaBlocks n (shaBlock h (bs.take 64)) (bs.drop 64)

/-- SHA-256 as 32 bytes. (PRESUMED, log 6) -/
def sha256 (m : List Byte) : List Byte :=
  let l := m.length
  let z := (119 - l % 64) % 64
  let p := m ++ [0x80#8] ++ List.replicate z 0#8 ++ beBytes 8 (8 * l)
  (shaBlocks (p.length / 64) [
    0x6a09e667#32, 0xbb67ae85#32, 0x3c6ef372#32, 0xa54ff53a#32, 0x510e527f#32, 0x9b05688c#32, 0x1f83d9ab#32, 0x5be0cd19#32] p).flatMap
    (fun w => beBytes 4 w.toNat)

/-- SHA-256 as a 256-bit word, most significant byte first. -/
def sha256w (m : List Byte) : BitVec 256 := BitVec.ofNat 256 (beNat (sha256 m))

/-- The bytes of a 256-bit word, most significant first. -/
def wordBytes (w : BitVec 256) : List Byte := beBytes 32 w.toNat

/-- HMAC-SHA-256 under a key of at most 64 bytes. (PRESUMED, log 6) -/
def hmac256 (key msg : List Byte) : List Byte :=
  let k := key ++ List.replicate (64 - key.length) 0#8
  sha256 (k.map (· ^^^ 0x5C#8) ++ sha256 (k.map (· ^^^ 0x36#8) ++ msg))

/-- A credential's verifier (R431): 4,096 hashes, the salt first and then behind. (PRESUMED, log 6) -/
def verifier (salt cred : List Byte) : List Byte :=
  Nat.repeat (fun v => sha256 (v ++ salt)) 4095 (sha256 (salt ++ cred))

end Sys2Proof.Machine
end

