-- ==== Sys2Proof/Machine/Image.lean ====
section
/-! DEFINITION. Packages and images: the header of Table 2.3, the records of a canonical image (Tables 5.1, 6.1 and 7.3)
read from their bytes, the refusals of R123, R127, R151, R156 and R175, the layout of a stream's state (R225), and what a
placement says with the limits of Table 2.5. -/

namespace Sys2Proof

/-- Time taps of a convolution: without a time axis the window is the current step's map (R135). (DEDUCED, log 112) -/
def OpDesc.taps (d : OpDesc) : Nat := if d.timeAxis then d.kT else 1

/-- Modes per channel. -/
def Modal.modes (m : Modal) : Nat := 2 ^ m.logModes.val

/-- The renormalisation period K, 1 to 256. -/
def Modal.k (m : Modal) : Nat := m.kLess.toNat + 1

/-- The layer's outlier channels and whether it reads windows: what the output of a layer before it is converted for. -/
def LayerOp.reads : LayerOp → Option (List Nat × Bool)
  | .matmul q _ _ _ _ => some (q.outliers, false)
  | .conv _ _ _ _ _ _ _ => some ([], true)
  | .upsample _ _ _ _ _ _ _ => some ([], false)
  | _ => none

/-- The kind of stage an operation runs on (Table 2.4); a convolution may run on either. (DESIGN CHOICE, log 114) -/
def LayerOp.kindOk (kind : Nat) : LayerOp → Bool
  | .token => decide (kind = 0)
  | .matmul _ _ _ _ _ => decide (kind = 1)
  | .conv _ _ _ _ _ _ _ => decide (kind = 1 ∨ kind = 3)
  | .upsample _ _ _ _ _ _ _ => decide (kind = 1)
  | .finish _ _ _ _ => decide (kind = 1)
  | .hold => decide (kind = 1)
  | .modal _ _ _ _ => decide (kind = 2)
  | .pool _ _ => decide (kind = 3)
  | .reduce _ => decide (kind = 3)
  | .dither _ _ => decide (kind = 3)
  | .argmax _ => decide (kind = 3)
  | .sampler _ _ _ => decide (kind = 3)
  | .egress => decide (kind = 4)
  | _ => true

end Sys2Proof

namespace Sys2Proof.Machine

/-! ## Packages (R32, R35) -/

/-- The header of a package (Table 2.3). -/
structure Pkg where
  kind : Nat
  mode : Nat
  rate : Nat
  hop  : Nat
  inventory : Nat
  placements : Nat
  stationary : Nat
  table : Nat
  hash : BitVec 256
  baseHash : BitVec 256
  scanFrames : Nat
  deriving DecidableEq, Repr

/-- Read a package header. (DESIGN CHOICE, log 156) -/
def pkgOf (b : List Byte) : Pkg :=
  { kind := lfld b 6 1, mode := lfld b 8 1, rate := lfld b 9 1, hop := lfld b 10 2, inventory := lfld b 12 2,
    placements := lfld b 14 2, stationary := lfld b 16 8, table := lfld b 24 8,
    hash := BitVec.ofNat 256 (beNat ((b.drop 32).take 32)), baseHash := BitVec.ofNat 256 (beNat ((b.drop 64).take 32)),
    scanFrames := lfld b 224 2 }

/-- Bytes of a package's image: its two sections (R26). -/
def Pkg.imageBytes (p : Pkg) : Nat := p.stationary + p.table

/-- A directory entry: press count and offset. -/
def dirEntry (b : List Byte) (i : Nat) : Nat × Nat := (lfld b (96 + 16 * i) 1, lfld b (96 + 16 * i + 8) 8)

/-- The press counts of a package's placements. -/
def pkgCounts (b : List Byte) : List Nat := (List.range (pkgOf b).placements).map (fun i => (dirEntry b i).1)

/-- The canonical section: the stationary section and the table section, behind the header (R32). (DEDUCED, log 29) -/
def canonical (b : List Byte) : List Byte := (b.drop 256).take (pkgOf b).imageBytes

/-- The bytes of a package's placement for a press count: from its directory offset on (Table 2.3). -/
def placementBytes (b : List Byte) (presses : Nat) : List Byte :=
  match (List.range (pkgOf b).placements).find? (fun i => decide ((dirEntry b i).1 = presses)) with
  | some i => b.drop (dirEntry b i).2
  | none => []

/-! ## Records of a canonical section -/

/-- The fp24 value at an offset (R150). -/
def fp24At (c : List Byte) (off : Nat) : Fp24 := BitVec.ofNat 24 (lfld c off 3)

/-- `n` fp24 values from an offset on. -/
def fp24s (c : List Byte) (off n : Nat) : List Fp24 := (List.range n).map (fun i => fp24At c (off + 3 * i))

/-- `n` complex fp24 values from an offset on: real, then imaginary. -/
def fp24Pairs (c : List Byte) (off n : Nat) : List (Fp24 × Fp24) :=
  (List.range n).map (fun i => (fp24At c (off + 6 * i), fp24At c (off + 6 * i + 3)))

/-- An fp24 pattern that R151 allows: never e = 255, and e = 0 only with fraction 0. -/
def ok24 (v : Fp24) : Bool :=
  let e := bits v.toNat 22 15
  decide (e ≠ 255 ∧ (e = 0 → bits v.toNat 14 0 = 0))

/-- A signed 16-bit number from its little-endian bytes. -/
def int16At (b : List Byte) (off : Nat) : Int := (BitVec.ofNat 16 (lfld b off 2)).toInt

/-- An int8 weight (Table 7.1). -/
def int8At (c : List Byte) (off : Nat) : Int := (BitVec.ofNat 8 (lfld c off 1)).toInt

/-- Bytes of one output channel's weights (R149): two input channels to a byte in int4 mode. -/
def weightStride (int4 : Bool) (n : Nat) : Nat := if int4 then (n + 1) / 2 else n

/-- An int4 weight of the channel whose weights start at `off` (R149): channel 2i in bits [3:0], 2i + 1 in [7:4]. -/
def int4At (c : List Byte) (off i : Nat) : Int :=
  let v := lfld c (off + i / 2) 1
  (BitVec.ofNat 4 (if i % 2 = 0 then bits v 3 0 else bits v 7 4)).toInt

/-- The weights of `n` products for each of `cOut` output channels, in logical order. -/
def weightsAt (c : List Byte) (off : Nat) (int4 : Bool) (cOut n : Nat) : List (List Int) :=
  (List.range cOut).map (fun co =>
    let row := off + co * weightStride int4 n
    (List.range n).map (fun i => if int4 then int4At c row i else int8At c (row + i)))

/-- The bias of a layer, where it has one. -/
def biasAt (c : List Byte) (bias : Option Nat) (n : Nat) : List Fp24 :=
  match bias with
  | some off => fp24s c off n
  | none => []

/-- A quantisation record and the data its offsets point at, for a layer of `cOut` output channels (Table 7.3). -/
def quantAt (c : List Byte) (off cOut : Nat) : Quant :=
  let f := lfld c (off + 1) 1
  { int4 := decide (lfld c off 1 = 1), channelScale := bitAt f 0, sround := bitAt f 1, weigh := bitAt f 2,
    gate := lfld c (off + 2) 1,
    outliers := (List.range (lfld c (off + 3) 1)).map (fun i => lfld c (lfld c (off + 8) 4 + 2 * i) 2),
    scales := if bitAt f 0 then fp24s c (lfld c (off + 4) 4) cOut else [] }

/-- An operator descriptor (Table 6.1). -/
def descAt (c : List Byte) (off : Nat) : OpDesc :=
  let f := lfld c (off + 1) 1
  let w := fun i n => lfld c (off + i) n
  { op := w 0 1, replicate := bitAt f 0, includePad := bitAt f 1, compressOut := bitAt f 2, timeAxis := bitAt f 3,
    spatial := bitAt f 4, cIn := w 2 2, cOut := w 4 2, g := w 6 2, inF := w 8 2, kF := w 10 1, sF := w 11 1, dilF := w 12 2,
    padLo := w 14 2, padHi := w 16 2, kT := w 18 2, dilT := w 20 2, upT := w 22 2, gatherH := w 24 2 }

/-- Steps a convolution's history holds (R133). -/
def histSteps (d : OpDesc) : Nat := d.dilT * (d.taps - 1)

/-- The spatial output size of R128; 0 where it is zero or less. -/
def outSize (d : OpDesc) : Nat :=
  let span : Int := (d.inF : Int) + d.padLo + d.padHi - d.dilF * (d.kF - 1) - 1
  if span < 0 then 0 else (span / (d.sF : Int)).toNat + 1

/-- The input position of output `o` and spatial tap `j`. -/
def tapPos (d : OpDesc) (o j : Nat) : Int := (o : Int) * d.sF - d.padLo + j * d.dilF

/-- The tap lies in the map. (DEDUCED, log 36) -/
def inMap (d : OpDesc) (p : Int) : Bool := decide (0 ≤ p ∧ p < d.inF)

/-- Blocks of a layer of modes (R105). A last block that the layer does not fill keeps its other elements at zero
coefficients. (DESIGN CHOICE, log 113) -/
def modalBlocks (m : Modal) : Nat := ceilDiv (m.d.length * m.modes) 16

/-- Bytes that an image reserves for one compressed record: the worst case (R145). -/
def recordRoom (cIn : Nat) : Nat := 16 + 144 * ceilDiv cIn 128

/-! ## The operations -/

/-- An operation of a canonical section with its data, its slice of state at `off` (R225). (DESIGN CHOICE, log 14) -/
def opOf (c : List Byte) (off : Nat) : OpAt → LayerOp
  | .token => .token
  | .matmul quant cIn cOut weights bias residual rng =>
    let q := quantAt c quant cOut
    .matmul q (weightsAt c weights q.int4 cOut cIn) (biasAt c bias cOut) residual rng.toNat
  | .conv desc quant weights bias residual rng =>
    let d := descAt c desc
    .conv d (quantAt c quant d.cOut) (weightsAt c weights false d.cOut (d.g * d.kF * d.kT)) (biasAt c bias d.cOut) residual rng.toNat off
  | .upsample desc quant weights bias residual rng =>
    let d := descAt c desc
    .upsample d (quantAt c quant d.cOut) (weightsAt c weights false d.cOut (d.g * d.kT)) (biasAt c bias d.cOut) residual rng.toNat off
  | .modal lm ch lam b cc d e0 k integ =>
    let n := ch * 2 ^ lm.val
    .modal { logModes := lm, lam := lam, b := fp24Pairs c b n, c := fp24Pairs c cc n, d := fp24s c d ch, e0 := e0, kLess := k,
             integrator := integ } 0 off true
  | .finish quant ch bias residual rng => .finish (quantAt c quant ch) (biasAt c bias ch) residual rng.toNat
  | .hold => .hold
  | .keep => .keep
  | .pool desc quant => .pool (descAt c desc) (quantAt c quant (descAt c desc).cOut).sround
  | .reduce kind => .reduce kind
  | .dither step rng => .dither (fp24At c step) rng.toNat
  | .argmax desc => .argmax (descAt c desc)
  | .sampler desc table rng => .sampler (descAt c desc) ((List.range 256).map (fun i => int16At c (table + 2 * i))) rng.toNat
  | .context off len => .context off len
  | .adapter i => .adapter i
  | .egress => .egress

/-- Bytes of an operation's slice of the state section (R225). -/
def sliceSize : LayerOp → Nat
  | .modal m _ _ _ => 66 * modalBlocks m
  | .conv d _ _ _ _ _ _ => 3 * d.cIn * d.inF * histSteps d
  | .upsample d _ _ _ _ _ _ => 3 * d.cOut * (d.kT - d.upT)
  | _ => 0

/-- The operations of a canonical section, their slices one behind another from `off` on in layer order (R225). -/
def opsFrom (c : List Byte) : Nat → List OpAt → List LayerOp
  | _, [] => []
  | off, o :: os =>
    let x := opOf c off o
    x :: opsFrom c (off + sliceSize x) os

/-- The operations of a package's image, in logical order. They depend on nothing but its canonical section (R17, R33). (DESIGN
CHOICE, log 14) -/
def imageOps (b : List Byte) : List LayerOp := opsFrom (canonical b) 0 (Config.imageMap (canonical b)).ops

/-- Bytes of the state section (Table 10.2, hot_bytes). -/
def hotStateOf (b : List Byte) : Nat := ((imageOps b).map sliceSize).sum

/-- Bytes of the context cache (Table 10.2, cold_bytes). -/
def coldBytesOf (b : List Byte) : Nat := (Config.imageMap (canonical b)).cold

/-- The fp24 entries of an image's tables, one behind another. -/
def tableValues (c : List Byte) : List Fp24 := (Config.imageMap c).tables.flatMap (fun t => fp24s c t.1 t.2)

/-! ## Refusals of an image's records (R123, R127, R151, R156, R175) -/

/-- The next layer of the array among operations, with what it reads. -/
def consumerOf (ops : List LayerOp) : Option (List Nat × Bool) := ops.findSome? LayerOp.reads

/-- The consumer of a layer's output is a convolution or a transposed convolution; an operation of a voice's hot part that
comes first is none, as long as no voice fills its place. -/
def convNext (ops : List LayerOp) : Bool :=
  match ops.find? (fun o => o.reads.isSome || (match o with | .adapter _ => true | _ => false)) with
  | some (.conv _ _ _ _ _ _ _) => true
  | some (.upsample _ _ _ _ _ _ _) => true
  | _ => false

/-- Every number of a list is less than the next. -/
def ascending : List Nat → Bool
  | a :: b :: l => decide (a < b) && ascending (b :: l)
  | _ => true

/-- A quantisation record that R156 or R123 refuses: `stat` is the size of the stationary section, `cIn` the layer's input
channels and `kind` 0 for a matrix product, 1 for a convolution, transposed convolution or pooling, 2 for the return port. -/
def quantBad (c : List Byte) (stat off cIn cOut kind : Nat) : Bool :=
  let q := quantAt c off cOut
  let n := lfld c (off + 3) 1
  let scaleOff := lfld c (off + 4) 4
  let outOff := lfld c (off + 8) 4
  decide (1 < lfld c off 1 ∨ lfld c (off + 1) 1 / 8 ≠ 0 ∨ lfld c (off + 12) 4 ≠ 0) ||
  decide (4 < q.gate) || (q.int4 && decide (kind ≠ 0)) || decide (kind = 0 ∧ 4096 < cIn) ||
  (List.range (ceilDiv cIn 128)).any (fun b => decide (8 < (q.outliers.filter (fun o => decide (o / 128 = b))).length)) ||
  !ascending q.outliers || q.outliers.any (fun o => decide (cIn ≤ o)) || decide (kind = 1 ∧ n ≠ 0) ||
  (q.channelScale && decide (stat < scaleOff + 3 * cOut)) || decide (n ≠ 0 ∧ stat < outOff + 2 * n) ||
  decide (stat ≤ scaleOff ∨ stat ≤ outOff)

/-- Every window of a pooling descriptor has a tap in the map. -/
def windowsLive (d : OpDesc) : Bool :=
  (List.range (outSize d)).all (fun o => (List.range d.kF).any (fun j => inMap d (tapPos d o j)))

/-- An operator descriptor that Table 6.2 refuses; `hop` is the voice's and `relu` says that its producer has a relu gate. -/
def descBad (c : List Byte) (off hop : Nat) (relu : Bool) : Bool :=
  let d := descAt c off
  let tr := decide (d.op = 1)
  let pool := decide (d.op = 2 ∨ d.op = 3)
  -- reserved fields and ranges of Table 6.1
  decide (4 < d.op ∨ lfld c (off + 1) 1 / 32 ≠ 0 ∨ leNat ((c.drop (off + 26)).take 6) ≠ 0) ||
  (d.includePad && decide (d.op ≠ 3)) ||
  decide (d.cIn = 0 ∨ 4096 < d.cIn ∨ d.cOut = 0 ∨ 4096 < d.cOut ∨ d.g = 0 ∨ d.cIn < d.g) ||
  decide (d.inF = 0 ∨ 4096 < d.inF) || (!d.spatial && decide (d.inF ≠ 1)) ||
  decide (d.kF = 0 ∨ 64 < d.kF ∨ d.sF = 0 ∨ 64 < d.sF ∨ d.dilF = 0 ∨ 1024 < d.dilF ∨ 1024 < d.padLo ∨ 1024 < d.padHi) ||
  decide (d.dilT = 0 ∨ 4096 < d.dilT) ||
  (if tr then decide (d.kT < d.upT ∨ 4 * d.upT < d.kT) else decide (d.kT = 0 ∨ 64 < d.kT ∨ d.upT ≠ 1)) ||
  -- Table 6.2
  decide (outSize d = 0) || decide (d.cIn % d.g ≠ 0 ∨ d.cOut % (d.cIn / d.g) ≠ 0) || decide (65536 < d.g * d.kF * d.kT) ||
  decide (d.op = 0 ∧ 8191 < d.dilT * (d.kT - 1)) ||
  (tr && (d.spatial || !d.timeAxis || decide (d.dilT ≠ 1 ∨ d.upT ≠ hop ∨ d.kT < d.upT))) ||
  (pool && (d.timeAxis || !d.spatial || decide (d.cIn ≠ d.cOut) || !windowsLive d)) ||
  (decide (d.op = 4) && (d.spatial || d.timeAxis || decide (d.cOut ≠ 1))) ||
  decide (outSize d < d.gatherH) || (d.compressOut && !relu)

/-- The operation that makes the values a layer reads has a relu gate. -/
def reluGate : List LayerOp → Bool
  | .hold :: os => reluGate os
  | .keep :: os => reluGate os
  | .matmul q _ _ _ _ :: _ => decide (q.gate = 1)
  | .conv _ q _ _ _ _ _ :: _ => decide (q.gate = 1)
  | .upsample _ q _ _ _ _ _ :: _ => decide (q.gate = 1)
  | .finish q _ _ _ :: _ => decide (q.gate = 1)
  | _ => false

/-- Some fp24 value of an operation has an encoding that R151 forbids. -/
def fp24Bad : LayerOp → Bool
  | .matmul q _ bias _ _ => !(q.scales ++ bias).all ok24
  | .conv _ q _ bias _ _ _ => !(q.scales ++ bias).all ok24
  | .upsample _ q _ bias _ _ _ => !(q.scales ++ bias).all ok24
  | .finish q bias _ _ => !(q.scales ++ bias).all ok24
  | .modal m _ _ _ => !m.d.all ok24 || !(m.b ++ m.c).all (fun p => ok24 p.1 && ok24 p.2)
  | .dither q _ => !ok24 q
  | _ => false

/-- The output of an operation is converted by stochastic rounding. -/
def srounds : LayerOp → Bool
  | .matmul q _ _ _ _ => q.sround
  | .conv _ q _ _ _ _ _ => q.sround
  | .upsample _ q _ _ _ _ _ => q.sround
  | .finish q _ _ _ => q.sround
  | .pool _ sround => sround
  | _ => false

/-- Some layer of a program is converted by stochastic rounding for a convolution or a transposed convolution (R175). -/
def sroundsBad : List LayerOp → Bool
  | [] => false
  | o :: rest => (srounds o && convNext rest) || sroundsBad rest

/-- The operation carries state. -/
def stateful : LayerOp → Bool
  | .modal _ _ _ _ => true
  | .conv _ _ _ _ _ _ _ => true
  | .upsample _ _ _ _ _ _ _ => true
  | _ => false

/-- The operation that a program's operation is for a voice with hot part `hot`: one of the hot part's where the program
names it (R25). A hot part holds deltas and a speaker vector, no state. (DEDUCED, log 139) -/
def fillOp (hot : List LayerOp) (o : LayerOp) : LayerOp :=
  match o with
  | .adapter i =>
    match hot[i]? with
    | some x => if stateful x then .adapter i else x
    | none => .adapter i
  | _ => o

/-- An operation's records that Palhani refuses: `before` are the operations before it, latest first. The descriptor's op
agrees with the operation it describes (R126). -/
def opBad (c : List Byte) (stat hop : Nat) (at_ : OpAt) (o : LayerOp) (before : List LayerOp) : Bool :=
  fp24Bad o ||
  match at_ with
  | .matmul quant cIn cOut _ _ _ _ => quantBad c stat quant cIn cOut 0
  | .conv desc quant _ _ _ _ =>
    let d := descAt c desc
    decide (d.op ≠ 0) || descBad c desc hop (reluGate before) || quantBad c stat quant d.cIn d.cOut 1
  | .upsample desc quant _ _ _ _ =>
    let d := descAt c desc
    decide (d.op ≠ 1) || descBad c desc hop (reluGate before) || quantBad c stat quant d.cIn d.cOut 1
  | .finish quant ch _ _ _ => quantBad c stat quant ch ch 2
  | .pool desc quant =>
    let d := descAt c desc
    decide (d.op ≠ 2 ∧ d.op ≠ 3) || descBad c desc hop (reluGate before) || quantBad c stat quant d.cIn d.cOut 1 ||
      !(quantAt c quant d.cOut).scales.all ok24
  | .argmax desc => decide ((descAt c desc).op ≠ 4) || descBad c desc hop (reluGate before)
  | .sampler desc _ _ => decide ((descAt c desc).op ≠ 4) || descBad c desc hop (reluGate before)
  | _ => false

/-- Some operation of a list is refused. -/
def opsBad (c : List Byte) (stat hop : Nat) : List LayerOp → List (OpAt × LayerOp) → Bool
  | _, [] => false
  | before, (a, o) :: rest => opBad c stat hop a o before || opsBad c stat hop (o :: before) rest

/-- The records of a package's image that VOICE_LOAD and ROW_CONFIGURE refuse with ST_BAD_DESCRIPTOR. The consumers of R175
are those of a base's program: an adapter's operations stand in the program of its base. -/
def recordsBad (b : List Byte) : Bool :=
  let c := canonical b
  let p := pkgOf b
  opsBad c p.stationary p.hop [] ((Config.imageMap c).ops.zip (imageOps b)) || !(tableValues c).all ok24 ||
    (decide (p.kind = 0) && sroundsBad (imageOps b))

/-- A voice's program has a record that R175 refuses: the base's operations with the adapter's in their places. A place that the
adapter leaves unfilled is passed over. (DEDUCED, log 139) -/
def voiceBad (base adapter : List Byte) : Bool :=
  sroundsBad (((imageOps base).map (fillOp (imageOps adapter))).filter (fun o => match o with | .adapter _ => false | _ => true))

/-! ## Stored descriptors (R191, R192, R195) -/

/-- A signed number of `n` bytes, little-endian. -/
def intAt (b : List Byte) (off n : Nat) : Int :=
  let v := lfld b off n
  if v < 2 ^ (8 * n - 1) then v else (v : Int) - (2 ^ (8 * n) : Nat)

/-- A signed number as `n` little-endian bytes. -/
def intBytes (n : Nat) (v : Int) : List Byte := leBytes n (v % (2 ^ (8 * n) : Nat)).toNat

/-- A porter descriptor from its 96 stored bytes (Table 9.2). -/
def descOf (b : List Byte) : Desc :=
  let f := lfld b 1 1
  let ids := lfld b 4 4
  { op := lfld b 0 1, notify := bitAt f 0, expand := bitAt f 1, sys := bitAt f 2, vfill := bitAt f 3, dims := lfld b 2 1,
    cls := lfld b 3 1, stall := bits ids 13 0, stream := bits ids 31 14, src := BitVec.ofNat 64 (lfld b 8 8),
    dst := BitVec.ofNat 64 (lfld b 16 8), count0 := lfld b 24 4, counts := (List.range 4).map (fun i => lfld b (28 + 2 * i) 2),
    opArg := BitVec.ofNat 32 (lfld b 36 4), sstride := (List.range 4).map (fun i => intAt b (40 + 4 * i) 4),
    dstride := (List.range 4).map (fun i => intAt b (56 + 4 * i) 4), index := BitVec.ofNat 64 (lfld b 72 8),
    indexCount := lfld b 80 4, tag := BitVec.ofNat 64 (lfld b 88 8) }

/-- A porter descriptor as its queue's ring stores it (Table 9.2). -/
def descBytes (d : Desc) : List Byte :=
  [BitVec.ofNat 8 d.op, BitVec.ofNat 8 (b2n d.notify + 2 * b2n d.expand + 4 * b2n d.sys + 8 * b2n d.vfill), BitVec.ofNat 8 d.dims,
   BitVec.ofNat 8 d.cls] ++ leBytes 4 (d.stall + 2 ^ 14 * d.stream) ++ leBytes 8 d.src.toNat ++ leBytes 8 d.dst.toNat ++
    leBytes 4 d.count0 ++ d.counts.flatMap (leBytes 2) ++ leBytes 4 d.opArg.toNat ++ d.sstride.flatMap (intBytes 4) ++
    d.dstride.flatMap (intBytes 4) ++ leBytes 8 d.index.toNat ++ leBytes 4 d.indexCount ++ leBytes 4 0 ++ leBytes 8 d.tag.toNat

/-- The engine may name the space, and the unit is one of Table 9.3. -/
def wordAllowed (e w : Nat) : Bool :=
  let sp := bits w 51 48
  let u := bits w 55 52
  decide (w < 2 ^ 56) &&
  match sp with
  | 0 | 1 => decide (u = 0)
  | 2 => true
  | 3 => decide (u = 0 ∧ e = 24)
  | 4 => decide (u < 4 ∧ ((16 ≤ e ∧ e < 20) ∨ e = 24))
  | 5 => decide (u = 0 ∧ (e < 16 ∨ e = 24))
  | _ => false

/-- A stored descriptor of engine `e` is malformed (R195, with the ranges of Tables 9.2 and 9.3). (DESIGN CHOICE, log 170) -/
def malformed (e : Nat) (b : List Byte) : Bool :=
  let d := descOf b
  let arg := d.opArg.toNat
  let total := d.counts.foldl (· * ·) d.count0
  decide (b.length ≠ 96 ∨ 5 < d.op ∨ 15 < lfld b 1 1 ∨ d.dims = 0 ∨ 5 < d.dims ∨ 7 < d.cls) ||
  (d.sys && decide (lfld b 4 4 ≠ 0)) || decide (d.count0 = 0 ∨ 1048576 < d.count0) || d.counts.any (· == 0) ||
  (List.range 4).any (fun i => decide (d.dims ≤ i + 1) &&
    (decide (d.counts.getD i 1 ≠ 1) || decide (d.sstride.getD i 0 ≠ 0) || decide (d.dstride.getD i 0 ≠ 0))) ||
  !wordAllowed e d.src.toNat || !wordAllowed e d.dst.toNat || decide (lfld b 84 4 ≠ 0) || decide (2 ^ 32 < total) ||
  (if d.op = 1 then !wordAllowed e d.index.toNat || decide (d.indexCount = 0 ∨ 65535 < d.indexCount ∨ d.dims ≠ 2 ∨ d.counts.getD 0 0 ≠ d.indexCount)
   else decide (d.index ≠ 0 ∨ d.indexCount ≠ 0)) ||
  (match d.op with
   | 3 | 4 => decide (24 < bits arg 12 8)
   | 5 => decide (63 < arg)
   | 0 => if d.vfill then decide (63 < arg) else decide (arg ≠ 0)
   | _ => decide (arg ≠ 0)) ||
  (d.vfill && decide (bits d.dst.toNat 51 48 ≠ 2)) || (d.expand && decide (bits d.src.toNat 51 48 ≠ 2))

/-- A placement's descriptor on a row whose first press is `first`: it names presses, and engines of presses, from the row's
first one on, since one placement serves every row of its press count. (DESIGN CHOICE, log 124) -/
def placed (first : Nat) (d : Desc) : Desc :=
  let shift := fun (w : BitVec 64) => if bits w.toNat 51 48 = 2 then w + BitVec.ofNat 64 (first * 2 ^ 52) else w
  { d with src := shift d.src, dst := shift d.dst,
           opArg := if d.op = 3 ∧ bits d.opArg.toNat 12 8 < 16 then d.opArg + BitVec.ofNat 32 (first * 256) else d.opArg }

/-! ## Placements (R36 to R38, Table 2.5) -/

/-- What a package's placement for a press count says. (DESIGN CHOICE, log 14) -/
def placementOf (b : List Byte) (presses : Nat) : PlacementMap := Config.placementMap (placementBytes b presses)

/-- Split a layer of modes over stages by blocks (R105): from block `lo` on. A channel of more than 16 modes stays whole. -/
def splitModal (m : Modal) (off : Nat) : Nat → List (Nat × Nat) → List (Nat × LayerOp)
  | _, [] => []
  | lo, (key, n) :: rest =>
    let ch := lo * 16 / m.modes
    let cnt := if rest = [] then m.d.length - ch else min (m.d.length - ch) (n * 16 / m.modes)
    let part := { m with lam := (m.lam.drop (ch * m.modes)).take (cnt * m.modes), b := (m.b.drop (ch * m.modes)).take (cnt * m.modes),
                         c := (m.c.drop (ch * m.modes)).take (cnt * m.modes), d := (m.d.drop ch).take cnt,
                         integrator := (m.integrator.drop (ch * m.modes)).take (cnt * m.modes) }
    (key, .modal part ch (off + 66 * lo) true) :: splitModal m off (lo + n) rest

/-- One operation placed on its stages. -/
def placeOp (o : LayerOp) (parts : List (Nat × Nat)) : List (Nat × LayerOp) :=
  match o, parts with
  | .modal m _ off _, _ :: _ => splitModal m off 0 parts
  | o, (key, _) :: _ => [(key, o)]
  | o, [] => [(0, o)]

/-- Mark the first operation of modes on each stage: it alone counts what Table 5.6 counts once per stream-step. -/
def markLead : List Nat → List (Nat × LayerOp) → List (Nat × LayerOp)
  | _, [] => []
  | seen, (k, .modal m lo off _) :: rest => (k, .modal m lo off (!seen.contains k)) :: markLead (k :: seen) rest
  | seen, x :: rest => x :: markLead seen rest

/-- A row's program: every operation of the base's image, on the stages its placement gives it (R33). (DESIGN CHOICE, log 14) -/
def rowProgram (b : List Byte) (presses : Nat) : List (Nat × LayerOp) :=
  let p := placementOf b presses
  let ops := imageOps b
  markLead [] (((List.range ops.length).zip ops).flatMap (fun o => placeOp o.2 (p.parts.getD o.1 [])))

/-- Bytes of weights, scales and biases an operation keeps in press memory, the outlier stage's copies of weights among them
(R159). (DESIGN CHOICE, log 114) -/
def stationaryOf : LayerOp → Nat
  | .matmul q w bias _ _ => ((w.map (fun r => weightStride q.int4 r.length + weightStride q.int4 q.outliers.length)).sum) +
      3 * (q.scales.length + bias.length)
  | .conv _ q w bias _ _ _ => (w.map List.length).sum + 3 * (q.scales.length + bias.length)
  | .upsample _ q w bias _ _ _ => (w.map List.length).sum + 3 * (q.scales.length + bias.length)
  | .finish q bias _ _ => 3 * (q.scales.length + bias.length)
  | .modal m _ _ _ => 19 * m.lam.length + 3 * m.d.length
  | _ => 0

/-- The operation is a layer: one of the array's, a state-space layer, or one that an operator descriptor describes (R103, R126). -/
def isLayer : LayerOp → Bool
  | .matmul _ _ _ _ _ => true
  | .conv _ _ _ _ _ _ _ => true
  | .upsample _ _ _ _ _ _ _ => true
  | .modal _ _ _ _ => true
  | .pool _ _ => true
  | .argmax _ => true
  | .sampler _ _ _ => true
  | _ => false

/-- Stationary bytes by stage: a layer of modes is split by its parts, any other operation has one copy on each of its stages
(Table 2.5, replicas included). (DESIGN CHOICE, log 114) -/
def placedBytes (o : LayerOp) (parts : List (Nat × Nat)) : List (Nat × Nat) :=
  match o, parts with
  | .modal _ _ _ _, _ => (placeOp o parts).map (fun x => (x.1, stationaryOf x.2))
  | _, [] => [(0, stationaryOf o)]
  | _, l => l.map (fun x => (x.1, stationaryOf o))

/-- A layer of modes is split at block boundaries with whole channels, and its parts are all of it (R105). (DESIGN CHOICE, log
114) -/
def splitOk (o : LayerOp) (parts : List (Nat × Nat)) : Bool :=
  match o with
  | .modal m _ _ _ => decide ((parts.map Prod.snd).sum = modalBlocks m) && parts.all (fun x => decide (16 * x.2 % m.modes = 0 ∨ parts.length = 1))
  | _ => true

/-- The operation's rows are compressed (R145). -/
def compresses : LayerOp → Bool
  | .conv d _ _ _ _ _ _ => d.compressOut
  | .upsample d _ _ _ _ _ _ => d.compressOut
  | _ => false

/-- Presses of a program's operations never fall, but for what a section hands back on the same press (R36). -/
def pressesAscend : List (Nat × LayerOp) → Bool
  | a :: b :: l => decide (a.1 / 16 ≤ b.1 / 16) && pressesAscend (b :: l)
  | _ => true

/-- The placement keeps R36, R37, R81 and Table 2.5: at most 16 stages a press and 128 layers a row, no unit in two
stages, each stage of one kind with its own units, one token stage on the first press and one egress stage on the last,
data in ascending press order, beats of 1 to 512, the memory of each press, layers of modes split as R105 says, and a place
in press memory for every layer's compressed rows. (DESIGN CHOICE, log 114) -/
def placementOk (b : List Byte) (presses : Nat) : Bool :=
  let p := placementOf b presses
  let prog := rowProgram b presses
  let ops := (List.range (imageOps b).length).zip (imageOps b)
  let bytes := ops.flatMap (fun o => placedBytes o.2 (p.parts.getD o.1 []))
  let units := p.stages.flatMap (fun d => d.units.map (fun u => 16 * (d.key / 16) + u))
  let stageOf := fun (k : Nat) => p.stages.find? (fun d => decide (d.key = k))
  let unitsOk := fun (d : StageDef) => match d.kind with
    | 0 => d.units.isEmpty
    | 1 => decide (d.units.length = 1) && d.units.all (fun u => decide (u < 4))
    | 2 => decide (d.units.length = 1) && d.units.all (fun u => decide (4 ≤ u ∧ u < 8))
    | 3 => decide (1 ≤ d.units.length ∧ d.units.length ≤ 8) && d.units.all (fun u => decide (8 ≤ u ∧ u < 16))
    | _ => d.units.isEmpty
  decide ((p.stages.map (·.key)).Nodup) && decide (units.Nodup) &&
  p.stages.all (fun d => decide (d.key < 16 * presses ∧ 1 ≤ d.beat ∧ d.beat ≤ 512 ∧ d.kind ≤ 4) && unitsOk d) &&
  decide ((p.stages.filter (fun d => decide (d.kind = 0))).map (fun d => d.key / 16) = [0]) &&
  decide ((p.stages.filter (fun d => decide (d.kind = 4))).map (fun d => d.key / 16) = [presses - 1]) &&
  decide (((imageOps b).filter isLayer).length ≤ 128) && ops.all (fun o => splitOk o.2 (p.parts.getD o.1 [])) && pressesAscend prog &&
  ((List.range prog.length).zip prog).all (fun o => !compresses o.2.2 || p.maps.any (fun x => decide (x.1 = o.2.1 ∧ x.2.1 = o.1))) &&
  prog.all (fun o => match stageOf o.1 with
    | some d => o.2.kindOk d.kind
    | none => false) &&
  (List.range presses).all (fun i =>
    decide (((bytes.filter (fun o => decide (o.1 / 16 = i))).map Prod.snd).sum ≤ 67108864 ∧
            p.work.getD i 0 ≤ 16777216))

/-- Some stored descriptor of a placement is malformed or INDEXED (R195, R201), or a queue has two producers (R188). -/
def descsBad (b : List Byte) (presses : Nat) : Bool :=
  let ds := (placementOf b presses).descs
  ds.any (fun x => malformed (x.1 / 16) x.2.2 || decide ((descOf x.2.2).op = 1) || decide (32 ≤ x.2.1)) ||
  ds.any (fun x => ds.any (fun y => decide (x.1 / 16 = y.1 / 16 ∧ x.2.1 = y.2.1 ∧ x.1 ≠ y.1)))

/-- The hot-part shares of each of an adapter's placements: one for each press, and together the whole hot part (R38). (DESIGN
CHOICE, log 114) -/
def sharesOk (b : List Byte) : Bool :=
  (pkgCounts b).all (fun n => decide ((placementOf b n).shares.length = n ∧ (placementOf b n).shares.sum = (pkgOf b).stationary))

/-! ## The checks of a package (R34) -/

/-- The bytes of a body at an offset are all 0. -/
def zeros (body : List Byte) (off n : Nat) : Bool := ((body.drop off).take n).all (· == 0)

/-- Press counts a directory entry may name. -/
def pressCounts : List Nat := [1, 2, 4, 8, 16]

/-- The header is well formed: the first row of Table 2.2. (DEDUCED, log 29) -/
def pkgHeaderOk (b : List Byte) : Bool :=
  let p := pkgOf b
  decide (256 ≤ b.length ∧ lfld b 0 4 = 0x4B505856 ∧ lfld b 4 2 = 3 ∧ p.kind ≤ 1 ∧ p.mode ≤ 1 ∧ p.rate ≤ 3) &&
  decide (1 ≤ p.hop ∧ p.hop ≤ 1024 ∧ 1 ≤ p.inventory ∧ p.inventory ≤ 4096 ∧ 1 ≤ p.placements ∧ p.placements ≤ 8) &&
  (if p.mode = 0 then decide (p.scanFrames = 0) else decide (1 ≤ p.scanFrames ∧ p.scanFrames ≤ 32)) &&
  (List.range p.placements).all (fun i =>
    pressCounts.contains (dirEntry b i).1 && zeros b (97 + 16 * i) 7 && decide ((dirEntry b i).2 < b.length)) &&
  decide ((pkgCounts b).Nodup) && zeros b (96 + 16 * p.placements) (128 - 16 * p.placements) &&
  decide (256 + p.stationary + p.table ≤ b.length) && (decide (p.kind = 1) || decide (p.baseHash = 0)) && zeros b 226 30

/-- The first three rows of Table 2.2, and R403 for a damaged entry. (DEDUCED, log 29) -/
def imageCheck (b : List Byte) (damaged : Bool) : Option Status :=
  if ¬pkgHeaderOk b then some .badDescriptor
  else if lfld b 7 1 ≠ 3 then some .archMismatch
  else if damaged ∨ sha256w (canonical b) ≠ (pkgOf b).hash then some .dataError
  else none

end Sys2Proof.Machine
end

