-- ==== Sys2Proof/Machine/Wear.lean ====
section
/-! DEFINITION. Wear levelling (R389, R390, R393, R395): which blocks hold which data, the blocks that new data goes to,
garbage collection, erasure, the moves of static data, and the pages that all this reads and programs. -/

namespace Sys2Proof.Machine

/-- Pages of a block (R388). -/
def blockPages : Nat := 1024

/-- Blocks of a channel: 2 packages of 4 dies of 16,384 blocks (R388). -/
def chanBlocks : Nat := 131072

/-- The channel that a block lies on. The spec numbers no block: here channel after channel. (DESIGN CHOICE, log 126) -/
def blkChan (b : Nat) : Nat := b / chanBlocks

/-- Blocks of a channel that may hold data, as first number within the channel and count: of its 131,072 the last 4,096 are
the metadata and the factory bad blocks (R389), and the 256 before them are held back for audit records (R396). (DESIGN CHOICE, log 126) -/
def dataBlocks (held : Bool) : Nat × Nat := if held then (126720, 256) else (0, 126720)

/-- The key of a library entry's data; a park record's is its number. -/
def libData (entry : Nat) : Nat := 262144 + entry

/-- The key of a firmware slot's data; slot 2 is the configuration record, and 3 the image being staged. -/
def fwData (slot : Nat) : Nat := 327680 + slot

/-- The key of the `p`-th page of the audit log: 1,024 pages together, and each key again once more than 1,048,576 records
have followed (R451). -/
def auditData (p : Nat) : Nat := 327684 + p / blockPages % 1025

/-- A block of the store. -/
def Wear.blk (w : Wear) (b : Nat) : FBlock := tget {} w.blocks b

/-- Write a block's record. -/
def Wear.putBlk (w : Wear) (b : Nat) (x : FBlock) : Wear := { w with blocks := tset {} w.blocks b x }

/-- A datum. -/
def Wear.datum (w : Wear) (key : Nat) : Datum := tget {} w.data key

/-- Pages of a datum in flash. -/
def Datum.pages (d : Datum) : Nat := (d.on.map Prod.snd).sum

/-- Change a channel's counters. -/
def Wear.modCh (w : Wear) (ch : Nat) (f : FlashCh → FlashCh) : Wear := { w with chans := tset {} w.chans ch (f (tget {} w.chans ch)) }

/-- Pages are read on a channel. -/
def Wear.noteReads (w : Wear) (ch n : Nat) : Wear := w.modCh ch (fun c => { c with reads := c.reads + BitVec.ofNat 48 n })

/-! ## Which block takes new data (R390) -/

/-- The first of the listed blocks with the lowest erase count. -/
def lowestErase : List (Nat × FBlock) → Option (Nat × FBlock)
  | [] => none
  | p :: l => match lowestErase l with
    | some q => if q.2.erases < p.2.erases then some q else some p
    | none => some p

/-- The free block of a channel with the lowest erase count, ties to the lowest number (R390): one never used, or else an
erased one. (DESIGN CHOICE, log 126) -/
def Wear.freeOn (w : Wear) (held : Bool) (ch : Nat) : Option Nat :=
  let first := chanBlocks * ch + (dataBlocks held).1
  let mine := w.blocks.filter (fun p => decide (first ≤ p.1 ∧ p.1 < first + (dataBlocks held).2))
  match findFrom (fun b => !(mine.map Prod.fst).contains b) (dataBlocks held).2 first with
  | some b => some b
  | none => (lowestErase (mine.filter (fun p => decide (p.2.pages = 0) && !p.2.bad))).map Prod.fst

/-- The block of a channel that is being filled. -/
def Wear.filling (w : Wear) (ch : Nat) : Option Nat :=
  match tget none w.openOn ch with
  | some b => if (w.blk b).pages < blockPages ∧ ¬(w.blk b).bad then some b else none
  | none => none

/-- The block that takes the next page on a channel: the one being filled, else a free one; a channel that is full leaves it to
another. (DESIGN CHOICE, log 126) -/
def Wear.target (w : Wear) (held : Bool) (ch : Nat) : Option Nat :=
  match w.filling ch, w.freeOn held ch with
  | some b, _ => some b
  | none, some b => some b
  | none, none => (List.range 8).findSome? (w.freeOn held)

/-- Channels that a page without redundancy may go to: those with a block being filled, and those whose free block has the
lowest erase count of all (R390). (DESIGN CHOICE, log 126) -/
def Wear.choices (w : Wear) : List Nat :=
  let free := (List.range 8).filterMap (fun c => (w.freeOn false c).map (fun b => (c, (w.blk b).erases)))
  (List.range 8).filter (fun c => (w.filling c).isSome ||
    free.any (fun p => decide (p.1 = c) && free.all (fun q => decide (p.2 ≤ q.2))))

/-! ## Programming, moving and erasing -/

/-- Program `n` pages of a datum on a channel at CTCLK `now`, block after block. -/
def Wear.program (now : Nat) (held : Bool) : Nat → Nat → Nat → Nat → Wear → Wear
  | 0, _, _, _, w => w
  | fuel + 1, ch, key, n, w =>
    match w.target held ch with
    | none => w
    | some b =>
      let x := w.blk b
      let m := min n (blockPages - x.pages)
      let d := w.datum key
      let u := w.putBlk b { x with pages := x.pages + m, live := x.live + m, since := if x.pages = 0 then now else x.since }
      let u := u.modCh (blkChan b) (fun c => { c with programs := c.programs + BitVec.ofNat 48 m })
      let u := { u with openOn := tset none u.openOn (blkChan b) (some b), data := tset {} u.data key { d with on := tset 0 d.on b (tget 0 d.on b + m) } }
      if n ≤ m then u else Wear.program now held fuel ch key (n - m) u

/-- Erase a block: its count rises. -/
def Wear.erase (w : Wear) (now b : Nat) : Wear :=
  let u := w.putBlk b { erases := (w.blk b).erases + 1, since := now }
  { u with openOn := if tget none u.openOn (blkChan b) = some b then tset none u.openOn (blkChan b) none else u.openOn }

/-- Move the data of block `b` to other blocks of its channel (R390, R393, R395): gives the pages moved. -/
def Wear.moveOut (w : Wear) (now b : Nat) : Wear × Nat :=
  let w := { w with openOn := if tget none w.openOn (blkChan b) = some b then tset none w.openOn (blkChan b) none else w.openOn }
  w.data.foldl (fun acc p =>
    let n := tget 0 p.2.on b
    if n = 0 then acc
    else
      let u := acc.1.putBlk b { acc.1.blk b with live := (acc.1.blk b).live - n, pages := blockPages }
      let u := { u with data := tset {} u.data p.1 { u.datum p.1 with on := tdel (u.datum p.1).on b } }
      ((u.noteReads (blkChan b) n).program now false (n / blockPages + 3) (blkChan b) p.1 n, acc.2 + n)) (w, 0)

/-- Move the data of block `b` elsewhere and erase the block. -/
def Wear.relocate (w : Wear) (now b : Nat) : Wear × Nat :=
  let (u, n) := w.moveOut now b
  (u.erase now b, n)

/-- The least and greatest erase counts in service (Table 17.6); a block not listed has never been erased. -/
def Wear.spread (w : Wear) : Nat × Nat :=
  let counts := (w.blocks.filter (fun p => !p.2.bad)).map (·.2.erases)
  let top := counts.foldl max 0
  (if w.blocks.length < 8 * ((dataBlocks false).2 + (dataBlocks true).2) then 0 else counts.foldl min top, top)

/-- Static data moves from every block whose erase count another's exceeds by more than 256 (R390). (DESIGN CHOICE, log 126) -/
def Wear.level (w : Wear) (now : Nat) : Wear :=
  let low := (w.blocks.filter (fun p => !p.2.bad && decide (0 < p.2.live ∧ p.2.erases + 256 < w.spread.2))).map Prod.fst
  low.foldl (fun u b => (u.relocate now b).1) w

/-- Take block `b` out of service, its data moved (R395). (DESIGN CHOICE, log 126) -/
def Wear.retire (w : Wear) (now b : Nat) : Wear :=
  let u := (w.moveOut now b).1
  (u.putBlk b { u.blk b with bad := true }).level now

/-- A datum goes: blocks that hold no data any more are erased, and what R390 asks to move moves. (DESIGN CHOICE, log 126) -/
def Wear.drop (w : Wear) (now key : Nat) : Wear :=
  let u := (w.datum key).on.foldl (fun (u : Wear) q =>
    u.putBlk q.1 { u.blk q.1 with live := (u.blk q.1).live - q.2 }) { w with data := tdel w.data key }
  let done := (u.blocks.filter (fun p => !p.2.bad &&
    decide (p.2.live = 0 ∧ 0 < p.2.pages ∧ (u.filling (blkChan p.1) ≠ some p.1)))).map Prod.fst
  (done.foldl (fun u b => u.erase now b) u).level now

/-- A datum takes another key. -/
def Wear.rename (w : Wear) (from_ to_ : Nat) : Wear :=
  { w with data := tset {} (tdel w.data from_) to_ (w.datum from_) }

/-! ## Garbage collection (R390) -/

/-- At most one free block is left on a channel. -/
def Wear.scarce (w : Wear) (ch : Nat) : Bool :=
  match w.freeOn false ch with
  | none => true
  | some b => ((w.putBlk b { w.blk b with pages := 1 }).freeOn false ch).isNone

/-- The block of a channel that holds the fewest live pages and some dead ones. -/
def Wear.victim (w : Wear) (ch : Nat) : Option Nat :=
  ((w.blocks.filter (fun p => decide (blkChan p.1 = ch ∧ p.2.live < p.2.pages) && !p.2.bad && decide (w.filling ch ≠ some p.1))).foldl
    (fun (m : Option (Nat × Nat)) p => match m with
      | some q => if p.2.live < q.2 then some (p.1, p.2.live) else m
      | none => some (p.1, p.2.live)) none).map Prod.fst

/-- Before a channel's last free block is taken, the live pages of a block that holds dead ones move, and that block is erased.
(DESIGN CHOICE, log 126) -/
def Wear.collect (w : Wear) (now ch : Nat) : Wear :=
  if (w.filling ch).isSome ∨ ¬w.scarce ch then w
  else match w.victim ch with
    | some b => (w.relocate now b).1
    | none => w

/-- Write `n` pages of a datum to a channel, a block's worth at a time. -/
def Wear.writeOn (now : Nat) (held : Bool) (ch key : Nat) : Nat → Nat → Wear → Wear
  | 0, _, w => w
  | fuel + 1, n, w =>
    if n = 0 then w
    else
      let m := min n blockPages
      Wear.writeOn now held ch key fuel (n - m) ((w.collect now ch).program now held 4 ch key m)

/-! ## Channels of a datum's pages (Table 17.1) -/

/-- The pages `first`, `first + 1`, … (`n` of them) of a datum, by channel. A library entry's eight pages of a stripe, its
parity last, lie on eight channels; the two copies of firmware, configuration and audit log on two; from which channel on, the seat
says. (DESIGN CHOICE, log 126) -/
def pageLayout (key seat first n : Nat) : List (Nat × Nat) :=
  if key < fwData 0 then (List.range 8).map (fun d => ((seat + first + d) % 8, (n + 7 - d) / 8))
  else [(seat % 8, n / 2), ((seat + 1 + seat / 8 % 7) % 8, n / 2)]

/-- Write `n` more pages of a datum with redundancy; `v` seats its first ones. -/
def Wear.write (w : Wear) (now : Nat) (held : Bool) (key v n : Nat) : Wear :=
  let d := w.datum key
  let d := if d.on = [] then { d with seat := v % 56 } else d
  (pageLayout key d.seat d.pages n).foldl (fun u p => u.writeOn now held p.1 key (p.2 / blockPages + 1) p.2)
    { w with data := tset {} w.data key d }

/-- Write one page of a datum without redundancy, on one of the channels it may go to. -/
def Wear.writePage (w : Wear) (now key v : Nat) : Wear :=
  w.writeOn now false (w.choices.getD (v % w.choices.length) 0) key 2 1

/-- Every page of a datum is read. -/
def Wear.readAll (w : Wear) (key : Nat) : Wear := (w.datum key).on.foldl (fun u p => u.noteReads (blkChan p.1) p.2) w

/-- The block of one of a datum's pages, `v` saying which. -/
def Wear.pageOf (w : Wear) (key v : Nat) : Option Nat :=
  (((w.datum key).on)[v % (w.datum key).on.length]?).map Prod.fst

/-- The first `k` pages of a library entry are read, and no parity (R403). (DESIGN CHOICE, log 70) -/
def Wear.readLib (w : Wear) (key k : Nat) : Wear :=
  (List.range 7).foldl (fun u p => u.noteReads (((w.datum key).seat + p) % 8) ((k + 6 - p) / 7)) w

end Sys2Proof.Machine
end

