-- ==== Sys2Proof/Machine/Ops.lean ====
section
/-! DEFINITION. The operations the commands share: running under a live clock, crier records, device messages and
responses, audit records, the release of feed buffers, pitches and egress buffers, the freeing and faulting of streams,
the teardown of stalls, module failure, press retirement and the gate tree. -/

namespace Sys2Proof.Machine

/-! ## Running -/

/-- Both reference oscillators run (R426). (DEDUCED, log 10) -/
def State.clocked (s : State) : Bool := s.power.ref100 && s.power.ref156

/-- Run an effect; after the loss of a reference the module's behaviour is not defined (R426), and the step faults. (DESIGN CHOICE, log 7; DEDUCED, log 10) -/
def run (s : State) (f : State → State) : Host.Outcome State Fault Refusal :=
  if s.clocked then .next (f s) else .fault .undefinedAfterClockLoss

/-- The 156.25 MHz reference alone has stopped: both ports stop sending and receiving (R426). (DEDUCED, log 10) -/
def State.portsLost (s : State) : Bool := s.power.ref100 && !s.power.ref156

/-- Run an effect of something that a port receives: after the loss of the 156.25 MHz reference nothing is received (R426).
(DEDUCED, log 10) -/
def runPort (s : State) (f : State → State) : Host.Outcome State Fault Refusal := if s.portsLost then .next s else run s f

/-- The clerk executes commands: the ports are enabled and no module failure is in force (R348, R458). (DEDUCED, log 98) -/
def State.clerkUp (s : State) : Bool := decide (s.power.phase = .up) && s.clerk.failed.isNone

/-- The hardware is out of reset and powered, so that Palhani's machinery runs. -/
def State.awake (s : State) : Bool := decide (s.power.phase = .up) || decide (s.power.phase = .started)

/-- Draw a free value: a fresh one each time. (DESIGN CHOICE, log 4) -/
def State.draw (s : State) : BitVec 256 × State := (Config.freeWord s.free, { s with free := s.free + 1 })

/-- Take an order stamp. (DESIGN CHOICE, log 9) -/
def State.tick (s : State) : State := { s with stamp := s.stamp + 1 }

/-- Change the clerk's registers. -/
def State.modClerk (s : State) (f : Clerk → Clerk) : State := { s with clerk := f s.clerk }

/-- Change the VCT engine's registers. -/
def State.modVct (s : State) (f : Vct → Vct) : State := { s with vct := f s.vct }

/-- Change the security registers. -/
def State.modSec (s : State) (f : Sec → Sec) : State := { s with sec := f s.sec }

/-- Change the flash store. -/
def State.modFlash (s : State) (f : Flash → Flash) : State := { s with flash := f s.flash }

/-- Change the clock registers. -/
def State.modClk (s : State) (f : Clk → Clk) : State := { s with clk := f s.clk }

/-- Change power and pins. -/
def State.modPower (s : State) (f : Power → Power) : State := { s with power := f s.power }

/-- Change firmware staging. -/
def State.modFw (s : State) (f : Fw → Fw) : State := { s with fw := f s.fw }

/-- Log something that left the module. (DESIGN CHOICE, log 8) -/
def State.emit (s : State) (x : Sent) : State := { s with sent := x :: s.sent }

/-- Fold an effect over a list of keys. -/
def forEach {α : Type} (f : State → α → State) : List α → State → State
  | [], s => s
  | a :: l, s => forEach f l (f s a)

/-- The keys a table lists. -/
def tkeys {α : Type} (t : Tbl α) : List Nat := t.map Prod.fst

/-- CTCLK cycles in 24 hours. -/
def dayCycles : Nat := 86400 * Config.ctPerSecond

/-! ## Flash pages (R389, R390) -/

/-- Change what Palhani knows of the flash blocks. -/
def State.modWear (s : State) (f : Wear → Wear) : State := { s with flash := { s.flash with wear := f s.flash.wear } }

/-- Pages of a datum are written to flash: a park record's each on a channel the spec does not name, a free value; others as Table
17.1 lays them out. (DESIGN CHOICE, logs 70, 126) -/
def State.flashWrite (s : State) (key pages : Nat) : State :=
  if key < libData 0 then
    forEach (fun s (_ : Nat) => s.draw.2.modWear (fun w => w.writePage s.now key s.draw.1.toNat)) (List.range pages) s
  else s.draw.2.modWear (fun w => w.write s.now (s.flash.readOnly && decide (auditData 0 ≤ key)) key s.draw.1.toNat pages)

/-- Flash pages that `bytes` of a library entry and their parity fill (R403). -/
def libPages (bytes : Nat) : Nat := ceilDiv (8 * bytes) (7 * 16384)

/-- Pages that hold `bytes` of library entry `n` are read; the parity is not. (DESIGN CHOICE, log 70) -/
def State.libRead (s : State) (n bytes : Nat) : State := s.modWear (fun w => w.readLib (libData n) (ceilDiv bytes 16384))

/-- One page of a datum is read; which, and so on which channel, the spec does not say. (DESIGN CHOICE, log 70) -/
def State.flashReadPage (s : State) (key : Nat) : State :=
  s.draw.2.modWear (fun w => w.noteReads (((w.pageOf key s.draw.1.toNat).map blkChan).getD (s.draw.1.toNat % 8)) 1)

/-- A datum in flash goes (R390). -/
def State.flashFree (s : State) (key : Nat) : State := s.modWear (fun w => w.drop s.now key)

/-! ## Crier records (R298 to R300) -/

/-- Records a source's ring holds (R300). -/
def crierRing : Nat := 65536

/-- Raise a record on a source: it takes the source's next number, and is discarded and counted when the ring is full. -/
def State.raise (s : State) (src : Nat) (r : CrierRec) : State :=
  let c := s.crierSrc src
  if c.ring.length < crierRing then
    s.putCrierSrc src { c with seq := c.seq + 1, gap := false,
                               ring := c.ring ++ [{ r with seq := c.seq + 1, source := src, gap := c.gap }] }
  else
    (s.putCrierSrc src { c with seq := c.seq + 1, gap := true }).modClerk
      (fun k => { k with crierLost := k.crierLost + 1 })

/-- The crier source of a porter engine (Table 13.5). -/
def engineSource (e : Nat) : Nat := if e < 16 then 0 else if e < 20 then e - 15 else if e < 24 then e - 15 else 14

/-- The source of the state-store die that holds a stream's entry (R51, R298). -/
def entrySource (n : Nat) : Nat := 1 + n % 4

/-! ## Device messages and responses -/

/-- The retransmission timeout of a session in CTCLK (R268). (DEDUCED, log 99) -/
def Session.rto (q : Session) : Nat :=
  match q.srtt with
  | none => 525000
  | some t => min 10500000 (max 52500 (t + 4 * q.rttvar))

/-- The port receives: it is enabled and its link is up. (DEDUCED, log 73) -/
def NetPort.live (t : NetPort) : Bool := t.cfg.getLsbD 0 && t.up

/-- VCT frames of the port wait: their priority is paused (R258). -/
def NetPort.vctPaused (t : NetPort) : Bool := t.paused.getLsbD (bits t.qos.toNat 2 0)

/-- A frame that waits keeps the register words under which it was queued (R285). -/
def NetPort.hold (t : NetPort) (x : Sent) : Sent := .queued t.cfg t.qos t.ports t.ipv4 t.ipv6 x

/-- The port under the words a frame was queued with. -/
def NetPort.under (t : NetPort) (cfg qos ports ipv4 : BitVec 32) (ipv6 : BitVec 128) : NetPort :=
  { t with cfg := cfg, qos := qos, ports := ports, ipv4 := ipv4, ipv6 := ipv6 }

/-- A frame of the port waits: its priority is paused, vct_pcp or, of the port's own replies, theirs (R258). -/
def Sent.waits (t : NetPort) : Sent → Bool
  | .reply _ _ _ _ _ => t.paused.getLsbD Config.replyPrio.1.toNat
  | .queued c q p a b x => x.waits (t.under c q p a b)
  | _ => t.vctPaused

/-- A frame leaves by a port: logged, and counted when the link carries it (Table 12.7). (DESIGN CHOICE, log 142) -/
def State.sendFrame (s : State) (p : Nat) (x : Sent) : State :=
  (if (s.net p).live then s.modNet p (fun t => { t with txFrames := t.txFrames + 1 }) else s).emit x

/-- A frame goes to a port: it leaves, or is held in order while its priority is paused (R258). -/
def State.sendOn (s : State) (p : Nat) (x : Sent) : State :=
  if x.waits (s.net p) then s.modNet p (fun t => { t with held := t.held ++ [t.hold x] }) else s.sendFrame p x

/-- A VCT frame of a session goes to the session's port (R283). -/
def State.sendVct (s : State) (k : Nat) (x : Sent) : State := s.sendOn (s.sess k).src.port x

/-- The frames held for a port whose priority is paused no longer leave, in order. -/
def State.sendHeld (s : State) (p : Nat) : State :=
  let t := s.net p
  forEach (fun s x => s.sendFrame p x) (t.held.filter (fun x => !x.waits t))
    (s.modNet p (fun t => { t with held := t.held.filter (fun x => x.waits t) }))

/-- Queue a sequenced device message on a session (R266, R267): sent at once within the host's window, else it waits.
On a session that is not open it is discarded and counted (R269, Table 12.6). After a module failure nothing but an
ACK leaves (R348). -/
def State.post (s : State) (k type : Nat) (body : List Byte) (aud : Option (Nat × Nat × Nat)) : State :=
  let q := s.sess k
  if s.clerk.failed.isSome then s
  else if q.st = .opened then
    let m : TxMsg := { seq := q.txNext, type := type, body := body, sentAt := s.now, rto := q.rto, stream := aud }
    if q.txWait = [] ∧ q.tx.length < q.window then
      (s.putSess k { q with txNext := q.txNext + 1, tx := q.tx ++ [m] }).sendVct k (.vct k type m.seq body)
    else s.putSess k { q with txNext := q.txNext + 1, txWait := q.txWait ++ [m] }
  else s.modVct (fun v => { v with lost := v.lost + 1 })

/-- A response payload: the header of Table 13.2 and the body. -/
def responseBytes (op : Nat) (st : Status) (tag seq : BitVec 32) (flags : Nat) (body : List Byte) : List Byte :=
  [BitVec.ofNat 8 op, st.code] ++ beBytes 2 body.length ++ beBytes 4 tag.toNat ++ beBytes 2 0 ++
    beBytes 2 flags ++ beBytes 4 seq.toNat ++ body

/-- Count a command's answer (Table 13.10). -/
def Clerk.count (k : Clerk) (st : Status) : Clerk :=
  if st = .ok then { k with cmds := k.cmds + 1 } else { k with refused := k.refused + 1 }

/-- Write a response payload: the command's ring entry is given back, a response ring entry is taken, and the RESPONSE is
sent (R288). (DEDUCED, log 19) -/
def State.writeResponse (s : State) (k : Nat) (seq : BitVec 32) (payload : List Byte) : State :=
  let s := s.modSess k (fun q =>
    { q with ring := q.ring.filter (fun c => decide (c.seq ≠ seq ∨ c.life ≠ q.life)),
             rspUsed := if q.st = .opened then q.rspUsed + 1 else q.rspUsed })
  s.post k 4 payload none

/-- A response that nobody takes: its session has been freed, or was DEAD and has been resumed, since the COMMAND was delivered.
It is counted, and the ring entry is given back (Table 12.6). -/
def State.loseResponse (s : State) (d : Defer) : State :=
  let s := s.modVct (fun v => { v with lost := v.lost + 1 })
  if (s.sess d.session).gen = d.gen then
    s.modSess d.session (fun q => { q with ring := q.ring.filter (fun c => decide (c.seq ≠ d.seq ∨ c.life ≠ d.life)) })
  else s

/-- A command is answered (R288, R294): its response is written, or waits while all 16 entries of the response ring are
held. A response whose session has been freed, or has been DEAD since, is discarded and counted (Table 12.6). (DEDUCED, logs 19, 23) -/
def State.respond (s : State) (d : Defer) (st : Status) (flags : Nat) (body : List Byte) : State :=
  let q := s.sess d.session
  let s := s.modClerk (·.count st)
  if q.gen = d.gen ∧ q.life = d.life then
    let payload := responseBytes d.opcode st d.tag d.seq flags body
    if q.st = .opened ∧ 16 ≤ q.rspUsed then
      s.modSess d.session (fun q => { q with rspWait := q.rspWait ++ [(d.seq, payload)] })
    else s.writeResponse d.session d.seq payload
  else s.loseResponse d

/-- The command of a session's ring that Palhani starts next (R294). -/
def Session.nextCmd (q : Session) : Option RingCmd := q.ring.find? (fun c => !c.started)

/-- The opcodes of Table 14.1 that a COMMAND may carry: 0x31 is carried in FEED messages only. -/
def opcodes : List Nat :=
  [0x01, 0x02, 0x03, 0x10, 0x11, 0x12, 0x13, 0x20, 0x21, 0x22, 0x30, 0x32, 0x33, 0x34, 0x35, 0x36, 0x37, 0x38, 0x39, 0x40, 0x41,
   0x42, 0x50, 0x51, 0x52, 0x60, 0x61, 0x62, 0x63, 0x64, 0x65, 0x70, 0x71, 0x72, 0x73, 0x74]

/-- The COMMAND is one that no command of the table can be: too short for a header, or of no opcode (R290, R292). -/
def RingCmd.bad (c : RingCmd) : Bool := decide (c.bytes.length < 16) || !opcodes.contains (fld c.bytes 0 1)

/-- Answer the COMMANDs at the front of a session's ring that are too short or of no opcode: each when its turn in the order of
delivery has come (R290, R292, R294) and the response ring has an entry (R288). (DEDUCED, log 19; DESIGN CHOICE, log 22) -/
def State.serveBad (k : Nat) : Nat → State → State
  | 0, s => s
  | fuel + 1, s =>
    match (s.sess k).nextCmd with
    | some c =>
      if c.bad ∧ (s.sess k).rspUsed < 16 then
        let g := (s.sess k).gen
        State.serveBad k fuel (if c.bytes.length < 16 then s.respond ⟨k, c.seq, 0, 0, g, c.life⟩ .badLength 0 []
          else s.respond ⟨k, c.seq, BitVec.ofNat 32 (fld c.bytes 4 4), fld c.bytes 0 1, g, c.life⟩ .badOpcode 0 [])
      else s
    | none => s

/-- A command is answered, and the bad COMMANDs behind it in the ring with it. -/
def State.reply (s : State) (d : Defer) (st : Status) (flags : Nat) (body : List Byte) : State :=
  let t := s.respond d st flags body
  t.serveBad d.session (t.sess d.session).ring.length

/-- Write a deferred response, if one is owed (flags bit 0: deferred). -/
def State.answer (s : State) (d : Option Defer) (st : Status) (body : List Byte) : State :=
  match d with
  | none => s
  | some d => s.respond d st 1 body

/-- Write every deferred response of a list. -/
def State.answerAll (s : State) (ds : List Defer) (st : Status) (body : List Byte) : State :=
  forEach (fun s d => s.respond d st 1 body) ds s

/-- Write the deferred responses that a stream owes: to its PAUSE commands, its export and a cancelled export. -/
def State.answerOwed (s : State) (x : Stream) (st : Status) (body : List Byte) : State :=
  ((s.answerAll x.deferPause st body).answer x.deferExport st body).answer x.cancelled st body

/-- Table 3.1's code of a stream state. -/
def SState.code : SState → Nat
  | .free => 0 | .idle => 1 | .queued => 2 | .resident => 3 | .draining => 4 | .parked => 5 | .faulted => 6

/-- Table 3.2's code of a stall state. -/
def StallSt.code : StallSt → Nat
  | .free => 0 | .open_ => 1 | .quiescing => 2 | .torn => 3

/-- Table 13.3's code of a row state. -/
def RowSt.code : RowSt → Nat
  | .absent => 0 | .draining => 1 | .building => 2 | .live => 3

/-- The 4-byte body of PAUSE, RESUME, END and PARK: the stream's state and three reserved bytes (R325). -/
def stateBody (st : SState) : List Byte := [BitVec.ofNat 8 st.code, 0, 0, 0]

/-! ## Audit records (R448 to R450) -/

/-- The role byte of R429: role in [1:0], peer flag in [7]. -/
def roleByte (q : Session) : Nat := q.role + if q.peer then 128 else 0

/-- Append an audit record: 480 bytes, then their hash; the region keeps the latest 1,048,576 (R448, R451). -/
def State.audit (s : State) (kind op : Nat) (status : Byte) (role : Nat) (sess : Option Nat) (stall : Option Nat)
    (src : BitVec 128) (detail : List Byte) : State :=
  let seq := s.sec.auditSeq + 1
  let prev := match s.sec.audit with
    | [] => List.replicate 28 (0 : Byte)
    | r :: _ => (r.drop 480).take 28
  let d := detail.take 404
  let head := leBytes 8 seq ++ leBytes 4 s.flash.bootCount ++ leBytes 8 (s.now - s.power.uptime0) ++
    [BitVec.ofNat 8 kind, BitVec.ofNat 8 op, status, BitVec.ofNat 8 role] ++
    leBytes 2 (sess.getD 0xFFFF) ++ leBytes 2 (stall.getD 0xFFFF) ++ leBytes 16 src.toNat ++
    leBytes 2 d.length ++ leBytes 2 0 ++ d ++ List.replicate (404 - d.length) 0 ++ prev
  s.modSec (fun c => { c with auditSeq := seq, audit := (head ++ sha256 head) :: c.audit.take 1048575 })

/-! ## Events of the flash store (R404) -/

/-- A FLASH_EVENT (Table 17.4). -/
def State.flashEvent (s : State) (kind value unit : Nat) (stream : Option Nat) : State :=
  s.raise 12 { seq := 0, source := 0, status := if kind = 5 ∨ kind = 8 ∨ (kind = 4 ∧ value = 0) then .dataError else .ok,
               event := 0x0050, stream := stream, unit := unit, arg := BitVec.ofNat 64 (kind + 2 ^ 32 * (value % 2 ^ 32)) }

/-! ## Bad blocks (R395, R396) -/

/-- Retire a block: a spare takes its place; few spares, and none, are reported (R395, R396). (DEDUCED, log 86) -/
def State.retireBlock (s : State) (block channel : Nat) : State :=
  let left := s.flash.spares - 1
  let low := decide (s.flash.spares = 4096)
  let last := decide (s.flash.spares = 1)
  let s := s.modFlash (fun f => { f with spares := left, retired := f.retired + 1, readOnly := f.readOnly || decide (left = 0) })
  let s := s.flashEvent 1 block channel none
  let s := s.modWear (fun w => w.retire s.now block)
  let s := if low then s.flashEvent 2 left 0 none else s
  if last then s.flashEvent 3 0 0 none else s

/-- A program has failed on a block and on the 3 others it was tried on (R395): each is retired; the spec names none of them.
(DEDUCED, log 86) -/
def State.programFailed (s : State) : State :=
  forEach (fun s (_ : Nat) =>
    let l := s.flash.wear.choices
    match s.flash.wear.target false (l.getD (s.draw.1.toNat % l.length) 0) with
    | some b => s.draw.2.retireBlock b (blkChan b)
    | none => s.draw.2) (List.range 4) s

/-! ## Feed buffers (R243 to R246) -/

/-- Return shared buffers to their dies. -/
def State.giveBufs (s : State) (bufs : List (Nat × Nat)) : State :=
  forEach (fun s p => s.modDie p.1 (fun d => { d with feedFree := d.feedFree + 1, feedUsed := d.feedUsed.erase p.2 })) bufs s

/-- Buffers a list names. -/
def bufCount (bufs : List (Nat × Nat)) : Nat := bufs.length

/-- The `k` lowest numbers that a list does not hold. -/
def lowestFree (used : List Nat) (k : Nat) : List Nat :=
  ((List.range (used.length + k)).filter (fun i => !used.contains i)).take k

/-- Insert a number into a rising list that has no repeats. -/
def insertNat : List Nat → Nat → List Nat
  | [], n => [n]
  | m :: l, n => if n < m then n :: m :: l else if n = m then m :: l else m :: insertNat l n

/-- The key of a buffer's first byte in its die's local memory (Table 10.4): the floor area's 65,536 buffers, then the shared ones.
(DESIGN CHOICE, log 62) -/
def sharedKey (die i : Nat) : Nat := addrWord 4 die (0x800000 + 512 * (65536 + i))

/-- The key of the floor buffer of stream `n` (R243). (DESIGN CHOICE, log 62) -/
def floorKey (n : Nat) : Nat := addrWord 4 (n % 4) (0x800000 + 512 * (n / 4))

/-- Buffers a held chunk holds, its floor included. -/
def HeldChunk.held (c : HeldChunk) : Nat := bufCount c.bufs + if c.floor then 1 else 0

/-- Release a held chunk of stream `n`: its shared buffers become unheld, its floor idle (R246). -/
def State.releaseChunk (n : Nat) (s : State) (c : HeldChunk) : State :=
  let k := (s.stream n).stall
  let s := s.giveBufs c.bufs
  let s := if c.floor then s.modDie (n % 4) (fun d => { d with feedFloor := d.feedFloor - 1 }) else s
  s.modStall k (fun t => { t with held := t.held - c.held })

/-- Release held chunks of stream `n`. -/
def State.releaseChunks (s : State) (n : Nat) (cs : List HeldChunk) : State := forEach (State.releaseChunk n) cs s

/-- Shared buffers free on all dies (Σ SSs_FEED_FREE). -/
def State.feedFreeSum (s : State) : Nat := ((List.range 4).map (fun d => (s.die d).feedFree)).sum

/-- Take `k` shared buffers, from die `n mod 4` first and then ascending with wrap (R244); of a die, the lowest free ones. (DESIGN
CHOICE, log 62) -/
def State.takeBufs : (dies : List Nat) → (k : Nat) → State → List (Nat × Nat) × State
  | [], _, s => ([], s)
  | d :: ds, k, s =>
    let t := min k (s.die d).feedFree
    let mine := lowestFree (s.die d).feedUsed t
    let s := if t = 0 then s else s.modDie d (fun x => { x with feedFree := x.feedFree - t, feedUsed := mine.foldl insertNat x.feedUsed })
    let (l, s) := State.takeBufs ds (k - t) s
    (mine.map (fun i => (d, i)) ++ l, s)

/-- The dies in the order a stream's chunks take buffers from them. -/
def dieOrder (n : Nat) : List Nat := (List.range 4).map (fun i => (n + i) % 4)

/-! ## Pitches (R232, R247) -/

/-- A stream holds a pitch: staged, RESIDENT or DRAINING (Table 3.3). -/
def Stream.holdsPitch (x : Stream) : Bool :=
  x.staged || decide (x.st = .resident) || decide (x.st = .draining)

/-- A sample of a quire of the stream is still to be written to its egress: the stream is staged, or RESIDENT and its quire's last
sample has not left the pipeline. -/
def Stream.quireAhead (x : Stream) : Bool :=
  x.staged || (decide (x.st = .resident) && match x.quire with | some q => !q.left | none => true)

/-- Some stream holds pitch `p`. -/
def State.pitchTaken (s : State) (p : Nat) : Bool :=
  s.streams.any (fun e => e.2.holdsPitch && decide (e.2.pitch = p))

/-- The pitch a staging claims: the lowest free pitch of the die of the stream's entry, else of the next die with one. -/
def State.freePitch (s : State) (n : Nat) : Option Nat :=
  (dieOrder n).findSome? (fun d =>
    if (s.die d).pitchFree = 0 then none else findFrom (fun p => !s.pitchTaken p) 4096 (4096 * d))

/-- Return a stream's pitch to its pool. (DEDUCED, log 54) -/
def State.givePitch (s : State) (n : Nat) : State :=
  let x := s.stream n
  let s := s.modDie (x.pitch / 4096) (fun d => { d with pitchFree := d.pitchFree + 1 })
  s.modStall x.stall (fun t => { t with pitches := t.pitches - 1 })

/-! ## Egress buffers (R248) -/

/-- Return `c` egress buffers of a stall. -/
def State.giveEgress (s : State) (stall c : Nat) : State :=
  (s.modClerk (fun k => { k with egrFree := k.egrFree + c })).modStall stall (fun t => { t with egress := t.egress - c })

/-- Egress buffers that an entry holds: one for each shared run, and one for its floor buffer when that holds samples. -/
def Egress.held (e : Egress) : Nat := (e.bufs.filter (fun b => !b.floor)).length + b2n (e.bufs.any (·.floor))

/-- Egress floor reservations whose buffers hold no samples (HUB_EGR_POOL.rsv). -/
def State.egrRsv (s : State) : Nat :=
  (s.egress.filter (fun e => e.2.floorRsv && !(e.2.bufs.any (·.floor)))).length

/-- Unbind the serial audio slot of an egress entry whose stream is gone (R380). (DEDUCED, log 60) -/
def State.unbindSlot (s : State) (n : Nat) (e : Egress) : State :=
  if e.kind = 1 then
    s.modSap (e.index / 128) (fun p =>
      let j := tget ({} : Slot) p.tbl (e.index % 128)
      let k : Slot := { inMuted := j.inMuted, csBits := j.csBits, csOn := j.csOn, quiet := j.quiet }
      if j.bound ∧ j.stream = n then { p with tbl := tset {} p.tbl (e.index % 128) k, next := p.next.set (e.index % 128) none } else p)
  else s

/-- Discard a stream's egress samples and give its buffers back; `keep` says that the floor reservation stays. -/
def State.discardEgress (s : State) (n : Nat) (keep : Bool) : State :=
  let e := s.egr n
  let s := s.giveEgress e.stall e.held
  s.putEgr n { e with bufs := [], hist := [], floorRsv := e.floorRsv && keep, cutTo := none, final := none }

/-- Discard a stream's egress samples and give its buffers and its floor reservation back. -/
def State.dropEgress (s : State) (n : Nat) : State := s.discardEgress n false

/-- Samples of the entry wait to leave: buffers hold some, or a graceful end's last sample is not sent (R52, R65). (DEDUCED, log 60) -/
def Egress.busy (e : Egress) : Bool :=
  !e.bufs.isEmpty || match e.final with
    | some c => decide (e.lastSent < c)
    | none => false

/-- After samples have left: an entry cut at `c` that has released everything up to it discards the rest (R78), and
when a FREE stream's last sample has left, its egress entry returns to the unbound values (R52, R275). (DEDUCED, log 60) -/
def State.closeEgress (s : State) (n : Nat) : State :=
  let cut : Bool := match (s.egr n).cutTo with
    | some c => decide (c ≤ (s.egr n).released)
    | none => false
  let s := if cut then s.dropEgress n else s
  let e := s.egr n
  if (s.stream n).st = .free ∧ ¬e.busy then (s.unbindSlot n e).putEgr n {} else s

/-! ## Porter descriptors (R186, R199, R207) -/

/-- The producer that Palhani gives a queue at boot (R188): the stream schedulers take the first queues of the memory-edge
engines, the VCT engine those of the state-store engines, and the clerk the others. A press engine's queues that a placement
uses get theirs at ROW_CONFIGURE. (DESIGN CHOICE, log 117) -/
def bootProducer (e q : Nat) : Producer :=
  if e < 16 then .clerk else if e < 20 then .vct else if e < 24 ∧ q < Config.nRows then .scheduler q else .clerk

/-- The one producer of a queue (R188). (DESIGN CHOICE, log 117) -/
def State.producerOf (s : State) (e q : Nat) : Producer :=
  if e < 16 then
    match (tget ({} : PQueue) (s.engine e).queues q).producer with
    | .none => .clerk
    | p => p
  else bootProducer e q

/-- A producer writes a descriptor into a queue of an engine: only the queue's own producer may, and only the clerk's
queues accept INDEXED (R188, R201). (DESIGN CHOICE, log 117) -/
def State.pushDesc (s : State) (who : Producer) (e q : Nat) (d : Desc) : State :=
  if s.producerOf e q = who ∧ (d.op ≠ 1 ∨ who = .clerk) then
    s.modEngine e (fun g =>
      let p := tget ({} : PQueue) g.queues q
      { g with nextId := g.nextId + 1,
               queues := tset {} g.queues q { p with descs := p.descs ++ [{ id := g.nextId, d := d }] } })
  else s

/-- A barrier of Palhani's own, which no stall owns, is signalled (R202, R204). (DESIGN CHOICE, log 58) -/
def State.signalSys (s : State) (e b : Nat) : State :=
  s.modEngine e (fun g =>
    let v := tget (0 : BitVec 32) g.bars b
    if v = 0xFFFFFFFF#32 then { g with barsat := g.barsat + 1 } else { g with bars := tset 0 g.bars b (v + 1) })

/-- `k` of a barrier's signals are taken. -/
def State.takeBar (s : State) (e b k : Nat) : State :=
  s.modEngine e (fun g => { g with bars := tset 0 g.bars b (BitVec.ofNat 32 ((tget (0 : BitVec 32) g.bars b).toNat - k)) })

/-- The halves of a pair exchange their roles (R206). (DEDUCED, log 65) -/
def Pair.swap (w : Pair) : Pair :=
  { w with recto := !w.recto, full := false, held := true, req := false, swaps := w.swaps + 1 }

/-- Verso has become full, by a fill or by its cancellation: a swap that waits takes effect in the same cycle (R205 to
R207). -/
def Pair.filled (w : Pair) (void : Bool) : Pair :=
  let w := { w with full := true, void := void }
  if w.req ∧ ¬w.held then w.swap else w

/-- Change a buffer pair of a press. -/
def State.modPair (s : State) (p i : Nat) (f : Pair → Pair) : State :=
  s.modPress p (fun x => { x with pairs := tset {} x.pairs i (f (tget ({} : Pair) x.pairs i)) })

/-- A cancelled vfill leaves its pair full and void, and the swap proceeds (R207). -/
def State.voidFill (s : State) (d : Desc) : State :=
  if d.vfill then s.modPair (bits d.dst.toNat 55 52) (bits d.opArg.toNat 5 0) (·.filled true) else s

/-- A completion record goes to its producer's ring (R208). -/
def State.ringRecord (s : State) (e q : Nat) (x : QDesc) (st : Status) : State :=
  { s with rings := s.rings ++ [(s.producerOf e q, ⟨x.d.tag, st, x.d.op, e, q, x.doneN⟩)] }

/-- The end of a descriptor that did not end ST_OK: a completion record and a crier record (R208). -/
def State.porterRecord (s : State) (e q : Nat) (x : QDesc) (st : Status) : State :=
  (s.ringRecord e q x st).raise (engineSource e)
    { seq := 0, source := 0, status := st, event := 0x0020, stall := if x.d.sys then none else some x.d.stall,
      stream := if x.d.sys then none else some x.d.stream, unit := if e < 16 then e else q, arg := x.d.tag }

/-- Cancel one descriptor (R199): it leaves its queue, its issued transfers complete into discard. -/
def State.cancelDesc (s : State) (e q : Nat) (x : QDesc) : State :=
  let s := s.modEngine e (fun g =>
    let p := tget ({} : PQueue) g.queues q
    { g with cancel := g.cancel + 1, halts := if x.halted then g.halts - 1 else g.halts,
             issued := g.issued.map (fun t => if t.queue = q ∧ t.desc = x.id then { t with discard := true } else t),
             queues := tset {} g.queues q { p with descs := p.descs.filter (fun y => decide (y.id ≠ x.id)) } })
  (s.voidFill x.d).porterRecord e q x .stallTorn

/-- Cancel every queued descriptor of every engine that `sel` picks. -/
def State.cancelWhere (s : State) (sel : Desc → Bool) : State :=
  forEach (fun s e =>
    forEach (fun s (p : Nat × PQueue) =>
      forEach (fun s (x : QDesc) => if sel x.d then s.cancelDesc e p.1 x else s) p.2.descs s)
      (s.engine e).queues s)
    (List.range Config.nEngines) s

/-- Cancel the descriptors of one stream. -/
def State.cancelStream (s : State) (n : Nat) : State :=
  s.cancelWhere (fun d => !d.sys && decide (d.stream = n))

/-- Release a stream's porter floor reservation (R248). -/
def State.dropFloor (s : State) (n : Nat) : State :=
  s.modEngine (20 + n % 4) (fun g => { g with floors := g.floors.filter (fun m => decide (m ≠ n)) })

/-! ## Tokens (R100) -/

/-- Change the tokens that `sel` picks, in every stage and every row. -/
def State.modTokens (s : State) (sel : Tok → Bool) (f : Tok → Tok) : State :=
  let v := fun (t : Tok) => if sel t then f t else t
  { s with stages := s.stages.map (fun p => (p.1, { p.2 with recto := p.2.recto.map v, verso := p.2.verso.map v, back := p.2.back.map v })),
           rows := s.rows.map (fun p => (p.1, { p.2 with issue := p.2.issue.map v })) }

/-- Set void on tokens: a teardown does, and a row fault on those of its row (R100). -/
def State.voidTokens (s : State) (sel : Tok → Bool) : State := s.modTokens sel (fun t => { t with void := true })

/-- A row fault voids every token on its row (R100). -/
def State.voidRow (s : State) (r : Nat) : State :=
  let v := fun (l : List Tok) => l.map (fun t => { t with void := true })
  { s with stages := s.stages.map (fun p => if p.2.row = some r then
             (p.1, { p.2 with recto := v p.2.recto, verso := v p.2.verso, back := v p.2.back }) else p),
           rows := s.rows.map (fun p => if p.1 = r then (p.1, { p.2 with issue := v p.2.issue }) else p) }

/-- The tokens of a stream that has left its row by a fault of its own: their void bit stays 0 (R100), and they pass on
without state or samples, since the stream holds neither pitch nor buffers any more (R76). (DEDUCED, log 118) -/
def State.goneTokens (s : State) (n : Nat) : State :=
  s.modTokens (fun t => decide (t.stream = n)) (fun t => { t with gone := true })

/-! ## Abandoning, stopping, freeing, faulting a stream -/

/-- What becomes of a stream's unsent samples when it stops (R65, R78). -/
inductive EgrAct where
  | drop | final (count : Nat) | cut
  deriving DecidableEq, Repr

/-- Streams bound to a row (R42). -/
def State.boundCount (s : State) (r : Nat) : Nat :=
  (s.streams.filter (fun p => decide (p.2.st ≠ .free) && decide (p.2.row = some r))).length

/-- The row R42 binds to among `rows`: the fewest bound streams, ties to the lowest row. (DEDUCED, log 30) -/
def State.pickRow (s : State) : List Nat → Option Nat
  | [] => none
  | r :: rs =>
    match s.pickRow rs with
    | none => some r
    | some q => if s.boundCount r ≤ s.boundCount q then some r else some q

/-- The rows of a voice's mask. -/
def Voice.rows (v : Voice) : List Nat := (List.range Config.nRows).filter (fun r => v.mask.getLsbD r)

/-- The rows a stream may bind to: those of its voice's mask, and for a journal-replayed stream those of them that run in
barrier mode (R42, R358). -/
def State.bindRows (s : State) (x : Stream) : List Nat :=
  (s.voice x.voice).rows.filter (fun r => !(x.barrier && (s.row r).cfg.overlap))

/-- Bind again the streams that may move now: not staged, not RESIDENT or DRAINING, whose row is none or no longer
hosts their voice (R42). (DEDUCED, log 30) -/
def State.rebind (s : State) (n : Nat) : State :=
  let x := s.stream n
  let rows := s.bindRows x
  let hosted : Bool := match x.row with | some r => rows.contains r | none => false
  if x.st = .free ∨ x.holdsPitch ∨ hosted then s
  else s.modStream n (fun x => { x with row := s.pickRow rows })

/-- A row that a voice's mask has dropped releases the voice's hot part once no stream of the voice is staged, RESIDENT or
DRAINING on it (R41). -/
def State.releaseHot (s : State) (r v : Nat) : State :=
  let busy := s.streams.any (fun p => p.2.holdsPitch && decide (p.2.voice = v) && decide (p.2.row = some r))
  if (s.voice v).mask.getLsbD r || busy then s else s.modRow r (fun w => { w with cache := tdel w.cache v })

/-- A stream that was `x` has left its row: the row may release the voice's hot part, and the stream is bound again where
its row hosts its voice no longer (R41, R42). -/
def State.leftRow (s : State) (n : Nat) (x : Stream) : State :=
  let s := match x.row with
    | some r => s.releaseHot r x.voice
    | none => s
  s.rebind n

/-- Abandon a staging (R47): the pitch, both floor reservations and the staging place return; the stream stays where
it is and holds nothing. -/
def State.abandon (s : State) (n : Nat) : State :=
  let x := s.stream n
  if x.staged then
    let s := if x.copyIn = .done ∧ x.readyAt.isNone then s.takeBar (16 + n % 4) (x.row.getD 0) 1 else s
    let s := (s.cancelStream n).givePitch n
    let s := s.dropFloor n
    let s := s.modEgr n (fun e => { e with floorRsv := e.bufs.any (·.floor) })
    let s := match x.row with
      | some r => s.modRow r (fun w => { w with staged := w.staged - 1 })
      | none => s
    let s := s.modStream n (fun x => { x with staged := false, pitch := 0, readyAt := none, copyIn := .none })
    s.leftRow n x
  else s

/-- A park write of the stream that is still under way will be discarded, its record saying `st` (R67, R405). -/
def State.discardPark (s : State) (n : Nat) (st : Status) : State :=
  s.modPark n (fun p => if p.writing ∧ p.discard.isNone then { p with discard := some st } else p)

/-- The rate of an L16 rate code in Hz (Table 12.5, Table 2.3). -/
def rateHz (c : Nat) : Nat := [8000, 16000, 24000, 48000].getD c 48000

/-- The rate of the samples a packet carries: G.711 is 8 kHz (R276). -/
def Egress.netRate (e : Egress) : Nat := if e.codec = 2 then rateHz e.rate else 8000

/-- P and Q: the two rates in lowest terms (R280). -/
def ratio (rOut rVoice : Nat) : Nat × Nat :=
  let g := Nat.gcd rOut rVoice
  (rOut / max 1 g, rVoice / max 1 g)

/-- Voice-rate samples of one packet, n_v (R277). -/
def Egress.nv (e : Egress) : Nat := e.ptime * e.rVoice / 1000

/-- The positions of complete packets when samples up to `c` exist and no more will (R277, R280), for the cut of R78. (DEDUCED, log 74) -/
def packetFloor (e : Egress) (c : Nat) : Nat :=
  let r := ratio e.netRate e.rVoice
  if e.nv = 0 then 0
  else if r.1 = r.2 then c / e.nv * e.nv
  else (r.1 * (c - 1) + r.2 - 24 * max r.1 r.2) / (e.nv * max 1 r.1) * e.nv

/-- The position that a serial audio slot of `hz` frames in a second has released once it has played every output that samples up
to `c` make (R280, R380), for the cut of R78. (DEDUCED, log 119) -/
def slotFloor (e : Egress) (hz c : Nat) : Nat :=
  let r := ratio hz e.rVoice
  if r.1 = r.2 then c
  else (r.1 * (c - 1) + r.2 - 24 * max r.1 r.2) / max 1 r.2 * r.2 / max 1 r.1

/-- Up to where an entry's samples still leave after a row fault or a retirement of its DRAINING stream, whose quires end at `c`:
complete packets, and a slot's every output (R78). -/
def State.cutAt (s : State) (e : Egress) (c : Nat) : Nat :=
  if e.kind = 1 then slotFloor e (s.sap (e.index / 128)).rate c else packetFloor e c

/-- Apply what becomes of the unsent samples. Samples at or past `c`, of a quire that never completed, are never sent. The
complete ones of a DRAINING stream that a row fault stops still leave, also on a serial audio slot, which then plays silence
(R78, R380). (DEDUCED, logs 74, 119) -/
def State.egrStop (s : State) (n : Nat) (act : EgrAct) : State :=
  match act with
  | .drop => s.dropEgress n
  | .final c => if (s.egr n).kind = 3 then s.dropEgress n else s.modEgr n (fun e => { e with final := some c })
  | .cut =>
    let e := s.egr n
    if e.kind = 3 ∨ s.cutAt e (s.stream n).samples ≤ e.lastSent then s.dropEgress n
    else s.putEgr n { e with cutTo := some (s.cutAt e (s.stream n).samples) }

/-- The signals of a stopped stream's slices go with it, unless the WAIT of its write-out has taken them (R204). (DESIGN CHOICE, log
58) -/
def State.dropBacks (s : State) (n : Nat) : State :=
  let x := s.stream n
  let e := 20 + n % 4
  let waits := (s.engine e).queues.any (fun p => p.2.descs.any (fun y => !y.d.sys && decide (y.d.op = 4 ∧ y.d.stream = n)))
  match x.quire with
  | some q => if 0 < q.backs ∧ (x.st = .resident ∨ waits) then s.takeBar e (x.row.getD 0) q.backs else s
  | none => s

/-- Return everything a stream holds (Table 3.9 for one stream): staging, pitch, chunks, copies, park write. A page-in
under way goes on (R213). (DEDUCED, log 44) -/
def State.stopStream (s : State) (n : Nat) (act : EgrAct) (parkSt : Status) : State :=
  let s := s.abandon n
  let x := s.stream n
  let s := if x.st = .resident ∨ x.st = .draining then
      let s := (((s.dropBacks n).cancelStream n).givePitch n).dropFloor n
      let s := match x.row with
        | some r => s.modRow r (fun w => { w with resident := w.resident - 1 })
        | none => s
      s.goneTokens n
    else s.cancelStream n
  let s := s.releaseChunks n x.chunks
  let s := match x.fetch with
    | some f => (s.giveBufs f.bufs).modStall x.stall (fun t => { t with held := t.held - bufCount f.bufs })
    | none => s
  let s := (s.discardPark n parkSt).egrStop n act
  s.modStream n (fun y => { y with
    pitch := 0, chunks := [], pendFrames := 0, quire := none, copyIn := .none, copyOut := .none,
    fetch := x.fetch.map (fun f => { f with bufs := [] }),
    undef := y.undef || decide (x.st = .draining), exportReq := false, exportMove := false })

/-- The balances of a stall as a crier extension (Table 13.7). -/
def stallExt (t : Stall) : List Nat := [t.tally, t.held, t.pitches, t.egress, t.porter, t.opened]

/-- A voice's hot part leaves every row's adapter cache. -/
def State.dropHot (s : State) (v : Nat) : State :=
  { s with rows := s.rows.map (fun p => (p.1, { p.2 with cache := tdel p.2.cache v })) }

/-- Unload a voice: its image and every hot part are freed (R321, Table 3.7). -/
def State.dropVoice (s : State) (v : Nat) : State := (s.dropHot v).putVoice v {}

/-- The voices of a stall. -/
def State.stallVoices (s : State) (k : Nat) : List Nat :=
  (s.voices.filter (fun p => p.2.loaded && decide (p.2.stall = k))).map Prod.fst

/-- A QUIESCING stall whose last stream is FREE and whose held counts are all zero becomes FREE (Table 3.7). (DEDUCED, log 69;
DESIGN CHOICE, log 164) -/
def State.settleStall (s : State) (k : Nat) : State :=
  let t := s.stall k
  if t.st = .quiescing ∧ t.opened = 0 ∧ t.held = 0 ∧ t.pitches = 0 ∧ t.egress = 0 ∧ t.porter = 0 then
    let s := forEach State.dropVoice (s.stallVoices k) s
    let s := s.raise 0 { seq := 0, source := 0, status := .ok, event := 0x0011, stall := some k,
                         arg := BitVec.ofNat 64 t.ended, ext := stallExt t }
    s.putStall k {}
  else s

/-- The arg of STREAM_FREED: final sample_count and pending marks discarded (R65, Table 13.7). (DESIGN CHOICE, log 55) -/
def freedArg (samples marks : Nat) : BitVec 64 := BitVec.ofNat 64 (samples % 2 ^ 48 + 2 ^ 48 * (marks % 256))

/-- A park record is freed: its pages in flash go; its generation and what is still under way stay (Table 17.6). -/
def State.freePark (s : State) (n : Nat) : State :=
  (s.flashFree n).modPark n (fun p => { gen := p.gen, gone := p.gone, copied := p.copied, reading := p.reading, fetched := p.fetched })

/-- What stays of a stream that reaches FREE: its entry holds the reset values, and a fetch of its pages that is under way
goes on (R51, R213). (DEDUCED, log 44) -/
def Stream.freed (x : Stream) : Stream :=
  if x.fetch.isNone then {} else { fetch := x.fetch.map (fun f => { f with bufs := [] }), res := x.res }

/-- Take a stream to FREE: its entry returns to the reset values in this step (R51), its record is raised (R65) and a
QUIESCING stall may settle. (DEDUCED, log 44; DESIGN CHOICE, log 55) -/
def State.freeStream (s : State) (n : Nat) (st : Status) (marks : Nat) (record : Bool) (act : EgrAct) : State :=
  let x := s.stream n
  let s := s.stopStream n act .stateConflict
  let s := if record then
      s.raise (entrySource n) { seq := 0, source := 0, status := st, event := 0x0001, stall := some x.stall,
                                stream := some n, unit := n / 4, arg := freedArg x.samples marks }
    else s
  let s := s.modStall x.stall (fun t => { t with opened := t.opened - 1, ended := t.ended + 1 })
  let s := if (s.park n).writing ∨ (s.park n).st = .orphan then s else s.freePark n
  let s := { s with journals := tdel s.journals n }
  let s := ((s.putStream n x.freed).leftRow n x).closeEgress n
  s.settleStall x.stall

/-- A stream fault (R76, Table 3.4): FAULTED with its status, or FREE when end_req = 1, its resources returned; `act` says
what becomes of its samples, `source` and `unit` who has detected it (Table 13.5). -/
def State.faultWith (s : State) (act : EgrAct) (n : Nat) (st : Status) (source unit : Nat) : State :=
  let x := s.stream n
  if x.st = .free ∨ x.st = .faulted then s
  else
    let s := s.modStall x.stall (fun t => { t with faults := t.faults + 1 })
    let s := s.modClerk (fun k => { k with streamFaults := k.streamFaults + 1 })
    if x.endReq then
      let s := s.freeStream n st (x.marks.length + x.dropped) true .drop
      s.answerOwed x st (stateBody .free)
    else
      let s := s.stopStream n act .stateConflict
      let s := s.modStream n (fun y => { y with st := .faulted, status := st, deferPause := [], deferExport := none, cancelled := none })
      let s := s.leftRow n x
      let s := s.raise source { seq := 0, source := 0, status := st, event := 0x0002, stall := some x.stall,
                                stream := some n, unit := unit, arg := BitVec.ofNat 64 x.samples }
      s.answerOwed x st (stateBody .faulted)

/-- A fault of the stream alone: its samples are discarded as a teardown would (R76). (DEDUCED, logs 43, 44) -/
def State.faultStream (s : State) (n : Nat) (st : Status) (source unit : Nat) : State := s.faultWith .drop n st source unit

/-- A fault of the stream's row, found on press `p`: the complete samples of a DRAINING stream are still sent (R78). -/
def State.faultOfRow (p : Nat) (s : State) (n : Nat) : State :=
  s.faultWith (if (s.stream n).st = .draining then .cut else .drop) n .dataError 0 p

/-- The streams of a stall outside FREE. -/
def State.stallStreams (s : State) (k : Nat) : List Nat :=
  (s.streams.filter (fun p => decide (p.2.st ≠ .free) && decide (p.2.stall = k))).map Prod.fst

/-- The streams RESIDENT or DRAINING on a row. -/
def State.rowRunning (s : State) (r : Nat) : List Nat :=
  (s.streams.filter (fun p => (decide (p.2.st = .resident) || decide (p.2.st = .draining)) && decide (p.2.row = some r))).map Prod.fst

/-- The streams staged on a row. -/
def State.rowStaged (s : State) (r : Nat) : List Nat :=
  (s.streams.filter (fun p => p.2.staged && decide (p.2.row = some r))).map Prod.fst

/-- One stream of a stall that is torn: everything it holds returns, and it enters FAULTED with ST_STALL_TORN, which the
stall's entry counts (R77, Table 3.2). -/
def State.tearStream (s : State) (n : Nat) : State :=
  let x := s.stream n
  let s := if x.st = .faulted then s.dropEgress n
    else (s.stopStream n .drop .stallTorn).modStall x.stall (fun t => { t with faults := t.faults + 1 })
  let s := s.modStream n (fun y => { y with
    st := .faulted, status := .stallTorn, deferPause := [], deferExport := none, cancelled := none })
  s.answerOwed x .stallTorn (stateBody .faulted)

/-- Issued transfers that carry stall `k` (Table 11.3). (DEDUCED, log 69) -/
def State.porterUnits (s : State) (k : Nat) : Nat :=
  ((List.range Config.nEngines).map (fun e => ((s.engine e).issued.filter (fun x => !x.sys && decide (x.stall = k))).length)).sum

/-- The barrier counters assigned to stall `k` return to 0, before they are assigned again (R204). -/
def State.clearBars (s : State) (k : Nat) : State :=
  { s with engines := s.engines.map (fun p =>
      let mine := fun (b : Nat) => decide (tget 0 p.2.barOwner b = 1 + k)
      (p.1, { p.2 with bars := p.2.bars.filter (fun c => !mine c.1), barOwner := p.2.barOwner.filter (fun c => decide (c.2 ≠ 1 + k)) })) }

/-- A stall fault tears the stall (R77, Table 3.8): its credits are withdrawn, its tokens voided, its descriptors
cancelled, its streams FAULTED, its adapter images and hot parts freed. TEARDOWN_COMPLETE reports the balances. (DEDUCED, log 69) -/
def State.tearStall (s : State) (k : Nat) (st : Status) : State :=
  let t := s.stall k
  if t.st = .open_ ∨ t.st = .quiescing then
    let s := s.modClerk (fun c => { c with feedGrant := c.feedGrant - t.tally, stallTears := c.stallTears + 1 })
    let s := s.modStall k (fun t => { t with st := .torn, tear := st, tally := 0, tearing := true })
    let s := s.voidTokens (fun t => decide (t.stall = k))
    let s := (s.cancelWhere (fun d => !d.sys && decide (d.stall = k))).clearBars k
    let s := forEach State.tearStream (s.stallStreams k) s
    let s := forEach (fun s n => (s.dropEgress n).closeEgress n) (tkeys (s.egress.filter (fun p => decide (p.2.stall = k)))) s
    let s := s.modStall k (fun t => { t with held := 0, pitches := 0, egress := 0, porter := s.porterUnits k })
    forEach (fun s v => (s.dropHot v).modVoice v (fun v => { v with inRegion := false })) (s.stallVoices k) s
  else s

/-! ## Module failure (R217, R348) -/

/-- Discard every egress sample of the module. A stream whose quire is still to be written keeps its egress floor (R248). -/
def State.dropAllEgress (s : State) : State :=
  forEach (fun s n => s.discardEgress n (s.stream n).quireAhead) (tkeys s.egress) s

/-- The frame leaves a module that has failed: the answer to an OPEN that refuses it, or no VCT message at all (R348). -/
def Sent.afterFailure : Sent → Bool
  | .ackTo _ _ _ refused => refused
  | .reply _ _ _ _ _ => true
  | .queued _ _ _ _ _ x => x.afterFailure
  | _ => false

/-- Of the VCT frames held for the ports nothing but refusals of an OPEN stays (R348). -/
def State.dropFrames (s : State) : State :=
  forEach (fun s p => s.modNet p (fun t => { t with held := t.held.filter Sent.afterFailure })) (tkeys s.nets) s

/-- The running image is on probation (R337). -/
def State.onProbation (s : State) : Bool := decide (s.flash.probation = some s.fw.running)

/-- Probation that ends in a module failure or a reset: the next boot uses the previous image (R337, R463). -/
def State.failProbation (s : State) : State :=
  if s.onProbation then
    s.modFlash (fun f => { f with probation := none, fallback := (f.slots.getD s.fw.running none).map (·.hash) })
  else s

/-- A module failure: no quire is admitted, RTP and heartbeats stop, FAULT_N is asserted, egress samples are discarded,
and one MODULE_FAILED record carries the cause (R217, R348, R449). -/
def State.failModule (s : State) (cause : Nat) : State :=
  if s.clerk.failed.isSome then s
  else
    let s := s.raise 0 { seq := 0, source := 0, status := .dataError, event := 0x00F0, arg := BitVec.ofNat 64 cause }
    let s := if cause = 2 then s else s.audit 8 0 (BitVec.ofNat 8 cause) 0 none none 0 (leBytes 8 cause)
    let s := s.modClerk (fun k => { k with failed := some cause, moduleFailures := k.moduleFailures + 1 })
    (s.dropAllEgress.dropFrames.modPower (fun p => { p with faultN := false })).failProbation

/-! ## GDDR7: granules, ECC blocks, poison (R218 to R222, R236) -/

/-- The space of an address word. -/
def spaceOf (w : Nat) : Nat := bits w 51 48
/-- The unit of an address word. -/
def unitOf (w : Nat) : Nat := bits w 55 52
/-- The byte address of an address word. -/
def byteOf (w : Nat) : Nat := bits w 47 0

/-- The multipliers U of R221. -/
def hashUnits : List Nat := [1, 5, 7, 11, 13, 17, 19, 23, 25, 29, 31, 35, 37, 41, 43, 47]

/-- Channel and slot of granule `g` (R221). -/
def granuleAt (key : BitVec 128) (g : Nat) : Nat × Nat :=
  let j := g / 48
  let v := (siphash24 key j).toNat
  ((g % 48 * hashUnits.getD (bits v 35 32) 1 + bits v 31 0 % 48) % 48, j)

/-- The granule of space 0 at a channel and slot; none in the firmware reserve (R221). -/
def granuleOf (key : BitVec 128) (ch slot : Nat) : Option Nat :=
  ((List.range 48).map (48 * slot + ·)).find? (fun g => decide (g < 369098752) && decide ((granuleAt key g).1 = ch))

/-- The ECC block of a slot, and the slot's position 0 to 14 in it (R218, R222). -/
def eccPlace (slot : Nat) : Nat × Nat := (slot / 15, slot % 15)

/-- The byte of its device at which a slot's granule begins (R218). -/
def deviceByte (slot : Nat) : Nat := (eccPlace slot).1 * 8192 + (eccPlace slot).2 * 512

/-- The byte of its device at which a slot's 32 check bytes begin, in the block's last granule (R218). The order of the
check bytes in the check granule is not stated. (DESIGN CHOICE, log 120) -/
def checkByte (slot : Nat) : Nat := (eccPlace slot).1 * 8192 + 15 * 512 + 32 * (eccPlace slot).2

/-- The bank and bank group of an ECC block (R222): the block number exclusive-ored with bits of siphash24 over the channel
and block numbers; which bits is not stated. (DESIGN CHOICE, log 120) -/
def bankOf (key : BitVec 128) (ch block : Nat) : BitVec 64 :=
  BitVec.ofNat 64 block ^^^ Config.bankBits (siphash24 key (ch * 2 ^ 32 + block))

/-- The granules of space 0 that a run of bytes touches, each with whether it covers the whole granule. -/
def granulesOf (a len : Nat) : List (Nat × Bool) :=
  if len = 0 then []
  else (List.range ((a + len - 1) / 512 - a / 512 + 1)).map (fun i =>
    let g := a / 512 + i
    (g, decide (a ≤ 512 * g ∧ 512 * (g + 1) ≤ a + len)))

/-- A channel finds slot `j` uncorrectable at time `now`: it is poisoned, counted and flagged, and 64 within one second
fail the channel (R217, R236). -/
def Channel.hitUe (x : Channel) (now j : Nat) : Channel :=
  let times := now :: (x.ueTimes.filter (fun t => decide (now - t < Config.ctPerSecond))).take 63
  { x with ue := x.ue + 1, ueSeen := true, ueTimes := times, poison := insertNat x.poison j,
           failed := x.failed || decide (64 ≤ times.length) }

/-- Slots of 3.5556 ns that have passed since training completed: 15 for every 28 CTCLK cycles (R216). (DEDUCED, log 96) -/
def Channel.slots (c : Channel) (now : Nat) : Nat := c.slots0 + if c.trained then (now - c.trainedAt) * 15 / 28 else 0

/-- A whole granule read; a poisoned one is uncorrectable again (R236). -/
def Channel.readAt (x : Channel) (now j : Nat) : Channel :=
  let y := { x with rd := x.rd + 1 }
  if x.poison.contains j then y.hitUe now j else y

/-- A granule written: whole, which clears its poison, or in part, which a poisoned one does not take (Table 10.3, R236).
(DEDUCED, log 64) -/
def Channel.writeAt (x : Channel) (now j : Nat) (whole : Bool) : Channel :=
  if whole then { x with wr := x.wr + 1, poison := x.poison.filter (· ≠ j) }
  else
    let y := { x with rmw := x.rmw + 1 }
    if x.poison.contains j then y.hitUe now j else y

/-- A channel that has failed since `old` makes the module fail (R217). -/
def State.checkChannels (s : State) (old : Tbl Channel) : State :=
  if (List.range 48).any (fun c => (s.channel c).failed && !(tget ({} : Channel) old c).failed) then s.failModule 1 else s

/-- A per-die reset of the die of engine `e` runs: its transfers wait (R424). -/
def State.dieInReset (s : State) (e : Nat) : Bool := s.power.dieWait.contains (e, true)

/-- The granules of a run of space-0 bytes whose memory-edge die is in reset: an access to them waits (R422, R424). -/
def State.stoppedGranules (s : State) (a len : Nat) : List Nat :=
  if s.power.dieWait = [] then []
  else ((granulesOf a len).map Prod.fst).filter (fun g => s.dieInReset (20 + (granuleAt s.sec.hashKey g).1 / 12))

/-- Change the channels that hold a run of space-0 bytes, but for the granules `not`. -/
def State.onGranules (s : State) (a len : Nat) (not_ : List Nat) (f : Channel → Nat → Bool → Channel) : State :=
  let cs := ((granulesOf a len).filter (fun g => !not_.contains g.1)).foldl (fun cs g =>
    let (c, j) := granuleAt s.sec.hashKey g.1
    tset {} cs c (f (tget {} cs c) j g.2)) s.channels
  ({ s with channels := cs }).checkChannels s.channels

/-- What of a run of space-0 bytes lies in granule `g`, as a move that waits: a write of `bs` and 0 behind them, or a read. -/
def heldPart (a len : Nat) (bs : Option (List Byte)) (g : Nat) : HeldMove :=
  let lo := max a (512 * g)
  let n := min (a + len) (512 * g + 512) - lo
  { addr := lo, len := n, bytes := bs.map (fun b => (b.drop (lo - a)).take n) }

/-- The granule at a key is poisoned. -/
def State.poisoned (s : State) (key : Nat) : Bool :=
  if spaceOf key = 0 then
    let (c, j) := granuleAt s.sec.hashKey (byteOf key / 512)
    (s.channel c).poison.contains j
  else false

/-- Some granule of a run of space-0 bytes is poisoned. -/
def State.anyPoison (s : State) (a len : Nat) : Bool :=
  decide (s.channels.any (fun p => !p.2.poison.isEmpty)) && (granulesOf a len).any (fun g => s.poisoned (512 * g.1))

/-- What lies at a space-0 byte address (Tables 10.1, 10.5). -/
inductive Region where
  | folio (n : Nat)
  | base (b : Nat)
  | adapter (v : Nat)
  | journal (n : Nat)
  | unused
  deriving DecidableEq, Repr

/-- The region of a space-0 byte. -/
def State.regionAt (s : State) (a : Nat) : Region :=
  if a < Config.weightBase then .folio (a / Config.folioBytes)
  else if Config.journalBase ≤ a then .journal ((a - Config.journalBase) / Config.journalSlot)
  else match s.bases.find? (fun p => p.2.used && decide (p.2.addr ≤ a ∧ a < p.2.addr + p.2.bytes)) with
    | some p => .base p.1
    | none => match s.voices.find? (fun p => p.2.inRegion && decide (p.2.addr ≤ a ∧ a < p.2.addr + p.2.bytes)) with
      | some p => .adapter p.1
      | none => .unused

/-- The stall and the stream that an error at a byte of space 0 affects (R238): the stream of a folio outside FREE with its stall,
a journal's stream, an adapter image's stall. -/
def State.affected (s : State) (a : Nat) : Option Nat × Option Nat :=
  match s.regionAt a with
  | .folio n => (if (s.stream n).st = .free then none else some (s.stream n).stall, some n)
  | .journal n => (none, some n)
  | .adapter v => (some (s.voice v).stall, none)
  | _ => (none, none)

/-- The MEM_UE record of R238: the source is the die that found the error. -/
def State.memRecord (s : State) (src unit : Nat) (at_ : Nat) (stall stream : Option Nat) : State :=
  s.raise src { seq := 0, source := 0, status := .dataError, event := 0x0030, stall := stall, stream := stream, unit := unit,
                arg := BitVec.ofNat 64 at_ }

/-- A channel returns an uncorrectable granule: poison, counts, the flag, and failure at 64 within one second (R217, R236). -/
def State.channelUe (s : State) (c slot : Nat) : State :=
  let old := s.channels
  (s.modChannel c (fun x => x.hitUe s.now slot)).checkChannels old

/-- The MEM_UE records of the granules `gs` that a run of space-0 bytes met (R238). (DEDUCED, log 121) -/
def State.granuleRecords (s : State) (gs : List Nat) (whose : Nat → Option Nat × Option Nat) : State :=
  forEach (fun s g =>
    let (c, j) := granuleAt s.sec.hashKey g
    s.memRecord (5 + c / 12) (c % 12) j (whose g).1 (whose g).2) gs s

/-- Palhani and the hardware read a run of space-0 bytes: counted on its channels (Table 10.3), each uncorrectable granule
with its record (R238). No byte of a poisoned granule is delivered (R236): the callers ask `anyPoison` first. A granule of a die
in reset is read when the die is back (R424). (DEDUCED, log 121) -/
def State.readSpan (s : State) (a len : Nat) (stall stream : Option Nat) : State :=
  let held := s.stoppedGranules a len
  let bad := if s.anyPoison a len then
      ((granulesOf a len).map Prod.fst).filter (fun g => s.poisoned (512 * g) && !held.contains g)
    else []
  let s := s.granuleRecords bad (fun _ => (stall, stream))
  ({ s with heldMoves := s.heldMoves ++ held.map (heldPart a len none) }).onGranules a len held (fun x j _ => x.readAt s.now j)

/-- The granules that a write of `len` bytes at `a` may not change: poisoned ones it covers in part (R236). -/
def State.closedGranules (s : State) (a len : Nat) : List Nat :=
  if s.channels.any (fun p => !p.2.poison.isEmpty) then
    ((granulesOf a len).filter (fun g => !g.2 && s.poisoned (512 * g.1))).map Prod.fst
  else []

/-- Palhani and the hardware write a run of `len` space-0 bytes, 0 but for those of `bs` at its start: the bytes land, counted on
their channels, and a whole granule clears its poison (Table 10.3, R236). A poisoned granule that the run covers in part is
uncorrectable again, with its record (R238); one of a die in reset is written when the die is back (R424). (DEDUCED, logs
64, 121) -/
def State.bulkInit (s : State) (a len : Nat) (bs : List Byte) : State :=
  let held := s.stoppedGranules a len
  let shut := (s.closedGranules a len).filter (fun g => !held.contains g)
  let s := s.granuleRecords shut (fun g => s.affected (512 * g))
  let kept := (shut ++ held).map (fun g => (512 * g, mread s.mem (512 * g) 512))
  let m := kept.foldl (fun m p => mwrite m p.1 p.2) (mwrite (mclear s.mem a len) a bs)
  ({ s with mem := m, heldMoves := s.heldMoves ++ held.map (heldPart a len (some bs)) }).onGranules a len held
    (fun x j whole => x.writeAt s.now j whole)

/-- A write of a run of space-0 bytes. (DEDUCED, logs 64, 121) -/
def State.bulkWrite (s : State) (a : Nat) (bs : List Byte) : State := s.bulkInit a bs.length bs

/-- The moves that waited for a die which is back take place, in their order; one that still waits goes on waiting (R424).
(DESIGN CHOICE, log 147) -/
def State.landHeld (s : State) : State :=
  forEach (fun s m => match m.bytes with
    | some bs => s.bulkInit m.addr m.len bs
    | none => s.readSpan m.addr m.len (s.affected m.addr).1 (s.affected m.addr).2) s.heldMoves { s with heldMoves := [] }

/-- Bytes that Palhani or a core has a porter of engine `e` move within the step, as class `c`, to or from a run of space-0
bytes: the transfers and their bytes are counted (R186, R215). Their slots are back with the step. (DESIGN CHOICE, log 147) -/
def State.countMove (s : State) (e c a len : Nat) : State :=
  s.modEngine e (fun g => { g with xfers := g.xfers + BitVec.ofNat 48 (granulesOf a len).length,
                                   bytes := tset 0 g.bytes c (tget 0 g.bytes c + BitVec.ofNat 48 len) })

/-! ## The gate tree (R411 to R413) -/

/-- The presses of a row's configuration. -/
def RowCfg.pressList (c : RowCfg) : List Nat := (List.range c.presses).map (c.first + ·)

/-- The row, not ABSENT, that press `p` belongs to. A row under reconfiguration owns its old and its new presses. -/
def State.pressRow (s : State) (p : Nat) : Option Nat :=
  (List.range Config.nRows).find? (fun r =>
    let w := s.row r
    decide (w.st ≠ .absent) &&
      (w.cfg.pressList.contains p || match w.newCfg with | some c => c.pressList.contains p | none => false))

/-- The 16 unit nodes of press `p` (Table 18.2). -/
def unitNodes (p : Nat) : List Nat := (List.range 16).map (16 + 16 * p + ·)

/-- A gate-tree node is in use (Table 18.2). -/
def State.nodeUsed (s : State) (n : Nat) : Bool :=
  if n < 16 then
    (unitNodes n).any s.clk.on.contains || (s.pressRow n).isSome || !(s.engine n).issued.isEmpty
  else s.clk.used.contains n

/-- Turn nodes on, each with its parent. -/
def Clk.turnOn (c : Clk) (ns : List Nat) : Clk :=
  { c with on := (ns ++ (ns.filter (16 ≤ ·)).map (fun n => (n - 16) / 16)).foldl insertNat c.on,
           offWait := c.offWait.filter (fun n => !ns.contains n) }

/-- Turn nodes off. -/
def Clk.turnOff (c : Clk) (ns : List Nat) : Clk := { c with on := c.on.filter (fun n => !ns.contains n) }

/-- A request to turn off a node that is in use: it stays on, and the refusal is reported (R412). (DESIGN CHOICE, log 159) -/
def Clk.refuseOff (c : Clk) (n : Nat) : Clk := { c with refusedSeen := true, lastNode := n, refused := c.refused + 1 }

/-- Every node of the presses of a row's configuration, those of units first. -/
def RowCfg.nodes (c : RowCfg) : List Nat := c.pressList.flatMap unitNodes ++ c.pressList

/-- Palhani turns nodes off, one after the other; one in use stays on, and it asks again for a press whose engine still holds
a transfer when that has ended (R412, R413). (DESIGN CHOICE, log 159) -/
def State.gateOff (s : State) (ns : List Nat) : State :=
  forEach (fun s n =>
    if ¬s.clk.on.contains n then s
    else if s.nodeUsed n then s.modClk (fun c => { c.refuseOff n with offWait := if n < 16 then insertNat c.offWait n else c.offWait })
    else s.modClk (fun c => c.turnOff [n])) ns s

/-- A press that waits to be turned off is asked for once more, now that its engine may hold no transfer. (DESIGN CHOICE, log
159) -/
def State.gateAgain (s : State) (p : Nat) : State :=
  if s.clk.offWait.contains p ∧ (s.engine p).issued = [] then
    (s.modClk (fun c => { c with offWait := c.offWait.filter (fun n => decide (n ≠ p)) })).gateOff [p]
  else s

/-! ## Rows -/

/-- Some row names base `b` (R27). -/
def State.baseNamed (s : State) (b : Nat) : Bool :=
  (List.range Config.nRows).any (fun r =>
    let w := s.row r
    (decide (w.st ≠ .absent) && decide (w.cfg.base = some b)) ||
      (match w.newCfg with | some c => decide (c.base = some b) | none => false))

/-- Free the bases no row names any more (R27). -/
def State.freeBases (s : State) : State :=
  forEach (fun s b => if s.baseNamed b then s else s.putBase b {}) (tkeys s.bases) s

/-- Every voice that `sel` picks drops row `r` from its mask (R49). -/
def State.maskDrop (s : State) (r : Nat) (sel : Voice → Bool) : State :=
  { s with voices := s.voices.map (fun p =>
      if sel p.2 then (p.1, { p.2 with mask := p.2.mask &&& ~~~(1 <<< r : BitVec 8) }) else p) }

/-- Bind every stream that may move (R42), in ascending stream ID. (DEDUCED, log 30) -/
def State.rebindAll (s : State) : State := forEach State.rebind (tkeys s.streams) s

/-- A stage's cycles up to ARCLK cycle `t`, each in one counter (R102): first those that its computed beats still take, then
block while a computed beat waits in recto, else starve. -/
def Stage.counted (g : Stage) (t : Nat) : Stage :=
  let d := t - g.acct
  let b := min d g.oweBusy
  let h := min (d - b) g.oweHand
  let l := min (d - b - h) g.oweLoop
  let rest := BitVec.ofNat 48 (d - b - h - l)
  let wait := g.recto ≠ []
  { g with acct := max t g.acct, oweBusy := g.oweBusy - b, oweHand := g.oweHand - h, oweLoop := g.oweLoop - l,
           busy := g.busy + BitVec.ofNat 48 b, handoff := g.handoff + BitVec.ofNat 48 h, loop := g.loop + BitVec.ofNat 48 l,
           block := if wait then g.block + rest else g.block, starve := if wait then g.starve else g.starve + rest }

/-- The cycles up to `t` in which the stage's core waits for porter data: its starved ones while a cause holds (R214). -/
def Stage.waited (g : Stage) (t : Nat) : C48 := if g.cause.isSome ∧ g.recto = [] then (g.counted t).starve - g.starve else 0

/-- A stage that no row uses: no token, no program. Its cycle counters stay (R102). -/
def Stage.vacate (g : Stage) : Stage :=
  { busy := g.busy, starve := g.starve, loop := g.loop, handoff := g.handoff, block := g.block }

/-- Add waited cycles to the counter of their cause (Table 9.8). -/
def Press.addWait (p : Press) (c : Option Cause) (n : C48) : Press :=
  match c with
  | none => p
  | some .halt => { p with pwHalt := p.pwHalt + n }
  | some .barrier => { p with pwBarrier := p.pwBarrier + n }
  | some .fence => { p with pwFence := p.pwFence + n }
  | some .limit => { p with pwLimit := p.pwLimit + n }
  | some .slot => { p with pwSlot := p.pwSlot + n }
  | some .arb => { p with pwArb := p.pwArb + n }
  | some .flight => { p with pwFlight := p.pwFlight + n }
  | some .queue => { p with pwQueue := p.pwQueue + n }

/-- Count a stage's cycles up to now: its own counters, and its press's where its core waits for porter data. (DESIGN CHOICE,
log 39) -/
def State.account (s : State) (k : Nat) : State :=
  let g := s.stage k
  if g.row.isNone then s
  else (s.modPress (k / 16) (·.addWait g.cause (g.waited (2 * s.now)))).putStage k (g.counted (2 * s.now))

/-- A stage with its cycles counted up to now, as a read of its registers finds it. (DESIGN CHOICE, log 39) -/
def State.stageView (s : State) (k : Nat) : Stage :=
  let g := s.stage k
  if g.row.isNone then g else g.counted (2 * s.now)

/-- A press with the waits of its stages' cores counted up to now. -/
def State.pressView (s : State) (p : Nat) : Press :=
  (List.range 16).foldl (fun x i =>
    let g := s.stage (16 * p + i)
    if g.row.isNone then x else x.addWait g.cause (g.waited (2 * s.now))) (s.press p)

/-- The queues of a press's engine as a row that goes leaves them: no descriptor and no producer. (DEDUCED, log 122) -/
def State.clearQueues (s : State) (p : Nat) : State :=
  s.modEngine p (fun g => { g with
    halts := 0, issued := g.issued.map (fun t => { t with discard := true }),
    queues := g.queues.filterMap (fun q => if q.2.limit = 64 then none else some (q.1, { limit := q.2.limit })) })

/-- Clear the stages of a row's presses: no token, no program. Cycle counters stay (R102). -/
def State.clearStages (s : State) (c : RowCfg) : State :=
  let s := forEach (fun s k => (s.account k).modStage k (·.vacate))
    (c.pressList.flatMap (fun p => (List.range 16).map (16 * p + ·))) s
  forEach State.clearQueues c.pressList s

/-- A row becomes ABSENT: it leaves every mask, frees its bases, and its nodes turn off (R49, R27, R413). -/
def State.rowAbsent (s : State) (r : Nat) : State :=
  let w := s.row r
  let s := s.clearStages w.cfg
  let s := s.modClk (fun c => { c with used := c.used.filter (fun n => !w.cfg.nodes.contains n) })
  let s := s.putRow r { w with st := .absent, cfg := {}, newCfg := none, defer := none, prog := [], slices := [], issue := [],
                               inflight := 0, withheld := 0, cache := [], waits := [], reads := [], maps := [], banks := [],
                               wins := [] }
  let s := s.gateOff w.cfg.nodes
  ((s.maskDrop r (fun _ => true)).freeBases).rebindAll

/-- A voice's hot part has no place on a row whose base changed (R49). (DESIGN CHOICE, log 154) -/
def State.rowRebased (s : State) (r : Nat) (old new : Option Nat) : State :=
  if old = new then s
  else (s.maskDrop r (fun v => decide (v.baseHash ≠ ((new.map (s.base ·)).getD {}).hash))).modRow r (fun w => { w with cache := [] })

/-- The hot parts of the voices whose mask holds row `r`, loaded into its cache from their library entries (R25, R40). -/
def State.loadHots (s : State) (r : Nat) : State :=
  let vs := s.voices.filter (fun p => p.2.loaded && p.2.inRegion && p.2.mask.getLsbD r)
  let hot := fun (v : Voice) => ({ here := true, ops := imageOps (s.lib v.entry).bytes } : Hot)
  s.modRow r (fun w => { w with cache := vs.foldl (fun t p => tset {} t p.1 (hot p.2)) w.cache })

/-- A base's image in the weight region has to be written: it is not there yet, a granule of it is poisoned, or its
library entry has been damaged since (R27, R403). -/
def State.baseStale (s : State) (b : Base) : Bool :=
  !b.loaded || (s.lib b.entry).damaged || s.anyPoison b.addr b.bytes

/-- A base is written to the weight region from library entry `entry`, its image without header and placements, by the hub's
porter (R27, Table 9.1); an image that lies there whole and good stays. From then on its granules are rewritten from that
entry (R403). (DESIGN CHOICE, log 147) -/
def State.loadBase (s : State) (i entry : Nat) : State :=
  let b := s.base i
  if s.baseStale b then
    let img := canonical (s.lib entry).bytes
    (((s.libRead entry img.length).bulkWrite b.addr img).countMove 24 6 b.addr img.length).modBase i (fun b => { b with loaded := true, entry := entry })
  else s

/-- The stages, buffer pairs, queue limits and queue producers of a placement on a row's presses (R36, R188, R189, R205).
(DESIGN CHOICE, log 171) -/
def State.applyPlacement (s : State) (r : Nat) (c : RowCfg) (p : PlacementMap) : State :=
  let s := forEach (fun s (d : StageDef) => s.modStage (16 * c.first + d.key) (fun g =>
      { g with row := some r, kind := d.kind, beat := d.beat, cyc := d.cyc, units := d.units, acct := 2 * s.now })) p.stages s
  let s := forEach (fun s (x : Nat × Nat × Nat) => s.modPress (c.first + x.1) (fun y =>
      { y with pairs := tset {} y.pairs x.2.1 { kib := x.2.2 } })) p.pairs s
  let s := forEach (fun s (x : Nat × Nat × Nat) => s.modEngine (c.first + x.1) (fun g =>
      { g with queues := tset {} g.queues x.2.1 { tget ({} : PQueue) g.queues x.2.1 with limit := x.2.2 } })) p.limits s
  forEach (fun s (x : Nat × Nat × List Byte) => s.modEngine (c.first + x.1 / 16) (fun g =>
      { g with queues := tset {} g.queues x.2.1 { tget ({} : PQueue) g.queues x.2.1 with producer := .core (16 * c.first + x.1) } })) p.descs s

/-- The row takes configuration `c` as it enters BUILDING. Where its base changes, it leaves the masks of the old base's voices
here, at the end of DRAINING (R49 gives the moment for a removal only). Its presses and used units turn on (R413), and it
names the old base no longer (R27). -/
def State.rowConfig (s : State) (r : Nat) (c : RowCfg) : State :=
  let w := s.row r
  let old := w.cfg
  let s := s.clearStages old
  let s := s.modClk (fun k => { k with used := k.used.filter (fun n => !old.nodes.contains n) })
  let b := (s.lib c.entry).bytes
  let p := placementOf b c.presses
  let abs := fun (k : Nat) => 16 * c.first + k
  let s := s.putRow r { w with
    st := .building, cfg := c, newCfg := none, prog := rowProgram b c.presses, slices := [], issue := [], inflight := 0,
    coldBytes := coldBytesOf b, hotState := hotStateOf b, waits := p.waits.map (fun x => (abs x.1, x.2)),
    reads := p.reads.map (fun x => (abs x.1, x.2)), maps := p.maps.map (fun x => (abs x.1, x.2)),
    banks := p.banks.map (fun x => (abs x.1, x.2)), wins := p.wins.map (fun x => (abs x.1, x.2)) }
  let s := s.gateOff (old.nodes.filter (fun n => !c.nodes.contains n))
  let units := p.stages.flatMap (fun d => d.units.map (fun u => 16 + 16 * (c.first + d.key / 16) + u))
  let s := s.modClk (fun k => { k.turnOn (c.pressList ++ units) with used := k.used ++ units })
  (s.rowRebased r old.base c.base).freeBases

/-- What a row's presses load: the placement of the library entry that its configuration names, and its hot parts (R47, R346). -/
def State.rowLoad (s : State) (r : Nat) : State :=
  let c := (s.row r).cfg
  (s.applyPlacement r c (placementOf (s.lib c.entry).bytes c.presses)).loadHots r

/-- A press of the row is in a per-die reset or waits for one. -/
def State.rowInReset (s : State) (r : Nat) : Bool :=
  s.power.dieWait.any (fun d => decide (d.1 < 16 ∧ s.pressRow d.1 = some r))

/-- The row's presses load, or wait for the resets of its presses (Table 20.3). (DEDUCED, log 59) -/
def State.rowReload (s : State) (r : Nat) : State := if s.rowInReset r then s else s.rowLoad r

/-- A row whose package fails the checks of R34 as BUILDING begins becomes ABSENT, and its ROW_CONFIGURE is answered with their
status: the spec names the status and not the row's state. (DESIGN CHOICE, log 123) -/
def State.rowRefused (s : State) (r : Nat) (st : Status) : State :=
  let d := (s.row r).defer
  (s.rowAbsent r).answer d st ([BitVec.ofNat 8 r, 0, 0, 0] ++ List.replicate 32 0)

/-- The row enters BUILDING with a new configuration: the package is loaded from the library, which R34 checks, a base not yet
in the weight region is written from it (R27), and the row's presses load. (DESIGN CHOICE, logs 123, 147, 154) -/
def State.rowBuild (s : State) (r : Nat) (c : RowCfg) : State :=
  match imageCheck (s.lib c.entry).bytes (s.lib c.entry).damaged with
  | some st => s.rowRefused r st
  | none =>
    let s := match c.base with | some i => s.loadBase i c.entry | none => s
    ((s.rowConfig r c).rowReload r).rebindAll

/-- The row enters BUILDING: with a new configuration as that says, and after a row fault with the one it has, whose image lies in
GDDR7 (R346). What it loads waits for the resets of its presses. (DEDUCED, log 59) -/
def State.enterBuilding (s : State) (r : Nat) : State :=
  match (s.row r).newCfg with
  | some c => s.rowBuild r c
  | none => (s.rowConfig r (s.row r).cfg).rowReload r

/-- A row on which nothing admitted remains goes on: BUILDING, or ABSENT when its removal was asked for (Table 2.6). The
removal's deferred response is sent with a zero base hash (R322). -/
def State.rowOn (s : State) (r : Nat) : State :=
  let w := s.row r
  match w.newCfg with
  | some c =>
    if c.presses = 0 then
      (s.rowAbsent r).answer w.defer .ok ([BitVec.ofNat 8 r, 0, 0, 0] ++ List.replicate 32 0)
    else s.enterBuilding r
  | none => s.enterBuilding r

/-- A DRAINING row on which nothing admitted remains goes on (Table 2.6). -/
def State.rowSettle (s : State) (r : Nat) : State :=
  if (s.row r).st = .draining ∧ (s.row r).resident = 0 then s.rowOn r else s

/-- Every DRAINING row on which nothing admitted remains goes on: the last stream of a row may have left it by a fault of its
own or with its stall (Table 2.6, R47, R76). -/
def State.settleRows (s : State) : State := forEach State.rowSettle (List.range Config.nRows) s

/-- Run an effect that may take the last admitted stream off a DRAINING row: the row then goes on. -/
def runSettled (s : State) (f : State → State) : Host.Outcome State Fault Refusal := run s (fun s => (f s).settleRows)

/-- Retire a press (R345): the row's running streams fault, its staging is abandoned, the row becomes ABSENT and a
deferred ROW_CONFIGURE is answered ST_DATA_ERROR with row state ABSENT; the press stays retired until cold reset. (DEDUCED, log 107) -/
def State.retirePress (s : State) (p cause : Nat) : State :=
  if (s.press p).retired then s
  else
    let s := match s.pressRow p with
      | some r =>
        let w := s.row r
        let s := forEach (State.faultOfRow p) (s.rowRunning r) s
        let s := forEach State.abandon (s.rowStaged r) s
        let s := s.rowAbsent r
        s.answer w.defer .dataError ([BitVec.ofNat 8 r, 0, 0, 0] ++ List.replicate 32 0)
      | none => s
    let s := s.modPress p (fun x => { x with retired := true })
    let s := s.gateOff (unitNodes p ++ [p])
    s.raise 0 { seq := 0, source := 0, status := .dataError, event := 0x0070, unit := p, arg := BitVec.ofNat 64 cause }

/-! ## Conflict blocks (R293, Table 13.3) -/

/-- One entry of a conflict block: kind, state code, id and value. -/
structure Conflict where
  kind  : Nat
  state : Nat
  id    : Nat
  value : Nat
  deriving DecidableEq, Repr

/-- The bytes of a conflict block: at most 16 entries (Table 13.3). -/
def conflictBytes (l : List Conflict) : List Byte :=
  let l := l.take 16
  beBytes 2 l.length ++ beBytes 2 0 ++
    l.flatMap (fun c => [BitVec.ofNat 8 c.kind, BitVec.ofNat 8 c.state] ++ beBytes 2 0 ++ beBytes 4 c.id ++ beBytes 8 c.value)

/-- A stream's entry of a conflict block. -/
def State.streamEntry (s : State) (n : Nat) : Conflict := ⟨1, (s.stream n).st.code, n, (s.stream n).samples⟩

/-- A stall's entry of a conflict block. -/
def State.stallEntry (s : State) (k : Nat) : Conflict := ⟨2, (s.stall k).st.code, k, 0⟩

/-- A row's entry of a conflict block. (DEDUCED, log 31) -/
def State.rowEntry (s : State) (r : Nat) : Conflict := ⟨3, (s.row r).st.code, r, 0⟩

/-! ## Per-die resets (R462, R464) -/

/-- A press's per-die reset: press memory, buffer pairs and scale banks cleared, its engine's queues and barriers too. -/
def State.resetPress (s : State) (p : Nat) : State :=
  let s := s.modPress p (fun x => { x with pairs := [], scales := [] })
  let s := s.modEngine p (fun g => { g with queues := [], bars := [], barOwner := [], halts := 0, lastQ := [],
                                            issued := g.issued.map (fun t => { t with discard := true }) })
  { s with mem := mclear s.mem (addrWord 2 p 0) (2 ^ 48) }

/-- The requests of a transfer that ask a channel of die `m` arrive there once more, after the die's reset flushed them.
(DESIGN CHOICE, log 103) -/
def State.requestAgain (s : State) (m : Nat) (t : Xfer) : State :=
  forEach (fun s key =>
    let (c, j) := granuleAt s.sec.hashKey (byteOf key / 512)
    if spaceOf key = 0 ∧ c / 12 = m then
      s.modChannel c (fun x => { x with reqs := x.reqs ++ [{ slot := j, bank := bankOf s.sec.hashKey c (eccPlace j).1, serial := t.serial }] })
    else s) [t.src, t.dst] s

/-- Every engine's transfers that wait for die `m` ask again, engine by engine. (DESIGN CHOICE, log 103) -/
def State.requestsAgain (s : State) (m : Nat) : State :=
  forEach (fun s e => forEach (fun s t => s.requestAgain m t) (s.engine e).issued s) (List.range Config.nEngines) s

/-- A memory-edge die's per-die reset: its engine's queues and barriers, and its channels' flags. -/
def State.resetEdge (s : State) (m : Nat) : State :=
  let s := s.modEngine (20 + m) (fun g => { g with queues := [], bars := [], barOwner := [], halts := 0, lastQ := [],
                                                   issued := g.issued.map (fun t => { t with discard := true }) })
  forEach (fun s c => s.modChannel (12 * m + c) (fun x => { x with ueSeen := false })) (List.range 12) s

/-- Count a per-die reset. -/
def State.countDieReset (s : State) : State := s.modPower (fun p => { p with dieResets := p.dieResets + 1 })

/-! ## Row faults (R345, R346) -/

/-- What is owed to the write of PWR_RESET_CTRL that asked for a reset of press `e` is answered: the reset starts, or a row fault
came first (R464, Table 20.6). (DEDUCED, log 102) -/
def State.answerAsked (s : State) (e : Nat) (st : Status) (body : List Byte) : State :=
  match s.power.asked with
  | some (p, d) => if p = e then (s.modPower (fun w => { w with asked := some (p, none) })).answer d st body else s
  | none => s

/-- A per-die reset that waits on a press starts once the press's engine holds no issued transfer (R464). -/
def State.startDieReset (s : State) (e : Nat) : State :=
  if (s.engine e).issued = [] ∧ s.power.dieWait.any (fun d => decide (d = (e, false))) then
    (s.modPower (fun p => { p with dieWait := p.dieWait.map (fun d => if d.1 = e then (e, true) else d) })).answerAsked e .ok (beBytes 8 0)
  else s

/-- A press's per-die reset is asked for: it waits for the press's engine (R464). One that waits already is the same
reset (Table 20.6). (DEDUCED, log 102) -/
def State.beginPressReset (s : State) (p : Nat) : State :=
  (s.modPower (fun w => if w.dieWait.any (fun d => decide (d.1 = p)) then w else { w with dieWait := w.dieWait ++ [(p, false)] })).startDieReset p

/-- A press's reset has ended: the build of its row that waited for it loads the row (R346, Table 20.3). (DEDUCED, log 59) -/
def State.reloadRow (s : State) (p : Nat) : State :=
  match s.pressRow p with
  | some r => if (s.row r).st = .building ∧ s.rowInReset r = false then s.rowLoad r else s
  | none => s

/-- A row fault's effects on its row: running streams fault, their tokens are voided, stagings are abandoned, and the press
is reset before the row loads again (R346, Table 20.3); a second one on the press within 24 h retires it (R345). (DEDUCED, log
59) -/
def State.rowFault (s : State) (r p : Nat) : State :=
  let old := (s.press p).faultAt
  let again := match old with
    | some t => decide (s.now - t ≤ dayCycles)
    | none => false
  let running := s.rowRunning r
  let s := s.modPress p (fun x => { x with faultAt := some s.now })
  let s := s.modRow r (fun w => { w with st := if w.st = .building then .building else .draining })
  let s := s.voidRow r
  let s := forEach State.abandon (s.rowStaged r) s
  let s := forEach (State.faultOfRow p) running s
  let s := s.modClerk (fun k => { k with rowFaults := k.rowFaults + 1 })
  let s := s.raise 0 { seq := 0, source := 0, status := .dataError, event := 0x0071, unit := r,
                       arg := BitVec.ofNat 64 (p + 65536 * (running.length % 2 ^ 32)) }
  if again then s.retirePress p 1
  else
    let s := (s.answerAsked p .stateConflict (conflictBytes [s.rowEntry r])).beginPressReset p
    if (s.row r).st = .building then s else s.rowOn r

/-- A key lies in a stopped domain: a GDDR7 controller in reset, or a press in reset or whose node is off (R424). -/
def State.stoppedAt (s : State) (key : Nat) : Bool :=
  if spaceOf key = 0 then s.dieInReset (20 + (granuleAt s.sec.hashKey (byteOf key / 512)).1 / 12)
  else if spaceOf key = 2 then s.dieInReset (unitOf key) || !s.clk.on.contains (unitOf key)
  else false

/-- An issued transfer waits for a stopped domain at one of its ends (R424). -/
def State.xferWaits (s : State) (t : Xfer) : Bool := s.stoppedAt t.src || s.stoppedAt t.dst

/-- The engine that carries Palhani's move at a space-0 address (R186): the journals' the porter of the journal's die, any other the
hub's. (DESIGN CHOICE, log 147) -/
def moverOf (a : Nat) : Nat := if Config.journalBase ≤ a then 20 + (a - Config.journalBase) / Config.journalSlot % 4 else 24

/-- The engine holds a transfer that waits without limit, and fails the liveness probe (R424). -/
def State.engineWaits (s : State) (e : Nat) : Bool :=
  (s.engine e).issued.any (fun t => s.xferWaits t) || s.heldMoves.any (fun m => decide (moverOf m.addr = e))

/-! ## Boundary scan and the pins (R486) -/

/-- The device's instruction takes the pins from the module's functions. -/
def TapDev.takesPins (d : TapDev) : Bool :=
  decide (d.ir = .extest ∨ d.ir = .extestPulse ∨ d.ir = .extestTrain ∨ d.ir = .highz ∨ d.ir = .clamp)

/-- The TAP has power. -/
def State.tapUp (s : State) : Bool := decide (s.power.phase ≠ .off ∧ s.power.phase ≠ .tripped)

/-- A signal of J2 (Table 21.3). -/
inductive Pin where
  | tx (port lane : Nat) (positive : Bool)
  | rx (port lane : Nat) (positive : Bool)
  | bclk (n : Nat)
  | fsync (n : Nat)
  | dout (n : Nat)
  | din (n : Nat)
  | mclkIn | tck | tms | tdi | tdo | trstN | resetN | faultN | alertN | fpgmN | presentN
  | slotId (i : Nat)
  | ground
  deriving DecidableEq, Repr, Inhabited

/-- The hub's output and control cells of a pin. -/
def outCells : Pin → Option (Nat × Nat)
  | .bclk n => some (9 * n + 1, 9 * n + 2)
  | .fsync n => some (9 * n + 4, 9 * n + 5)
  | .dout n => some (9 * n + 6, 9 * n + 7)
  | .faultN => some (146, 147)
  | .alertN => some (148, 149)
  | _ => none

/-- The level of a pin of the hub: under an instruction that takes the pins, what the boundary register drives, else what the
module's function does; none is high impedance (R486). -/
def Jtag.pinOr (j : Jtag) (pin : Pin) (function : Option Bool) : Option Bool :=
  if ¬j.hub.takesPins then function
  else if j.hub.ir = .highz then none
  else match outCells pin with
    | some (o, c) => if j.hub.update.getD c false then some (j.hub.update.getD o false) else none
    | none => none

/-- The lanes of port `p` are taken by its retimer's boundary register. -/
def State.lanesTaken (s : State) (p : Nat) : Bool := (if p = 0 then s.jtag.retimer0 else s.jtag.retimer1).takesPins

/-- A LINK_EVENT record (Table 13.7). -/
def State.linkEvent (s : State) (p arg : Nat) : State :=
  s.raise 15 { seq := 0, source := 0, status := .ok, event := 0x0060, unit := p, arg := BitVec.ofNat 64 arg }

/-- A port loses its link: its PCS resets and flushes its crossing, and the received frames that had partly crossed, a number the
spec does not give, are counted as dropped (R422, Table 18.5). RTP and the sessions bound to the port follow R283 and R269 at
their own time. (DEDUCED, log 74) -/
def State.dropLink (s : State) (port : Nat) : State :=
  if s.awake ∧ (s.net port).up then
    ((s.draw.2.modNet port (fun t => { t with up := false, lost := true, rxDrop := t.rxDrop + s.draw.1.setWidth 48 })).modClk
      (fun c => { c with flushes := c.flushes + 1 })).linkEvent port 0
  else s

/-! ## Sessions (R269) -/

/-- The cap of R456, in units of 25 W: the set cap, or what the current limit of 46.3 A allows at the measured voltage.
Before the first measurement the set cap stands (Table 20.7: eff_cap resets to 100). (DEDUCED, log 106) -/
def Power.base (p : Power) : Nat := if p.volts = 0 then p.cap else min p.cap (463 * p.volts / 25000)

/-- The effective cap, in units of 25 W. -/
def Power.eff (p : Power) : Nat := min p.base p.thermCap

/-- The thermal cap is in force (R469). -/
def Power.thermal (p : Power) : Bool := decide (p.thermCap < p.base)

/-- Whose session a VCT frame belongs to. -/
def Sent.ofSession (k : Nat) : Sent → Bool
  | .vct j _ _ _ | .ackMsg j _ _ _ => decide (j = k)
  | .queued _ _ _ _ _ x => x.ofSession k
  | _ => false

/-- The frames of a session that wait for its port go with it: it sends nothing any more (R269). -/
def State.dropHeld (s : State) (k : Nat) : State :=
  let p := (s.sess k).src.port
  if (s.net p).held.any (Sent.ofSession k) then s.modNet p (fun t => { t with held := t.held.filter (fun x => !x.ofSession k) })
  else s

end Sys2Proof.Machine
end

