-- ==== Sys2Proof/Machine/Operands.lean ====
section
/-! DEFINITION. How the clerk takes a command: the header of Table 13.2, the checks of R292 in their order,
and the table entries that response bodies carry (R308). -/

namespace Sys2Proof.Machine

/-! ## What a command does -/

/-- The outcome of a command's own checks: refused with a status, a body and what the refusal itself changes; carried
out, with a body read from the state it leaves; or accepted, with its response deferred. -/
inductive Act where
  | refuse (st : Status) (body : List Byte) (f : State → State)
  | done (f : State → State) (body : State → List Byte) (flags : Nat)
  | later (f : State → State)

/-- Refuse with a status and an empty body (R311). -/
def Act.no (st : Status) : Act := .refuse st [] id

/-- Refuse with ST_STATE_CONFLICT and its conflict block (R293). -/
def Act.conflict (l : List Conflict) : Act := .refuse .stateConflict (conflictBytes l) id

/-- Carry out, with a body that the present state fixes. -/
def Act.ok (f : State → State) (body : List Byte) : Act := .done f (fun _ => body) 0

/-- The three scopes of R310. -/
inductive Scope where
  | stall | module | either
  deriving DecidableEq, Repr

/-- What the common checks of R292 need to know of a command: its row of Table 14.1, its layout's length and the checks
of its body's reserved fields and ranges. -/
structure Shape where
  opcode  : Nat
  role    : Nat
  scope   : Scope
  lenOk   : Bool
  fields  : Bool
  audited : Bool := false
  auditRefused : Bool := false
  detail  : List Byte := []        -- audit detail (Table 19.6)
  tornOk  : Bool := false          -- allowed on a TORN stall (R311)
  peerOk  : Bool := false          -- allowed to a peer session (R433)

/-- The command's scope is the module. -/
def modScope (h : CmdHdr) : Bool := h.target.getLsbD 14

/-- The stall the header names. -/
def tgt (h : CmdHdr) : Nat := h.target.toNat % 16384

/-- The header's bytes, for the audit record. -/
def hdrRaw (op : Nat) (h : CmdHdr) : List Byte :=
  [BitVec.ofNat 8 op, h.rsv1] ++ beBytes 2 h.bytes.toNat ++ beBytes 4 h.tag.toNat ++ beBytes 2 h.target.toNat ++
    beBytes 2 h.rsv10.toNat ++ beBytes 4 h.rsv12.toNat

/-- The header's reserved fields are 0, and module scope names no stall (Table 13.2). -/
def hdrClean (h : CmdHdr) : Bool :=
  decide (h.rsv1 = 0 ∧ h.rsv10 = 0 ∧ h.rsv12 = 0) && !h.target.getLsbD 15 && !(modScope h && decide (tgt h ≠ 0))

/-- Where the response goes. (DESIGN CHOICE, log 22) -/
def State.hdrDefer (s : State) (op : Nat) (h : CmdHdr) : Defer :=
  let q := s.sess h.session
  ⟨h.session, h.seq, h.tag, op, q.gen, ((q.nextCmd.filter (fun c => decide (c.seq = h.seq))).map (·.life)).getD q.life⟩

/-- The command's turn in the session's ring has come: it is the first not started, or the ring holds none that waits (R294).
(DESIGN CHOICE, log 22) -/
def Session.inTurn (q : Session) (seq : BitVec 32) : Bool :=
  match q.nextCmd with
  | some c => decide (c.seq = seq)
  | none => true

/-- Palhani takes a command of the session: it runs commands, the session has not been freed, its response ring has
an entry to hold, and the command's turn has come (R288, R294, R348). (DEDUCED, log 19; DESIGN CHOICE, log 22) -/
def State.takes (s : State) (h : CmdHdr) : Bool :=
  s.clerkUp && decide ((s.sess h.session).st ≠ .closed) && decide ((s.sess h.session).rspUsed < 16) && (s.sess h.session).inTurn h.seq

/-- A command whose response waits has been started: it does not hold the commands behind it (R294). -/
def State.startCmd (s : State) (h : CmdHdr) : State :=
  let q := s.sess h.session
  let s := match q.nextCmd with
    | some c => s.putSess h.session { q with ring := q.ring.map (fun (d : RingCmd) => if d.seq = c.seq ∧ d.life = c.life then { d with started := true } else d) }
    | none => s
  s.serveBad h.session q.ring.length

/-- On a module session the scope fits the command (R310). -/
def scopeFits (c : Scope) (modSess : Bool) (h : CmdHdr) : Bool :=
  !modSess ||
  match c with
  | .stall => !(modScope h)
  | .module => modScope h
  | .either => true

/-- On a stall session the command is no module command and names the session's stall (R290, R310). (DEDUCED, log 21) -/
def stallFits (c : Scope) (k : Option Nat) (h : CmdHdr) : Bool :=
  match k with
  | none => true
  | some k => decide (c ≠ .module) && !(modScope h) && decide (tgt h = k)

/-- Steps 2 to 5 of R292, with R296 before the rights and a FREE stall's conflict behind them (Table 3.8): the refusal
that decides, or none. (DEDUCED, logs 20, 21) -/
def State.precheck (s : State) (c : Shape) (h : CmdHdr) (len : Nat) : Option (Status × List Byte) :=
  let q := s.sess h.session
  if h.bytes.toNat ≠ len ∨ ¬c.lenOk then some (.badLength, [])
  else if ¬hdrClean h ∨ ¬c.fields ∨ ¬scopeFits c.scope q.stall.isNone h then some (.badDescriptor, [])
  else if ¬q.greeted ∧ c.opcode ≠ 1 then some (.stateConflict, conflictBytes [⟨4, 0, 0, 0⟩])
  else if q.role < c.role ∨ ¬stallFits c.scope q.stall h ∨ (q.peer ∧ ¬c.peerOk) then some (.noRight, [])
  else if modScope h then none
  else match (s.stall (tgt h)).st with
    | .torn => if c.tornOk then none else some (.stallTorn, [])
    | .free => some (.stateConflict, conflictBytes [s.stallEntry (tgt h)])
    | _ => none

/-- The audit record of a command (R448, R449): kind 1 accepted, kind 2 refused. -/
def State.auditCmd (s : State) (c : Shape) (h : CmdHdr) (kind : Nat) (st : Status) : State :=
  let q := s.sess h.session
  s.audit kind c.opcode st.code (roleByte q) (some h.session) (if modScope h then none else some (tgt h)) q.src.addr c.detail

/-- Refuse a command: no effect but the refusal's own, its audit record where R312 asks for one, and the response. -/
def State.refuse (s : State) (c : Shape) (h : CmdHdr) (st : Status) (body : List Byte) (f : State → State) : State :=
  let s := if c.auditRefused then s.auditCmd c h 2 st else s
  (f s).reply (s.hdrDefer c.opcode h) st 0 body

/-- Run a command of the mailbox: the checks of R292 in order, the audit record before the effect (R450), the effect as
one step, and the response. (DESIGN CHOICE, log 22) -/
def clerk (c : Shape) (h : CmdHdr) (len : Nat) (own : State → Act) (s : State) : State :=
  if s.takes h then
    match s.precheck c h len with
    | some (st, body) => s.refuse c h st body id
    | none =>
      match own s with
      | .refuse st body f => s.refuse c h st body f
      | .done f body flags =>
        let t := f (if c.audited then s.auditCmd c h 1 .ok else s)
        t.reply (s.hdrDefer c.opcode h) .ok flags (body t)
      | .later f => (f (if c.audited then s.auditCmd c h 1 .ok else s)).startCmd h
  else s

/-! ## Bodies -/

/-- The stream is one of the command's stall. A FREE stream is no stall's, and a command that names one gets ST_NO_RIGHT
(R310, Table 14.1's rights); Tables 3.5 and 14.6 say ST_STATE_CONFLICT for a FREE stream. (DESIGN CHOICE, log 135) -/
def State.owns (s : State) (h : CmdHdr) (n : Nat) : Bool :=
  decide (n < Config.nStreams) && decide ((s.stream n).st ≠ .free) && decide ((s.stream n).stall = tgt h)

/-- The largest body of one message on a session (R291). -/
def State.maxBody (s : State) (k : Nat) : Nat :=
  let q := s.sess k
  let mtu := bits (s.net q.src.port).cfg.toNat 29 16
  let ip := if q.src.addr.toNat / 2 ^ 32 = 0xFFFF then 20 else 40
  mtu - ip - 8 - 32 - 32 - 16

/-! ## Table entries in network byte order (R308) -/

/-- The words of a stream table entry (Table 3.1): size in bytes and value. (DEDUCED, log 54) -/
def streamWords (x : Stream) : List (Nat × Nat) :=
  let live := decide (x.st ≠ .free)
  let mk := min 3 x.marks.length
  [(4, x.st.code + 8 * b2n x.staged + 16 * b2n x.scan + 32 * b2n x.paused + 64 * b2n x.inFlash + 128 * b2n x.endReq +
      256 * b2n x.exportReq + 512 * b2n x.exportMove + 1024 * mk + 65536 * x.status.code.toNat),
   (4, x.stall + 16384 * x.voice + 2 ^ 24 * (x.row.getD 0) + 2 ^ 27 * b2n (live && x.row.isNone)),
   (4, x.pitch + 16384 * x.outKind + 65536 * x.outIndex),
   (4, x.lastAcc.toNat), (4, x.lastEm.toNat), (4, x.pendFrames), (8, x.samples % 2 ^ 48),
   (8, (x.marks.head?).getD 0), (8, x.lastMark), (4, x.handle.toNat), (4, x.ssrc.toNat), (4, x.origin),
   (4, x.chunks.length + match x.fetch with | some f => if live then f.chunks else 0 | none => 0)]

/-- The words of a stall table entry (Table 3.2). -/
def stallWords (t : Stall) : List (Nat × Nat) :=
  [(4, t.st.code + 256 * t.weight + 65536 * t.tear.code.toNat), (4, t.quota), (4, t.opened), (4, t.voices + 65536 * t.vquota),
   (8, t.seed.toNat), (4, t.tally), (4, t.held), (4, t.pitches), (4, t.egress), (4, t.porter), (4, t.faults),
   (4, 0), (4, 0), (4, 0), (4, 0)]

/-- The words of an egress entry (Table 12.5). -/
def egressWords (e : Egress) : List (Nat × Nat) :=
  [(16, e.dstAddr.toNat), (2, e.dstPort.toNat), (2, e.seqBase.toNat), (1, e.pt), (1, e.codec + 4 * e.rate), (1, e.ptime),
   (1, b2n e.markerNext), (8, e.lastSent % 2 ^ 48)]

/-- Words in network byte order. -/
def wordsBE (l : List (Nat × Nat)) : List Byte := l.flatMap (fun p => beBytes p.1 p.2)

/-- Words in little-endian order, as stored. -/
def wordsLE (l : List (Nat × Nat)) : List Byte := l.flatMap (fun p => leBytes p.1 p.2)

/-- Floor chunks a stall holds (R318). -/
def State.floorChunks (s : State) (k : Nat) : Nat :=
  ((s.stallStreams k).map (fun n => ((s.stream n).chunks.filter (·.floor)).length)).sum

/-- The next value of a counter of handles, snapshots and reports: never 0. (DESIGN CHOICE, log 28) -/
def nextId (n : Nat) : Nat := if n ≥ 2 ^ 32 - 1 then 1 else n + 1

end Sys2Proof.Machine
end

