-- ==== Sys2Proof/Machine/RegBase.lean ====
section
/-! DEFINITION. Register names and the shapes of REG_READ and REG_WRITE (R339, R340). A name is told apart into its pattern,
with `#` for each decimal index, and the indices. -/

namespace Sys2Proof.Machine

/-! ## Names -/

/-- The characters of a 32-byte name up to its first NUL, as numbers. -/
def nameChars (body : List Byte) : List Nat := ((body.take 32).map BitVec.toNat).takeWhile (· ≠ 0)

/-- Nothing but NUL follows the name. -/
def namePadded (body : List Byte) : Bool := (((body.take 32).map BitVec.toNat).dropWhile (· ≠ 0)).all (· == 0)

/-- A decimal digit. -/
def isDigit (c : Nat) : Bool := decide (48 ≤ c ∧ c ≤ 57)

/-- Tell a name apart: `cur` is the number under way, with whether it began with 0 and has gone on. Gives none for a
number with a needless leading zero. (DEDUCED, log 97) -/
def splitName : List Nat → Option Nat → Option (List Char × List Nat)
  | [], none => some ([], [])
  | [], some n => some ([], [n])
  | c :: cs, none =>
    if isDigit c then splitName cs (some (c - 48))
    else (splitName cs none).map (fun p => (Char.ofNat c :: p.1, p.2))
  | c :: cs, some n =>
    if isDigit c then if n = 0 then none else splitName cs (some (10 * n + (c - 48)))
    else (splitName cs none).map (fun p => (Char.ofNat c :: p.1, n :: p.2))

/-- Put a `#` for each run of digits. -/
def hashName : List Nat → Bool → List Char
  | [], _ => []
  | c :: cs, run => if isDigit c then (if run then hashName cs true else '#' :: hashName cs true) else Char.ofNat c :: hashName cs false

/-- A register name's pattern and indices, or none where it is no name at all. (DEDUCED, log 97) -/
def regName (body : List Byte) : Option (String × List Nat) :=
  let cs := nameChars body
  if namePadded body ∧ cs ≠ [] then (splitName cs none).map (fun p => (String.ofList (hashName cs false), p.2)) else none

/-- The name begins so. -/
def namePrefix (body : List Byte) (p : String) : Bool := (nameChars body).take p.length == p.toList.map Char.toNat

/-- A name as 32 bytes, for the register accesses that have rows of their own. -/
def nameBytes (n : String) : List Byte :=
  let b := n.toList.map (fun c => BitVec.ofNat 8 c.toNat)
  b ++ List.replicate (32 - b.length) 0

/-- The body of a REG_WRITE. -/
def writeBody (n : String) (value : Nat) : List Byte := nameBytes n ++ List.replicate 8 0 ++ beBytes 8 value

/-! ## Shapes -/

/-- REG_WRITE's row of Table 14.1 and its layout. A write to SEC_CRED_STAGEi is audited by its name alone (Table 19.6). -/
def regWriteShape (h : CmdHdr) (body : List Byte) : Shape :=
  { opcode := 0x71, role := 2, scope := .module, lenOk := decide (body.length = 48), fields := zeros body 36 4,
    audited := true, detail := hdrRaw 0x71 h ++ if namePrefix body "SEC_CRED_STAGE" then body.take 32 else body }

/-- REG_READ's row of Table 14.1 and its layout. A peer session may read the export windows only (R433). -/
def regReadShape (body : List Byte) : Shape :=
  { opcode := 0x70, role := 2, scope := .module, lenOk := decide (body.length = 40),
    fields := decide (1 ≤ fld body 36 2 ∧ fld body 36 2 ≤ 16) && zeros body 38 2,
    peerOk := match regName body with | some p => p.1 == "HUB_EXPORT#_IMAGE" | none => false }

/-- The read-back of a written register: 8 bytes. -/
def backBody (v : Nat) : List Byte := beBytes 8 v

/-- A diagnostic access that ends with ST_TIMEOUT is counted (R425). -/
def timedOut : Act := .refuse .timeout [] (fun s => s.modClk (fun c => { c with diag := c.diag + 1 }))

end Sys2Proof.Machine
end

