-- ==== Sys2Proof/Machine/Clocks.lean ====
section
/-! DEFINITION. Clocks: requests to the gate tree (R412), source switches (R414, R415), the frequency counter (R341, R416,
R417) and diagnostic timeouts (R425). -/

namespace Sys2Proof.Machine

/-! ## The gate tree (R411, R412) -/

/-- A request to the gate tree: a node is turned on with its parent; a node in use is not turned off, and the refusal is
reported. -/
def State.gateRequest (s : State) (node : Nat) (on : Bool) : State :=
  let used := s.nodeUsed node
  s.modClk (fun c =>
    let c := { c with ctrlNode := node, ctrlOn := on }
    if on then c.turnOn [node]
    else if used then c.refuseOff node
    else c.turnOff [node])

/-- A write of CLK_GATE_CTRL (R412, R428). -/
def gateOwn (node : Nat) (on : Bool) (_s : State) : Act :=
  if 272 ≤ node then .no .badDescriptor
  else .ok (fun s => s.gateRequest node on) (backBody (node + 512 * b2n on))

/-- The body of that write. -/
def gateBody (node : Nat) (on : Bool) : List Byte := writeBody "CLK_GATE_CTRL" (node % 512 + 512 * b2n on)

/-- CLK_GATE_ON: REG_WRITE of CLK_GATE_CTRL with on = 1. -/
def execClkGateOn (h : CmdHdr) (node : Nat) (s : State) : Host.Outcome State Fault Refusal :=
  run s (clerk (regWriteShape h (gateBody node true)) h 48 (gateOwn node true))

/-- CLK_GATE_OFF: REG_WRITE of CLK_GATE_CTRL with on = 0. -/
def execClkGateOff (h : CmdHdr) (node : Nat) (s : State) : Host.Outcome State Fault Refusal :=
  run s (clerk (regWriteShape h (gateBody node false)) h 48 (gateOwn node false))

/-! ## Switching a source (R414, R415) -/

/-- The bit of a SAP port's mux. -/
def muxBit (p : Nat) : BitVec 16 := BitVec.ofNat 16 (2 ^ p)

/-- A SAP port's switch is complete: the mux stands at its new source, and a second request begins. -/
def State.sapSwitched (s : State) (p : Nat) : State :=
  let s := s.modSap p (fun t => { t with mux := t.muxTo })
  let s := s.modClk (fun c => { c with switching := c.switching &&& ~~~muxBit p, muxed := c.muxed &&& ~~~muxBit p, switches := c.switches + 1 })
  if s.clk.sapWait.contains p then
    let s := s.modClk (fun c => { c with sapWait := c.sapWait.filter (· ≠ p) })
    let t := s.sap p
    if t.mclk = t.mux then s
    else (s.modSap p (fun t => { t with muxTo := t.mclk })).modClk (fun c => { c with switching := c.switching ||| muxBit p })
  else s

/-- CLK_SRC_SWITCH_DONE: mux 0 to 15 is a SAP port's, 16 the hub boot mux. -/
def execClkSrcSwitchDone (mux : Nat) (s : State) : Host.Outcome State Fault Refusal :=
  run s (fun s =>
    if mux = 16 then
      if s.clk.ctSwitch then s.modClk (fun c => { c with ctSwitch := false, ctPll := true, switches := c.switches + 1 }) else s
    else if mux < 16 ∧ s.clk.switching.getLsbD mux then s.sapSwitched mux
    else s)

/-- CLK_SRC_DEADOLD: the old source gives no edge, and the mux changes at once; a switch is counted so once. (DEDUCED, log 87) -/
def execClkSrcDeadold (mux : Nat) (s : State) : Host.Outcome State Fault Refusal :=
  run s (fun s =>
    if mux < 16 ∧ s.clk.switching.getLsbD mux ∧ ¬s.clk.muxed.getLsbD mux then
      s.modClk (fun c => { c with muxed := c.muxed ||| muxBit mux, deadold := c.deadold + 1 })
    else if mux = 16 ∧ s.clk.ctSwitch ∧ ¬s.clk.ctDead then
      s.modClk (fun c => { c with ctDead := true, deadold := c.deadold + 1 })
    else s)

/-! ## The frequency counter (R341, R416, R417) -/

/-- FREQ_MEASURE's own refusal and effect: its response is written when the window ends. -/
def freqMeasureOwn (h : CmdHdr) (body : List Byte) (s : State) : Act :=
  if s.clk.fmBusy then .no .busy
  else .later (fun s => s.modClk (fun c => { c with
    fmTarget := fld body 0 1, fmRef := fld body 1 1, fmK := fld body 2 1, fmBusy := true, fmDone := false, fmSat := false,
    fmTimeout := false, fmDefer := some (s.hdrDefer 0x72 h) }))

/-- FREQ_MEASURE's row of Table 14.1, its layout and its ranges (Table 14.4). -/
def freqMeasureShape (body : List Byte) : Shape :=
  { opcode := 0x72, role := 2, scope := .module, lenOk := decide (body.length = 4),
    fields := decide (fld body 0 1 ≤ 32 ∧ fld body 1 1 ≤ 32 ∧ 10 ≤ fld body 2 1 ∧ fld body 2 1 ≤ 24) && zeros body 3 1 }

/-- FREQ_MEASURE (R341). -/
def execFreqMeasure (h : CmdHdr) (body : List Byte) (s : State) : Host.Outcome State Fault Refusal :=
  run s (clerk (freqMeasureShape body) h body.length (freqMeasureOwn h body))

/-- FREQ_MEASURE_DONE: the window of 2^k reference periods has passed with `count` target edges. -/
def execFreqMeasureDone (count : Nat) (s : State) : Host.Outcome State Fault Refusal :=
  run s (fun s =>
    if s.awake ∧ s.clk.fmBusy then
      let sat := decide (2 ^ 32 - 1 ≤ count)
      let v := min count (2 ^ 32 - 1)
      let d := s.clk.fmDefer
      let s := s.modClk (fun c => { c with fmBusy := false, fmDone := true, fmSat := sat, fmCount := BitVec.ofNat 32 v, fmDefer := none })
      s.answer d .ok (beBytes 4 v ++ [BitVec.ofNat 8 (b2n sat), 0, 0, 0])
    else s)

/-- FMTR_TIMEOUT: the reference has given no edge for one second. (DEDUCED, log 87) -/
def execFmtrTimeout (s : State) : Host.Outcome State Fault Refusal :=
  run s (fun s =>
    if s.awake ∧ s.clk.fmBusy then
      let d := s.clk.fmDefer
      (s.modClk (fun c => { c with fmBusy := false, fmTimeout := true, fmDefer := none })).answer d .timeout []
    else s)

/-! ## Diagnostic timeouts (R425) -/

/-- The press's node is on. -/
def State.pressOn (s : State) (p : Nat) : Bool := s.clk.on.contains p

/-- The bytes of the command that a session's ring holds under a sequence number. -/
def State.commandBytes (s : State) (k : Nat) (seq : BitVec 32) : Option (List Byte) :=
  ((s.sess k).ring.find? (fun c => decide (c.seq = seq))).map (·.bytes)

/-- The die of a unit of a counter group, where it is a press or a memory-edge die (Table 14.5). -/
def groupDie (g u : Nat) : Option Nat :=
  match g with
  | 2 => some (u / 16)
  | 3 => some (u / 4)
  | 4 => some u
  | 5 => if u < 16 ∨ (20 ≤ u ∧ u < 24) then some u else none
  | 6 => some (20 + u / 12)
  | _ => none

/-- The press, or the memory-edge die, whose registers a diagnostic command of the ring reads or writes (R425). -/
def diagDie (c : List Byte) : Option Nat :=
  let body := c.drop 16
  if fld c 0 1 = 0x73 then groupDie (fld body 0 1) (fld body 1 1)
  else if fld c 0 1 = 0x70 ∨ fld c 0 1 = 0x71 then
    match regName body with
    | some (pat, i) =>
      if pat.toList.take 5 == "PRS#_".toList then some (i.getD 0 0)
      else if pat.toList.take 4 == "ME#_".toList then some (20 + i.getD 0 0)
      else none
    | none => none
  else none

/-- DIAG_TIMEOUT: the diagnostic access of a command in its session's ring, to a register of a press or of a memory-edge die, ends
after 4,096 CTCLK. `press` is the press of that register. A press whose node is on is retired (R345). -/
def execDiagTimeout (h : CmdHdr) (press : Option Nat) (s : State) : Host.Outcome State Fault Refusal :=
  run s (fun s =>
    match (s.commandBytes h.session h.seq).bind (fun c => (diagDie c).map (fun d => (fld c 0 1, d))) with
    | none => s
    | some (op, d) =>
      if s.clerkUp ∧ d < 24 ∧ press = (if d < 16 then some d else none) then
        let s := s.modClk (fun c => { c with diag := c.diag + 1 })
        let s := if d < 16 ∧ s.pressOn d then s.retirePress d 4 else s
        s.reply (s.hdrDefer op h) .timeout 0 []
      else s)

end Sys2Proof.Machine
end

