-- ==== Sys2Proof/Machine/Control.lean ====
section
/-! DEFINITION. The control commands: HELLO, RESYNC, ROLE_ASSERT and HEARTBEAT (R296, R297, R302, R304, R305, R315). -/

namespace Sys2Proof.Machine

/-! ## HELLO (R296, R297) -/

/-- Package stepping, ASCII "A2" (R1). -/
def stepping : List Byte := [0x41#8, 0x32#8]

/-- The running firmware image. -/
def State.runningImage (s : State) : FwImage :=
  (s.flash.slots.getD s.fw.running none).getD ⟨0, 2, 0, true⟩

/-- Bytes 0 to 10 of Table 13.4. -/
def State.identity (s : State) (k : Nat) : List Byte :=
  [Config.buildLevel] ++ stepping ++ [4, BitVec.ofNat 8 s.runningImage.minor] ++ beBytes 2 s.runningImage.patch ++
    [3, 6, 7, BitVec.ofNat 8 (s.sess k).version]

/-- The HELLO response body (Table 13.4). -/
def State.helloBody (s : State) (k : Nat) : List Byte :=
  let q := s.sess k
  s.identity k ++ [BitVec.ofNat 8 (roleByte q)] ++ beBytes 2 k ++ beBytes 2 (10 * q.hbPeriod) ++ Config.deviceId.take 16 ++
    List.replicate (16 - Config.deviceId.length) 0

/-- HELLO's own check: the session's version lies between min_version and max_version (R297). (DEDUCED, log 25) -/
def helloOwn (h : CmdHdr) (body : List Byte) (s : State) : Act :=
  let v := (s.sess h.session).version
  if fld body 0 1 ≤ v ∧ v ≤ fld body 1 1 then
    .done (fun s => (s.modSess h.session (fun q => { q with greeted := true })).modFw (fun f => { f with greeted := true }))
      (fun s => s.helloBody h.session) 0
  else .refuse .version (s.helloBody h.session) id

/-- HELLO's row of Table 14.1 and its layout. -/
def helloShape (body : List Byte) : Shape :=
  { opcode := 0x01, role := 0, scope := .either, lenOk := decide (body.length = 8), fields := zeros body 2 6, peerOk := true }

/-- HELLO (R296, R297). -/
def execHello (h : CmdHdr) (body : List Byte) (s : State) : Host.Outcome State Fault Refusal :=
  run s (clerk (helloShape body) h body.length (helloOwn h body))

/-! ## RESYNC (R304, R305) -/

/-- Sum of a number over a list of keys. -/
def sumOver (l : List Nat) (f : Nat → Nat) : Nat := (l.map f).sum

/-- Streams in a state; those the table does not list are FREE. -/
def State.countState (s : State) (st : SState) : Nat :=
  let c := (s.streams.filter (fun p => decide (p.2.st = st))).length
  if st = .free then Config.nStreams - (s.streams.filter (fun p => decide (p.2.st ≠ .free))).length else c

/-- Issued transfers of every engine, those of the system among them. -/
def State.slotsIssued (s : State) : Nat := sumOver (List.range Config.nEngines) (fun e => (s.engine e).issued.length)

/-- Issued transfers with sys = 1. -/
def State.sysIssued (s : State) : Nat :=
  sumOver (List.range Config.nEngines) (fun e => ((s.engine e).issued.filter (·.sys)).length)

/-- Stalls outside FREE, ascending. -/
def State.liveStalls (s : State) : List Nat :=
  (s.stalls.filter (fun p => decide (p.2.st ≠ .free))).map Prod.fst

/-- Sum of a 48-bit counter over a table. -/
def sumCtr {α : Type} (t : Tbl α) (f : α → C48) : Nat := (t.map (fun p => (f p.2).toNat)).sum

/-- A section of records; one that lists nothing stands as an empty section (Table 13.9). -/
def recordsOf (t : Nat) (l : List (List Byte)) : List (Nat × List Byte) :=
  if l = [] then [(t, [])] else l.map (fun r => (t, r))

/-- The RESYNC sections 1 to 7 (Table 13.9), as records with their section types. (DEDUCED, log 27) -/
def State.snapshot (s : State) (k : Nat) : List (Nat × List Byte) :=
  let q := s.sess k
  let engines := List.range Config.nEngines
  [(1, s.identity k ++ [BitVec.ofNat 8 (roleByte q)] ++ beBytes 4 0),
   (2, ([SState.free, .idle, .queued, .resident, .draining, .parked, .faulted].flatMap (fun st => beBytes 4 (s.countState st))) ++ beBytes 4 0),
   (3, beBytes 4 s.feedFreeSum ++ beBytes 4 (sumOver (List.range 4) (fun d => (s.die d).feedFloor)) ++ beBytes 4 s.clerk.feedGrant ++
      beBytes 4 (sumOver (List.range 4) (fun d => (s.die d).pitchFree)) ++ beBytes 4 s.clerk.egrFree ++ beBytes 4 s.egrRsv ++
      beBytes 4 s.slotsIssued ++ beBytes 4 s.sysIssued ++ beBytes 8 s.clerk.consChecks.toNat ++ beBytes 8 s.clerk.consFail.toNat),
   (4, (engines.flatMap (fun e => beBytes 2 (s.engine e).issued.length ++ beBytes 2 (s.engine e).halts)) ++ beBytes 4 0),
   (5, beBytes 8 s.clerk.streamFaults.toNat ++ beBytes 8 s.clerk.stallTears.toNat ++ beBytes 8 (sumCtr s.channels (·.ce)) ++
      beBytes 8 (sumCtr s.channels (·.ue)) ++ beBytes 8 (sumCtr s.dies (·.ce) + sumCtr s.presses (·.memCe)) ++ beBytes 8 (sumCtr s.dies (·.ue)) ++
      beBytes 8 (sumCtr s.engines (·.faults)) ++ beBytes 8 (sumCtr s.dies (·.dlk)) ++ beBytes 8 s.clerk.moduleFailures.toNat ++
      beBytes 8 s.clerk.crierLost.toNat),
   (6, (List.range 16).flatMap (fun i => beBytes 8 (s.crierSrc i).seq))] ++
  recordsOf 7 (s.liveStalls.map (fun k => beBytes 4 k ++ beBytes 4 (s.floorChunks k) ++ wordsBE (stallWords (s.stall k))))

/-- Cut records into pages of at most `room` bytes each, a section header of 4 bytes before each page's first record of a
type. Gives each page's records; `cur` is the page under construction, newest first. (DEDUCED, log 27) -/
def paginate (room : Nat) : List (Nat × List Byte) → (used : Nat) → (cur : List (Nat × List Byte)) → List (List (Nat × List Byte))
  | [], _, cur => [cur.reverse]
  | (t, r) :: l, used, cur =>
    let head := match cur with
      | (u, _) :: _ => if u = t then 0 else 4
      | [] => 4
    if used + head + r.length ≤ room ∨ cur = [] then paginate room l (used + head + r.length) ((t, r) :: cur)
    else cur.reverse :: paginate room l (4 + r.length) [(t, r)]

/-- The bytes of a page's sections: runs of one type under one header. -/
def sectionBytes : List (Nat × List Byte) → List Byte
  | [] => []
  | (t, r) :: l =>
    let same := l.takeWhile (fun p => decide (p.1 = t))
    let data := r ++ same.flatMap Prod.snd
    beBytes 2 t ++ beBytes 2 data.length ++ data ++ go t l
where
  /-- Skip the rest of the run, then go on. -/
  go (t : Nat) : List (Nat × List Byte) → List Byte
    | [] => []
    | (u, r) :: l =>
      if u = t then go t l
      else
        let same := l.takeWhile (fun p => decide (p.1 = u))
        let data := r ++ same.flatMap Prod.snd
        beBytes 2 u ++ beBytes 2 data.length ++ data ++ go u l

/-- A stream's record of section 8, read from its live entry. -/
def State.streamRecord (s : State) (n : Nat) : List Byte :=
  let x := s.stream n
  beBytes 4 n ++ [BitVec.ofNat 8 x.st.code, x.status.code, 0, 0] ++ beBytes 4 x.lastAcc.toNat ++ beBytes 4 x.lastEm.toNat

/-- A kept snapshot's records with the streams read now. -/
def State.snapRecords (s : State) (k : Kept) : List (Nat × List Byte) :=
  k.records ++ (k.ids.map (fun l => recordsOf 8 (l.map s.streamRecord))).getD []

/-- The body of a page (R305) and the number of pages. (DEDUCED, log 27) -/
def State.snapPage (s : State) (room : Nat) (k : Kept) (page : Nat) : List Byte × Nat :=
  let pages := paginate (room - 16) (s.snapRecords k) 0 []
  (beBytes 4 k.id ++ beBytes 2 page ++ beBytes 2 pages.length ++ beBytes 8 0 ++ sectionBytes (pages.getD page []), pages.length)

/-- The flags of a page's response: more is 1 on every page but the last. -/
def moreFlag (page pages : Nat) : Nat := if page + 1 < pages then 2 else 0

/-- RESYNC's own checks and effect (R304, R305). -/
def resyncOwn (h : CmdHdr) (body : List Byte) (s : State) : Act :=
  let q := s.sess h.session
  let page := fld body 0 2
  let stall := fld body 4 4
  let id := fld body 8 4
  let room := s.maxBody h.session
  let named : Bool := match q.stall with
    | some k => decide (stall ≠ k ∧ stall ≠ 2 ^ 32 - 1)
    | none => false
  if named then .no .noRight
  else if page = 0 then
    let pick := match q.stall with
      | some k => some k
      | none => if stall = 2 ^ 32 - 1 then none else some stall
    let ids := if bitAt (fld body 2 2) 0 then
        some ((s.streams.filter (fun p => decide (p.2.st ≠ .free) && (pick.isNone || decide (pick = some p.2.stall)))).map Prod.fst)
      else none
    let kept : Kept := { id := s.clerk.nextSnap, records := s.snapshot h.session, ids := ids }
    let (b, n) := s.snapPage room kept 0
    .done (fun s => (s.modSess h.session (fun q => { q with snap := some kept })).modClerk
        (fun c => { c with nextSnap := nextId c.nextSnap })) (fun _ => b) (moreFlag 0 n)
  else
    let held := (q.snap.map (·.id)).getD 0
    match q.snap with
    | none => .conflict [⟨6, 0, 0, 0⟩]
    | some k =>
      if id ≠ held then .conflict [⟨6, 0, held, 0⟩]
      else
        let (b, n) := s.snapPage room k page
        if n ≤ page then .no .badDescriptor else .done id' (fun _ => b) (moreFlag page n)
where
  /-- No effect. -/
  id' (s : State) : State := s

/-- RESYNC's row of Table 14.1 and its layout. -/
def resyncShape (body : List Byte) : Shape :=
  { opcode := 0x02, role := 1, scope := .either, lenOk := decide (body.length = 16),
    fields := decide (fld body 2 2 < 2) && zeros body 12 4 && decide (fld body 4 4 < Config.nStalls ∨ fld body 4 4 = 2 ^ 32 - 1) &&
      decide (fld body 0 2 = 0 → fld body 8 4 = 0) }

/-- RESYNC (R304, R305). -/
def execResync (h : CmdHdr) (body : List Byte) (s : State) : Host.Outcome State Fault Refusal :=
  run s (clerk (resyncShape body) h body.length (resyncOwn h body))

/-! ## ROLE_ASSERT (R315, R431 to R433) -/

/-- The credential verifies against a slot (R431); an unset slot matches nothing (R432). (DEDUCED, log 26) -/
def Cred.matches (c : Cred) (cred : List Byte) : Bool :=
  decide (c.ver ≠ 0) && decide (1 ≤ cred.length ∧ cred.length ≤ 64) && decide (verifier (leBytes 16 c.salt.toNat) cred = leBytes 32 c.ver.toNat)

/-- The credential slots of the configuration record. -/
def State.cred (s : State) (i : Nat) : Cred := s.flash.cfg.creds.getD i {}

/-- Set a session's role. (DEDUCED, log 26) -/
def State.setRole (s : State) (k role : Nat) (peer : Bool) : State :=
  s.modSess k (fun q => { q with role := role, peer := peer })

/-- A failed credential (R315, R454): counted, and at the eighth in a row the lockout begins, with its audit record. (DEDUCED, log 26) -/
def State.credFailed (s : State) : State :=
  let run := s.sec.failRun + 1
  let s := s.modSec (fun c => { c with failRun := run, credFail := true, credFails := c.credFails + 1 })
  if run < 8 then s
  else (s.modSec (fun c => { c with lockout := true })).audit 6 0 0 0 none none 0 (leBytes 4 run)

/-- ROLE_ASSERT's own checks: what the credential grants (R315, R431, R432). (DEDUCED, log 26) -/
def roleAssertOwn (h : CmdHdr) (body : List Byte) (s : State) : Act :=
  let q := s.sess h.session
  let role := fld body 0 1
  let cred := body.drop 4
  let grant := fun (peer : Bool) (f : State → State) =>
    Act.ok (fun s => (f s).setRole h.session role peer) [BitVec.ofNat 8 role, 0, 0, 0]
  let passed := fun (s : State) => s.modSec (fun c => { c with failRun := 0 })
  if role ≤ q.role then grant q.peer id
  else if role = 3 then .no .badDescriptor
  else if (s.cred (role - 1)).ver = 0 ∧ cred = [] then grant false id
  else if s.sec.lockout then .no .busy
  else if (s.cred (role - 1)).matches cred then grant false passed
  else if role = 2 ∧ (s.cred 2).matches cred then grant true passed
  else .refuse .noRight [] State.credFailed

/-- ROLE_ASSERT's row of Table 14.1 and its layout; the audit detail holds zeros for the credential (Table 19.6). -/
def roleAssertShape (h : CmdHdr) (body : List Byte) : Shape :=
  { opcode := 0x03, role := 0, scope := .either, lenOk := decide (4 ≤ body.length ∧ body.length = 4 + fld body 1 1),
    fields := decide (fld body 0 1 ≤ 3 ∧ fld body 1 1 ≤ 64) && zeros body 2 2, audited := true, auditRefused := true,
    detail := hdrRaw 0x03 h ++ body.take 4 ++ List.replicate (body.length - 4) 0, peerOk := true }

/-- ROLE_ASSERT (R315). -/
def execRoleAssert (h : CmdHdr) (body : List Byte) (s : State) : Host.Outcome State Fault Refusal :=
  run s (clerk (roleAssertShape h body) h body.length (roleAssertOwn h body))

/-! ## HEARTBEAT (R302) -/

/-- HEARTBEAT's row of Table 14.1, its layout and the periods R302 allows. -/
def heartbeatShape (body : List Byte) : Shape :=
  { opcode := 0x74, role := 0, scope := .either, lenOk := decide (body.length = 4),
    fields := decide (fld body 0 2 % 10 = 0 ∧ fld body 0 2 ≤ 250) && zeros body 2 2, peerOk := true }

/-- HEARTBEAT's effect: the session's period. -/
def heartbeatOwn (h : CmdHdr) (body : List Byte) (_s : State) : Act :=
  .ok (fun s => s.modSess h.session (fun q => { q with hbPeriod := fld body 0 2 / 10 })) []

/-- HEARTBEAT (R302). -/
def execHeartbeat (h : CmdHdr) (body : List Byte) (s : State) : Host.Outcome State Fault Refusal :=
  run s (clerk (heartbeatShape body) h body.length (heartbeatOwn h body))

end Sys2Proof.Machine
end

