-- ==== Sys2Proof/Machine/FrameBytes.lean ====
section
/-! DEFINITION. The bytes of a received Ethernet frame: its check sequence and the headers of Ethernet, ARP, IP, ICMP, UDP and MAC
control, whose layouts are those of their own standards (R257 to R259). (PRESUMED, log 145) -/

namespace Sys2Proof.Machine

/-- One bit of CRC-32 of IEEE 802.3, reflected. -/
def fcsBit (c : BitVec 32) : BitVec 32 := if c.getLsbD 0 then (c >>> 1) ^^^ 0xEDB88320#32 else c >>> 1

/-- The frame check sequence of IEEE 802.3, its least significant byte first. -/
def fcs (b : List Byte) : List Byte :=
  leBytes 4 ((b.foldl (fun c x => Nat.repeat fcsBit 8 (c ^^^ x.setWidth 32)) 0xFFFFFFFF#32) ^^^ 0xFFFFFFFF#32).toNat

/-- The one's complement checksum of IP and UDP over big-endian 16-bit words. -/
def checksum (b : List Byte) : Nat :=
  let t := ((List.range ((b.length + 1) / 2)).map (fun i => fld (b ++ [0]) (2 * i) 2)).sum
  65535 - (if t = 0 then 0 else (t - 1) % 65535 + 1)

/-- The pseudo-header of UDP and ICMPv6 over IP addresses in network byte order. -/
def pseudoHeader (src dst : List Byte) (proto len : Nat) : List Byte :=
  src ++ dst ++ (if src.length = 4 then [0, BitVec.ofNat 8 proto] ++ beBytes 2 len else beBytes 4 len ++ [0, 0, 0, BitVec.ofNat 8 proto])

/-- An ARP packet: a request for an IPv4 address over Ethernet. -/
def arpBody (p : List Byte) : FrameBody :=
  if fld p 0 2 = 1 ∧ fld p 2 2 = 0x0800 ∧ fld p 4 1 = 6 ∧ fld p 5 1 = 4 ∧ fld p 6 2 = 1 then
    .arp (BitVec.ofNat 32 (fld p 14 4)) (BitVec.ofNat 32 (fld p 24 4))
  else .other

/-- A MAC control frame: PAUSE or priority flow control. -/
def controlBody (p : List Byte) : FrameBody :=
  if fld p 0 2 = 0x0101 then .pfc (BitVec.ofNat 8 (fld p 3 1)) ((List.range 8).map (fun i => fld p (4 + 2 * i) 2))
  else if fld p 0 2 = 1 then .pause else .other

/-- What an IPv4 packet carries. -/
def ip4Body (p : List Byte) : FrameBody :=
  let head := 4 * (fld p 0 1 % 16)
  let q := (p.take (fld p 2 2)).drop head
  let src := BitVec.ofNat 32 (fld p 12 4)
  let dst := BitVec.ofNat 32 (fld p 16 4)
  if fld p 0 1 / 16 ≠ 4 ∨ checksum (p.take head) ≠ 0 then .other
  else if fld p 9 1 = 17 then
    .udp4 src dst (BitVec.ofNat 16 (fld q 0 2)) (BitVec.ofNat 16 (fld q 2 2)) (fld q 4 2)
      (decide (fld q 6 2 = 0) || decide (checksum (pseudoHeader ((p.drop 12).take 4) ((p.drop 16).take 4) 17 q.length ++ q) = 0)) (q.drop 8)
  else if fld p 9 1 = 1 ∧ fld q 0 1 = 8 ∧ checksum q = 0 then .echo4 src dst (q.drop 4)
  else .other

/-- What an IPv6 packet carries. -/
def ip6Body (p : List Byte) : FrameBody :=
  let q := (p.drop 40).take (fld p 4 2)
  let src := BitVec.ofNat 128 (fld p 8 16)
  let dst := BitVec.ofNat 128 (fld p 24 16)
  let sum := fun (proto : Nat) => checksum (pseudoHeader ((p.drop 8).take 16) ((p.drop 24).take 16) proto q.length ++ q)
  if fld p 0 1 / 16 ≠ 6 then .other
  else if fld p 6 1 = 17 then
    .udp6 src dst (BitVec.ofNat 16 (fld q 0 2)) (BitVec.ofNat 16 (fld q 2 2)) (fld q 4 2) (decide (fld q 6 2 = 0) || decide (sum 17 = 0)) (q.drop 8)
  else if fld p 6 1 = 58 ∧ sum 58 = 0 then
    if fld q 0 1 = 128 then .echo6 src dst (q.drop 4)
    else if fld q 0 1 = 135 then .nd src (BitVec.ofNat 128 (fld q 8 16))
    else .other
  else .other

/-- IPv6 next headers that are extension headers. -/
def extensionHeaders : List Nat := [0, 43, 44, 50, 51, 60, 135]

/-- A frame read from its bytes, destination address to FCS. (PRESUMED, log 145) -/
def frameOf (b : List Byte) : Frame :=
  let tagged := decide (fld b 12 2 = 0x8100)
  let type := fld b (if tagged then 16 else 12) 2
  let p := (b.take (b.length - 4)).drop (if tagged then 18 else 14)
  { fcsOk := decide (fcs (b.take (b.length - 4)) = b.drop (b.length - 4)), dst := BitVec.ofNat 48 (fld b 0 6),
    src := BitVec.ofNat 48 (fld b 6 6), vlan := if tagged then some (BitVec.ofNat 12 (fld b 14 2)) else none, length := b.length,
    fragment := (decide (type = 0x0800) && decide (fld p 6 2 % 2 ^ 14 ≠ 0)) || (decide (type = 0x86DD) && decide (fld p 6 1 = 44)),
    options := (decide (type = 0x0800) && decide (5 < fld p 0 1 % 16)) || (decide (type = 0x86DD) && extensionHeaders.contains (fld p 6 1)),
    body := if type = 0x0806 then arpBody p else if type = 0x8808 then controlBody p else if type = 0x0800 then ip4Body p
      else if type = 0x86DD then ip6Body p else .other }

end Sys2Proof.Machine

namespace Sys2Proof

/-- The frame as its bytes say, where they are given. (PRESUMED, log 145) -/
def Frame.read (f : Frame) : Frame :=
  if f.bytes = [] then f else { Machine.frameOf f.bytes with fecCorr := f.fecCorr, fecUncorr := f.fecUncorr }

end Sys2Proof
end

