-- ==== Sys2Proof/Machine/StreamOps.lean ====
section
/-! DEFINITION. What the commands share about one stream: the journal, the folio slot, the egress samples, the export
image, queueing, and the two ways a STREAM_END takes effect. -/

namespace Sys2Proof.Machine

/-! ## Chunks as bytes (R28, R353) -/

/-- A feature token as stored, little-endian (Table 2.1). -/
def tokenBytes (t : FToken) : List Byte :=
  leBytes 2 t.phone.toNat ++ leBytes 2 t.duration.toNat ++ leBytes 2 t.pitch0.toNat ++ leBytes 2 t.pitch1.toNat ++
    [t.energy, t.emphasis, t.flags, t.rsv] ++ leBytes 2 t.condA.toNat ++ leBytes 2 t.condB.toNat

/-- A journal record: the chunk header and its tokens, little-endian (R353). -/
def recordBytes (n : Nat) (c : HeldChunk) : List Byte :=
  leBytes 4 n ++ leBytes 4 c.seq.toNat ++ leBytes 2 c.tokens.length ++ leBytes 6 0 ++ c.tokens.flatMap tokenBytes

/-- The VCT engine, or Palhani, writes a held chunk's tokens into its buffers, 32 to a buffer, little-endian (R28, R244).
(DESIGN CHOICE, log 62) -/
def State.storeTokens (s : State) (n : Nat) (c : HeldChunk) : State :=
  let keys := if c.floor then [floorKey n] else c.bufs.map (fun b => sharedKey b.1 b.2)
  let m := ((List.range keys.length).zip keys).foldl (fun m (p : Nat × Nat) =>
    mwrite m p.2 (((c.tokens.drop (32 * p.1)).take 32).flatMap tokenBytes)) s.mem
  { s with mem := m }

/-- Bytes of a record. -/
def recordSize (c : HeldChunk) : Nat := 16 + 16 * c.tokens.length

/-- Frames a list of tokens occupies (R31). -/
def frames (ts : List FToken) : Nat := (ts.map (fun t => t.duration.toNat)).sum

/-- A token read back from its little-endian bytes. -/
def tokenOf (b : List Byte) : FToken :=
  { phone := BitVec.ofNat 16 (lfld b 0 2), duration := BitVec.ofNat 16 (lfld b 2 2), pitch0 := BitVec.ofNat 16 (lfld b 4 2),
    pitch1 := BitVec.ofNat 16 (lfld b 6 2), energy := b.getD 8 0, emphasis := b.getD 9 0, flags := b.getD 10 0,
    rsv := b.getD 11 0, condA := BitVec.ofNat 16 (lfld b 12 2), condB := BitVec.ofNat 16 (lfld b 14 2) }

/-- Feed buffers that a stream's chunks and fetch hold. (DEDUCED, log 53) -/
def Stream.feedUnits (x : Stream) : Nat :=
  (x.chunks.map HeldChunk.held).sum + match x.fetch with | some f => bufCount f.bufs | none => 0

/-! ## The feature journal (R353, R354) -/

/-- A journal slot's bytes (Table 15.4 and its records). -/
def journalBytes (n : Nat) (j : Journal) : List Byte :=
  leBytes 8 j.firstFrame ++ leBytes 8 j.replayMark ++ leBytes 4 ((j.records.map recordSize).sum) ++
    leBytes 4 j.firstSeq.toNat ++ [if j.complete then 1 else 0] ++ List.replicate 39 0 ++ j.records.flatMap (recordBytes n)

/-- Write a journal slot, in its table and in the journal region of space 0: the stream's memory-edge porter moves it as class 5
(R354). (DESIGN CHOICE, log 147) -/
def State.writeJournal (s : State) (n : Nat) (j : Journal) : State :=
  let a := Config.journalBase + n * Config.journalSlot
  let bs := journalBytes n j
  let m := if s.stoppedGranules a Config.journalSlot = [] then mclear s.mem a Config.journalSlot else s.mem
  (({ s.putJournal n j with mem := m }).bulkWrite a bs).countMove (20 + n % 4) 5 a bs.length

/-- Samples in one frame of a stream's voice. -/
def State.hopOf (s : State) (n : Nat) : Nat := (s.voice (s.stream n).voice).hop

/-- Drop one record from the front. -/
def Journal.drop (j : Journal) : Journal :=
  match j.records with
  | [] => j
  | c :: cs => { j with records := cs, firstFrame := c.frame0 + frames c.tokens, firstSeq := c.seq + 1 }

/-- Drop the records whose tokens all end before frame `f`. -/
def Journal.trim (f : Nat) : Nat → Journal → Journal
  | 0, j => j
  | k + 1, j =>
    match j.records with
    | [] => j
    | c :: _ => if c.frame0 + frames c.tokens ≤ f then Journal.trim f k j.drop else j

/-- Drop records from the front until `size` more bytes fit; says whether one with a frame at or past `f` was lost. -/
def Journal.makeRoom (f size : Nat) : Nat → Journal → Bool → Journal × Bool
  | 0, j, lost => (j, lost)
  | k + 1, j, lost =>
    match j.records with
    | [] => (j, lost)
    | c :: _ =>
      if (j.records.map recordSize).sum + size ≤ Config.journalCap then (j, lost)
      else Journal.makeRoom f size k j.drop (lost || decide (f < c.frame0 + frames c.tokens))

/-- Append an accepted chunk; an overflow that clears `complete` is counted and reported (R354, Table 15.2). (DEDUCED, log 48) -/
def State.journalAppend (s : State) (n : Nat) (c : HeldChunk) : State :=
  let j := s.journal n
  let f := j.replayMark / max 1 (s.hopOf n)
  let (j, lost) := j.makeRoom f (recordSize c) (j.records.length + 1) false
  let j := if j.records = [] then { j with firstFrame := c.frame0, firstSeq := c.seq } else j
  let ovf := lost && j.complete
  let j := { j with records := j.records ++ [c], complete := j.complete && !lost }
  let s := s.writeJournal n j
  if ovf then
    (s.modClerk (fun k => { k with jrnlOvf := k.jrnlOvf + 1 })).raise 0
      { seq := 0, source := 0, status := .noResource, event := 0x0072, stall := some (s.stream n).stall, stream := some n,
        arg := BitVec.ofNat 64 (j.firstFrame % 2 ^ 48) }
  else s

/-- A stream's resume position (R354). -/
def State.resumeAt (s : State) (n : Nat) : Nat :=
  let e := s.egr n
  if e.kind = 3 then (s.stream n).samples else e.lastSent

/-- The greatest applied mark at or below a position. -/
def lastMarkAt (marks : List Nat) (p : Nat) : Option Nat := (marks.filter (· ≤ p)).getLast?

/-- Raise replay_mark to the greatest applied mark the resume position has passed, and trim (R354). A FREE stream has no
journal any more. -/
def State.raiseReplayMark (s : State) (n : Nat) : State :=
  let j := s.journal n
  if (s.stream n).st = .free then s else
  match lastMarkAt (s.egr n).marks (s.resumeAt n) with
  | none => s
  | some m =>
    if j.replayMark < m then
      let hop := max 1 (s.hopOf n)
      let j := Journal.trim (m / hop) j.records.length { j with replayMark := m }
      s.writeJournal n { j with complete := j.complete || decide (j.firstFrame * hop ≤ m) }
    else s

/-! ## The folio (R224 to R226) -/

/-- Key of a folio slot's first byte (Table 10.1). -/
def folioAddr (n : Nat) : Nat := n * Config.folioBytes

/-- Key of a pitch's first byte (R231, Table 9.3). -/
def pitchAddr (p : Nat) : Nat := addrWord 1 0 (p * Config.hotBytes)

/-- Key of a park record's first byte (Table 17.1). -/
def parkAddr (n : Nat) : Nat := addrWord 3 0 (n * Config.folioBytes)

/-- The hub porter's copy of a whole folio slot into the stream's park record: system traffic of class 6 (R397). (DESIGN
CHOICE, log 70) -/
def parkCopy (n : Nat) : Desc :=
  { op := 0, sys := true, cls := 6, src := BitVec.ofNat 64 (folioAddr n), dst := BitVec.ofNat 64 (parkAddr n), count0 := Config.folioBytes }

/-- The hub porter's copy of a park record back into the folio slot (R211, R398). (DESIGN CHOICE, log 70) -/
def parkRead (n : Nat) : Desc := { parkCopy n with src := BitVec.ofNat 64 (parkAddr n), dst := BitVec.ofNat 64 (folioAddr n) }

/-- The clerk gives the hub porter a copy to or from record `n`, the copies of one record in one queue. (DESIGN CHOICE, log 70) -/
def State.hubPush (s : State) (n : Nat) (d : Desc) : State := s.pushDesc .clerk 24 (n % 128) d

/-- The base a voice was compiled against, by its hash. -/
def State.baseOf (s : State) (v : Voice) : Base :=
  ((s.bases.find? (fun p => p.2.used && decide (p.2.hash = v.baseHash))).map Prod.snd).getD {}

/-- The package of a voice's base, from the library. -/
def State.basePackage (s : State) (v : Voice) : List Byte := (s.lib (s.baseOf v).entry).bytes

/-- The folio header of a stream (Table 10.2). -/
def folioHeader (x : Stream) (hash : BitVec 256) (hot cold : Nat) : List Byte :=
  leBytes 4 0x4F465856 ++ leBytes 2 1 ++ [3, if x.scan then 1 else 0] ++ leBytes 4 x.origin ++ leBytes 4 hot ++
    leBytes 8 x.seed.toNat ++ leBytes 8 x.samples ++ leBytes 8 x.lastMark ++ leBytes 4 x.lastEm.toNat ++ leBytes 4 cold ++
    wordBytes hash ++ List.replicate 176 0

/-- Addresses, within the state section, and values of the exponent bytes of a base's initial BF-blocks (R108). -/
def initExponents (ops : List LayerOp) : List (Nat × Byte) :=
  ops.flatMap (fun o => match o with
    | .modal m _ off _ => (List.range (modalBlocks m)).map (fun i => (off + 66 * i + 64, m.e0))
    | _ => [])

/-- Write one byte of an initial state; in a die in reset it waits (R424). -/
def State.initByte (s : State) (a : Nat) (v : Byte) : State :=
  if s.stoppedGranules a 1 = [] then { s with mem := mset s.mem a v }
  else { s with heldMoves := s.heldMoves ++ [{ addr := a, len := 1, bytes := some [v] }] }

/-- Write the initial folio of a stream into its slot: the whole slot, so that poison in it goes (R53, R226, R236). -/
def State.initFolio (s : State) (n : Nat) : State :=
  let x := s.stream n
  let v := s.voice x.voice
  let b := s.basePackage v
  forEach (fun s e => s.initByte (folioAddr n + 256 + e.1) e.2) (initExponents (imageOps b))
    (s.bulkInit (folioAddr n) Config.folioBytes (folioHeader x v.hash (hotStateOf b) (coldBytesOf b)))

/-- The header at a key passes R227 for the stream; `origin` says whether origin_id is compared (R239). -/
def State.headerOk (s : State) (a : Nat) (x : Stream) (origin : Bool) : Bool :=
  let b := mread s.mem a 256
  decide (lfld b 0 4 = 0x4F465856 ∧ lfld b 4 2 = 1 ∧ lfld b 6 1 = 3 ∧ lfld b 7 1 = b2n x.scan) &&
    decide (lfld b 8 4 / 2 ^ 18 = 0 ∧ lfld b 24 8 / 2 ^ 48 = 0 ∧ lfld b 32 8 / 2 ^ 48 = 0) &&
    decide ((b.drop 48).take 32 = wordBytes (s.voice x.voice).hash) && (b.drop 80).all (· == 0) &&
    (!origin || decide (lfld b 8 4 = x.origin))

/-! ## Egress samples (R248, R280) -/

/-- Output rate of an egress entry in Hz: G.711 is 8 kHz, a slot runs at its port's frame rate. -/
def State.outRate (s : State) (e : Egress) : Nat :=
  if e.kind = 1 then (s.sap (e.index / 128)).rate
  else if e.kind = 3 then e.rVoice
  else e.netRate

/-- The first voice-rate position that output `m` reads, not below the latest applied mark at or below it (R280). -/
def firstRead (marks : List Nat) (P Q m : Nat) : Nat :=
  let at_ := m * Q / P
  let b := (lastMarkAt marks at_).getD 0
  if P = Q then at_ else max b (ceilDiv (m * Q - 24 * max P Q) P)

/-- The first voice-rate position that an output not yet sent reads. -/
def State.firstNeeded (s : State) (e : Egress) : Nat :=
  let r := ratio (s.outRate e) e.rVoice
  if e.kind = 3 then e.lastSent else firstRead e.marks r.1 r.2 (e.lastSent * r.1 / max 1 r.2)

/-- The voice-rate sample at a position, if the formatter holds it. -/
def Egress.sample (e : Egress) (p : Nat) : Option Int :=
  match e.hist.find? (fun h => decide (h.1 = p)) with
  | some h => some h.2
  | none => e.bufs.findSome? (fun b => if b.pos ≤ p ∧ p < b.pos + b.samples.length then (b.samples[p - b.pos]?).map Prod.fst else none)

/-- When the sample at a position arrived. (DEDUCED, log 72) -/
def Egress.arrived (e : Egress) (p : Nat) : Option Nat :=
  e.bufs.findSome? (fun b => if b.pos ≤ p ∧ p < b.pos + b.samples.length then (b.samples[p - b.pos]?).map Prod.snd else none)

/-- Shared egress buffers in use: those of every entry but its floor buffer. -/
def State.sharedUsed (s : State) : Nat :=
  49152 - s.clerk.egrFree - (s.egress.filter (fun e => e.2.bufs.any (·.floor))).length

/-- A shared egress buffer is free: the pool less the 16,384 that can be reserved as floors (R248, Table 11.1). -/
def State.sharedEgress (s : State) : Bool := decide (s.sharedUsed < 32768)

/-- One past the last voice-rate sample the formatter holds. -/
def Egress.have_ (e : Egress) : Nat :=
  match e.bufs.getLast? with
  | some b => b.pos + b.samples.length
  | none => match e.hist.getLast? with
    | some h => max e.lastSent (h.1 + 1)
    | none => e.lastSent

/-- The position up to which the samples of an entry make packets that could leave: all of them once the stream has ended
gracefully (R277), else those of complete packets. -/
def Egress.whole (e : Egress) : Nat :=
  let c := match e.final with
    | some c => c
    | none => packetFloor e e.have_
  match e.cutTo with
  | some d => min c d
  | none => c

/-- Samples that an entry's buffers hold below position `p` and that have not been released. -/
def Egress.heldBelow (e : Egress) (p : Nat) : Nat :=
  (e.bufs.map (fun b => min p (b.pos + b.samples.length) - max e.released b.pos)).sum

/-- Append a sample to the last run, if it continues it and the run's buffer has room; `floors` says whether that buffer may
be the floor. -/
def appendSample (p : Nat) (v : Int) (now : Nat) (floors : Bool) : List EgrBuf → Option (List EgrBuf)
  | [] => none
  | [b] =>
    if b.samples.length < 512 ∧ p = b.pos + b.samples.length ∧ (!b.floor || floors) then
      some [{ b with samples := b.samples ++ [(v, now)] }]
    else none
  | b :: bs => (appendSample p v now floors bs).map (b :: ·)

/-- Samples in an entry's floor buffer. -/
def Egress.floorFill (e : Egress) : Nat := ((e.bufs.filter (·.floor)).map (fun b => b.samples.length)).sum

/-- The egress stage can write a sample: into the stream's shared buffer with room, a free shared buffer or the stream's
floor (R248). (DEDUCED, log 71) -/
def State.canWriteSample (s : State) (n p : Nat) : Bool :=
  let e := s.egr n
  decide (e.kind = 3) || decide (p < s.firstNeeded e) || (appendSample p 0 0 false e.bufs).isSome || s.sharedEgress || (e.floorRsv && decide (e.floorFill < 512))

/-- A sample at a mark of the quire has reached the formatter: from here on the mark is an applied one (R280). -/
def State.applyMark (s : State) (n p : Nat) : State :=
  if ((s.stream n).quire.map (·.marks)).getD [] |>.contains p then s.modEgr n (fun e => { e with marks := e.marks ++ [p] }) else s

/-- The positions before one that an output of any rate still reads: 24 · 6 (R280). -/
def pastSpan : Nat := 144

/-- The last samples that an entry holds or has released, which an output sent later may read (R280). -/
def Egress.past (e : Egress) : List (Nat × Int) :=
  let all := e.hist ++ e.bufs.flatMap (fun b => ((List.range b.samples.length).zip (b.samples.map Prod.fst)).map (fun q => (b.pos + q.1, q.2)))
  all.filter (fun h => decide (e.have_ ≤ h.1 + pastSpan))

/-- A sample of an unbound stream is discarded as if sent; a binding made later reads it as history (R323, R280). -/
def Egress.discard (e : Egress) (p : Nat) (v : Int) : Egress :=
  { e with lastSent := max e.lastSent (p + 1), released := max e.released (p + 1),
           hist := (e.hist ++ [(p, v)]).filter (fun h => decide (p + 1 ≤ h.1 + pastSpan)),
           marks := e.marks.filter (fun m => decide ((lastMarkAt e.marks (p + 1 - pastSpan)).getD 0 ≤ m)) }

/-- Write a voice-rate sample of stream `n` at position `p` (R248): into a shared buffer whenever one is free, into the
floor only when none is. An unbound stream's samples are released as if sent (R323), and so is a sample that no output still
to be sent reads, such as those before the resume position of a replay (R351). -/
def State.writeSample (s : State) (n p : Nat) (v : Int) : State :=
  let s := s.applyMark n p
  let e := s.egr n
  if e.kind = 3 then s.putEgr n (e.discard p v)
  else if p < s.firstNeeded e then s.putEgr n { e with released := max e.released (p + 1) }
  else match appendSample p v s.now (!s.sharedEgress) e.bufs with
    | some bufs => s.putEgr n { e with bufs := bufs }
    | none =>
      let e2 := { e with bufs := e.bufs ++ [{ pos := p, samples := [(v, s.now)], floor := !s.sharedEgress }] }
      let more := e2.held - e.held
      let s := s.putEgr n e2
      (s.modClerk (fun k => { k with egrFree := k.egrFree - more })).modStall e.stall (fun t => { t with egress := t.egress + more })

/-- The quire's last sample has left: the egress floor reservation is released (R248). While the stream is staged or its quire
still runs, that sample has not been written. -/
def Egress.settleFloor (e : Egress) (runs : Bool) : Egress :=
  if e.floorRsv ∧ ¬runs ∧ (e.kind = 3 ∨ e.quireEnd ≤ e.released) then { e with floorRsv := false } else e

/-- Release the buffers whose samples all lie below position `p`: samples that R280 still reads move to the formatter's
history, the buffers return to the pool (R248). -/
def State.releaseEgress (s : State) (n p : Nat) : State :=
  let e := s.egr n
  let gone := e.bufs.filter (fun b => decide (b.pos + b.samples.length ≤ p))
  let e1 := { e with released := max e.released p }
  let need := s.firstNeeded e1
  let moved := gone.flatMap (fun b => (List.range b.samples.length).zip (b.samples.map Prod.fst) |>.map (fun q => (b.pos + q.1, q.2)))
  let keep := e.marks.filter (fun m => decide ((lastMarkAt e.marks p).getD 0 ≤ m))
  let e2 := { e1 with
    bufs := e.bufs.filter (fun b => decide (p < b.pos + b.samples.length)),
    hist := (e.hist ++ moved).filter (fun h => decide (need ≤ h.1)), marks := keep }
  (s.putEgr n (e2.settleFloor (s.stream n).quireAhead)).giveEgress e.stall (e.held - e2.held)

/-! ## Queueing (R65, R93) -/

/-- A stream becomes QUEUED, bound to a row that hosts its voice (R42), and takes its place in the order of R93. -/
def State.queue (s : State) (n : Nat) : State :=
  ((s.rebind n).modStream n (fun x => { x with st := .queued, queuedAt := s.stamp })).tick

/-- An IDLE or PARKED stream that has become eligible goes to QUEUED; a park write under way will be discarded (R405). -/
def State.wake (s : State) (n : Nat) : State :=
  let x := s.stream n
  if (x.st = .idle ∨ x.st = .parked) ∧ ¬x.paused ∧ 0 < x.pendFrames then (s.discardPark n .stateConflict).queue n else s

/-! ## The export image (R326, R365) -/

/-- The egress tail (Table 15.7). -/
def State.tailBytes (s : State) (n : Nat) : List Byte :=
  let e := s.egr n
  let stop := (s.stream n).samples
  let first := min stop (s.firstNeeded e)
  let count := if e.kind = 3 then 0 else stop - first
  let marks := e.marks.filter (fun m => decide (first < m ∧ m ≤ stop))
  leBytes 8 first ++ leBytes 4 count ++ leBytes 4 marks.length ++ marks.flatMap (leBytes 8) ++
    (List.range count).flatMap (fun i => leBytes 2 (((e.sample (first + i)).getD 0) % 65536).toNat)

/-- The folio as an image holds it: the slot, or the park record when in_flash = 1 (R326). -/
def State.folioImage (s : State) (n : Nat) : List Byte :=
  mread s.mem (if (s.stream n).inFlash then parkAddr n else folioAddr n) Config.folioBytes

/-- An export image's bytes, padded to whole entries (Table 15.7). -/
def State.imageBytes (s : State) (n : Nat) : List Byte :=
  let b := s.folioImage n ++ (s.stream n).chunks.flatMap (recordBytes n) ++ s.tailBytes n
  b ++ List.replicate ((512 - b.length % 512) % 512) 0

/-- The address and VCT port by which a peer reaches an export: the port of the session that asked for it. -/
def State.portAddr (s : State) (p : Nat) : Nat :=
  let t := s.net p
  if t.ipv4 ≠ 0 then 0xFFFF * 2 ^ 32 + t.ipv4.toNat else t.ipv6.toNat

/-- The export descriptor (Table 14.3). -/
def State.exportDescriptor (s : State) (n handle bytes port : Nat) (move : Bool) : List Byte :=
  let x := s.stream n
  let mk := fun i => beBytes 8 (x.marks.getD i 0)
  beBytes 4 handle ++ beBytes 4 n ++ wordBytes (s.voice x.voice).hash ++ beBytes 8 x.samples ++ beBytes 8 x.lastMark ++
    beBytes 4 x.lastAcc.toNat ++ beBytes 4 x.lastEm.toNat ++ mk 0 ++ mk 1 ++ mk 2 ++ [BitVec.ofNat 8 x.marks.length] ++
    [BitVec.ofNat 8 (b2n x.scan + 2 * b2n move + 4 * b2n x.paused)] ++ beBytes 2 0 ++ beBytes 4 x.pendFrames ++
    beBytes 4 x.chunks.length ++ beBytes 4 x.origin ++ beBytes 8 x.seed.toNat ++ beBytes 4 x.ssrc.toNat ++
    wordsBE (egressWords (s.egr n)) ++ beBytes 4 bytes ++ beBytes 16 (s.portAddr port) ++
    beBytes 2 (bits (s.net port).ports.toNat 15 0) ++ beBytes 2 0

/-- Export images held (HUB_EXPORTS_HELD). -/
def State.exportsHeld (s : State) : Nat := (s.exports.filter (fun p => p.2.held)).length

/-- The lowest handle with no image; none where 1,024 images are held (R326). (DESIGN CHOICE, log 162) -/
def State.freeHandle (s : State) : Option Nat :=
  if 1024 ≤ s.exportsHeld then none else findFrom (fun h => !(s.img h).held) 1024 1

/-- Freeze a stream's image (R326): hold it under a handle, and on a move free the stream. Gives the descriptor. -/
def State.freeze (s : State) (n handle port : Nat) (move : Bool) : List Byte × State :=
  let img := s.imageBytes n
  let d := s.exportDescriptor n handle img.length port move
  let x := s.stream n
  let s := s.putImg handle { held := true, bytes := img }
  let s := if x.inFlash then s.modWear (fun w => w.readAll n) else s.readSpan (folioAddr n) Config.folioBytes (some x.stall) (some n)
  if move then
    (d, (s.freeStream n .ok (x.marks.length + x.dropped) true .drop).modStream n (fun y => { y with movedBy := some x.stall }))
  else (d, s)

/-- Some granule of the slot that a stream's image would be taken from is uncorrectable. -/
def State.imagePoisoned (s : State) (n : Nat) : Bool := !(s.stream n).inFlash && s.anyPoison (folioAddr n) Config.folioBytes

/-- A read of the folio found it uncorrectable: counted, and the stream faults (Table 10.5, R236). -/
def State.readFault (s : State) (n : Nat) : State :=
  (s.readSpan (folioAddr n) Config.folioBytes (some (s.stream n).stall) (some n)).faultStream n .dataError 0 0

/-- A deferred export is served (R65): the descriptor answers it, and a move frees the stream. -/
def State.serveExport (s : State) (n : Nat) : State :=
  let x := s.stream n
  match x.deferExport with
  | none => s
  | some d =>
    if s.imagePoisoned n then s.readFault n
    else match s.freeHandle with
    | none => (s.modStream n (fun x => { x with exportReq := false, exportMove := false, deferExport := none })).respond d .noResource 1 []
    | some h =>
      let s := s.modStream n (fun x => { x with exportReq := false, exportMove := false, deferExport := none })
      let (body, s) := s.freeze n h (s.sess d.session).src.port x.exportMove
      let s := if x.exportMove then s.answerAll x.deferPause .ok (stateBody .free) else s
      s.respond d .ok 1 body

/-! ## Reaching FREE (R65) -/

/-- Reach FREE on a graceful or an abort end: a deferred PAUSE has taken effect, a pending export is refused with the
stream's state (R326). (DEDUCED, log 43) -/
def State.finish (s : State) (n : Nat) (st : Status) (act : EgrAct) : State :=
  let x := s.stream n
  let s := s.freeStream n st (x.marks.length + x.dropped) true act
  let no := conflictBytes [⟨1, 0, n, 0⟩]
  ((s.answerAll x.deferPause .ok (stateBody .free)).answer x.deferExport .stateConflict no).answer x.cancelled .stateConflict no

/-- A STREAM_END that is accepted cancels a pending move export (R326). -/
def State.cancelMove (s : State) (n : Nat) : State :=
  let x := s.stream n
  if x.exportReq ∧ x.exportMove then
    s.modStream n (fun x => { x with exportReq := false, exportMove := false, deferExport := none, cancelled := x.deferExport })
  else s

/-- A pending copy export is served before a STREAM_END frees the stream at once; the image of a stream whose pages are
not present cannot be frozen, and its export is refused with the stream (R65, R326). (DEDUCED, log 45) -/
def State.serveFirst (s : State) (n : Nat) : State :=
  let x := s.stream n
  if x.exportReq ∧ ¬x.exportMove ∧ x.res ≠ .remote then s.serveExport n else s

/-- A stream at rest ends at once, a pending copy export served first. Where that read finds the image uncorrectable, the
stream has faulted, and it ends with its status as a FAULTED one does. -/
def State.finishServed (s : State) (n : Nat) (act : EgrAct) : State :=
  let s := s.serveFirst n
  match (s.stream n).st with
  | .free => s
  | .faulted => s.finish n (s.stream n).status .drop
  | _ => s.finish n .ok act

/-- The graceful end of Table 3.4. (DEDUCED, log 45) -/
def State.endGraceful (s : State) (n : Nat) : State :=
  let s := s.cancelMove n
  let x := s.stream n
  match x.st with
  | .free => s
  | .faulted => s.finish n x.status .cut
  | .idle | .parked =>
    if x.pendFrames = 0 then s.finishServed n (.final x.samples)
    else
      let s := s.discardPark n .stateConflict
      (s.modStream n (fun x => { x with endReq := true, paused := false })).queue n
  | _ => s.modStream n (fun x => { x with endReq := true, paused := false })

/-- The abort end of Table 3.4: on a RESIDENT or DRAINING stream it discards what is not admitted yet and waits for the
quire's end. (DEDUCED, logs 42, 45) -/
def State.endAbort (s : State) (n : Nat) : State :=
  let s := s.cancelMove n
  let x := s.stream n
  match x.st with
  | .free => s
  | .faulted => s.finish n x.status .drop
  | .resident | .draining =>
    let f := match x.quire with
      | some q => q.frame0 + q.frames
      | none => 0
    let placed := (x.quire.map (·.marks)).getD []
    let gone := x.chunks.filter (fun c => decide (f ≤ c.frame0))
    let s := s.releaseChunks n gone
    s.modStream n (fun x => { x with
      endReq := true, paused := false, aborted := true, pendFrames := 0,
      chunks := x.chunks.filter (fun c => decide (c.frame0 < f)),
      dropped := x.dropped + (x.marks.filter (fun m => !placed.contains m)).length,
      marks := x.marks.filter (fun m => placed.contains m) })
  | _ => s.finishServed n .drop

/-- A STREAM_END of either kind. -/
def State.endStream (s : State) (n : Nat) (abort : Bool) : State :=
  if abort then s.endAbort n else s.endGraceful n

end Sys2Proof.Machine
end

