-- ==== Sys2Proof/Machine/Sched.lean ====
section
/-! DEFINITION. The row scheduler (R92 to R95, R117, R247): eligibility, the staging claim, the weighted rotation over
stalls, admission, the quire's end and what follows when the folio is written. -/

namespace Sys2Proof.Machine

/-! ## The quire (R64, R94, R117) -/

/-- The row's quire length in frames. -/
def State.quireMax (s : State) (n r : Nat) : Nat := (s.row r).cfg.quire / max 1 (s.hopOf n)

/-- Frame `g` is a segment boundary of a scan-mode stream (R117): the frame of a pending mark, or a whole number of
segments past the latest mark below it. -/
def scanBoundary (scanFrames last : Nat) (marks : List Nat) (g : Nat) : Bool :=
  let m := (marks.filter (· < g)).foldl max last
  marks.contains g || decide (0 < scanFrames ∧ m < g ∧ (g - m) % scanFrames = 0)

/-- The greatest number up to `k` that `p` holds of; 0 for none. -/
def greatest (p : Nat → Bool) : Nat → Nat
  | 0 => 0
  | k + 1 => if p (k + 1) then k + 1 else greatest p k

/-- n_f: the frames that admission would fix (R64, R94; in scan mode R117). 0 where R117 finds none. -/
def State.quireFrames (s : State) (n r : Nat) : Nat :=
  let x := s.stream n
  let hop := max 1 (s.hopOf n)
  let most := min (s.quireMax n r) x.pendFrames
  if x.scan then
    let start := x.samples / hop
    let marks := x.marks.map (· / hop)
    greatest (fun k => scanBoundary (s.voice x.voice).scanFrames (x.lastMark / hop) marks (start + k) ||
      (x.endReq && decide (k = x.pendFrames))) most
  else most

/-! ## Staging (R93, R247) -/

/-- A row holds a voice's hot part in its adapter cache (R25). -/
def Row.hosts (w : Row) (v : Nat) : Bool := (tget ({} : Hot) w.cache v).here

/-- A stream is eligible for staging on a row: as R93 says, on a row of its voice's mask (R42) whose cache holds the hot
part (R25). -/
def State.eligible (s : State) (r n : Nat) : Bool :=
  let x := s.stream n
  decide (x.st = .queued) && !x.staged && !x.paused && decide (x.row = some r) && decide ((s.row r).st = .live) &&
    (s.voice x.voice).mask.getLsbD r && (s.row r).hosts x.voice && decide (0 < x.pendFrames) && decide (0 < s.quireFrames n r)

/-- Egress floor reservations held (Table 11.1). -/
def State.egrFloors (s : State) : Nat := (s.egress.filter (fun e => e.2.floorRsv)).length

/-- Slots of an engine's pool (Table 9.1). -/
def poolSize (e : Nat) : Nat := if e < 16 then 1024 else if e < 20 then 2048 else 8192

/-- Queues of an engine (Table 9.1). -/
def queueCount (e : Nat) : Nat := if e < 16 then 32 else if e < 20 then 64 else if e < 24 then 256 else 128

/-- Issued transfers of queue `q`. -/
def Engine.outstanding (g : Engine) (q : Nat) : Nat := (g.issued.filter (fun t => decide (t.queue = q))).length

/-- Stream `n`'s porter floor on the engine holds a transfer. -/
def Engine.floorUsed (g : Engine) (n : Nat) : Bool :=
  g.issued.any (fun t => decide (t.slot = .stream) && !t.sys && decide (t.stream = n))

/-- Queue `q`'s floor on the engine holds a transfer. -/
def Engine.queueFloorUsed (g : Engine) (q : Nat) : Bool := g.issued.any (fun t => decide (t.slot = .queue ∧ t.queue = q))

/-- Free slots of an engine that a queue's or a stream's floor keeps (xx_PRT_FLOOR.rsv). -/
def Engine.reserved (g : Engine) (e : Nat) : Nat :=
  ((List.range (queueCount e)).filter (fun q => !g.queueFloorUsed q)).length + (g.floors.filter (fun n => !g.floorUsed n)).length

/-- Free slots of an engine (R187). -/
def Engine.freeSlots (g : Engine) (e : Nat) : Nat := poolSize e - g.issued.length

/-- The four things of R247 are there for stream `n` on row `r`: a pitch, an egress floor, a porter floor, a place. (DESIGN
CHOICE, log 172) -/
def State.canClaim (s : State) (r n : Nat) : Bool :=
  let w := s.row r
  let g := s.engine (20 + n % 4)
  (s.freePitch n).isSome &&
    ((s.egr n).floorRsv || (decide (s.egrFloors < 16384) && decide (s.egrRsv < s.clerk.egrFree))) &&
    decide (g.floors.length < 4096) && decide (g.reserved (20 + n % 4) < g.freeSlots (20 + n % 4)) &&
    decide (w.staged + w.withheld < 512 * w.cfg.presses)

/-- The streams a row may stage now: eligible (R93), and with the four things of R247 at hand. A stall of which every eligible
stream lacks one of them has none, and the rotation passes on from it as from a stall without an eligible stream. (DEDUCED,
log 150) -/
def State.candidates (s : State) (r : Nat) : List Nat :=
  (tkeys s.streams).filter (fun n => s.eligible r n && s.canClaim r n)

/-- The first of `ks` after `last`, ascending with wrap below `size`. -/
def nextAfter (size last : Nat) (ks : List Nat) : Option Nat :=
  ks.foldl (fun m k => match m with
    | none => some k
    | some j => if (k + size - last - 1) % size < (j + size - last - 1) % size then some k else some j) none

/-- The stream with the least key, ties to the lower stream ID. -/
def earliest (key : Nat → Nat) (ns : List Nat) : Option Nat :=
  ns.foldl (fun m n => match m with
    | none => some n
    | some j => if key n < key j ∨ (key n = key j ∧ n < j) then some n else some j) none

/-- The bytes of a folio's hot image as one COPY of class `cls` (R204). (DESIGN CHOICE, log 58) -/
def folioCopy (n stall cls src dst : Nat) : Desc :=
  { op := 0, cls := cls, stall := stall, stream := n, src := BitVec.ofNat 64 src, dst := BitVec.ofNat 64 dst,
    count0 := Config.hotBytes }

/-- The WAIT for the slices of a stream's quire, before its folio's write-out: `k` signals of barrier `r` (R204). (DESIGN CHOICE, log
58) -/
def backsWait (n stall r k : Nat) : Desc :=
  { op := 4, cls := 1, stall := stall, stream := n, src := 0, dst := 0, count0 := 1,
    opArg := BitVec.ofNat 32 (r + 256 * (20 + n % 4) + 8192 * k) }

/-- Claim what R247 lists for stream `n` and start bringing its hot image in (R93, R204). (DESIGN CHOICE, logs 58, 172) -/
def State.claimStaging (s : State) (r n : Nat) : State :=
  let x := s.stream n
  match s.freePitch n with
  | none => s
  | some p =>
    let s := s.modDie (p / 4096) (fun d => { d with pitchFree := d.pitchFree - 1 })
    let s := s.modStall x.stall (fun t => { t with pitches := t.pitches + 1 })
    let s := s.modEgr n (fun e => { e with floorRsv := true })
    let s := s.modEngine (20 + n % 4) (fun g => { g with floors := g.floors ++ [n] })
    let s := s.modRow r (fun w => { w with staged := w.staged + 1 })
    let s := s.modStream n (fun x => { x with staged := true, pitch := p, claimAt := s.stamp, readyAt := none, copyIn := .running })
    s.tick.pushDesc (.scheduler r) (20 + n % 4) r (folioCopy n x.stall 0 (folioAddr n) (pitchAddr p))

/-- The rotation leaves the stall it served: its share is used up, or it has nothing left (R93). (DEDUCED, log 150) -/
def Row.leaveCur (w : Row) (ks : List Nat) : Row :=
  match w.cur with
  | some c =>
    if tget 0 w.granted c = w.weight ∨ ¬ks.contains c then
      { w with granted := tset 0 w.granted c 0, lastServed := c, cur := none }
    else w
  | none => w

/-- A row has a free staging place (R92, R466). -/
def Row.placeFree (w : Row) : Bool := decide (w.staged + w.withheld < 512 * w.cfg.presses)

/-- One staging opportunity of a row (R93): with no free place nothing happens, and the rotation stays as it is. -/
def State.stageOne (s : State) (r : Nat) : State :=
  if ¬(s.row r).placeFree then s else
  let cs := s.candidates r
  let ks := cs.map (fun n => (s.stream n).stall)
  let w := (s.row r).leaveCur ks
  let w := match w.cur, nextAfter Config.nStalls w.lastServed ks with
    | none, some k => { w with cur := some k, weight := (s.stall k).weight }
    | _, _ => w
  match w.cur with
  | none => s.putRow r w
  | some k =>
    match earliest (fun n => (s.stream n).queuedAt) (cs.filter (fun n => decide ((s.stream n).stall = k))) with
    | none => s.putRow r w
    | some n => (s.putRow r { w with granted := tset 0 w.granted k (tget 0 w.granted k + 1) }).claimStaging r n

/-! ## The cores' descriptors (R188) -/

/-- The sequencer cores of a row's stages that `sel` picks write the descriptors of their programs into their queues (R188):
each once when the row is LIVE, and again with each visit, since the program runs once for a beat. (DESIGN CHOICE, log 149) -/
def State.writeProgram (s : State) (r : Nat) (sel : Nat → Bool) : State :=
  let c := (s.row r).cfg
  forEach (fun s (d : Nat × Nat × List Byte) =>
    if sel (16 * c.first + d.1) then
      s.pushDesc (.core (16 * c.first + d.1)) (c.first + d.1 / 16) d.2.1 (placed c.first (descOf d.2.2))
    else s)
    (placementOf (s.lib c.entry).bytes c.presses).descs s

/-! ## Admission (R94, R98) -/

/-- The frame tokens of a quire (R80, R96): reset at the marked frames, first and last at its ends. -/
def quireTokens (n stall voice frame0 frames hop adm : Nat) (marks : List Nat) : List Tok :=
  (List.range frames).map (fun i =>
    { stream := n, stall := stall, voice := voice, pos := frame0 + i, reset := marks.contains ((frame0 + i) * hop),
      first := decide (i = 0), last := decide (i + 1 = frames), hop := hop,
      adm := adm })

/-- Admit stream `n` to row `r`: the quire is fixed, its reset bits are placed, its tokens wait at the token stage (R94). -/
def State.admitStream (s : State) (r n : Nat) : State :=
  let x := s.stream n
  let hop := max 1 (s.hopOf n)
  let f := s.quireFrames n r
  let frame0 := x.samples / hop
  let marks := x.marks.filter (fun m => decide (m < x.samples + f * hop))
  let s := s.modStream n (fun x => { x with
    st := .resident, staged := false, readyAt := none, copyIn := .none, pendFrames := x.pendFrames - f,
    quire := some { frame0 := frame0, frames := f, marks := marks, left := false } })
  let s := s.modEgr n (fun e => { e with quireEnd := x.samples + f * hop })
  s.modRow r (fun w => { w with staged := w.staged - 1, resident := w.resident + 1, admits := w.admits + 1,
                                issue := w.issue ++ quireTokens n x.stall x.voice frame0 f hop w.admits.toNat marks })

/-- The streams staged on a row whose staging has completed. -/
def State.ready (s : State) (r : Nat) : List Nat :=
  (s.rowStaged r).filter (fun n => (s.stream n).readyAt.isSome)

/-- One admission on a LIVE row, while its resident count is below its quota (R94), of a stream whose voice's hot part the
row's cache holds (R25); none after a module failure. -/
def State.admitOne (s : State) (r : Nat) : State :=
  let w := s.row r
  if w.st = .live ∧ w.resident < 512 * w.cfg.presses ∧ s.clerk.failed.isNone then
    match earliest (fun n => ((s.stream n).readyAt).getD 0) ((s.ready r).filter (fun n => decide (0 < s.quireFrames n r) && w.hosts (s.stream n).voice)) with
    | some n => s.admitStream r n
    | none => s
  else s

/-- A LIVE row enters DRAINING: stagings that have completed are admitted while places are free, and the others are
abandoned (R47, Table 3.6). (DEDUCED, log 33) -/
def State.drainRow (s : State) (r : Nat) : State :=
  let s := forEach (fun s _ => s.admitOne r) (s.ready r) s
  let s := s.modRow r (fun w => { w with st := .draining })
  forEach State.abandon (s.rowStaged r) s

/-! ## The quire's end (R59, R60, R73, R226) -/

/-- The highest accepted chunk whose frames have all completed by frame `f` (R59). -/
def emittedBy (f : Nat) (last : BitVec 32) : List HeldChunk → BitVec 32
  | [] => last
  | c :: cs => if c.frame0 + frames c.tokens ≤ f then emittedBy f c.seq cs else last

/-- The quire's end at the stream's entry (Table 3.4, RESIDENT to DRAINING): counts, marks, the header in the pitch, and
the write-out of the folio (R226, R204). (DESIGN CHOICE, log 58) -/
def State.quireEnd (s : State) (n : Nat) (q : Quire) : State :=
  let x := s.stream n
  let hop := max 1 (s.hopOf n)
  let count := x.samples + q.frames * hop
  let em := emittedBy (q.frame0 + q.frames) x.lastEm x.chunks
  let mark := q.marks.foldl max x.lastMark
  let s := s.modStream n (fun x => { x with
    st := .draining, samples := count, lastEm := em, lastMark := mark, copyOut := .running,
    marks := x.marks.filter (fun m => !q.marks.contains m), quire := some { q with marks := [] } })
  let s := s.modEgr n (fun e => e.settleFloor false)
  let head := leBytes 8 count ++ leBytes 8 mark ++ leBytes 4 em.toNat
  let s := { s with mem := mwrite s.mem (pitchAddr x.pitch + 24) head }
  let r := x.row.getD 0
  let s := if q.backs = 0 then s else s.pushDesc (.scheduler r) (20 + n % 4) r (backsWait n x.stall r q.backs)
  let s := s.pushDesc (.scheduler r) (20 + n % 4) r (folioCopy n x.stall 1 (pitchAddr x.pitch) (folioAddr n))
  if (s.egr n).kind = 3 then s.raiseReplayMark n else s

/-! ## The folio is written (R65, R246) -/

/-- Split buffers off a list: `k` of them, and the rest. -/
def splitBufs (k : Nat) (l : List (Nat × Nat)) : List (Nat × Nat) × List (Nat × Nat) := (l.take k, l.drop k)

/-- Buffers of a chunk whose tokens have all completed by frame `f`: 32 tokens to a buffer (R244, R246). -/
def HeldChunk.doneBufs (c : HeldChunk) (f : Nat) : Nat :=
  ((List.range (ceilDiv c.tokens.length 32)).filter (fun i => decide (c.frame0 + frames (c.tokens.take (32 * (i + 1))) ≤ f))).length

/-- Release the first `done` buffers of a chunk, those that are still held. -/
def State.releaseFirst (s : State) (n done : Nat) (c : HeldChunk) : State × HeldChunk :=
  if done ≤ c.freed then (s, c)
  else
    let (gone, rest) := splitBufs (done - c.freed) c.bufs
    (State.releaseChunk n s { c with bufs := gone }, { c with bufs := rest, floor := false, freed := done })

/-- Release a chunk's buffers whose tokens have all completed by frame `f` (R246). -/
def State.releasePart (s : State) (n f : Nat) (c : HeldChunk) : State × HeldChunk := s.releaseFirst n (c.doneBufs f) c

/-- Release the leading buffers of a stream's chunks whose tokens all have duration 0, up to the first buffer that stays held:
no earlier buffer is held for them to wait for (R246). -/
def State.releaseLead (n : Nat) : List HeldChunk → State → State × List HeldChunk
  | [], s => (s, [])
  | c :: cs, s =>
    let (s, d) := s.releasePart n c.frame0 c
    if 0 < d.held then (s, d :: cs)
    else
      let (s, ds) := State.releaseLead n cs s
      (s, d :: ds)

/-- Release what each chunk of a list has completed by frame `f`. -/
def State.releaseParts (n f : Nat) : List HeldChunk → State → State × List HeldChunk
  | [], s => (s, [])
  | c :: cs, s =>
    let (s, c) := s.releasePart n f c
    let (s, cs) := State.releaseParts n f cs s
    (s, c :: cs)

/-- Every buffer whose tokens have all completed returns, and the chunks that have completed go; a chunk of no frames that
was accepted behind them completes with them (R59, R246). -/
def State.releaseDone (s : State) (n : Nat) : State :=
  let x := s.stream n
  let f := x.samples / max 1 (s.hopOf n)
  let (s, cs) := State.releaseParts n f x.chunks s
  s.modStream n (fun x => { x with lastEm := emittedBy f x.lastEm cs, chunks := cs.dropWhile (fun c => decide (c.frame0 + frames c.tokens ≤ f)) })

/-- Buffers of duration 0 at the front of a stream's chunks are released at once, and a chunk of no frames that then holds nothing
is complete (R59, R246). -/
def State.releaseIdle (s : State) (n : Nat) : State :=
  match (s.stream n).chunks with
  | [] => s
  | c :: cs =>
    let (s, ds) := State.releaseLead n (c :: cs) s
    s.modStream n (fun x => { x with
      lastEm := emittedBy c.frame0 x.lastEm ds, chunks := ds.dropWhile (fun d => decide (d.frame0 + frames d.tokens ≤ c.frame0)) })

/-- What the stream leaves DRAINING to, the export served (Table 3.4). (DEDUCED, log 43) -/
def State.leaveDraining (s : State) (n : Nat) : State :=
  let x := s.stream n
  if x.endReq ∧ x.pendFrames = 0 then s.finish n .ok (if x.aborted then .drop else .final x.samples)
  else
    let s := if 0 < x.pendFrames ∧ ¬x.paused then s.queue n else s.modStream n (fun x => { x with st := .idle })
    let s := s.modStream n (fun x => { x with deferPause := [], cancelled := none })
    let s := s.answerAll x.deferPause .ok (stateBody (s.stream n).st)
    s.answer x.cancelled .stateConflict (conflictBytes [s.streamEntry n])

/-- The folio write-out is complete: pitch, floors and completed chunks return, a pending export is served first, and the
stream leaves DRAINING by the first row that holds (R65). Within this step the entry holds nothing any more. -/
def State.folioWritten (s : State) (n : Nat) : State :=
  let x := s.stream n
  let s := (s.givePitch n).dropFloor n
  let s := match x.row with
    | some r => s.modRow r (fun w => { w with resident := w.resident - 1 })
    | none => s
  let s := (s.modStream n (fun x => { x with pitch := 0, quire := none, copyOut := .none, st := .idle })).releaseDone n
  let s := s.leftRow n x
  let s := if x.exportReq then s.serveExport n else s
  let s := if (s.stream n).st = .idle then s.leaveDraining n else s
  let s := s.settleStall x.stall
  match x.row with
  | some r => s.rowSettle r
  | none => s

end Sys2Proof.Machine
end

