-- ==== Sys2Proof/Machine/Stalls.lean ====
section
/-! DEFINITION. The stall commands (R316 to R319, Table 3.7), credit grants (R245, R273) and the end of a teardown (R77). -/

namespace Sys2Proof.Machine

/-! ## STALL_OPEN (R316) -/

/-- The stall can be opened: FREE with every held count 0 (R54). -/
def State.stallTakeable (s : State) (k : Nat) : Bool :=
  let t := s.stall k
  decide (t.st = .free ∧ t.held = 0 ∧ t.pitches = 0 ∧ t.egress = 0 ∧ t.porter = 0)

/-- The stall entry STALL_OPEN writes (Table 3.7). -/
def openedStall (body : List Byte) : Stall :=
  { st := .open_, seed := BitVec.ofNat 64 (fld body 0 8), weight := fld body 8 1, vquota := fld body 10 2,
    quota := fld body 12 4, ceiling := fld body 16 4 }

/-- STALL_OPEN's own refusals and effect. (DEDUCED, log 24) -/
def stallOpenOwn (body : List Byte) (s : State) : Act :=
  if s.fw.restart.isSome then .no .busy
  else match lowest Config.nStalls s.stallTakeable with
    | none => .no .noResource
    | some k => .ok (fun s => s.putStall k (openedStall body)) (beBytes 4 k)

/-- STALL_OPEN's row of Table 14.1, its layout and its ranges. -/
def stallOpenShape (h : CmdHdr) (body : List Byte) : Shape :=
  { opcode := 0x10, role := 1, scope := .module, lenOk := decide (body.length = 20),
    fields := decide (1 ≤ fld body 8 1) && zeros body 9 1 && decide (1 ≤ fld body 10 2 ∧ fld body 10 2 ≤ 1024) &&
      decide (1 ≤ fld body 12 4 ∧ fld body 12 4 ≤ 262144) && decide (1 ≤ fld body 16 4 ∧ fld body 16 4 ≤ 65536),
    audited := true, detail := hdrRaw 0x10 h ++ body }

/-- STALL_OPEN (R316). -/
def execStallOpen (h : CmdHdr) (body : List Byte) (s : State) : Host.Outcome State Fault Refusal :=
  run s (clerk (stallOpenShape h body) h body.length (stallOpenOwn body))

/-! ## STALL_CLOSE (R317) -/

/-- Withdraw a stall's unused credits (R317). -/
def State.withdraw (s : State) (k : Nat) : State :=
  let t := s.stall k
  (s.modClerk (fun c => { c with feedGrant := c.feedGrant - t.tally })).modStall k (fun t => { t with tally := 0 })

/-- Close an OPEN or QUIESCING stall: credits withdrawn, every stream ended, FREE once nothing is held (Table 3.7). -/
def State.closeStall (s : State) (k : Nat) (abort : Bool) : State :=
  let s := s.withdraw k
  let s := s.modStall k (fun t => { t with st := .quiescing, abort := abort })
  (forEach (fun s n => s.endStream n abort) (s.stallStreams k) s).settleStall k

/-- The STALL_TORN record (R77, R79). (DEDUCED, log 46) -/
def State.tornRecord (s : State) (k : Nat) : State :=
  let t := s.stall k
  s.raise 0 { seq := 0, source := 0, status := t.tear, event := 0x0010, stall := some k,
              arg := BitVec.ofNat 64 t.tear.code.toNat, ext := stallExt t }

/-- Close a TORN stall: its FAULTED streams are freed without records of their own, its voice IDs are freed, and only
the tokens of transfers still completing into discard keep its ID from being taken (R54, Table 3.7). (DEDUCED, log 46;
DESIGN CHOICE, log 164) -/
def State.closeTorn (s : State) (k : Nat) : State :=
  let s := if (s.stall k).tearing then s.tornRecord k else s
  let n := (s.stallStreams k).length
  let s := forEach (fun s n => s.freeStream n (s.stream n).status 0 false .drop) (s.stallStreams k) s
  let s := forEach State.dropVoice (s.stallVoices k) s
  let t := s.stall k
  let s := s.putStall k { porter := t.porter }
  s.raise 0 { seq := 0, source := 0, status := .ok, event := 0x0011, stall := some k, arg := BitVec.ofNat 64 n, ext := stallExt t }

/-- STALL_CLOSE's own refusals and effect. -/
def stallCloseOwn (h : CmdHdr) (body : List Byte) (s : State) : Act :=
  let k := tgt h
  let abort := decide (fld body 0 1 = 1)
  match (s.stall k).st with
  | .torn => .ok (fun s => s.closeTorn k) []
  | .quiescing => if abort then .ok (fun s => s.closeStall k true) [] else .conflict [s.stallEntry k]
  | _ => .ok (fun s => s.closeStall k abort) []

/-- STALL_CLOSE's row of Table 14.1 and its layout. -/
def stallCloseShape (h : CmdHdr) (body : List Byte) : Shape :=
  { opcode := 0x11, role := 1, scope := .stall, lenOk := decide (body.length = 4),
    fields := decide (fld body 0 1 ≤ 1) && zeros body 1 3, audited := true, detail := hdrRaw 0x11 h ++ body, tornOk := true }

/-- STALL_CLOSE (R317). -/
def execStallClose (h : CmdHdr) (body : List Byte) (s : State) : Host.Outcome State Fault Refusal :=
  run s (clerk (stallCloseShape h body) h body.length (stallCloseOwn h body))

/-! ## STALL_QUERY (R318) -/

/-- STALL_QUERY's response. -/
def stallQueryOwn (h : CmdHdr) (s : State) : Act :=
  .ok id (wordsBE (stallWords (s.stall (tgt h))) ++ beBytes 4 (s.floorChunks (tgt h)))

/-- STALL_QUERY's row of Table 14.1 and its layout. -/
def stallQueryShape (body : List Byte) : Shape :=
  { opcode := 0x12, role := 1, scope := .stall, lenOk := body.isEmpty, fields := true, tornOk := true }

/-- STALL_QUERY (R318). -/
def execStallQuery (h : CmdHdr) (body : List Byte) (s : State) : Host.Outcome State Fault Refusal :=
  run s (clerk (stallQueryShape body) h body.length (stallQueryOwn h))

/-! ## STALL_LIMITS (R319) -/

/-- A field of 0 leaves its value unchanged. -/
def limit (new old : Nat) : Nat := if new = 0 then old else new

/-- The entry with new limits. -/
def Stall.limits (t : Stall) (body : List Byte) : Stall :=
  { t with weight := limit (fld body 0 1) t.weight, vquota := limit (fld body 2 2) t.vquota,
           quota := limit (fld body 4 4) t.quota, ceiling := limit (fld body 8 4) t.ceiling }

/-- STALL_LIMITS' own refusals and effect. -/
def stallLimitsOwn (h : CmdHdr) (body : List Byte) (s : State) : Act :=
  let t := s.stall (tgt h)
  let u := t.limits body
  if t.st ≠ .open_ ∨ (fld body 4 4 ≠ 0 ∧ u.quota < t.opened) ∨ (fld body 2 2 ≠ 0 ∧ u.vquota < t.voices) then .conflict [s.stallEntry (tgt h)]
  else .ok (fun s => s.modStall (tgt h) (fun t => t.limits body)) []

/-- STALL_LIMITS' row of Table 14.1, its layout and its ranges. -/
def stallLimitsShape (h : CmdHdr) (body : List Byte) : Shape :=
  { opcode := 0x13, role := 1, scope := .stall, lenOk := decide (body.length = 12),
    fields := zeros body 1 1 && decide (fld body 2 2 ≤ 1024 ∧ fld body 4 4 ≤ 262144 ∧ fld body 8 4 ≤ 65536),
    audited := true, detail := hdrRaw 0x13 h ++ body }

/-- STALL_LIMITS (R319). -/
def execStallLimits (h : CmdHdr) (body : List Byte) (s : State) : Host.Outcome State Fault Refusal :=
  run s (clerk (stallLimitsShape h body) h body.length (stallLimitsOwn h body))

/-! ## Grants (R245, R273) -/

/-- The home session of a stall: the lowest open session bound to it, else the lowest open module session (R264). -/
def State.homeOf (s : State) (k : Nat) : Option Nat :=
  let live := s.sessions.filter (fun p => decide (p.2.st = .opened))
  match live.find? (fun p => decide (p.2.stall = some k)) with
  | some p => some p.1
  | none => (live.find? (fun p => p.2.stall.isNone)).map Prod.fst

/-- Shared feed buffers unheld and not granted (R245). -/
def State.ungranted (s : State) : Nat := s.feedFreeSum - s.clerk.feedGrant

/-- The credits a grant would add: up to the ceiling, from ungranted buffers, once the tally has fallen to half. -/
def State.grantDelta (s : State) (k : Nat) : Nat :=
  let t := s.stall k
  if t.st = .open_ ∧ 2 * t.tally ≤ t.ceiling then min (t.ceiling - t.tally) s.ungranted else 0

/-- Stalls that are due a grant: OPEN, with a home session, their tally at half their ceiling or below. -/
def State.grantDue (s : State) : List Nat :=
  (s.stalls.filter (fun p => decide (p.2.st = .open_ ∧ 2 * p.2.tally ≤ p.2.ceiling) && (s.homeOf p.1).isSome)).map Prod.fst

/-- Shared buffers are short: the stalls that are due a grant want more than there is. -/
def State.grantShort (s : State) : Bool :=
  decide (s.ungranted < (s.grantDue.map (fun k => (s.stall k).ceiling - (s.stall k).tally)).sum)

/-- It is the stall's turn: when buffers are short, the rotation of R273 serves the next stall after the last served. -/
def State.grantTurn (s : State) (k : Nat) : Bool :=
  !s.grantShort || decide (((s.grantDue.filter (s.clerk.grantLast < ·)) ++ s.grantDue).head? = some k)

/-- A GRANT payload (R273). -/
def grantBytes (k delta : Nat) (total : BitVec 32) : List Byte :=
  beBytes 4 k ++ beBytes 4 delta ++ beBytes 4 total.toNat ++ beBytes 4 0

/-- Grant credits to a stall that has a home session; the stall served is remembered for the rotation (R273). -/
def State.grantStall (s : State) (k : Nat) : State :=
  match s.homeOf k with
  | none => s
  | some q =>
    let d := s.grantDelta k
    if d = 0 then s
    else
      let total := (s.stall k).granted + BitVec.ofNat 32 d
      let s := s.modStall k (fun t => { t with tally := t.tally + d, granted := total })
      let s := s.modClerk (fun c => { c with feedGrant := c.feedGrant + d, grantLast := k })
      s.post q 3 (grantBytes k d total) none

/-- GRANT: Palhani keeps a stall's tally up (R273). -/
def execGrant (stall : Nat) (s : State) : Host.Outcome State Fault Refusal :=
  run s (fun s => if s.clerkUp ∧ s.grantTurn stall then s.grantStall stall else s)

/-! ## TEARDOWN_COMPLETE (R77, R79) -/

/-- The teardown is complete once the stall holds nothing. -/
def Stall.empty (t : Stall) : Bool :=
  decide (t.tally = 0 ∧ t.held = 0 ∧ t.pitches = 0 ∧ t.egress = 0 ∧ t.porter = 0)

/-- TEARDOWN_COMPLETE: the STALL_TORN record with the balances of Table 3.9. -/
def execTeardownComplete (stall : Nat) (s : State) : Host.Outcome State Fault Refusal :=
  run s (fun s =>
    let t := s.stall stall
    if t.tearing ∧ t.empty then (s.tornRecord stall).modStall stall (fun t => { t with tearing := false }) else s)

end Sys2Proof.Machine
end

