-- ==== Sys2Proof/Machine/Voices.lean ====
section
/-! DEFINITION. Voices and rows: the package header and its checks (R34, R35), extents of the weight region (R220),
VOICE_LOAD, VOICE_UNLOAD, ROW_CONFIGURE and the end of a row's BUILDING (R40 to R50, R320 to R322). -/

namespace Sys2Proof.Machine

/-! ## Packages (R32, R34, R35) -/

/-- A voice hash: SHA-256 of the base hash and the adapter hash (R32). -/
def voiceHash (base adapter : BitVec 256) : BitVec 256 := sha256w (wordBytes base ++ wordBytes adapter)

/-! ## Extents (R220) -/

/-- Round up to 64 KiB. -/
def align64k (a : Nat) : Nat := ceilDiv a 65536 * 65536

/-- The extents in use in the weight region. -/
def State.extents (s : State) : List (Nat × Nat) :=
  (s.voices.filter (fun p => p.2.inRegion)).map (fun p => (p.2.addr, p.2.bytes)) ++
  (s.bases.filter (fun p => p.2.used)).map (fun p => (p.2.addr, p.2.bytes))

/-- Where an extent may start: the region's base and the end of each extent in use. -/
def starts (used : List (Nat × Nat)) : List Nat := Config.weightBase :: used.map (fun u => align64k (u.1 + u.2))

/-- Bytes free from a start on: up to the next extent in use, none where one covers it. -/
def roomAt (used : List (Nat × Nat)) (a : Nat) : Nat :=
  if used.any (fun u => decide (u.1 ≤ a ∧ a < u.1 + u.2)) then 0
  else (used.foldl (fun m u => if a ≤ u.1 then min m u.1 else m) Config.weightEnd) - a

/-- First fit from the lowest address. -/
def firstFit (used : List (Nat × Nat)) (size : Nat) : Option Nat :=
  ((starts used).filter (fun a => decide (size ≤ roomAt used a))).foldl
    (fun m a => match m with
      | none => some a
      | some b => some (min a b)) none

/-- The largest free extent. -/
def largestFree (used : List (Nat × Nat)) : Nat := (starts used).foldl (fun m a => max m (roomAt used a)) 0

/-- The NO_EXTENT record of a refusal (R220, Table 13.7). -/
def State.noExtent (stall : Option Nat) (s : State) : State :=
  s.raise 0 { seq := 0, source := 0, status := .noResource, event := 0x0031, stall := stall,
              arg := BitVec.ofNat 64 (largestFree s.extents) }

/-! ## What a row hosts (R38, R41) -/

/-- The configuration by which a row names its base: that of its latest accepted ROW_CONFIGURE, and while it is being
removed still the one it has (R27, R40). -/
def Row.latest (w : Row) : RowCfg :=
  match w.newCfg with
  | some c => if c.presses = 0 then w.cfg else c
  | none => w.cfg

/-- Voices, other than `old`, whose hot part lies in the row's adapter cache (R41). -/
def State.hosted (s : State) (r : Nat) (old : Option Nat) : List Voice :=
  ((s.row r).cache.filter (fun p => p.2.here && decide (some p.1 ≠ old))).map (fun p => s.voice p.1)

/-- The hot-part shares of hosted packages fit 16 MiB on every press, and at most 256 voices are hosted (Table 2.5). -/
def cacheFits (images : List (List Byte)) (presses : Nat) : Bool :=
  decide (images.length ≤ 256) &&
  (List.range presses).all (fun i =>
    decide ((images.map (fun b => (placementOf b presses).shares.getD i 0)).sum ≤ 16777216))

/-! ## VOICE_LOAD (R40, R41, R320) -/

/-- The rows of a mask. -/
def maskRows (m : Nat) : List Nat := (List.range Config.nRows).filter (bitAt m)

/-- The loaded voice of a stall with a voice hash, if any (R41). -/
def State.ownVoice (s : State) (k : Nat) (hash : BitVec 256) : Option Nat :=
  (s.voices.find? (fun p => p.2.loaded && decide (p.2.stall = k ∧ p.2.hash = hash))).map Prod.fst

/-- The base of a row's latest configuration. -/
def State.rowBase (s : State) (r : Nat) : Base := (((s.row r).latest.base).map (s.base ·)).getD {}

/-- The checks of R34 that need the rows of the mask and the base (Table 2.2, last three rows). A row already in the voice's
mask is accepted whatever base and press count its latest configuration names (R40). (DEDUCED, log 31) -/
def State.adapterCheck (s : State) (b : List Byte) (rows added : List Nat) : Option (Status × List Byte) :=
  let p := pkgOf b
  let present := rows.filter (fun r => decide ((s.row r).st ≠ .absent))
  let others := (present.filter added.contains).filter (fun r => decide ((s.rowBase r).hash ≠ p.baseHash))
  if (present.filter added.contains).any (fun r => !(pkgCounts b).contains (s.row r).latest.presses) then some (.archMismatch, [])
  else if others ≠ [] then some (.stateConflict, conflictBytes (added.map s.rowEntry))
  else match (s.bases.find? (fun q => q.2.used && decide (q.2.hash = p.baseHash))).map Prod.snd with
    | none => none
    | some q =>
      if p.mode ≠ b2n q.scan ∨ p.scanFrames ≠ q.scanFrames ∨ rateHz p.rate ≠ q.rate ∨ p.hop ≠ q.hop ∨ p.inventory ≠ q.inventory
      then some (.archMismatch, []) else none

/-- The voice record a first load writes. -/
def loadedVoice (k entry mask addr : Nat) (b : List Byte) : Voice :=
  let p := pkgOf b
  { loaded := true, stall := k, hash := voiceHash p.baseHash p.hash, mask := BitVec.ofNat 8 mask, entry := entry,
    baseHash := p.baseHash, scan := decide (p.mode = 1), scanFrames := p.scanFrames, rate := rateHz p.rate, hop := p.hop,
    inventory := p.inventory, hot := p.stationary, addr := addr, bytes := p.imageBytes, inRegion := true }

/-- The response body of VOICE_LOAD. -/
def voiceBody (v : Nat) (hash : BitVec 256) : List Byte := beBytes 2 v ++ beBytes 2 0 ++ wordBytes hash

/-- The hot parts of the rows of a mask are loaded, and rows that left it release theirs where nothing runs (R41). -/
def State.placeHots (s : State) (v : Nat) : State :=
  forEach (fun s r => if (s.voice v).mask.getLsbD r then s.loadHots r else s.releaseHot r v) (List.range Config.nRows) s

/-- Write a first load: the image from the library into its extent by the hub's porter, the voice into its place, its hot part into the rows of its mask, and the
stall's count. (DEDUCED, log 32; DESIGN CHOICE, log 147) -/
def State.loadVoice (s : State) (k v addr : Nat) (x : Voice) (b : List Byte) : State :=
  let img := canonical b
  let s := (((s.libRead x.entry img.length).bulkWrite addr img).countMove 24 6 addr img.length).putVoice v x
  ((s.placeHots v).modStall k (fun t => { t with voices := t.voices + 1 })).rebindAll

/-- A load of a voice already loaded replaces its mask and nothing else (R41): the voice keeps the library entry it was
first loaded from, also where the command names another entry of the same voice hash. (DESIGN CHOICE, log 125) -/
def State.remask (s : State) (v mask : Nat) : State :=
  ((s.modVoice v (fun x => { x with mask := BitVec.ofNat 8 mask })).placeHots v).rebindAll

/-- The base with a canonical hash, if some row names it. -/
def State.baseWith (s : State) (hash : BitVec 256) : Option Nat :=
  (s.bases.find? (fun q => q.2.used && decide (q.2.hash = hash))).map Prod.fst

/-- VOICE_LOAD's own refusals, in the order of R320, and its effect. (DEDUCED, log 32) -/
def voiceLoadOwn (h : CmdHdr) (body : List Byte) (s : State) : Act :=
  let k := tgt h
  let entry := fld body 0 4
  let mask := fld body 4 1
  let e := s.lib entry
  let b := e.bytes
  let p := pkgOf b
  let hash := voiceHash p.baseHash p.hash
  let old := s.ownVoice k hash
  let had := (old.map (fun v => (s.voice v).mask.toNat)).getD 0
  let added := (maskRows mask).filter (fun r => !bitAt had r)
  if (s.stall k).st ≠ .open_ then .conflict [s.stallEntry k]
  else if ¬e.used ∨ ¬e.ready ∨ e.erasing ∨ p.kind ≠ 1 then .no .badDescriptor
  else if mask = 0 then .no .badDescriptor
  else match imageCheck b e.damaged with
  | some st => .no st
  | none =>
  match s.adapterCheck b (maskRows mask) added with
  | some (st, body) => .refuse st body id
  | none =>
  if recordsBad b || !sharesOk b || (match s.baseWith p.baseHash with
      | some i => voiceBad (s.lib (s.base i).entry).bytes b
      | none => false) then .no .badDescriptor
  else if old.isNone ∧ (s.stall k).voices = (s.stall k).vquota then .no .quota
  else if added.any (fun r => decide ((s.row r).st = .absent) || decide ((s.rowBase r).hash ≠ p.baseHash)) then
    .conflict (added.map s.rowEntry)
  else if added.any (fun r => decide ((s.row r).st ≠ .live)) then .no .busy
  else if 33554432 < p.imageBytes ∨ 1048576 < p.stationary ∨
      added.any (fun r => !cacheFits (((s.hosted r old).map (fun q => (s.lib q.entry).bytes)) ++ [b]) (s.row r).latest.presses) then
    .no .noResource
  else match old with
    | some v => .done (fun s => s.remask v mask) (fun _ => voiceBody v hash) 1
    | none =>
      match firstFit s.extents p.imageBytes, lowest Config.nVoices (fun v => !(s.voice v).loaded) with
      | none, _ => .refuse .noResource [] (State.noExtent (some k))
      | _, none => .no .noResource
      | some addr, some v => .done (fun s => s.loadVoice k v addr (loadedVoice k entry mask addr b) b) (fun _ => voiceBody v hash) 1

/-- VOICE_LOAD's row of Table 14.1 and its layout. -/
def voiceLoadShape (h : CmdHdr) (body : List Byte) : Shape :=
  { opcode := 0x20, role := 1, scope := .stall, lenOk := decide (body.length = 8), fields := zeros body 5 3,
    audited := true, detail := hdrRaw 0x20 h ++ body }

/-- VOICE_LOAD (R320). -/
def execVoiceLoad (h : CmdHdr) (body : List Byte) (s : State) : Host.Outcome State Fault Refusal :=
  run s (clerk (voiceLoadShape h body) h body.length (voiceLoadOwn h body))

/-! ## VOICE_UNLOAD (R44, R321) -/

/-- VOICE_UNLOAD's own refusals and effect. -/
def voiceUnloadOwn (h : CmdHdr) (body : List Byte) (s : State) : Act :=
  let v := fld body 0 2
  let users := (s.streams.filter (fun p => decide (p.2.st ≠ .free ∧ p.2.voice = v))).map Prod.fst
  if Config.nVoices ≤ v ∨ ¬(s.voice v).loaded then .no .badDescriptor
  else if (s.voice v).stall ≠ tgt h then .no .noRight
  else if users ≠ [] then .conflict (users.map s.streamEntry)
  else .done (fun s => (s.dropVoice v).modStall (tgt h) (fun t => { t with voices := t.voices - 1 })) (fun _ => []) 1

/-- VOICE_UNLOAD's row of Table 14.1 and its layout. -/
def voiceUnloadShape (h : CmdHdr) (body : List Byte) : Shape :=
  { opcode := 0x21, role := 1, scope := .stall, lenOk := decide (body.length = 4), fields := zeros body 2 2,
    audited := true, detail := hdrRaw 0x21 h ++ body }

/-- VOICE_UNLOAD (R321). -/
def execVoiceUnload (h : CmdHdr) (body : List Byte) (s : State) : Host.Outcome State Fault Refusal :=
  run s (clerk (voiceUnloadShape h body) h body.length (voiceUnloadOwn h body))

/-! ## ROW_CONFIGURE (R46, R322) -/

/-- Rows other than `r`, not ABSENT, that own a press of the configuration. -/
def State.otherOwners (s : State) (r : Nat) (c : RowCfg) : List Nat :=
  (List.range Config.nRows).filter (fun q => decide (q ≠ r) &&
    c.pressList.any (fun p => decide ((s.row q).st ≠ .absent) &&
      ((s.row q).cfg.pressList.contains p || (s.row q).latest.pressList.contains p)))

/-- The base record a ROW_CONFIGURE reserves (R27). -/
def reservedBase (entry addr : Nat) (b : List Byte) : Base :=
  let p := pkgOf b
  { used := true, hash := p.hash, entry := entry, addr := addr, bytes := p.imageBytes, scan := decide (p.mode = 1),
    scanFrames := p.scanFrames, rate := rateHz p.rate, hop := p.hop, inventory := p.inventory }

/-- Give the row its accepted configuration: an ABSENT row builds at once, a LIVE row drains (R47). (DEDUCED, log 33) -/
def State.startRow (s : State) (r : Nat) (c : RowCfg) (d : Defer) : State :=
  let s := s.modRow r (fun w => { w with newCfg := some c, defer := some d })
  if (s.row r).st = .absent then s.enterBuilding r
  else
    (s.drainRow r).rowSettle r

/-- Row `q` goes on hosting voices of a base: it is there, is not being removed, and its latest configuration names the base. -/
def State.goesOn (s : State) (q : Nat) (hash : BitVec 256) : Bool :=
  decide ((s.row q).st ≠ .absent) && (match (s.row q).newCfg with | some c => decide (c.presses ≠ 0) | none => true) &&
    decide ((s.rowBase q).hash = hash)

/-- ROW_CONFIGURE's own refusals, in the order of Table 2.7, and its effect. A voice of a TORN stall is on no row any more:
its hot parts were released at the teardown (R77). A voice that the rebuild keeps stays also where its adapter has no
placement for the new press count: Table 2.7 names no refusal for it. (DESIGN CHOICE, log 148) -/
def rowConfigureOwn (h : CmdHdr) (body : List Byte) (s : State) : Act :=
  let r := fld body 0 1
  let first := fld body 1 1
  let presses := fld body 2 1
  let handoff := fld body 3 1
  let quire := fld body 4 2
  let entry := fld body 8 4
  let build := decide (presses ≠ 0)
  let e := s.lib entry
  let b := e.bytes
  let p := pkgOf b
  let hop := max 1 p.hop
  let w := s.row r
  let cfg : RowCfg := { first := first, presses := presses, overlap := decide (handoff = 1), quire := quire, entry := entry }
  let owners := s.otherOwners r cfg
  let same := build && decide ((s.rowBase r).used ∧ (s.rowBase r).hash = p.hash)
  let onRow := s.voices.filter (fun q => q.2.inRegion && q.2.mask.getLsbD r)
  let lost := onRow.filter (fun q => !same && !(q.2.rows.any (fun t => decide (t ≠ r) && s.goesOn t q.2.baseHash)))
  let known := s.baseWith p.hash
  let place := firstFit s.extents p.imageBytes
  let d := s.hdrDefer 0x22 h
  if build ∧ (¬pressCounts.contains presses ∨ first % presses ≠ 0 ∨ 16 < first + presses) then .no .badDescriptor
  else if ¬build ∧ (first ≠ 0 ∨ handoff ≠ 0 ∨ quire ≠ 0 ∨ entry ≠ 0) then .no .badDescriptor
  else if build ∧ (¬e.used ∨ ¬e.ready ∨ e.erasing ∨ p.kind ≠ 0) then .no .badDescriptor
  else if build ∧ (quire % hop ≠ 0 ∨ quire < hop ∨ 32 * hop < quire ∨ 7680 < quire ∨ (p.mode = 1 ∧ quire < p.scanFrames * hop)) then
    .no .badDescriptor
  else if w.st = .draining ∨ w.st = .building then .no .busy
  else if ¬build ∧ w.st = .absent then .conflict [s.rowEntry r]
  else if build ∧ owners ≠ [] then .conflict (owners.map s.rowEntry)
  else if lost ≠ [] then .conflict [s.rowEntry r]
  else if build ∧ cfg.pressList.any (fun q => (s.press q).retired) then .no .noResource
  else if build ∧ known.isNone ∧ (8 ≤ (s.bases.filter (fun q => q.2.used)).length ∨ 4294967296 < p.imageBytes) then .no .noResource
  else if build ∧ known.isNone ∧ place.isNone then .refuse .noResource [] (State.noExtent none)
  else if same ∧ ¬cacheFits (onRow.map (fun q => (s.lib q.2.entry).bytes)) presses then .no .noResource
  else if ¬build then .later (fun s => s.startRow r {} d)
  else match imageCheck b e.damaged with
  | some st => .no st
  | none =>
  if ¬(pkgCounts b).contains presses then .no .archMismatch
  else if recordsBad b || descsBad b presses || !placementOk b presses then .no .badDescriptor
  else .later (fun s =>
    let (i, s) := match known with
      | some i => (i, s)
      | none =>
        let i := (lowest 8 (fun i => !(s.base i).used)).getD 0
        (i, s.putBase i (reservedBase entry (place.getD 0) b))
    s.startRow r { cfg with base := some i } d)

/-- ROW_CONFIGURE's row of Table 14.1, its layout and its ranges. -/
def rowConfigureShape (h : CmdHdr) (body : List Byte) : Shape :=
  { opcode := 0x22, role := 2, scope := .module, lenOk := decide (body.length = 12),
    fields := decide (fld body 0 1 ≤ 7 ∧ fld body 3 1 ≤ 1) && zeros body 6 2, audited := true, detail := hdrRaw 0x22 h ++ body }

/-- ROW_CONFIGURE (R46, R47, R322). -/
def execRowConfigure (h : CmdHdr) (body : List Byte) (s : State) : Host.Outcome State Fault Refusal :=
  run s (clerk (rowConfigureShape h body) h body.length (rowConfigureOwn h body))

/-! ## ROW_BUILD_DONE (R47, R48) -/

/-- ROW_BUILD_DONE: a BUILDING row is LIVE, its unused units turn off, and the deferred ROW_CONFIGURE is answered ST_OK
(R47, R413). A row one of whose presses is in reset has not loaded yet (R346, R464), nor one whose base waits for a GDDR7 die in
reset (R424). -/
def execRowBuildDone (row : Nat) (s : State) : Host.Outcome State Fault Refusal :=
  run s (fun s =>
    let w := s.row row
    let b := s.rowBase row
    let waits := s.heldMoves.any (fun m => decide (b.addr ≤ m.addr ∧ m.addr < b.addr + b.bytes))
    if s.awake ∧ w.st = .building ∧ s.rowInReset row = false ∧ waits = false then
      let s := (s.modRow row (fun w => { w with st := .live, defer := none })).writeProgram row (fun _ => true)
      let s := s.modClk (fun c => c.turnOff ((w.cfg.pressList.flatMap unitNodes).filter (fun n => !c.used.contains n)))
      s.answer w.defer .ok ([BitVec.ofNat 8 row, 3, 0, 0] ++ wordBytes (((w.cfg.base).map (s.base ·)).getD {}).hash)
    else s)

end Sys2Proof.Machine
end

