-- ==== Sys2Proof/Machine/Streams.lean ====
section
/-! DEFINITION. The stream commands (R323 to R327) and the two feed commands (R56, R244, R272). -/

namespace Sys2Proof.Machine

/-- The stream a body names in its first four bytes. -/
def streamArg (body : List Byte) : Nat := fld body 0 4

/-- The stream field lies in its range (Table 3.1: 18 bits). -/
def streamOk (body : List Byte) : Bool := decide (streamArg body < Config.nStreams)

/-! ## Egress entries (R275) -/

/-- pt and codec agree, and the rate is one the codec has (Table 12.5). -/
def codecOk (e : Egress) : Bool :=
  (decide (e.codec = 0 ∧ e.pt = 0 ∧ e.rate = 0)) || decide (e.codec = 1 ∧ e.pt = 8 ∧ e.rate = 0) ||
    decide (e.codec = 2 ∧ 96 ≤ e.pt ∧ e.pt ≤ 127)

/-- ptime is listed, and holds a whole number of voice-rate samples. -/
def ptimeOk (e : Egress) : Bool := decide (e.ptime = 10 ∨ e.ptime = 20 ∨ e.ptime = 30 ∨ e.ptime = 40) && decide (e.ptime * e.rVoice % 1000 = 0)

/-- An address is IPv4-mapped. -/
def isV4 (a : BitVec 128) : Bool := decide (a.toNat / 2 ^ 32 = 0xFFFF)

/-- An RTP entry's checks on its port (R275). -/
def State.rtpOk (s : State) (e : Egress) : Bool :=
  let t := s.net e.index
  let n := e.ptime * (if e.codec = 2 then rateHz e.rate else 8000) / 1000
  let bytes := (if e.codec = 2 then 2 * n else n) + 12 + 8 + (if isV4 e.dstAddr then 20 else 40)
  codecOk e && ptimeOk e && decide (bytes ≤ bits t.cfg.toNat 29 16) &&
    (if isV4 e.dstAddr then decide (t.ipv4 ≠ 0) else decide (t.ipv6 ≠ 0))

/-- A VCT L16 entry's checks on its session (R275, R323). -/
def State.vctOk (s : State) (stall : Nat) (e : Egress) : Bool :=
  let q := s.sess e.index
  decide (e.index < Config.nSessions ∧ q.st = .opened) && (q.stall.isNone || decide (q.stall = some stall)) &&
    decide (e.dstAddr = 0 ∧ e.dstPort = 0 ∧ e.seqBase = 0 ∧ e.pt = 0 ∧ e.codec = 2) && ptimeOk e &&
    decide (16 + 2 * (e.ptime * rateHz e.rate / 1000) ≤ s.maxBody e.index + 16)

/-- An egress entry meets the rules of R275 for its out_kind; 1 is never given (R323). -/
def State.egressOk (s : State) (stall : Nat) (e : Egress) : Bool :=
  match e.kind with
  | 0 => decide (e.index < 2) && s.rtpOk e
  | 2 => s.vctOk stall e
  | 3 => decide (e.index = 0 ∧ e.dstAddr = 0 ∧ e.dstPort = 0 ∧ e.seqBase = 0 ∧ e.pt = 0 ∧ e.codec = 0 ∧ e.rate = 0 ∧ e.ptime = 0)
  | _ => false

/-- Read bytes 0 to 23 of an egress entry in network byte order. -/
def egressOf (b : List Byte) : Egress :=
  { dstAddr := BitVec.ofNat 128 (fld b 0 16), dstPort := BitVec.ofNat 16 (fld b 16 2), seqBase := BitVec.ofNat 16 (fld b 18 2),
    pt := fld b 20 1, codec := bits (fld b 21 1) 1 0, rate := bits (fld b 21 1) 3 2, ptime := fld b 22 1 }

/-- The reserved bits of an egress entry's bytes 20 to 23 are 0. -/
def egressClean (b : List Byte) : Bool := decide (fld b 20 1 < 128 ∧ fld b 21 1 < 16 ∧ fld b 23 1 = 0)

/-- Codec code 3 is none of Table 12.5's. -/
def codecKnown (e : Egress) : Bool := decide (e.codec ≤ 2)

/-! ## STREAM_OPEN (R323) -/

/-- The lowest stream ID that R52 allows. -/
def State.freeStreamId (s : State) : Option Nat :=
  lowest Config.nStreams (fun n => decide ((s.stream n).st = .free) && !(s.egr n).busy)

/-- Enter a stream into its stall's count. -/
def State.openStream (s : State) (n : Nat) (x : Stream) (e : Egress) : State :=
  ((s.putStream n x).putEgr n { e with ssrc := x.ssrc, life := s.stamp + 1 }).tick.modStall x.stall (fun t => { t with opened := t.opened + 1 })

/-- STREAM_OPEN's own refusals and effect. (DEDUCED, log 24) -/
def streamOpenOwn (h : CmdHdr) (body : List Byte) (s : State) : Act :=
  let k := tgt h
  let v := fld body 0 2
  let kind := fld body 2 1
  let index := fld body 12 2
  let x := s.voice v
  let e0 := egressOf (body.drop 16)
  let e := { e0 with kind := kind, index := index, gen := (s.sess index).gen, rVoice := x.rate, stall := k, markerNext := true }
  let t := s.stall k
  if s.fw.restart.isSome then .no .busy
  else if ¬(v < Config.nVoices ∧ x.loaded) ∨ ¬codecKnown e ∨ ¬s.egressOk k e then .no .badDescriptor
  else if kind = 2 ∧ (s.sess index).version = 6 then .no .version
  else if x.stall ≠ k then .no .noRight
  else if t.st ≠ .open_ then .conflict [s.stallEntry k]
  else if t.quota ≤ t.opened then .no .quota
  else match s.freeStreamId with
    | none => .no .noResource
    | some n =>
      let first := BitVec.ofNat 32 (fld body 4 4)
      let y : Stream :=
        { st := .idle, scan := x.scan, stall := k, voice := v, row := s.pickRow x.rows, outKind := kind, outIndex := index,
          lastAcc := first - 1, lastEm := first - 1, ssrc := BitVec.ofNat 32 (fld body 8 4), origin := n, seed := t.seed }
      .ok (fun s => ((s.openStream n y e).initFolio n).writeJournal n { complete := true, firstSeq := first }) (beBytes 4 n)

/-- STREAM_OPEN's row of Table 14.1, its layout and its reserved fields. -/
def streamOpenShape (body : List Byte) : Shape :=
  { opcode := 0x30, role := 1, scope := .stall, lenOk := decide (body.length = 40),
    fields := zeros body 3 1 && zeros body 14 2 && decide (fld body 2 1 ≤ 3) && egressClean (body.drop 16) }

/-- STREAM_OPEN (R323). -/
def execStreamOpen (h : CmdHdr) (body : List Byte) (s : State) : Host.Outcome State Fault Refusal :=
  run s (clerk (streamOpenShape body) h body.length (streamOpenOwn h body))

/-! ## STREAM_MARK (R70, R324) -/

/-- The boundary of R70: sample_count, past the admitted quire while the stream is RESIDENT. -/
def State.boundary (s : State) (n : Nat) : Nat :=
  let x := s.stream n
  if x.st = .resident then x.samples + (x.quire.map (·.frames)).getD 0 * s.hopOf n else x.samples

/-- The conflict block of a refused mark: the stream and the boundary. (DEDUCED, logs 47, 57) -/
def State.markConflict (s : State) (n : Nat) : Act := .conflict [s.streamEntry n, ⟨5, 0, 0, s.boundary n⟩]

/-- The response body of STREAM_MARK. -/
def markBody (count boundary : Nat) : List Byte := [BitVec.ofNat 8 count, 0, 0, 0] ++ beBytes 8 boundary

/-- STREAM_MARK's own refusals and effect. (DEDUCED, log 47) -/
def streamMarkOwn (h : CmdHdr) (body : List Byte) (s : State) : Act :=
  let n := streamArg body
  let p := fld body 6 6
  let x := s.stream n
  let b := s.boundary n
  if ¬s.owns h n then .no .noRight
  else if x.st = .faulted ∨ x.endReq ∨ x.exportMove then s.markConflict n
  else if p % max 1 (s.hopOf n) ≠ 0 then .no .badDescriptor
  else if x.marks.contains p then .ok id (markBody x.marks.length b)
  else if p < b ∨ x.marks.any (p < ·) then s.markConflict n
  else if 3 ≤ x.marks.length then .no .busy
  else .ok (fun s => s.modStream n (fun x => { x with marks := x.marks ++ [p] })) (markBody (x.marks.length + 1) b)

/-- STREAM_MARK's row of Table 14.1 and its layout. -/
def streamMarkShape (body : List Byte) : Shape :=
  { opcode := 0x32, role := 1, scope := .stall, lenOk := decide (body.length = 12), fields := streamOk body && zeros body 4 2 }

/-- STREAM_MARK (R324). -/
def execStreamMark (h : CmdHdr) (body : List Byte) (s : State) : Host.Outcome State Fault Refusal :=
  run s (clerk (streamMarkShape body) h body.length (streamMarkOwn h body))

/-! ## STREAM_PAUSE (Table 3.5) -/

/-- The body that says a stream's state after the command. (DEDUCED, log 53) -/
def State.stateOf (s : State) (n : Nat) : List Byte := stateBody (s.stream n).st

/-- STREAM_PAUSE's own refusals and effect. (DEDUCED, log 43) -/
def streamPauseOwn (h : CmdHdr) (body : List Byte) (s : State) : Act :=
  let n := streamArg body
  let x := s.stream n
  if ¬s.owns h n then .no .noRight
  else if x.st = .faulted ∨ x.paused then .conflict [s.streamEntry n]
  else match x.st with
    | .resident | .draining =>
      .later (fun s => s.modStream n (fun x => { x with paused := true, deferPause := x.deferPause ++ [s.hdrDefer 0x33 h] }))
    | .queued => .done (fun s => (s.abandon n).modStream n (fun x => { x with paused := true, st := .idle })) (·.stateOf n) 0
    | _ => .done (fun s => s.modStream n (fun x => { x with paused := true })) (·.stateOf n) 0

/-- STREAM_PAUSE's row of Table 14.1 and its layout. -/
def streamPauseShape (body : List Byte) : Shape :=
  { opcode := 0x33, role := 1, scope := .stall, lenOk := decide (body.length = 4), fields := streamOk body }

/-- STREAM_PAUSE (R325). -/
def execStreamPause (h : CmdHdr) (body : List Byte) (s : State) : Host.Outcome State Fault Refusal :=
  run s (clerk (streamPauseShape body) h body.length (streamPauseOwn h body))

/-! ## STREAM_RESUME (Table 3.5) -/

/-- STREAM_RESUME's own refusals and effect. -/
def streamResumeOwn (h : CmdHdr) (body : List Byte) (s : State) : Act :=
  let n := streamArg body
  let x := s.stream n
  if ¬s.owns h n then .no .noRight
  else if x.st = .faulted ∨ ¬x.paused then .conflict [s.streamEntry n]
  else .done (fun s => (s.modStream n (fun x => { x with paused := false })).wake n) (·.stateOf n) 0

/-- STREAM_RESUME's row of Table 14.1 and its layout. -/
def streamResumeShape (body : List Byte) : Shape :=
  { opcode := 0x34, role := 1, scope := .stall, lenOk := decide (body.length = 4), fields := streamOk body }

/-- STREAM_RESUME (R325). -/
def execStreamResume (h : CmdHdr) (body : List Byte) (s : State) : Host.Outcome State Fault Refusal :=
  run s (clerk (streamResumeShape body) h body.length (streamResumeOwn h body))

/-! ## STREAM_END (R325) -/

/-- The stream is FREE by a move export of the command's stall (Table 14.6). (DESIGN CHOICE, log 135) -/
def State.movedAway (s : State) (h : CmdHdr) (n : Nat) : Bool :=
  decide ((s.stream n).st = .free) && decide ((s.stream n).movedBy = some (tgt h))

/-- STREAM_END's own refusals and effect. (DESIGN CHOICE, log 135) -/
def streamEndOwn (h : CmdHdr) (body : List Byte) (s : State) : Act :=
  let n := streamArg body
  if s.movedAway h n then .conflict [s.streamEntry n]
  else if ¬s.owns h n then .no .noRight
  else .done (fun s => s.endStream n (decide (fld body 4 1 = 1))) (·.stateOf n) 0

/-- STREAM_END's row of Table 14.1 and its layout. -/
def streamEndShape (body : List Byte) : Shape :=
  { opcode := 0x35, role := 1, scope := .stall, lenOk := decide (body.length = 8),
    fields := streamOk body && decide (fld body 4 1 ≤ 1) && zeros body 5 3 }

/-- STREAM_END (R325). -/
def execStreamEnd (h : CmdHdr) (body : List Byte) (s : State) : Host.Outcome State Fault Refusal :=
  run s (clerk (streamEndShape body) h body.length (streamEndOwn h body))

/-! ## STREAM_PARK (R67, R392, R397) -/

/-- Draw units from the wear tally; kind 6 reports that it has reached 0 (R391). -/
def State.drawTally (s : State) (units : Nat) : State :=
  let t := s.flash.tally
  let s := s.modFlash (fun f => { f with tally := f.tally - units })
  if 0 < units ∧ t = units then s.flashEvent 6 0 0 none else s

/-- A refusal because the draw exceeds the tally (R392). -/
def noTally : Act := .refuse .quota [] (fun s => s.modFlash (fun f => { f with tallyZero := true }))

/-- Start the park write of a stream: a new handle, and the hub porter's copy (R397). -/
def State.startPark (s : State) (n : Nat) : State :=
  let x := s.stream n
  let s := (s.drawTally 1).modPark n (fun p =>
    { st := .writing, gen := (p.gen + 1) % 16384, stall := x.stall, samples := x.samples, writing := true,
      gone := if p.writing then p.gone ++ [(p.discard.getD .stateConflict, p.stall)] else p.gone, copied := p.copied })
  (s.hubPush n (parkCopy n)).modStream n (fun x => { x with st := .parked })

/-- STREAM_PARK's own refusals and effect. (DEDUCED, log 51) -/
def streamParkOwn (h : CmdHdr) (body : List Byte) (s : State) : Act :=
  let n := streamArg body
  let x := s.stream n
  if ¬s.owns h n then .no .noRight
  else if x.st ≠ .idle ∨ 0 < x.pendFrames ∨ x.endReq then .conflict [s.streamEntry n]
  else if s.flash.readOnly then .no .noResource
  else if s.flash.tally < 1 then noTally
  else .done (fun s => s.startPark n) (·.stateOf n) 0

/-- STREAM_PARK's row of Table 14.1 and its layout. -/
def streamParkShape (body : List Byte) : Shape :=
  { opcode := 0x36, role := 1, scope := .stall, lenOk := decide (body.length = 4), fields := streamOk body }

/-- STREAM_PARK (R325). -/
def execStreamPark (h : CmdHdr) (body : List Byte) (s : State) : Host.Outcome State Fault Refusal :=
  run s (clerk (streamParkShape body) h body.length (streamParkOwn h body))

/-! ## STREAM_EXPORT (R326) -/

/-- The stream is at rest, so that an export takes effect at once: IDLE, PARKED, or QUEUED and not staged. -/
def Stream.atRest (x : Stream) : Bool :=
  decide (x.st = .idle) || decide (x.st = .parked) || (decide (x.st = .queued) && !x.staged)

/-- Every page of the folio can be read: present, or in the park record. -/
def Stream.pagesHere (x : Stream) : Bool := decide (x.res ≠ .remote)

/-- STREAM_EXPORT's own refusals and effect. -/
def streamExportOwn (h : CmdHdr) (body : List Byte) (s : State) : Act :=
  let n := streamArg body
  let x := s.stream n
  let move := decide (fld body 4 1 = 1)
  if ¬s.owns h n then .no .noRight
  else if x.st = .faulted ∨ x.exportReq ∨ (move ∧ x.endReq) then .conflict [s.streamEntry n]
  else match s.freeHandle with
    | none => .no .noResource
    | some i =>
      let port := (s.sess h.session).src.port
      if x.atRest ∧ x.pagesHere ∧ s.imagePoisoned n then .refuse .dataError [] (fun s => s.readFault n)
      else if x.atRest ∧ x.pagesHere then .ok (fun s => (s.freeze n i port move).2) (s.freeze n i port move).1
      else .later (fun s => s.modStream n (fun x =>
        { x with exportReq := true, exportMove := move, deferExport := some (s.hdrDefer 0x37 h) }))

/-- STREAM_EXPORT's row of Table 14.1 and its layout. -/
def streamExportShape (body : List Byte) : Shape :=
  { opcode := 0x37, role := 1, scope := .stall, lenOk := decide (body.length = 8),
    fields := streamOk body && decide (fld body 4 1 ≤ 1) && zeros body 5 3 }

/-- STREAM_EXPORT (R326). -/
def execStreamExport (h : CmdHdr) (body : List Byte) (s : State) : Host.Outcome State Fault Refusal :=
  run s (clerk (streamExportShape body) h body.length (streamExportOwn h body))

/-! ## STREAM_IMPORT (R327, R354 to R358) -/

/-- The fields of an export descriptor that STREAM_IMPORT reads (Table 14.3). -/
structure ImportDesc where
  handle : Nat
  stream : Nat
  hash : BitVec 256
  samples : Nat
  lastMark : Nat
  lastAcc : BitVec 32
  lastEm : BitVec 32
  marks : List Nat
  scan : Bool
  move : Bool
  paused : Bool
  pend : Nat
  chunks : Nat
  origin : Nat
  seed : BitVec 64
  ssrc : BitVec 32
  egress : Egress
  bytes : Nat
  addr : BitVec 128
  udp : BitVec 16
  deriving DecidableEq, Repr

/-- Read a descriptor. -/
def importDesc (b : List Byte) : ImportDesc :=
  let e := egressOf (b.drop 116)
  { handle := fld b 0 4, stream := fld b 4 4, hash := BitVec.ofNat 256 (fld b 8 32), samples := fld b 40 8, lastMark := fld b 48 8,
    lastAcc := BitVec.ofNat 32 (fld b 56 4), lastEm := BitVec.ofNat 32 (fld b 60 4),
    marks := ([fld b 64 8, fld b 72 8, fld b 80 8]).take (fld b 88 1), scan := bitAt (fld b 89 1) 0, move := bitAt (fld b 89 1) 1,
    paused := bitAt (fld b 89 1) 2, pend := fld b 92 4, chunks := fld b 96 4, origin := fld b 100 4,
    seed := BitVec.ofNat 64 (fld b 104 8), ssrc := BitVec.ofNat 32 (fld b 112 4), egress := { e with lastSent := fld b 140 8 },
    bytes := fld b 148 4, addr := BitVec.ofNat 128 (fld b 152 16), udp := BitVec.ofNat 16 (fld b 168 2) }

/-- Reserved fields and ranges of a descriptor (Table 14.3): positions of 48 bits, ascending marks, unused marks 0. -/
def importClean (b : List Byte) : Bool :=
  let d := importDesc b
  let c := fld b 88 1
  decide (c ≤ 3 ∧ fld b 89 1 < 8) && zeros b 90 2 && zeros b 170 2 && egressClean ((b.drop 116).take 23 ++ [0]) &&
    decide (fld b 139 1 < 2 ∧ d.samples < 2 ^ 48 ∧ d.lastMark < 2 ^ 48 ∧ d.egress.lastSent < 2 ^ 48 ∧ d.origin < 2 ^ 18 ∧
      d.pend ≤ Config.pendingLimit) &&
    d.marks.all (· < 2 ^ 48) && decide (d.marks.Pairwise (· < ·)) && zeros b (64 + 8 * c) (24 - 8 * c)

/-- The egress entry that results (R327). (DEDUCED, log 53) -/
def importEgress (e : Egress) (kind index rVoice stall : Nat) : Egress :=
  let base : Egress := { kind := kind, index := index, rVoice := rVoice, stall := stall, lastSent := e.lastSent, markerNext := true }
  match kind with
  | 0 => { base with dstAddr := e.dstAddr, dstPort := e.dstPort, seqBase := e.seqBase, pt := e.pt, codec := e.codec, rate := e.rate, ptime := e.ptime }
  | 2 => { base with codec := 2, rate := e.rate, ptime := e.ptime }
  | _ => base

/-- out_kind and out_index lie within R323 (R327). -/
def State.outOk (s : State) (kind index : Nat) : Bool :=
  match kind with
  | 0 => decide (index < 2)
  | 2 => decide (index < Config.nSessions) && decide ((s.sess index).st = .opened)
  | 3 => decide (index = 0)
  | _ => false

/-- A replay descriptor holds the values of Table 15.5. -/
def replayOk (d : ImportDesc) (b : List Byte) : Bool :=
  decide (d.pend = 0 ∧ d.chunks = 0 ∧ d.addr = 0 ∧ d.udp = 0 ∧ d.lastMark = 0 ∧ ¬d.move) &&
  if d.handle = 0 then decide (d.stream = 0 ∧ d.lastAcc = d.lastEm ∧ 1 ≤ d.marks.length)
  else decide (d.handle = 2 ^ 32 - 1) && zeros b 8 140

/-- Buffers an export image can need at most (R246). -/
def importBufs (d : ImportDesc) : Nat := d.chunks + (d.bytes - 524288 - 16 * d.chunks) / 512

/-- Feed buffers a chunk of `t` tokens needs (R244). -/
def bufsFor (t : Nat) : Nat := ceilDiv t 32

/-- R356: p, F and R of a peer replay fit the hop and the packet of the voice. -/
def peerOk (d : ImportDesc) (hop nv : Nat) : Bool :=
  let p := d.marks.headD 0
  decide (d.samples % max 1 hop = 0 ∧ p % max 1 hop = 0 ∧ d.samples ≤ p ∧ p ≤ d.egress.lastSent) &&
    (decide (nv = 0) || decide (d.egress.lastSent % nv = 0))

/-- What STREAM_IMPORT writes beside the entry: an image to fetch, or a replay's journal and chunks. -/
inductive ImportKind where
  | image | peer | journal
  deriving DecidableEq, Repr

/-- The rows a journal-replayed stream may bind to (R358). -/
def State.barrierRows (s : State) (v : Voice) : List Nat := v.rows.filter (fun r => !(s.row r).cfg.overlap)

/-- The voice's rows in a conflict block (R358); where its mask holds none, the stream that was to be replayed, since a block has
an entry at least (Table 13.3). (DESIGN CHOICE, log 49) -/
def State.rowEntries (s : State) (v : Voice) (n : Nat) : List Conflict :=
  if v.rows = [] then [s.streamEntry n] else v.rows.map s.rowEntry

/-- Place journal records into shared buffers, without credits (R357). -/
def State.gather (s : State) (n : Nat) : List HeldChunk → List HeldChunk × State
  | [] => ([], s)
  | c :: cs =>
    let (b, s) := State.takeBufs (dieOrder n) (bufsFor c.tokens.length) s
    let d := { c with bufs := b, floor := false }
    let (l, s) := (s.storeTokens n d).gather n cs
    (d :: l, s)

/-- Count buffers into a stall's feed_held. -/
def State.holdBufs (s : State) (k c : Nat) : State := s.modStall k (fun t => { t with held := t.held + c })

/-! ### The peer path (R364) -/

/-- Ask an exporter for something. (DESIGN CHOICE, log 160) -/
def State.askPeer (s : State) (to_ : BitVec 128 × BitVec 16) (a : PeerAsk) : State :=
  s.modVct (fun v => { v with asked := (to_, a) :: v.asked })

/-- The body of Palhani's ROLE_ASSERT: role 2 with the peer credential of the configuration record (R315, R364). -/
def peerRole (cred : List Byte) : List Byte := [2, BitVec.ofNat 8 cred.length, 0, 0] ++ cred

/-- Open the peer session of an exporter, where none is open: OPEN at version 7, HELLO, ROLE_ASSERT (R364). (DESIGN CHOICE, log
160) -/
def State.openPeer (s : State) (to_ : BitVec 128 × BitVec 16) : State :=
  if s.vct.peers.contains to_ then s
  else
    let s := s.modVct (fun v => { v with peers := to_ :: v.peers })
    let s := (s.askPeer to_ .opened).askPeer to_ (.command 0x01 [7, 7, 0, 0, 0, 0, 0, 0])
    s.askPeer to_ (.command 0x03 (peerRole s.flash.cfg.peer))

/-- Entries of 512 bytes that one read of an image takes: as many as a response to this module holds, up to 16 (R291, R364). -/
def State.peerCount (s : State) (addr : BitVec 128) : Nat :=
  let port := if (s.net 0).live then 0 else 1
  let ip := if addr.toNat / 2 ^ 32 = 0xFFFF then 20 else 40
  min 16 ((bits (s.net port).cfg.toNat 29 16 - ip - 88) / 512)

/-- The body of a REG_READ of `count` entries of an export image. -/
def peerReadBody (handle index count : Nat) : List Byte :=
  nameBytes ("HUB_EXPORT" ++ toString handle ++ "_IMAGE") ++ beBytes 4 index ++ beBytes 2 count ++ [0, 0]

/-- Ask for an image: its session, and reads of every entry once, in ascending order (R364). (DESIGN CHOICE, log 160) -/
def State.fetchImage (s : State) (f : Fetch) : State :=
  let to_ := (f.addr, f.udp)
  let c := max 1 (s.peerCount f.addr)
  let n := f.bytes / 512
  forEach (fun s i => s.askPeer to_ (.command 0x70 (peerReadBody f.handle.toNat (c * i) (min c (n - c * i)))))
    (List.range (ceilDiv n c)) (s.openPeer to_)

/-- Accept an export image: its pages are remote, the most buffers it can need are taken at once, and its fetch starts (R246,
R327, R364). -/
def State.importImage (s : State) (n : Nat) (d : ImportDesc) (x : Stream) (e : Egress) : State :=
  let hop := max 1 (s.voice x.voice).hop
  let k := importBufs d
  let s := s.openStream n { x with res := .remote, fedFrames := d.samples / hop + d.pend } e
  let (b, s) := State.takeBufs (dieOrder n) k s
  let f : Fetch := ⟨d.addr, d.udp, BitVec.ofNat 32 d.handle, d.bytes, d.chunks, b⟩
  let s := ((s.holdBufs x.stall k).modStream n (fun x => { x with fetch := some f })).fetchImage f
  s.writeJournal n { firstFrame := d.samples / hop, firstSeq := d.lastAcc + 1, replayMark := d.lastMark, complete := false }

/-- Accept a peer replay (R356): the initial folio, and a journal that starts at F. -/
def State.importPeer (s : State) (n : Nat) (d : ImportDesc) (x : Stream) (e : Egress) : State :=
  let hop := max 1 (s.voice x.voice).hop
  let f := d.samples / hop
  let s := ((s.openStream n { x with fedFrames := f } e).initFolio n).writeJournal n
    { firstFrame := f, firstSeq := d.lastAcc + 1, replayMark := d.samples, complete := true }
  s.modClerk (fun c => { c with replayPeer := c.replayPeer + 1 })

/-- A new stream is QUEUED with frames pending and not paused, else IDLE. -/
def State.settleNew (s : State) (n : Nat) : State := s.wake n

/-- Bytes of a journal slot that a replay reads: its header and its records. -/
def Journal.size (j : Journal) : Nat := 64 + (j.records.map recordSize).sum

/-- Some granule of stream `n`'s journal is uncorrectable. -/
def State.journalPoisoned (s : State) (n : Nat) : Bool := s.anyPoison (Config.journalBase + n * Config.journalSlot) (s.journal n).size

/-- Accept a journal replay (R357): the gathered records become the pending chunks. An uncorrectable granule of the journal of
stream `src` faults the replaying stream (Table 10.5). (DESIGN CHOICE, logs 49, 147) -/
def State.importJournal (s : State) (n src : Nat) (j : Journal) (x : Stream) (e : Egress) : State :=
  let bad := s.journalPoisoned src
  let s := s.readSpan (Config.journalBase + src * Config.journalSlot) (s.journal src).size (some x.stall) (some n)
  let s := s.countMove (16 + n % 4) 4 (Config.journalBase + src * Config.journalSlot) (s.journal src).size
  let total := (j.records.map (fun c => frames c.tokens)).sum
  let s := (s.openStream n { x with pendFrames := total, fedFrames := j.firstFrame + total } e).initFolio n
  let (cs, s) := s.gather n j.records
  let s := ((s.holdBufs x.stall ((cs.map HeldChunk.held).sum)).modStream n (fun x => { x with chunks := cs })).releaseIdle n
  let s := ((s.writeJournal n j).modClerk (fun c => { c with replayJrnl := c.replayJrnl + 1 })).settleNew n
  if bad then s.faultStream n .dataError 0 0 else s

/-- The response body of STREAM_IMPORT. -/
def importBody (n : Nat) (st : SState) : List Byte := beBytes 4 n ++ stateBody st

/-- STREAM_IMPORT's own refusals, in the order of R327, and its effect. A journal replay of a stream that has been ended has
no entry to check, and its state refuses it (Table 15.8). (DEDUCED, log 24; DESIGN CHOICE, log 49) -/
def streamImportOwn (h : CmdHdr) (body : List Byte) (s : State) : Act :=
  let k := tgt h
  let d := importDesc body
  let kind := fld body 172 1
  let index := fld body 174 2
  let what : ImportKind := if d.bytes ≠ 0 then .image else if d.handle = 0 then .peer else .journal
  let y := s.stream d.stream
  let t := s.stall k
  let vid := match what with
    | .journal => if y.stall = k then some y.voice else none
    | _ => s.ownVoice k d.hash
  let v := s.voice (vid.getD 0)
  let e := { importEgress (if what = .journal then s.egr d.stream else d.egress) kind index v.rate k with gen := (s.sess index).gen }
  let j := s.journal d.stream
  let rows := s.barrierRows v
  let gone : Bool := decide (what = .journal ∧ y.st = .free)
  let need := match what with
    | .image => importBufs d
    | .peer => 0
    | .journal => (j.records.map (fun c => bufsFor c.tokens.length)).sum
  let pend := match what with
    | .image => d.pend
    | .peer => 0
    | .journal => (j.records.map (fun c => frames c.tokens)).sum
  if s.fw.restart.isSome then .no .busy
  else if ¬s.outOk kind index ∨ (what = .image ∧ d.bytes < 524288 + 32 * d.chunks) ∨ (what ≠ .image ∧ ¬replayOk d body) ∨
      (what = .journal ∧ y.st ≠ .free ∧ y.stall ≠ k) then .no .badDescriptor
  else if ¬(gone ∨ (codecKnown e ∧ s.egressOk k { e with rVoice := if v.rate = 0 then 8000 else v.rate })) then .no .badDescriptor
  else if kind = 2 ∧ (s.sess index).version = 6 then .no .version
  else if what ≠ .journal ∧ vid.isNone then .no .archMismatch
  else if what ≠ .journal ∧ d.scan ≠ v.scan then .no .archMismatch
  else if what = .peer ∧ ¬peerOk d v.hop (Egress.nv { d.egress with rVoice := v.rate }) then .no .badDescriptor
  else if t.st ≠ .open_ then .conflict [s.stallEntry k]
  else if what = .journal ∧ (y.st ≠ .faulted ∨ (y.status ≠ .dataError ∧ y.status ≠ .timeout) ∨ ¬j.complete) then
    .conflict [s.streamEntry d.stream]
  else if what = .journal ∧ ¬rows.any (fun r => decide ((s.row r).st = .live)) then .conflict (s.rowEntries v d.stream)
  else if t.quota ≤ t.opened then .no .quota
  else match s.freeStreamId with
    | none => .no .noResource
    | some n =>
      if s.ungranted < need then .no .noResource
      else
        let x : Stream :=
          { st := .idle, scan := v.scan, paused := d.paused, stall := k, voice := vid.getD 0, row := s.pickRow v.rows,
            outKind := kind, outIndex := index, lastAcc := d.lastAcc, lastEm := d.lastEm, pendFrames := d.pend, samples := d.samples,
            marks := d.marks, lastMark := d.lastMark, ssrc := d.ssrc, origin := d.origin, seed := d.seed }
        let st := if 0 < pend ∧ ¬d.paused then SState.queued else .idle
        match what with
        | .image => .ok (fun s => (s.importImage n d x e).settleNew n) (importBody n st)
        | .peer => .ok (fun s => (s.importPeer n d x e).settleNew n) (importBody n st)
        | .journal =>
          let z := { x with barrier := true, row := s.pickRow rows, lastAcc := y.lastAcc, lastEm := j.firstSeq - 1, samples := j.firstFrame * max 1 v.hop,
                            marks := j.replayMark :: y.marks, ssrc := y.ssrc, origin := y.origin, seed := y.seed }
          .ok (fun s => s.importJournal n d.stream j z e) (importBody n (if s.journalPoisoned d.stream then .faulted else st))

/-- STREAM_IMPORT's row of Table 14.1, its layout and its reserved fields. -/
def streamImportShape (body : List Byte) : Shape :=
  { opcode := 0x38, role := 1, scope := .stall, lenOk := decide (body.length = 180),
    fields := importClean body && decide (fld body 4 4 < Config.nStreams) && zeros body 173 1 && zeros body 176 4 }

/-- STREAM_IMPORT (R327). -/
def execStreamImport (h : CmdHdr) (body : List Byte) (s : State) : Host.Outcome State Fault Refusal :=
  run s (clerk (streamImportShape body) h body.length (streamImportOwn h body))

/-! ## STREAM_QUERY (R325) -/

/-- STREAM_QUERY's own refusal and response: with module scope it may name any stream (R310). -/
def streamQueryOwn (h : CmdHdr) (body : List Byte) (s : State) : Act :=
  let n := streamArg body
  if ¬(modScope h ∨ s.owns h n) then .no .noRight
  else .ok id (wordsBE (streamWords (s.stream n)) ++ wordsBE (egressWords (if (s.stream n).st = .free then {} else s.egr n)))

/-- STREAM_QUERY's row of Table 14.1 and its layout. -/
def streamQueryShape (body : List Byte) : Shape :=
  { opcode := 0x39, role := 1, scope := .either, lenOk := decide (body.length = 4), fields := streamOk body, tornOk := true }

/-- STREAM_QUERY (R325). -/
def execStreamQuery (h : CmdHdr) (body : List Byte) (s : State) : Host.Outcome State Fault Refusal :=
  run s (clerk (streamQueryShape body) h body.length (streamQueryOwn h body))

/-! ## STREAM_FEED (R56, R244) -/

/-- A token is valid for a voice's inventory (R29). -/
def tokenOk (inventory : Nat) (t : FToken) : Bool :=
  decide (t.phone.toNat < 4096 ∧ t.phone.toNat < inventory ∧ t.duration.toNat ≤ 6000) && decide (t.flags.toNat < 8 ∧ t.rsv = 0) &&
    (decide (t.pitch0 = 0xFFFF) == decide (t.pitch1 = 0xFFFF))

/-- What R56 decides on a chunk: a refusal with its record, a duplicate, or acceptance from credits or the floor. -/
inductive Verdict where
  | refuse (st : Status) (state : Nat) (info : BitVec 32)
  | duplicate
  | accept (credits : Nat) (floor : Bool)
  deriving DecidableEq, Repr

/-- The floor of a stream holds a chunk. -/
def Stream.floorHeld (x : Stream) : Bool := x.chunks.any (·.floor)

/-- The checks of R56 in their order; a session of role 0 and a peer session may not feed (R313, R433). -/
def State.classify (s : State) (k : Nat) (c : Chunk) : Verdict :=
  let q := s.sess k
  let n := c.stream.toNat
  let x := s.stream n
  let t := s.stall x.stall
  let d := c.seq - x.lastAcc - 1
  let need := bufsFor c.tokens.length
  if 2 ^ 18 ≤ n ∨ c.rsv ≠ 0 then .refuse .badDescriptor 0 0
  else if q.role = 0 ∨ q.peer then .refuse .noRight 0 0
  else if x.st = .free then
    if q.stall.isSome then .refuse .noRight 0 0 else .refuse .stateConflict x.st.code 0
  else if q.stall.isSome ∧ q.stall ≠ some x.stall then .refuse .noRight 0 0
  else if t.st = .torn then .refuse .stallTorn 0 0
  else if x.st = .faulted then .refuse .stateConflict x.st.code 0
  else if 2 ^ 31 < d.toNat then .duplicate
  else if d ≠ 0 then .refuse .seqGap 0 (x.lastAcc + 1)
  else if x.endReq ∨ x.exportMove then .refuse .stateConflict x.st.code 0
  else if ¬c.tokens.all (tokenOk (s.voice x.voice).inventory) then .refuse .badDescriptor 0 0
  else if Config.pendingLimit < x.pendFrames + frames c.tokens then .refuse .quota 0 0
  else if need ≤ t.tally then .accept need false
  else if need = 1 ∧ ¬x.floorHeld then .accept 0 true
  else .refuse .quota 0 0

/-- Take the buffers of an accepted chunk (R244). -/
def State.takeChunk (s : State) (n : Nat) (c : Chunk) (credits : Nat) (floor : Bool) : HeldChunk × State :=
  let x := s.stream n
  let held : HeldChunk := { seq := c.seq, tokens := c.tokens, frame0 := x.fedFrames, bufs := [], floor := floor }
  if floor then
    (held, (s.modDie (n % 4) (fun d => { d with feedFloor := d.feedFloor + 1 })).holdBufs x.stall 1)
  else
    let s := s.modStall x.stall (fun t => { t with tally := t.tally - credits, held := t.held + credits })
    let s := s.modClerk (fun k => { k with feedGrant := k.feedGrant - credits })
    let (b, s) := State.takeBufs (dieOrder n) credits s
    ({ held with bufs := b }, s)

/-- Accept a chunk: it is appended, journaled, and the stream may become QUEUED. On a stream that holds no feed buffer, the leading
buffers of duration 0 are released at once, and a chunk of no frames is complete at once (R59, R246). -/
def State.acceptChunk (s : State) (n : Nat) (c : Chunk) (credits : Nat) (floor : Bool) : State :=
  let f := frames c.tokens
  let alone := (s.stream n).feedUnits = 0
  let (held, s) := s.takeChunk n c credits floor
  let s := (s.storeTokens n held).modStream n (fun x => { x with
    lastAcc := c.seq, pendFrames := x.pendFrames + f, fedFrames := x.fedFrames + f, chunks := x.chunks ++ [held] })
  let s := if alone then s.releaseIdle n else s
  ((s.journalAppend n held).wake n).settleStall (s.stream n).stall

/-- Queue a feed status record on its session (R272). -/
def State.feedRecord (s : State) (k : Nat) (r : FeedRec) : State :=
  s.modSess k (fun q => { q with feedRecs := q.feedRecs ++ [r] })

/-- One chunk, classified and carried out, with its status record (R56, R272). -/
def State.feed (s : State) (k : Nat) (c : Chunk) : State :=
  let n := c.stream.toNat
  let r : FeedRec := { stream := n % 2 ^ 18, none_ := false, seq := c.seq, status := .ok, credits := 0, state := 0, info := 0 }
  match s.classify k c with
  | .refuse st state info => s.feedRecord k { r with status := st, state := state, info := info }
  | .duplicate => (s.modVct (fun v => { v with dups := v.dups + 1 })).feedRecord k { r with info := 1 }
  | .accept credits floor => (s.acceptChunk n c credits floor).feedRecord k { r with credits := credits }

/-- The record of a payload that does not divide into well-formed chunks (R271). -/
def badPayload : FeedRec := { stream := 0, none_ := true, seq := 0, status := .badLength, credits := 0, state := 0, info := 0 }

/-- STREAM_FEED: one chunk of a FEED message (R271, R313). -/
def execStreamFeed (session : Nat) (c : Chunk) (s : State) : Host.Outcome State Fault Refusal :=
  run s (fun s =>
    if s.clerkUp ∧ (s.sess session).st = .opened then
      if c.tokens.length = 0 ∨ 512 < c.tokens.length then s.feedRecord session badPayload else s.feed session c
    else s)

/-! ## FEED_STATUS (R272) -/

/-- A status record's 16 bytes (Table 12.4). -/
def feedRecBytes (r : FeedRec) : List Byte :=
  beBytes 4 (r.stream + 2 ^ 31 * b2n r.none_) ++ beBytes 4 r.seq.toNat ++
    [r.status.code, BitVec.ofNat 8 r.credits, BitVec.ofNat 8 r.state, 0] ++ beBytes 4 r.info.toNat

/-- FEED_STATUS: up to 64 records of a session leave in one message (R272). -/
def execFeedStatus (session : Nat) (s : State) : Host.Outcome State Fault Refusal :=
  run s (fun s =>
    let q := s.sess session
    let now := q.feedRecs.take (min 64 ((s.maxBody session + 16) / 16))
    if s.clerkUp ∧ q.st = .opened ∧ now ≠ [] then
      (s.modSess session (fun q => { q with feedRecs := q.feedRecs.drop now.length })).post session 9 (now.flatMap feedRecBytes) none
    else s)

end Sys2Proof.Machine
end

