-- ==== Sys2Proof/Machine/Vct.lean ====
section
/-! DEFINITION. The Voxry Command Transport: messages and their checks (R260 to R262), sessions (R263, R264, R269),
acknowledgement and retransmission (R266 to R268), the two paths (R270, R271), frames (R257 to R259), crier messages and
heartbeats (R301 to R303). -/

namespace Sys2Proof

/-- Bytes of a frame that its tag and its UDP datagram or echo request take, with the headers of Ethernet and IP and the FCS. -/
def Frame.least (f : Frame) : Nat :=
  18 + (if f.vlan.isSome then 4 else 0) +
    match f.body with
    | .udp4 _ _ _ _ _ _ d => 28 + d.length
    | .udp6 _ _ _ _ _ _ d => 48 + d.length
    | .echo4 _ _ d => 24 + d.length
    | .echo6 _ _ d => 44 + d.length
    | _ => 0

/-- The frame's length is one that the port takes (R257), and holds what the frame carries. -/
def Frame.lengthOk (f : Frame) : Bool := decide (64 ≤ f.length ∧ f.length ≤ 9216 ∧ f.least ≤ f.length)

end Sys2Proof

namespace Sys2Proof.Machine

/-! ## Messages (R260, R261) -/

/-- A message's bytes with crc taken as 0. -/
def msgBytes (m : VctMsg) : List Byte :=
  [m.version, m.type, m.flags, m.nsack] ++ beBytes 2 m.session.toNat ++ beBytes 2 m.stall.toNat ++ beBytes 4 m.seq.toNat ++
    beBytes 4 m.ack.toNat ++ beBytes 2 m.window.toNat ++ beBytes 2 m.length.toNat ++ beBytes 4 m.epoch.toNat ++
    beBytes 4 m.rsv.toNat ++ beBytes 4 0 ++ m.sacks.flatMap (fun p => beBytes 4 p.1.toNat ++ beBytes 4 p.2.toNat) ++ m.payload

/-- sack = 1. -/
def msgSack (m : VctMsg) : Bool := m.flags.getLsbD 0

/-- resume = 1. -/
def msgResume (m : VctMsg) : Bool := m.flags.getLsbD 1

/-- The check of R261: the crc and the lengths. -/
def crcOk (m : VctMsg) : Bool :=
  decide (m.crc = crc32c (msgBytes m) ∧ m.length.toNat = m.payload.length) &&
    decide (m.sacks.length = if msgSack m then m.nsack.toNat % 8 else 0)

/-- The checks of R260, and R260's on the refused bit. -/
def headerClean (m : VctMsg) : Bool :=
  decide (m.flags.toNat < 4 ∧ m.nsack.toNat ≤ 4 ∧ m.session.toNat < 2048 ∧ m.stall.toNat < 32768 ∧ m.rsv = 0) &&
    (msgSack m || decide (m.nsack = 0))

/-- Read a message from a datagram's bytes; none where the bytes do not hold the header and the payload it states. -/
def parseMsg (b : List Byte) : Option VctMsg :=
  let k := if bitAt (fld b 2 1) 0 then fld b 3 1 % 8 else 0
  let n := fld b 18 2
  if b.length = 32 + 8 * k + n then
    some { version := b.getD 0 0, type := b.getD 1 0, flags := b.getD 2 0, nsack := b.getD 3 0,
           session := BitVec.ofNat 16 (fld b 4 2), stall := BitVec.ofNat 16 (fld b 6 2), seq := BitVec.ofNat 32 (fld b 8 4),
           ack := BitVec.ofNat 32 (fld b 12 4), window := BitVec.ofNat 16 (fld b 16 2), length := BitVec.ofNat 16 n,
           epoch := BitVec.ofNat 32 (fld b 20 4), rsv := BitVec.ofNat 32 (fld b 24 4), crc := BitVec.ofNat 32 (fld b 28 4),
           sacks := (List.range k).map (fun i => (BitVec.ofNat 32 (fld b (32 + 8 * i) 4), BitVec.ofNat 32 (fld b (36 + 8 * i) 4))),
           payload := b.drop (32 + 8 * k) }
  else none

/-- Count a dropped message (R260, R262, R263). -/
def State.vctBad (s : State) : State := s.modVct (fun v => { v with bad := v.bad + 1 })

/-- Messages of port `p` in the receive buffer. (DESIGN CHOICE, log 17) -/
def Vct.filled (v : Vct) (p : Nat) : Nat := (v.rx.filter (fun y => decide (y.1.port = p))).length

/-- The port says over PFC that vct_pcp is to pause, or to go on (R258). -/
def State.sendPfc (s : State) (p : Nat) (pause : Bool) : State :=
  s.sendFrame p (.pfc p (bits (s.net p).qos.toNat 2 0) pause)

/-- Take a message from the receive buffer, if it is the oldest there; PFC of its port is released at half (R258). (DESIGN CHOICE, log 17) -/
def State.popRx (s : State) (x : Src) (m : VctMsg) : State :=
  match s.vct.rx with
  | y :: ys =>
    if y = (x, m) then
      let s := s.modVct (fun v => { v with rx := ys })
      if s.vct.pfcSent.contains x.port ∧ 2 * s.vct.filled x.port ≤ Config.rxCapacity then
        (s.modVct (fun v => { v with pfcSent := v.pfcSent.filter (· ≠ x.port) })).sendPfc x.port false
      else s
    else s
  | [] => s

/-! ## Sessions that end (R269) -/

/-- AUDIO messages of a session that goes away: the samples of its complete packets are discarded and counted, sent and not
acknowledged or not sent yet, and their buffers released (R282). Those of a packet not complete yet go with the AUDIO that
would have carried them, so that packets keep their places (R277). (DESIGN CHOICE, log 146) -/
def State.dropAudio (s : State) (k gen : Nat) : State :=
  forEach (fun s (p : Nat × Egress) =>
    if p.2.kind = 2 ∧ p.2.index = k ∧ p.2.gen = gen then
      let stop := max p.2.lastSent p.2.whole
      let s := s.modVct (fun v => { v with audioDrop := v.audioDrop + BitVec.ofNat 48 (p.2.heldBelow stop) })
      let s := ((s.modEgr p.1 (fun e => { e with lastSent := stop })).releaseEgress p.1 stop).raiseReplayMark p.1
      (s.closeEgress p.1).settleStall p.2.stall
    else s) s.egress s

/-- A session becomes DEAD: its unacknowledged messages and the responses waiting for a ring entry are discarded and
counted, and it sends nothing (R269). -/
def State.killSession (s : State) (k : Nat) : State :=
  let q := s.sess k
  if q.st = .opened then
    let c := (q.tx.length + q.txWait.length + q.rspWait.length)
    let s := (s.dropHeld k).modVct (fun v => { v with lost := v.lost + BitVec.ofNat 48 c })
    let s := s.putSess k { q with
      st := .dead, tx := [], txWait := [], rxHeld := [], feedRecs := [], rspUsed := 0, rspWait := [],
      ring := q.ring.filter (fun c => !(q.rspWait.map (·.1)).contains c.seq) }
    s.dropAudio k q.gen
  else s

/-- A session is freed: its state and its rings go, and its role with it (R269, R429). -/
def State.freeSession (s : State) (k : Nat) : State :=
  let q := s.sess k
  let c := (q.tx.length + q.txWait.length + q.rspWait.length)
  let s := (s.dropHeld k).modVct (fun v => { v with lost := v.lost + BitVec.ofNat 48 c })
  (s.putSess k { gen := q.gen + 1 }).dropAudio k q.gen

/-! ## Acknowledgement (R266 to R268) -/

/-- `a` lies below `b` by half-range serial arithmetic (R266). -/
def below (a b : BitVec 32) : Bool := decide (a ≠ b ∧ (b - a).toNat < 2 ^ 31)

/-- The smoothed round-trip time and its variation after a sample, gains 1/8 and 1/4 (R268). (DEDUCED, log 99) -/
def Session.rtt (q : Session) (r : Nat) : Session :=
  match q.srtt with
  | none => { q with srtt := some r, rttvar := r / 2 }
  | some t =>
    let dev := if t ≤ r then r - t else t - r
    { q with rttvar := (3 * q.rttvar + dev) / 4, srtt := some ((7 * t + r) / 8) }

/-- An acknowledged RESPONSE gives its response ring entry back, and a response that waited for one is written, or the clerk goes
on with the commands that did (R288). (DEDUCED, log 19) -/
def State.rspAcked (s : State) (k : Nat) : State :=
  let s := s.modSess k (fun q => { q with rspUsed := q.rspUsed - 1 })
  match (s.sess k).rspWait with
  | [] => s.serveBad k (s.sess k).ring.length
  | (seq, payload) :: rest => (s.modSess k (fun q => { q with rspWait := rest })).writeResponse k seq payload

/-- What an acknowledged message gives back: a response ring entry, or the egress buffers of an AUDIO message, where the stream ID has
not been opened anew since (R282). -/
def State.acked (s : State) (k : Nat) (m : TxMsg) : State :=
  let s := if m.type = 4 then s.rspAcked k else s
  let s := if m.retx = 0 then s.modSess k (fun q => q.rtt (s.now - m.sentAt)) else s
  match m.stream with
  | none => s
  | some (n, p, life) =>
    let e := s.egr n
    if e.life = life then ((s.releaseEgress n p).closeEgress n).settleStall e.stall else s

/-- Send the waiting messages that the host's window now takes (R267). -/
def State.drainTx (s : State) (k : Nat) : State :=
  let q := s.sess k
  let now := (q.txWait.take (q.window - q.tx.length)).map (fun m => { m with sentAt := s.now, rto := q.rto })
  let s := s.putSess k { q with tx := q.tx ++ now, txWait := q.txWait.drop now.length }
  forEach (fun s m => s.sendVct k (.vct k m.type m.seq m.body)) now s

/-- Send one message again (R268). -/
def State.retransmit (s : State) (k : Nat) (m : TxMsg) : State :=
  let s := s.modSess k (fun q => { q with tx := q.tx.map (fun x =>
    if x.seq = m.seq then { x with retx := x.retx + 1, rto := min 33600000 (2 * x.rto), sentAt := s.now } else x) })
  (s.modVct (fun v => { v with retx := v.retx + 1 })).sendVct k (.vct k m.type m.seq m.body)

/-- A message lies in a SACK block. -/
def inSack (sacks : List (BitVec 32 × BitVec 32)) (q : BitVec 32) : Bool :=
  sacks.any (fun p => decide ((q - p.1).toNat ≤ (p.2 - p.1).toNat))

/-- Unacknowledged messages below three SACKed ones, not SACKed themselves: each is sent again once for being such a hole, were it
sent again for a timeout before or not. (DEDUCED, log 99) -/
def holes : List TxMsg → List TxMsg
  | [] => []
  | m :: ms => (if !m.sacked && !m.fast && decide (3 ≤ (ms.filter (·.sacked)).length) then [m] else []) ++ holes ms

/-- Take the ack, window and SACK blocks of a received message (R266 to R268). -/
def State.takeAck (s : State) (k : Nat) (m : VctMsg) : State :=
  let q := s.sess k
  let done := q.tx.filter (fun t => below t.seq m.ack)
  let sacks := if msgSack m ∧ q.version = 7 then m.sacks else []
  let s := s.putSess k { q with
    tx := (q.tx.filter (fun t => !below t.seq m.ack)).map (fun t => if inSack sacks t.seq then { t with sacked := true } else t),
    window := max 1 m.window.toNat, lastRx := s.now }
  let s := forEach (fun s t => s.acked k t) done s
  let l := holes (s.sess k).tx
  let s := s.modSess k (fun q => { q with tx := q.tx.map (fun t => if (l.map (·.seq)).contains t.seq then { t with fast := true } else t) })
  let s := forEach (fun s t => s.retransmit k t) l s
  s.drainTx k

/-- Insert a message among those held, in ascending order above ack. -/
def insertHeld (base : BitVec 32) (m : VctMsg) : List VctMsg → List VctMsg
  | [] => [m]
  | x :: xs =>
    if (m.seq - base).toNat < (x.seq - base).toNat then m :: x :: xs
    else if m.seq = x.seq then x :: xs
    else x :: insertHeld base m xs

/-- The runs of consecutive sequence numbers in a rising list. -/
def runs : List (BitVec 32) → List (BitVec 32 × BitVec 32)
  | [] => []
  | q :: qs =>
    match runs qs with
    | (a, b) :: l => if a = q + 1 then (q, b) :: l else (q, q) :: (a, b) :: l
    | [] => [(q, q)]

/-- The message expected next is here and is not delivered: a COMMAND that met a full mailbox ring (R270). -/
def Session.refusing (q : Session) : Bool :=
  match q.rxHeld with
  | m :: _ => decide (m.seq = q.rxNext)
  | [] => false

/-- The SACK blocks of an ACK: the highest runs received, up to 4, while holes exist, at version 7 (R265, R267); none while a
COMMAND met a full ring, which is not acknowledged nor any message after it (R270). -/
def Session.sackBlocks (q : Session) : List (BitVec 32 × BitVec 32) :=
  let l := runs (q.rxHeld.map (·.seq))
  if q.version = 7 ∧ ¬q.refusing then l.drop (l.length - 4) else []

/-- Acknowledge: the cumulative ack and the SACK blocks. -/
def State.sendAck (s : State) (k : Nat) : State :=
  let q := s.sess k
  s.sendVct k (.ackMsg k q.rxNext q.sackBlocks [])

/-! ## FEED payloads (R271) -/

/-- A token from its 16 bytes in network order (Table 2.1). -/
def tokenBE (b : List Byte) : FToken :=
  { phone := BitVec.ofNat 16 (fld b 0 2), duration := BitVec.ofNat 16 (fld b 2 2), pitch0 := BitVec.ofNat 16 (fld b 4 2),
    pitch1 := BitVec.ofNat 16 (fld b 6 2), energy := b.getD 8 0, emphasis := b.getD 9 0, flags := b.getD 10 0, rsv := b.getD 11 0,
    condA := BitVec.ofNat 16 (fld b 12 2), condB := BitVec.ofNat 16 (fld b 14 2) }

/-- Divide a payload into chunks; none where it does not divide into well-formed ones. -/
def parseChunks : Nat → List Byte → Option (List Chunk)
  | 0, b => if b = [] then some [] else none
  | fuel + 1, b =>
    if b = [] then some []
    else
      let t := fld b 8 2
      if b.length < 16 ∨ t = 0 ∨ 512 < t ∨ b.length < 16 + 16 * t then none
      else
        let c : Chunk := { stream := BitVec.ofNat 32 (fld b 0 4), seq := BitVec.ofNat 32 (fld b 4 4), rsv := BitVec.ofNat 48 (fld b 10 6),
                           tokens := (List.range t).map (fun i => tokenBE (b.drop (16 + 16 * i))) }
        (parseChunks fuel (b.drop (16 + 16 * t))).map (c :: ·)

/-- Handle a delivered FEED: its chunks in payload order, or one BAD_LENGTH record for the message (R271). -/
def State.feedPayload (s : State) (k : Nat) (b : List Byte) : State :=
  match parseChunks (b.length / 16) b with
  | some (c :: cs) => forEach (fun s c => s.feed k c) (c :: cs) s
  | _ => s.feedRecord k badPayload

/-! ## COMMAND payloads (R270, R288, R290, R313) -/

/-- Deliver a COMMAND to the session's ring; one too short or of no opcode is answered when its turn has come (R290, R292,
R294). -/
def State.pushCommand (s : State) (k : Nat) (m : VctMsg) : State :=
  let s := s.modSess k (fun q => { q with ring := q.ring ++ [{ seq := m.seq, bytes := m.payload, life := q.life }] })
  s.serveBad k (s.sess k).ring.length

/-- The session's command ring takes one more COMMAND (R270, R288). -/
def Session.ringRoom (q : Session) : Bool := decide (q.ring.length < 16)

/-- Deliver messages from the front while they are next and can be delivered. -/
def State.deliver (k : Nat) : Nat → State → State
  | 0, s => s
  | fuel + 1, s =>
    let q := s.sess k
    match q.rxHeld with
    | [] => s
    | m :: ms =>
      if m.seq ≠ q.rxNext ∨ (m.type = 0 ∧ ¬q.ringRoom) then s
      else
        let s := s.putSess k { q with rxHeld := ms, rxNext := q.rxNext + 1 }
        State.deliver k fuel (if m.type = 0 then s.pushCommand k m else s.feedPayload k m.payload)

/-- Take a sequenced message: held within the window, delivered in order, acknowledged (R266, R267). While a COMMAND that
met a full ring is the next message, it and those after it are not acknowledged (R270); a duplicate below it is, again (R266).
(DEDUCED, log 143) -/
def State.takeSeq (s : State) (k : Nat) (m : VctMsg) : State :=
  let q := s.sess k
  let d := (m.seq - q.rxNext).toNat
  let s := if d < 64 then (s.modSess k (fun q => { q with rxHeld := insertHeld q.rxNext m q.rxHeld })).deliver k 65 else s
  if (s.sess k).refusing ∧ (s.sess k).rxNext = q.rxNext ∧ d < 2 ^ 31 then s else s.sendAck k

/-! ## The message rows -/

/-- The session a message belongs to: it names an open session and comes from its address, port, version and epoch
(R263). -/
def State.sessionOf (s : State) (x : Src) (m : VctMsg) : Option Nat :=
  let k := m.session.toNat
  let q := s.sess k
  if q.st = .opened ∧ q.src.addr = x.addr ∧ q.src.udp = x.udp ∧ m.version.toNat = q.version ∧ m.epoch = q.epoch then some k else none

/-- The common path of a received message: R261, then R260 and R262, then what the type does (R348: nothing after a
module failure, but for an OPEN). (DEDUCED, log 98) -/
def receive (type : Nat) (x : Src) (m : VctMsg) (f : State → State) (s : State) : State :=
  let s := s.popRx x m
  if s.power.phase ≠ .up ∨ m.type.toNat ≠ type then s
  else if ¬crcOk m then s.modVct (fun v => { v with badCrc := v.badCrc + 1 })
  else if ¬headerClean m then s.vctBad
  else f s

/-- A message of an open session: its acknowledgement is taken, then `f` runs; any other is dropped and counted. -/
def inSession (x : Src) (m : VctMsg) (f : Nat → State → State) (s : State) : State :=
  if s.clerk.failed.isSome then s
  else match s.sessionOf x m with
    | none => s.vctBad
    | some k => f k (s.takeAck k m)

/-- The stall field of an OPEN: none for a module session. -/
def openStall (m : VctMsg) : Option Nat := if m.stall.getLsbD 14 then none else some (m.stall.toNat % 16384)

/-- An OPEN that opens nothing: an ACK with refused = 1, counted (R263). -/
def State.refuseOpen (s : State) (x : Src) (m : VctMsg) : State := (s.sendOn x.port (.ackTo x 0 m.epoch true)).vctBad

/-- The stall field can be opened: a stall that is not FREE, or the module with ID 0. -/
def State.openTarget (s : State) (m : VctMsg) : Bool :=
  match openStall m with
  | none => decide (m.stall.toNat % 16384 = 0)
  | some k => decide ((s.stall k).st ≠ .free)

/-- A new session (R263). -/
def newSession (x : Src) (m : VctMsg) (now gen : Nat) : Session :=
  { st := .opened, src := x, version := m.version.toNat, epoch := m.epoch, stall := openStall m, window := max 1 m.window.toNat,
    lastRx := now, gen := gen }

/-- A DEAD session opened again: seq 0 in both directions, its role kept (R269, R429). -/
def resumedSession (q : Session) (m : VctMsg) (now : Nat) : Session :=
  { q with st := .opened, txNext := 0, tx := [], txWait := [], rxNext := 0, rxHeld := [], window := max 1 m.window.toNat,
           lastRx := now, rspUsed := 0, srtt := none, rttvar := 0, life := q.life + 1 }

/-- An OPEN's effect (R263, R269, R348). (DEDUCED, log 98) -/
def State.open_ (s : State) (x : Src) (m : VctMsg) : State :=
  let k := m.session.toNat
  let q := s.sess k
  if s.clerk.failed.isSome then s.refuseOpen x m
  else if msgResume m then
    if s.openTarget m ∧ q.st = .dead ∧ q.src.addr = x.addr ∧ q.src.udp = x.udp ∧ m.version.toNat = q.version ∧
        m.epoch = q.epoch ∧ openStall m = q.stall then
      (s.putSess k (resumedSession q m s.now)).sendOn x.port (.ackTo x k m.epoch false)
    else s.refuseOpen x m
  else match s.sessions.find? (fun p => decide (p.2.st = .opened ∧ p.2.src.addr = x.addr ∧ p.2.src.udp = x.udp ∧ p.2.epoch = m.epoch)) with
    | some p => s.sendOn x.port (.ackTo x p.1 m.epoch false)
    | none =>
      if (m.version ≠ 6 ∧ m.version ≠ 7) ∨ ¬s.openTarget m then s.refuseOpen x m
      else match lowest Config.nSessions (fun k => decide ((s.sess k).st = .closed)) with
        | none => s.refuseOpen x m
        | some k => (s.putSess k (newSession x m s.now (s.sess k).gen)).sendOn x.port (.ackTo x k m.epoch false)

/-- VCT OPEN (R263). -/
def execVctOpen (src : Src) (m : VctMsg) (s : State) : Host.Outcome State Fault Refusal :=
  runPort s (receive 7 src m (fun s => s.open_ src m))

/-- VCT CLOSE: the session is freed (R269). -/
def execVctClose (src : Src) (m : VctMsg) (s : State) : Host.Outcome State Fault Refusal :=
  runPort s (receive 8 src m (inSession src m (fun k s => s.freeSession k)))

/-- VCT ACK: the acknowledgement alone (R266, R267). -/
def execVctAck (src : Src) (m : VctMsg) (s : State) : Host.Outcome State Fault Refusal :=
  runPort s (receive 2 src m (inSession src m (fun _ s => s)))

/-- VCT COMMAND (R270). -/
def execVctCommand (src : Src) (m : VctMsg) (s : State) : Host.Outcome State Fault Refusal :=
  runPort s (receive 0 src m (inSession src m (fun k s => s.takeSeq k m)))

/-- VCT FEED (R271). -/
def execVctFeed (src : Src) (m : VctMsg) (s : State) : Host.Outcome State Fault Refusal :=
  runPort s (receive 1 src m (inSession src m (fun k s => s.takeSeq k m)))

/-! ## Frames (R257 to R259) -/

/-- The frame carries the tag the port asks for (R259). -/
def vlanOk (t : NetPort) (f : Frame) : Bool :=
  if t.cfg.getLsbD 3 then decide (f.vlan = some (BitVec.ofNat 12 (bits t.cfg.toNat 15 4))) else f.vlan.isNone

/-- The frame is addressed to the port or to broadcast; a neighbour solicitation comes to its own multicast address. (DEDUCED, log 99) -/
def frameForPort (p : Nat) (f : Frame) : Bool :=
  decide (f.dst = Config.mac p ∨ f.dst = 0xFFFFFFFFFFFF#48) ||
    match f.body with
    | .nd _ _ => f.dst.getLsbD 40
    | _ => false

/-- The IP destination is the port's own address, or IPv4's limited or the subnet's directed broadcast (R259). (DEDUCED, log 99) -/
def ipForPort (t : NetPort) : FrameBody → Bool
  | .echo4 _ d _ | .udp4 _ d _ _ _ _ _ =>
    decide (d = t.ipv4 ∧ d ≠ 0) || decide (t.ipv4 ≠ 0 ∧ d = 0xFFFFFFFF#32) || decide (t.ipv4 ≠ 0 ∧ d = t.ipv4 ||| ~~~t.mask4)
  | .echo6 _ d _ | .udp6 _ d _ _ _ _ _ => decide (d = t.ipv6 ∧ d ≠ 0)
  | _ => true

/-- Count a dropped frame (R259). -/
def State.dropFrame (s : State) (p : Nat) : State := s.modNet p (fun t => { t with rxDrop := t.rxDrop + 1 })

/-- Answer a frame: one frame sent to the MAC and the IP address that asked, once its priority is not paused (R258). -/
def State.answerFrame (s : State) (p kind : Nat) (mac : BitVec 48) (dst : BitVec 128) (data : List Byte) : State :=
  s.sendOn p (.reply p kind mac dst data)

/-- An IPv4 address as an IPv4-mapped one. -/
def mapped (a : BitVec 32) : BitVec 128 := BitVec.ofNat 128 (0xFFFF * 2 ^ 32 + a.toNat)

/-- A datagram's message enters the VCT receive buffer; PFC is sent when the buffer passes three quarters (R258). (DESIGN CHOICE, log 17) -/
def State.pushRx (s : State) (x : Src) (m : VctMsg) : State :=
  let s := s.modVct (fun v => { v with rx := v.rx ++ [(x, m)] })
  if (s.net x.port).cfg.getLsbD 1 ∧ ¬s.vct.pfcSent.contains x.port ∧ 3 * Config.rxCapacity < 4 * s.vct.filled x.port then
    (s.modVct (fun v => { v with pfcSent := v.pfcSent ++ [x.port] })).sendPfc x.port true
  else s

/-- A UDP datagram to vct_port: R261's checks on the bytes, types a host may not send, then the receive buffer. (DEDUCED, log 99) -/
def State.datagram (s : State) (x : Src) (len : Nat) (csumOk : Bool) (data : List Byte) : State :=
  match parseMsg data with
  | none => s.modVct (fun v => { v with badCrc := v.badCrc + 1 })
  | some m =>
    if ¬csumOk ∨ len ≠ data.length + 8 ∨ ¬crcOk m then s.modVct (fun v => { v with badCrc := v.badCrc + 1 })
    else if ¬([0, 1, 2, 7, 8].contains m.type.toNat) then s.vctBad
    else s.pushRx x m

/-- Priorities that a PFC frame pauses or releases, of those in pfc_mask (R258). -/
def pfcPaused (old : Byte) (mask : Nat) (enabled : Byte) (times : List Nat) : Byte :=
  BitVec.ofNat 8 ((List.range 8).foldl (fun a i =>
    let now := if bitAt mask i ∧ enabled.getLsbD i then decide (0 < times.getD i 0) else old.getLsbD i
    a + if now then 2 ^ i else 0) 0)

/-- What a good frame addressed to the port does. (DEDUCED, log 99) -/
def State.frameBody (s : State) (p : Nat) (f : Frame) : State :=
  let t := s.net p
  let port := bits t.ports.toNat 15 0
  match f.body with
  | .pfc en times =>
    if t.cfg.getLsbD 1 then (s.modNet p (fun t => { t with paused := pfcPaused t.paused (bits t.qos.toNat 25 18) en times })).sendHeld p
    else s.dropFrame p
  | .pause | .other => s.dropFrame p
  | .arp x a => if a = t.ipv4 ∧ a ≠ 0 then s.answerFrame p 0 f.src (mapped x) [] else s
  | .nd x a => if a = t.ipv6 ∧ a ≠ 0 then s.answerFrame p 1 f.src x [] else s
  | .echo4 x _ d => s.answerFrame p 2 f.src (mapped x) d
  | .echo6 x _ d => s.answerFrame p 3 f.src x d
  | .udp4 a _ sp dp len ok d =>
    if dp.toNat = port then s.datagram ⟨p, mapped a, sp⟩ len ok d else s.dropFrame p
  | .udp6 a _ sp dp len ok d => if dp.toNat = port then s.datagram ⟨p, a, sp⟩ len ok d else s.dropFrame p

/-- The frame is a flow control frame, which is addressed to no port. -/
def isPfc : FrameBody → Bool
  | .pfc _ _ => true
  | _ => false

/-- What a received frame does: FEC codewords that it took count by their outcome (Table 12.7), then the checks of R257 and
R259. (DESIGN CHOICE, log 144) -/
def State.receiveFrame (s : State) (port : Nat) (f : Frame) : State :=
  let s := s.modNet port (fun t => { t with
    fecCorr := t.fecCorr + BitVec.ofNat 48 f.fecCorr, fecUncorr := t.fecUncorr + BitVec.ofNat 48 f.fecUncorr })
  let t := s.net port
  if ¬f.fcsOk ∨ ¬f.lengthOk then s.dropFrame port
  else
    let s := s.modNet port (fun t => { t with rxFrames := t.rxFrames + 1 })
    if f.fragment ∨ f.options ∨ ¬vlanOk t f ∨ ¬(isPfc f.body ∨ (frameForPort port f ∧ ipForPort t f.body)) then s.dropFrame port
    else s.frameBody port f

/-- Ethernet frame receive (R257 to R259): a frame given by its bytes is read as its headers say. A frame of a length outside
R257's is dropped and counted as one with a bad FCS is. (DESIGN CHOICE, log 144) -/
def execFrameReceive (port : Nat) (f : Frame) (s : State) : Host.Outcome State Fault Refusal :=
  runPort s (fun s => if s.power.phase ≠ .up ∨ ¬(s.net port).live then s else s.receiveFrame port f.read)

/-- A pause time of a received PFC frame runs out: the priority is released (R258). -/
def execPfcPauseExpire (port priority : Nat) (s : State) : Host.Outcome State Fault Refusal :=
  run s (fun s => (s.modNet port (fun t => { t with paused := t.paused &&& ~~~(1 <<< priority : BitVec 8) })).sendHeld port)

/-! ## Timeouts (R268, R269) -/

/-- Retransmission timeout of one message: sent again with its timeout doubled; after the eighth retransmission the
session is DEAD. A message that SACK blocks show as received is not sent again. -/
def execRetransmissionTimeout (session : Nat) (seq : BitVec 32) (s : State) : Host.Outcome State Fault Refusal :=
  run s (fun s =>
    let q := s.sess session
    match q.tx.find? (fun m => decide (m.seq = seq)) with
    | none => s
    | some m =>
      if s.power.phase ≠ .up ∨ s.clerk.failed.isSome ∨ q.st ≠ .opened ∨ m.sacked then s
      else if 8 ≤ m.retx then s.killSession session else s.retransmit session m)

/-- Nothing received on the session for 1 s: DEAD (R269). -/
def execSessionSilenceTimeout (session : Nat) (s : State) : Host.Outcome State Fault Refusal :=
  run s (fun s => s.killSession session)

/-- A DEAD session not resumed within 10 s is freed (R269). -/
def execSessionFreeTimeout (session : Nat) (s : State) : Host.Outcome State Fault Refusal :=
  run s (fun s => if (s.sess session).st = .dead then s.freeSession session else s)

/-- A kept RESYNC snapshot, or a kept attestation report, is 10 s past its last page request (R304, R334). -/
def execSnapshotExpire (session : Nat) (report : Bool) (s : State) : Host.Outcome State Fault Refusal :=
  run s (fun s => s.modSess session (fun q => if report then { q with report := none } else { q with snap := none }))

/-! ## Crier messages (R301) -/

/-- A crier record in network byte order, with its extension when it names two units (Table 13.6). -/
def recordBE (r : CrierRec) : List Byte :=
  beBytes 8 r.seq ++ [BitVec.ofNat 8 r.source, r.status.code] ++ beBytes 2 r.event ++
    [BitVec.ofNat 8 (b2n r.gap + 2 * b2n (!r.ext.isEmpty)), 0] ++ beBytes 2 (r.stall.getD 16384) ++
    beBytes 4 (r.stream.getD (2 ^ 31)) ++ beBytes 4 r.unit ++ beBytes 8 r.arg.toNat ++
    (if r.ext.isEmpty then [] else r.ext.flatMap (beBytes 4) ++ List.replicate (32 - 4 * r.ext.length) 0)

/-- Who takes a record: a stall's home session, or every open module session. -/
def State.takers (s : State) (r : CrierRec) : List Nat :=
  match r.stall with
  | some k => (s.homeOf k).toList
  | none => (s.sessions.filter (fun p => decide (p.2.st = .opened ∧ p.2.stall = none))).map Prod.fst

/-- Split a ring: the records of one message to `dest`, at most `n` and `room` bytes, and what stays. Records that no
session takes stay and are passed over; the message ends before a record with other takers. -/
def State.pickRecords (s : State) (dest : List Nat) : List CrierRec → (n room : Nat) → List CrierRec × List CrierRec
  | [], _, _ => ([], [])
  | r :: rs, n, room =>
    let who := s.takers r
    if who = [] then
      let (a, b) := s.pickRecords dest rs n room
      (a, r :: b)
    else if who = dest ∧ 0 < n ∧ (recordBE r).length ≤ room then
      let (a, b) := s.pickRecords dest rs (n - 1) (room - (recordBE r).length)
      (r :: a, b)
    else ([], r :: rs)

/-- CRIER: up to 40 records of one source go to the session, or the sessions, that take them (R301). -/
def execCrier (source : Nat) (s : State) : Host.Outcome State Fault Refusal :=
  run s (fun s =>
    let c := s.crierSrc source
    match c.ring.find? (fun r => decide (s.takers r ≠ [])) with
    | none => s
    | some r =>
      if ¬s.clerkUp then s
      else
        let dest := s.takers r
        let room := (dest.map (fun k => s.maxBody k + 16)).foldl min 9216
        let (now, rest) := s.pickRecords dest c.ring 40 room
        let s := s.putCrierSrc source { c with ring := rest }
        forEach (fun s k => s.post k 5 (now.flatMap recordBE) none) dest s)

/-! ## Heartbeats (R302, R303) -/

/-- The press a liveness probe belongs to, if it belongs to one. -/
def probePress : Probe → Option Nat
  | .press p => some p
  | .engine e => if e < 16 then some e else none
  | _ => none

/-- Heartbeat raise: every target answered; a press whose core, unit or engine missed its probe is retired (R345), and
no heartbeat is raised. An engine whose transfer waits for a stopped domain fails its probe (R424). The probe goes to a press
only while its node is on, and to none that is retired (R413, R345). -/
def execHeartbeatRaise (missed : List Probe) (s : State) : Host.Outcome State Fault Refusal :=
  run s (fun s =>
    if ¬s.awake ∨ s.clerk.failed.isSome then s
    else
      let stuck := (List.range Config.nEngines).filter (fun e => s.engineWaits e && !missed.contains (.engine e))
      let real := (missed ++ stuck.map Probe.engine).filter (fun p => match probePress p with
        | some i => !(s.press i).retired && s.clk.on.contains i
        | none => true)
      if real = [] then s.modClerk (fun c => { c with hb := c.hb + 1 })
      else forEach (fun s p => match probePress p with
        | some i => s.retirePress i 3
        | none => s) real s)

/-- The heartbeat block (Table 13.8). -/
def State.heartbeatBlock (s : State) (k : Nat) : List Byte :=
  beBytes 8 s.clerk.hb.toNat ++ beBytes 2 (10 * (s.sess k).hbPeriod) ++
    beBytes 2 (b2n s.power.binding + 2 * b2n s.power.thermal) ++
    beBytes 4 ((s.streams.filter (fun p => decide (p.2.st ≠ .free))).length) ++
    beBytes 4 ((s.streams.filter (fun p => decide (p.2.st = .resident))).length) ++ beBytes 4 0 ++ beBytes 8 (s.crierSrc 0).seq

/-- Heartbeat send: the session's period is due, and a heartbeat has been raised since its last one (R302, R303). -/
def execHeartbeatSend (session : Nat) (s : State) : Host.Outcome State Fault Refusal :=
  run s (fun s =>
    let q := s.sess session
    if s.clerkUp ∧ q.st = .opened ∧ 0 < q.hbPeriod ∧ q.hbSent ≠ s.clerk.hb.toNat then
      (s.modSess session (fun q => { q with hbSent := s.clerk.hb.toNat })).sendVct session
        (.ackMsg session q.rxNext q.sackBlocks (s.heartbeatBlock session))
    else s)

/-- The hub watchdog finds that a clerk core has not reported for 10 ms: a module failure (R287). -/
def execClerkWatchdog (_core : Nat) (s : State) : Host.Outcome State Fault Refusal :=
  let fail := fun (s : State) => if s.awake then s.failModule 2 else s
  if s.portsLost ∧ s.clerk.hung then .next (fail s) else run s fail

end Sys2Proof.Machine
end

