-- ==== Sys2Proof/Machine/Egress.lean ====
section
/-! DEFINITION. The egress formatter and the packetiser: the resampler (R280), the G.711 encoder (R281), RTP packets
(R276 to R279), AUDIO messages (R282), and the links of the Ethernet ports (R283). -/

namespace Sys2Proof.Machine

/-! ## The resampler (R280)

The coefficients are evaluated in binary fixed point with 256 fraction bits, far more than the one rounding needs. -/

/-- Fraction bits of the evaluation. -/
def rsBits : Nat := 256

/-- One, in that format. -/
def rsOne : Nat := 2 ^ rsBits

/-- arctan (1 / n) by its series: `p` is the present power, `k` the term. -/
def atanInv (n : Nat) : Nat → Nat → Nat → Int
  | 0, _, _ => 0
  | fuel + 1, k, p => (if k % 2 = 0 then (p / (2 * k + 1) : Int) else -(p / (2 * k + 1) : Int)) + atanInv n fuel (k + 1) (p / (n * n))

/-- π by Machin's formula. -/
def rsPi : Nat := (16 * atanInv 5 120 0 (rsOne / 5) - 4 * atanInv 239 60 0 (rsOne / 239)).toNat

/-- sin of an angle below π by its series: `t` is the present term. -/
def sinSeries (x : Nat) : Nat → Nat → Nat → Int
  | 0, _, _ => 0
  | fuel + 1, k, t =>
    (if k % 2 = 0 then (t : Int) else -(t : Int)) + sinSeries x fuel (k + 1) (t * x / rsOne * x / rsOne / ((2 * k + 2) * (2 * k + 3)))

/-- sin (π · a / b). (PRESUMED, log 6) -/
def sinPi (a b : Nat) : Int :=
  let r := a % (2 * b)
  let v := sinSeries (rsPi * (r % b) / b) 80 0 (rsPi * (r % b) / b)
  if r < b then v else -v

/-- I0 (2 · sqrt h) by its series: `t` is the present term. -/
def besselSeries (h : Nat) : Nat → Nat → Nat → Nat
  | 0, _, _ => 0
  | fuel + 1, k, t => t + besselSeries h fuel (k + 1) (t * h / rsOne / ((k + 1) * (k + 1)))

/-- I0 (8 · sqrt (1 − (t / c)²)): the square of half the argument is 16 · (c² − t²) / c². (PRESUMED, log 6) -/
def kaiser (t c : Nat) : Nat := besselSeries (16 * (c * c - t * t) * rsOne / (c * c)) 120 0 rsOne

/-- Entry hr[j] of the table of a pair (P, R) (R280). (PRESUMED, log 6; DEDUCED, log 37) -/
def rsmpEntry (P R j : Nat) : Int :=
  let c := 24 * R
  let t := ((j : Int) - c).natAbs
  if t = 0 then (((2 * (2 ^ 15 * P * 9) + 10 * R) / (2 * (10 * R)) : Nat) : Int)
  else
    let s := sinPi (9 * t) (10 * R)
    let v := 2 ^ 15 * P * s.natAbs * rsOne / (rsPi * t) * kaiser t c / kaiser 0 c
    let n : Int := (((2 * v + rsOne) / (2 * rsOne) : Nat) : Int)
    if s < 0 then -n else n

/-- The table of a pair (P, R): 48 R + 1 entries. (DESIGN CHOICE, log 91) -/
def rsmpTable (P R : Nat) : List Int := (List.range (48 * R + 1)).map (rsmpEntry P R)

/-- The seven pairs in the order of HUB_RSMP_COEF (R280). -/
def rsmpPairs : List (Nat × Nat) := [(2, 2), (3, 3), (6, 6), (1, 2), (1, 3), (2, 3), (1, 6)]

/-- Output sample `m` of an entry at output rate `hz` (R280): zero history before the latest applied reset mark, zero
from the final sample_count on. -/
def Egress.output (e : Egress) (hz m : Nat) : Int :=
  let r := ratio hz e.rVoice
  if r.1 = r.2 then (e.sample m).getD 0
  else
    let R := max r.1 r.2
    let b := (lastMarkAt e.marks (m * r.2 / max 1 r.1)).getD 0
    let top := m * r.2 + 24 * R
    let lo := max b (ceilDiv (top - 48 * R) (max 1 r.1))
    let hi := match e.final with | some c => min c (top / max 1 r.1 + 1) | none => top / max 1 r.1 + 1
    let acc := ((List.range (hi - lo)).map (fun i => rsmpEntry r.1 R (top - (lo + i) * r.1) * (e.sample (lo + i)).getD 0)).sum
    let y := if acc < 0 then -((2 * (-acc) + 2 ^ 15) / 2 ^ 16) else (2 * acc + 2 ^ 15) / 2 ^ 16
    min 32767 (max (-32768) y)

/-! ## G.711 (R281) -/

/-- rna of y / d. -/
def rnaDiv (y : Int) (d : Nat) : Int :=
  let q : Nat := (2 * y.natAbs + d) / (2 * d)
  if y < 0 then -(q : Int) else q

/-- The magnitude code of a signed value: the one's complement of a negative one. -/
def magCode (v : Int) : Nat := if v < 0 then (-v - 1).toNat else v.toNat

/-- The μ-law code of y (ITU-T G.711). (PRESUMED, log 6) -/
def ulaw (y : Int) : Byte :=
  let v := min 8158 (max (-8159) (rnaDiv y 4))
  let a := min (magCode v + 33) 0x1FFF
  let seg := Nat.log2 a - 4
  let code := 16 * (8 - seg) + (15 - a / 2 ^ seg % 16)
  BitVec.ofNat 8 (if v < 0 then code else code + 128)

/-- The A-law code of y (ITU-T G.711). (PRESUMED, log 6) -/
def alaw (y : Int) : Byte :=
  let v := min 4095 (max (-4096) (rnaDiv y 8))
  let ix := magCode v / 2
  let e := if ix ≤ 15 then 0 else Nat.log2 ix - 3
  let code := if ix ≤ 15 then ix else 16 * e + (ix / 2 ^ (e - 1) - 16)
  BitVec.ofNat 8 (if v < 0 then code else code + 128) ^^^ 0x55#8

/-- A sample as 16 bits, big-endian. -/
def pcm16 (y : Int) : List Byte := beBytes 2 (y % 65536).toNat

/-- Samples in an entry's codec (R276). -/
def Egress.encode (e : Egress) (ys : List Int) : List Byte :=
  if e.codec = 0 then ys.map ulaw else if e.codec = 1 then ys.map alaw else ys.flatMap pcm16

/-! ## Packets (R277 to R279) -/

/-- The next packet: one past its last sample, its first and one past its last output, and the last voice-rate sample
that it waits for. -/
structure Packet where
  stop  : Nat
  m0    : Nat
  m1    : Nat
  needs : Nat
  deriving DecidableEq, Repr

/-- The next packet of an entry (R277): a graceful end cuts the last one. (DEDUCED, log 71) -/
def Egress.packet (e : Egress) : Packet :=
  let r := ratio e.netRate e.rVoice
  let i := e.lastSent / max 1 e.nv
  let n := e.ptime * e.netRate / 1000
  let full := (i + 1) * e.nv
  let stop := match e.final with | some c => min full c | none => full
  let m1 := match e.final with | some c => min ((i + 1) * n) (ceilDiv (c * r.1) (max 1 r.2)) | none => (i + 1) * n
  let needs := if r.1 = r.2 then stop - 1 else ceilDiv ((m1 - 1) * r.2 + 24 * max r.1 r.2) (max 1 r.1)
  { stop := stop, m0 := i * n, m1 := m1, needs := match e.final with | some c => min needs (c - 1) | none => needs }

/-- All samples of the next packet exist (R277, R280), and a cut entry still sends it (R78). (DEDUCED, log 71) -/
def Egress.ready (e : Egress) : Bool :=
  let p := e.packet
  decide (0 < e.nv ∧ e.lastSent < p.stop ∧ p.stop ≤ e.have_ ∧ p.needs < e.have_) &&
    match e.cutTo with
    | some c => decide (p.stop ≤ c)
    | none => true

/-- The M bit of R279, for a packet whose last sample arrived at CTCLK `t`. (DEDUCED, log 72) -/
def Egress.marker (e : Egress) : Bool :=
  e.markerNext || match e.lastPkt, e.arrived e.packet.needs with
    | some sent, some t => decide (sent + e.ptime * 525000 < t)
    | _, _ => false

/-- The entry after the packet has been sent. -/
def Egress.sentTo (e : Egress) (now stop : Nat) : Egress := { e with lastSent := stop, markerNext := false, lastPkt := some now }

/-- What follows a packet whose samples have been released. -/
def State.afterPacket (s : State) (n : Nat) : State := (s.closeEgress n).settleStall (s.egr n).stall

/-! ## RTP_PACKET_SEND (R276 to R279, R283) -/

/-- The port a packet bound to port `p` leaves by, if any (R283). (DEDUCED, log 73) -/
def State.egressPort (s : State) (p : Nat) : Option Nat :=
  if (s.net p).live then some p
  else if (s.net p).cfg.getLsbD 2 ∧ (s.net (1 - p)).live then some (1 - p)
  else none

/-- The output position at which packet `i` starts: floor (c × r_out / r_voice) with c = i × n_v (R61, R277, R282). -/
def Egress.startOf (e : Egress) (i : Nat) : Nat := i * e.nv * e.netRate / max 1 e.rVoice

/-- The RTP packet of an entry by port `p` (R61, R276, R277). -/
def State.rtpPacket (s : State) (n p : Nat) : RtpPkt :=
  let e := s.egr n
  let t := s.net p
  let k := e.packet
  let i := e.lastSent / max 1 e.nv
  { stream := n, dst := e.dstAddr, dport := e.dstPort, sport := BitVec.ofNat 16 (bits t.ports.toNat 31 16),
    dscp := bits t.qos.toNat 17 12,
    vlan := if t.cfg.getLsbD 3 then some (bits t.cfg.toNat 15 4, bits t.qos.toNat 5 3) else none,
    pt := e.pt, marker := e.marker, seq := BitVec.ofNat 16 (e.seqBase.toNat + i),
    stamp := BitVec.ofNat 32 (e.startOf i), ssrc := e.ssrc,
    payload := e.encode ((List.range (k.m1 - k.m0)).map (fun j => e.output e.netRate (k.m0 + j))) }

/-- What the entry and the journal do when samples up to `stop` have left or are discarded: buffers return, the resume position
has moved (R248, R354), and a stream that is FREE may be done with its entry. -/
def State.leftTo (s : State) (n stop : Nat) : State := ((s.releaseEgress n stop).raiseReplayMark n).afterPacket n

/-- Send the next packet, or discard it at its send time when no link carries it; its samples are released either way. A
packet that is discarded has not been sent: the marker waits for one that is (R279). -/
def State.sendRtp (s : State) (n : Nat) : State :=
  let e := s.egr n
  let stop := e.packet.stop
  let out := s.egressPort e.index
  match out with
  | some p =>
    if (s.net p).paused.getLsbD (bits (s.net p).qos.toNat 5 3) then s
    else
      let pkt := s.rtpPacket n p
      let s := (s.modNet p (fun t => { t with txFrames := t.txFrames + 1 })).modVct (fun v => { v with rtpPkts := v.rtpPkts + 1 })
      ((s.emit (.rtp p pkt)).putEgr n (e.sentTo s.now stop)).leftTo n stop
  | none =>
    let s := s.modVct (fun v => { v with rtpDrop := v.rtpDrop + 1 })
    (s.putEgr n { e with lastSent := stop }).leftTo n stop

/-- RTP_PACKET_SEND: the packetiser sends a stream's next packet once all its samples exist (R277). (DEDUCED, log 73) -/
def execRtpPacketSend (stream : Nat) (s : State) : Host.Outcome State Fault Refusal :=
  run s (fun s =>
    let e := s.egr stream
    if s.awake ∧ s.clerk.failed.isNone ∧ e.kind = 0 ∧ e.ready then s.sendRtp stream else s)

/-! ## AUDIO (R282) -/

/-- The payload of the next AUDIO message. -/
def State.audioPayload (s : State) (n : Nat) : List Byte :=
  let e := s.egr n
  let k := e.packet
  beBytes 4 n ++ beBytes 8 (e.startOf (e.lastSent / max 1 e.nv)) ++ beBytes 2 (k.m1 - k.m0) ++ beBytes 2 0 ++
    (List.range (k.m1 - k.m0)).flatMap (fun j => pcm16 (e.output e.netRate (k.m0 + j)))

/-- The session that an entry's AUDIO messages go to is open, and is the one that the stream was bound to. -/
def State.audioOpen (s : State) (e : Egress) : Bool := decide ((s.sess e.index).st = .opened ∧ (s.sess e.index).gen = e.gen)

/-- Send the next period on the entry's session; on a DEAD or freed session its samples are discarded and counted. (DESIGN
CHOICE, log 146) -/
def State.sendAudio (s : State) (n : Nat) : State :=
  let e := s.egr n
  let k := e.packet
  if s.audioOpen e then
    ((s.putEgr n (e.sentTo s.now k.stop)).post e.index 6 (s.audioPayload n) (some (n, k.stop, e.life))).raiseReplayMark n
  else
    let s := s.modVct (fun v => { v with audioDrop := v.audioDrop + BitVec.ofNat 48 (k.stop - e.lastSent) })
    (s.putEgr n { e with lastSent := k.stop }).leftTo n k.stop

/-- AUDIO: one packet period of a VCT L16 stream (R282). -/
def execAudio (stream : Nat) (s : State) : Host.Outcome State Fault Refusal :=
  run s (fun s =>
    let e := s.egr stream
    if s.awake ∧ s.clerk.failed.isNone ∧ e.kind = 2 ∧ e.ready then s.sendAudio stream else s)

/-! ## Links (R283, R422) -/

/-- LINK_DOWN (R283). -/
def execLinkDown (port : Nat) (s : State) : Host.Outcome State Fault Refusal := run s (fun s => s.dropLink port)

/-- LINK_UP: training of an enabled port has ended. -/
def execLinkUp (port : Nat) (s : State) : Host.Outcome State Fault Refusal :=
  run s (fun s =>
    if s.power.phase = .up ∧ (s.net port).cfg.getLsbD 0 ∧ ¬(s.net port).up ∧ ¬s.lanesTaken port then
      (s.modNet port (fun t => { t with up := true })).linkEvent port 1
    else s)

end Sys2Proof.Machine
end

