-- ==== Sys2Proof/Machine/Flash.lean ====
section
/-! DEFINITION. The flash store: the library commands (R331 to R333, R401 to R403), park writes (R397, R399), the wear
tally (R391), scrub and bad blocks (R393 to R396), and what expires there (R331, R400, R402). -/

namespace Sys2Proof.Machine

/-! ## The library (R401, R402) -/

/-- The largest library entry: 4.25 GiB. -/
def libMax : Nat := 4563402752

/-- Where the library lies in space 3 (Table 17.1): its first address and one past its 12 TiB. -/
def libBase : Nat := 0x2000000000

/-- One past the library. -/
def libEnd : Nat := 0x2000000000 + 12 * 2 ^ 40

/-- Round up to 16 MiB. -/
def align16m (a : Nat) : Nat := ceilDiv a 16777216 * 16777216

/-- The extents of the library's entries, those being erased among them. (DESIGN CHOICE, log 163) -/
def State.libExtents (s : State) : List (Nat × Nat) :=
  (s.flash.lib.filter (fun p => p.2.used)).map (fun p => (p.2.addr, align16m p.2.total))

/-- The lowest free extent of `size` bytes. (DESIGN CHOICE, log 163) -/
def libFit (used : List (Nat × Nat)) (size : Nat) : Option Nat :=
  let free := fun (a : Nat) =>
    decide (a + size ≤ libEnd) && used.all (fun u => decide (a + size ≤ u.1 ∨ u.1 + u.2 ≤ a))
  ((libBase :: used.map (fun u => u.1 + u.2)).filter free).foldl
    (fun m a => match m with
      | none => some a
      | some b => some (min a b)) none

/-- An entry is the base of a row, also of one still to be rebuilt with it, or the adapter of a loaded voice (R333). -/
def State.libInUse (s : State) (n : Nat) : Bool :=
  s.voices.any (fun p => p.2.loaded && decide (p.2.entry = n)) || s.bases.any (fun p => p.2.used && decide (p.2.entry = n)) ||
  s.rows.any (fun p => decide (p.2.st ≠ .absent) &&
    (decide (p.2.cfg.entry = n ∧ p.2.cfg.presses ≠ 0) || (p.2.newCfg.any (fun c => decide (c.entry = n ∧ c.presses ≠ 0)))))

/-- The entry is in the listing. -/
def LibEntry.listed (e : LibEntry) : Bool := e.used && !e.erasing

/-- Take an entry out of the listing; its blocks are still to be erased (R402). (DEDUCED, log 83) -/
def State.eraseLib (s : State) (n : Nat) : State := s.modLib n (fun e => { e with erasing := true })

/-- Units a library part draws (Table 17.2). -/
def libDraw (bytes : Nat) : Nat := ceilDiv (8 * bytes) (7 * 524288)

/-! ## LIB_WRITE (R331) -/

/-- What a part would leave: the entry's number, the entry, and whether the part creates it. -/
structure Part where
  entry  : Nat
  e      : LibEntry
  create : Bool

/-- The first refusals of R331, or the part's entry as the write leaves it. -/
def State.libPart (s : State) (owner : Nat × Nat) (body : List Byte) : Act ⊕ Part :=
  let n := fld body 0 4
  let off := fld body 4 8
  let total := fld body 12 8
  let data := body.drop 24
  if n = 2 ^ 32 - 1 then
    if off ≠ 0 ∨ total = 0 ∨ libMax < total ∨ total < data.length then .inl (.no .badDescriptor)
    else match lowest 65536 (fun i => !(s.lib i).used), libFit s.libExtents total with
      | some i, some a =>
        if s.flash.readOnly then .inl (.no .noResource)
        else .inr ⟨i, { used := true, total := total, bytes := data, addr := a, owner := owner }, true⟩
      | _, _ => .inl (.no .noResource)
  else
    let e := s.lib n
    if ¬e.listed ∨ e.ready ∨ total ≠ e.total ∨ total < off + data.length then .inl (.no .badDescriptor)
    else if e.owner ≠ owner then .inl (.no .busy)
    else if off ≠ e.bytes.length then .inl (.refuse .seqGap (beBytes 8 e.bytes.length) id)
    else if s.flash.readOnly then .inl (.no .noResource)
    else .inr ⟨n, { e with bytes := e.bytes ++ data }, false⟩

/-- Write a part into flash: the tally's draw, the pages it fills, and the entry. -/
def State.writePart (s : State) (p : Part) (bytes : Nat) : State :=
  let s := s.drawTally (libDraw bytes)
  let s := s.flashWrite (libData p.entry) (libPages p.e.bytes.length - libPages (p.e.bytes.length - bytes))
  s.putLib p.entry p.e

/-- LIB_WRITE's own refusals and effect. A commit whose checks fail erases the entry. (DEDUCED, log 84) -/
def libWriteOwn (h : CmdHdr) (body : List Byte) (s : State) : Act :=
  let commit := decide (fld body 20 1 = 1)
  let bytes := body.length - 24
  match s.libPart (h.session, (s.sess h.session).gen) body with
  | .inl a => a
  | .inr p =>
    let answer := beBytes 4 p.entry ++ beBytes 8 p.e.bytes.length
    if s.flash.tally < libDraw bytes then noTally
    else if ¬commit then .ok (fun s => s.writePart p bytes) answer
    else if p.e.bytes.length ≠ p.e.total then .no .badDescriptor
    else match imageCheck p.e.bytes false with
      | some st => .refuse st [] (fun s => if p.create then s else s.eraseLib p.entry)
      | none => .done (fun s => s.writePart { p with e := { p.e with ready := true } } bytes) (fun _ => answer) 1

/-- LIB_WRITE's row of Table 14.1 and its layout; it is audited on create and commit. -/
def libWriteShape (h : CmdHdr) (body : List Byte) : Shape :=
  { opcode := 0x50, role := 2, scope := .module, lenOk := decide (24 ≤ body.length),
    fields := decide (fld body 20 1 ≤ 1) && zeros body 21 3,
    audited := decide (fld body 0 4 = 2 ^ 32 - 1 ∨ fld body 20 1 = 1), detail := hdrRaw 0x50 h ++ body }

/-- LIB_WRITE (R331). -/
def execLibWrite (h : CmdHdr) (body : List Byte) (s : State) : Host.Outcome State Fault Refusal :=
  run s (clerk (libWriteShape h body) h body.length (libWriteOwn h body))

/-! ## LIB_LIST (R332) -/

/-- A record of the listing. A WRITING entry has no checked header: its kind and canonical_hash are stated nowhere, and
are free values (log 82). (DESIGN CHOICE, log 82) -/
def State.libRecord (s : State) (n : Nat) : List Byte :=
  let e := s.lib n
  let p := pkgOf e.bytes
  let kind := if e.ready then p.kind else (Config.freeWord (s.free + 65536 + n)).toNat
  let hash := if e.ready then p.hash else Config.freeWord (s.free + n)
  beBytes 4 n ++ [BitVec.ofNat 8 kind, if e.ready then 1 else 0, BitVec.ofNat 8 (b2n (s.libInUse n)), 0] ++
    beBytes 8 e.total ++ wordBytes hash

/-- The listing from entry `first` on, at most `room` records. -/
def State.libListing (s : State) (first room : Nat) : List Byte :=
  let ids := (s.flash.lib.filter (fun p => decide (first ≤ p.1) && p.2.listed)).map Prod.fst
  let now := ids.take room
  beBytes 2 now.length ++ beBytes 2 0 ++ beBytes 4 ((ids[room]?).getD (2 ^ 32 - 1)) ++ now.flatMap s.libRecord

/-- LIB_LIST's response. Free values once listed are not given again. (DESIGN CHOICE, log 82) -/
def libListOwn (h : CmdHdr) (body : List Byte) (s : State) : Act :=
  .ok (fun s => if s.flash.lib.any (fun p => p.2.listed && !p.2.ready) then { s with free := s.free + 131072 } else s)
    (s.libListing (fld body 0 4) ((s.maxBody h.session - 8) / 48))

/-- LIB_LIST's row of Table 14.1 and its layout. -/
def libListShape (body : List Byte) : Shape :=
  { opcode := 0x51, role := 1, scope := .either, lenOk := decide (body.length = 8), fields := zeros body 4 4 }

/-- LIB_LIST (R332). -/
def execLibList (h : CmdHdr) (body : List Byte) (s : State) : Host.Outcome State Fault Refusal :=
  run s (clerk (libListShape body) h body.length (libListOwn h body))

/-! ## LIB_ERASE (R333, R402) -/

/-- LIB_ERASE's own refusals and effect. (DEDUCED, log 83) -/
def libEraseOwn (body : List Byte) (s : State) : Act :=
  let n := fld body 0 4
  if ¬(s.lib n).listed then .no .badDescriptor
  else if s.libInUse n then .no .busy
  else .done (fun s => s.eraseLib n) (fun _ => []) 1

/-- LIB_ERASE's row of Table 14.1 and its layout. -/
def libEraseShape (h : CmdHdr) (body : List Byte) : Shape :=
  { opcode := 0x52, role := 2, scope := .module, lenOk := decide (body.length = 4), fields := true,
    audited := true, detail := hdrRaw 0x52 h ++ body }

/-- LIB_ERASE (R333). -/
def execLibErase (h : CmdHdr) (body : List Byte) (s : State) : Host.Outcome State Fault Refusal :=
  run s (clerk (libEraseShape h body) h body.length (libEraseOwn body))

/-- LIB_ERASE_DONE: the blocks are erased, and extent and number are free again (R402). (DEDUCED, log 83) -/
def execLibEraseDone (entry : Nat) (s : State) : Host.Outcome State Fault Refusal :=
  run s (fun s => if s.awake ∧ (s.lib entry).used ∧ (s.lib entry).erasing then (s.flashFree (libData entry)).putLib entry {} else s)

/-- LIB_ENTRY_TIMEOUT: a WRITING entry without a write for 60 s is erased (R331). (DEDUCED, log 85) -/
def execLibEntryTimeout (entry : Nat) (s : State) : Host.Outcome State Fault Refusal :=
  run s (fun s => if s.awake ∧ (s.lib entry).listed ∧ ¬(s.lib entry).ready then s.eraseLib entry else s)

/-! ## Park writes (R67, R397, R399, R405) -/

/-- A PARK_DONE record (Table 13.7). -/
def State.parkRecord (s : State) (n stall : Nat) (st : Status) (handle : Nat) : State :=
  s.raise 12 { seq := 0, source := 0, status := st, event := 0x0003, stall := some stall, stream := some n,
               arg := BitVec.ofNat 64 handle }

/-- A park write has ended: its 32 pages are programmed, or it is counted as failed, and the blocks it
failed on are retired (R390, R395, R397). -/
def State.parkEnded (s : State) (n : Nat) (ok : Bool) : State :=
  let s := s.modPark n (fun p => { p with copied := p.copied - 1 })
  if ok then (s.flashFree n).flashWrite n 32 else s.programFailed.modFlash (fun f => { f with parkFail := f.parkFail + 1 })

/-- The record that a discarded or failed write of stream `n` leaves: none. -/
def State.parkLost (s : State) (n : Nat) : State :=
  (s.flashFree n).modPark n (fun p => { gen := p.gen, copied := p.copied, reading := p.reading, fetched := p.fetched })

/-- The record of stream `n` becomes valid (R397). (DEDUCED, log 54) -/
def State.parkValid (s : State) (n : Nat) : State :=
  let p := s.park n
  let handle := n + 2 ^ 18 * p.gen
  let s := s.modFlash (fun f => { f with parks := f.parks + 1 })
  let s := s.modPark n (fun p => { p with st := .valid, writing := false })
  let s := s.modStream n (fun x => { x with inFlash := true, handle := BitVec.ofNat 32 handle, res := .inFlash })
  s.parkRecord n p.stall .ok handle

/-- PARK_DONE: the end of the oldest park write of a stream whose bytes the hub porter has copied. (DESIGN CHOICE, log 70) -/
def execParkDone (stream : Nat) (ok : Bool) (s : State) : Host.Outcome State Fault Refusal :=
  run s (fun s =>
    let p := s.park stream
    if ¬s.awake ∨ p.copied = 0 then s
    else match p.gone with
      | (st, k) :: rest => ((s.parkEnded stream ok).modPark stream (fun p => { p with gone := rest })).parkRecord stream k st 0
      | [] =>
        if ¬p.writing then s
        else
          let s := s.parkEnded stream ok
          match p.discard with
          | some st => (s.parkLost stream).parkRecord stream p.stall st 0
          | none =>
            if ok then s.parkValid stream
            else (s.parkLost stream).parkRecord stream p.stall .dataError (stream + 2 ^ 18 * p.gen))

/-! ## The wear tally (R391) -/

/-- TALLY_REFILL: one unit more, up to the cap. -/
def execTallyRefill (s : State) : Host.Outcome State Fault Refusal :=
  run s (fun s => if s.awake then s.modFlash (fun f => { f with tally := min Config.tallyCap (f.tally + 1) }) else s)

/-- TALLY_SAVE: Palhani saves the tally in flash metadata. -/
def execTallySave (s : State) : Host.Outcome State Fault Refusal :=
  run s (fun s => if s.awake then s.modFlash (fun f => { f with saved := f.tally }) else s)

/-! ## Scrub (R393, R394, R403) -/

/-- A library entry whose stripe cannot be rebuilt is damaged (R403). -/
def State.damageEntry (s : State) (n channel : Nat) : State :=
  if (s.lib n).used then (s.modLib n (fun e => { e with damaged := true })).flashEvent 8 n channel none else s

/-- The block of a page is refreshed: too many corrected bits, too many retries, or data held for 90 days of powered time
(R393). Fields: most corrected bits, read-retry levels, CTCLK cycles held. -/
def refreshDue (bits retries held : Nat) : Bool := decide (72 < bits ∨ 4 < retries ∨ 90 * dayCycles ≤ held)

/-- A block is refreshed: its data moves to another block and its age starts again; counted, also for the boot scrub's report (R393,
R394, Table 17.4). How many pages a block holds that nothing in this model wrote is a free value. (DEDUCED, log 158) -/
def State.refreshBlock (s : State) (b : Nat) : State :=
  let (w, n) := s.flash.wear.relocate s.now b
  let n := if n = 0 then 1 + s.draw.1.toNat % blockPages else n
  s.draw.2.modFlash (fun f => { f with
    wear := w.level s.now, refresh := f.refresh + 1, bootPages := if f.bootScrub then f.bootPages + n else f.bootPages })

/-- A page that patrol scrub could not decode: reported as rebuilt or lost, and its block retired (R395, R403, R404). -/
def State.lostPage (s : State) (page : ScrubPage) : State :=
  let s := s.flashEvent 4 (b2n page.rebuilt) page.channel none
  let s := match page.entry with
    | some n => if page.rebuilt then s else s.damageEntry n page.channel
    | none => s
  s.retireBlock page.block page.channel

/-- FLASH_SCRUB: the channel's counters, then a refresh, or a retirement with what was lost. A page outside the store or
beyond the code's limits is no page (R388, R389). -/
def execFlashScrub (page : ScrubPage) (s : State) : Host.Outcome State Fault Refusal :=
  run s (fun s =>
    if s.awake ∧ page.wf then
      let s := s.modFlashCh page.channel (fun c => { c with
        reads := c.reads + 1, corr := c.corr + BitVec.ofNat 48 page.corrWords, retry := c.retry + BitVec.ofNat 48 page.retries,
        uncorr := if page.readable then c.uncorr else c.uncorr + 1 })
      if ¬page.readable then s.lostPage page
      else if refreshDue page.corrBits page.retries (s.now - (s.flash.wear.blk page.block).since) then s.refreshBlock page.block
      else s
    else s)

/-- BOOT_SCRUB_COMPLETE (R394): its report counts the pages that the scrub has had refreshed (Table 17.4). (DEDUCED, log 158) -/
def execBootScrubComplete (_refreshed : Nat) (s : State) : Host.Outcome State Fault Refusal :=
  run s (fun s =>
    if s.awake ∧ s.flash.bootScrub then
      (s.modFlash (fun f => { f with bootScrub := false, bootPages := 0 })).flashEvent 7 s.flash.bootPages 0 none
    else s)

/-- FLASH_CHANNEL_RESET: the channel's crossing is flushed; reads are issued again and programs retried (Table 18.5). -/
def execFlashChannelReset (_channel : Nat) (s : State) : Host.Outcome State Fault Refusal :=
  run s (fun s => if s.awake then s.modClk (fun c => { c with flushes := c.flushes + 1 }) else s)

/-! ## Orphans (R400) -/

/-- Free an orphan park record; its generation goes on. -/
def State.freeOrphan (s : State) (n : Nat) : State :=
  if (s.park n).st = .orphan then
    let s := (s.flashFree n).putPark n { gen := (s.park n).gen }
    { s with mem := mclear s.mem (parkAddr n) Config.folioBytes }
  else s

/-- ORPHAN_EXPIRE: 24 h of powered time have passed. -/
def execOrphanExpire (record : Nat) (s : State) : Host.Outcome State Fault Refusal :=
  run s (fun s => if s.awake then s.freeOrphan record else s)

end Sys2Proof.Machine
end

