-- ==== Sys2Proof/Machine/Sap.lean ====
section
/-! DEFINITION. The serial audio ports: SAP_CONFIG, SAP_SLOTMASK and SAP_BIND (R328 to R330), the frame sync with its
decisions, slot groups, masks and inbound detection (R370 to R387), the watchdog and its muted periods. -/

namespace Sys2Proof.Machine

/-! ## Slots and streams -/

/-- A port's slot. -/
def Sap.slot (t : Sap) (i : Nat) : Slot := tget {} t.tbl i

/-- Change a port's slot. -/
def Sap.modSlot (t : Sap) (i : Nat) (f : Slot → Slot) : Sap := { t with tbl := tset {} t.tbl i (f (t.slot i)) }

/-- A port's group. -/
def Sap.group (t : Sap) (g : Nat) : Group := tget {} t.groups g

/-- A SAP_EVENT record (R385). (DEDUCED, log 78) -/
def State.sapEvent (s : State) (p kind slot : Nat) : State :=
  s.raise 11 { seq := 0, source := 0, status := .ok, event := 0x0040, unit := p, arg := BitVec.ofNat 64 (kind + 65536 * slot) }

/-- Output samples of an entry that exist at rate `hz` (R280): those whose voice samples are all there. -/
def Egress.outputs (e : Egress) (hz : Nat) : Nat :=
  let r := ratio hz e.rVoice
  let top := e.have_
  let free := if r.1 = r.2 then top
    else if r.1 * (top - 1) < 24 * max r.1 r.2 then 0
    else (r.1 * (top - 1) - 24 * max r.1 r.2) / max 1 r.2 + 1
  match e.final with
  | some c => if c ≤ top then ceilDiv (c * r.1) (max 1 r.2) else free
  | none => free

/-- The output at which an entry bound now begins. -/
def Egress.firstOutput (e : Egress) (hz : Nat) : Nat :=
  let r := ratio hz e.rVoice
  ceilDiv (e.lastSent * r.1) (max 1 r.2)

/-- Streams bound on port `p`, ascending by slot. -/
def Sap.bound (t : Sap) : List Nat := (t.tbl.filter (fun e => e.2.bound)).map (fun e => e.2.stream)

/-! ## SAP_CONFIG (R328) -/

/-- Hz of a master clock; an external one is not known, and its highest is taken. (DEDUCED, log 75) -/
def masterHz (mclk : Nat) : Nat := if mclk = 1 then 22579200 else 24576000

/-- The refusals of R328 and R371 that give ST_BAD_DESCRIPTOR. (DEDUCED, log 75) -/
def sapFormatBad (mode clock mclk slots bits rate : Nat) : Bool :=
  let clk := slots * bits * rate
  let wide := decide (bits = 16 ∨ bits = 24 ∨ bits = 32)
  (decide (mode ≤ 1) && (decide (slots ≠ 2) || !wide)) || (decide (mode = 2) && (decide (32 < slots) || !wide)) ||
    (decide (mode = 3) && (decide (bits ≠ 8 ∨ 128 < slots ∨ rate ≠ 8000))) ||
    (decide (clock = 1) && if mclk = 2 then decide (masterHz 2 < clk) else decide (masterHz mclk % clk ≠ 0))

/-- Start the switch of a port's master-clock mux, or let it wait for the one in progress (R414, R415). (DEDUCED, log 76) -/
def State.switchMux (s : State) (p mclk : Nat) : State :=
  let t := s.sap p
  if s.clk.switching.getLsbD p then
    s.modClk (fun c => { c with sapWait := if mclk = t.muxTo then c.sapWait.filter (· ≠ p) else insertNat c.sapWait p })
  else if mclk = t.mux then s
  else
    (s.modSap p (fun t => { t with muxTo := mclk })).modClk
      (fun c => { c with switching := c.switching ||| BitVec.ofNat 16 (2 ^ p), muxed := c.muxed &&& ~~~BitVec.ofNat 16 (2 ^ p) })

/-- The body that SAP_SLOTMASK answers. -/
def Sap.maskBody (t : Sap) : List Byte :=
  [if t.pend ≠ t.act then 1 else 0, 0, 0, 0] ++ beBytes 16 t.pend.toNat ++ beBytes 16 t.act.toNat

/-- A stopped port: masks 0, no words, nothing counted towards a mask or the watchdog; its counters and flags stay. -/
def Sap.stopped (t : Sap) : Sap :=
  { t with pend := 0, act := 0, writes := [], count := none, wdLive := false, running := false, synced := false, good := 0,
           csFrame := 0, tbl := [], groups := [], next := [], dout := [], tail := none }

/-- Stop a port: an enabled one flushes its crossing (R422), and the responses of mask writes it discards are written. (DEDUCED, log 77) -/
def State.stopPort (s : State) (p : Nat) : State :=
  let t := s.sap p
  let s := if t.enable then s.modClk (fun c => { c with flushes := c.flushes + 1 }) else s
  let s := s.modSap p (fun t => { t.stopped with enable := false })
  forEach (fun s (w : BitVec 128 × Defer) => s.respond w.2 .ok 1 (s.sap p).maskBody) t.writes s

/-- SAP_CONFIG's effect: the port stops, its settings are written, and it starts again when enable = 1. (DEDUCED, logs 76, 77) -/
def State.configPort (s : State) (p : Nat) (body : List Byte) : State :=
  let s := s.stopPort p
  let s := s.modSap p (fun t => { t with
    mode := fld body 1 1, master := decide (fld body 2 1 = 1), mclk := fld body 3 1, slots := fld body 4 1,
    bits := fld body 5 1, enable := bitAt (fld body 6 1) 0, rate := fld body 8 4 })
  if fld body 2 1 = 1 then s.switchMux p (fld body 3 1) else s

/-- SAP_CONFIG's own refusals and effect. -/
def sapConfigOwn (body : List Byte) (s : State) : Act :=
  let p := fld body 0 1
  let held := (s.sap p).bound
  if sapFormatBad (fld body 1 1) (fld body 2 1) (fld body 3 1) (fld body 4 1) (fld body 5 1) (fld body 8 4) then .no .badDescriptor
  else if held ≠ [] then .conflict (held.map s.streamEntry)
  else .done (fun s => s.configPort p body) (fun _ => []) 1

/-- SAP_CONFIG's row of Table 14.1, its layout and its ranges. (DEDUCED, log 75) -/
def sapConfigShape (h : CmdHdr) (body : List Byte) : Shape :=
  { opcode := 0x40, role := 2, scope := .module, lenOk := decide (body.length = 12),
    fields := decide (fld body 0 1 < 16 ∧ fld body 1 1 ≤ 3 ∧ fld body 2 1 ≤ 1 ∧ fld body 3 1 ≤ 2 ∧ 1 ≤ fld body 4 1 ∧
      fld body 6 1 ≤ 1 ∧ 1 ≤ fld body 8 4) && zeros body 7 1,
    audited := true, detail := hdrRaw 0x40 h ++ body }

/-- SAP_CONFIG (R328). -/
def execSapConfig (h : CmdHdr) (body : List Byte) (s : State) : Host.Outcome State Fault Refusal :=
  run s (clerk (sapConfigShape h body) h body.length (sapConfigOwn body))

/-! ## SAP_SLOTMASK (R329) -/

/-- SAP_SLOTMASK's own refusal and effect: a write waits for its commit. (DEDUCED, log 77) -/
def sapSlotmaskOwn (h : CmdHdr) (body : List Byte) (s : State) : Act :=
  let p := fld body 0 1
  let m := fld body 4 16
  if 2 ^ (s.sap p).slots ≤ m then .no .badDescriptor
  else if fld body 1 1 = 0 then .ok id (s.sap p).maskBody
  else .later (fun s => s.modSap p (fun t => { t with writes := t.writes ++ [(BitVec.ofNat 128 m, s.hdrDefer 0x41 h)] }))

/-- SAP_SLOTMASK's row of Table 14.1 and its layout; it is audited on a write. -/
def sapSlotmaskShape (h : CmdHdr) (body : List Byte) : Shape :=
  { opcode := 0x41, role := 2, scope := .module, lenOk := decide (body.length = 20),
    fields := decide (fld body 0 1 < 16 ∧ fld body 1 1 ≤ 1) && zeros body 2 2,
    audited := decide (fld body 1 1 = 1), detail := hdrRaw 0x41 h ++ body }

/-- SAP_SLOTMASK (R329). -/
def execSapSlotmask (h : CmdHdr) (body : List Byte) (s : State) : Host.Outcome State Fault Refusal :=
  run s (clerk (sapSlotmaskShape h body) h body.length (sapSlotmaskOwn h body))

/-- The port's clock domain takes the oldest held write: it replaces the pending mask, and the count of frame syncs
restarts (R329). -/
def State.commitMask (s : State) (p : Nat) : State :=
  match (s.sap p).writes with
  | [] => s
  | (m, d) :: ws =>
    let s := s.modSap p (fun t => { t with pend := m, writes := ws, count := some 0 })
    s.respond d .ok 1 (s.sap p).maskBody

/-- The port's clock gives edges: no switch of a master's clock is in progress (R414), and a slave's pins are not taken
by boundary scan (R486). -/
def State.portClocked (s : State) (p : Nat) : Bool :=
  if (s.sap p).master then !s.clk.switching.getLsbD p else !s.jtag.hub.takesPins

/-- SAP_MASK_COMMIT (R329). While its clock is withheld, a running port takes no write (R414). -/
def execSapMaskCommit (port : Nat) (s : State) : Host.Outcome State Fault Refusal :=
  run s (fun s => if s.awake ∧ (¬(s.sap port).enable ∨ s.portClocked port) then s.commitMask port else s)

/-! ## SAP_BIND (R330) -/

/-- The stream may be bound or unbound now: IDLE, PARKED, or QUEUED and not staged. -/
def Stream.bindable (x : Stream) : Bool :=
  decide (x.st = .idle ∨ x.st = .parked ∨ (x.st = .queued ∧ x.staged = false))

/-- The refusals of R330 that give ST_BAD_DESCRIPTOR. -/
def Sap.bindBad (t : Sap) (slot group codec : Nat) (hold : Bool) : Bool :=
  decide (t.slots ≤ slot) || decide (codec ≤ 1 ∧ t.bits ≠ 8) || decide (codec = 2 ∧ t.bits = 8) ||
    !([8000, 16000, 24000, 48000].contains t.rate) ||
    (decide (group ≠ 0) && t.tbl.any (fun e => e.2.bound && decide (e.2.group = group ∧ e.2.hold ≠ hold)))

/-- Packets already complete under an RTP or VCT binding are sent as queued (R330). (DEDUCED, log 80) -/
def State.flushPackets (n : Nat) : Nat → State → State
  | 0, s => s
  | fuel + 1, s =>
    let e := s.egr n
    if e.ready ∧ e.kind = 0 then State.flushPackets n fuel (s.sendRtp n)
    else if e.ready ∧ e.kind = 2 then State.flushPackets n fuel (s.sendAudio n)
    else s

/-- Leave the present binding: complete packets go out, and a slot is freed. (DEDUCED, log 80) -/
def State.leaveBinding (s : State) (n : Nat) : State :=
  let e := s.egr n
  (s.flushPackets n (e.have_ / max 1 e.nv + 1)).unbindSlot n e

/-- Bind a stream to a slot. -/
def State.bindSlot (s : State) (n j group codec : Nat) (hold : Bool) : State :=
  let s := s.leaveBinding n
  let s := (s.modStream n (fun x => { x with outKind := 1, outIndex := j })).modEgr n (fun e => { e with kind := 1, index := j })
  s.modSap (j / 128) (fun t => t.modSlot (j % 128) (fun k => { k with
    bound := true, stream := n, group := group, codec := codec, hold := hold, joined := false, played := false, due := none,
    next := (s.egr n).firstOutput t.rate, base := 0 }))

/-- Unbind a stream: its waiting samples are discarded at egress as if sent (R323, R330). (DEDUCED, log 80) -/
def State.unbindStream (s : State) (n : Nat) : State :=
  let s := s.leaveBinding n
  let past := (s.egr n).past
  let s := s.dropEgress n
  let c := (s.stream n).samples
  (s.modStream n (fun x => { x with outKind := 3, outIndex := 0 })).modEgr n
    (fun e => { e with kind := 3, index := 0, lastSent := max e.lastSent c, released := max e.released c, hist := past })

/-- SAP_BIND's own refusals and effect. -/
def sapBindOwn (h : CmdHdr) (body : List Byte) (s : State) : Act :=
  let n := streamArg body
  let j := fld body 4 2
  let t := s.sap (j / 128)
  let hold := bitAt (fld body 8 1) 0
  if ¬s.owns h n then .no .noRight
  else if ¬(s.stream n).bindable then .conflict [s.streamEntry n]
  else if j = 0xFFFF then .ok (fun s => s.unbindStream n) []
  else if t.bindBad (j % 128) (fld body 6 1) (fld body 7 1) hold then .no .badDescriptor
  else if (t.slot (j % 128)).bound ∨ ¬t.enable then .no .noResource
  else .ok (fun s => s.bindSlot n j (fld body 6 1) (fld body 7 1) hold) []

/-- SAP_BIND's row of Table 14.1, its layout and its ranges. -/
def sapBindShape (body : List Byte) : Shape :=
  { opcode := 0x42, role := 1, scope := .stall, lenOk := decide (body.length = 12),
    fields := streamOk body && decide ((fld body 4 2 < 2048 ∨ fld body 4 2 = 0xFFFF) ∧ fld body 6 1 ≤ 63 ∧ fld body 7 1 ≤ 2 ∧
      fld body 8 1 ≤ 1) && zeros body 9 3 }

/-- SAP_BIND (R330). -/
def execSapBind (h : CmdHdr) (body : List Byte) (s : State) : Host.Outcome State Fault Refusal :=
  run s (clerk (sapBindShape body) h body.length (sapBindOwn h body))

/-! ## Pins and frames (R370, R371) -/

/-- BCLK and FSYNC are outputs: an enabled master's. DIN is always an input, and SAP_MCLK_IN is one (R370, R386). -/
def Sap.drivesClocks (t : Sap) : Bool := t.enable && t.master

/-- The frame sync is a rising edge of FSYNC, but for I2S (Table 16.1). -/
def Sap.syncRises (t : Sap) : Bool := decide (t.mode ≠ 0)

/-- FSYNC in BCLK cycle `b` after the frame sync (Table 16.1). -/
def Sap.fsync (t : Sap) (b : Nat) : Bool :=
  if t.mode = 0 then decide (t.bits ≤ b % (2 * t.bits))
  else if t.mode = 1 then decide (b % (2 * t.bits) < t.bits)
  else decide (b = 0)

/-- BCLK cycles from the frame sync to the first bit of slot 0 (Table 16.1). -/
def Sap.firstBit (t : Sap) : Nat := if t.mode = 0 ∨ t.mode = 2 then 1 else 0

/-- BCLK cycles from the frame sync to the first bit of a slot (R371). -/
def Sap.slotStart (t : Sap) (slot : Nat) : Nat := t.firstBit + t.bits * slot

/-- The slot, and the bit of its word, that BCLK cycle `b` of a frame carries, most significant bit first (R370, R371); a
cycle before the first bit still belongs to the frame before. -/
def Sap.place (t : Sap) (b : Nat) : Option (Nat × Nat) :=
  if b < t.firstBit ∨ t.slots * t.bits ≤ b - t.firstBit then none
  else some ((b - t.firstBit) / t.bits, t.bits - 1 - (b - t.firstBit) % t.bits)

/-- DOUT in BCLK cycle `b` of the frame being sent: none is high impedance. Before the first bit of slot 0 the frame before still
sends the last bit of its last slot. The bit changes on the falling edge of BCLK that
begins the cycle and is sampled on its rising edge (R370, R373). (DESIGN CHOICE, log 109) -/
def Sap.doutBit (t : Sap) (b : Nat) : Option Bool :=
  match t.place b with
  | some (slot, i) => (t.dout.getD slot none).map (fun w => w.getLsbD i)
  | none => if b < t.firstBit then t.tail else none

/-- The word of a slot out of the bits that DIN had on the rising edges of the frame's BCLK cycles (R370). -/
def Sap.dinWord (t : Sap) (pin : Nat → Bool) (slot : Nat) : BitVec 32 :=
  BitVec.ofNat 32 ((List.range t.bits).foldl (fun v i => 2 * v + b2n (pin (t.slotStart slot + i))) 0)

/-! ## Words (R373, R383) -/

/-- Status bits [7:0] of R383 for a word with audio in [31:8]. -/
def statusWord (w : Nat) (block : Bool) : Nat :=
  let v := w / 256 * 256 + if block then 16 else 0
  let ones := ((List.range 32).filter (bitAt v)).length
  v + ones % 2

/-- Status is carried: cs_slots = 1 on a port of 32-bit slots. -/
def Sap.csOn (t : Sap) : Bool := t.cs && decide (t.bits = 32)

/-- A word as the port sends it, with the status of R383 where the port carries it. -/
def Sap.finishWord (t : Sap) (w : Nat) : BitVec 32 :=
  BitVec.ofNat 32 (if t.csOn then statusWord w (decide (t.csFrame % 192 = 0)) else w)

/-- The word of a sample in a slot (Table 16.2), status apart. -/
def Sap.sampleWord (t : Sap) (codec : Nat) (y : Int) : Nat :=
  if t.bits = 8 then (if codec = 0 then ulaw y else alaw y).toNat
  else (y % 65536).toNat * 2 ^ (t.bits - 16)

/-- Silence in a slot (Table 16.2), status apart. -/
def Sap.silence (t : Sap) (codec : Nat) : Nat :=
  if t.bits = 8 then (if codec = 1 then 0xD5 else 0xFF) else 0

/-! ## Inbound detection (R384) -/

/-- Slots 2i and 2i + 1 carry a burst preamble in their top 16 bits. -/
def Sap.preamble (t : Sap) (din : List (BitVec 32)) (i : Nat) : Bool :=
  let top := fun k => (din.getD k 0).toNat / 2 ^ (t.bits - 16) % 65536
  decide (2 * i + 1 < t.slots ∧ top (2 * i) = 0xF872 ∧ top (2 * i + 1) = 0x4E1F)

/-- One inbound word of a slot on a port with status bits: the channel-status block. -/
def Slot.takeStatus (k : Slot) (w : BitVec 32) : Slot :=
  if w.getLsbD 4 then { k with csOn := true, csBits := [w.getLsbD 1] }
  else if ¬k.csOn then k
  else
    let l := w.getLsbD 1 :: k.csBits
    if l.length < 192 then { k with csBits := l }
    else { k with csOn := false, csBits := [], inMuted := l.getD 190 false }

/-- One inbound frame of a slot whose pair carries a preamble or not. -/
def Slot.takePair (k : Slot) (pre : Bool) : Slot :=
  if pre then { k with inMuted := true, quiet := 0 }
  else if ¬k.inMuted then k
  else if k.quiet + 1 < 8192 then { k with quiet := k.quiet + 1 }
  else { k with inMuted := false, quiet := 0 }

/-- A slot after an inbound frame. -/
def Sap.takeSlot (t : Sap) (din : List (BitVec 32)) (i : Nat) : Slot :=
  if t.csOn then (t.slot i).takeStatus (din.getD i 0)
  else if t.bits = 8 ∨ t.slots ≤ i / 2 * 2 + 1 then t.slot i
  else (t.slot i).takePair (t.preamble din (i / 2))

/-- Take an inbound frame: each slot's detection, with its flag, counter and event where the mute changes. (DEDUCED, log 78) -/
def State.detect (s : State) (p : Nat) (din : List (BitVec 32)) : State :=
  forEach (fun s i =>
    let was := ((s.sap p).slot i).inMuted
    let k := (s.sap p).takeSlot din i
    let s := s.modSap p (fun t => t.modSlot i (fun _ => k))
    if k.inMuted ∧ ¬was then
      (s.modSap p (fun t => { t with nonaudio := true, nonaudios := t.nonaudios + 1 })).sapEvent p 3 i
    else if was ∧ ¬k.inMuted then s.sapEvent p 4 i
    else s) (List.range (s.sap p).slots) s

/-! ## Decisions (R380 to R382) -/

/-- The stream of a slot holds its group: it is neither FREE nor FAULTED. -/
def State.holdsGroup (s : State) (k : Slot) : Bool :=
  decide ((s.stream k.stream).st ≠ .free ∧ (s.stream k.stream).st ≠ .faulted)

/-- Output samples that exist for a slot. -/
def State.slotOutputs (s : State) (p : Nat) (k : Slot) : Nat := (s.egr k.stream).outputs (s.sap p).rate

/-- Samples of slot `i` up to output `m` have been played or discarded: buffers whose samples are all gone are released, and
the stream's resume position has moved (R248, R354). -/
def State.consume (s : State) (p i m : Nat) : State :=
  let n := ((s.sap p).slot i).stream
  let e := s.egr n
  let r := ratio (s.sap p).rate e.rVoice
  let at_ := m * r.2 / max 1 r.1
  let at_ := match e.final with | some c => if ceilDiv (c * r.1) (max 1 r.2) ≤ m then c else at_ | none => at_
  let s := s.modSap p (fun t => t.modSlot i (fun k => { k with due := none }))
  let s := ((s.modEgr n (fun e => { e with lastSent := max e.lastSent at_ })).releaseEgress n at_).raiseReplayMark n
  (s.closeEgress n).settleStall e.stall

/-- The samples that the port has taken for its next frame are played or discarded now. -/
def State.takeDue (s : State) (p : Nat) : State :=
  forEach (fun s i => match ((s.sap p).slot i).due with
    | some m => s.consume p i m
    | none => s) (tkeys (s.sap p).tbl) s

/-- An underrun of a slot (R381). (DEDUCED, log 79) -/
def State.underrunAt (s : State) (p : Nat) : State :=
  s.modSap p (fun t => { t with underrun := true, underruns := t.underruns + 1 })

/-- Take output `m` of slot `i` for the next frame, which plays it (R380). -/
def State.playSlot (s : State) (p i m : Nat) : State :=
  let t := s.sap p
  let k := t.slot i
  let w := BitVec.ofNat 32 (t.sampleWord k.codec ((s.egr k.stream).output t.rate m))
  s.modSap p (fun t => { t.modSlot i (fun k => { k with next := m + 1, due := some (m + 1) }) with next := t.next.set i (some w) })

/-- The decision of a slot in no group: its next sample, or an underrun in every frame that finds none (R380, R381). (DEDUCED, log 79) -/
def State.decideLone (s : State) (p i : Nat) : State :=
  let k := (s.sap p).slot i
  if k.next < s.slotOutputs p k then
    (s.modSap p (fun t => t.modSlot i (fun k => { k with joined := true }))).playSlot p i k.next
  else s.underrunAt p

/-- Join a slot to its group at index `x`: its next sample plays at that index. -/
def State.joinGroup (s : State) (p i x : Nat) : State :=
  s.modSap p (fun t => t.modSlot i (fun k => { k with joined := true, base := (k.next : Int) - x }))

/-- The decision of a joined member of a group that does not hold: it never plays behind its group. (DEDUCED, log 79) -/
def State.decideSkip (s : State) (p i x : Nat) : State :=
  let k := (s.sap p).slot i
  let m := (k.base + x).toNat
  let have_ := s.slotOutputs p k
  let late := min m have_ - k.next
  let s := if late = 0 then s else
    (s.modSap p (fun t => { t.modSlot i (fun k => { k with next := k.next + late }) with
      skip := t.skip + BitVec.ofNat 48 late })).consume p i (k.next + late)
  if m < have_ then s.playSlot p i m else s.underrunAt p

/-- The bound slots of a group, ascending. -/
def Sap.members (t : Sap) (g : Nat) : List Nat := (t.tbl.filter (fun e => e.2.bound && decide (e.2.group = g))).map Prod.fst

/-- Write a group's index and whether it has started. (DEDUCED, log 81) -/
def State.setGroup (s : State) (p g x : Nat) (started : Bool) : State :=
  s.modSap p (fun t => { t with groups := tset {} t.groups g { index := x, started := started } })

/-- The decision of a group without hold: members join at their first sample, and the index advances every frame. -/
def State.decideFree (s : State) (p g : Nat) : State :=
  let x := ((s.sap p).group g).index
  let s := forEach (fun s i =>
    let k := (s.sap p).slot i
    if k.joined then s.decideSkip p i x
    else if k.next < s.slotOutputs p k then (s.joinGroup p i x).playSlot p i k.next
    else s) ((s.sap p).members g) s
  s.setGroup p g (x + 1) true

/-- The member has the sample it plays at index `x`. -/
def State.memberReady (s : State) (p x i : Nat) : Bool :=
  let k := (s.sap p).slot i
  decide ((if k.joined then (k.base + x).toNat else k.next) < s.slotOutputs p k)

/-- The decision of a group with hold (R382). (DEDUCED, log 79) -/
def State.decideHeld (s : State) (p g : Nat) : State :=
  let t := s.sap p
  let x := (t.group g).index
  let ms := t.members g
  let holders := ms.filter (fun i => s.holdsGroup (t.slot i))
  if ¬(t.group g).started then
    if ms.any (fun i => s.memberReady p x i) ∧ holders.all (fun i => s.memberReady p x i) then
      let now := ms.filter (fun i => s.memberReady p x i)
      let s := forEach (fun s i => s.joinGroup p i x) now s
      let s := forEach (fun s i => s.playSlot p i ((s.sap p).slot i).next) now s
      s.setGroup p g (x + 1) true
    else s
  else
    let joining := ms.filter (fun i => !(t.slot i).joined && s.memberReady p x i)
    let s := forEach (fun s i => s.joinGroup p i x) joining s
    let waiting := holders.filter (fun i => ((s.sap p).slot i).joined && !s.memberReady p x i)
    if waiting ≠ [] then
      (forEach (fun s _ => s.underrunAt p) waiting s).modSap p (fun t => { t with holds := t.holds + 1 })
    else
      let now := ms.filter (fun i => ((s.sap p).slot i).joined && s.memberReady p x i)
      let s := forEach (fun s i => s.playSlot p i (((s.sap p).slot i).base + x).toNat) now s
      s.setGroup p g (x + 1) true

/-- The decision of a group; one whose members are gone starts anew. -/
def State.decideGroup (s : State) (p g : Nat) : State :=
  let t := s.sap p
  match t.members g with
  | [] => s.setGroup p g 0 false
  | i :: _ => if (t.slot i).hold then s.decideHeld p g else s.decideFree p g

/-- The decisions of a frame: every bound slot consumes at most one sample, and `next` holds the words it gave. -/
def State.decide_ (s : State) (p : Nat) : State :=
  let s := s.modSap p (fun t => { t with next := List.replicate t.slots none })
  let lone := (s.sap p).members 0
  let s := forEach (fun s i => s.decideLone p i) lone s
  forEach (fun s g => s.decideGroup p g) ((List.range 63).map (· + 1)) s

/-! ## The frame sync -/

/-- The BCLK count since the last sync is the frame's length; a master makes its own frames (R372). -/
def Sap.rightFrame (t : Sap) (bclk : Nat) : Bool := t.master || decide (bclk = t.slots * t.bits)

/-- A framing error (R372): flag, counter, and an event with the first of every 1,024. (DEDUCED, log 78) -/
def State.framingError (s : State) (p : Nat) : State :=
  let t := s.sap p
  let s := s.modSap p (fun t => { t with framing := true, framings := t.framings + 1, good := 0 })
  if t.framings.toNat % 1024 = 0 then s.sapEvent p 5 0 else s

/-- The count of a pending mask: at its second sync it becomes active (R329). (DEDUCED, log 81) -/
def State.countMask (s : State) (p : Nat) : State :=
  let t := s.sap p
  match t.count with
  | none => s
  | some c =>
    if c = 0 then s.modSap p (fun t => { t with count := some 1 })
    else (s.modSap p (fun t => { t with act := t.pend, count := none })).sapEvent p 6 0

/-- The port sends silence: its watchdog has fired, or the module has failed (R377, R348). (DEDUCED, log 81) -/
def State.portMuted (s : State) (p : Nat) : Bool := (s.sap p).wdLive || s.clerk.failed.isSome

/-- The words of the frame that begins now (R373, R379): bound slots play what was decided, unbound ones the inbound word
or silence. -/
def Sap.frameWords (t : Sap) (muted : Bool) (din : List (BitVec 32)) : List (Option (BitVec 32)) :=
  (List.range t.slots).map (fun i =>
    let k := t.slot i
    if ¬t.act.getLsbD i then none
    else
      let quiet := t.silence k.codec
      let w := if muted then quiet
        else if k.bound then ((t.next.getD i none).map BitVec.toNat).getD quiet
        else if t.through ∧ ¬k.inMuted then ((din[i]?).map BitVec.toNat).getD quiet
        else quiet
      some (t.finishWord w))

/-- Samples decided for slots whose mask bit is 0, or of a port muted since: discarded, and counted (R377, R379). -/
def Sap.maskedOff (t : Sap) (muted : Bool) : Nat :=
  ((List.range t.slots).filter (fun i => (t.next.getD i none).isSome && (muted || !t.act.getLsbD i))).length

/-- The slots whose sample this frame plays have played their first one (Table 16.4): it was taken, and neither the mask nor a
mute discards it. (DEDUCED, log 81) -/
def Sap.notePlayed (t : Sap) (muted : Bool) : Sap :=
  let l := (List.range t.slots).filter (fun i => (t.next.getD i none).isSome && !muted && t.act.getLsbD i)
  l.foldl (fun t i => t.modSlot i (fun k => { k with played := true })) t

/-- A frame sync at port `p`: the frame before it had `bclk` bit clocks and carried the words `din`. (DEDUCED, log 78) -/
def State.frameSync (s : State) (p bclk : Nat) (din : List (BitVec 32)) : State :=
  let t0 := s.sap p
  let right := !t0.synced || t0.rightFrame bclk
  let s := if right then s else s.framingError p
  let din := if right ∧ t0.synced ∧ ¬s.portMuted p then din.take t0.slots else []
  let s := if din = [] then s else s.detect p din
  let s := s.modSap p (fun t => { t with
    frames := t.frames + 1, running := true, synced := true,
    through := (t.ctrlNext.map Prod.fst).getD t.through, cs := (t.ctrlNext.map Prod.snd).getD t.cs, ctrlNext := none })
  let s := s.countMask p
  let t := s.sap p
  let muted := s.portMuted p
  let s := s.modSap p (fun t => { t.notePlayed muted with
    tail := (t.dout.getD (t.slots - 1) none).map (·.getLsbD 0), dout := t.frameWords muted din,
    muted := t.muted + BitVec.ofNat 48 (t.maskedOff muted), csFrame := (t.csFrame + 1) % 192,
    good := if t.wdLive ∧ t0.synced ∧ right then t.good + 1 else 0 })
  let s := (s.takeDue p).modSap p (fun t => { t with next := [] })
  let s := if t.wdLive ∧ 8 ≤ (s.sap p).good then (s.modSap p (fun t => { t with wdLive := false, good := 0 })).sapEvent p 2 0 else s
  if s.portMuted p then s else s.decide_ p

/-- SAP_FRAME_SYNC (R380). -/
def execSapFrameSync (port bclk : Nat) (din : List (BitVec 32)) (s : State) : Host.Outcome State Fault Refusal :=
  run s (fun s => if s.awake ∧ (s.sap port).enable ∧ s.portClocked port then s.frameSync port bclk din else s)

/-! ## The watchdog (R376, R377) -/

/-- The samples that a muted port has taken are discarded and counted (R377). -/
def State.muteDue (s : State) (p : Nat) : State :=
  let s := s.modSap p (fun t => { t with muted := t.muted + BitVec.ofNat 48 (t.next.filter Option.isSome).length })
  (s.takeDue p).modSap p (fun t => { t with next := [] })

/-- SAP_WATCHDOG: no frame sync came in time; the port is muted, and sends silence whenever edges come (R377). A port that
is muted already fires again where syncs have come since (R376). (DEDUCED, log 81) -/
def execSapWatchdog (port : Nat) (s : State) : Host.Outcome State Fault Refusal :=
  run s (fun s =>
    let t := s.sap port
    if s.awake ∧ t.enable ∧ (¬t.wdLive ∨ t.running) then
      (((s.modSap port (fun t => { t with
        wd := true, wdLive := true, wdEvents := t.wdEvents + 1, running := false, good := 0,
        dout := if t.synced then t.frameWords true [] else t.dout })).sapEvent port 1 0).muteDue port)
    else s)

/-- SAP_MUTED_PERIOD: during a mute every bound slot consumes one sample per frame period, which is discarded and
counted. -/
def execSapMutedPeriod (port : Nat) (s : State) : Host.Outcome State Fault Refusal :=
  run s (fun s =>
    let t := s.sap port
    if s.awake ∧ t.enable ∧ t.wdLive ∧ s.clerk.failed.isNone then
      ((s.decide_ port).modSap port (fun t => { t with frames := t.frames + 1 })).muteDue port
    else s)

end Sys2Proof.Machine
end

