-- ==== Sys2Proof/Machine/Security.lean ====
section
/-! DEFINITION. Roles, security and the audit log: credentials (R431 to R434), attestation (R334, R439 to R442), debug
unlock (R335, R445 to R447), firmware (R336, R337, R435 to R438) and AUDIT_READ (R338). -/

namespace Sys2Proof.Machine

/-! ## The configuration record (R431, R434) -/

/-- SHA-256 of the configuration record, credential slots included (Table 19.3). (DESIGN CHOICE, log 16) -/
def State.configHash (s : State) : BitVec 256 :=
  let c := s.flash.cfg
  Config.configHash ((c.nets.getD []).map (fun l => l.map BitVec.toNat) ++ c.creds.map (fun x => [x.salt.toNat, x.ver.toNat]) ++
    [c.peer.map BitVec.toNat])

/-- Units that a write of the 1 MiB configuration record draws (Table 17.2). (DEDUCED, log 86) -/
def cfgDraw : Nat := 4

/-- Write a datum of the firmware region: its earlier pages go, and both copies are programmed (R390, Table 17.1). -/
def State.writeFw (s : State) (slot bytes : Nat) : State := (s.flashFree (fwData slot)).flashWrite (fwData slot) (2 * ceilDiv bytes 16384)

/-- Write the configuration record of 1 MiB: the tally's draw, then the record. -/
def State.writeCfg (s : State) (f : CfgRec → CfgRec) : State :=
  ((s.drawTally cfgDraw).writeFw 2 1048576).modFlash (fun k => { k with cfg := f k.cfg })

/-- A write of the configuration record is refused while the tally is short (R434). -/
def cfgOwn (f : State → CfgRec → CfgRec) (back : Nat) (s : State) : Act :=
  if s.flash.tally < cfgDraw then noTally else .ok (fun s => s.writeCfg (f s)) (backBody back)

/-- The staged slot: salt in words 0 and 1, verifier in words 2 to 5, each word little-endian (R434). -/
def State.stagedCred (s : State) : Cred :=
  let w := fun i => (s.sec.stage.getD i 0).toNat
  { salt := BitVec.ofNat 128 (w 0 + 2 ^ 64 * w 1),
    ver := BitVec.ofNat 256 (w 2 + 2 ^ 64 * w 3 + 2 ^ 128 * w 4 + 2 ^ 192 * w 5) }

/-- A write of SEC_CRED_COMMIT: the slot takes what is staged, or becomes unset. A WO register reads back 0. -/
def credOwn (slot : Nat) (clear : Bool) (s : State) : Act :=
  if 3 ≤ slot then .no .badDescriptor
  else cfgOwn (fun s c => { c with creds := c.creds.set slot (if clear then {} else s.stagedCred) }) 0 s

/-- The body of that write. -/
def credBody (slot : Nat) (clear : Bool) : List Byte := writeBody "SEC_CRED_COMMIT" (slot + 4 * b2n clear)

/-- SEC_CRED_COMMIT: REG_WRITE of SEC_CRED_COMMIT with clear = 0 (R434). -/
def execSecCredCommit (h : CmdHdr) (slot : Nat) (s : State) : Host.Outcome State Fault Refusal :=
  run s (clerk (regWriteShape h (credBody slot false)) h 48 (credOwn slot false))

/-- SEC_CRED_CLEAR: REG_WRITE of SEC_CRED_COMMIT with clear = 1 (R434). -/
def execSecCredClear (h : CmdHdr) (slot : Nat) (s : State) : Host.Outcome State Fault Refusal :=
  run s (clerk (regWriteShape h (credBody slot true)) h 48 (credOwn slot true))

/-- The RW words of a port (Table 12.7), in the order of the table. -/
def NetPort.words (t : NetPort) : List (BitVec 32) :=
  [t.cfg, t.qos, t.ports, t.ipv4, t.mask4, t.gw4] ++
    (List.range 4).map (fun i => (t.ipv6 >>> (32 * i)).setWidth 32) ++
    (List.range 4).map (fun i => (t.gw6 >>> (32 * i)).setWidth 32) ++ [t.prefix6]

/-- A port with the RW words that a record holds. -/
def NetPort.load (t : NetPort) (l : List (BitVec 32)) : NetPort :=
  let w := fun i => l.getD i 0
  let quad := fun i => BitVec.ofNat 128 ((w i).toNat + 2 ^ 32 * (w (i + 1)).toNat + 2 ^ 64 * (w (i + 2)).toNat + 2 ^ 96 * (w (i + 3)).toNat)
  { t with cfg := w 0, qos := w 1, ports := w 2, ipv4 := w 3, mask4 := w 4, gw4 := w 5, ipv6 := quad 6, gw6 := quad 10, prefix6 := w 14 }

/-- A write of SEC_CFG_SAVE: with save = 1 the present RW values of both ports are saved. -/
def cfgSaveOwn (save : Bool) (s : State) : Act :=
  if save then cfgOwn (fun s c => { c with nets := some [(s.net 0).words, (s.net 1).words] }) 0 s
  else .ok id (backBody 0)

/-- SEC_CFG_SAVE (R434). -/
def execSecCfgSave (h : CmdHdr) (s : State) : Host.Outcome State Fault Refusal :=
  run s (clerk (regWriteShape h (writeBody "SEC_CFG_SAVE" 1)) h 48 (cfgSaveOwn true))

/-! ## Attestation (R334, R441) -/

/-- The slot that does not run. -/
def State.otherSlot (s : State) : Nat := 1 - s.fw.running

/-- The image_hash of a slot; 0 when it is empty. -/
def State.slotHash (s : State) (i : Nat) : BitVec 256 := ((s.flash.slots.getD i none).map (·.hash)).getD 0

/-- A byte string cut or filled with zeros to `n` bytes. (DESIGN CHOICE, log 12) -/
def fitBytes (n : Nat) (b : List Byte) : List Byte := b.take n ++ List.replicate (n - b.length) 0

/-- The hash field of the latest audit record. -/
def State.auditHead (s : State) : List Byte :=
  match s.sec.audit with
  | [] => List.replicate 32 0
  | r :: _ => r.drop 480

/-- Flags of a report (Table 19.3). -/
def State.reportFlags (s : State) : Nat :=
  s.sec.debug + 4 * b2n s.onProbation + 8 * b2n (decide ((s.cred 0).ver = 0 ∨ (s.cred 1).ver = 0))

/-- Bytes 0 to 16,015 of a report (Table 19.3). -/
def State.reportBody (s : State) (id : Nat) (nonce : List Byte) : List Byte :=
  let img := s.runningImage
  let staged := if s.fw.committed then 0 else (s.fw.staged.map (·.hash)).getD 0
  beBytes 4 0x54415856 ++ beBytes 2 1 ++ [3, BitVec.ofNat 8 s.reportFlags] ++ fitBytes 16 Config.deviceId ++ fitBytes 32 nonce ++
    beBytes 4 id ++ beBytes 4 s.flash.bootCount ++
    ([Config.buildLevel] ++ stepping ++ [4, BitVec.ofNat 8 img.minor] ++ beBytes 2 img.patch ++ [0]) ++
    wordBytes img.hash ++ wordBytes (s.slotHash s.otherSlot) ++ wordBytes staged ++ beBytes 8 s.sec.auditSeq ++ s.auditHead ++
    wordBytes s.configHash ++ fitBytes 7888 Config.identityCert ++ fitBytes 7888 (Config.attestCert s.flash.bootCount)

/-- A signed report. -/
def State.report (s : State) (id : Nat) (nonce : List Byte) : List Byte :=
  let b := s.reportBody id nonce
  b ++ fitBytes 17088 (Config.attestSign s.flash.bootCount b)

/-- A page of a report: its header, its slice, and the number of pages. -/
def reportPage (room : Nat) (k : Kept) (page : Nat) : List Byte × Nat :=
  let size := max 1 (room - 16)
  let pages := ceilDiv k.bytes.length size
  (beBytes 4 k.id ++ beBytes 2 page ++ beBytes 2 pages ++ beBytes 8 0 ++ (k.bytes.drop (page * size)).take size, pages)

/-- ATTEST's own checks and effect: page 0 signs a new report, later pages read it. -/
def attestOwn (h : CmdHdr) (body : List Byte) (s : State) : Act :=
  let q := s.sess h.session
  let page := fld body 0 2
  let room := s.maxBody h.session
  if ¬s.sec.attestReady then .no .busy
  else if page = 0 then
    let k : Kept := { id := s.clerk.nextReport, bytes := s.report s.clerk.nextReport (body.drop 8) }
    let (b, n) := reportPage room k 0
    .done (fun s => (s.modSess h.session (fun q => { q with report := some k })).modClerk
        (fun c => { c with nextReport := nextId c.nextReport })) (fun _ => b) (1 + moreFlag 0 n)
  else
    match q.report with
    | none => .conflict [⟨6, 0, 0, 0⟩]
    | some k =>
      if fld body 4 4 ≠ k.id then .conflict [⟨6, 0, k.id, 0⟩]
      else
        let (b, n) := reportPage room k page
        if n ≤ page then .no .badDescriptor else .done (fun s => s) (fun _ => b) (moreFlag page n)

/-- ATTEST's row of Table 14.1 and its layout. -/
def attestShape (body : List Byte) : Shape :=
  { opcode := 0x60, role := 0, scope := .either, lenOk := decide (body.length = 40), fields := zeros body 2 2, peerOk := true }

/-- ATTEST (R334). -/
def execAttest (h : CmdHdr) (body : List Byte) (s : State) : Host.Outcome State Fault Refusal :=
  run s (clerk (attestShape body) h body.length (attestOwn h body))

/-- ATTEST_KEY_READY: the key pair and its certificate are ready (R440). -/
def execAttestKeyReady (s : State) : Host.Outcome State Fault Refusal :=
  run s (fun s => if s.awake then s.modSec (fun c => { c with attestReady := true }) else s)

/-! ## Debug unlock (R335, R445 to R447) -/

/-- UNLOCK_CHALLENGE's own refusals and effect; the nonce comes from the entropy source. -/
def unlockChallengeOwn (body : List Byte) (s : State) : Act :=
  let level := fld body 0 1
  if s.sec.entropyFail then .no .busy
  else if level = 1 ∧ (s.cred 1).ver = 0 then .no .noRight
  else
    let nonce := s.draw.1
    .ok (fun s => s.draw.2.modSec (fun c => { c with
      challenge := some { id := c.nextCh, level := level, nonce := nonce }, issued := tset 0 c.issued c.nextCh level,
      nextCh := nextId c.nextCh })) (beBytes 4 s.sec.nextCh ++ wordBytes nonce)

/-- UNLOCK_CHALLENGE's row of Table 14.1: its minimum role depends on the level. -/
def unlockChallengeShape (h : CmdHdr) (body : List Byte) : Shape :=
  { opcode := 0x61, role := if fld body 0 1 = 1 then 2 else 0, scope := .module, lenOk := decide (body.length = 4),
    fields := decide (fld body 0 1 = 1 ∨ fld body 0 1 = 2) && zeros body 1 3, audited := true, detail := hdrRaw 0x61 h ++ body }

/-- UNLOCK_CHALLENGE (R335). -/
def execUnlockChallenge (h : CmdHdr) (body : List Byte) (s : State) : Host.Outcome State Fault Refusal :=
  run s (clerk (unlockChallengeShape h body) h body.length (unlockChallengeOwn body))

/-- The 53 bytes that an unlock's content covers (R446, R447). -/
def challengeBytes (c : Challenge) : List Byte :=
  beBytes 4 c.id ++ wordBytes c.nonce ++ fitBytes 16 Config.deviceId ++ [BitVec.ofNat 8 c.level]

/-- Bytes of the content at a level. -/
def contentBytes (level : Nat) : Nat := if level = 1 then 32 else 7856

/-- The content verifies: a MAC keyed by the installer slot's verifier, or the maker's signature. -/
def State.unlockOk (s : State) (c : Challenge) (content : List Byte) : Bool :=
  if c.level = 1 then decide (content = hmac256 (leBytes 32 (s.cred 1).ver.toNat) (challengeBytes c))
  else Config.slhVerify128s Config.makerPub (challengeBytes c) content

/-- A passed unlock: the level opens until cold reset, and a level-2 unlock makes its session the maker's. The audit record says that
the level rose, where it did (Table 19.5). (DEDUCED, log 88) -/
def State.unlocked (s : State) (k : Nat) (c : Challenge) : State :=
  let old := s.sec.debug
  let s := s.modSec (fun x => { x with debug := max x.debug c.level, unlocks := x.unlocks + 1, challenge := none,
                                       failRun := if c.level = 1 then 0 else x.failRun })
  let s := if c.level = 2 then s.modSess k (fun q => { q with role := 3 }) else s
  if c.level ≤ old then s
  else s.audit 7 0 0 (roleByte (s.sess k)) (some k) none (s.sess k).src.addr ([BitVec.ofNat 8 c.level] ++ leBytes 4 c.id)

/-- A failed unlock: the challenge is void, and a level-1 MAC counts as a failed credential (R446). (DEDUCED, log 88) -/
def State.unlockFailed (s : State) (c : Challenge) : State :=
  let s := s.modSec (fun x => { x with challenge := none })
  if c.level = 1 then s.credFailed else s

/-- UNLOCK_RESPONSE's own refusals and effect. (DEDUCED, log 88) -/
def unlockResponseOwn (h : CmdHdr) (body : List Byte) (s : State) : Act :=
  let id := fld body 0 4
  let off := fld body 4 2
  let total := fld body 6 2
  let data := body.drop 8
  if tget 0 s.sec.issued id = 0 then .no .badDescriptor
  else match s.sec.challenge with
    | none => .no .timeout
    | some c =>
      if c.id ≠ id then .no .timeout
      else if c.level = 1 ∧ s.sec.lockout then .no .busy
      else if total ≠ contentBytes c.level ∨ total < off + data.length then .no .badDescriptor
      else if off ≠ c.got.length then .refuse .seqGap (beBytes 8 c.got.length) id'
      else
        let got := c.got ++ data
        let answer := beBytes 2 got.length ++ beBytes 2 0
        if got.length < total then .ok (fun s => s.modSec (fun x => { x with challenge := some { c with got := got } })) answer
        else if s.unlockOk c got then .done (fun s => s.unlocked h.session c) (fun _ => answer) 1
        else .refuse .badSignature [] (fun s => s.unlockFailed c)
where
  /-- No effect. -/
  id' (s : State) : State := s

/-- UNLOCK_RESPONSE's row of Table 14.1: its minimum role depends on the challenge. The audit detail holds challenge_id
and level only (Table 19.6). -/
def unlockResponseShape (body : List Byte) (s : State) : Shape :=
  let level := tget 0 s.sec.issued (fld body 0 4)
  { opcode := 0x62, role := if level = 1 then 2 else 0, scope := .module, lenOk := decide (8 ≤ body.length), fields := true,
    audited := true, auditRefused := true, detail := body.take 4 ++ [BitVec.ofNat 8 level] }

/-- UNLOCK_RESPONSE (R335). -/
def execUnlockResponse (h : CmdHdr) (body : List Byte) (s : State) : Host.Outcome State Fault Refusal :=
  run s (fun s => clerk (unlockResponseShape body s) h body.length (unlockResponseOwn h body) s)

/-- CHALLENGE_EXPIRE: 60 s after the challenge was issued. -/
def execChallengeExpire (s : State) : Host.Outcome State Fault Refusal :=
  run s (fun s => if s.awake then s.modSec (fun c => { c with challenge := none }) else s)

/-- LOCKOUT_END: the 60 s credential lockout ends, and the failure count returns to 0 (R315). -/
def execLockoutEnd (s : State) : Host.Outcome State Fault Refusal :=
  run s (fun s => if s.awake ∧ s.sec.lockout then s.modSec (fun c => { c with lockout := false, failRun := 0 }) else s)

/-- ENTROPY_FAIL: a continuous test fails, and the source stops supplying output (R444). -/
def execEntropyFail (s : State) : Host.Outcome State Fault Refusal :=
  run s (fun s => if s.awake then s.modSec (fun c => { c with entropyFail := true, entFails := c.entFails + 1 }) else s)

/-! ## Firmware (R336, R337, R436) -/

/-- The largest firmware image: 1 GiB (Table 19.2). -/
def fwMax : Nat := 1073741824

/-- The maker's signature over header bytes 0 to 335, and the header and body it stands for (R436). -/
def fwSigned (b : List Byte) : Bool :=
  decide (8192 ≤ b.length ∧ lfld b 0 4 = 0x57465856 ∧ lfld b 4 2 = 1 ∧ lfld b 16 8 = b.length) && zeros b 7 1 && zeros b 12 4 &&
    zeros b 56 280 && Config.slhVerify128s Config.makerPub (b.take 336) ((b.drop 336).take 7856) &&
    decide ((b.drop 24).take 32 = sha256 (b.drop 8192))

/-- The checks of FW_STAGE's last part, in order (R336). (DEDUCED, log 89) -/
def fwCheck (b : List Byte) : Option Status :=
  if ¬fwSigned b then some .badSignature
  else if lfld b 6 1 ≠ 3 then some .archMismatch
  else if lfld b 8 1 ≠ 4 ∨ lfld b 9 1 < 2 then some .version
  else none

/-- An image that passes R436. -/
def fwGood (b : List Byte) : Bool := fwSigned b && decide (lfld b 6 1 = 3 ∧ lfld b 8 1 = 4)

/-- What a slot keeps of an image. -/
def fwImage (b : List Byte) : FwImage := { hash := sha256w b, minor := lfld b 9 1, patch := lfld b 10 2, good := fwGood b }

/-- Units a firmware part draws (Table 17.2). -/
def fwDraw (bytes : Nat) : Nat := 2 * ceilDiv bytes 524288

/-- The staging under way: one without a part for 60 s has been erased (R331, R336). (DEDUCED, log 89) -/
def Fw.staging (f : Fw) (now : Nat) : Fw :=
  if f.partOwner.isSome ∧ 60 * Config.ctPerSecond ≤ now - f.partAt then { f with part := [], partTotal := 0, partOwner := none } else f

/-- An earlier staged image is discarded (R336): the idle slot holds none any more, and no commit of it stands. (DEDUCED, log
89) -/
def State.dropStaged (s : State) : State :=
  let idle := 1 - s.fw.running
  let s := if s.fw.staged.isSome then
      s.modFlash (fun f => { f with slots := f.slots.set idle none, probation := if f.probation = some idle then none else f.probation })
    else s
  s.modFw (fun f => { f with part := [], partTotal := 0, partOwner := none, staged := none, committed := false })

/-- A part of a staged image is programmed behind the `had` bytes of earlier parts, in both copies; the first part displaces what
was staged before (R336, R389). -/
def State.stagePages (s : State) (had bytes : Nat) : State :=
  (if had = 0 then s.flashFree (fwData 3) else s).flashWrite (fwData 3) (2 * (ceilDiv (had + bytes) 16384 - ceilDiv had 16384))

/-- The staged image is whole: it is the slot's data from now on. -/
def State.stagedIn (s : State) (slot : Nat) : State := (s.flashFree (fwData slot)).modWear (fun w => w.rename (fwData 3) (fwData slot))

/-- FW_STAGE's own refusals and effect: offset 0 discards any earlier staged image. (DEDUCED, log 89) -/
def fwStageOwn (h : CmdHdr) (body : List Byte) (s : State) : Act :=
  let off := fld body 0 8
  let total := fld body 8 8
  let data := body.drop 20
  let fresh := decide (off = 0)
  let f := s.fw.staging s.now
  let have_ := if fresh then [] else f.part
  let owner := (h.session, (s.sess h.session).gen)
  let got := have_ ++ data
  if total = 0 ∨ fwMax < total ∨ total < off + data.length ∨ (¬fresh ∧ f.partOwner.isSome ∧ total ≠ f.partTotal) then .no .badDescriptor
  else if ¬fresh ∧ f.partOwner.isSome ∧ f.partOwner ≠ some owner then .no .busy
  else if off ≠ have_.length then .refuse .seqGap (beBytes 8 have_.length) (fun s => s)
  else if s.flash.readOnly then .no .noResource
  else if s.flash.tally < fwDraw data.length then noTally
  else if got.length < total then
    .ok (fun s => (((s.dropStaged.drawTally (fwDraw data.length)).stagePages have_.length data.length)).modFw (fun f => { f with
      part := got, partTotal := total, partOwner := some owner, partAt := s.now })) []
  else
    match fwCheck got with
    | some st => .refuse st [] State.dropStaged
    | none =>
      let img := fwImage got
      .done (fun s =>
          ((((s.dropStaged.drawTally (fwDraw data.length)).stagePages have_.length data.length).stagedIn (1 - s.fw.running)).modFw
            (fun f => { f with staged := some img })).modFlash (fun f => { f with slots := f.slots.set (1 - s.fw.running) (some img) }))
        (fun _ => wordBytes img.hash ++ [4, BitVec.ofNat 8 img.minor] ++ beBytes 2 img.patch) 1

/-- FW_STAGE's row of Table 14.1 and its layout; it is audited on the last part. -/
def fwStageShape (h : CmdHdr) (body : List Byte) : Shape :=
  { opcode := 0x63, role := 2, scope := .module, lenOk := decide (20 ≤ body.length), fields := zeros body 16 4,
    audited := decide (fld body 0 8 + (body.length - 20) = fld body 8 8), detail := hdrRaw 0x63 h ++ body }

/-- FW_STAGE (R336). -/
def execFwStage (h : CmdHdr) (body : List Byte) (s : State) : Host.Outcome State Fault Refusal :=
  run s (clerk (fwStageShape h body) h body.length (fwStageOwn h body))

/-- Stalls that hold streams outside FREE, ascending. -/
def State.holdingStalls (s : State) : List Nat := (s.stalls.filter (fun p => (s.stallStreams p.1) ≠ [])).map Prod.fst

/-- FW_COMMIT's own refusals and effect: the slot goes on probation at the next cold reset. -/
def fwCommitOwn (body : List Byte) (s : State) : Act :=
  let hash := BitVec.ofNat 256 (fld body 0 32)
  let now := decide (fld body 32 1 = 1)
  if s.fw.staged.map (·.hash) ≠ some hash then .no .badDescriptor
  else if now ∧ s.holdingStalls ≠ [] then .conflict (s.holdingStalls.map s.stallEntry)
  else if s.fw.restart.isSome then .no .busy
  else .ok (fun s => (s.modFlash (fun f => { f with probation := some (1 - s.fw.running) })).modFw (fun f =>
      { f with committed := true, restart := if now then some 0 else f.restart })) []

/-- FW_COMMIT's row of Table 14.1 and its layout. -/
def fwCommitShape (h : CmdHdr) (body : List Byte) : Shape :=
  { opcode := 0x64, role := 2, scope := .module, lenOk := decide (body.length = 36),
    fields := decide (fld body 32 1 ≤ 1) && zeros body 33 3, audited := true, detail := hdrRaw 0x64 h ++ body }

/-- FW_COMMIT (R337). -/
def execFwCommit (h : CmdHdr) (body : List Byte) (s : State) : Host.Outcome State Fault Refusal :=
  run s (clerk (fwCommitShape h body) h body.length (fwCommitOwn body))

/-- PROBATION_END: 60 s after a HELLO answered ST_OK without a module failure, the image is permanent (R337). -/
def execProbationEnd (s : State) : Host.Outcome State Fault Refusal :=
  run s (fun s =>
    if s.awake ∧ s.onProbation ∧ s.fw.greeted ∧ s.clerk.failed.isNone then
      let i := s.fw.running
      (s.modFlash (fun f => { f with perm := i, probation := none })).audit 5 0 0 0 none none 0 (wordBytes (s.slotHash i))
    else s)

/-! ## AUDIT_READ (R338, R452) -/

/-- Sequence number of the oldest kept record. -/
def State.auditOldest (s : State) : Nat := s.sec.auditSeq + 1 - s.sec.audit.length

/-- The records from a number on, ascending, at most `k`. -/
def State.auditFrom (s : State) (first k : Nat) : List (List Byte) := (s.sec.audit.reverse.drop (first - s.auditOldest)).take k

/-- Records of the audit log are read back from flash: at least one page and at most one for each record, on a channel the spec does
not name. (DESIGN CHOICE, log 70) -/
def State.auditRead (s : State) (k : Nat) : State :=
  s.draw.2.modWear (fun w => w.noteReads (s.draw.1.toNat % 8) (if k = 0 then 0 else 1 + s.draw.1.toNat / 8 % k))

/-- AUDIT_READ's response. -/
def auditReadOwn (h : CmdHdr) (body : List Byte) (s : State) : Act :=
  let first := max (fld body 0 8) s.auditOldest
  let l := s.auditFrom first (min (fld body 8 2) ((s.maxBody h.session - 16) / 512))
  let more := decide (l.length < fld body 8 2 ∧ first + l.length ≤ s.sec.auditSeq)
  .done (fun s => s.auditRead l.length) (fun _ => beBytes 8 first ++ beBytes 2 l.length ++ beBytes 6 0 ++ l.flatten) (2 * b2n more)

/-- AUDIT_READ's row of Table 14.1 and its layout. -/
def auditReadShape (body : List Byte) : Shape :=
  { opcode := 0x65, role := 2, scope := .module, lenOk := decide (body.length = 16),
    fields := decide (1 ≤ fld body 8 2 ∧ fld body 8 2 ≤ 1024) && zeros body 10 6 }

/-- AUDIT_READ (R338). -/
def execAuditRead (h : CmdHdr) (body : List Byte) (s : State) : Host.Outcome State Fault Refusal :=
  run s (clerk (auditReadShape body) h body.length (auditReadOwn h body))

end Sys2Proof.Machine
end

