-- ==== Sys2Proof/Machine/Power.lean ====
section
/-! DEFINITION. Power, reset and thermal: the resets of Table 20.4 and what asks for them (R458 to R465), the boot sequence
(R410, R435, R437, R458), the power cap (R466), the thermal cap (R469, R470), spine links (R344) and the loss of a
reference (R426). -/

namespace Sys2Proof.Machine

/-! ## Which image runs (R435, R437) -/

/-- A slot holds an image that passes R436. -/
def State.slotGood (s : State) (i : Nat) : Bool :=
  match s.flash.slots.getD i none with
  | some m => m.good
  | none => false

/-- The boot ROM's choice: the slot on probation, else the permanent slot; where that fails, the other one. A refused
image is recorded once Palhani runs. With no good slot the module does not start: its fault output is asserted and its ports stay
down (R437). -/
def State.bootImage (s : State) : State :=
  let want := s.flash.probation.getD s.flash.perm
  let start := fun (s : State) (i : Nat) => s.modFw (fun f => { f with running := i, greeted := false })
  if s.slotGood want then start s want
  else
    let s := s.modFlash (fun f => { f with fallback := some (s.slotHash want), probation := none })
    if s.slotGood (1 - want) then start s (1 - want)
    else
      let s := s.modPower (fun p => { p with phase := .stuck, faultN := false })
      forEach (fun s p => s.modNet p (fun t => { t with up := false })) [0, 1] s

/-- The audit records of a boot: kind 3, and kind 4 after a fallback (Table 19.6). -/
def State.bootRecords (s : State) : State :=
  let running := wordBytes (s.slotHash s.fw.running)
  let s := s.audit 3 0 0 0 none none 0 (running ++ wordBytes (s.slotHash s.otherSlot) ++ wordBytes s.configHash)
  match s.flash.fallback with
  | some h => (s.audit 4 0 0 0 none none 0 (wordBytes h ++ running)).modFlash (fun f => { f with fallback := none })
  | none => s

/-- Palhani writes the NETn RW fields from the configuration record (R285). -/
def State.loadNets (s : State) : State :=
  match s.flash.cfg.nets with
  | some l => forEach (fun s p => s.modNet p (fun t => t.load (l.getD p []))) [0, 1] s
  | none => s

/-! ## Cold reset (Table 20.4) -/

/-- A park record after a reset of the module: a valid one is an orphan, a write under way is lost (R397, R400). -/
def Park.orphaned (p : Park) : Park :=
  if p.st = .valid ∨ p.st = .orphan then { st := .orphan, gen := p.gen, samples := p.samples } else { gen := p.gen }

/-- The park table after a reset of the module. (DEDUCED, log 101) -/
def orphanParks (t : Tbl Park) : Tbl Park := t.foldl (fun a p => tset {} a p.1 p.2.orphaned) []

/-- The sessions after a reset of the module: every ID is freed once more. -/
def freedSessions (t : Tbl Session) : Tbl Session := t.foldl (fun a p => tset {} a p.1 { gen := p.2.gen + 1 }) []

/-- Flash after a cold reset: its data, the saved tally, and counters at 0 (R391, R394, R459). (DEDUCED, log 85) -/
def Flash.cold (f : Flash) : Flash :=
  { f with tally := f.saved, tallyZero := false, bootScrub := true, bootPages := 0, parks := 0, unparks := 0, parkFail := 0, refresh := 0,
           retired := 0, wear := { f.wear with chans := [] }, park := orphanParks f.park }

/-- A cold reset: what flash, the audit log, the pins and the TAP hold stays, and every other field returns to its reset
value. Where the rails are down the TAP has lost its state too (R459, R487); at a release the pins are sampled (R479, R480).
The environment's queue, the clock of the model and what has been sent are not the module's to reset. (DEDUCED, logs 10, 100) -/
def State.coldReset (s : State) (phase : Phase) : State :=
  let s := s.failProbation
  { pending := s.pending, now := s.now, free := s.free, sent := s.sent, stamp := s.stamp,
    jtag := if phase = .off ∨ phase = .tripped then {} else s.jtag,
    flash := s.flash.cold, sessions := freedSessions s.sessions,
    sec := { audit := s.sec.audit, auditSeq := s.sec.auditSeq },
    fw := { running := s.fw.running },
    mem := s.mem.filter (fun c => decide (bits c.1 51 48 = 3)),
    power := { phase := phase, resetN := s.power.resetN, slotPins := s.power.slotPins, fpgmPin := s.power.fpgmPin,
               slotId := if phase = .released then s.power.slotPins else s.power.slotId,
               fpgmN := if phase = .released then s.power.fpgmPin else s.power.fpgmN, uptime0 := s.now } }

/-! ## Warm reset (R463) -/

/-- An engine after a warm reset: nothing queued or issued; counters and rotation stay. -/
def Engine.warm (g : Engine) : Engine :=
  { last := g.last, nextId := g.nextId, xfers := g.xfers, bytes := g.bytes, halted := g.halted, faults := g.faults,
    cancel := g.cancel, barsat := g.barsat }

/-- A row after a warm reset: ABSENT; its admission counter stays. -/
def Row.warm (w : Row) : Row := { admits := w.admits }

/-- A press after a warm reset: press memory, buffer pairs and scale banks cleared; counters and retirement stay. -/
def Press.warm (p : Press) : Press := { p with pairs := [], scales := [] }

/-- A stage after a warm reset: no row, no token; its cycle counters stay. -/
def Stage.warm (g : Stage) : Stage :=
  { busy := g.busy, starve := g.starve, loop := g.loop, handoff := g.handoff, block := g.block }

/-- A state-store die after a warm reset: its pools at their reset values; counters stay. -/
def Die.warm (d : Die) : Die := { ce := d.ce, ue := d.ue, dlk := d.dlk }

/-- A port after a warm reset, before its RW fields are loaded: the link and the counters stay. -/
def NetPort.warm (t : NetPort) : NetPort :=
  { up := t.up, paused := t.paused, rxFrames := t.rxFrames, txFrames := t.txFrames, rxDrop := t.rxDrop,
    fecCorr := t.fecCorr, fecUncorr := t.fecUncorr }

/-- A serial audio port after a warm reset: disabled, its configuration, its counters and its mux as they were (Table 20.4). -/
def Sap.warm (t : Sap) : Sap :=
  { mode := t.mode, master := t.master, mclk := t.mclk, slots := t.slots, bits := t.bits, rate := t.rate,
    mux := t.mux, muxTo := t.muxTo, frames := t.frames, wdEvents := t.wdEvents, underruns := t.underruns, skip := t.skip,
    holds := t.holds, muted := t.muted, nonaudios := t.nonaudios, framings := t.framings }

/-- Map a table's entries, in canonical form. -/
def tmap {α : Type} [DecidableEq α] (d : α) (f : α → α) (t : Tbl α) : Tbl α := t.foldl (fun a p => tset d a p.1 (f p.2)) []

/-- Nodes of every row's presses. -/
def State.rowNodes (s : State) : List Nat :=
  (List.range Config.nRows).flatMap (fun r => let w := s.row r; w.cfg.nodes ++ (w.newCfg.map RowCfg.nodes).getD [])

/-- Gate tree and clock registers after a warm reset: the rows' nodes turn off (R413), RW and W1C fields reset. (DEDUCED, log 101) -/
def State.warmClk (s : State) : Clk :=
  let c := s.clk.turnOff s.rowNodes
  { c with used := [], offWait := [], ctrlNode := 0, ctrlOn := false, refusedSeen := false,
           flushes := c.flushes + BitVec.ofNat 48 (s.saps.filter (fun p => p.2.enable)).length }

/-- A warm reset. Table 20.4 lists what it changes; the rest stays. Then Palhani boots from the ROM's choice of image
and writes the boot records with boot_count unchanged (R463). (DEDUCED, log 101) -/
def State.warmReset (s : State) : State :=
  let s := forEach State.account (tkeys s.stages) s.failProbation
  let s := { s with
    clk := s.warmClk, streams := [], egress := [], journals := [], stalls := [], voices := [], bases := [],
    rows := tmap {} Row.warm s.rows,
    exports := [], rings := [], presses := tmap {} Press.warm s.presses, stages := tmap {} Stage.warm s.stages,
    engines := tmap {} Engine.warm s.engines, channels := tmap {} (fun c => { c with ueSeen := false, reqs := [] }) s.channels,
    dies := tmap {} Die.warm s.dies, nets := tmap {} NetPort.warm s.nets, saps := tmap {} Sap.warm s.saps,
    sessions := freedSessions s.sessions,
    mem := s.mem.filter (fun c => decide (bits c.1 51 48 = 0 ∨ bits c.1 51 48 = 3 ∨ bits c.1 51 48 = 5)), heldMoves := [],
    flash := { s.flash with tallyZero := false, park := orphanParks s.flash.park } }
  let s := s.modClerk (fun k => { k with feedGrant := 0, egrFree := 49152 })
  let s := (s.modSec (fun c => { c with credFail := false })).modVct (fun v => { v with peers := [] })
  let s := s.modPower (fun p => { p with
    throttleSeen := false, overLimit := false, alertMask := 0x0E, warm := p.warm + 1, dieWait := p.dieWait.filter (fun d => decide (16 ≤ d.1)), asked := none })
  let s := s.modFw (fun f => { f with restart := none })
  let s := s.loadNets.bootImage
  if s.power.phase = .stuck then s else s.bootRecords

/-! ## PWR_RESET_CTRL (R464, R465) -/

/-- Rows that are not ABSENT, ascending. -/
def State.presentRows (s : State) : List Nat :=
  (List.range Config.nRows).filter (fun r => decide ((s.row r).st ≠ .absent))

/-- A per-die reset begins: a press waits for its engine's transfers; a memory-edge die's channels retrain at once, and the
requests in its GDDR7 crossings are flushed (Table 18.5). -/
def State.beginDieReset (s : State) (die : Nat) : State :=
  if die < 16 then s.beginPressReset die
  else
    let s := s.modPower (fun p => { p with dieWait := p.dieWait ++ [(die, true)] })
    let s := s.modClk (fun c => { c with flushes := c.flushes + 1 })
    forEach (fun s c => s.modChannel (12 * (die - 20) + c) (fun x =>
      { x with slots0 := x.slots s.now, trained := false, reqs := [] })) (List.range 12) s

/-- A reset that was accepted has not ended: a restart, or a per-die reset that a write of PWR_RESET_CTRL asked for. That of R346
nobody asked for. (DEDUCED, log 102) -/
def State.resetAccepted (s : State) : Bool :=
  s.fw.restart.isSome || s.power.asked.isSome || s.power.dieWait.any (fun d => decide (16 ≤ d.1))

/-- A press's reset is accepted: it starts at once where the press's engine holds no issued transfer, and else its response is owed
until it does (R464, Table 20.6). (DEDUCED, log 102) -/
def pressResetAct (h : CmdHdr) (die : Nat) (s : State) : Act :=
  if (s.engine die).issued = [] then .ok (fun s => (s.modPower (fun w => { w with asked := some (die, none) })).beginDieReset die) (backBody 0)
  else .later (fun s => (s.modPower (fun w => { w with asked := some (die, some (s.hdrDefer 0x71 h)) })).beginDieReset die)

/-- A write of PWR_RESET_CTRL: its refusals, then the reset that is accepted. (DEDUCED, logs 24, 102; DESIGN CHOICE, log 34) -/
def resetCtrlOwn (h : CmdHdr) (kind die : Nat) (force : Bool) (s : State) : Act :=
  if kind = 0 ∨ (kind = 3 ∧ ¬(die < 16 ∨ (20 ≤ die ∧ die < 24))) then .no .badDescriptor
  else if s.resetAccepted then .no .busy
  else if kind ≠ 3 then
    if ¬force ∧ s.holdingStalls ≠ [] then .conflict (s.holdingStalls.map s.stallEntry)
    else .ok (fun s => s.modFw (fun f => { f with restart := some kind })) (backBody 0)
  else if die < 16 then
    match s.pressRow die with
    | some r => .conflict [s.rowEntry r]
    | none => if (s.press die).retired then .no .noResource else pressResetAct h die s
  else if s.presentRows ≠ [] then .conflict (s.presentRows.map s.rowEntry)
  else .ok (·.beginDieReset die) (backBody 0)

/-- The body of that write. -/
def resetBody (kind die : Nat) (force : Bool) : List Byte := writeBody "PWR_RESET_CTRL" (kind + 4 * b2n force + 256 * die)

/-- WARM_RESET: PWR_RESET_CTRL kind 1. -/
def execWarmReset (h : CmdHdr) (force : Bool) (s : State) : Host.Outcome State Fault Refusal :=
  run s (clerk (regWriteShape h (resetBody 1 0 force)) h 48 (resetCtrlOwn h 1 0 force))

/-- COLD_RESET_REQUEST: PWR_RESET_CTRL kind 2. -/
def execColdResetRequest (h : CmdHdr) (force : Bool) (s : State) : Host.Outcome State Fault Refusal :=
  run s (clerk (regWriteShape h (resetBody 2 0 force)) h 48 (resetCtrlOwn h 2 0 force))

/-- PER_DIE_RESET: PWR_RESET_CTRL kind 3. -/
def execPerDieReset (h : CmdHdr) (die : Nat) (s : State) : Host.Outcome State Fault Refusal :=
  run s (clerk (regWriteShape h (resetBody 3 die false)) h 48 (resetCtrlOwn h 3 die false))

/-- PER_DIE_RESET_COMPLETE: the die's state is cleared and its domain returns. A channel that fails to retrain is a
channel failure (R217). (DESIGN CHOICE, log 103) -/
def execPerDieResetComplete (die : Nat) (untrained : List Nat) (s : State) : Host.Outcome State Fault Refusal :=
  run s (fun s =>
    if s.awake ∧ s.dieInReset die then
      let s := (s.modPower (fun p => { p with
        dieWait := p.dieWait.filter (fun d => decide (d.1 ≠ die)),
        asked := p.asked.filter (fun a => decide (a.1 ≠ die)) })).countDieReset
      if die < 16 then (s.resetPress die).reloadRow die
      else
        let chans := (List.range 12).map (12 * (die - 20) + ·)
        let s := forEach (fun s c => s.modChannel c (fun x => if untrained.contains c then { x with failed := true }
            else { x with trained := true, trainedAt := s.now })) chans ((s.resetEdge (die - 20)).requestsAgain (die - 20))
        let s := s.landHeld
        if chans.any untrained.contains then s.failModule 1 else s
    else s)

/-- SCHEDULED_RESET: the restart or reset accepted earlier takes place (R337, R465). Only a cold one recovers a module
that has failed (R461). (DEDUCED, log 101) -/
def execScheduledReset (s : State) : Host.Outcome State Fault Refusal :=
  run s (fun s =>
    match s.fw.restart with
    | none => s
    | some k =>
      if ¬s.awake then s
      else if k = 1 then (if s.clerk.failed.isSome then s else s.warmReset)
      else s.coldReset .released)

/-! ## Input power, the reset pin and the boot sequence (R458, R459, R476) -/

/-- INPUT_LOSS: every rail goes down; only what flash holds survives. It acts whatever the clocks do. (DEDUCED, log 100) -/
def execInputLoss (s : State) : Host.Outcome State Fault Refusal :=
  .next (if s.power.phase = .off then s else s.coldReset .off)

/-- THERMAL_TRIP: the conversion trips, and the module behaves as after input loss (R470). -/
def execThermalTrip (s : State) : Host.Outcome State Fault Refusal :=
  .next (if s.power.phase = .off then s else s.coldReset .tripped)

/-- POWER_UP: the rails come up. The TAP is reset (R487), and the sequence holds while RESET_N is low (R476). (DEDUCED, log 100) -/
def execPowerUp (s : State) : Host.Outcome State Fault Refusal :=
  .next (if s.power.phase = .off then
      { s.coldReset (if s.power.resetN then .released else .held) with jtag := {} }
    else s)

/-- A boundary cell of the hub captures a level (R486). -/
def State.captureCell (s : State) (k : Nat) (v : Bool) : State :=
  { s with jtag := { s.jtag with hub := { s.jtag.hub with
      capture := (s.jtag.hub.capture ++ List.replicate (k + 1 - s.jtag.hub.capture.length) false).set k v } } }

/-- RESET_N: the pin has been low for 1,000 cycles of the 100 MHz oscillator, so that oscillator runs: this is the cold
reset that a module recovers by after a clock loss (R426). Under boundary scan it is captured only (R486); without power
only the pin changes; after a thermal trip the module powers up (R470), with its TAP reset (R487). -/
def execResetN (s : State) : Host.Outcome State Fault Refusal :=
  let t := s.modPower (fun p => { p with resetN := false })
  .next (if s.power.phase = .off then t
    else if s.power.phase = .tripped then { t.coldReset .held with jtag := {} }
    else if s.jtag.hub.takesPins then t.captureCell 145 false
    else t.coldReset .held)

/-- A module held in reset begins the row "Reset released" and samples SLOT_ID and FPGM_N (R476, R479, R480). -/
def State.releaseReset (s : State) : State :=
  s.modPower (fun p => if p.phase = .held then { p with phase := .released, slotId := p.slotPins, fpgmN := p.fpgmPin } else p)

/-- RESET_N_RELEASE: the pin rises, with the levels of SLOT_ID and FPGM_N. Under boundary scan the cells capture it and nothing else
follows (R486). -/
def execResetNRelease (slotId : BitVec 4) (fpgmN : Bool) (s : State) : Host.Outcome State Fault Refusal :=
  run s (fun s =>
    let s := s.modPower (fun p => { p with resetN := true, slotPins := slotId, fpgmPin := fpgmN })
    if s.tapUp ∧ s.jtag.hub.takesPins then (s.captureCell 145 true).captureCell 150 fpgmN else s.releaseReset)

/-- The boot ROM's work once the root PLL has locked: the entropy start-up test, hash_key, training and the image
(R410, R435, R443, R444). It refuses to run where the maker's key does not match the fused hash. (DESIGN CHOICE, log 103; DEDUCED, log
104) -/
def State.boot (s : State) (b : BootResult) : State :=
  let s := s.modClk (fun c => { c with ctSwitch := true })
  if ¬b.keyOk then s.modPower (fun p => { p with phase := .stuck })
  else if ¬s.power.fpgmN then s.modPower (fun p => { p with phase := .factory })
  else if 3 ≤ b.entropyFails then s.modPower (fun p => { p with phase := .stuck })
  else
    let s := s.modSec (fun c => { c with hashKey := b.hashKey })
    let s := forEach (fun s c => s.modChannel c (fun x => if b.untrained.contains c then { x with failed := true }
      else { x with trained := true, trainedAt := s.now })) (List.range 48) s
    (s.modPower (fun p => { p with phase := .booting })).bootImage

/-- PLL_LOCK (R410). (DEDUCED, log 104) -/
def execPllLock (b : BootResult) (s : State) : Host.Outcome State Fault Refusal :=
  run s (fun s => if s.power.phase = .released then s.boot b else s)

/-- PALHANI_START: the configuration record, the tally and boot_count are loaded and the boot records written. A channel
that failed at boot is a module failure (R217). While the hub boot mux switches, CTCLK has no edge and Palhani does not start (R410,
R414). -/
def execPalhaniStart (s : State) : Host.Outcome State Fault Refusal :=
  run s (fun s =>
    if s.power.phase = .booting ∧ ¬s.clk.ctSwitch then
      let s := s.loadNets.modPower (fun p => { p with phase := .started })
      let s := (s.modFlash (fun f => { f with bootCount := f.bootCount + 1 })).bootRecords
      if s.channels.any (fun c => c.2.failed) then s.failModule 1 else s
    else s)

/-- PORTS_ENABLE: the Ethernet ports are enabled, and the fault output is released unless the module has failed. -/
def execPortsEnable (s : State) : Host.Outcome State Fault Refusal :=
  run s (fun s =>
    if s.power.phase = .started then s.modPower (fun p => { p with phase := .up, faultN := s.clerk.failed.isNone }) else s)

/-! ## The power cap and the thermal cap (R456, R466, R469, R470) -/

/-- The new count of places withheld per press: more while the power exceeds the cap, fewer while it stays below. How
many is left open, and is a free value. (DESIGN CHOICE, log 105) -/
def withheldNext (free : BitVec 256) (old : Nat) (above below : Bool) : Nat :=
  if above then min 512 (old + 1 + free.toNat % 512)
  else if below then (if old = 0 then 0 else free.toNat % old)
  else old

/-- POWER_CAP_TICK: one millisecond's measurement (R466). (DESIGN CHOICE, log 105) -/
def State.capTick (s : State) (volts amps watts : Nat) : State :=
  let s := s.modPower (fun p => { p with volts := volts, amps := amps, watts := watts })
  let cap := 25 * s.power.eff
  let n := withheldNext s.draw.1 s.power.withhold (decide (cap < watts)) (decide (watts < cap))
  let s := s.draw.2.modPower (fun p => { p with
    withhold := n, binding := decide (0 < n), capMs := if 0 < n then p.capMs + 1 else p.capMs,
    throttleMs := if p.thermal then p.throttleMs + 1 else p.throttleMs })
  forEach (fun s r => s.modRow r (fun w => { w with withheld := if w.st = .live then n * w.cfg.presses else 0 }))
    (List.range Config.nRows) s

/-- POWER_CAP_TICK (R466). -/
def execPowerCapTick (volts amps watts : Nat) (s : State) : Host.Outcome State Fault Refusal :=
  run s (fun s => if s.awake then s.capTick volts amps watts else s)

/-- The thermal cap after 100 ms: 25 W less while any sensor reads 95 °C or more, 25 W more while every sensor reads
below 90 °C; at the cap of R456 it is out of force. (DEDUCED, log 106) -/
def Power.thermNext (p : Power) (hot cool : Bool) : Nat :=
  if hot then max 48 (p.eff - 1)
  else if cool then (if p.base ≤ p.thermCap + 1 then 100 else p.thermCap + 1)
  else p.thermCap

/-- THERMAL_STEP: 100 ms with these readings, by die, in units of 0.25 °C (R469). (DEDUCED, log 106) -/
def State.thermStep (s : State) (temps : List Int) : State :=
  s.modPower (fun p =>
    let t := (List.range 25).foldl (fun a d => tset 0 a d (temps.getD d (tget 0 p.temps d))) p.temps
    let reads := fun (q : Int → Bool) => (List.range 25).any (fun d => q (tget 0 t d))
    let hot := reads (fun x => decide (380 ≤ x))
    { p with temps := t, throttleSeen := p.throttleSeen || hot, overLimit := p.overLimit || reads (fun x => decide (420 ≤ x)),
             thermCap := p.thermNext hot (!reads (fun x => decide (360 ≤ x))) })

/-- THERMAL_STEP (R469). -/
def execThermalStep (temps : List Int) (s : State) : Host.Outcome State Fault Refusal :=
  run s (fun s => if s.awake then s.thermStep temps else s)

/-- THERMAL_FAILURE: a sensor has stayed at 110 °C, or at 105 °C at the least cap, for one second (R470). -/
def execThermalFailure (s : State) : Host.Outcome State Fault Refusal :=
  run s (fun s =>
    let p := s.power
    if s.awake ∧ p.temps.any (fun t => decide (440 ≤ t.2 ∨ (420 ≤ t.2 ∧ p.eff ≤ 48))) then s.failModule 5 else s)

/-! ## Spine links and references (R344, R426) -/

/-- SPINE_LINK_FAIL: a link to a press retires it; a link to S, M or H is a module failure (Table 15.1). -/
def execSpineLinkFail (die : Nat) (s : State) : Host.Outcome State Fault Refusal :=
  run s (fun s => if ¬s.awake then s else if die < 16 then s.retirePress die 2 else s.failModule 6)

/-- REFERENCE_CLOCK_LOSS: the 156.25 MHz or the 100 MHz oscillator stops. -/
def execReferenceClockLoss (ethernet : Bool) (s : State) : Host.Outcome State Fault Refusal :=
  .next (s.modPower (fun p => if ethernet then { p with ref156 := false } else { p with ref100 := false }))

end Sys2Proof.Machine
end

