-- ==== Sys2Proof/Machine/Jtag.lean ====
section
/-! DEFINITION. Boundary scan and test: the TAP's instructions (R485 to R487), debug accesses (R445), and factory
programming (R480). -/

namespace Sys2Proof.Machine

/-- A device of the chain. -/
def Jtag.dev (j : Jtag) : ChainDev → TapDev
  | .retimer0 => j.retimer0
  | .retimer1 => j.retimer1
  | .hub => j.hub

/-- The chain with one device changed. -/
def Jtag.set (j : Jtag) (d : ChainDev) (x : TapDev) : Jtag :=
  match d with
  | .retimer0 => { j with retimer0 := x }
  | .retimer1 => { j with retimer1 := x }
  | .hub => { j with hub := x }

/-- Change a device of the chain. -/
def State.modDev (s : State) (d : ChainDev) (f : TapDev → TapDev) : State :=
  { s with jtag := s.jtag.set d (f (s.jtag.dev d)) }

/-- The IDCODE of a device (Table 21.7). -/
def idOf : ChainDev → BitVec 64
  | .hub => 0x10A25B4B#64
  | _ => 0x10A26B4B#64

/-- What a device's instruction does to the module's functions: a retimer that takes its lanes costs the port its link. Where the
hub gives its pins back, RESET_N acts again by its level (R476, R486). The clocks of the SAP ports are read where they act.
(DESIGN CHOICE, log 110) -/
def State.pinsSeen (s : State) : State :=
  let s := forEach (fun s p => if s.lanesTaken p then s.dropLink p else s) [0, 1] s
  if s.jtag.hub.takesPins then s
  else if s.power.resetN then s.releaseReset
  else if s.power.phase = .held then s
  else s.coldReset .held

/-- The instruction that a code selects (Table 21.8); a code that is not listed selects BYPASS. -/
def tapIr (dev : ChainDev) (code : Nat) : TapIr :=
  let common := fun (c : Nat) => if c = 0 then TapIr.extest else if c = 1 then .idcode else if c = 2 then .samplePreload
    else if c = 8 then .highz else if c = 9 then .clamp else .bypass
  match dev with
  | .hub => if code = 0x100 then .dbgRd else if code = 0x101 then .dbgWr else if code = 0x1F0 then .fpgm else common code
  | _ => if code = 3 then .extestPulse else if code = 4 then .extestTrain else common code

/-- A device loads an instruction. -/
def State.loadIr (s : State) (d : ChainDev) (f : TapDev → TapDev) : State := (s.modDev d f).pinsSeen

/-- Load an instruction that selects the bypass register. (DEDUCED, log 95) -/
def State.loadBypass (s : State) (d : ChainDev) (ir : TapIr) : State := s.loadIr d (fun x => { x with ir := ir, dr := 0 })

/-- A number out of bits, least significant first. -/
def bitsNum (l : List Bool) : Nat := l.foldr (fun b v => b2n b + 2 * v) 0

/-- What a boundary cell does: it captures the pin, holds the level to drive, or, at 1, lets its pin be driven. -/
inductive CellKind where
  | input | output | control
  deriving DecidableEq, Repr, Inhabited

/-- Cell `k` of the hub, cell 0 nearest TDO (R485). -/
def hubCell (k : Nat) : Option (Pin × CellKind) :=
  let n := k / 9
  if k < 144 then
    [(.bclk n, .input), (.bclk n, .output), (.bclk n, .control), (.fsync n, .input), (.fsync n, .output), (.fsync n, .control),
     (.dout n, .output), (.dout n, .control), (.din n, .input)][k % 9]?
  else
    [(.mclkIn, .input), (.resetN, .input), (.faultN, .output), (.faultN, .control), (.alertN, .output), (.alertN, .control),
     (.fpgmN, .input), (.presentN, .input), (.slotId 0, .input), (.slotId 1, .input), (.slotId 2, .input), (.slotId 3, .input)][k - 144]?

/-- Cell `k` of the retimer of a port: for lanes 0 to 3 in order, TX output and control, then the RX test receivers. -/
def retimerCell (port k : Nat) : Option (Pin × CellKind) :=
  let l := k / 4
  if k < 16 then
    [(.tx port l true, .output), (.tx port l true, .control), (.rx port l true, .input), (.rx port l false, .input)][k % 4]?
  else none

/-- Boundary cells of a device. -/
def cellCount : ChainDev → Nat
  | .hub => 156
  | _ => 16

/-- The level of a pin of the hub that the module or its own boundary register fixes, the cells `cells` driving; none is a level that
comes from outside. -/
def State.pinLevel (s : State) (cells : List Bool) (pin : Pin) : Option Bool :=
  match pin with
  | .resetN => some s.power.resetN
  | .fpgmN => some s.power.fpgmPin
  | .presentN => some false
  | .slotId i => some (s.power.slotPins.getLsbD i)
  | p => (outCells p).bind (fun c => if cells.getD c.2 false then some (cells.getD c.1 false) else none)

/-- What the boundary cells of a device capture while `cells` drive its pins: an input cell its pin, of which a level from outside is a
free value, and an output or a control cell what it holds, the spec not saying (R485, R486). (DESIGN CHOICE, log 110) -/
def State.capturedCells (s : State) (d : ChainDev) (cells : List Bool) (free : BitVec 256) : List Bool :=
  let cell := fun k => match d with | .hub => hubCell k | .retimer0 => retimerCell 0 k | .retimer1 => retimerCell 1 k
  (List.range (cellCount d)).map (fun k => match cell k with
    | some (p, .input) => (match d with | .hub => s.pinLevel cells p | _ => none).getD (free.getLsbD k)
    | _ => cells.getD k false)

/-- Load an instruction of Table 21.8, by its code, that drives the pins from the boundary register from its update on; its cells
capture what the pins then carry. A code that the device's column does not hold selects BYPASS (R485). -/
def State.loadDrive (s : State) (d : ChainDev) (code : Nat) (cells : List Bool) : State :=
  let ir := tapIr d code
  if ir = .bypass then s.loadBypass d ir
  else
    let s := s.loadIr d (fun x => { x with ir := ir, update := cells })
    let c := s.capturedCells d cells s.draw.1
    s.draw.2.modDev d (fun x => { x with capture := c })

/-- EXTEST (R486). -/
def execExtest (dev : ChainDev) (cells : List Bool) (s : State) : Host.Outcome State Fault Refusal :=
  run s (fun s => if s.tapUp then s.loadDrive dev 0x000 cells else s)

/-- EXTEST_PULSE: an instruction of the retimers; the hub selects BYPASS (R485). -/
def execExtestPulse (dev : ChainDev) (cells : List Bool) (s : State) : Host.Outcome State Fault Refusal :=
  run s (fun s => if s.tapUp then s.loadDrive dev 0x003 cells else s)

/-- EXTEST_TRAIN: an instruction of the retimers; the hub selects BYPASS (R485). -/
def execExtestTrain (dev : ChainDev) (cells : List Bool) (s : State) : Host.Outcome State Fault Refusal :=
  run s (fun s => if s.tapUp then s.loadDrive dev 0x004 cells else s)

/-- IDCODE: the device identification register is selected (R485). -/
def execIdcode (dev : ChainDev) (s : State) : Host.Outcome State Fault Refusal :=
  run s (fun s => if s.tapUp then s.loadIr dev (fun x => { x with ir := tapIr dev 0x001, dr := idOf dev }) else s)

/-- SAMPLE/PRELOAD: the cells capture the pins and are preloaded; the pins stay the module's (R485). The levels of FPGM_N and SLOT_ID
are those that the hub's cells capture (R479). -/
def execSamplePreload (dev : ChainDev) (pins cells : List Bool) (s : State) : Host.Outcome State Fault Refusal :=
  run s (fun s =>
    if s.tapUp then
      let s := s.loadIr dev (fun x => { x with ir := tapIr dev 0x002, capture := pins, update := cells })
      if dev = .hub then
        s.modPower (fun p => { p with fpgmPin := pins.getD 150 true, slotPins := BitVec.ofNat 4 (bitsNum ((pins.drop 152).take 4)) })
      else s
    else s)

/-- HIGHZ (R486). -/
def execHighz (dev : ChainDev) (s : State) : Host.Outcome State Fault Refusal :=
  run s (fun s => if s.tapUp then s.loadBypass dev (tapIr dev 0x008) else s)

/-- CLAMP (R486). -/
def execClamp (dev : ChainDev) (s : State) : Host.Outcome State Fault Refusal :=
  run s (fun s => if s.tapUp then s.loadBypass dev (tapIr dev 0x009) else s)

/-- BYPASS (R485). -/
def execBypass (dev : ChainDev) (s : State) : Host.Outcome State Fault Refusal :=
  run s (fun s => if s.tapUp then s.loadBypass dev (tapIr dev 0x3FF) else s)

/-- DBG_RD: a read-only debug access, open from level 1 on (Table 19.4). The spec maps no debug address: the datum is a
free value. Below that level the instruction selects BYPASS. (DESIGN CHOICE, log 94; DEDUCED, log 95) -/
def execDbgRd (_addr : BitVec 64) (s : State) : Host.Outcome State Fault Refusal :=
  run s (fun s =>
    if ¬s.tapUp then s
    else if s.sec.debug = 0 then s.loadBypass .hub .bypass
    else s.draw.2.loadIr .hub (fun x => { x with ir := tapIr .hub 0x100, dr := s.draw.1.setWidth 64 }))

/-- DBG_WR: a debug write, open at level 2 (Table 19.4). The spec maps no debug address: the byte is kept in the debug
space alone. Below that level the instruction selects BYPASS. (DESIGN CHOICE, log 94; DEDUCED, log 95) -/
def execDbgWr (addr : BitVec 64) (value : Byte) (s : State) : Host.Outcome State Fault Refusal :=
  run s (fun s =>
    if ¬s.tapUp then s
    else if s.sec.debug < 2 then s.loadBypass .hub .bypass
    else
      let s := s.loadIr .hub (fun x => { x with ir := tapIr .hub 0x101, dr := value.setWidth 64 })
      { s with jtag := { s.jtag with debug := tset 0 s.jtag.debug addr.toNat value } })

/-- FPGM: in factory programming the ROM checks the image, and writes one that passes to the permanent slot; the status
word says which (R480). The mode takes one image: after one that passed, a further one changes nothing. Outside that mode the
instruction selects BYPASS. (DEDUCED, log 95) -/
def execFpgm (image : List Byte) (s : State) : Host.Outcome State Fault Refusal :=
  run s (fun s =>
    if s.power.phase ≠ .factory then (if s.tapUp then s.loadBypass .hub .bypass else s)
    else if s.power.programmed then s.loadIr .hub (fun x => { x with ir := tapIr .hub 0x1F0, dr := 0x600D#64 })
    else
      let ok := fwGood image && decide (image.length ≤ fwMax)
      let s := s.loadIr .hub (fun x => { x with ir := tapIr .hub 0x1F0, dr := if ok then 0x600D#64 else 0x0BAD#64 })
      if ok then
        ((s.modPower (fun p => { p with programmed := true })).writeFw s.flash.perm image.length).modFlash (fun f =>
          { f with slots := f.slots.set f.perm (some (fwImage image)) })
      else s)

/-- TAP_RESET: every device selects IDCODE, and debug accesses in flight are flushed (R487, Table 18.5). -/
def execTapReset (s : State) : Host.Outcome State Fault Refusal :=
  run s (fun s =>
    if s.tapUp then
      let s := forEach (fun s d => s.modDev d (fun x => { x with ir := .idcode, dr := idOf d })) [ChainDev.retimer0, .retimer1, .hub] s
      (s.modClk (fun c => { c with flushes := c.flushes + 1 })).pinsSeen
    else s)

end Sys2Proof.Machine
end

