-- ==== Sys2Proof/Machine/Porters.lean ====
section
/-! DEFINITION. The porters (chapter 9) and the memories they move bytes between (chapters 10 and 11): issue, completion,
fences, barriers, swaps, halts and page-ins, and what follows an uncorrectable error. -/

namespace Sys2Proof

/-- Retries of a burst: up to 4 (R235). -/
def MemAnswer.retries (a : MemAnswer) : Nat := min 4 a.crc

/-- The fifth attempt failed too (R235). -/
def MemAnswer.lost (a : MemAnswer) : Bool := decide (5 ≤ a.crc)

/-- Codes or words with more than their code corrects (R233, R234). What lies beyond the errors a code detects, three bytes
or two bits, is taken as detected. (DESIGN CHOICE, log 130) -/
def MemAnswer.ues (a : MemAnswer) : Nat := (a.bad.filter (2 ≤ ·)).length

/-- Codes or words that were corrected. -/
def MemAnswer.ces (a : MemAnswer) : Nat := (a.bad.filter (· == 1)).length

end Sys2Proof

namespace Sys2Proof.Machine

/-! ## Addresses (Tables 9.3, 10.1, R221) -/

/-- Bytes of each space (Table 9.3, Table 17.1, R231). -/
def spaceBytes (sp : Nat) : Nat :=
  [0x2C00000000, 0x100000000, 0x6000000, 0x2000000000 + 12 * 2 ^ 40, 0x8000000, 0x4000000].getD sp 0

/-- The first byte of a half of a buffer pair: a place of the model's own beside press memory. (DESIGN CHOICE, log 62) -/
def halfAddr (press pair half : Nat) : Nat := addrWord 2 press (2 ^ 40 + (2 * pair + half) * 2 ^ 32)

/-! ## Elements and transfers (R193, R194, R200) -/

/-- Elements of a descriptor. -/
def descTotal (d : Desc) : Nat := d.counts.foldl (· * ·) 1

/-- The indices of element `e`, i1 fastest. -/
def elemIndex : List Nat → Nat → List Nat
  | [], _ => []
  | c :: cs, e => (if c = 0 then 0 else e % c) :: elemIndex cs (if c = 0 then 0 else e / c)

/-- The offset that strides give an element. -/
def strideSum (idx : List Nat) (st : List Int) : Int := ((idx.zip st).map (fun p => (p.1 : Int) * p.2)).sum

/-- What a descriptor moves next. -/
inductive Piece where
  | finished
  | bad                                -- an element address outside its space (R195)
  | skip                               -- an index entry of 0xFFFF_FFFF (R200)
  | spoiled (key : Nat)                -- an index entry that is uncorrectable (R212, R236)
  | move (src dst len : Nat)           -- keys of the first bytes, and the bytes
  deriving DecidableEq, Repr

/-- A key from an address word that engine `e` may name, and an offset, when `len` bytes from there lie in the space
(R192, R195). (DESIGN CHOICE, log 169) -/
def keyAt (e w : Nat) (off : Int) (len : Nat) : Option Nat :=
  let a := (byteOf w : Int) + off
  if wordAllowed e w ∧ 0 ≤ a ∧ a + len ≤ spaceBytes (spaceOf w) then some (addrWord (spaceOf w) (unitOf w) a.toNat) else none

/-- A byte of the stream table or the stall table as a state-store die holds it (Table 10.4). -/
def State.tableByte (s : State) (die a : Nat) : Byte :=
  if a < 0x400000 then (wordsLE (streamWords (s.stream (4 * (a / 64) + die)))).getD (a % 64) 0
  else if die = 0 then (wordsLE (stallWords (s.stall ((a - 0x400000) / 64)))).getD (a % 64) 0
  else 0

/-- The bytes that a porter reads at a key. The tables of Table 10.4 read as their entries stand; no rule has a porter
write them. (DESIGN CHOICE, log 62) -/
def State.readKey (s : State) (key len : Nat) : List Byte :=
  if spaceOf key = 4 ∧ byteOf key < 0x500000 then (List.range len).map (fun i => s.tableByte (unitOf key) (byteOf key + i))
  else mread s.mem key len

/-- The source offset of element `e`; none for a skipped one (R200). (DESIGN CHOICE, log 62) -/
def State.srcOffset (s : State) (d : Desc) (e : Nat) : Option Int :=
  if d.op = 1 then
    let v := leNat (mread s.mem (d.index.toNat + 4 * e) 4)
    if v = 0xFFFFFFFF then none else some ((v : Int) * d.sstride.getD 0 0)
  else some (strideSum (elemIndex d.counts e) d.sstride)

/-- The destination key of element `k`: with vfill, in the verso half of the pair (R205). (DESIGN CHOICE, log 62) -/
def State.dstKey (s : State) (e : Nat) (d : Desc) (k : Nat) : Option Nat :=
  let off := strideSum (elemIndex d.counts k) d.dstride
  if d.vfill then
    let p := unitOf d.dst.toNat
    let i := bits d.opArg.toNat 5 0
    let w := tget ({} : Pair) (s.press p).pairs i
    let a := (byteOf d.dst.toNat : Int) + off
    if 0 ≤ a ∧ a + d.count0 ≤ 1024 * w.kib then some (halfAddr p i (if w.recto then 0 else 1) + a.toNat) else none
  else keyAt e d.dst.toNat off d.count0

/-- The next transfer of a descriptor of engine `e` at element `k` and offset `off` (R194): a piece ends at a 512-byte
boundary of its source or its destination. -/
def State.pieceAt (s : State) (e : Nat) (d : Desc) (k off : Nat) : Piece :=
  if descTotal d ≤ k then .finished
  else if d.op = 1 ∧ s.poisoned (d.index.toNat + 4 * k) then .spoiled (d.index.toNat + 4 * k)
  else match s.srcOffset d k with
    | none => .skip
    | some o =>
      match keyAt e d.src.toNat o d.count0, s.dstKey e d k with
      | some a, some b =>
        let len := min (d.count0 - off) (min (512 - (a + off) % 512) (512 - (b + off) % 512))
        .move (a + off) (b + off) len
      | _, _ => .bad

/-- Step over skipped elements. -/
def State.skipFrom (s : State) (e : Nat) (d : Desc) : Nat → Nat → Nat
  | 0, k => k
  | fuel + 1, k => if s.pieceAt e d k 0 = .skip then s.skipFrom e d fuel (k + 1) else k

/-- The element and offset of a descriptor's next transfer. -/
def State.cursor (s : State) (e : Nat) (x : QDesc) : Nat × Nat :=
  if x.off = 0 then (s.skipFrom e x.d (descTotal x.d - x.elem) x.elem, 0) else (x.elem, x.off)

/-- The next transfer of a queued descriptor. -/
def State.nextPiece (s : State) (e : Nat) (x : QDesc) : Piece :=
  let c := s.cursor e x
  if 2 ≤ x.d.op then .finished else s.pieceAt e x.d c.1 c.2

/-! ## Which transfer may issue (R189, R190, R196 to R198, R209, R210, R249) -/

/-- The stream whose folio a key lies in, when its pages are not all present (R209). -/
def State.absentPage (s : State) (a : Nat) : Option Nat :=
  if a < Config.weightBase ∧ (s.stream (a / Config.folioBytes)).res ≠ .present then some (a / Config.folioBytes) else none

/-- The input channels of the layer whose compressed rows lie at a press-memory key (R145). (DESIGN CHOICE, log 41) -/
def State.recordChannels (s : State) (key : Nat) : Option Nat :=
  match s.pressRow (unitOf key) with
  | none => none
  | some r =>
    (s.row r).maps.findSome? (fun (m : Nat × Nat × Nat) =>
      match (s.row r).prog[m.2.1]? with
      | some (_, .conv d _ _ _ _ _ _) =>
        if m.1 / 16 = unitOf key ∧ m.2.2 ≤ byteOf key ∧ byteOf key < m.2.2 + recordRoom d.cIn * (d.taps * d.inF) then some d.cIn else none
      | some (_, .upsample d _ _ _ _ _ _) =>
        if m.1 / 16 = unitOf key ∧ m.2.2 ≤ byteOf key ∧ byteOf key < m.2.2 + recordRoom d.cIn then some d.cIn else none
      | _ => none)

/-- The codes of a zero-compressed record (Table 6.3); none where R146 calls it corrupt. `cIn` are its layer's input
channels, where a layer of the row stores it. (DESIGN CHOICE, log 41) -/
def expandRecord (h : List Byte) (cIn : Option Nat) : Option (List Byte) :=
  let z := h.getD 7 0
  let blocks := lfld h 8 2
  let go := (List.range blocks).foldl (fun (acc : Option (Nat × List Byte)) i =>
    match acc with
    | none => none
    | some (off, out) =>
      let map := (h.drop off).take 16
      let set := (List.range 128).map (fun c => (map.getD (c / 8) 0).getLsbD (c % 8))
      let n := (set.filter id).length
      let pad := ceilDiv n 16 * 16
      let codes := (h.drop (off + 16)).take pad
      let put := set.foldl (fun (acc : Nat × List Byte) b => if b then (acc.1 + 1, acc.2 ++ [codes.getD acc.1 0]) else (acc.1, acc.2 ++ [z])) (0, [])
      let beyond : Bool := match cIn with
        | some c => (List.range 128).any (fun j => decide (c ≤ 128 * i + j) && set.getD j false)
        | none => false
      if (codes.take n).contains z ∨ (codes.drop n).any (· ≠ 0) ∨ beyond then none else some (off + 16 + pad, out ++ put.2)) (some (16, []))
  match go with
  | none => none
  | some (off, out) => if lfld h 0 4 = off ∧ ((h.drop 10).take 6).all (· == 0) then some out else none

/-- What element `k` of an expanding descriptor brings: the record's codes and where they land; none where it is corrupt
(R145, R146). (DEDUCED, log 63) -/
def State.expandElem (s : State) (e : Nat) (d : Desc) (k : Nat) : Option (Nat × List Byte) :=
  match s.srcOffset d k with
  | none => none
  | some o =>
    match keyAt e d.src.toNat o d.count0, s.dstKey e d k with
    | some a, some b => (expandRecord (mread s.mem a d.count0) (s.recordChannels a)).map (fun out => (b, out))
    | _, _ => none

/-- The granules of two byte runs meet. -/
def meets (a la b lb : Nat) : Bool := decide (a / 512 ≤ (b + lb - 1) / 512 ∧ b / 512 ≤ (a + la - 1) / 512)

/-- R197: an issued transfer of the same queue writes a granule of these bytes: where it goes, or where an expanded record lands. -/
def hazard (g : Engine) (q a len : Nat) : Bool :=
  g.issued.any (fun t => decide (t.queue = q) && (meets t.dst t.len a len || (!t.data.isEmpty && meets t.at_ t.data.length a len)))

/-- R197 for the whole place of the record that an expanding descriptor's next piece completes (R145). -/
def State.expandHazard (s : State) (e : Nat) (g : Engine) (q : Nat) (x : QDesc) : Bool :=
  x.d.expand && match s.expandElem e x.d (s.cursor e x).1 with
    | some (b, out) => !out.isEmpty && hazard g q b out.length
    | none => false

/-- R197 for the index entries that a descriptor reads up to its next element. -/
def indexHazard (g : Engine) (q : Nat) (x : QDesc) (k : Nat) : Bool :=
  decide (x.d.op = 1) && hazard g q (x.d.index.toNat + 4 * x.elem) (4 * (k - x.elem) + 4)

/-- The pair of a vfill is still full (R205). -/
def State.fillWaits (s : State) (d : Desc) : Bool :=
  d.vfill && (tget ({} : Pair) (s.press (unitOf d.dst.toNat)).pairs (bits d.opArg.toNat 5 0)).full

/-- The descriptors of a queue that the engine has decoded: the oldest incomplete one and 16 behind it (R196). -/
def PQueue.decoded (p : PQueue) : List QDesc := p.descs.take 17

/-- A page-in writes pages that are not present yet. (DESIGN CHOICE, log 70) -/
def pageIn (d : Desc) : Bool := d.sys && decide (d.cls = 6 ∧ spaceOf d.src.toNat = 3)

/-- A page that the transfer would need and that is not present (R209). -/
def State.needsPage (s : State) (d : Desc) (a b : Nat) : Option Nat :=
  if pageIn d then none else (s.absentPage a).or (s.absentPage b)

/-- The descriptor of a queue that may issue now, and its piece: the first decoded one that has transfers left, past
halted ones and what they hold. A stream ID holds whatever carries it, the 0 of system descriptors too (R196, R210). (DEDUCED, log 127) -/
def State.issuable (s : State) (e : Nat) (g : Engine) (q : Nat) : List Nat → List QDesc → Option (QDesc × Piece)
  | _, [] => none
  | held, x :: xs =>
    if 2 ≤ x.d.op then none
    else if x.halted ∨ held.contains x.d.stream then s.issuable e g q (x.d.stream :: held) xs
    else if indexHazard g q x (s.cursor e x).1 then none
    else match s.nextPiece e x with
      | .finished => s.issuable e g q held xs
      | .skip => none
      | .bad => some (x, .bad)
      | .spoiled k => some (x, .spoiled k)
      | .move a b len =>
        if s.fillWaits x.d ∨ hazard g q a len ∨ hazard g q b len ∨ s.expandHazard e g q x then none
        else if (s.needsPage x.d a b).isSome ∧ 64 ≤ g.halts then none
        else some (x, .move a b len)

/-- The slot that a transfer of the queue would take: its queue's floor, else for a folio transfer its stream's, else a
shared one that no floor needs; none where the queue is at its limit or no such slot is free (R187, R189, R249). (DEDUCED, log 128) -/
def slotFor (g : Engine) (e q : Nat) (p : PQueue) (d : Desc) : Option SlotKind :=
  if p.limit ≤ g.outstanding q ∨ g.freeSlots e = 0 then none
  else if ¬g.queueFloorUsed q then some .queue
  else if ¬d.sys ∧ d.cls ≤ 1 ∧ g.floors.contains d.stream ∧ ¬g.floorUsed d.stream then some .stream
  else if g.reserved e < g.freeSlots e then some .shared
  else none

/-- The contender a descriptor belongs to: 0 the system, 1 + n stall n (R190). -/
def contender (d : Desc) : Nat := if d.sys then 0 else 1 + d.stall

/-- What a queue could issue. -/
structure Offer where
  queue : Nat
  x     : QDesc
  piece : Piece
  slot  : SlotKind

/-- What each queue of an engine could issue. -/
def State.offers (s : State) (e : Nat) : List Offer :=
  let g := s.engine e
  g.queues.filterMap (fun p =>
    match s.issuable e g p.1 [] p.2.decoded with
    | some (x, pc) => (slotFor g e p.1 p.2 x.d).map (fun k => { queue := p.1, x := x, piece := pc, slot := k })
    | none => none)

/-- The weight of a contender. -/
def State.contWeight (s : State) (c : Nat) : Nat := if c = 0 then 255 else (s.stall (c - 1)).weight

/-- The rotation over contenders at one issue opportunity (R190). -/
def State.rotate (s : State) (g : Engine) (cs : List Nat) : Engine :=
  let g := match g.cur with
    | some c => if g.sent = g.weight ∨ ¬cs.contains c then { g with sent := 0, last := c, cur := none } else g
    | none => g
  match g.cur, nextAfter (1 + Config.nStalls) g.last cs with
  | none, some c => { g with cur := some c, weight := s.contWeight c }
  | _, _ => g

/-- Change one queued descriptor. -/
def Engine.modDesc (g : Engine) (q id : Nat) (f : QDesc → QDesc) : Engine :=
  let p := tget ({} : PQueue) g.queues q
  { g with queues := tset {} g.queues q { p with descs := p.descs.map (fun x => if x.id = id then f x else x) } }

/-- Take one descriptor out of its queue. -/
def Engine.popDesc (g : Engine) (q id : Nat) : Engine :=
  let p := tget ({} : PQueue) g.queues q
  { g with queues := tset {} g.queues q { p with descs := p.descs.filter (fun x => decide (x.id ≠ id)) } }

/-! ## The end of a descriptor -/

/-- Take a queued descriptor's stream to its fault: the error ends the descriptor, and the stream named in ids goes
FAULTED (R212). (DEDUCED, log 66) -/
def State.endDesc (s : State) (e q : Nat) (x : QDesc) (st : Status) : State :=
  let s := s.modEngine e (fun g => { g.popDesc q x.id with faults := g.faults + 1, halts := if x.halted then g.halts - 1 else g.halts })
  let s := s.porterRecord e q x st
  if x.d.sys then s else s.faultStream x.d.stream st (engineSource e) (if e < 16 then e else q)

/-- A folio copy, a park copy or a page-in is complete. The hot image in its pitch signals the row scheduler's barrier on the
state-store engine (R204). (DESIGN CHOICE, log 58) -/
def State.copyDone (s : State) (d : Desc) : State :=
  let src := d.src.toNat
  let dst := d.dst.toNat
  if d.sys then
    if d.cls = 6 ∧ spaceOf dst = 3 then s.modPark (byteOf dst / Config.folioBytes) (fun p => { p with copied := p.copied + 1 })
    else if pageIn d then s.modPark (byteOf src / Config.folioBytes) (fun p => { p with fetched := p.reading })
    else s
  else if d.cls = 0 ∧ src = folioAddr d.stream then
    if (s.stream d.stream).copyIn = .running then
      (s.modStream d.stream (fun y => { y with copyIn := .done })).signalSys (16 + d.stream % 4) ((s.stream d.stream).row.getD 0)
    else s
  else if d.cls = 1 ∧ dst = folioAddr d.stream then
    s.modStream d.stream (fun y => if y.copyOut = .running then { y with copyOut := .done } else y)
  else s

/-- Completion of a descriptor (R204, R205, R208): its record, its pair, and the copy it was. -/
def State.completeDesc (s : State) (e q : Nat) (x : QDesc) : State :=
  let s := s.modEngine e (fun g => g.popDesc q x.id)
  let s := if x.d.notify then s.ringRecord e q x .ok else s
  let s := if x.d.vfill then s.modPair (unitOf x.d.dst.toNat) (bits x.d.opArg.toNat 5 0) (·.filled false) else s
  s.copyDone x.d

/-- A swap of a pair that a descriptor or the core asks for: taken when verso is full and recto released, else it waits. (DEDUCED, log 65) -/
def State.askSwap (s : State) (p i : Nat) : State :=
  s.modPair p i (fun w => if w.full ∧ ¬w.held then w.swap else { w with req := true })

/-- Every transfer of the queue's descriptors before `id` has completed (R198). -/
def drained (g : Engine) (q id : Nat) : Bool := !g.issued.any (fun t => decide (t.queue = q ∧ t.desc < id))

/-- The descriptor at the head of a queue, nothing before it incomplete (R198). -/
def State.headDesc (s : State) (e q : Nat) : Option QDesc :=
  match (tget ({} : PQueue) (s.engine e).queues q).descs.head? with
  | some x => if drained (s.engine e) q x.id then some x else none
  | none => none

/-- The first FENCE, SIGNAL, WAIT or SWAP of a queue, where every descriptor before it has issued its last transfer or is
halted, and nothing halted carries its stream (R196, R202, R206, R210). -/
def State.reached (s : State) (e : Nat) : List Nat → List QDesc → Option QDesc
  | _, [] => none
  | held, x :: xs =>
    if 2 ≤ x.d.op then (if held.contains x.d.stream then none else some x)
    else if x.halted ∨ held.contains x.d.stream then s.reached e (x.d.stream :: held) xs
    else if s.nextPiece e x = .finished then s.reached e held xs
    else none

/-- The SWAP that a queue has reached: it asks for its swap, and it is complete once the swap has taken effect (R206). (DESIGN
CHOICE, log 168) -/
def State.passSwap (s : State) (e q : Nat) : Option State :=
  match s.reached e [] (tget ({} : PQueue) (s.engine e).queues q).decoded with
  | some x =>
    let i := bits x.d.opArg.toNat 5 0
    if x.d.op ≠ 5 ∨ 16 ≤ e then none
    else
      let n := (tget ({} : Pair) (s.press e).pairs i).swaps
      match x.asked with
      | none => some ((s.modEngine e (fun g => g.modDesc q x.id (fun y => { y with asked := some n }))).askSwap e i)
      | some k => if n = k then none else some (s.completeDesc e q x)
  | none => none

/-- What passes by itself next in a queue: a FENCE with nothing before it, an INDEXED descriptor of which every element is
skipped, or a SWAP (R198, R200, R206). -/
def State.passOne (s : State) (e q : Nat) : Option State :=
  match s.headDesc e q with
  | some x =>
    if x.d.op = 2 ∨ (x.d.op = 1 ∧ ¬x.halted ∧ x.flying = 0 ∧ s.nextPiece e x = .finished) then some (s.completeDesc e q x)
    else s.passSwap e q
  | none => s.passSwap e q

/-- Let a queue pass what passes by itself. -/
def State.passQueue (e q : Nat) : Nat → State → State
  | 0, s => s
  | fuel + 1, s =>
    match s.passOne e q with
    | some t => State.passQueue e q fuel t
    | none => s

/-- Let every queue of an engine pass what passes by itself. -/
def State.passHeads (s : State) (e : Nat) : State :=
  forEach (fun s (p : Nat × PQueue) => State.passQueue e p.1 (2 * p.2.descs.length + 1) s) (s.engine e).queues s

/-! ## Uncorrectable words (R217, R233, R236, R238) -/

/-- The die that holds a key of space 1 or 4. -/
def dieOf (key : Nat) : Nat := if spaceOf key = 1 then byteOf key / 2 ^ 30 else unitOf key % 4

/-- Count `n` uncorrectable words, or the granule of them, and say where (Table 10.3, R233, R238). -/
def State.noteUe (s : State) (key n : Nat) (stall stream : Option Nat) : State :=
  if spaceOf key = 0 then
    let (c, j) := granuleAt s.sec.hashKey (byteOf key / 512)
    let (k, x) := s.affected (byteOf key)
    (s.memRecord (5 + c / 12) (c % 12) j (k.or stall) (x.or stream)).channelUe c j
  else if spaceOf key = 1 ∨ spaceOf key = 4 then
    let d := dieOf key
    (s.modDie d (fun x => { x with ue := x.ue + BitVec.ofNat 48 n, ueSeen := true })).memRecord (1 + d)
      (if spaceOf key = 1 then byteOf key / Config.hotBytes % 4096 else 0) (byteOf key) stall stream
  else s

/-! ## TRANSFER_ISSUE (R190, R209) -/

/-- A descriptor halts on a page that is not present (R209); a page in flash is asked for, once (R211, R213). -/
def State.haltDesc (s : State) (e q : Nat) (x : QDesc) (n : Nat) : State :=
  let c := s.cursor e x
  let s := s.modEngine e (fun g =>
    { g.modDesc q x.id (fun y => { y with halted := true, elem := c.1, off := c.2 }) with halts := g.halts + 1, halted := g.halted + 1 })
  if (s.stream n).res = .inFlash ∧ ¬(s.park n).reading then
    (s.modPark n (fun p => { p with reading := true, fetched := false })).hubPush n (parkRead n)
  else s

/-- A GDDR7 request of a transfer arrives at the controller of its granule's channel (R229). -/
def State.request (s : State) (key serial : Nat) : State :=
  if spaceOf key = 0 then
    let (c, j) := granuleAt s.sec.hashKey (byteOf key / 512)
    s.modChannel c (fun x => { x with reqs := x.reqs ++ [{ slot := j, bank := bankOf s.sec.hashKey c (eccPlace j).1, serial := serial }] })
  else s

/-- Issue one transfer: it takes a slot, charged to its stall (R186, R187). What it reads in GDDR7 it reads as it completes, since
its controller serves the requests for a granule in the order of their arrival (R229); the bytes of any other memory are
those its source holds now, so that no later transfer of its queue can change them (R197). The index entries it has come past are read
with it (R200, R230). (DEDUCED, log 63) -/
def State.issuePiece (s : State) (e : Nat) (o : Offer) (src dst len : Nat) : State :=
  let x := o.x
  let c := s.cursor e x
  let last := decide (c.2 + len = x.d.count0)
  let next := if last then (c.1 + 1, 0) else (c.1, c.2 + len)
  let lands := if x.d.expand then (if last then s.expandElem e x.d c.1 else some (dst, [])) else some (dst, if spaceOf src = 0 then [] else s.readKey src len)
  let t : Xfer := { serial := s.stamp, slot := o.slot, queue := o.queue, desc := x.id, op := x.d.op, src := src, dst := dst, len := len,
                    cls := x.d.cls, sys := x.d.sys, stall := x.d.stall, stream := x.d.stream,
                    data := (lands.map Prod.snd).getD [], at_ := (lands.map Prod.fst).getD dst, corrupt := lands.isNone }
  let s := s.modEngine e (fun g =>
    { g.modDesc o.queue x.id (fun y => { y with elem := next.1, off := next.2, flying := y.flying + 1 }) with
      sent := g.sent + 1, issued := g.issued ++ [t] })
  let s := if x.d.op = 1 ∧ c.2 = 0 ∧ spaceOf x.d.index.toNat = 0 then
      forEach (fun s k => s.readSpan (x.d.index.toNat + 4 * k) 4 none none) ((List.range (c.1 + 1)).filter (fun k => decide (x.elem ≤ k))) s
    else s
  let s := ((s.request src t.serial).request dst t.serial).tick
  if x.d.sys then s else s.modStall x.d.stall (fun t => { t with porter := t.porter + 1 })

/-- Carry out what the rotation chose: issue, halt, or end at a bad address. -/
def State.issueFrom (s : State) (e : Nat) (o : Offer) : State :=
  match o.piece with
  | .move a b len =>
    match s.needsPage o.x.d a b with
    | some n => s.haltDesc e o.queue o.x n
    | none => s.issuePiece e o a b len
  | .bad => s.endDesc e o.queue o.x .badDescriptor
  | .spoiled k =>
    let own := fun (v : Nat) => if o.x.d.sys then none else some v
    (s.noteUe k 1 (own o.x.d.stall) (own o.x.d.stream)).endDesc e o.queue o.x .dataError
  | _ => s

/-- One issue opportunity of an engine (R190). A contender that no queue has served yet counts as last served in queue 0:
the spec gives no first value. (DESIGN CHOICE, log 129) -/
def State.issueOne (s : State) (e : Nat) : State :=
  let offers := s.offers e
  let g := s.rotate (s.engine e) (offers.map (fun o => contender o.x.d))
  let s := s.modEngine e (fun _ => g)
  match g.cur with
  | none => s
  | some c =>
    let mine := offers.filter (fun o => decide (contender o.x.d = c))
    match nextAfter (queueCount e) (tget 0 g.lastQ c) (mine.map (·.queue)) with
    | none => s
    | some q =>
      match mine.find? (fun o => decide (o.queue = q)) with
      | none => s
      | some o => (s.modEngine e (fun g => { g with lastQ := tset 0 g.lastQ c q })).issueFrom e o

/-- TRANSFER_ISSUE: an engine issues the next transfer of the rotation. -/
def execTransferIssue (engine : Nat) (s : State) : Host.Outcome State Fault Refusal :=
  runSettled s (fun s =>
    if s.awake ∧ engine < Config.nEngines ∧ ¬s.dieInReset engine then (s.passHeads engine).issueOne engine else s)

/-! ## Errors of the memories (R217, R233 to R238) -/

/-- Count a corrected granule, or `n` corrected words. A granule is written back corrected before the controller serves a
later request for it: the requests that wait for it count it no more (R234, R240). -/
def State.noteCe (s : State) (key n serial : Nat) : State :=
  if spaceOf key = 0 then
    let (c, j) := granuleAt s.sec.hashKey (byteOf key / 512)
    s.modChannel c (fun x =>
      if x.reqs.any (fun r => decide (r.serial = serial ∧ r.slot = j) && r.fixed) then x
      else { x with ce := x.ce + 1, reqs := x.reqs.map (fun r => if r.slot = j then { r with fixed := true } else r) })
  else if spaceOf key = 1 ∨ spaceOf key = 4 then s.modDie (dieOf key) (fun x => { x with ce := x.ce + BitVec.ofNat 48 n })
  else if spaceOf key = 2 then s.modPress (unitOf key) (fun x => { x with memCe := x.memCe + BitVec.ofNat 48 n })
  else s

/-- Count the retries of a burst (Table 10.3). -/
def State.noteRetries (s : State) (key : Nat) (a : MemAnswer) : State :=
  if spaceOf key = 0 then
    s.modChannel (granuleAt s.sec.hashKey (byteOf key / 512)).1 (fun x => { x with retry := x.retry + BitVec.ofNat 48 a.retries })
  else s

/-- A whole granule has been read for a porter (Table 10.3). -/
def State.countRead (s : State) (key : Nat) : State :=
  if spaceOf key = 0 then s.modChannel (granuleAt s.sec.hashKey (byteOf key / 512)).1 (fun x => { x with rd := x.rd + 1 }) else s

/-- The stall that an uncorrectable word tears (Tables 3.8, 10.5): the owner of an adapter image, of a stall table entry, or
of a feed buffer. -/
def State.tornBy (s : State) (key : Nat) (t : Xfer) : Option Nat :=
  if spaceOf key = 0 then
    match s.regionAt (byteOf key) with
    | .adapter v => some (s.voice v).stall
    | _ => none
  else if spaceOf key = 4 ∧ 0x400000 ≤ byteOf key ∧ byteOf key < 0x500000 then some ((byteOf key - 0x400000) / 64)
  else if spaceOf key = 4 ∧ 0x800000 ≤ byteOf key ∧ ¬t.sys then some t.stall
  else none

/-- The stream that an uncorrectable word of its folio or of its pitch faults (Table 10.5). -/
def State.ownerOf (s : State) (key : Nat) : Option Nat :=
  if spaceOf key = 0 then
    match s.regionAt (byteOf key) with
    | .folio n => if (s.stream n).st = .free ∨ (s.stream n).res ≠ .present then none else some n
    | _ => none
  else if spaceOf key = 1 then
    (s.streams.find? (fun p => p.2.holdsPitch && decide (p.2.pitch = byteOf key / Config.hotBytes))).map Prod.fst
  else none

/-! ## The stream entry's rewrite (R239) -/

/-- The entry that R239 writes for a stream that was `x`: from the shadow, and the counts from the folio header when it may
be read and can be: no write-out of it failed or was cancelled, its page is present and its granule is readable. -/
def State.rewrittenEntry (s : State) (n : Nat) (x : Stream) : Stream :=
  let a := folioAddr n
  let h := mread s.mem a 256
  let ok := !(s.stream n).undef && decide (x.res = .present) && !s.poisoned a && s.headerOk a x false
  let em := if ok then BitVec.ofNat 32 (lfld h 40 4) else 0
  { st := .faulted, status := .dataError, stall := x.stall, voice := x.voice, row := x.row, outKind := x.outKind, outIndex := x.outIndex,
    ssrc := x.ssrc, origin := x.origin, scan := x.scan, samples := if ok then lfld h 24 8 else 0, lastMark := if ok then lfld h 32 8 else 0,
    lastEm := em, lastAcc := em, seed := x.seed, fedFrames := x.fedFrames, undef := (s.stream n).undef }

/-- A stream table entry outside FREE is written again (R239); a write-out under way is cancelled first. -/
def State.rewriteEntry (s : State) (stream : Nat) : State :=
  let x := s.stream stream
  let d := stream % 4
  if x.st = .free then s
  else
    let s := if x.st = .faulted then s.dropEgress stream else s.stopStream stream .drop .stateConflict
    let s := s.modStall x.stall (fun t => if x.st = .faulted then t else { t with faults := t.faults + 1 })
    let s := if x.st = .faulted then s else s.modClerk (fun k => { k with streamFaults := k.streamFaults + 1 })
    let y := s.rewrittenEntry stream x
    let s := if (s.stream stream).undef then s else s.readSpan (folioAddr stream) 256 (some x.stall) (some stream)
    let s := (s.putStream stream y).leftRow stream x
    let s := s.raise (1 + d) { seq := 0, source := 0, status := .dataError, event := 0x0002, stall := some x.stall,
                               stream := some stream, unit := stream / 4, arg := BitVec.ofNat 64 y.samples }
    s.answerOwed x .dataError (stateBody .faulted)

/-- The stream whose table entry a key lies in (Table 10.4). -/
def entryOf (key : Nat) : Option Nat :=
  if spaceOf key = 4 ∧ byteOf key < 0x400000 then some (4 * (byteOf key / 64) + unitOf key % 4) else none

/-! ## TRANSFER_COMPLETE (R186, R199, R212, R229) -/

/-- The bytes a transfer brings: of GDDR7 those that stand there as it completes, else those it has carried (R229). -/
def State.brought (s : State) (t : Xfer) : List Byte := if spaceOf t.src = 0 then s.readKey t.src t.len else t.data

/-- The bytes of a transfer land (R193, R236). (DEDUCED, log 63) -/
def State.land (s : State) (e : Nat) (t : Xfer) : State :=
  let bs := s.brought t
  let s := s.countRead t.src
  let s := if spaceOf t.at_ = 0 then s.bulkWrite t.at_ bs else { s with mem := mwrite s.mem t.at_ bs }
  s.modEngine e (fun g => { g with bytes := tset 0 g.bytes t.cls (tget 0 g.bytes t.cls + BitVec.ofNat 48 bs.length) })

/-- The queued descriptor of a transfer. -/
def State.descOf (s : State) (e : Nat) (t : Xfer) : Option QDesc :=
  (tget ({} : PQueue) (s.engine e).queues t.queue).descs.find? (fun x => decide (x.id = t.desc))

/-- A transfer that failed at `key`: its descriptor ends with ST_DATA_ERROR, and its stream faults or a stall is torn (R212,
Table 3.8). `ue` says that the word is uncorrectable, `write` that it is the destination's. An uncorrectable word of press
memory is a row fault besides (R344), one of a stream table entry has the entry written again (R239). -/
def State.failXfer (s : State) (e : Nat) (t : Xfer) (key : Nat) (ue write : Bool) : State :=
  let s := if write ∧ t.cls = 1 ∧ ¬t.sys then s.modStream t.stream (fun x => { x with undef := true }) else s
  let own := if ue then s.ownerOf key else none
  let unit := if e < 16 then e else t.queue
  let s := match s.tornBy key t with
    | some k => if ue then s.tearStall k .dataError else s
    | none => s
  let s := match s.descOf e t with
    | some x =>
      let s := s.endDesc e t.queue x .dataError
      if spaceOf t.dst = 3 then s.copyDone x.d else s
    | none => if t.sys then s else s.faultStream t.stream .dataError (engineSource e) unit
  let s := match own with
    | some n => s.faultStream n .dataError (engineSource e) unit
    | none => s
  let s := match if ue then entryOf key else none with
    | some n => s.rewriteEntry n
    | none => s
  match if ue ∧ spaceOf key = 2 then s.pressRow (unitOf key) else none with
  | some r => s.rowFault r (unitOf key)
  | none => s

/-- A completed transfer's descriptor: one fewer in flight, and complete when all its transfers are. A corrupt record is
counted on its press, and faults the stream whose step reads it (R146). -/
def State.stepDesc (s : State) (e : Nat) (t : Xfer) : State :=
  let s := s.modEngine e (fun g => g.modDesc t.queue t.desc (fun x => { x with flying := x.flying - 1, doneN := x.doneN + 1 }))
  let s := if t.corrupt then s.modPress (unitOf t.src) (fun p => { p with cmapBad := p.cmapBad + 1 }) else s
  let s := if t.corrupt ∧ ¬t.sys then s.faultStream t.stream .dataError 0 (unitOf t.src) else s
  match s.descOf e t with
  | some x => if x.flying = 0 ∧ s.nextPiece e x = .finished then s.completeDesc e t.queue x else s
  | none => s

/-- An issued transfer ends with what the memories at its two ends answered. (DEDUCED, log 66) -/
def State.endXfer (s : State) (e : Nat) (t : Xfer) (rd wr : MemAnswer) : State :=
  let own := fun (v : Nat) => if t.sys then none else some v
  let poisonR := s.poisoned t.src
  let bad := decide (0 < rd.ues) || rd.lost || poisonR
  let ueW := decide (0 < wr.ues) || (decide (t.len < 512) && s.poisoned t.dst)
  let s := (s.noteRetries t.src rd).noteRetries t.dst wr
  let s := if 0 < rd.ces ∧ ¬bad then s.noteCe t.src rd.ces t.serial else s
  let s := if 0 < wr.ces ∧ ¬ueW then s.noteCe t.dst wr.ces t.serial else s
  let s := if bad then (s.countRead t.src).noteUe t.src (max 1 rd.ues) (own t.stall) (own t.stream) else s
  let s := if ¬bad ∧ ueW then s.noteUe t.dst (max 1 wr.ues) (own t.stall) (own t.stream) else s
  if t.discard then s
  else if bad then s.failXfer e t t.src true false
  else if ueW ∨ wr.lost then s.failXfer e t t.dst ueW true
  else (s.land e t).stepDesc e t

/-- The requests of a transfer leave their controllers. -/
def State.unrequest (s : State) (key serial : Nat) : State :=
  if spaceOf key = 0 then
    s.modChannel (granuleAt s.sec.hashKey (byteOf key / 512)).1 (fun x => { x with reqs := x.reqs.filter (fun r => decide (r.serial ≠ serial)) })
  else s

/-- The slot of a transfer returns to its pool and its stall (R79, R186). -/
def State.returnSlot (s : State) (e index : Nat) (t : Xfer) : State :=
  let s := s.modEngine e (fun g => { g with issued := g.issued.eraseIdx index, xfers := g.xfers + 1 })
  if t.sys then s else s.modStall t.stall (fun x => { x with porter := x.porter - 1 })

/-- Requests of transfer `serial` in a controller's list are served: they are among the first 256, and none for the same
granule arrived before them (R229). `seen` are the granules asked for so far. -/
def served (serial : Nat) : Nat → List Nat → List GReq → Bool
  | _, _, [] => true
  | i, seen, r :: rs =>
    if r.serial = serial then decide (i < 256) && !seen.contains r.slot && served serial (i + 1) seen rs
    else served serial (i + 1) (r.slot :: seen) rs

/-- The controllers can serve an issued transfer, and no end of it lies in a stopped domain (R229, R424). -/
def State.canComplete (s : State) (t : Xfer) : Bool := !s.xferWaits t && s.channels.all (fun p => served t.serial 0 [] p.2.reqs)

/-- TRANSFER_COMPLETE: the `index`-th issued transfer of an engine ends, once its controllers serve it (R229). -/
def execTransferComplete (engine index : Nat) (rd wr : MemAnswer) (s : State) : Host.Outcome State Fault Refusal :=
  runSettled s (fun s =>
    if s.awake then
      match (s.engine engine).issued[index]? with
      | none => s
      | some t =>
        if ¬s.canComplete t then s
        else
          let s := (s.returnSlot engine index t).endXfer engine t rd wr
          let s := (s.unrequest t.src t.serial).unrequest t.dst t.serial
          let s := if t.sys then s else s.settleStall t.stall
          ((s.passHeads engine).startDieReset engine).gateAgain engine
    else s)

/-! ## WAIT, SIGNAL, SWAP (R202 to R206) -/

/-- WAIT: the WAIT that a queue has reached passes once its engine's counter has reached its count; it is no fence, so
earlier transfers may still be in flight (R202). -/
def execWait (engine queue : Nat) (s : State) : Host.Outcome State Fault Refusal :=
  run s (fun s =>
    match s.reached engine [] (tget ({} : PQueue) (s.engine engine).queues queue).decoded with
    | none => s
    | some x =>
      let b := bits x.d.opArg.toNat 7 0
      let c := bits x.d.opArg.toNat 31 13
      let v := tget (0 : BitVec 32) (s.engine engine).bars b
      if s.awake ∧ x.d.op = 4 ∧ c ≤ v.toNat then
        let s := s.modEngine engine (fun g => { g with bars := tset 0 g.bars b (v - BitVec.ofNat 32 c) })
        (s.completeDesc engine queue x).passHeads engine
      else s)

/-- Increment a barrier counter; a full one stays, and faults the chain's stream (R202). The saturation is counted on the
engine of the counter: the spec does not say whose xx_PRT_BARSAT counts it. (DEDUCED, log 61; DESIGN CHOICE, log 131) -/
def State.signalBar (s : State) (e q : Nat) (x : QDesc) : State :=
  let b := bits x.d.opArg.toNat 7 0
  let to_ := bits x.d.opArg.toNat 12 8
  let v := tget (0 : BitVec 32) (s.engine to_).bars b
  if v = 0xFFFFFFFF#32 then
    (s.modEngine to_ (fun g => { g with barsat := g.barsat + 1 })).endDesc e q x .dataError
  else
    let s := s.modEngine to_ (fun g => { g with bars := tset 0 g.bars b (v + 1), barOwner := tset 0 g.barOwner b (contender x.d) })
    s.completeDesc e q x

/-- SIGNAL: the SIGNAL at the head of a queue, a fence there, passes and increments its counter (R202). -/
def execSignal (engine queue : Nat) (s : State) : Host.Outcome State Fault Refusal :=
  runSettled s (fun s =>
    match s.headDesc engine queue with
    | none => s
    | some x => if s.awake ∧ x.d.op = 3 then (s.signalBar engine queue x).passHeads engine else s)

/-- SWAP: a core asks for the swap of a pair, which takes effect once verso is full and the recto is released (R206). A core
releases the recto with the beat that reads it (BEAT). (DEDUCED, log 65) -/
def execSwap (press pair : Nat) (s : State) : Host.Outcome State Fault Refusal :=
  run s (fun s =>
    if s.awake ∧ press < 16 ∧ pair < 64 ∧ (tget ({} : Pair) (s.press press).pairs pair).kib ≠ 0 then
      (s.askSwap press pair).passHeads press
    else s)

/-! ## Page-ins and remote fetches (R211, R213, R327, R398) -/

/-- A halted descriptor waits for folio `n`. -/
def State.haltedOn (s : State) (e : Nat) (x : QDesc) (n : Nat) : Bool :=
  x.halted && match s.nextPiece e { x with halted := false } with
    | .move a b _ => (decide (a / Config.folioBytes = n) && decide (a < Config.weightBase)) ||
        (decide (b / Config.folioBytes = n) && decide (b < Config.weightBase))
    | _ => false

/-- Resume every halted descriptor that waits on a folio (R211). -/
def State.resumeHalted (s : State) (n : Nat) : State :=
  forEach (fun s e =>
    let hit := fun x => s.haltedOn e x n
    s.modEngine e (fun g => { g with
      halts := g.halts - ((g.queues.flatMap (fun p => p.2.descs)).filter hit).length,
      queues := g.queues.map (fun p => (p.1, { p.2 with descs := p.2.descs.map (fun x =>
        if hit x then { x with halted := false, resumed := true } else x) })) })) (List.range Config.nEngines) s

/-- Every page of the folio is present: what waited resumes (R211). -/
def State.pagesPresent (s : State) (n : Nat) : State :=
  let s := s.modStream n (fun x => { x with res := .present, inFlash := false, handle := 0 })
  s.resumeHalted n

/-- Descriptors that wait on folio `n` end with an error; the first to end faults the stream, which cancels the stream's others
(R212, Table 9.6). -/
def State.endHalted (s : State) (n : Nat) (st : Status) : State :=
  forEach (fun s e =>
    forEach (fun s (p : Nat × PQueue) =>
      forEach (fun s (x : QDesc) =>
        match (tget ({} : PQueue) (s.engine e).queues p.1).descs.find? (fun y => decide (y.id = x.id)) with
        | some y => if s.haltedOn e y n then s.endDesc e p.1 y st else s
        | none => s) p.2.descs s)
      (s.engine e).queues s)
    (List.range Config.nEngines) s

/-- A parked folio has been read back into GDDR7: the record is freed, unless it is a torn stall's (R211, R398). (DEDUCED, log 68; DESIGN CHOICE, log 70) -/
def State.unpark (s : State) (n : Nat) : State :=
  let s := (s.modFlash (fun f => { f with unparks := f.unparks + 1 })).modWear (fun w => w.readAll n)
  let kept := decide ((s.stall (s.stream n).stall).st = .torn)
  let s := s.modPark n (fun p => { p with reading := false, fetched := false })
  let s := if kept then s else s.freePark n
  s.pagesPresent n

/-- The block of the page of a park record that failed to read back, and its channel; the spec names neither the page nor its
channel: a free value. (DESIGN CHOICE, log 70; DEDUCED, log 86) -/
def State.lostPark (s : State) (n : Nat) : Option Nat × Nat :=
  let b := s.flash.wear.pageOf n s.draw.1.toNat
  (b, (b.map blkChan).getD (s.draw.1.toNat % 8))

/-- The flash side of a park record that failed to read back: one page of it is uncorrectable after all read-retry levels,
which its channel counts and a kind-4 event reports as lost, and the block is retired (R389, R395, R404, Table 17.6). (DESIGN CHOICE, log 70; DEDUCED, log 86) -/
def State.parkUnread (s : State) (n : Nat) : State :=
  let (b, ch) := s.lostPark n
  let s := (s.draw.2.modFlash (fun f => { f with parkFail := f.parkFail + 1 })).modWear (fun w =>
    (w.readAll n).modCh ch (fun c => { c with retry := c.retry + 15, uncorr := c.uncorr + 1 }))
  let s := s.flashEvent 4 0 ch none
  match b with
  | some b => s.retireBlock b ch
  | none => s

/-- A park record failed to read back: counted; the descriptors that wait on it end with ST_DATA_ERROR, which faults the
stream (R212, R398, Table 9.6). Where an abort has freed the stream since, the failure is counted only (R405). -/
def State.unparkFail (s : State) (n : Nat) : State :=
  let x := s.stream n
  let ch := (s.lostPark n).2
  let s := s.cancelWhere (fun d => pageIn d && decide (byteOf d.src.toNat / Config.folioBytes = n))
  let s := (s.modPark n (fun p => { p with reading := false, fetched := false })).parkUnread n
  if x.st = .free ∨ x.res ≠ .inFlash then s
  else
    let s := s.raise 12 { seq := 0, source := 0, status := .dataError, event := 0x0050, stream := some n, unit := ch,
                          arg := BitVec.ofNat 64 (5 + 2 ^ 32 * x.handle.toNat) }
    (s.endHalted n .dataError).faultStream n .dataError 12 ch

/-- Pending chunks of an image, from offset `off` on; `frame` counts from 0 at the first (R365). -/
def imageChunks (b : List Byte) : Nat → Nat → Nat → List HeldChunk × Nat
  | 0, off, _ => ([], off)
  | k + 1, off, f =>
    let t := lfld b (off + 8) 2
    let ts := (List.range t).map (fun i => tokenOf ((b.drop (off + 16 + 16 * i)).take 16))
    let c : HeldChunk := { seq := BitVec.ofNat 32 (lfld b (off + 4) 4), tokens := ts, frame0 := f, bufs := [], floor := false }
    let (l, o) := imageChunks b k (off + 16 + 16 * t) (f + frames ts)
    (c :: l, o)

/-- Give each chunk its buffers out of those the import took (R246). -/
def dealBufs : List HeldChunk → List (Nat × Nat) → List HeldChunk × List (Nat × Nat)
  | [], l => ([], l)
  | c :: cs, l =>
    let (mine, rest) := splitBufs (ceilDiv c.tokens.length 32) l
    let (ds, left) := dealBufs cs rest
    ({ c with bufs := mine } :: ds, left)

/-- The egress tail of an image (Table 15.7): first position, marks and samples. (DEDUCED, log 50) -/
def imageTail (b : List Byte) (off : Nat) : Nat × List Nat × List (Nat × Int) :=
  let first := lfld b off 8
  let count := lfld b (off + 8) 4
  let n := lfld b (off + 12) 4
  let base := off + 16 + 8 * n
  (first, (List.range n).map (fun i => lfld b (off + 16 + 8 * i) 8),
   (List.range count).map (fun i => (first + i, (BitVec.ofNat 16 (lfld b (base + 2 * i) 2)).toInt)))

/-- An image's chunks become the stream's first pending chunks and the journal's first records (R246, R354). -/
def State.placeChunks (s : State) (n : Nat) (cs : List HeldChunk) (bufs : List (Nat × Nat)) : State :=
  let x := s.stream n
  let old := (x.chunks.map (fun c => frames c.tokens)).sum
  let mine := (cs.map (fun c => frames c.tokens)).sum
  let start := x.fedFrames - old - mine
  let (cs, left) := dealBufs (cs.map (fun c => { c with frame0 := start + c.frame0 })) bufs
  let s := (s.giveBufs left).modStall x.stall (fun t => { t with held := t.held - bufCount left })
  let s := forEach (fun s c => s.storeTokens n c) cs s
  let s := (s.modStream n (fun x => { x with chunks := cs ++ x.chunks, fetch := none })).releaseIdle n
  let j := s.journal n
  match cs with
  | [] => s
  | c :: _ =>
    let all := { j with records := cs ++ j.records, firstFrame := c.frame0, firstSeq := c.seq }
    s.writeJournal n (all.makeRoom 0 0 all.records.length false).1

/-- An imported image has arrived whole: folio, chunks and egress tail; the generator's seed is the folio's (R181, R327,
R365). Then every page is present, and an export that waited for it takes effect (R326). Where the stream has been torn or
has faulted since, the pages alone stay (R213). (DEDUCED, logs 50, 52) -/
def State.imageArrived (s : State) (n : Nat) (f : Fetch) (image : List Byte) : State :=
  let x := s.stream n
  let s := s.bulkWrite (folioAddr n) (image.take Config.folioBytes)
  if x.st = .free then s.putStream n {}
  else if x.st = .faulted then (s.modStream n (fun x => { x with fetch := none })).pagesPresent n
  else if ¬s.headerOk (folioAddr n) x true then s.faultStream n .dataError 0 0
  else
    let (cs, off) := imageChunks image f.chunks Config.folioBytes 0
    let (first, marks, samples) := imageTail image off
    let s := s.placeChunks n cs f.bufs
    let s := s.modEgr n (fun e => { e with hist := samples ++ e.hist, marks := (if x.lastMark ≤ first then [x.lastMark] else []) ++ marks ++ e.marks })
    let s := (s.modStream n (fun x => { x with seed := BitVec.ofNat 64 (lfld image 16 8) })).pagesPresent n
    let y := s.stream n
    if y.exportReq ∧ (y.st = .idle ∨ y.st = .parked ∨ (y.st = .queued ∧ ¬y.staged)) then s.serveExport n else s

/-- The fetch of an import failed: a waiting export is answered ST_STATE_CONFLICT with the state the stream is left in,
and the stream faults with ST_TIMEOUT (R211, R326). (DEDUCED, logs 44, 56; DESIGN CHOICE, log 160) -/
def State.fetchFailed (s : State) (n : Nat) : State :=
  let x := s.stream n
  match x.fetch with
  | none => s
  | some f =>
    let s := s.modVct (fun v => { v with peers := v.peers.filter (fun p => decide (p ≠ (f.addr, f.udp))) })
    let s := s.modStream n (fun x => { x with deferExport := none })
    let s := (s.faultStream n .timeout 0 0).modStream n (fun x => if x.st = .free then {} else { x with fetch := none })
    s.answer x.deferExport .stateConflict (conflictBytes [⟨1, (s.stream n).st.code, n, (s.stream n).samples⟩])

/-- PAGE_IN_COMPLETE: all 8 pages of a folio have been written to GDDR7, or could not be read. Pages in flash have come
through the hub porter (R211, R213). An image's pages cannot have been written while a die that they lie on is in reset (R424). (DEDUCED, log 52) -/
def execPageInComplete (stream : Nat) (ok : Bool) (image : List Byte) (s : State) : Host.Outcome State Fault Refusal :=
  runSettled s (fun s =>
    let x := s.stream stream
    if ¬s.awake then s
    else match x.fetch with
      | some f =>
        if ok ∧ image.length = f.bytes then
          if s.stoppedGranules (folioAddr stream) Config.folioBytes = [] then s.imageArrived stream f image else s
        else s.fetchFailed stream
      | none =>
        let p := s.park stream
        if ¬p.reading ∨ (ok ∧ ¬p.fetched) then s
        else if ok ∧ x.res = .inFlash then s.unpark stream
        else if ok then s.modPark stream (fun p => { p with reading := false, fetched := false })
        else s.unparkFail stream)

/-- REMOTE_FETCH_FAIL: the exporter cannot be reached, or a read of the image failed (R211). -/
def execRemoteFetchFail (stream : Nat) (s : State) : Host.Outcome State Fault Refusal :=
  runSettled s (fun s => if s.awake then s.fetchFailed stream else s)

/-- REMOTE_FETCH_TIMEOUT: the pages were not all present 2.0 s after the import was accepted (R211). -/
def execRemoteFetchTimeout (stream : Nat) (s : State) : Host.Outcome State Fault Refusal :=
  runSettled s (fun s => if s.awake then s.fetchFailed stream else s)

/-! ## The deadlock detector (R250) -/

/-- Stream `a` waits for something that stream `b` holds: an egress buffer, a porter slot or a place under its queue's
limit. A stream that waits to be staged holds nothing (R247). (DEDUCED, log 132) -/
def State.waitsOn (s : State) (a b : Nat) : Bool :=
  let x := s.stream a
  let egress := decide (x.st = .resident) && !s.canWriteSample a ((s.egr a).quireEnd - 1) && (s.egr b).bufs.any (fun u => !u.floor)
  let porter := (List.range Config.nEngines).any (fun e =>
    let g := s.engine e
    g.issued.any (fun t => !t.sys && decide (t.stream = b)) &&
      g.queues.any (fun q => q.2.decoded.any (fun d => !d.d.sys && decide (d.d.stream = a)
        && decide (d.flying = 0) && (slotFor g e q.1 q.2 d.d).isNone)))
  decide (a ≠ b) && (egress || porter)

/-- The streams of a die that a chain of waits leads to from those of `found`. -/
def State.waitChain (s : State) (die : Nat) : Nat → List Nat → List Nat
  | 0, found => found
  | fuel + 1, found =>
    let new := (tkeys s.streams).filter (fun b => decide (b % 4 = die) && !found.contains b && found.any (fun a => s.waitsOn a b))
    if new = [] then found else s.waitChain die fuel (found ++ new)

/-- Each of two streams of a die waits, by a chain, for what the other holds. (DEDUCED, log 132) -/
def State.waitCycle (s : State) (die a b : Nat) : Bool :=
  let to_ := fun x => s.waitChain die s.streams.length [x]
  (to_ a).contains b && (to_ b).contains a

/-- DLK_FIRED: the detector of the die has found a cycle of waits through two of its streams. The younger staging is spilled
as R47 abandons one; both streams are named. Where no cycle stands, it does not fire. -/
def execDlkFired (die younger older : Nat) (s : State) : Host.Outcome State Fault Refusal :=
  run s (fun s =>
    let x := s.stream younger
    if s.awake ∧ x.staged ∧ younger % 4 = die ∧ older % 4 = die ∧ (s.stream older).holdsPitch ∧ (s.stream older).claimAt < x.claimAt ∧
        s.waitCycle die younger older then
      let s := s.abandon younger
      let s := s.modDie die (fun d => { d with dlk := d.dlk + 1 })
      s.raise (1 + die) { seq := 0, source := 0, status := .ok, event := 0x0032, unit := x.pitch % 4096,
                          arg := BitVec.ofNat 64 (younger + 2 ^ 32 * older) }
    else s)

/-! ## Conservation (R252, R253) -/

/-- Streams outside FREE. -/
def State.liveStreams (s : State) : List (Nat × Stream) := s.streams.filter (fun p => decide (p.2.st ≠ .free))

/-- Sum over a list. -/
def sumOf {α : Type} (f : α → Nat) (l : List α) : Nat := (l.map f).sum

/-- Issued transfers of every engine. -/
def State.allIssued (s : State) : List Xfer := (List.range Config.nEngines).flatMap (fun e => (s.engine e).issued)

/-- The held counts of a stall equal the units that carry its ID (Table 11.3, last row). -/
def State.stallRow (s : State) (k : Nat) : Bool :=
  let t := s.stall k
  let mine := s.liveStreams.filter (fun p => decide (p.2.stall = k))
  decide (t.held = sumOf (fun p => p.2.feedUnits) mine) &&
    decide (t.pitches = (mine.filter (fun p => p.2.holdsPitch)).length) &&
    decide (t.egress = sumOf (fun (p : Nat × Egress) => p.2.held) (s.egress.filter (fun p => decide (p.2.stall = k)))) &&
    decide (t.porter = (s.allIssued.filter (fun x => !x.sys && decide (x.stall = k))).length)

/-- The pool rows of Table 11.3 in order: which of them fail, as a bit mask. The stall row is bit 6. -/
def State.failedRows (s : State) : Nat :=
  let dies := (List.range 4).map s.die
  let floors := sumOf (·.feedFloor) dies
  let pitchFree := sumOf (·.pitchFree) dies
  let held := (s.liveStreams.filter (fun p => p.2.holdsPitch)).length
  let rows := (List.range Config.nRows).map s.row
  let xs := s.allIssued
  b2n (decide (sumOf (·.feedFree) dies + sumOf (fun p => p.2.feedUnits) s.liveStreams ≠ 720896 + floors)) +
    2 * b2n (decide (s.clerk.feedGrant ≠ sumOf (fun (p : Nat × Stall) => p.2.tally) s.stalls ∨ sumOf (·.feedFree) dies < s.clerk.feedGrant)) +
    4 * b2n (decide (s.liveStreams.length < floors)) +
    8 * b2n (decide (pitchFree + held ≠ 16384 ∨ pitchFree + sumOf (fun (w : Row) => w.resident + w.staged) rows ≠ 16384)) +
    16 * b2n (decide (s.clerk.egrFree + sumOf (fun (p : Nat × Egress) => p.2.held) s.egress ≠ 49152 ∨ s.clerk.egrFree < s.egrRsv)) +
    32 * b2n ((List.range Config.nEngines).any (fun e => decide (poolSize e < (s.engine e).issued.length)) ||
      decide (xs.length ≠ (xs.filter (·.sys)).length + (xs.filter (fun x => !x.sys)).length)) +
    64 * b2n ((tkeys s.stalls).any (fun k => !s.stallRow k))

/-- CONS_CHECK: one evaluation of the identities; a stall row tears its stalls, a pool row fails the module. -/
def execConsCheck (s : State) : Host.Outcome State Fault Refusal :=
  runSettled s (fun s =>
    if s.awake ∧ s.clerk.failed.isNone then
      let m := s.failedRows
      let bad := (tkeys s.stalls).filter (fun k => !s.stallRow k)
      let s := s.modClerk (fun k => { k with consChecks := k.consChecks + 1, consFail := if m = 0 then k.consFail else k.consFail + 1 })
      if m = 0 then s
      else
        let s := s.raise 0 { seq := 0, source := 0, status := if m % 64 = 0 then .stallTorn else .dataError, event := 0x0033,
                             arg := BitVec.ofNat 64 m }
        let s := forEach (fun s k => s.tearStall k .stallTorn) bad s
        if m % 64 = 0 then s else s.failModule 3
    else s)

/-! ## Patrol scrub and rewrites (R237 to R239) -/

/-- What patrol scrub does about an uncorrectable granule of space 0 (Table 10.5). -/
def State.scrubUe (s : State) (ch slot g : Nat) : State :=
  let src := 5 + ch / 12
  let a := 512 * g
  match s.regionAt a with
  | .folio n =>
    let x := s.stream n
    let s := (s.memRecord src (ch % 12) slot (if x.st = .free then none else some x.stall) (some n)).channelUe ch slot
    let hot := decide (a % Config.folioBytes < Config.hotBytes)
    if x.st = .free ∨ x.res ≠ .present ∨ ((x.st = .resident ∨ x.st = .draining) ∧ hot) then s
    else s.faultStream n .dataError src (ch % 12)
  | .adapter v =>
    let k := (s.voice v).stall
    ((s.memRecord src (ch % 12) slot (some k) none).channelUe ch slot).tearStall k .dataError
  | .journal n => (s.memRecord src (ch % 12) slot none (some n)).channelUe ch slot
  | _ => (s.memRecord src (ch % 12) slot none none).channelUe ch slot

/-- Data granules of a channel; the check granules, one to an ECC block, are numbered after them (R218). -/
def dataSlots : Nat := 7864320

/-- PATROL_SCRUB: a granule is visited, data, firmware reserve or check bytes; an error found is counted and handled by where
it lies (R237, R238). -/
def execPatrolScrub (channel slot : Nat) (out : MemAnswer) (s : State) : Host.Outcome State Fault Refusal :=
  runSettled s (fun s =>
    if ¬s.awake ∨ 48 ≤ channel ∨ dataSlots + 524288 ≤ slot ∨ s.dieInReset (20 + channel / 12) then s
    else
      let s := s.modChannel channel (fun x => { x with scrub := x.scrub + 1, retry := x.retry + BitVec.ofNat 48 out.retries })
      if dataSlots ≤ slot then s
      else if out.lost ∨ 0 < out.ues ∨ (s.channel channel).poison.contains slot then
        match granuleOf s.sec.hashKey channel slot with
        | some g => s.scrubUe channel slot g
        | none => ((s.memRecord (5 + channel / 12) (channel % 12) slot none none).channelUe channel slot).failModule 4
      else if 0 < out.ces then
        s.modChannel channel (fun x => { x with ce := x.ce + 1, reqs := x.reqs.map (fun r => if r.slot = slot then { r with fixed := true } else r) })
      else s)

/-- BASE_GRANULE_REWRITE: Palhani writes a poisoned granule of a base image again from the library; a damaged entry
leaves it as it is (R238, R403). -/
def execBaseGranuleRewrite (granule : Nat) (s : State) : Host.Outcome State Fault Refusal :=
  run s (fun s =>
    let a := 512 * granule
    match s.regionAt a with
    | .base b =>
      let x := s.base b
      let e := s.lib x.entry
      let bytes := ((canonical e.bytes).drop (a - x.addr)).take 512
      if s.awake ∧ s.poisoned a ∧ e.used ∧ ¬e.damaged then
        ((s.libRead x.entry 512).bulkWrite a (bytes ++ List.replicate (512 - bytes.length) 0)).countMove 24 6 a 512
      else s
    | _ => s)

/-- STREAM_ENTRY_REWRITE: an uncorrectable stream table entry is written again (R239); a write-out under way is cancelled
first. (DEDUCED, log 67) -/
def execStreamEntryRewrite (stream : Nat) (s : State) : Host.Outcome State Fault Refusal :=
  runSettled s (fun s =>
    let x := s.stream stream
    if ¬s.awake ∨ Config.nStreams ≤ stream then s
    else
      let d := stream % 4
      let live := decide (x.st ≠ .free)
      let s := s.modDie d (fun z => { z with ue := z.ue + 1, ueSeen := true })
      let s := s.memRecord (1 + d) (stream / 4) (stream / 4 * 64) (if live then some x.stall else none) (some stream)
      s.rewriteEntry stream)

end Sys2Proof.Machine
end

