-- ==== Sys2Proof/Machine/Flags.lean ====
section
/-! DEFINITION. The packed registers: status words, flags and settings as the bits of their tables say. -/

namespace Sys2Proof.Machine

/-- Pack fields, each with its lowest bit. -/
def pack (l : List (Nat × Nat)) : Nat := (l.map (fun p => p.2 * 2 ^ p.1)).sum

/-! ## Rows, porters, memories -/

/-- ROWn_OCC (Table 4.7). -/
def Row.occ (w : Row) : Nat := pack [(0, w.resident), (16, w.staged)]

/-- ROWn_INFLIGHT: frame tokens in flight and the limit of R92. -/
def Row.flight (w : Row) : Nat := pack [(0, w.inflight), (16, if w.st = .absent then 0 else 1024 * w.cfg.presses)]

/-- PRSp_PAIRn (Table 9.4). -/
def Pair.word (w : Pair) : Nat :=
  pack [(0, b2n w.recto), (1, b2n w.full), (2, b2n w.held), (3, b2n w.void), (4, b2n w.req), (16, w.kib)]

/-- xx_PRT_POOL (Table 9.9). -/
def Engine.poolWord (g : Engine) (e : Nat) : Nat := pack [(0, g.freeSlots e), (16, poolSize e)]

/-- xx_PRT_FLOOR (Table 11.2). -/
def Engine.floorWord (g : Engine) (e : Nat) : Nat := pack [(0, g.reserved e), (16, (g.issued.filter (·.sys)).length)]

/-- The state of a queue (Table 9.9): 0 empty, 1 issuing, 2 at limit, 3 at a FENCE or SWAP, 4 at a WAIT, 5 holding behind
a halt. A SIGNAL is a fence in its own queue (R202). Where several hold at once the model reads the limit first, then
whether the queue can issue, then the first descriptor that stops it: the spec gives no order. (DESIGN CHOICE, log 133) -/
def State.queueState (s : State) (e q : Nat) : Nat :=
  let g := s.engine e
  let p := tget ({} : PQueue) g.queues q
  if p.descs = [] then 0
  else if p.limit ≤ g.outstanding q then 2
  else if (s.issuable e g q [] p.decoded).isSome then 1
  else match p.decoded.find? (fun x => decide (2 ≤ x.d.op) || x.halted) with
    | some x => if x.d.op = 4 then 4 else if 2 ≤ x.d.op then 3 else 5
    | none => 1

/-- xx_PRT_Qq_STAT (Table 9.9). -/
def State.queueWord (s : State) (e q : Nat) : Nat := pack [(0, (s.engine e).outstanding q), (11, s.queueState e q)]

/-- MEm_GDc_STATUS (Table 10.3). -/
def Channel.statusWord (c : Channel) : Nat := pack [(0, b2n c.ueSeen), (1, b2n c.failed), (2, b2n c.trained)]

/-! ## Hub -/

/-- HUB_EGR_POOL (Table 11.2). -/
def State.egrPoolWord (s : State) : Nat := pack [(0, s.clerk.egrFree), (16, s.egrRsv)]

/-- HUB_MBXs_STAT (Table 13.10). -/
def Session.mbxWord (q : Session) : Nat := pack [(0, q.ring.length), (5, q.rspUsed), (10, b2n q.greeted), (11, q.hbPeriod)]

/-- HUB_PRESS_RETIRED (Table 15.9). -/
def State.retiredWord (s : State) : Nat := pack ((List.range 16).map (fun p => (p, b2n (s.press p).retired)))

/-- NETn_STATUS (Table 12.7). -/
def NetPort.statusWord (t : NetPort) : Nat := pack [(0, b2n t.up), (1, b2n (decide (t.paused ≠ 0))), (2, b2n t.lost)]

/-- HUB_FLASH_STATUS (Table 17.6). -/
def Flash.statusWord (f : Flash) : Nat :=
  pack [(0, b2n f.tallyZero), (1, b2n f.readOnly), (2, b2n (decide (f.spares < 4096))), (3, b2n f.bootScrub)]

/-- Table 17.6's code of a park record. -/
def ParkSt.code : ParkSt → Nat
  | .free => 0 | .writing => 1 | .valid => 2 | .orphan => 3

/-- An entry of FLASH_PARK_TABLE. -/
def Park.word (p : Park) : Nat := pack [(0, p.st.code), (2, p.gen % 16384), (16, p.stall), (32, p.samples % 2 ^ 48)]

/-! ## Serial audio (Table 16.4) -/

/-- SAPn_CFG. -/
def Sap.cfgWord (t : Sap) : Nat :=
  pack [(0, t.mode), (2, b2n t.master), (3, t.mclk), (5, b2n t.enable), (8, t.slots), (16, t.bits)]

/-- SAPn_CTRL: the value written, in force from the next frame sync. (DEDUCED, log 96) -/
def Sap.ctrlWord (t : Sap) : Nat :=
  let c := t.ctrlNext.getD (t.through, t.cs)
  pack [(0, b2n c.1), (1, b2n c.2)]

/-- SAPn_STATUS. -/
def Sap.statusWord (t : Sap) : Nat :=
  pack [(0, b2n t.wd), (1, b2n t.wdLive), (2, b2n t.nonaudio), (3, b2n t.underrun), (4, b2n t.framing),
    (5, b2n (decide (t.pend ≠ t.act))), (6, b2n t.running)]

/-- Voice-rate samples in egress buffers that have not been played (R248). -/
def Egress.backlog (e : Egress) : Nat :=
  (e.bufs.map (fun b => b.samples.length - (e.lastSent - b.pos))).sum

/-- An entry of SAP_SLOT_TABLE: entry j is slot j mod 128 of port j div 128. -/
def State.slotWord (s : State) (j : Nat) : Nat :=
  let k := (s.sap (j / 128)).slot (j % 128)
  pack [(0, k.stream), (18, b2n k.bound), (19, k.group), (25, k.codec), (27, b2n k.hold), (28, b2n k.played),
    (29, b2n k.inMuted), (32, if k.bound then (s.egr k.stream).backlog else 0)]

/-! ## Clocks (Table 18.8) -/

/-- CLK_GATE_CTRL. -/
def Clk.ctrlWord (c : Clk) : Nat := pack [(0, c.ctrlNode), (9, b2n c.ctrlOn)]

/-- CLK_GATE_STATUSi and CLK_GATE_INUSEi: 32 nodes, the reserved ones 0. -/
def nodeWord (f : Nat → Bool) (i : Nat) : Nat :=
  pack ((List.range 32).map (fun j => (j, b2n (decide (32 * i + j < 272) && f (32 * i + j)))))

/-- CLK_GATE_EVENT. -/
def Clk.eventWord (c : Clk) : Nat := pack [(0, b2n c.refusedSeen), (16, c.lastNode)]

/-- CLK_SRC_STATUS. -/
def Clk.srcWord (c : Clk) : Nat := pack [(0, c.switching.toNat), (16, b2n c.ctPll)]

/-- FMTR_CTRL. -/
def Clk.fmCtrlWord (c : Clk) : Nat := pack [(0, c.fmTarget), (6, c.fmRef), (12, c.fmK), (17, b2n c.fmBusy)]

/-- FMTR_STATUS. -/
def Clk.fmStatusWord (c : Clk) : Nat := pack [(0, b2n c.fmDone), (1, b2n c.fmSat), (2, b2n c.fmTimeout)]

/-! ## Security, power, pins -/

/-- SEC_STATUS (Table 19.8). (DEDUCED, log 165) -/
def State.secWord (s : State) : Nat :=
  pack [(0, s.sec.debug), (2, b2n s.onProbation), (3, b2n s.sec.entropyFail), (4, b2n s.sec.lockout), (5, b2n s.sec.credFail),
    (6, b2n (decide ((s.cred 0).ver = 0))), (7, b2n (decide ((s.cred 1).ver = 0))), (8, b2n (decide ((s.cred 2).ver = 0)))]

/-- PWR_CAP_STATUS (Table 20.7). -/
def Power.capWord (p : Power) : Nat := pack [(0, p.eff), (7, b2n p.binding), (8, b2n p.thermal)]

/-- PWR_INPUT. (DEDUCED, log 96) -/
def Power.inputWord (p : Power) : Nat := pack [(0, p.volts % 65536), (16, p.amps % 65536)]

/-- THM_STATUS. -/
def Power.thmWord (p : Power) : Nat := pack [(0, b2n p.throttleSeen), (1, b2n p.overLimit)]

/-- MOD_ALERT_STATUS (Table 21.4). Before the first measurement of the input, input_range is its reset value 0. -/
def State.alertWord (s : State) : Nat :=
  let p := s.power
  pack [(0, b2n p.binding), (1, b2n p.thermal), (2, b2n p.overLimit),
    (3, b2n (decide (p.volts ≠ 0 ∧ (p.volts < 5400 ∨ 6800 < p.volts)))),
    (4, b2n ([0, 1].any (fun n => (s.net n).cfg.getLsbD 0 && !(s.net n).up))),
    (5, b2n ((List.range 16).any (fun n => (s.sap n).enable && (s.sap n).wdLive)))]

/-- ALERT_N is driven low (R478). (DESIGN CHOICE, log 110) -/
def State.alert (s : State) : Bool := decide (s.alertWord &&& s.power.alertMask.toNat ≠ 0)

/-- ALERT_N: high-impedance while the module is unpowered or in reset; open drain (R478). -/
def State.alertPin (s : State) : Option Bool :=
  if ¬s.tapUp then none
  else s.jtag.pinOr .alertN (if s.power.phase ≠ .held ∧ s.alert then some false else none)

/-- MOD_PINS: SLOT_ID as sampled, FPGM_N live, and whether ALERT_N is driven low (Table 21.4). -/
def State.pinsWord (s : State) : Nat :=
  pack [(0, s.power.slotId.toNat), (4, b2n s.power.fpgmPin), (5, b2n (decide (s.alertPin = some false)))]

end Sys2Proof.Machine
end

