-- ==== Sys2Proof/Machine/Regs.lean ====
section
/-! DEFINITION. The registers and windows the spec's tables name, and the commands that read and write them: REG_READ,
REG_WRITE, COUNTERS_READ (R339, R340, R342, R423), and the export image window (R364, R400). -/

namespace Sys2Proof.Machine

/-! ## Views -/

/-- A register or window: the bytes of one value, the number of entries of a window, the bytes of entry `i` as they
travel, when its clock is stopped so that an access times out, and whether it lies in the MAC/PCS of a port, where an
access never completes once the 156.25 MHz reference has stopped (Table 18.6). -/
structure RegView where
  width  : Nat
  window : Option Nat
  bytes  : State → Nat → List Byte
  stop   : State → Bool
  mac    : Bool

/-- A register of the tables: its name with `#` for each index, what each index stays below, and the view. -/
structure RegDef where
  pat    : String
  bounds : List Nat
  view   : List Nat → RegView

/-- The register lies in the MAC/PCS of a port (Table 18.6). -/
def RegDef.inMac (d : RegDef) : RegDef := { d with view := fun i => { d.view i with mac := true } }

/-- A 32-bit register. -/
def reg32 (f : State → Nat) : RegView := ⟨4, none, fun s _ => beBytes 4 (f s), fun _ => false, false⟩

/-- A register of 8 bytes. -/
def reg64 (f : State → Nat) : RegView := ⟨8, none, fun s _ => beBytes 8 (f s), fun _ => false, false⟩

/-- A 48-bit counter. -/
def ctr (f : State → C48) : RegView := reg64 (fun s => (f s).toNat)

/-- A window of `n` entries. -/
def win (width n : Nat) (f : State → Nat → List Byte) : RegView := ⟨width, some n, f, fun _ => false, false⟩

/-- The same view with a clock that can stop. -/
def stopIf (stop : State → Bool) (v : RegView) : RegView := { v with stop := stop }

/-- The `k`-th index of a name. -/
def ix (l : List Nat) (k : Nat) : Nat := l.getD k 0

/-- The node of a press is off, so its registers do not answer. -/
def State.pressOff (s : State) (p : Nat) : Bool := !s.clk.on.contains p

/-- A channel's controller gives no answer: its link trains, or its die is in reset. -/
def State.chanOff (s : State) (c : Nat) : Bool := s.dieInReset (20 + c / 12) || !(s.channel c).trained

/-! ## Counters by table -/

/-- Table 4.7, stages. -/
def stageCtrs : List (String × (Stage → C48)) :=
  [("BUSY", (·.busy)), ("STARVE", (·.starve)), ("LOOP", (·.loop)), ("HANDOFF", (·.handoff)), ("BLOCK", (·.block))]

/-- Table 5.6. -/
def recCtrs : List (String × (RecUnit → C48)) :=
  [("STEPS", (·.steps)), ("GROW", (·.grow)), ("RENORM", (·.renorm)), ("SAT", (·.sat)), ("RESET", (·.resets)), ("SEGS", (·.segs))]

/-- Tables 6.4, 7.9, 8.5 and 9.8. -/
def pressCtrs : List (String × (Press → C48)) :=
  [("CONV_DEAD", (·.dead)), ("CONV_KETTLE", (·.kettle)), ("CMAP_RAW", (·.cmapRaw)), ("CMAP_OUT", (·.cmapOut)), ("CMAP_BAD", (·.cmapBad)),
   ("QSAT", (·.qsat)), ("OSAT", (·.osat)), ("FSAT", (·.fsat)), ("FLUSH", (·.flush)), ("WEIGH", (·.weigh)),
   ("RNG_BLOCKS", (·.rngBlocks)), ("RNG_SROUND", (·.rngSround)), ("RNG_DITHER", (·.rngDither)), ("RNG_GUMBEL", (·.rngGumbel)),
   ("PWAIT_HALT", (·.pwHalt)), ("PWAIT_BARRIER", (·.pwBarrier)), ("PWAIT_FENCE", (·.pwFence)), ("PWAIT_LIMIT", (·.pwLimit)),
   ("PWAIT_SLOT", (·.pwSlot)), ("PWAIT_ARB", (·.pwArb)), ("PWAIT_FLIGHT", (·.pwFlight)), ("PWAIT_QUEUE", (·.pwQueue))]

/-- The 48-bit counters of Table 9.9, BYTESc apart. -/
def engineCtrs : List (String × (Engine → C48)) :=
  [("XFERS", (·.xfers)), ("HALTED", (·.halted)), ("FAULTS", (·.faults)), ("CANCEL", (·.cancel)), ("BARSAT", (·.barsat))]

/-- Table 10.3, but for SLOTS. -/
def chanCtrs : List (String × (Channel → C48)) :=
  [("RD", (·.rd)), ("WR", (·.wr)), ("RMW", (·.rmw)), ("CE", (·.ce)), ("UE", (·.ue)), ("RETRY", (·.retry)), ("SCRUB", (·.scrub))]

/-- Counters of a port (Table 12.7). -/
def netCtrs : List (String × (NetPort → C48)) :=
  [("RX_FRAMES", (·.rxFrames)), ("TX_FRAMES", (·.txFrames)), ("RX_DROP", (·.rxDrop)), ("FEC_CORR", (·.fecCorr)), ("FEC_UNCORR", (·.fecUncorr))]

/-- HUB counters of Tables 12.7, 11.2 and 13.10, in the order of group 8. -/
def hubCtrs : List (String × (State → C48)) :=
  [("VCT_BAD", (·.vct.bad)), ("VCT_BADCRC", (·.vct.badCrc)), ("VCT_RETX", (·.vct.retx)), ("VCT_LOST", (·.vct.lost)),
   ("VCT_AUDIODROP", (·.vct.audioDrop)), ("RTP_PKTS", (·.vct.rtpPkts)), ("RTP_DROP", (·.vct.rtpDrop)),
   ("CONS_CHECKS", (·.clerk.consChecks)), ("CONS_FAIL", (·.clerk.consFail)), ("CRIER_LOST", (·.clerk.crierLost)),
   ("CLERK_CMDS", (·.clerk.cmds)), ("CLERK_REFUSED", (·.clerk.refused)), ("HB_COUNT", (·.clerk.hb))]

/-- Recovery and flash counters of the hub (Tables 15.9 and 17.6). -/
def hubCtrs2 : List (String × (State → C48)) :=
  [("ROW_FAULTS", (·.clerk.rowFaults)), ("JRNL_OVF", (·.clerk.jrnlOvf)), ("REPLAY_PEER", (·.clerk.replayPeer)),
   ("REPLAY_JRNL", (·.clerk.replayJrnl)), ("FLASH_PARKS", (·.flash.parks)), ("FLASH_UNPARKS", (·.flash.unparks)),
   ("FLASH_PARK_FAIL", (·.flash.parkFail)), ("FLASH_REFRESH", (·.flash.refresh)), ("FLASH_RETIRED", (·.flash.retired))]

/-- Counters of a serial audio port (Table 16.4). -/
def sapCtrs : List (String × (Sap → C48)) :=
  [("FRAMES", (·.frames)), ("WD_EVENTS", (·.wdEvents)), ("UNDERRUN", (·.underruns)), ("SKIP", (·.skip)), ("HOLD", (·.holds)),
   ("MUTED", (·.muted)), ("NONAUDIO", (·.nonaudios)), ("FRAMING", (·.framings))]

/-- Counters of a flash channel (Table 17.6). -/
def flashCtrs : List (String × (FlashCh → C48)) :=
  [("READS", (·.reads)), ("PROGRAMS", (·.programs)), ("CORR", (·.corr)), ("RETRY", (·.retry)), ("UNCORR", (·.uncorr))]

/-- Counters of the module's other registers (Tables 18.8, 19.8, 20.7). -/
def otherCtrs : List (String × (State → C48)) :=
  [("CLK_GATE_REFUSED", (·.clk.refused)), ("CLK_SRC_SWITCHES", (·.clk.switches)), ("CLK_SRC_DEADOLD", (·.clk.deadold)),
   ("CLK_XING_FLUSH", (·.clk.flushes)), ("CLK_DIAG_TIMEOUT", (·.clk.diag)), ("SEC_CRED_FAILS", (·.sec.credFails)),
   ("SEC_UNLOCKS", (·.sec.unlocks)), ("SEC_ENT_FAILS", (·.sec.entFails)), ("PWR_CAP_MS", (·.power.capMs)),
   ("THM_THROTTLE_MS", (·.power.throttleMs)), ("PWR_WARM_RESETS", (·.power.warm)), ("PWR_DIE_RESETS", (·.power.dieResets))]

/-- Definitions of the counters of a table. -/
def ctrDefs {α : Type} (pre : String) (bounds : List Nat) (get : State → List Nat → α) (stop : List Nat → State → Bool)
    (l : List (String × (α → C48))) : List RegDef :=
  l.map (fun c => ⟨pre ++ c.1, bounds, fun i => stopIf (stop i) (ctr (fun s => c.2 (get s i)))⟩)

/-- A clock that never stops by itself. -/
def neverStops (_ : List Nat) (_ : State) : Bool := false

/-! ## The registers -/

/-- Rows, stages, presses (Tables 4.7, 5.6, 6.4, 7.5, 7.9, 8.5, 9.4, 9.8). -/
def pressDefs : List RegDef :=
  let off := fun (i : List Nat) (s : State) => s.pressOff (ix i 0)
  [⟨"ROW#_ADMIT", [8], fun i => ctr (fun s => (s.row (ix i 0)).admits)⟩,
   ⟨"ROW#_OCC", [8], fun i => reg32 (fun s => (s.row (ix i 0)).occ)⟩,
   ⟨"ROW#_INFLIGHT", [8], fun i => reg32 (fun s => (s.row (ix i 0)).flight)⟩,
   ⟨"PRS#_PL#_SCALE", [16, 4], fun i => stopIf (off i) (win 4 2048 (fun s k =>
      beBytes 4 (tget 0 (s.press (ix i 0)).scales (2048 * ix i 1 + k)).toNat))⟩,
   ⟨"PRS#_PAIR#", [16, 64], fun i => stopIf (off i) (reg32 (fun s => (tget ({} : Pair) (s.press (ix i 0)).pairs (ix i 1)).word))⟩] ++
  ctrDefs "PRS#_STG#_" [16, 16] (fun s i => s.stageView (16 * ix i 0 + ix i 1)) off stageCtrs ++
  ctrDefs "PRS#_RU#_" [16, 4] (fun s i => s.recUnit (4 * ix i 0 + ix i 1)) off recCtrs ++
  ctrDefs "PRS#_" [16] (fun s i => s.pressView (ix i 0)) off pressCtrs

/-- The registers of a kind of engine (Tables 9.9 and 11.2): prefix, the prefix's bound, and its first engine. -/
def engineDefs (pre : String) (bound : List Nat) (base : Nat) : List RegDef :=
  let e := fun (i : List Nat) => base + if bound = [] then 0 else ix i 0
  let rest := fun (i : List Nat) (k : Nat) => ix i (bound.length + k)
  let off := fun (i : List Nat) (s : State) => decide (base = 0) && s.pressOff (e i)
  let word := fun (n : String) (bs : List Nat) (f : State → List Nat → Nat) =>
    RegDef.mk (pre ++ n) (bound ++ bs) (fun i => stopIf (off i) (reg32 (fun s => f s i)))
  [word "POOL" [] (fun s i => (s.engine (e i)).poolWord (e i)),
   word "FLOOR" [] (fun s i => (s.engine (e i)).floorWord (e i)),
   word "HALTS" [] (fun s i => (s.engine (e i)).halts),
   word "Q#_LIMIT" [queueCount base] (fun s i => (tget ({} : PQueue) (s.engine (e i)).queues (rest i 0)).limit),
   word "Q#_STAT" [queueCount base] (fun s i => s.queueWord (e i) (rest i 0)),
   word "BAR#" [256] (fun s i => (tget 0 (s.engine (e i)).bars (rest i 0)).toNat),
   ⟨pre ++ "BYTES#", bound ++ [8], fun i => stopIf (off i) (ctr (fun s => tget 0 (s.engine (e i)).bytes (rest i 0)))⟩] ++
  ctrDefs pre bound (fun s i => s.engine (e i)) off engineCtrs

/-- GDDR7 channels and state-store dies (Tables 10.3 and 11.2, R233). -/
def memoryDefs : List RegDef :=
  let chan := fun (i : List Nat) => 12 * ix i 0 + ix i 1
  let off := fun (i : List Nat) (s : State) => s.chanOff (chan i)
  ctrDefs "ME#_GD#_" [4, 12] (fun s i => s.channel (chan i)) off chanCtrs ++
  [⟨"ME#_GD#_SLOTS", [4, 12], fun i => stopIf (off i) (reg64 (fun s => (s.channel (chan i)).slots s.now % 2 ^ 48))⟩,
   ⟨"ME#_GD#_STATUS", [4, 12], fun i => stopIf (off i) (reg32 (fun s => (s.channel (chan i)).statusWord))⟩,
   ⟨"SS#_PITCH_FREE", [4], fun i => reg32 (fun s => (s.die (ix i 0)).pitchFree)⟩,
   ⟨"SS#_FEED_FREE", [4], fun i => reg32 (fun s => (s.die (ix i 0)).feedFree)⟩,
   ⟨"SS#_FEED_FLOOR", [4], fun i => reg32 (fun s => (s.die (ix i 0)).feedFloor)⟩,
   ⟨"SS#_STATUS", [4], fun i => reg32 (fun s => b2n (s.die (ix i 0)).ueSeen)⟩,
   ⟨"SS#_CE", [4], fun i => ctr (fun s => (s.die (ix i 0)).ce)⟩,
   ⟨"SS#_UE", [4], fun i => ctr (fun s => (s.die (ix i 0)).ue)⟩,
   ⟨"SS#_DLK_FIRED", [4], fun i => ctr (fun s => (s.die (ix i 0)).dlk)⟩]

/-- Word `i` of a 128-bit number. (DEDUCED, log 92) -/
def word128 (v : BitVec 128) (i : Nat) : Nat := (v >>> (32 * i)).toNat % 2 ^ 32

/-- Ports, the clerk and the hub (Tables 11.2, 12.7, 13.10, 15.9). (DESIGN CHOICE, log 91) -/
def hubDefs : List RegDef :=
  [⟨"NET#_CFG", [2], fun i => reg32 (fun s => (s.net (ix i 0)).cfg.toNat)⟩,
   ⟨"NET#_QOS", [2], fun i => reg32 (fun s => (s.net (ix i 0)).qos.toNat)⟩,
   ⟨"NET#_PORTS", [2], fun i => reg32 (fun s => (s.net (ix i 0)).ports.toNat)⟩,
   ⟨"NET#_MAC_LO", [2], fun i => reg32 (fun _ => (Config.mac (ix i 0)).toNat % 2 ^ 32)⟩,
   ⟨"NET#_MAC_HI", [2], fun i => reg32 (fun _ => (Config.mac (ix i 0)).toNat / 2 ^ 32)⟩,
   ⟨"NET#_IPV#", [2, 5], fun i => reg32 (fun s => (s.net (ix i 0)).ipv4.toNat)⟩,
   ⟨"NET#_IPV#_MASK", [2, 5], fun i => reg32 (fun s => (s.net (ix i 0)).mask4.toNat)⟩,
   ⟨"NET#_IPV#_GW", [2, 5], fun i => reg32 (fun s => (s.net (ix i 0)).gw4.toNat)⟩,
   ⟨"NET#_IPV#_ADDR#", [2, 7, 4], fun i => reg32 (fun s => word128 (s.net (ix i 0)).ipv6 (ix i 2))⟩,
   ⟨"NET#_IPV#_GW#", [2, 7, 4], fun i => reg32 (fun s => word128 (s.net (ix i 0)).gw6 (ix i 2))⟩,
   ⟨"NET#_IPV#_PREFIX", [2, 7], fun i => reg32 (fun s => (s.net (ix i 0)).prefix6.toNat)⟩,
   ⟨"NET#_STATUS", [2], fun i => reg32 (fun s => (s.net (ix i 0)).statusWord)⟩,
   ⟨"HUB_FEED_GRANT", [], fun _ => reg32 (fun s => s.clerk.feedGrant)⟩,
   ⟨"HUB_EGR_POOL", [], fun _ => reg32 State.egrPoolWord⟩,
   ⟨"HUB_MBX#_STAT", [2048], fun i => reg32 (fun s => (s.sess (ix i 0)).mbxWord)⟩,
   ⟨"HUB_CRIER#_SEQ_LO", [16], fun i => reg32 (fun s => (s.crierSrc (ix i 0)).seq % 2 ^ 32)⟩,
   ⟨"HUB_CRIER#_SEQ_HI", [16], fun i => reg32 (fun s => (s.crierSrc (ix i 0)).seq / 2 ^ 32)⟩,
   ⟨"HUB_PRESS_RETIRED", [], fun _ => reg32 State.retiredWord⟩,
   ⟨"HUB_EXPORTS_HELD", [], fun _ => reg32 State.exportsHeld⟩] ++
  (ctrDefs "NET#_" [2] (fun s i => s.net (ix i 0)) neverStops netCtrs).map RegDef.inMac ++
  ctrDefs "HUB_" [] (fun s _ => s) neverStops hubCtrs ++ ctrDefs "HUB_" [] (fun s _ => s) neverStops hubCtrs2

/-- The windows (Tables 3.1, 3.2, 12.5, 16.4, 17.6, R280). (DEDUCED, log 92) -/
def windowDefs : List RegDef :=
  [⟨"SS_STREAM_TABLE", [], fun _ => win 64 Config.nStreams (fun s n => wordsBE (streamWords (s.stream n)))⟩,
   ⟨"SS_STALL_TABLE", [], fun _ => win 64 Config.nStalls (fun s n => wordsBE (stallWords (s.stall n)))⟩,
   ⟨"HUB_EGRESS_TABLE", [], fun _ => win 32 Config.nStreams (fun s n => wordsBE (egressWords (s.egr n)))⟩,
   ⟨"HUB_RSMP_COEF", [], fun _ => win 4 1207 (fun _ k =>
      beBytes 4 (BitVec.ofInt 32 ((rsmpPairs.flatMap (fun p => rsmpTable p.1 p.2)).getD k 0)).toNat)⟩,
   ⟨"SAP_SLOT_TABLE", [], fun _ => win 16 2048 (fun s j => beBytes 16 (s.slotWord j))⟩,
   ⟨"FLASH_PARK_TABLE", [], fun _ => win 16 Config.nStreams (fun s n => beBytes 16 (s.park n).word)⟩]

/-- Serial audio and flash (Tables 16.4 and 17.6). -/
def sapDefs : List RegDef :=
  [⟨"SAP#_CFG", [16], fun i => reg32 (fun s => (s.sap (ix i 0)).cfgWord)⟩,
   ⟨"SAP#_RATE", [16], fun i => reg32 (fun s => (s.sap (ix i 0)).rate)⟩,
   ⟨"SAP#_CTRL", [16], fun i => reg32 (fun s => (s.sap (ix i 0)).ctrlWord)⟩,
   ⟨"SAP#_MASK_PEND#", [16, 4], fun i => reg32 (fun s => word128 (s.sap (ix i 0)).pend (ix i 1))⟩,
   ⟨"SAP#_MASK_ACT#", [16, 4], fun i => reg32 (fun s => word128 (s.sap (ix i 0)).act (ix i 1))⟩,
   ⟨"SAP#_STATUS", [16], fun i => reg32 (fun s => (s.sap (ix i 0)).statusWord)⟩,
   ⟨"HUB_FLASH_STATUS", [], fun _ => reg32 (fun s => s.flash.statusWord)⟩,
   ⟨"HUB_FLASH_TALLY", [], fun _ => reg32 (fun s => s.flash.tally)⟩,
   ⟨"HUB_FLASH_SPARES", [], fun _ => reg32 (fun s => s.flash.spares)⟩,
   ⟨"HUB_FLASH_ERASE_SPREAD", [], fun _ => reg32 (fun s => pack [(0, s.flash.wear.spread.1 % 65536), (16, s.flash.wear.spread.2 % 65536)])⟩] ++
  ctrDefs "SAP#_" [16] (fun s i => s.sap (ix i 0)) neverStops sapCtrs ++
  ctrDefs "FLASH_CH#_" [8] (fun s i => s.flashCh (ix i 0)) neverStops flashCtrs

/-- Clocks, security, power, thermal, pins (Tables 18.8, 19.8, 20.7, 21.4). -/
def systemDefs : List RegDef :=
  [⟨"CLK_GATE_CTRL", [], fun _ => reg32 (fun s => s.clk.ctrlWord)⟩,
   ⟨"CLK_GATE_STATUS#", [9], fun i => reg32 (fun s => nodeWord s.clk.on.contains (ix i 0))⟩,
   ⟨"CLK_GATE_INUSE#", [9], fun i => reg32 (fun s => nodeWord s.nodeUsed (ix i 0))⟩,
   ⟨"CLK_GATE_EVENT", [], fun _ => reg32 (fun s => s.clk.eventWord)⟩,
   ⟨"CLK_SRC_STATUS", [], fun _ => reg32 (fun s => s.clk.srcWord)⟩,
   ⟨"FMTR_CTRL", [], fun _ => reg32 (fun s => s.clk.fmCtrlWord)⟩,
   ⟨"FMTR_RESULT", [], fun _ => reg32 (fun s => s.clk.fmCount.toNat)⟩,
   ⟨"FMTR_STATUS", [], fun _ => reg32 (fun s => s.clk.fmStatusWord)⟩,
   ⟨"SEC_STATUS", [], fun _ => reg32 State.secWord⟩,
   ⟨"SEC_CRED_STAGE#", [6], fun _ => reg64 (fun _ => 0)⟩,
   ⟨"SEC_CRED_COMMIT", [], fun _ => reg32 (fun _ => 0)⟩,
   ⟨"SEC_CFG_SAVE", [], fun _ => reg32 (fun _ => 0)⟩,
   ⟨"SEC_FAIL_RUN", [], fun _ => reg32 (fun s => s.sec.failRun)⟩,
   ⟨"SEC_BOOT_COUNT", [], fun _ => reg32 (fun s => s.flash.bootCount)⟩,
   ⟨"SEC_AUDIT_SEQ", [], fun _ => reg64 (fun s => s.sec.auditSeq)⟩,
   ⟨"SEC_AUDIT_OLDEST", [], fun _ => reg64 State.auditOldest⟩,
   ⟨"PWR_CAP_CTRL", [], fun _ => reg32 (fun s => s.power.cap)⟩,
   ⟨"PWR_CAP_STATUS", [], fun _ => reg32 (fun s => s.power.capWord)⟩,
   ⟨"PWR_INPUT", [], fun _ => reg32 (fun s => s.power.inputWord)⟩,
   ⟨"PWR_POWER", [], fun _ => reg32 (fun s => s.power.watts % 4096)⟩,
   ⟨"PWR_RESET_CTRL", [], fun _ => reg32 (fun _ => 0)⟩,
   ⟨"THM_TEMP#", [25], fun i => reg32 (fun s => (BitVec.ofInt 11 (tget 0 s.power.temps (ix i 0))).toNat)⟩,
   ⟨"THM_STATUS", [], fun _ => reg32 (fun s => s.power.thmWord)⟩,
   ⟨"MOD_ALERT_CTRL", [], fun _ => reg32 (fun s => s.power.alertMask.toNat)⟩,
   ⟨"MOD_ALERT_STATUS", [], fun _ => reg32 State.alertWord⟩,
   ⟨"MOD_PINS", [], fun _ => reg32 State.pinsWord⟩] ++
  ctrDefs "" [] (fun s _ => s) neverStops otherCtrs

/-- Every register and window. -/
def regDefs : List RegDef :=
  windowDefs ++ systemDefs ++ sapDefs ++ hubDefs ++ memoryDefs ++ pressDefs ++ engineDefs "PRS#_PRT_" [16] 0 ++
    engineDefs "SS#_PRT_" [4] 16 ++ engineDefs "ME#_PRT_" [4] 20 ++ engineDefs "HUB_PRT_" [] 24

/-- The digits in NETn_IPV4 and NETn_IPV6 are part of the name. -/
def ipDigitOk (pat : String) (i : List Nat) : Bool :=
  if pat == "NET#_IPV#" || pat == "NET#_IPV#_MASK" || pat == "NET#_IPV#_GW" then decide (ix i 1 = 4)
  else if pat == "NET#_IPV#_ADDR#" || pat == "NET#_IPV#_GW#" || pat == "NET#_IPV#_PREFIX" then decide (ix i 1 = 6)
  else true

/-- The definition a name spells, if any. (DEDUCED, log 97) -/
def regDef (pat : String) (i : List Nat) : Option RegDef :=
  regDefs.find? (fun d => d.pat == pat && decide (i.length = d.bounds.length) &&
    (i.zip d.bounds).all (fun p => decide (p.1 < p.2)) && ipDigitOk pat i)

/-! ## Debug registers (R445) -/

/-- The name is a debug or a maker register's. (DESIGN CHOICE, log 93) -/
def isDebug (body : List Byte) : Bool := namePrefix body "DBG_" || namePrefix body "MFG_"

/-- The debug access is within the opened subset (Table 19.4). (DESIGN CHOICE, log 93) -/
def State.debugOpen (s : State) (k : Nat) (body : List Byte) (write : Bool) : Bool :=
  if namePrefix body "MFG_" then decide (s.sec.debug = 2 ∧ (s.sess k).role = 3)
  else decide ((if write then 2 else 1) ≤ s.sec.debug)

/-- `n` free values of 8 bytes. (DESIGN CHOICE, logs 4, 93) -/
def State.freeBytes (s : State) (n : Nat) : List Byte :=
  (List.range n).flatMap (fun i => beBytes 8 ((Config.freeWord (s.free + i)).toNat % 2 ^ 64))

/-! ## Export images (R364, R400) -/

/-- The bytes of an image entry by entry, and how many entries of 512 bytes it has: a held export image, or an orphan
park record under handle 0x80000000 + n. (DEDUCED, log 90) -/
def State.imageEntries (s : State) (handle : Nat) : Option (Nat × (Nat → Nat → List Byte)) :=
  if 2 ^ 31 ≤ handle then
    let n := handle - 2 ^ 31
    if (s.park n).st = .orphan then some (1024, fun i c => mread s.mem (parkAddr n + 512 * i) (512 * c)) else none
  else
    let g := s.img handle
    if g.held then some (g.bytes.length / 512, fun i c => (g.bytes.drop (512 * i)).take (512 * c)) else none

/-- Note that entries have been read, an orphan's from flash; an image all of whose entries have been read is freed. -/
def State.noteRead (s : State) (handle i c : Nat) : State :=
  let mark := fun (l : List Nat) => ((List.range c).map (i + ·)).foldl insertNat l
  if 2 ^ 31 ≤ handle then
    let n := handle - 2 ^ 31
    let s := (s.modPark n (fun p => { p with read := mark p.read })).flashReadPage n
    if (s.park n).read.length = 1024 then s.freeOrphan n else s
  else
    let s := s.modImg handle (fun g => { g with read := mark g.read })
    if (s.img handle).read.length = (s.img handle).bytes.length / 512 then s.putImg handle {} else s

/-- A read of HUB_EXPORTh_IMAGE. An image that is no longer held ends the read with ST_TIMEOUT (Table 15.8). (DEDUCED, log 90) -/
def exportReadOwn (h : CmdHdr) (handle index count : Nat) (s : State) : Act :=
  match s.imageEntries handle with
  | none => .no .timeout
  | some (n, get) =>
    if n < index + count then .no .badDescriptor
    else if s.maxBody h.session < 512 * count then .no .badLength
    else .ok (fun s => s.noteRead handle index count) (get index count)

/-- The shape of a peer's read of the image window. -/
def exportReadShape (handle index count : Nat) : Shape :=
  { opcode := 0x70, role := 2, scope := .module, lenOk := true,
    fields := decide (1 ≤ count ∧ count ≤ 16 ∧ handle < 2 ^ 32 ∧ index < 2 ^ 32), peerOk := true }

/-- EXPORT_IMAGE_READ (R364). -/
def execExportImageRead (h : CmdHdr) (handle index count : Nat) (s : State) : Host.Outcome State Fault Refusal :=
  run s (clerk (exportReadShape handle index count) h 40 (exportReadOwn h handle index count))

/-- EXPORT_EXPIRE: 30 s after the export the image is released (R326). -/
def execExportExpire (handle : Nat) (s : State) : Host.Outcome State Fault Refusal :=
  run s (fun s => if s.awake ∧ (s.img handle).held then s.putImg handle {} else s)

/-! ## REG_READ (R339) -/

/-- An access that never completes: its command stays unanswered, and its clerk core waits (R423, R426). (DEDUCED, log 10) -/
def hungRead : Act := .later (fun s => s.modClerk (fun c => { c with hung := true }))

/-- The command is accepted and its response never comes. -/
def Act.waits : Act → Bool
  | .later _ => true
  | _ => false

/-- Run a command that reads registers. After the loss of the 156.25 MHz reference alone a read of a port's MAC/PCS never
completes (R423, R426); nothing more is stated of a command then. (DEDUCED, log 10) -/
def runRead (c : Shape) (h : CmdHdr) (len : Nat) (own : State → Act) (s : State) : Host.Outcome State Fault Refusal :=
  if s.portsLost ∧ s.takes h ∧ s.precheck c h len = none ∧ (own s).waits then .next (clerk c h len own s)
  else run s (clerk c h len own)

/-- A read through a view. -/
def viewRead (h : CmdHdr) (v : RegView) (index count : Nat) (s : State) : Act :=
  let inside : Bool := match v.window with
    | some n => decide (index + count ≤ n)
    | none => decide (index = 0 ∧ count = 1)
  if ¬inside then .no .badDescriptor
  else if s.maxBody h.session < count * v.width then .no .badLength
  else if v.stop s then timedOut
  else if v.mac ∧ s.portsLost then hungRead
  else .ok (fun s => s) ((List.range count).flatMap (fun i => v.bytes s (index + i)))

/-- REG_READ's own refusals and effect. (DESIGN CHOICE, log 93) -/
def regReadOwn (h : CmdHdr) (body : List Byte) (s : State) : Act :=
  let index := fld body 32 4
  let count := fld body 36 2
  match regName body with
  | none => .no .badDescriptor
  | some (pat, i) =>
    if isDebug body then
      if ¬s.debugOpen h.session body false then .no .noRight
      else if s.maxBody h.session < 8 * count then .no .badLength
      else .ok (fun s => { s with free := s.free + count }) (s.freeBytes count)
    else if pat == "HUB_EXPORT#_IMAGE" then exportReadOwn h (ix i 0) index count s
    else match regDef pat i with
      | none => .no .badDescriptor
      | some d => viewRead h (d.view i) index count s

/-- REG_READ (R339). -/
def execRegRead (h : CmdHdr) (body : List Byte) (s : State) : Host.Outcome State Fault Refusal :=
  runRead (regReadShape body) h body.length (regReadOwn h body) s

/-! ## REG_WRITE (R340) -/

/-- The bits of a value outside a mask of fields are 0. -/
def onlyBits (v mask : Nat) : Bool := decide (v &&& mask = v)

/-- Write an RW word: bits outside the fields and values out of range are refused. -/
def rwWord (v mask : Nat) (ok : Bool) (f : State → State) : Option Act :=
  some (if onlyBits v mask ∧ ok then .ok f (backBody v) else .no .badDescriptor)

/-- Clear W1C flags: fields outside the mask are refused, RO fields ignored; the read-back is the register as it is then. -/
def w1c (v mask : Nat) (f : State → State) (back : State → Nat) : Option Act :=
  some (if onlyBits v mask then .done f (fun s => backBody (back s)) 0 else .no .badDescriptor)

/-- Put word `i` into a 128-bit number. -/
def setWord128 (v : BitVec 128) (i w : Nat) : BitVec 128 :=
  (v &&& ~~~(BitVec.ofNat 128 ((2 ^ 32 - 1) * 2 ^ (32 * i)))) ||| BitVec.ofNat 128 (w * 2 ^ (32 * i))

/-- NETn_CFG's ranges: an MTU of 1,280 to 9,194, and a VLAN ID of 1 to 4,094 when frames are tagged (Table 12.7). -/
def netCfgOk (v : Nat) : Bool :=
  decide (1280 ≤ bits v 29 16 ∧ bits v 29 16 ≤ 9194) && (!bitAt v 3 || decide (1 ≤ bits v 15 4 ∧ bits v 15 4 ≤ 4094))

/-- The writable registers of the ports (R285). -/
def netWrite (pat : String) (i : List Nat) (v : Nat) : Option Act :=
  let n := ix i 0
  let w := BitVec.ofNat 32 v
  let full := 2 ^ 32 - 1
  let put := fun (f : NetPort → NetPort) (s : State) => s.modNet n f
  if pat == "NET#_CFG" then rwWord v 0x3FFFFFFF (netCfgOk v) (put (fun t => { t with cfg := w }))
  else if pat == "NET#_QOS" then rwWord v 0x03FFFFFF true (put (fun t => { t with qos := w }))
  else if pat == "NET#_PORTS" then rwWord v full (!bitAt v 16) (put (fun t => { t with ports := w }))
  else if pat == "NET#_IPV#" then rwWord v full true (put (fun t => { t with ipv4 := w }))
  else if pat == "NET#_IPV#_MASK" then rwWord v full true (put (fun t => { t with mask4 := w }))
  else if pat == "NET#_IPV#_GW" then rwWord v full true (put (fun t => { t with gw4 := w }))
  else if pat == "NET#_IPV#_ADDR#" then rwWord v full true (put (fun t => { t with ipv6 := setWord128 t.ipv6 (ix i 2) v }))
  else if pat == "NET#_IPV#_GW#" then rwWord v full true (put (fun t => { t with gw6 := setWord128 t.gw6 (ix i 2) v }))
  else if pat == "NET#_IPV#_PREFIX" then rwWord v 0xFF (decide (1 ≤ v ∧ v ≤ 128)) (put (fun t => { t with prefix6 := w }))
  else if pat == "NET#_STATUS" then
    w1c v 7 (put (fun t => { t with lost := t.lost && !bitAt v 2 })) (fun s => (s.net n).statusWord)
  else none

/-- The outstanding limit of a queue (R189), for the engine that a pattern and its indices name. -/
def limitWrite (pat : String) (i : List Nat) (v : Nat) : Option Act :=
  let put := fun (e q : Nat) =>
    rwWord v 0x7FF (decide (1 ≤ v ∧ v ≤ 1024)) (fun s => s.modEngine e (fun g =>
      { g with queues := tset {} g.queues q { tget ({} : PQueue) g.queues q with limit := v } }))
  if pat == "PRS#_PRT_Q#_LIMIT" then put (ix i 0) (ix i 1)
  else if pat == "SS#_PRT_Q#_LIMIT" then put (16 + ix i 0) (ix i 1)
  else if pat == "ME#_PRT_Q#_LIMIT" then put (20 + ix i 0) (ix i 1)
  else if pat == "HUB_PRT_Q#_LIMIT" then put 24 (ix i 0)
  else none

/-- The W1C flags and RW fields of memories, serial audio and flash. -/
def unitWrite (pat : String) (i : List Nat) (v : Nat) : Option Act :=
  let n := ix i 0
  if pat == "ME#_GD#_STATUS" then
    w1c v 7 (fun s => s.modChannel (12 * n + ix i 1) (fun c => { c with ueSeen := c.ueSeen && !bitAt v 0 }))
      (fun s => (s.channel (12 * n + ix i 1)).statusWord)
  else if pat == "SS#_STATUS" then
    w1c v 1 (fun s => s.modDie n (fun d => { d with ueSeen := d.ueSeen && !bitAt v 0 })) (fun s => b2n (s.die n).ueSeen)
  else if pat == "SAP#_CTRL" then
    rwWord v 3 true (fun s => s.modSap n (fun t => { t with ctrlNext := some (bitAt v 0, bitAt v 1) }))
  else if pat == "SAP#_STATUS" then
    w1c v 0x7F (fun s => s.modSap n (fun t => { t with
      wd := t.wd && !bitAt v 0, nonaudio := t.nonaudio && !bitAt v 2, underrun := t.underrun && !bitAt v 3,
      framing := t.framing && !bitAt v 4 })) (fun s => (s.sap n).statusWord)
  else if pat == "HUB_FLASH_STATUS" then
    w1c v 0xF (fun s => s.modFlash (fun f => { f with tallyZero := f.tallyZero && !bitAt v 0 })) (fun s => s.flash.statusWord)
  else none

/-- The writable registers of clocks, security, power, thermal and pins. -/
def systemWrite (h : CmdHdr) (pat : String) (i : List Nat) (v : Nat) (s : State) : Option Act :=
  if pat == "CLK_GATE_CTRL" then
    some (if onlyBits v 0x3FF then gateOwn (bits v 8 0) (bitAt v 9) s else .no .badDescriptor)
  else if pat == "CLK_GATE_EVENT" then
    w1c v 0x1FF0001 (fun s => s.modClk (fun c => { c with refusedSeen := c.refusedSeen && !bitAt v 0 })) (fun s => s.clk.eventWord)
  else if pat == "SEC_STATUS" then
    w1c v 0x1FF (fun s => s.modSec (fun c => { c with credFail := c.credFail && !bitAt v 5 })) State.secWord
  else if pat == "SEC_CRED_STAGE#" then
    some (.ok (fun s => s.modSec (fun c => { c with stage := c.stage.set (ix i 0) (BitVec.ofNat 64 v) })) (backBody 0))
  else if pat == "SEC_CRED_COMMIT" then
    some (if onlyBits v 7 then credOwn (bits v 1 0) (bitAt v 2) s else .no .badDescriptor)
  else if pat == "SEC_CFG_SAVE" then some (if onlyBits v 1 then cfgSaveOwn (bitAt v 0) s else .no .badDescriptor)
  else if pat == "PWR_CAP_CTRL" then
    rwWord v 0x7F (decide (48 ≤ v ∧ v ≤ 100)) (fun s => s.modPower (fun p => { p with cap := v }))
  else if pat == "PWR_RESET_CTRL" then
    some (if onlyBits v 0x1F07 then resetCtrlOwn h (bits v 1 0) (bits v 12 8) (bitAt v 2) s else .no .badDescriptor)
  else if pat == "THM_STATUS" then
    w1c v 3 (fun s => s.modPower (fun p => { p with
      throttleSeen := p.throttleSeen && !bitAt v 0, overLimit := p.overLimit && !bitAt v 1 })) (fun s => s.power.thmWord)
  else if pat == "MOD_ALERT_CTRL" then
    rwWord v 0x3F true (fun s => s.modPower (fun p => { p with alertMask := BitVec.ofNat 6 v }))
  else none

/-- REG_WRITE's own refusals and effect; the value is checked before the access that a stopped clock ends (R292, R340). (DESIGN CHOICE, log 93) -/
def regWriteOwn (h : CmdHdr) (body : List Byte) (s : State) : Act :=
  let index := fld body 32 4
  let v := fld body 40 8
  match regName body with
  | none => .no .badDescriptor
  | some (pat, i) =>
    if isDebug body then
      if s.debugOpen h.session body true then .ok (fun s => { s with free := s.free + 1 }) (s.freeBytes 1) else .no .noRight
    else if pat == "HUB_EXPORT#_IMAGE" then .no .noRight
    else match regDef pat i with
      | none => .no .badDescriptor
      | some d =>
        match ((netWrite pat i v).orElse (fun _ => limitWrite pat i v)).orElse (fun _ =>
            (unitWrite pat i v).orElse (fun _ => systemWrite h pat i v s)) with
        | none => .no .noRight
        | some (.refuse st b f) => if index ≠ 0 then .no .badDescriptor else .refuse st b f
        | some a => if index ≠ 0 then .no .badDescriptor else if (d.view i).stop s then timedOut else a

/-- REG_WRITE (R340). -/
def execRegWrite (h : CmdHdr) (body : List Byte) (s : State) : Host.Outcome State Fault Refusal :=
  run s (clerk (regWriteShape h body) h body.length (regWriteOwn h body))

/-! ## COUNTERS_READ (R342) -/

/-- Values of 8 bytes each. -/
def ctrBytes (l : List Nat) : List Byte := l.flatMap (beBytes 8)

/-- The counters of a table, of one unit. -/
def readCtrs {α : Type} (l : List (String × (α → C48))) (x : α) : List Nat := l.map (fun c => (c.2 x).toNat)

/-- The units of a group (Table 14.5). -/
def groupUnits (g : Nat) : Nat := [0, 8, 256, 64, 16, 25, 48, 2, 1].getD g 0

/-- The counters of a group and unit, in the row order of their tables. -/
def State.groupCtrs (s : State) (g u : Nat) : List Nat :=
  match g with
  | 1 => [(s.row u).admits.toNat, (s.row u).occ, (s.row u).flight]
  | 2 => readCtrs stageCtrs (s.stageView u)
  | 3 => readCtrs recCtrs (s.recUnit u)
  | 4 => readCtrs pressCtrs (s.pressView u)
  | 5 =>
    let e := s.engine u
    [e.xfers.toNat] ++ (List.range 8).map (fun c => (tget 0 e.bytes c).toNat) ++
      [e.halted.toNat, e.faults.toNat, e.cancel.toNat, e.barsat.toNat]
  | 6 => ((s.channel u).slots s.now % 2 ^ 48) :: readCtrs chanCtrs (s.channel u)
  | 7 => readCtrs netCtrs (s.net u)
  | 8 => readCtrs hubCtrs s
  | _ => []

/-- A read of the group times out: the press's node is off, or the channel's controller is stopped (R425). -/
def State.groupOff (s : State) (g u : Nat) : Bool :=
  match g with
  | 2 => s.pressOff (u / 16)
  | 3 => s.pressOff (u / 4)
  | 4 => s.pressOff u
  | 5 => decide (u < 16) && s.pressOff u
  | 6 => s.chanOff u
  | _ => false

/-- COUNTERS_READ's own refusals and effect. -/
def countersReadOwn (body : List Byte) (s : State) : Act :=
  let g := fld body 0 1
  let u := fld body 1 1
  if groupUnits g ≤ u then .no .badDescriptor
  else if s.groupOff g u then timedOut
  else if g = 7 ∧ s.portsLost then hungRead
  else .ok (fun s => s) (ctrBytes (s.groupCtrs g u))

/-- COUNTERS_READ's row of Table 14.1 and its layout. -/
def countersReadShape (body : List Byte) : Shape :=
  { opcode := 0x73, role := 2, scope := .module, lenOk := decide (body.length = 4), fields := zeros body 2 2 }

/-- COUNTERS_READ (R342). -/
def execCountersRead (h : CmdHdr) (body : List Byte) (s : State) : Host.Outcome State Fault Refusal :=
  runRead (countersReadShape body) h body.length (countersReadOwn body) s

end Sys2Proof.Machine
end

