-- ==== Sys2Proof/Machine/Arith.lean ====
section
/-! DEFINITION. The arithmetic of AL3 (chapters 7 and 8 of the spec, R103 to R118 of chapter 5, R128 to R145 of
chapter 6): exact integer arithmetic with one rounding where the spec names one, and the events the counters see. -/

namespace Sys2Proof.Machine

/-! ## Events of a computation -/

/-- What a computation adds to the counters of Tables 5.6, 6.4, 7.9 and 8.5. -/
structure Cnt where
  fsat : Nat := 0
  flush : Nat := 0
  qsat : Nat := 0
  osat : Nat := 0
  weigh : Nat := 0
  dead : Nat := 0
  kettle : Nat := 0
  cmapRaw : Nat := 0
  cmapOut : Nat := 0
  blocks : Nat := 0
  sround : Nat := 0
  dither : Nat := 0
  gumbel : Nat := 0
  steps : Nat := 0
  grow : Nat := 0
  renorm : Nat := 0
  sat : Nat := 0
  resets : Nat := 0
  segs : Nat := 0
  deriving DecidableEq, Repr, Inhabited

/-- A computation that counts events. -/
abbrev Arith (α : Type) := StateM Cnt α

/-- Count. -/
def count (f : Cnt → Cnt) : Arith Unit := modify f

/-! ## Exact values (R150): integers in units of 2^-149 -/

/-- The unit of an exact value is 2^-149: every fp24 and fp32 value is a whole number of them. -/
def unitBits : Nat := 149

/-- The exact value of a pattern with exponent field `e` and fraction `f` of `F` bits. -/
def fpVal (F : Nat) (neg : Bool) (e f : Nat) : Int :=
  if e = 0 then 0
  else
    let a : Int := ((2 ^ F + f) * 2 ^ (e + 22 - F) : Nat)
    if neg then -a else a

/-- The value of an fp24 pattern. -/
def val24 (v : Fp24) : Int := fpVal 15 (v.getLsbD 23) (bits v.toNat 22 15) (bits v.toNat 14 0)

/-- The value of an fp32 pattern. -/
def val32 (v : Fp32) : Int := fpVal 23 (v.getLsbD 31) (bits v.toNat 30 23) (bits v.toNat 22 0)

/-- fp24 widened to fp32: eight zero fraction bits (R150). -/
def widen (v : Fp24) : Fp32 := BitVec.ofNat 32 (v.toNat * 256)

/-! ## Rounding (R152, R153) -/

/-- rna of the quotient of naturals: nearest, ties up. -/
def rnaNat (n d : Nat) : Nat := (2 * n + d) / (2 * d)

/-- rna: the nearest integer to `n / d`, ties away from zero. -/
def rna (n : Int) (d : Nat) : Int := if n < 0 then -(rnaNat n.natAbs d : Int) else rnaNat n.natAbs d

/-- The binade of `a / d`: the greatest `e` with 2^e not above it. -/
def binade (a d : Nat) : Int :=
  let l : Int := (a.log2 : Int) - d.log2
  if d * 2 ^ l.toNat ≤ a * 2 ^ (-l).toNat then l else l - 1

/-- The `F + 1` bit significand nearest `a / d` and its binade, ties away from zero. -/
def significand (F a d : Nat) : Nat × Int :=
  let e := binade a d
  let m := rnaNat (a * 2 ^ ((F : Int) - e).toNat) (d * 2 ^ (e - F).toNat)
  if m = 2 ^ (F + 1) then (2 ^ F, e + 1) else (m, e)

/-- Round `n / d` once to `F` fraction bits: the pattern without its sign, as a number; saturation and flush counted. -/
def roundMag (F a d : Nat) : Arith Nat :=
  if a = 0 then pure 0
  else
    let (m, e) := significand F a d
    if 127 < e then do
      count (fun c => { c with fsat := c.fsat + 1 })
      pure (254 * 2 ^ F + (2 ^ F - 1))
    else if e < -126 then do
      count (fun c => { c with flush := c.flush + 1 })
      pure 0
    else pure ((e + 127).toNat * 2 ^ F + (m - 2 ^ F))

/-- round24 of the exact value `n / d` (R152); an exact 0 gives +0 (R153). -/
def round24 (n : Int) (d : Nat) : Arith Fp24 := do
  let m ← roundMag 15 n.natAbs d
  pure (BitVec.ofNat 24 (m + if n < 0 then 2 ^ 23 else 0))

/-- round32 of the exact value `n / d` (R152). -/
def round32 (n : Int) (d : Nat) : Arith Fp32 := do
  let m ← roundMag 23 n.natAbs d
  pure (BitVec.ofNat 32 (m + if n < 0 then 2 ^ 31 else 0))

/-- One unit as a denominator. -/
def u1 : Nat := 2 ^ unitBits
/-- The unit of a product. -/
def u2 : Nat := 2 ^ (2 * unitBits)

/-- round24 of a sum. -/
def add24 (a b : Fp24) : Arith Fp24 := round24 (val24 a + val24 b) u1
/-- round24 of a product (R123). -/
def mul24 (a b : Fp24) : Arith Fp24 := round24 (val24 a * val24 b) u2
/-- round32 of a sum. -/
def add32 (a b : Fp32) : Arith Fp32 := round32 (val32 a + val32 b) u1

/-- 1.0 in fp24. -/
def one24 : Fp24 := 0x3F8000#24

/-! ## Trees (R167) -/

/-- The tree sum of R167, in fp32; `fuel` bounds the depth. -/
def tree : Nat → List Fp32 → Arith Fp32
  | _, [] => pure 0
  | _, [v] => pure v
  | 0, _ => pure 0
  | fuel + 1, vs => do
    let h := (vs.length + 1) / 2
    let a ← tree fuel (vs.take h)
    let b ← tree fuel (vs.drop h)
    add32 a b

/-! ## Functions by their exact values (R164, R165, R180)

Fixed-point evaluation with `P` = 256 fraction bits, far beyond what any rounding of the tables needs. -/

/-- Fraction bits of the fixed-point evaluation. (DEDUCED, log 37) -/
def fxBits : Nat := 256
/-- 1 in fixed point. -/
def fxOne : Nat := 2 ^ fxBits

/-- The series of exp from its `k`-th term on. -/
def expSeries (x : Nat) : Nat → Nat → Nat → Nat
  | 0, _, _ => 0
  | fuel + 1, k, term => term + expSeries x fuel (k + 1) (term * x / fxOne / (k + 1))

/-- exp of a fixed-point number from 0 to 16. (DEDUCED, log 37) -/
def expFx (x : Nat) : Nat := expSeries x 160 0 fxOne

/-- The series of atanh from the term of index `k` on; `z2` is the square and `p` the odd power. -/
def atanhSeries (z2 : Nat) : Nat → Nat → Nat → Nat
  | 0, _, _ => 0
  | fuel + 1, k, p => p / (2 * k + 1) + atanhSeries z2 fuel (k + 1) (p * z2 / fxOne)

/-- 2 atanh of a fixed-point number up to 1/3. -/
def atanh2 (z : Nat) : Nat := 2 * atanhSeries (z * z / fxOne) 90 0 z

/-- ln 2. -/
def ln2Fx : Nat := atanh2 (fxOne / 3)

/-- ln of a positive fixed-point number. (DEDUCED, log 37) -/
def lnFx (x : Nat) : Int :=
  let k := x.log2
  let m := x * fxOne / 2 ^ k              -- in [1, 2)
  ((k : Int) - fxBits) * ln2Fx + atanh2 ((m - fxOne) * fxOne / (m + fxOne))

/-- ts[i] of R164. (DEDUCED, log 37) -/
def sigmaEntry (i : Nat) : Int :=
  let d : Int := 16 * 256 - i
  let e := expFx (d.natAbs * fxOne / 256)
  -- exp(16 - i/256) is e for d ≥ 0 and 1/e below
  if 0 ≤ d then rna (2 ^ 24 * fxOne) (fxOne + e) else rna (2 ^ 24 * e) (e + fxOne)

/-- tt[i] of R165. (DEDUCED, log 37) -/
def tanhEntry (i : Nat) : Int :=
  let d : Int := (i : Int) - 8 * 512
  let e := expFx (2 * d.natAbs * fxOne / 512)
  let t := rna (2 ^ 24 * ((e : Int) - fxOne)) (e + fxOne)
  if d < 0 then -t else t

/-- Interpolate a table at `n` / 2^149 grid steps and round once (R164, R165). -/
def interpolate (entry : Nat → Int) (n : Nat) : Arith Fp24 :=
  let i := n / u1
  let f := n % u1
  round24 (entry i * u1 + (entry (i + 1) - entry i) * f) (2 ^ 24 * u1)

/-- σ (R164). -/
def sigma (v : Fp24) : Arith Fp24 :=
  let x := val24 v
  if 16 * (u1 : Int) ≤ x then pure one24
  else if x < -16 * (u1 : Int) then pure 0
  else interpolate sigmaEntry ((x + 16 * u1) * 256).toNat

/-- tanh (R165). -/
def tanh24 (v : Fp24) : Arith Fp24 :=
  let x := val24 v
  if 8 * (u1 : Int) ≤ x then pure one24
  else if x ≤ -8 * (u1 : Int) then pure (one24 ||| 0x800000#24)
  else interpolate tanhEntry ((x + 8 * u1) * 512).toNat

/-! ## Gates (R123, Table 5.5) -/

/-- A gate that takes one operand. -/
def gate1 (code : Nat) (v : Fp24) : Arith Fp24 :=
  match code with
  | 1 => pure (if val24 v ≤ 0 then 0 else v)
  | 2 => do mul24 v (← sigma v)
  | _ => pure v

/-- A gate that takes a pair. -/
def gate2 (code : Nat) (v g : Fp24) : Arith Fp24 :=
  match code with
  | 3 => do mul24 v (← sigma g)
  | _ => do mul24 (← tanh24 v) (← sigma g)

/-- A gate takes a pair of operands. -/
def paired (code : Nat) : Bool := decide (code = 3 ∨ code = 4)

/-! ## The generator (R171 to R176) -/

/-- The rotation amounts of a round (Table 8.1). -/
def rotations (r : Nat) : Nat × Nat :=
  [(17, 11), (13, 7), (19, 25), (9, 14), (22, 5)].getD (r % 5) (0, 0)

/-- One round of the generator. -/
def genRound (k : List (BitVec 32)) (r : Nat) (x : BitVec 32 × BitVec 32 × BitVec 32 × BitVec 32) :
    BitVec 32 × BitVec 32 × BitVec 32 × BitVec 32 :=
  let (a, b, c, d) := x
  let (p, q) := rotations r
  let a := a + b
  let d := (d ^^^ a).rotateLeft p
  let c := c + d
  let b := (b ^^^ c).rotateLeft q
  let a := a + BitVec.ofNat 32 (r * 0x9E3779B9)
  if r = 5 then (a + k.getD 1 0, b + k.getD 2 0, c + k.getD 3 0, d + k.getD 0 0) else (a, b, c, d)

/-- A block of four words (R171). -/
def genBlock (k c : List (BitVec 32)) : List (BitVec 32) :=
  let g := fun i => k.getD i 0
  let x := (List.range 10).foldl (fun x r => genRound k (r + 1) x)
    (c.getD 0 0 + g 0, c.getD 1 0 + g 1, c.getD 2 0 + g 2, c.getD 3 0 + g 3)
  [x.1 + g 2, x.2.1 + g 3, x.2.2.1 + g 0, x.2.2.2 + g 1]

/-- A stream's key (R172). -/
def genKey (seed : BitVec 64) (origin : Nat) : List (BitVec 32) :=
  let k0 := BitVec.ofNat 32 seed.toNat
  let k1 := BitVec.ofNat 32 (seed.toNat / 2 ^ 32)
  let k2 := BitVec.ofNat 32 origin
  [k0, k1, k2, k0 ^^^ k1 ^^^ k2 ^^^ 0x243F6A88#32]

/-- What a draw is keyed with: the stream's key, the position, the operation and the use (Table 8.2). -/
structure Draw where
  key : List (BitVec 32)
  pos : Nat
  op  : Nat
  use : Nat

/-- The counter of block `b` (Table 8.2). -/
def Draw.counter (d : Draw) (b : Nat) : List (BitVec 32) :=
  [BitVec.ofNat 32 d.pos, BitVec.ofNat 32 (d.pos / 2 ^ 32 % 2 ^ 16 + 2 ^ 16 * (d.op % 128) + 2 ^ 24 * d.use),
   BitVec.ofNat 32 (b % 1024), 3]

/-- The words of the first `n` lanes (R174). -/
def Draw.words (d : Draw) (n : Nat) : List (BitVec 32) :=
  ((List.range (ceilDiv n 4)).flatMap (fun b => genBlock d.key (d.counter b))).take n

/-- sr of `n / d` with a word (R178). -/
def srnd (n : Int) (d : Nat) (w : BitVec 32) : Int :=
  let fl := n / (d : Int)
  let rem := (n % (d : Int)).toNat
  fl + if (w.toNat / 256) * d < rem * 2 ^ 24 then 1 else 0

/-- The Gumbel noise of a word (R180). -/
def gumbel (w : BitVec 32) : Arith Fp32 :=
  let u := (2 * (w.toNat / 256) + 1) * 2 ^ (fxBits - 25)
  round32 (-(lnFx (-(lnFx u)).toNat)) fxOne

/-! ## The weigh pass (R157) -/

/-- Clamp to a range. -/
def clampInt (lo hi v : Int) : Int := min hi (max lo v)

/-- rna of `x / s`, or its stochastic rounding where a word is given; where the scale has been flushed to zero the
quotient is not stated by the spec, and is a free value. (DESIGN CHOICE, log 18) -/
def quotient (x : Int) (s : Int) (w : Option (BitVec 32)) : Int :=
  if s = 0 then Config.byZeroScale x
  else match w with
    | none => rna x s.toNat
    | some w => srnd x s.toNat w

/-- The scale and zero point of a set of values (R157). -/
def weighScale (vs : List Int) : Arith (Fp24 × Int) := do
  let lo := vs.foldl min 0
  let hi := vs.foldl max 0
  if hi = lo then pure (one24, 0)
  else do
    let s ← round24 (hi - lo) (255 * u1)
    pure (s, clampInt (-128) 127 (quotient (-lo) (val24 s) none - 128))

/-- An int8 code, its clamp counted. -/
def code8 (q z : Int) : Arith Int := do
  let v := q + z
  if clampInt (-128) 127 v ≠ v then count (fun c => { c with qsat := c.qsat + 1 })
  pure (clampInt (-128) 127 v)

/-- An outlier code, its clamp counted. -/
def code16 (q : Int) : Arith Int := do
  if clampInt (-32768) 32767 q ≠ q then count (fun c => { c with osat := c.osat + 1 })
  pure (clampInt (-32768) 32767 q)

/-- The weigh pass of a row or window, `outs` being the consuming layer's outlier channels; `draw` where the conversion
rounds stochastically. A value's lane is its channel, `chans` of them at each position of a map: no draw is indexed by a
position (R174). Lanes that draw and blocks that hold one are counted (R176, R185). (DESIGN CHOICE, log 167) -/
def weighRow (xs : List Fp24) (chans : Nat) (outs : List Nat) (draw : Option Draw) : Arith QRow := do
  count (fun c => { c with weigh := c.weigh + 1 })
  let n := if chans = 0 then xs.length else min chans xs.length
  let lanes := (List.range xs.length).zip (xs.map val24)
  let inner := lanes.filter (fun p => !outs.contains p.1)
  let (s, z) ← weighScale (inner.map Prod.snd)
  let words := (draw.map (·.words n)).getD []
  if draw.isSome then
    count (fun c => { c with sround := c.sround + inner.length,
                             blocks := c.blocks + ((inner.map (fun p => p.1 % n / 4)).eraseDups).length })
  let xq ← lanes.mapM (fun p =>
    if outs.contains p.1 then pure z else code8 (quotient p.2 (val24 s) words[p.1 % n]?) z)
  let xo ← (lanes.filter (fun p => outs.contains p.1)).mapM (fun p => do
    let v ← code16 (quotient p.2 (val24 s) none)
    pure (p.1, v))
  pure { s := s, z := z, xq := xq, xo := xo }

/-! ## Matrix products and the finishing pipe (R122, R160, R163) -/

/-- The dot product of a row with one output channel's weights, outliers merged (R159, R160). -/
def dot (r : QRow) (w : List Int) : Int :=
  ((r.xq.zip w).map (fun p => (p.1 - r.z) * p.2)).sum + (r.xo.map (fun p => w.getD p.1 0 * p.2)).sum

/-- Operation 2 of R122 (R163): one rounding of the exact product. -/
def scaleAcc (q : Quant) (s : Fp24) (co : Nat) (acc : Int) : Arith Fp24 :=
  if q.channelScale then round24 (acc * val24 (q.scales.getD co 0) * val24 s) u2 else round24 (acc * val24 s) u1

/-- Operation 3: the bias, where the layer has one. -/
def addBias (bias : List Fp24) (i : Nat) (v : Fp24) : Arith Fp24 :=
  match bias[i]? with
  | some b => add24 v b
  | none => pure v

/-- A list in pieces of `n`. -/
def pieces {α : Type} (n : Nat) : Nat → List α → List (List α)
  | 0, _ => []
  | fuel + 1, l => if l = [] then [] else l.take n :: pieces n fuel (l.drop n)

/-- Operation 4 over a layer's outputs: a paired gate takes tiles 2i and 2i + 1 (R124). -/
def gateTiles (code : Nat) : List (List Fp24) → Arith (List Fp24)
  | v :: g :: rest => do
    let a ← (v.zip g).mapM (fun p => gate2 code p.1 p.2)
    let b ← gateTiles code rest
    pure (a ++ b)
  | _ => pure []

/-- Operation 4: the gate. -/
def gateAll (code : Nat) (vs : List Fp24) : Arith (List Fp24) :=
  if paired code then gateTiles code (pieces 128 vs.length vs) else vs.mapM (gate1 code)

/-- Operation 5: the residual, where the layer has one. -/
def addResidual (residual : Bool) (res vs : List Fp24) : Arith (List Fp24) :=
  if residual then ((List.range vs.length).zip vs).mapM (fun p => add24 p.2 (res.getD p.1 0)) else pure vs

/-- Operations 1 to 4 of R122 on the array port, for one position's output channels. -/
def finishArray (q : Quant) (s : Fp24) (bias : List Fp24) (acc : List Int) : Arith (List Fp24) := do
  let v ← ((List.range acc.length).zip acc).mapM (fun p => do
    let x ← scaleAcc q s p.1 p.2
    addBias bias p.1 x)
  gateAll q.gate v

/-! ## Convolution (R128 to R137) -/

/-- The nearest position in the map. -/
def nearest (d : OpDesc) (p : Int) : Nat := (clampInt 0 (d.inF - 1) p).toNat

/-- Every pair of output position and spatial tap. (DEDUCED, log 36) -/
def tapPairs (d : OpDesc) : List (Nat × Nat) :=
  (List.range (outSize d)).flatMap (fun o => (List.range d.kF).map (fun j => (o, j)))

/-- Dead taps of one step (R130). -/
def deadTaps (d : OpDesc) : Nat :=
  if d.replicate then 0 else ((tapPairs d).filter (fun p => !inMap d (tapPos d p.1 p.2))).length

/-- Output positions of one gathering (R136): all of them when gather_h is 0. -/
def gatherSize (d : OpDesc) : Nat := if d.gatherH = 0 then outSize d else d.gatherH

/-- The output positions of gathering `i`. -/
def gatherOuts (d : OpDesc) (i : Nat) : List Nat :=
  let g := gatherSize d
  (List.range (min ((i + 1) * g) (outSize d) - i * g)).map (i * g + ·)

/-- A gathering's own rows: the input positions of its stride that lie in the map. -/
def ownRows (d : OpDesc) (i : Nat) : List Nat :=
  let g := gatherSize d
  ((List.range (g * d.sF)).map (i * g * d.sF + ·)).filter (fun p => decide (p < d.inF))

/-- A gathering's kettle band: the in-map positions that its outputs read and that are not its own. -/
def kettleBand (d : OpDesc) (i : Nat) : List Nat :=
  let own := ownRows d i
  ((((gatherOuts d i).flatMap (fun o => (List.range d.kF).map (fun j => tapPos d o j))).filter (inMap d)).map Int.toNat).eraseDups.filter
    (fun p => !own.contains p)

/-- Kettle-band rows of one step: of every gathering, whatever the number of tapped steps (R136). (DESIGN CHOICE, log 137) -/
def kettleRows (d : OpDesc) : Nat :=
  ((List.range (ceilDiv (outSize d) (gatherSize d))).map (fun i => (kettleBand d i).length)).sum

/-- The blocks of a compressed row: a bitmap, the nonzero codes, padding to 16 bytes (Table 6.3). -/
def recordBlock (z : Int) (b : List Int) : List Byte :=
  let codes := b.filter (· ≠ z)
  let map := (List.range 16).map (fun i =>
    BitVec.ofNat 8 ((List.range 8).map (fun j => if b.getD (8 * i + j) z = z then 0 else 2 ^ j)).sum)
  map ++ codes.map (BitVec.ofInt 8 ·) ++ List.replicate (16 * ceilDiv codes.length 16 - codes.length) 0

/-- A converted row as a compressed record (Table 6.3, R145). -/
def mapRecord (s : Fp24) (z : Int) (row : List Int) : List Byte :=
  let body := (pieces 128 row.length row).flatMap (recordBlock z)
  leBytes 4 (16 + body.length) ++ leBytes 3 s.toNat ++ [BitVec.ofInt 8 z] ++ leBytes 2 (ceilDiv row.length 128) ++
    List.replicate 6 0 ++ body

/-- The steps that the taps of step t read, tap 0 first: `hist` holds the earlier steps, oldest first (R132, R133). -/
def tappedSteps (d : OpDesc) (hist : List (List Fp24)) (cur : List Fp24) : List (List Fp24) :=
  (List.range d.taps).map (fun j =>
    let back := d.dilT * (d.taps - 1 - j)
    if back = 0 then cur
    else if hist.length < back then List.replicate (d.cIn * d.inF) 0 else hist.getD (hist.length - back) [])

/-- The spatial positions that a tap of some output reads, ascending: the others are never fetched and never read, and play no
part in the result or in any counter (R131). Replicate padding reads the nearest position. (DEDUCED, log 115) -/
def reached (d : OpDesc) : List Nat :=
  let taps := (tapPairs d).map (fun p => tapPos d p.1 p.2)
  (List.range d.inF).filter (fun p => taps.any (fun t => (inMap d t || d.replicate) && decide (nearest d t = p)))

/-- The values of a step at the positions of a list: position by position, the channels of a position ascending. -/
def valuesAt (d : OpDesc) (ps : List Nat) (s : List Fp24) : List Fp24 := ps.flatMap (fun p => (s.drop (p * d.cIn)).take d.cIn)

/-- The converted window by positions: each position with its codes by tapped step. -/
def windowRows (d : OpDesc) (ps : List Nat) (steps : List (List Int)) : Tbl (List (List Int)) :=
  ((List.range ps.length).zip ps).map (fun p => (p.2, steps.map (fun s => (s.drop (p.1 * d.cIn)).take d.cIn)))

/-- The rows of a converted window that a gathering's porter brings: its own rows and its kettle band (R136); of them those
that some tap reaches (R131). (DEDUCED, log 36; DESIGN CHOICE, log 151) -/
def fetchRows (d : OpDesc) (window : Tbl (List (List Int))) (i : Nat) : Tbl (List (List Int)) :=
  window.filter (fun p => (ownRows d i ++ kettleBand d i).contains p.1)

/-- Rows of a window as press memory holds them: position by position, tapped step by tapped step, the channels ascending.
(DESIGN CHOICE, log 151) -/
def rowsBytes (rows : Tbl (List (List Int))) : List Byte := rows.flatMap (fun p => p.2.flatten.map (BitVec.ofInt 8 ·))

/-- The accumulator of output channel `co` at position `o` from the rows at hand (R128, R129): zero padding adds nothing,
and replicate padding has the codes of the nearest position, which the stage supplies from the window. (DEDUCED, log 36) -/
def convAcc (d : OpDesc) (z : Int) (rows window : Tbl (List (List Int))) (w : List Int) (co o : Nat) : Int :=
  let base := co / (d.cOut * d.g / d.cIn) * d.g
  ((List.range d.kF).map (fun jf =>
    let p := tapPos d o jf
    if inMap d p || d.replicate then
      let codes := tget [] (if inMap d p then rows else window) (nearest d p)
      ((List.range d.g).map (fun i => ((List.range d.taps).map (fun jt =>
        w.getD ((i * d.kF + jf) * d.kT + (d.kT - d.taps + jt)) 0 * ((codes.getD jt []).getD (base + i) z - z))).sum)).sum
    else 0)).sum

/-- What a convolution leaves in press memory: the records of its rows where it compresses them (R145), its converted window
and the rows of each gathering, in the order in which a porter brings them (R136). -/
structure Kept8 where
  recs   : List (List Byte) := []
  window : List Byte := []
  bands  : List (List Byte) := []

/-- A convolution of one step (R128 to R137): its outputs after operations 1 to 4, position by position, and what it leaves in
press memory. `platen` says whether it runs on a platen stage, by gatherings. The window is every value that an output
reads: R135's positions but for those that no tap reaches, which R131 keeps out of the result. (DEDUCED, log 115) -/
def convStep (d : OpDesc) (q : Quant) (w : List (List Int)) (bias : List Fp24) (platen : Bool) (hist : List (List Fp24))
    (cur : List Fp24) : Arith (List (List Fp24) × Kept8) := do
  let ps := reached d
  let taps := (tappedSteps d hist cur).map (valuesAt d ps)
  let r ← weighRow taps.flatten 0 [] none
  let steps := pieces (d.cIn * ps.length) taps.length r.xq
  let byRows := platen && d.spatial
  count (fun c => { c with dead := c.dead + deadTaps d, kettle := if byRows then c.kettle + kettleRows d else c.kettle })
  let records := if d.compressOut then (pieces d.cIn r.xq.length r.xq).map (mapRecord r.s r.z) else []
  count (fun c => { c with cmapRaw := c.cmapRaw + d.cIn * records.length,
                           cmapOut := c.cmapOut + (records.map List.length).sum })
  let window := windowRows d ps steps
  let outs ← (List.range (outSize d)).mapM (fun o =>
    let rows := if byRows then fetchRows d window (o / gatherSize d) else window
    finishArray q r.s bias ((List.range d.cOut).map (fun co => convAcc d r.z rows window (w.getD co []) co o)))
  pure (outs, { recs := records, window := rowsBytes window,
                bands := if byRows then (List.range (ceilDiv (outSize d) (max 1 (gatherSize d)))).map (fun i => rowsBytes (fetchRows d window i))
                  else [rowsBytes window] })

/-! ## Transposed convolution (R138) -/

/-- The record of the row that a transposed convolution reads, where it compresses it (R145). -/
def upRecord (d : OpDesc) (r : QRow) : Arith (List (List Byte)) := do
  let records := if d.compressOut then [mapRecord r.s r.z (r.xq.take d.cIn)] else []
  count (fun c => { c with cmapRaw := c.cmapRaw + d.cIn * records.length,
                           cmapOut := c.cmapOut + (records.map List.length).sum })
  pure records

/-- One frame of a transposed convolution: the `up` completed samples and the new tail. -/
def upStep (d : OpDesc) (q : Quant) (w : List (List Int)) (bias : List Fp24) (tail : List (List Fp24)) (r : QRow) :
    Arith (List (List Fp24) × List (List Fp24)) := do
  let ys ← (List.range d.kT).mapM (fun j => (List.range d.cOut).mapM (fun co => do
    let base := co / (d.cOut * d.g / d.cIn) * d.g
    let acc := ((List.range d.g).map (fun i => (w.getD co []).getD (i * d.kT + j) 0 * (r.xq.getD (base + i) r.z - r.z))).sum
    let p ← scaleAcc q r.s co acc
    add24 ((tail.getD j []).getD co 0) p))
  let outs ← (ys.take d.upT).mapM (fun y => do
    let v ← ((List.range y.length).zip y).mapM (fun p => addBias bias p.1 p.2)
    gateAll q.gate v)
  pure (outs, ys.drop d.upT)

/-! ## Pooling and argmax (R141 to R144) -/

/-- Index of the first greatest value. -/
def argmaxFrom (i : Nat) (best : Nat × Int) : List Int → Nat
  | [] => best.1
  | v :: vs => argmaxFrom (i + 1) (if best.2 < v then (i, v) else best) vs

/-- argmax by real value, ties to the lowest index (R143). -/
def argmax (vs : List Int) : Nat :=
  match vs with
  | [] => 0
  | v :: vs => argmaxFrom 1 (0, v) vs

/-- Max pooling of one window's in-map taps (R141). -/
def maxPool (vs : List Fp24) : Fp24 := vs.getD (argmax (vs.map val24)) 0

/-- Average pooling of the taps of one window (R142). -/
def avgPool (vs : List Fp24) : Arith Fp24 :=
  match vs with
  | [] => pure 0
  | v :: rest => do
    let acc ← rest.foldlM (fun a x => add32 a (widen x)) (widen v)
    round24 (val32 acc) (vs.length * u1)

/-- Pooling of one step (R141, R142): a map position by position. (DEDUCED, log 36) -/
def poolStep (d : OpDesc) (cur : List Fp24) : Arith (List Fp24) := do
  let at_ := fun (p : Int) c => cur.getD (nearest d p * d.cIn + c) 0
  let outs ← (List.range (outSize d)).mapM (fun o => (List.range d.cIn).mapM (fun c =>
    let taps := (List.range d.kF).map (fun j => tapPos d o j)
    let live := taps.filter (inMap d)
    if d.op = 2 then pure (maxPool (live.map (fun p => at_ p c)))
    else if d.includePad then
      avgPool (taps.map (fun p => if inMap d p || d.replicate then at_ p c else 0))
    else avgPool (live.map (fun p => at_ p c))))
  pure outs.flatten

/-! ## Vector operations (R144, R167, R179) -/

/-- A reduction of a vector as one fp24 value (R167): its tree of fp32 sums, for the squares of squares rounded to fp32,
rounded to fp24 at the end, for the mean as the exact quotient. (DESIGN CHOICE, log 116) -/
def reduceTree (kind : Reduction) (vs : List Fp24) : Arith Fp24 := do
  let xs ← match kind with
    | .squares => vs.mapM (fun v => round32 (val24 v * val24 v) u2)
    | _ => pure (vs.map widen)
  let t ← tree xs.length xs
  match kind with
  | .mean => round24 (val32 t) (max 1 vs.length * u1)
  | _ => round24 (val32 t) u1

/-- A dither operation (R179) on values of `chans` channels at each position (R174). -/
def ditherStep (q : Fp24) (d : Draw) (chans : Nat) (vs : List Fp24) : Arith (List Fp24) := do
  let n := if chans = 0 then vs.length else min chans vs.length
  let words := d.words n
  count (fun c => { c with dither := c.dither + vs.length, blocks := c.blocks + ceilDiv n 4 })
  ((List.range vs.length).zip vs).mapM (fun p =>
    let w := (words.getD (p.1 % n) 0).toNat
    let t : Int := (w / 65536 : Nat) - (w % 65536 : Nat)
    round24 (val24 p.2 * 65536 + val24 q * t) (65536 * u1))

/-- Sampling: argmax over logits and Gumbel noise (R144, R180). -/
def sampleStep (d : Draw) (vs : List Fp24) : Arith Nat := do
  count (fun c => { c with gumbel := c.gumbel + vs.length, blocks := c.blocks + ceilDiv vs.length 4 })
  let ns ← (vs.zip (d.words vs.length)).mapM (fun p => do
    let g ← gumbel p.2
    add32 (widen p.1) g)
  pure (argmax (ns.map val32))

/-! ## Modal recurrences (R103 to R112) -/

/-- The initial state of a block (R108). -/
def initBlock (e0 : Nat) : BfBlock := { e := e0, m := List.replicate 16 (0, 0) }

/-- A mantissa lies in the 16-bit range. -/
def inRange16 (v : Int) : Bool := decide (-32768 ≤ v ∧ v ≤ 32767)

/-- Round the exact components (units of 2^-298) at exponent `e`: the ulp is 2^(e - 142). -/
def roundAt (e : Nat) (s : List (Int × Int)) : List (Int × Int) :=
  s.map (fun p => (rna p.1 (2 ^ (e + 156)), rna p.2 (2 ^ (e + 156))))

/-- Every component lies in range. -/
def allIn (s : List (Int × Int)) : Bool := s.all (fun p => inRange16 p.1 && inRange16 p.2)

/-- The exponent finally chosen: grow while a component is outside (R109). -/
def growExp (s : List (Int × Int)) : Nat → Nat → Nat
  | 0, e => e
  | fuel + 1, e => if e < 255 ∧ ¬allIn (roundAt e s) then growExp s fuel (e + 1) else e

/-- Round and grow exact components from exponent `e` (R109), with its counts. -/
def settleBlock (e : Nat) (s : List (Int × Int)) : Arith BfBlock := do
  let e' := growExp s (255 - e) e
  let m := roundAt e' s
  if e < e' then count (fun c => { c with grow := c.grow + 1 })
  if !allIn m then count (fun c => { c with sat := c.sat + 1 })
  pure { e := e', m := m.map (fun p => (clampInt (-32768) 32767 p.1, clampInt (-32768) 32767 p.2)) }

/-- How far a block may be lowered: the greatest k up to `fuel` for which every mantissa times 2^k stays in range. -/
def lowerBy (m : List (Int × Int)) : Nat → Nat
  | 0 => 0
  | k + 1 => if allIn (m.map (fun p => (p.1 * 2 ^ (k + 1), p.2 * 2 ^ (k + 1)))) then k + 1 else lowerBy m k

/-- Renormalise a block (R112). -/
def renorm (e0 : Nat) (b : BfBlock) : Arith BfBlock :=
  if b.m.all (fun p => decide (p = (0, 0))) then pure { b with e := e0 }
  else
    -- a nonzero mantissa leaves the range within 16 doublings
    let k := lowerBy b.m (min b.e 16)
    if k = 0 then pure b
    else do
      count (fun c => { c with renorm := c.renorm + 1 })
      pure { e := b.e - k, m := b.m.map (fun p => (p.1 * 2 ^ k, p.2 * 2 ^ k)) }

/-- The parameters of mode `i`. -/
def modeOf (m : Modal) (i : Nat) : (Int × Int) × (Int × Int) × (Int × Int) :=
  let b := m.b.getD i (0, 0)
  let c := m.c.getD i (0, 0)
  let l := m.lam.getD i (0, 0)
  ((l.1.toInt, l.2.toInt), (val24 b.1, val24 b.2), (val24 c.1, val24 c.2))

/-- Step one block (R109): block `i` of the layer, inputs by channel. -/
def stepBlock (m : Modal) (x : List Int) (i : Nat) (b : BfBlock) : Arith BfBlock := do
  let s := (List.range 16).map (fun j =>
    let (l, bb, _) := modeOf m (16 * i + j)
    let h := b.m.getD j (0, 0)
    let xc := x.getD ((16 * i + j) / m.modes) 0
    ((l.1 * h.1 - l.2 * h.2) * 2 ^ (b.e + 133) + bb.1 * xc, (l.1 * h.2 + l.2 * h.1) * 2 ^ (b.e + 133) + bb.2 * xc))
  count (fun c => { c with steps := c.steps + 1 })
  settleBlock b.e s

/-- The value of mode `i` in a state of blocks, in units of 2^-149. -/
def modeValue (bs : List BfBlock) (i : Nat) : Int × Int :=
  let b := bs.getD (i / 16) { e := 0, m := [] }
  let h := b.m.getD (i % 16) (0, 0)
  (h.1 * 2 ^ (b.e + 7), h.2 * 2 ^ (b.e + 7))

/-- The output of channel `ch` from the modes' values (R110). -/
def modalOut (m : Modal) (h : Nat → Int × Int) (x : Int) (ch : Nat) : Arith Fp24 := do
  let terms ← (List.range m.modes).mapM (fun j =>
    let i := ch * m.modes + j
    let (_, _, c) := modeOf m i
    let v := h i
    round32 (c.1 * v.1 - c.2 * v.2) u2)
  let sum ← tree terms.length terms
  let dx ← round32 (val24 (m.d.getD ch 0) * x) u2
  let y ← add32 sum dx
  round24 (val32 y) u1

/-- One step of a layer in step mode: outputs and new blocks (R109 to R112). -/
def modalStep (m : Modal) (pos : Nat) (x : List Fp24) (bs : List BfBlock) : Arith (List Fp24 × List BfBlock) := do
  let xv := x.map val24
  let bs ← ((List.range bs.length).zip bs).mapM (fun p => stepBlock m xv p.1 p.2)
  let ys ← (List.range m.d.length).mapM (fun ch => modalOut m (modeValue bs) (xv.getD ch 0) ch)
  let bs ← if (pos + 1) % m.k = 0 then bs.mapM (renorm m.e0.toNat) else pure bs
  pure (ys, bs)

/-! ## Scan mode (R116 to R118) -/

/-- A complex fp32 number. -/
abbrev C32 := Fp32 × Fp32

/-- round32 of a complex exact value. -/
def roundC (re im : Int) (d : Nat) : Arith C32 := do
  let a ← round32 re d
  let b ← round32 im d
  pure (a, b)

/-- Exact complex product, then round32 per component. -/
def mulC (a b : C32) : Arith C32 :=
  let (ar, ai, br, bi) := (val32 a.1, val32 a.2, val32 b.1, val32 b.2)
  roundC (ar * br - ai * bi) (ar * bi + ai * br) u2

/-- combine of R118. -/
def combine (p q : C32 × C32) : Arith (C32 × C32) := do
  let a ← mulC q.1 p.1
  let t ← mulC q.1 p.2
  let v ← roundC (val32 t.1 + val32 q.2.1) (val32 t.2 + val32 q.2.2) u1
  pure (a, v)

/-- The levels of the scan, in Kogge-Stone order (R118). -/
def scanLevels : Nat → Nat → List (C32 × C32) → Arith (List (C32 × C32))
  | 0, _, xs => pure xs
  | fuel + 1, dist, xs =>
    if dist < xs.length then do
      let new ← (xs.zip (xs.drop dist)).mapM (fun p => combine p.1 p.2)
      scanLevels fuel (2 * dist) (xs.take dist ++ new)
    else pure xs

/-- The states of mode `i` over a segment, from state `g` (units of 2^-149). -/
def scanMode (m : Modal) (xs : List (List Int)) (i : Nat) (g : Int × Int) : Arith (List C32) := do
  let (l, b, _) := modeOf m i
  let lam : C32 ← roundC (l.1 * 2 ^ 126) (l.2 * 2 ^ 126) u1
  let elems ← xs.mapM (fun x => do
    let v ← roundC (b.1 * x.getD (i / m.modes) 0) (b.2 * x.getD (i / m.modes) 0) u2
    pure (lam, v))
  let ps ← scanLevels xs.length 1 elems
  ps.mapM (fun p =>
    let (ar, ai, vr, vi) := (val32 p.1.1, val32 p.1.2, val32 p.2.1, val32 p.2.2)
    roundC (ar * g.1 - ai * g.2 + vr * u1) (ar * g.2 + ai * g.1 + vi * u1) u2)

/-- Convert a block's last states to BF-state from its exponent at the segment's start, then lower it (R118). -/
def scanBlock (m : Modal) (b : BfBlock) (last : List C32) : Arith BfBlock := do
  let s := last.map (fun h => (val32 h.1 * 2 ^ unitBits, val32 h.2 * 2 ^ unitBits))
  let b ← settleBlock b.e s
  renorm m.e0.toNat b

/-- A segment of a layer in scan mode: outputs of every step and the new blocks (R118). `lead` says that the layer is its
unit's first, which alone counts the segment of the stage (R116, Table 5.6). -/
def scanSegment (m : Modal) (lead : Bool) (xs : List (List Fp24)) (bs : List BfBlock) : Arith (List (List Fp24) × List BfBlock) := do
  let xv := xs.map (fun x => x.map val24)
  let hs ← (List.range (16 * bs.length)).mapM (fun i => scanMode m xv i (modeValue bs i))
  count (fun c => { c with steps := c.steps + bs.length * xs.length, segs := c.segs + b2n lead })
  let value := fun k i => match (hs.getD i [])[k]? with
    | some h => (val32 h.1, val32 h.2)
    | none => (0, 0)
  let ys ← ((List.range xs.length).zip xv).mapM (fun p =>
    (List.range m.d.length).mapM (fun ch => modalOut m (value p.1) (p.2.getD ch 0) ch))
  let bs ← ((List.range bs.length).zip bs).mapM (fun p =>
    scanBlock m p.2 ((List.range 16).map (fun j => (hs.getD (16 * p.1 + j) []).getLast?.getD (0, 0))))
  pure (ys, bs)

end Sys2Proof.Machine
end

