-- ==== Sys2Proof/Machine/Stages.lean ====
section
/-! DEFINITION. What a stage does with one token: the slices of state it takes from the pitch and gives back (R96, R99),
the operations of chapters 5 to 8 and their counts, the token stage, the context cache, a voice's hot part, and the egress
stage. -/

namespace Sys2Proof.Machine

/-! ## State slices in the pitch (R96, R107, R134, R138) -/

/-- A stored BF-state block (Table 5.2); none where byte 65 is not 0 (R107). -/
def blockOf (b : List Byte) : Option BfBlock :=
  if lfld b 65 1 = 0 then
    some { e := lfld b 64 1, m := (List.range 16).map (fun j => (int16At b (4 * j), int16At b (4 * j + 2))) }
  else none

/-- A block as stored. -/
def blockBytes (b : BfBlock) : List Byte :=
  b.m.flatMap (fun p => intBytes 2 p.1 ++ intBytes 2 p.2) ++ [BitVec.ofNat 8 b.e, 0]

/-- Stored fp24 values, `width` to a step; none where R151 forbids one. -/
def stepsOf (width count : Nat) (b : List Byte) : Option (List (List Fp24)) :=
  let vs := (List.range (width * count)).map (fun i => fp24At b (3 * i))
  if vs.all ok24 then some (pieces width count vs) else none

/-- Steps of fp24 values as stored. -/
def stepBytes (h : List (List Fp24)) : List Byte := h.flatten.flatMap (fun v => leBytes 3 v.toNat)

/-- The initial slice of an operation (R99, R108, R133, R138). (DEDUCED, log 38) -/
def initSlice : LayerOp → Slice
  | .modal m _ _ _ => { blocks := List.replicate (modalBlocks m) (initBlock m.e0.toNat) }
  | .conv d _ _ _ _ _ _ => { hist := List.replicate (histSteps d) (List.replicate (d.cIn * d.inF) 0) }
  | .upsample d _ _ _ _ _ _ => { tail := List.replicate (d.kT - d.upT) (List.replicate d.cOut 0) }
  | _ => {}

/-- Where an operation's slice begins in the state section (R225). -/
def sliceOff : LayerOp → Nat
  | .modal _ _ off _ => off
  | .conv _ _ _ _ _ _ off => off
  | .upsample _ _ _ _ _ _ off => off
  | _ => 0

/-- An operation's slice from its stored bytes; none where they are corrupt (R107, R151). -/
def sliceOf (o : LayerOp) (b : List Byte) : Option Slice :=
  match o with
  | .modal m _ _ _ =>
    let bs := (List.range (modalBlocks m)).map (fun i => blockOf ((b.drop (66 * i)).take 66))
    if bs.all Option.isSome then some { blocks := bs.filterMap id } else none
  | .conv d _ _ _ _ _ _ => (stepsOf (d.cIn * d.inF) (histSteps d) b).map (fun h => { hist := h })
  | .upsample d _ _ _ _ _ _ => (stepsOf d.cOut (d.kT - d.upT) b).map (fun t => { tail := t })
  | _ => some {}

/-- A slice's bytes. -/
def sliceBytes (x : Slice) : List Byte := x.blocks.flatMap blockBytes ++ stepBytes x.hist ++ stepBytes x.tail

/-- Key of a slice in its row. -/
def sliceKey (op n : Nat) : Nat := op * 2 ^ 18 + n

/-- Key of a slice's first byte in the pitch (R225, R231). -/
def sliceAddr (pitch off : Nat) : Nat := pitchAddr pitch + 256 + off

/-- A stateful operation's slice for a token: at a reset the initial state, at the quire's first step from the pitch, else
the one at hand (R96, R99). None where the pitch is corrupt. A slice that a reset on the first step discards is not read,
so that no byte of it can be corrupt: the spec does not say whether R107 is still checked there. (DEDUCED, log 38; DESIGN
CHOICE, log 136) -/
def State.fetchSlice (s : State) (r op : Nat) (o : LayerOp) (t : Tok) : Option Slice :=
  if t.reset then some { initSlice o with seg := (tget ({} : Slice) (s.row r).slices (sliceKey op t.stream)).seg }
  else if t.first then sliceOf o (mread s.mem (sliceAddr (s.stream t.stream).pitch (sliceOff o)) (sliceSize o))
  else some (tget {} (s.row r).slices (sliceKey op t.stream))

/-- Keep a slice for the next step, or after the quire's last step write it to the pitch (R96), which signals the barrier that holds the
folio's write-out (R204). (DESIGN CHOICE, log 58) -/
def State.keepSlice (s : State) (r op : Nat) (o : LayerOp) (t : Tok) (x : Slice) : State :=
  let s := s.modRow r (fun w => { w with slices := tset {} w.slices (sliceKey op t.stream) (if t.last then {} else x) })
  if t.last then
    let s := { s with mem := mwrite s.mem (sliceAddr (s.stream t.stream).pitch (sliceOff o)) (sliceBytes x) }
    (s.modStream t.stream (fun x => { x with quire := x.quire.map (fun q => { q with backs := q.backs + 1 }) })).signalSys
      (20 + t.stream % 4) r
  else s

/-! ## Counting a computation -/

/-- Add a computation's events to the counters of its press and of its recurrence unit. -/
def State.tally (s : State) (press : Nat) (ru : Option Nat) (c : Cnt) : State :=
  let n := fun (x : Nat) => BitVec.ofNat 48 x
  let s := s.modPress press (fun p => { p with
    dead := p.dead + n c.dead, kettle := p.kettle + n c.kettle, cmapRaw := p.cmapRaw + n c.cmapRaw,
    cmapOut := p.cmapOut + n c.cmapOut, qsat := p.qsat + n c.qsat, osat := p.osat + n c.osat, fsat := p.fsat + n c.fsat,
    flush := p.flush + n c.flush, weigh := p.weigh + n c.weigh, rngBlocks := p.rngBlocks + n c.blocks,
    rngSround := p.rngSround + n c.sround, rngDither := p.rngDither + n c.dither, rngGumbel := p.rngGumbel + n c.gumbel })
  match ru with
  | none => s
  | some u => s.modRecUnit (4 * press + u) (fun r => { r with
      steps := r.steps + n c.steps, grow := r.grow + n c.grow, renorm := r.renorm + n c.renorm, sat := r.sat + n c.sat,
      resets := r.resets + n c.resets, segs := r.segs + n c.segs })

/-- The recurrence unit a stage uses (Table 18.2). -/
def Stage.recUnit (g : Stage) : Option Nat := (g.units.find? (fun u => decide (4 ≤ u ∧ u < 8))).map (· - 4)

/-- The platen a stage uses (Table 18.2). -/
def Stage.platen (g : Stage) : Nat := (g.units.find? (fun u => decide (u < 4))).getD 0

/-- The scale banks that the placement assigns to the tiles of operation `op` of a row (R162). A tile for which it names none
takes bank t mod 16. (DESIGN CHOICE, log 138) -/
def Row.bankOf (w : Row) (k op tile : Nat) : Nat :=
  ((((w.banks.find? (fun x => decide (x.1 = k ∧ x.2.1 = op))).map (·.2.2)).getD [])[tile]?).getD tile % 16

/-- A layer on a platen stage loads the banks of its tiles, each with the scales of the tile's 128 output channels (R162). The
vector units have no banks. (DESIGN CHOICE, log 138) -/
def State.loadBanks (s : State) (press r k op : Nat) (g : Stage) (scales : List Fp24) : State :=
  if scales = [] ∨ g.kind ≠ 1 then s
  else
    let w := s.row r
    let at_ := fun (i : Nat) => g.platen * 2048 + 128 * w.bankOf k op (i / 128) + i % 128
    s.modPress press (fun p => { p with
      scales := ((List.range scales.length).zip scales).foldl (fun t x => tset 0 t (at_ x.1) x.2) p.scales })

/-! ## Length regulation and table lookups (R25, R31) -/

/-- The token of a chunk that frame `k` of it falls in, with the frame's index within the token. -/
def tokenAt : List FToken → Nat → Option (FToken × Nat)
  | [], _ => none
  | t :: ts, k => if k < t.duration.toNat then some (t, k) else tokenAt ts (k - t.duration.toNat)

/-- The token of a frame. -/
def featureAt : List HeldChunk → Nat → Option (FToken × Nat)
  | [], _ => none
  | c :: cs, f => if f < c.frame0 + frames c.tokens then (if c.frame0 ≤ f then tokenAt c.tokens (f - c.frame0) else none) else featureAt cs f

/-- The number of the token that frame `k` of a chunk falls in. -/
def tokenNo : List FToken → Nat → Nat
  | [], _ => 0
  | t :: ts, k => if k < t.duration.toNat then 0 else tokenNo ts (k - t.duration.toNat) + 1

/-- The key of the feed buffer that holds a frame's token (R244). -/
def bufferAt (n : Nat) (cs : List HeldChunk) (f : Nat) : Option Nat :=
  (cs.find? (fun c => decide (c.frame0 ≤ f ∧ f < c.frame0 + frames c.tokens))).bind (fun c =>
    if c.floor then some (floorKey n)
    else (c.bufs[tokenNo c.tokens (f - c.frame0) / 32 - c.freed]?).map (fun b => sharedKey b.1 b.2))

/-- The pitch value of frame `k` of a token (R31). -/
def framePitch (t : FToken) (k : Nat) : Nat :=
  if t.pitch0 = 0xFFFF#16 then 0xFFFF
  else ((t.pitch0.toNat : Int) + ((t.pitch1.toNat : Int) - t.pitch0.toNat) * (2 * k + 1) / (2 * t.duration.toNat)).toNat

/-- What a frame hands to the model: phone, pitch, energy, emphasis, cond_a, cond_b, flags (R30, R31). (DESIGN CHOICE, log 15) -/
def frameFeatures (t : FToken) (k : Nat) : List Nat :=
  [t.phone.toNat, framePitch t k, t.energy.toNat, t.emphasis.toNat, t.condA.toNat, t.condB.toNat, t.flags.toNat]

/-- The offsets of the fp24 entries of an image's tables, one behind another. -/
def entryOffs (c : List Byte) : List Nat :=
  (Config.imageMap c).tables.flatMap (fun t => (List.range t.2).map (fun i => t.1 + 3 * i))

/-- Where the entries of a voice's tables lie in the weight region, the base's first; each says whether it is the adapter's. -/
def State.entryAddrs (s : State) (v : Voice) : List (Nat × Bool) :=
  (entryOffs (canonical (s.basePackage v))).map (fun o => ((s.baseOf v).addr + o, false)) ++
    (entryOffs (canonical (s.lib v.entry).bytes)).map (fun o => (v.addr + o, true))

/-- The entries of its voice's tables that a frame looks up. -/
def State.lookups (s : State) (v : Voice) (f : FToken) (k : Nat) : List (Nat × Bool) :=
  let all := s.entryAddrs v
  (Config.tableIndex (canonical (s.basePackage v)) (canonical (s.lib v.entry).bytes) (frameFeatures f k)).filterMap (fun i => all[i]?)

/-! ## Draws and rows -/

/-- The draw of an operation at a position of a token's stream (R172, R173). -/
def State.drawOf (s : State) (t : Tok) (pos op use : Nat) : Draw :=
  let x := s.stream t.stream
  { key := genKey x.seed x.origin, pos := pos, op := op, use := use }

/-- Operation 6 of R122: a row is weighed where its layer's output takes a weigh pass, for the layer that reads it. A
convolution weighs its window instead, which is then that pass (R135, R157). -/
def weighOut (weigh sround : Bool) (next : Option (List Nat × Bool)) (d : Draw) (t : Tok) : Arith Tok :=
  match weigh, next with
  | true, some (_, true) => pure { t with row := none }
  | true, n => do
    let r ← weighRow t.val t.chans ((n.map Prod.fst).getD []) (if sround then some d else none)
    pure { t with row := some r }
  | false, _ => pure { t with row := none }

/-- The int8 row a layer reads: the one its producer weighed. A vector that no producer has weighed is weighed, by rna, by the
layer that reads it, and its press counts the pass: that of the table lookups, of a layer whose record has weigh = 0, and of
a pooling, a reduction, a layer of modes or a context step that no finish follows. (DESIGN CHOICE, log 134) -/
def rowOf (t : Tok) (outs : List Nat) : Arith QRow :=
  match t.row with
  | some r => pure r
  | none => weighRow t.val t.chans outs none

/-- Replace the values from index `lo` on. -/
def patch (vs : List Fp24) (lo : Nat) (ys : List Fp24) : List Fp24 := vs.take lo ++ ys ++ vs.drop (lo + ys.length)

/-! ## The operations -/

/-- The stateless operations on a token's values: `d` gives the draw of an operation and use, `next` is what the layer that
reads the result reads. A paired gate on the return port takes its first operands from the return held before it; where none is
held, the token's own row is the two returns, v in its first half and g in its second, as a layer of modes leaves the y of a
block and its gate tiles (R124). A sampler whose index lies beyond its 256-entry table gives sample 0. (DESIGN CHOICE, logs 152, 161) -/
def stateless (d : Nat → Nat → Draw) (next : Option (List Nat × Bool)) (o : LayerOp) (t : Tok) : Arith Tok :=
  match o with
  | .matmul q w bias residual rng => do
    let r ← rowOf t q.outliers
    let v ← finishArray q r.s bias (w.map (dot r))
    let v ← addResidual residual t.res v
    weighOut q.weigh q.sround next (d rng 0) { t with val := v, row := none, chans := 0 }
  | .finish q bias residual rng => do
    let vs := if paired q.gate then t.held ++ t.val else t.val
    let v ← ((List.range vs.length).zip vs).mapM (fun p => addBias bias p.1 p.2)
    let half := if t.held = [] then vs.length / 2 else t.held.length
    let v ← if paired q.gate then gateTiles q.gate [v.take half, v.drop half] else v.mapM (gate1 q.gate)
    let v ← addResidual residual t.res v
    weighOut q.weigh q.sround next (d rng 0) { t with val := v, row := none, held := [] }
  | .hold => pure { t with held := t.val }
  | .keep => pure { t with res := t.val }
  | .pool p _ => do
    let v ← poolStep p t.val
    pure { t with val := v, row := none, chans := p.cIn }
  | .reduce kind => do
    let v ← reduceTree kind t.val
    pure { t with val := [v], row := none, chans := 0 }
  | .dither q rng => do
    let v ← ditherStep q (d rng 1) t.chans t.val
    pure { t with val := v, row := none }
  | .argmax p => pure { t with sample := argmax ((t.val.take p.cIn).map val24) }
  | .sampler p table rng => do
    let i ← sampleStep (d rng 2) (t.val.take p.cIn)
    pure { t with sample := table.getD i 0 }
  | _ => pure t

/-- A token that leaves an operation, its operation index moved on. -/
def Tok.advance (t : Tok) : Tok := { t with next := t.next + 1 }

/-- The token computes nothing: it is void, or its stream has left the row (R100, R76). -/
def Tok.dead (t : Tok) : Bool := t.void || t.gone

/-- The sample tokens of a frame token (R84, R96): the first carries the frame's reset bit and, with the last, the
quire's ends. -/
def sampleToks (t : Tok) (hop : Nat) (vals : List (List Fp24)) : List Tok :=
  (List.range hop).map (fun i =>
    { t.advance with pos := t.pos * hop + i, frame := false, reset := t.reset && decide (i = 0),
                     first := t.first && decide (i = 0), last := t.last && decide (i + 1 = hop),
                     val := vals.getD i [], row := none, held := [], res := [], chans := 0 })

/-- Count a reset a recurrence unit applied, once for the layers it runs (Table 5.6). -/
def noteReset (lead : Bool) (t : Tok) : Arith Unit :=
  if lead && t.reset then count (fun c => { c with resets := c.resets + 1 }) else pure ()

/-- A layer of modes on a token: in step mode one step, in scan mode the whole segment once it is complete, which `ends`
says (R109, R116, R121). -/
def modalOp (scan ends : Bool) (m : Modal) (lo : Nat) (lead : Bool) (t : Tok) (x : Slice) : Arith (List Tok × Slice) := do
  let part := fun (u : Tok) => (u.val.drop lo).take m.d.length
  noteReset lead t
  if !scan then do
    let r ← modalStep m t.pos (part t) x.blocks
    pure ([{ t.advance with val := patch t.val lo r.1, row := none, chans := 0 }], { x with blocks := r.2 })
  else if ends then do
    let toks := x.seg ++ [t]
    let r ← scanSegment m lead (toks.map part) x.blocks
    pure ((toks.zip r.1).map (fun p => { p.1.advance with val := patch p.1.val lo p.2, row := none, chans := 0 }), { x with blocks := r.2, seg := [] })
  else pure ([], { x with seg := x.seg ++ [t] })

/-- A convolution on a token: its outputs through operations 5 and 6, its history moved on, and its compressed rows (R122,
R128 to R137, R145). -/
def convOp (platen : Bool) (d : Nat → Nat → Draw) (next : Option (List Nat × Bool)) (desc : OpDesc) (q : Quant) (w : List (List Int))
    (bias : List Fp24) (residual : Bool) (rng : Nat) (t : Tok) (x : Slice) : Arith (Tok × Slice × Kept8) := do
  let (outs, kept) ← convStep desc q w bias platen x.hist t.val
  let v ← addResidual residual t.res outs.flatten
  let u ← weighOut q.weigh q.sround next (d rng 0) { t.advance with val := v, row := none, chans := if paired q.gate then desc.cOut / 2 else desc.cOut }
  pure (u, { x with hist := (x.hist ++ [t.val]).drop (x.hist.length + 1 - histSteps desc) }, kept)

/-- A transposed convolution on a frame token: its samples through operations 3 to 6 of R122, the new tail (R138), and its
compressed row. `d` gives the draw of a sample position. A residual adds the frame token's section buffer to every sample of
the frame: the spec names none for samples. (DESIGN CHOICE, log 153) -/
def upOp (d : Nat → Draw) (next : Option (List Nat × Bool)) (desc : OpDesc) (q : Quant) (w : List (List Int)) (bias : List Fp24)
    (residual : Bool) (t : Tok) (x : Slice) : Arith (List Tok × Slice × Kept8) := do
  let r ← rowOf t []
  let recs ← upRecord desc r
  let (outs, tail) ← upStep desc q w bias x.tail r
  let outs ← outs.mapM (addResidual residual t.res)
  let us ← (sampleToks t desc.upT outs).mapM (fun u => weighOut q.weigh q.sround next (d u.pos) u)
  pure (us, { x with tail := tail }, { recs := recs })

/-- What a stateful operation leaves: the tokens, the slice after the step, and what goes to press memory. -/
structure Stepped where
  outs : List Tok
  slice : Slice
  kept : Kept8 := {}

/-- A stateful operation on a token with its slice. `scan` is the stream's mode, `ends` whether a segment ends with the
token. -/
def statefulStep (platen scan ends : Bool) (d : Nat → Nat → Nat → Draw) (next : Option (List Nat × Bool)) (o : LayerOp) (t : Tok)
    (x : Slice) : Arith Stepped :=
  match o with
  | .modal m lo _ lead => do
    let r ← modalOp scan ends m lo lead t x
    pure ⟨r.1, r.2, {}⟩
  | .conv desc q w bias residual rng _ => do
    let (u, y, kept) ← convOp platen (d t.pos) next desc q w bias residual rng t x
    pure ⟨[u], y, kept⟩
  | .upsample desc q w bias residual rng _ => do
    let r ← upOp (fun p => d p rng 0) next desc q w bias residual t x
    pure ⟨r.1, r.2.1, r.2.2⟩
  | _ => pure ⟨[t.advance], x, {}⟩

/-- The scales a layer loads into its platen's banks (R162). -/
def scalesOf : LayerOp → List Fp24
  | .matmul q _ _ _ _ => q.scales
  | .conv _ q _ _ _ _ _ => q.scales
  | .upsample _ q _ _ _ _ _ => q.scales
  | _ => []

/-- The step after a token's, on its grid, starts a new scan segment (R116, R117). -/
def State.segmentEnds (s : State) (t : Tok) : Bool :=
  let x := s.stream t.stream
  let hop := max 1 t.hop
  let placed := ((x.quire.map (·.marks)).getD [] ++ x.marks).map (· / hop)
  let next := t.pos + 1
  let f := if t.frame then next else next / hop
  t.last || ((t.frame || decide (next % hop = 0)) && scanBoundary (s.voice x.voice).scanFrames (x.lastMark / hop) placed f)

/-! ## A token in its row -/

/-- The operation that a row's operation is for a voice whose hot part its cache holds (R25). (DEDUCED, log 139) -/
def Row.opFor (w : Row) (voice : Nat) (o : LayerOp) : LayerOp := fillOp (tget ({} : Hot) w.cache voice).ops o

/-- What the layer behind operation `i` reads, for a voice. -/
def Row.nextReads (w : Row) (voice i : Nat) : Option (List Nat × Bool) :=
  consumerOf ((w.prog.drop (i + 1)).map (fun o => w.opFor voice o.2))

/-- The stage key of operation `i` of a row's program. (DEDUCED, log 35) -/
def Row.opStage (w : Row) (i : Nat) : Option Nat := (w.prog[i]?).map (fun o => 16 * w.cfg.first + o.1)

/-- A token as its stream and stall now stand: void since its stall was torn (R100), or gone since its stream left the row.
(DEDUCED, log 118) -/
def State.refresh (s : State) (t : Tok) : Tok :=
  { t with void := t.void || decide ((s.stall t.stall).st = .torn), gone := t.gone || (s.stream t.stream).quire.isNone }

/-- The egress stage: a sample token writes its sample; a frame's last sample, or a frame token, ends the frame's flight;
the quire's last token marks the quire (R92, R96, R248). -/
def State.egressTok (s : State) (r : Nat) (t : Tok) : State :=
  let s := if t.dead then s else s.writeSample t.stream t.pos t.sample
  let s := if t.last ∧ ¬t.dead then
      (s.modStream t.stream (fun x => { x with quire := x.quire.map (fun q => { q with left := true }) })).modEgr t.stream
        (·.settleFloor (s.stream t.stream).staged)
    else s
  if t.frame ∨ t.pos % max 1 t.hop = t.hop - 1 then s.modRow r (fun w => { w with inflight := w.inflight - 1 }) else s

/-- A dead token passes an operation without computing (R100): a frame token still becomes its sample tokens, and a scan
segment it ends is let go with it. -/
def State.passDead (s : State) (r : Nat) (o : LayerOp) (t : Tok) : State × List Tok :=
  let key := sliceKey t.next t.stream
  let seg := (tget ({} : Slice) (s.row r).slices key).seg
  let s := if stateful o then s.modRow r (fun w => { w with slices := tdel w.slices key }) else s
  match o with
  | .upsample d _ _ _ _ _ _ => (s, sampleToks t d.upT [])
  | _ => (s, (seg.map (fun u => { u.advance with void := t.void, gone := t.gone })) ++ [t.advance])

/-- An uncorrectable word of an image in the weight region has been read by a step on a press: an adapter's tears its stall, a
base's faults the stream whose step read it (Table 10.5). -/
def State.imageUe (s : State) (press : Nat) (t : Tok) (a : Nat × Bool) : State :=
  let s := s.readSpan a.1 3 (some t.stall) (some t.stream)
  if a.2 then s.tearStall t.stall .dataError else s.faultStream t.stream .dataError 0 press

/-- Take a run of bytes, start and end, out of a list of runs. -/
def cutRuns (runs : List (Nat × Nat)) (lo hi : Nat) : List (Nat × Nat) :=
  runs.flatMap (fun r => [(r.1, min r.2 lo), (max r.1 hi, r.2)].filter (fun x => decide (x.1 < x.2)))

/-- A reset clears every entry of the context cache (R72, R99): those of an operation's window when the token reaches the
operation, and those that no window of the row's program holds with the token stage. -/
def State.clearRest (s : State) (r : Nat) (t : Tok) : State :=
  let wins := (s.row r).prog.filterMap (fun o => match o.2 with | .context off len => some (off, len) | _ => none)
  let rest := wins.foldl (fun l w => cutRuns l w.1 (w.1 + w.2)) [(0, (s.row r).coldBytes)]
  forEach (fun s (x : Nat × Nat) => s.bulkInit (folioAddr t.stream + Config.hotBytes + x.1) (x.2 - x.1) []) rest s

/-- The token stage's operation: the entries of the voice's tables that the frame looks up (R25, R31), brought by the press's porter
(Table 9.1). -/
def State.tokenOp (s : State) (press r : Nat) (t : Tok) : State × List Tok :=
  let s := if t.reset then s.clearRest r t else s
  let x := s.stream t.stream
  let v := s.voice t.voice
  match featureAt x.chunks t.pos with
  | none => (s, [t.advance])
  | some (f, k) =>
    let es := s.lookups v f k
    match es.find? (fun a => s.anyPoison a.1 3) with
    | some a =>
      let s := s.imageUe press t a
      s.passDead r .token (s.refresh t)
    | none =>
      (forEach (fun s (a : Nat × Bool) => (s.readSpan a.1 3 (some t.stall) (some t.stream)).countMove press 7 a.1 3) es s,
       [{ t.advance with val := es.map (fun a => BitVec.ofNat 24 (leNat (mread s.mem a.1 3))), chans := 0 }])

/-- The recto half that operation `op` of a row reads on a press, where the program names a pair (R205). -/
def State.rectoOf (s : State) (press r op : Nat) : Option Nat :=
  ((s.row r).reads.find? (fun x => decide (x.1 / 16 = press ∧ x.2.1 = op))).map
    (fun x => halfAddr press x.2.2 (b2n (tget ({} : Pair) (s.press press).pairs x.2.2).recto))

/-- What an operation reads through the recto of its pair: the bytes stand there when the step takes them. No placement changes
a computed bit (R17, R33), so that what a fill has brought is the step's own data. (DESIGN CHOICE, log 151) -/
def State.throughRecto (s : State) (press r op : Nat) (bs : List Byte) : State × List Byte :=
  match s.rectoOf press r op with
  | some a =>
    let m := mwrite s.mem a bs
    ({ s with mem := m }, mread m a bs.length)
  | none => (s, bs)

/-- The number of context operations before operation `i` of a row's program: a context step's logical index, the same in every
placement (R17). -/
def Row.contextIndex (w : Row) (i : Nat) : Nat :=
  ((w.prog.take i).filter (fun o => match o.2 with | .context _ _ => true | _ => false)).length

/-- An fp24 value as the device produces it: never e = 255, and e = 0 only with fraction 0 (R151). -/
def legal24 (v : Fp24) : Fp24 :=
  let e := bits v.toNat 22 15
  if e = 255 then v - 0x008000#24 else if e = 0 then v &&& 0x800000#24 else v

/-- A step on a window of the context cache: a reset clears it first, for this token and those behind it (R99, R224). The
window is read from the folio's cold section, through the recto of the operation's pair where the program names one, and
goes back there, by the porter of the folio's die (R186). What the step computes is not stated: `Config.contextStep`.
(DESIGN CHOICE, logs 15, 151; DEDUCED, log 38) -/
def State.contextOp (s : State) (press r : Nat) (t : Tok) (off len : Nat) : State × List Tok :=
  let a := folioAddr t.stream + Config.hotBytes + off
  let e := 20 + t.stream % 4
  if ¬t.reset ∧ s.anyPoison a len then
    let s := (s.readSpan a len (some t.stall) (some t.stream)).faultStream t.stream .dataError 0 press
    s.passDead r (.context off len) { t with gone := true }
  else
    let w := if t.reset then List.replicate len 0 else mread s.mem a len
    let s := if t.reset then s else (s.readSpan a len (some t.stall) (some t.stream)).countMove e 7 a len
    let (s, w) := s.throughRecto press r t.next w
    let (w, v) := Config.contextStep (s.baseOf (s.voice t.voice)).hash ((s.row r).contextIndex t.next) w t.val
    ((s.bulkWrite a ((w ++ List.replicate len 0).take len)).countMove e 7 a len,
     [{ t.advance with val := v.map legal24, row := none, chans := 0 }])

/-- Input channels of an operation that may compress its rows. -/
def rowChannels : LayerOp → Nat
  | .conv d _ _ _ _ _ _ => d.cIn
  | .upsample d _ _ _ _ _ _ => d.cIn
  | _ => 0

/-- The compressed rows of a step go to press memory, tapped step by tapped step, position by position, one record's worst-case
room apart (R145). (DESIGN CHOICE, log 41) -/
def State.storeRecords (s : State) (press r : Nat) (o : LayerOp) (t : Tok) (recs : List (List Byte)) : State :=
  match (s.row r).maps.find? (fun x => decide (x.1 / 16 = press ∧ x.2.1 = t.next)) with
  | some (_, _, a) =>
    let put := fun (m : List Host.Cell) (x : Nat × List Byte) => mwrite m (addrWord 2 press (a + x.1 * recordRoom (rowChannels o))) x.2
    { s with mem := ((List.range recs.length).zip recs).foldl put s.mem }
  | none => s

/-- The rows of a step's gatherings come into the pair of its operation one after another, by turns into its recto and its verso
half (R136). (DESIGN CHOICE, log 151) -/
def State.storeBands (s : State) (press r op : Nat) (bands : List (List Byte)) : State :=
  match (s.row r).reads.find? (fun x => decide (x.1 / 16 = press ∧ x.2.1 = op)) with
  | some (_, _, i) =>
    let recto := b2n (tget ({} : Pair) (s.press press).pairs i).recto
    let put := fun (m : List Host.Cell) (x : Nat × List Byte) => mwrite m (halfAddr press i ((recto + x.1) % 2)) x.2
    { s with mem := ((List.range bands.length).zip bands).foldl put s.mem }
  | none => s

/-- What a step leaves in press memory: its compressed rows, its converted window where the placement keeps it, and the rows of
its gatherings in the pair that the operation reads (R136, R145). (DESIGN CHOICE, log 151) -/
def State.storeKept (s : State) (press r : Nat) (o : LayerOp) (t : Tok) (x : Kept8) : State :=
  let s := s.storeRecords press r o t x.recs
  let s := match (s.row r).wins.find? (fun w => decide (w.1 / 16 = press ∧ w.2.1 = t.next)) with
    | some (_, _, a) => { s with mem := mwrite s.mem (addrWord 2 press a) x.window }
    | none => s
  s.storeBands press r t.next x.bands

/-- A stateful operation on a token: its slice, the step, the counts, and the slice back. A corrupt slice faults the stream
(R107, R151). -/
def State.stateOp (s : State) (press r : Nat) (g : Stage) (o : LayerOp) (t : Tok) : State × List Tok :=
  match s.fetchSlice r t.next o t with
  | none =>
    let s := s.faultStream t.stream .dataError 0 press
    s.passDead r o { t with gone := true }
  | some x =>
    let (z, c) := (statefulStep (decide (g.kind = 1)) (s.stream t.stream).scan (s.segmentEnds t) (fun p => s.drawOf t p)
      ((s.row r).nextReads t.voice t.next) o t x).run {}
    (((s.tally press g.recUnit c).storeKept press r o t z.kept).keepSlice r t.next o t z.slice, z.outs)

/-- One operation on one token at a stage: the state after it and the tokens that leave it. (DEDUCED, log 38) -/
def State.opTok (s : State) (press r k : Nat) (g : Stage) (o : LayerOp) (t : Tok) : State × List Tok :=
  let t := s.refresh t
  if t.dead then s.passDead r o t
  else
    let s := s.loadBanks press r k t.next g (scalesOf ((s.row r).opFor t.voice o))
    match o with
    | .token => s.tokenOp press r t
    | .context off len => s.contextOp press r t off len
    | _ =>
      if stateful o then s.stateOp press r g o t
      else
        let (u, c) := (stateless (s.drawOf t t.pos) ((s.row r).nextReads t.voice t.next) ((s.row r).opFor t.voice o) t).run {}
        (s.tally press g.recUnit c, [u.advance])

/-- Take a token through the operations of stage `k` that follow one another, up to the egress stage's write. Gives the
tokens that leave them. (DEDUCED, log 35) -/
def State.runTok (press r k : Nat) (g : Stage) : Nat → State → Tok → State × List Tok
  | 0, s, t => (s, [t])
  | fuel + 1, s, t =>
    match (s.row r).prog[t.next]? with
    | none => (s, [t])
    | some (key, o) =>
      if 16 * (s.row r).cfg.first + key ≠ k ∨ o = .egress then (s, [t])
      else
        let (s, outs) := s.opTok press r k g o t
        outs.foldl (fun acc u =>
          let (s, a) := State.runTok press r k g fuel acc.1 u
          (s, acc.2 ++ a)) (s, [])

end Sys2Proof.Machine
end

