-- ==== Sys2Proof/Machine/Rows.lean ====
section
/-! DEFINITION. The row pipeline: the beats of the stages (chapter 4), what a sequencer core waits for (chapter 9), the
scheduler's steps on a row and on a stream, and row faults. -/

namespace Sys2Proof.Machine

/-! ## What a visit of a stage costs (R85 to R89, R121, R139, R140, R149, R162) -/

/-- The operations that a token which starts at operation `i` runs at stage `k`, each with how many times it does: an
upsampler makes up_t samples of a frame token. -/
def runOps (w : Row) (k : Nat) : Nat → Nat → Nat → List (Nat × Nat)
  | 0, _, _ => []
  | fuel + 1, i, n =>
    match w.prog[i]? with
    | some (_, o) =>
      if w.opStage i = some k then
        (i, n) :: runOps w k fuel (i + 1) (match o with | .upsample d _ _ _ _ _ _ => n * d.upT | _ => n)
      else []
    | none => []

/-- The operations of a visit of stage `k` by a beat: each with its number of tokens. -/
def visitOps (w : Row) (k : Nat) (beat : List Tok) : List (Nat × Nat) :=
  let all := beat.flatMap (fun t => runOps w k (w.prog.length - t.next) t.next 1)
  (all.map Prod.fst).eraseDups.map (fun i => (i, ((all.filter (fun x => decide (x.1 = i))).map Prod.snd).sum))

/-- The live taps of one step: pairs of output position and spatial tap that are not dead (R130). -/
def liveTaps (d : OpDesc) : Nat := (tapPairs d).length - deadTaps d

/-- Tile passes of a layer on a platen: of a matrix product (R149), of one step of a convolution with its dead taps skipped
(R130, R139), and of a frame of a transposed convolution (R138). (DESIGN CHOICE, log 166) -/
def tilesOf : LayerOp → Nat
  | .matmul q w _ _ _ => ceilDiv ((w.head?.map List.length).getD 0) (if q.int4 then 256 else 128) * ceilDiv w.length 128
  | .conv d _ _ _ _ _ _ => liveTaps d * d.taps * ceilDiv d.cIn 128 * (if d.g ≤ 128 then 1 else ceilDiv d.g 128)
  | .upsample d _ _ _ _ _ _ => d.kT * ceilDiv d.cIn 128 * ceilDiv d.cOut 128
  | _ => 0

/-- Complex elements that a layer of modes steps. -/
def elements : LayerOp → Nat
  | .modal m _ _ _ => m.d.length * m.modes
  | _ => 0

/-- The least `k` with 2^k not below `n`. -/
def clog2 (n : Nat) : Nat := if n ≤ 1 then 0 else Nat.log2 (n - 1) + 1

/-- Cycles of a token at a recurrence stage: ceil(E / 256), and in scan mode that many for each level (R85, R121). -/
def recCycles (scanSteps : Option Nat) (o : LayerOp) : Nat :=
  match scanSteps with
  | none => ceilDiv (elements o) 256
  | some l => ceilDiv (elements o) 256 * (clog2 l + 2)

/-- Busy cycles of `n` tokens in an operation. A tile pass of fewer than 16 cycles that loads a scale bank is extended to 16
(R162); a vector unit does 256 products a cycle (R140); what the spec gives no cost of takes the placement's. -/
def busyOf (g : Stage) (scanSteps : Option Nat) (n : Nat) (o : LayerOp) : Nat :=
  match o with
  | .matmul q _ _ _ _ => tilesOf o * (if q.channelScale then max n 16 else n)
  | .conv d q _ _ _ _ _ =>
    if g.kind = 1 then tilesOf o * (if q.channelScale then max n 16 else n)
    else n * ceilDiv (d.cOut * d.g * d.taps * liveTaps d) (256 * max 1 g.units.length)
  | .upsample _ q _ _ _ _ _ => tilesOf o * (if q.channelScale then max n 16 else n)
  | .modal _ _ _ _ => n * recCycles scanSteps o
  | .finish _ _ _ _ => 0
  | .hold => 0
  | .keep => 0
  | _ => g.cyc * n

/-- Channels of the row that a layer hands to its output stage: half of a paired gate's. -/
def rowWidth (q : Quant) (n : Nat) : Nat := if paired q.gate then n / 2 else n

/-- The layer operation is one of the array's, with its record's weigh bit and its row's channels. -/
def arrayLayer : LayerOp → Option (Bool × Nat)
  | .matmul q w _ _ _ => some (q.weigh, rowWidth q w.length)
  | .conv d q _ _ _ _ _ => some (q.weigh, rowWidth q d.cOut)
  | .upsample d q _ _ _ _ _ => some (q.weigh, rowWidth q d.cOut)
  | _ => none

/-- The output of the layer before operations `ops` takes a weigh pass further on: on the return port, or as the window of a
convolution (R122, R135). -/
def weighsLater : List LayerOp → Bool
  | .finish q _ _ _ :: os => q.weigh || weighsLater os
  | .conv _ _ _ _ _ _ _ :: _ => true
  | .matmul _ _ _ _ _ :: _ => false
  | .upsample _ _ _ _ _ _ _ :: _ => false
  | _ :: os => weighsLater os
  | [] => false

/-- H of Table 4.2 for a row of `chans` channels: one cycle more for each tile of the row past the eighth (R158). -/
def handoffCost (overlap weigh : Bool) (chans : Nat) : Nat :=
  (if overlap then 160 else 288) + if weigh then 140 + (ceilDiv chans 128 - 8) else 0

/-- Handoff cycles after operation `i` at stage `k`: H at each layer boundary of a stage that runs two layers or more (R89). -/
def Row.handoffOf (w : Row) (k i : Nat) : Nat :=
  let layers := (List.range w.prog.length).filter (fun j => decide (w.opStage j = some k) &&
    (match w.prog[j]? with | some o => (arrayLayer o.2).isSome | none => false))
  if layers.length < 2 then 0
  else match w.prog[i]? with
    | some o =>
      match arrayLayer o.2 with
      | some (wp, n) => handoffCost w.cfg.overlap (wp || weighsLater ((w.prog.drop (i + 1)).map Prod.snd)) n
      | none => 0
    | none => 0

/-! ## The recurrence loop (R85, R121) -/

/-- A recurrence unit's issue clock: the cycle it may issue at next, the steps issued so far with their cycles, and the idle
cycles inserted. -/
structure Issue where
  now   : Nat
  fired : List (Nat × Nat)
  loop  : Nat
  deriving DecidableEq, Repr

/-- Issue one step of `c` cycles of the state `key`: not before 96 ARCLK after its step before (R85). -/
def Issue.step (u : Issue) (key c : Nat) : Issue :=
  let start := match u.fired.find? (fun f => decide (f.1 = key)) with
    | some f => max u.now (f.2 + 96)
    | none => u.now
  { now := start + c, fired := (key, start) :: u.fired.filter (fun f => decide (f.1 ≠ key ∧ start < f.2 + 96)), loop := u.loop + (start - u.now) }

/-- The steps of a beat in step mode, layer by layer, token by token. -/
def Issue.beat (w : Row) (u : Issue) (ops : List (Nat × Nat)) (beat : List Tok) : Issue :=
  ops.foldl (fun u (i : Nat × Nat) => match w.prog[i.1]? with
    | some (_, .modal m lo off lead) =>
      beat.foldl (fun u t => u.step (sliceKey i.1 t.stream) (recCycles none (.modal m lo off lead))) u
    | _ => u) u

/-- Idle cycles of the segments of a beat in scan mode, of `ls` steps each: the segments issue each level in turn, so that one
segment's levels wait, at least 96 ARCLK apart, only for what the others leave of them (R86, R121). (DEDUCED, log 140) -/
def segmentsLoop (ls : List Nat) (c : Nat) : Nat :=
  ((List.range ((ls.map clog2).foldl max 0)).map (fun i => 96 - c * (ls.filter (fun l => decide (i < clog2 l))).sum)).sum

/-- Idle cycles of the segments that a beat's tokens end in scan mode. (DEDUCED, log 140) -/
def State.scanLoop (s : State) (r : Nat) (ops : List (Nat × Nat)) (beat : List Tok) : Nat :=
  let w := s.row r
  (ops.map (fun (i : Nat × Nat) => match w.prog[i.1]? with
    | some (_, .modal m lo off lead) =>
      segmentsLoop ((beat.filter s.segmentEnds).map (fun t => (tget ({} : Slice) w.slices (sliceKey i.1 t.stream)).seg.length + 1))
        (recCycles none (.modal m lo off lead))
    | _ => 0)).sum

/-- The base of a row is in scan mode (R38). -/
def State.rowScan (s : State) (r : Nat) : Bool :=
  match (s.row r).cfg.base with
  | some b => (s.base b).scan
  | none => false

/-- Steps of a whole segment on a token's grid, in scan mode (R121). -/
def State.scanSteps (s : State) (r : Nat) (t : Tok) : Option Nat :=
  match (s.row r).cfg.base with
  | some b => if (s.base b).scan then some ((s.base b).scanFrames * (if t.frame then 1 else t.hop)) else none
  | none => none

/-- Busy cycles of a visit in operation `i`. A place of the hot part costs what each voice's operation there costs (R25, R162). -/
def Row.busyAt (w : Row) (g : Stage) (k : Nat) (scanSteps : Option Nat) (beat : List Tok) (i : Nat × Nat) : Nat :=
  match w.prog[i.1]? with
  | some (_, .adapter j) =>
    ((beat.map (·.voice)).eraseDups.map (fun v =>
      let n := ((visitOps w k (beat.filter (fun t => decide (t.voice = v)))).filter (fun x => decide (x.1 = i.1))).map Prod.snd
      busyOf g scanSteps n.sum (w.opFor v (.adapter j)))).sum
  | some o => busyOf g scanSteps i.2 o.2
  | none => 0

/-- The cycles of a visit are owed to the stage's counters: busy and handoff, and for a recurrence unit the idle cycles of R85
or R121 (R102). (DESIGN CHOICE, log 39) -/
def State.charge (s : State) (r k : Nat) (ops : List (Nat × Nat)) (beat : List Tok) : State :=
  let w := s.row r
  let g := s.stage k
  let steps := beat.head?.bind (s.scanSteps r)
  let busy := (ops.map (w.busyAt g k steps beat)).sum
  let hand := (ops.map (fun i => w.handoffOf k i.1)).sum
  let u : Issue := { now := max g.issueAt (2 * s.now), fired := g.fired, loop := 0 }
  let v := if steps.isSome then { u with loop := s.scanLoop r ops beat } else u.beat w ops beat
  s.modStage k (fun g => { g with
    fired := v.fired, issueAt := v.now, oweBusy := g.oweBusy + busy, oweHand := g.oweHand + hand,
    oweLoop := g.oweLoop + if g.kind = 2 then v.loop else 0 })

/-! ## Beats (R81 to R84, R88) -/

/-- A beat out of a list: tokens in order, at most one of any stream, at most `b`, none behind the end of a sample beat
(R81, R84). Gives the beat and what waits on. -/
def takeBeat : Nat → List Nat → List Tok → List Tok × List Tok
  | _, _, [] => ([], [])
  | 0, _, ts => ([], ts)
  | b + 1, seen, t :: ts =>
    if seen.contains t.stream then
      let (x, y) := takeBeat (b + 1) seen ts
      (x, t :: y)
    else if t.cut then ([t], ts)
    else
      let (x, y) := takeBeat b (t.stream :: seen) ts
      (t :: x, y)

/-- What tells a token of a beat that is away: its stream, and its position with the admission that it belongs to. -/
def Tok.id (t : Tok) : Nat × Nat := (t.stream, t.pos + 2 ^ 48 * t.adm)

/-- Stage `k` has run an operation before index `i` of the row's program: a token that comes back to it is a section's
own beat returning, not a new one. -/
def Row.returns (w : Row) (k i : Nat) : Bool := (List.range i).any (fun j => decide (w.opStage j = some k))

/-- A token at operation `i` comes back to stage `k`, with no upsampler on its way. One that stands at an operation of the stage
itself, at the egress stage's write, is not away. -/
def Row.comesBack (w : Row) (k i : Nat) : Bool :=
  decide (w.opStage i ≠ some k) && match (w.prog.drop i).find? (fun o =>
      decide (16 * w.cfg.first + o.1 = k) || (match o.2 with | .upsample _ _ _ _ _ _ _ => true | _ => false)) with
  | some o => decide (16 * w.cfg.first + o.1 = k)
  | none => false

/-- The stage's verso has room for a token: it holds less than a beat, the token may join the beat, and the stage holds no
two beats of its section already: one away and one that waits in recto are two (R81, R82, R84). In scan mode the beats whose
tokens a recurrence stage holds to their segments' ends do not count (R121). (DEDUCED, logs 40, 155) -/
def Stage.accepts (g : Stage) (scan : Bool) (t : Tok) : Bool :=
  let waits := g.recto.any (fun u => !g.out.flatten.contains u.id)
  decide (g.verso.length < g.beat) && !g.verso.any (fun u => decide (u.stream = t.stream) || u.cut) &&
    (scan || decide (g.out.length + b2n (waits && !g.out.isEmpty) < 2))

/-- Hand one token of stage `k` on: to its own stage's next visit, to the verso of the next stage, or out of the row. None
where it has to wait (R82, R248). (DEDUCED, log 40) -/
def State.passTok (s : State) (r k : Nat) (t : Tok) : Option State :=
  match (s.row r).opStage t.next with
  | none => some (if t.frame then s.modRow r (fun w => { w with inflight := w.inflight - 1 }) else s)
  | some d =>
    if d = k then (if t.dead ∨ s.canWriteSample t.stream t.pos then some (s.egressTok r t) else none)
    else if (s.row r).returns d t.next then some (s.modStage d (fun g => { g with back := g.back ++ [t] }))
    else if (s.stage d).accepts (s.rowScan r) t then some (s.modStage d (fun g => { g with verso := g.verso ++ [t] }))
    else none

/-- Hand a computed beat on, token by token, until a full verso blocks it (R82). A sample that finds no egress buffer waits,
and the samples of other streams pass it. -/
def State.handOver (r k : Nat) : List Tok → List Tok → State → State
  | [], kept, s => s.modStage k (fun g => { g with recto := kept })
  | t :: ts, kept, s =>
    match s.passTok r k t with
    | some s => State.handOver r k ts kept s
    | none =>
      if (s.row r).opStage t.next = some k then State.handOver r k ts (kept ++ [t]) s
      else s.modStage k (fun g => { g with recto := kept ++ t :: ts })

/-- Mark the end of a sample beat. -/
def markCut : List Tok → List Tok
  | [] => []
  | [t] => [{ t with cut := true }]
  | t :: ts => t :: markCut ts

/-- The order in which a beat's tokens leave: groups of `b` streams, each group its tokens of one step after another. Of an
upsampler's beat each such step is a sample beat (R84). -/
def interleave (b : Nat) (up : Bool) (outs : List (List Tok)) : List Tok :=
  (pieces (max 1 b) outs.length outs).flatMap (fun grp =>
    (List.range (grp.foldl (fun m l => max m l.length) 0)).flatMap (fun j =>
      let beat := grp.filterMap (fun l => l[j]?)
      if up then markCut beat else beat))

/-- The beat size of the stage that operation `i` runs on. -/
def State.beatAt (s : State) (r i : Nat) : Nat :=
  match (s.row r).opStage i with
  | some d => (s.stage d).beat
  | none => 1

/-- Where a stage's next beat comes from. -/
inductive BeatFrom where
  | away | loose | issue | verso
  deriving DecidableEq, Repr

/-- The beat a stage takes next: its oldest beat that is away, once every token of it has come back (R88), else a beat of
tokens that came back one by one, else a new one: at the token stage of issued frame tokens under the in-flight limit
(R92), elsewhere what its neighbour has filled. (DEDUCED, log 40) -/
def State.pickBeat (s : State) (r k : Nat) : List Tok × BeatFrom :=
  let g := s.stage k
  let w := s.row r
  let ids := g.back.map Tok.id
  match g.out with
  | b :: _ => if b.all ids.contains then (g.back.filter (fun t => b.contains t.id), .away) else
      let l := (takeBeat g.beat [] (g.back.filter (fun t => !g.out.flatten.contains t.id))).1
      if l ≠ [] then (l, .loose) else (g.verso, .verso)
  | [] =>
    let l := (takeBeat g.beat [] g.back).1
    if l ≠ [] then (l, .loose)
    else if g.kind = 0 then ((takeBeat (min g.beat (1024 * w.cfg.presses - w.inflight)) [] w.issue).1, .issue)
    else (g.verso, .verso)

/-- Take a beat out of where it came from, into recto. -/
def State.takeBeatIn (s : State) (r k : Nat) (beat : List Tok) (src : BeatFrom) : State :=
  let ids := beat.map Tok.id
  let left := fun (l : List Tok) => l.filter (fun t => !ids.contains t.id)
  let s := s.modStage k (fun g => { g with recto := beat, cause := none })
  match src with
  | .away => s.modStage k (fun g => { g with back := left g.back, out := g.out.drop 1 })
  | .loose => s.modStage k (fun g => { g with back := left g.back })
  | .issue => s.modRow r (fun w => { w with issue := left w.issue, inflight := w.inflight + beat.length })
  | .verso => s.modStage k (fun g => { g with verso := [] })

/-! ## What a core waits for (R203, R205, R214, Table 9.8) -/

/-- Why the fill or the swap of pair `i` of press `p` has not happened: by the oldest incomplete descriptor that is to fill or
swap it, the first cause of Table 9.8 that holds (R214). One held behind a halted one counts as halted, one whose pair waits
for its swap as behind a SWAP, and one that R197 holds as in flight, since it waits for bytes that are. Where an earlier descriptor of
the queue has transfers left, it is that one which holds the queue (R196), and its pair or its page that counts. (DEDUCED, log 157) -/
def State.fillCause (s : State) (p i : Nat) : Cause :=
  let mine := fun (d : Desc) => (d.vfill && decide (unitOf d.dst.toNat = p ∧ bits d.opArg.toNat 5 0 = i)) ||
    (decide (d.op = 5 ∧ bits d.opArg.toNat 5 0 = i))
  let found := fun (e : Nat) => ((s.engine e).queues.flatMap (fun q => (q.2.descs.filter (fun x => mine x.d && (decide (x.d.op ≠ 5 ∨ e = p)))).map
    (fun x => (e, q.1, q.2, x)))).foldl (fun (m : Option (Nat × Nat × PQueue × QDesc)) x => match m with
      | none => some x
      | some y => if x.2.2.2.id < y.2.2.2.id then some x else some y) none
  match (p :: (List.range Config.nEngines).filter (· ≠ p)).findSome? found with
  | none => .queue
  | some (e, q, pq, x) =>
    let g := s.engine e
    let before := pq.descs.filter (fun y => decide (y.id < x.id))
    let first := ((before ++ [x]).find? (fun y => decide (y.d.op < 2) && !y.halted &&
      !before.any (fun z => z.halted && decide (z.id < y.id ∧ z.d.stream = y.d.stream)) && decide (s.nextPiece e y ≠ .finished))).getD x
    let page : Bool := match s.nextPiece e first with | .move a b _ => (s.needsPage first.d a b).isSome | _ => false
    if x.halted ∨ before.any (fun y => y.halted && decide (y.d.stream = x.d.stream)) ∨ (64 ≤ g.halts ∧ page) then .halt
    else if before.any (fun y => decide (y.d.op = 4)) then .barrier
    else if x.d.op = 5 ∨ before.any (fun y => decide (y.d.op = 2 ∨ y.d.op = 3 ∨ y.d.op = 5)) then .fence
    else if s.nextPiece e x = .finished then .flight
    else if s.fillWaits first.d then .fence
    else if pq.limit ≤ g.outstanding q then .limit
    else if (slotFor g e q pq x.d).isNone then .slot
    else if (s.issuable e g q [] pq.decoded).isSome then .arb
    else .flight

/-- The barrier waits of the operations of a visit: counter and count (R203). -/
def Row.barriers (w : Row) (k : Nat) (ops : List (Nat × Nat)) : List (Nat × Nat) :=
  (w.waits.filter (fun x => decide (x.1 = k) && (ops.map Prod.fst).contains x.2.1)).map (fun x => x.2.2)

/-- The buffer pairs whose recto the operations of a visit read (R205). -/
def Row.rectos (w : Row) (k : Nat) (ops : List (Nat × Nat)) : List Nat :=
  ((w.reads.filter (fun x => decide (x.1 = k) && (ops.map Prod.fst).contains x.2.1)).map (fun x => x.2.2)).eraseDups

/-- Some wait of a list has not been reached when the waits before it have taken their counts (R203). -/
def barsShort (bars : Tbl (BitVec 32)) : List (Nat × Nat) → Bool
  | [] => false
  | b :: l =>
    let v := tget (0 : BitVec 32) bars b.1
    decide (v.toNat < b.2) || barsShort (tset 0 bars b.1 (v - BitVec.ofNat 32 b.2)) l

/-- What a core still waits for before a visit, if anything. (DEDUCED, log 157) -/
def State.waitCause (s : State) (r press k : Nat) (ops : List (Nat × Nat)) : Option Cause :=
  let w := s.row r
  if barsShort (s.engine press).bars (w.barriers k ops) then some .barrier
  else ((w.rectos k ops).find? (fun i => !(tget ({} : Pair) (s.press press).pairs i).held)).map (s.fillCause press)

/-- What a visit moves to or from GDDR7, a context window or an entry it looks up, lies on a memory-edge die in reset: the move
waits, and the visit with it (R424). -/
def State.visitStopped (s : State) (r k : Nat) (beat : List Tok) : Bool :=
  !s.power.dieWait.isEmpty && (visitOps (s.row r) k beat).any (fun i =>
    match ((s.row r).prog[i.1]?).map Prod.snd with
    | some (.context off len) => beat.any (fun t => decide (s.stoppedGranules (folioAddr t.stream + Config.hotBytes + off) len ≠ []))
    | some .token => beat.any (fun t => match featureAt (s.stream t.stream).chunks t.pos with
        | some (f, j) => (s.lookups (s.voice t.voice) f j).any (fun a => decide (s.stoppedGranules a.1 3 ≠ []))
        | none => false)
    | _ => false)

/-- What a visit by a beat still waits for, if anything. -/
def State.visitCause (s : State) (r press k : Nat) (beat : List Tok) : Option Cause :=
  if s.visitStopped r k beat then some .flight else s.waitCause r press k (visitOps (s.row r) k beat)

/-- The core passes its barrier waits: each count is subtracted (R203). -/
def State.passBarriers (s : State) (press : Nat) (bs : List (Nat × Nat)) : State :=
  forEach (fun s (b : Nat × Nat) => s.modEngine press (fun g =>
    { g with bars := tset 0 g.bars b.1 (tget (0 : BitVec 32) g.bars b.1 - BitVec.ofNat 32 b.2) })) bs s

/-- The consumer releases the recto of a pair: a swap that waits for a full verso takes effect (R206). (DEDUCED, log 65) -/
def Pair.release (w : Pair) : Pair :=
  let w := { w with held := false }
  if w.req ∧ w.full then w.swap else w

/-- The core has read its rectos and releases them; swaps that its engine's queues wait for go on. (DEDUCED, log 65) -/
def State.releaseRectos (s : State) (press : Nat) (is : List Nat) : State :=
  if is = [] then s else (forEach (fun s i => s.modPair press i (·.release)) is s).passHeads press

/-! ## Errors of the memories that a step reads (R233, R238, R344) -/

/-- What a memory answered for a token's step: its feed buffer at the token stage, its pitch where a slice is taken from it,
else press memory: its voice's hot part, or what the step keeps there, of which an uncorrectable word is a row fault, a command of its
own (Tables 3.8, 10.5 and 15.1). (DEDUCED, log 141) -/
def State.noteAnswer (s : State) (press k : Nat) (ops : List LayerOp) (t : Tok) (a : MemAnswer) : State :=
  let n := t.stream
  let word := fun (d key : Nat) => if 0 < a.ues then s.noteUe key a.ues (some t.stall) (some n)
    else s.modDie d (fun x => { x with ce := x.ce + BitVec.ofNat 48 a.ces })
  let place := (s.stream n).pitch % 4096
  let pitch := pitchAddr (s.stream n).pitch
  if (s.stage k).kind = 0 then
    let key := (bufferAt n (s.stream n).chunks t.pos).getD (floorKey n)
    let s := word (dieOf key) key
    if 0 < a.ues then s.tearStall t.stall .dataError else s
  else if t.first ∧ ¬t.reset ∧ ops.any stateful then
    let s := word (dieOf pitch) pitch
    if 0 < a.ues then s.faultStream n .dataError (1 + dieOf pitch) place else s
  else if 0 < a.ues ∧ ops.any (fun o => match o with | .adapter _ => true | _ => false) then
    (s.memRecord 0 press 0 (some t.stall) (some n)).tearStall t.stall .dataError
  else if a.ues = 0 then s.modPress press (fun p => { p with memCe := p.memCe + BitVec.ofNat 48 a.ces })
  else s

/-- The memories' answers for the tokens of a beat. -/
def State.noteAnswers (s : State) (press r k : Nat) (beat : List Tok) (reads : List (Nat × MemAnswer)) : State :=
  forEach (fun s (t : Tok) =>
    match reads.find? (fun a => decide (a.1 = t.stream)) with
    | some a =>
      let t := s.refresh t
      let w := s.row r
      if t.dead then s
      else s.noteAnswer press k ((runOps w k (w.prog.length - t.next) t.next 1).filterMap (fun i => (w.prog[i.1]?).map Prod.snd)) t a.2
    | none => s) beat s

/-! ## BEAT -/

/-- Every token of a beat through the stage's operations, one after another. -/
def State.runBeat (s : State) (press r k : Nat) (beat : List Tok) : State × List (List Tok) :=
  let g := s.stage k
  let fuel := (s.row r).prog.length + 1
  beat.foldl (fun acc t =>
    let (s, a) := State.runTok press r k g fuel acc.1 t
    (s, acc.2 ++ [a])) (s, [])

/-- Compute a beat at stage `k`: what its core waited for is passed, every token runs, the cycles are charged, the beat is
handed on, the rectos it read are released, and its core writes the descriptors of its next visit. In scan mode a recurrence
stage itself awaits no beat: it holds tokens until their segments end (R121), and a token of the next layer reaches it only
once a stage before it has had its whole beat back (R88). (DESIGN CHOICE, log 149; DEDUCED, log 155) -/
def State.computeBeat (s : State) (press r k : Nat) (beat : List Tok) (reads : List (Nat × MemAnswer)) : State :=
  let w := s.row r
  let ops := visitOps w k beat
  let s := s.passBarriers press (w.barriers k ops)
  let s := s.charge r k ops beat
  let s := s.noteAnswers press r k beat reads
  let (s, outs) := s.runBeat press r k beat
  let outs := outs.map (fun l => l.map s.refresh)
  let up := beat.any (·.frame) && outs.any (fun l => l.any (fun t => !t.frame))
  let next := ((outs.flatten.head?).map (·.next)).getD 0
  let away := if s.rowScan r ∧ (s.stage k).kind = 2 then [] else (outs.flatten.filter (fun t => w.comesBack k t.next)).map Tok.id
  let s := s.modStage k (fun g => { g with
    recto := interleave (s.beatAt r next) up outs, out := if away = [] then g.out else g.out ++ [away] })
  let s := State.handOver r k (s.stage k).recto [] s
  (s.releaseRectos press (w.rectos k ops)).writeProgram r (fun x => decide (x = k))

/-- A row's pipeline runs: the row holds admitted quires. -/
def rowRuns (w : Row) : Bool := decide (w.st = .live) || decide (w.st = .draining)

/-- Why a stage that computes nothing waits for porter data now, if it does (R214). -/
def State.causeNow (s : State) (r k : Nat) : Option Cause :=
  let beat := (s.pickBeat r k).1
  if beat = [] then none else s.visitCause r (k / 16) k beat

/-- Every stage's cycles up to now are counted under the cause it had, where that is its cause no longer (R214). (DEDUCED, log
157) -/
def State.noteCauses (s : State) : State :=
  forEach (fun s k =>
    let g := s.stage k
    match g.row with
    | none => s
    | some r =>
      if ¬rowRuns (s.row r) ∨ g.recto ≠ [] ∨ s.causeNow r k = g.cause then s
      else (s.account k).modStage k (fun g => { g with cause := s.causeNow r k })) (tkeys s.stages) s

/-- The audit records accepted since the last program operation share the next one: their pages, 32 records each, are programmed
in both copies (R389, R450); the records that they displace go (R451). (DESIGN CHOICE, log 70) -/
def State.auditOut (s : State) : State :=
  if s.sec.auditSeq ≤ s.flash.auditDone ∨ ¬s.awake then s
  else
    let s' := forEach (fun s (_ : Nat) =>
      let key := auditData s.flash.auditPages
      let s := if s.flash.auditPages % blockPages = 0 then s.flashFree key else s
      (s.flashWrite key 2).modFlash (fun f => { f with auditPages := f.auditPages + 1 })) (List.range (ceilDiv (s.sec.auditSeq - s.flash.auditDone) 32)) s
    s'.modFlash (fun f => { f with auditDone := s.sec.auditSeq })

/-- One CTCLK cycle passes in which no command runs. Without power no cycle is counted, nor does flash age (R393, R394, R459). (DESIGN CHOICE, log 1) -/
def State.idle (s : State) : State :=
  if s.power.phase = .off ∨ s.power.phase = .tripped then s else { s.auditOut.noteCauses with now := s.now + 1 }

/-- A stage's next beat: none there, waiting for a porter or a barrier, or taken and computed. -/
def State.nextBeat (s : State) (press r k : Nat) (reads : List (Nat × MemAnswer)) : State :=
  let (beat, src) := s.pickBeat r k
  if beat = [] then s.modStage k (fun g => { g with cause := none })
  else match s.visitCause r press k beat with
    | some c => s.modStage k (fun g => { g with cause := some c })
    | none => (s.takeBeatIn r k beat src).computeBeat press r k beat reads

/-- BEAT: a stage hands on what it has computed, or closes a beat and computes it (R81 to R88). (DESIGN CHOICE, log 39) -/
def execBeat (press : Nat) (stage : StageVisit) (s : State) : Host.Outcome State Fault Refusal :=
  runSettled s (fun s =>
    let k := 16 * press + stage.stage
    match (s.stage k).row with
    | none => s
    | some r =>
      if ¬s.awake ∨ ¬rowRuns (s.row r) then s
      else
        let s := s.account k
        if (s.stage k).recto ≠ [] then State.handOver r k (s.stage k).recto [] s
        else s.nextBeat press r k stage.reads)

/-! ## The scheduler's steps -/

/-- STAGING: a row's scheduler stages one eligible stream (R93, R247). -/
def execStaging (row : Nat) (s : State) : Host.Outcome State Fault Refusal :=
  run s (fun s => if s.awake ∧ (s.row row).st = .live ∧ s.clerk.failed.isNone then s.stageOne row else s)

/-- STAGING_COMPLETE: the hot image has reached the pitch, as the row scheduler's barrier says, whose signal it takes; its header is
checked before the staging completes (R204, R227). -/
def execStagingComplete (stream : Nat) (s : State) : Host.Outcome State Fault Refusal :=
  runSettled s (fun s =>
    let x := s.stream stream
    let e := 16 + stream % 4
    let b := x.row.getD 0
    if s.awake ∧ x.staged ∧ x.copyIn = .done ∧ x.readyAt.isNone ∧ 1 ≤ (tget (0 : BitVec 32) (s.engine e).bars b).toNat then
      let s := s.takeBar e b 1
      if s.headerOk (pitchAddr x.pitch) x true then (s.modStream stream (fun x => { x with readyAt := some s.stamp })).tick
      else (s.modStream stream (fun x => { x with copyIn := .none })).faultStream stream .dataError (1 + x.pitch / 4096) (x.pitch % 4096)
    else s)

/-- ADMISSION: a row's scheduler admits the stream whose staging completed earliest (R94). -/
def execAdmission (row : Nat) (s : State) : Host.Outcome State Fault Refusal :=
  run s (fun s => if s.awake then s.admitOne row else s)

/-- QUIRE_END: the last step has left the last stage, and the stream goes to DRAINING (R65, R96). -/
def execQuireEnd (stream : Nat) (s : State) : Host.Outcome State Fault Refusal :=
  run s (fun s =>
    let x := s.stream stream
    match x.quire with
    | some q => if s.awake ∧ x.st = .resident ∧ q.left ∧ s.clerk.failed.isNone then s.quireEnd stream q else s
    | none => s)

/-- FOLIO_WRITTEN: the folio write-out is complete and the stream leaves DRAINING (R65). -/
def execFolioWritten (stream : Nat) (s : State) : Host.Outcome State Fault Refusal :=
  run s (fun s =>
    let x := s.stream stream
    if s.awake ∧ x.st = .draining ∧ x.copyOut = .done then s.folioWritten stream else s)

/-! ## Row faults (R345, R346) -/

/-- ROW_FAULT: a fault of press memory or of a stage unit on a press of the row (R346). (DEDUCED, log 59) -/
def execRowFault (row press : Nat) (s : State) : Host.Outcome State Fault Refusal :=
  run s (fun s => if s.awake ∧ s.pressRow press = some row then s.rowFault row press else s)

end Sys2Proof.Machine
end

