-- ==== Sys2Proof/Machine/Dispatch.lean ====
section
/-! DEFINITION. One arm for each command of the block: a direct call of its meaning. -/

namespace Sys2Proof.Machine

def exec (i : Instr) (s : State) : Host.Outcome State Fault Refusal :=
  match i with
  | .hello h body => Sys2Proof.Machine.execHello h body s
  | .resync h body => Sys2Proof.Machine.execResync h body s
  | .roleAssert h body => Sys2Proof.Machine.execRoleAssert h body s
  | .stallOpen h body => Sys2Proof.Machine.execStallOpen h body s
  | .stallClose h body => Sys2Proof.Machine.execStallClose h body s
  | .stallQuery h body => Sys2Proof.Machine.execStallQuery h body s
  | .stallLimits h body => Sys2Proof.Machine.execStallLimits h body s
  | .voiceLoad h body => Sys2Proof.Machine.execVoiceLoad h body s
  | .voiceUnload h body => Sys2Proof.Machine.execVoiceUnload h body s
  | .rowConfigure h body => Sys2Proof.Machine.execRowConfigure h body s
  | .streamOpen h body => Sys2Proof.Machine.execStreamOpen h body s
  | .streamFeed session c => Sys2Proof.Machine.execStreamFeed session c s
  | .streamMark h body => Sys2Proof.Machine.execStreamMark h body s
  | .streamPause h body => Sys2Proof.Machine.execStreamPause h body s
  | .streamResume h body => Sys2Proof.Machine.execStreamResume h body s
  | .streamEnd h body => Sys2Proof.Machine.execStreamEnd h body s
  | .streamPark h body => Sys2Proof.Machine.execStreamPark h body s
  | .streamExport h body => Sys2Proof.Machine.execStreamExport h body s
  | .streamImport h body => Sys2Proof.Machine.execStreamImport h body s
  | .streamQuery h body => Sys2Proof.Machine.execStreamQuery h body s
  | .sapConfig h body => Sys2Proof.Machine.execSapConfig h body s
  | .sapSlotmask h body => Sys2Proof.Machine.execSapSlotmask h body s
  | .sapBind h body => Sys2Proof.Machine.execSapBind h body s
  | .libWrite h body => Sys2Proof.Machine.execLibWrite h body s
  | .libList h body => Sys2Proof.Machine.execLibList h body s
  | .libErase h body => Sys2Proof.Machine.execLibErase h body s
  | .attest h body => Sys2Proof.Machine.execAttest h body s
  | .unlockChallenge h body => Sys2Proof.Machine.execUnlockChallenge h body s
  | .unlockResponse h body => Sys2Proof.Machine.execUnlockResponse h body s
  | .fwStage h body => Sys2Proof.Machine.execFwStage h body s
  | .fwCommit h body => Sys2Proof.Machine.execFwCommit h body s
  | .auditRead h body => Sys2Proof.Machine.execAuditRead h body s
  | .regRead h body => Sys2Proof.Machine.execRegRead h body s
  | .regWrite h body => Sys2Proof.Machine.execRegWrite h body s
  | .freqMeasure h body => Sys2Proof.Machine.execFreqMeasure h body s
  | .countersRead h body => Sys2Proof.Machine.execCountersRead h body s
  | .heartbeat h body => Sys2Proof.Machine.execHeartbeat h body s
  | .clkGateOn h node => Sys2Proof.Machine.execClkGateOn h node s
  | .clkGateOff h node => Sys2Proof.Machine.execClkGateOff h node s
  | .warmReset h force => Sys2Proof.Machine.execWarmReset h force s
  | .coldResetRequest h force => Sys2Proof.Machine.execColdResetRequest h force s
  | .perDieReset h die => Sys2Proof.Machine.execPerDieReset h die s
  | .secCredCommit h slot => Sys2Proof.Machine.execSecCredCommit h slot s
  | .secCredClear h slot => Sys2Proof.Machine.execSecCredClear h slot s
  | .secCfgSave h => Sys2Proof.Machine.execSecCfgSave h s
  | .exportImageRead h handle index count => Sys2Proof.Machine.execExportImageRead h handle index count s
  | .vctOpen src m => Sys2Proof.Machine.execVctOpen src m s
  | .vctClose src m => Sys2Proof.Machine.execVctClose src m s
  | .vctAck src m => Sys2Proof.Machine.execVctAck src m s
  | .vctCommand src m => Sys2Proof.Machine.execVctCommand src m s
  | .vctFeed src m => Sys2Proof.Machine.execVctFeed src m s
  | .frameReceive port f => Sys2Proof.Machine.execFrameReceive port f s
  | .retransmissionTimeout session seq => Sys2Proof.Machine.execRetransmissionTimeout session seq s
  | .sessionSilenceTimeout session => Sys2Proof.Machine.execSessionSilenceTimeout session s
  | .sessionFreeTimeout session => Sys2Proof.Machine.execSessionFreeTimeout session s
  | .feedStatus session => Sys2Proof.Machine.execFeedStatus session s
  | .grant stall => Sys2Proof.Machine.execGrant stall s
  | .crier source => Sys2Proof.Machine.execCrier source s
  | .heartbeatRaise missed => Sys2Proof.Machine.execHeartbeatRaise missed s
  | .heartbeatSend session => Sys2Proof.Machine.execHeartbeatSend session s
  | .clerkWatchdog core => Sys2Proof.Machine.execClerkWatchdog core s
  | .staging row => Sys2Proof.Machine.execStaging row s
  | .stagingComplete stream => Sys2Proof.Machine.execStagingComplete stream s
  | .admission row => Sys2Proof.Machine.execAdmission row s
  | .beat press stage => Sys2Proof.Machine.execBeat press stage s
  | .quireEnd stream => Sys2Proof.Machine.execQuireEnd stream s
  | .folioWritten stream => Sys2Proof.Machine.execFolioWritten stream s
  | .transferIssue engine => Sys2Proof.Machine.execTransferIssue engine s
  | .transferComplete engine index rd wr => Sys2Proof.Machine.execTransferComplete engine index rd wr s
  | .wait engine queue => Sys2Proof.Machine.execWait engine queue s
  | .signal engine queue => Sys2Proof.Machine.execSignal engine queue s
  | .swap press pair => Sys2Proof.Machine.execSwap press pair s
  | .pageInComplete stream ok image => Sys2Proof.Machine.execPageInComplete stream ok image s
  | .remoteFetchFail stream => Sys2Proof.Machine.execRemoteFetchFail stream s
  | .remoteFetchTimeout stream => Sys2Proof.Machine.execRemoteFetchTimeout stream s
  | .teardownComplete stall => Sys2Proof.Machine.execTeardownComplete stall s
  | .dlkFired die younger older => Sys2Proof.Machine.execDlkFired die younger older s
  | .consCheck => Sys2Proof.Machine.execConsCheck s
  | .patrolScrub channel slot out => Sys2Proof.Machine.execPatrolScrub channel slot out s
  | .baseGranuleRewrite granule => Sys2Proof.Machine.execBaseGranuleRewrite granule s
  | .streamEntryRewrite stream => Sys2Proof.Machine.execStreamEntryRewrite stream s
  | .rowFault row press => Sys2Proof.Machine.execRowFault row press s
  | .rowBuildDone row => Sys2Proof.Machine.execRowBuildDone row s
  | .rtpPacketSend stream => Sys2Proof.Machine.execRtpPacketSend stream s
  | .audio stream => Sys2Proof.Machine.execAudio stream s
  | .linkDown port => Sys2Proof.Machine.execLinkDown port s
  | .linkUp port => Sys2Proof.Machine.execLinkUp port s
  | .sapFrameSync port bclk din => Sys2Proof.Machine.execSapFrameSync port bclk din s
  | .sapWatchdog port => Sys2Proof.Machine.execSapWatchdog port s
  | .sapMutedPeriod port => Sys2Proof.Machine.execSapMutedPeriod port s
  | .sapMaskCommit port => Sys2Proof.Machine.execSapMaskCommit port s
  | .clkSrcSwitchDone mux => Sys2Proof.Machine.execClkSrcSwitchDone mux s
  | .clkSrcDeadold mux => Sys2Proof.Machine.execClkSrcDeadold mux s
  | .freqMeasureDone count => Sys2Proof.Machine.execFreqMeasureDone count s
  | .fmtrTimeout => Sys2Proof.Machine.execFmtrTimeout s
  | .diagTimeout h press => Sys2Proof.Machine.execDiagTimeout h press s
  | .parkDone stream ok => Sys2Proof.Machine.execParkDone stream ok s
  | .tallyRefill => Sys2Proof.Machine.execTallyRefill s
  | .tallySave => Sys2Proof.Machine.execTallySave s
  | .flashScrub page => Sys2Proof.Machine.execFlashScrub page s
  | .bootScrubComplete refreshed => Sys2Proof.Machine.execBootScrubComplete refreshed s
  | .flashChannelReset channel => Sys2Proof.Machine.execFlashChannelReset channel s
  | .libEntryTimeout entry => Sys2Proof.Machine.execLibEntryTimeout entry s
  | .libEraseDone entry => Sys2Proof.Machine.execLibEraseDone entry s
  | .orphanExpire record => Sys2Proof.Machine.execOrphanExpire record s
  | .exportExpire handle => Sys2Proof.Machine.execExportExpire handle s
  | .snapshotExpire session report => Sys2Proof.Machine.execSnapshotExpire session report s
  | .challengeExpire => Sys2Proof.Machine.execChallengeExpire s
  | .lockoutEnd => Sys2Proof.Machine.execLockoutEnd s
  | .scheduledReset => Sys2Proof.Machine.execScheduledReset s
  | .probationEnd => Sys2Proof.Machine.execProbationEnd s
  | .powerCapTick volts amps watts => Sys2Proof.Machine.execPowerCapTick volts amps watts s
  | .thermalStep temps => Sys2Proof.Machine.execThermalStep temps s
  | .thermalFailure => Sys2Proof.Machine.execThermalFailure s
  | .thermalTrip => Sys2Proof.Machine.execThermalTrip s
  | .inputLoss => Sys2Proof.Machine.execInputLoss s
  | .powerUp => Sys2Proof.Machine.execPowerUp s
  | .resetN => Sys2Proof.Machine.execResetN s
  | .pllLock b => Sys2Proof.Machine.execPllLock b s
  | .palhaniStart => Sys2Proof.Machine.execPalhaniStart s
  | .portsEnable => Sys2Proof.Machine.execPortsEnable s
  | .attestKeyReady => Sys2Proof.Machine.execAttestKeyReady s
  | .entropyFail => Sys2Proof.Machine.execEntropyFail s
  | .extest dev cells => Sys2Proof.Machine.execExtest dev cells s
  | .extestPulse dev cells => Sys2Proof.Machine.execExtestPulse dev cells s
  | .extestTrain dev cells => Sys2Proof.Machine.execExtestTrain dev cells s
  | .idcode dev => Sys2Proof.Machine.execIdcode dev s
  | .samplePreload dev pins cells => Sys2Proof.Machine.execSamplePreload dev pins cells s
  | .highz dev => Sys2Proof.Machine.execHighz dev s
  | .clamp dev => Sys2Proof.Machine.execClamp dev s
  | .bypass dev => Sys2Proof.Machine.execBypass dev s
  | .dbgRd addr => Sys2Proof.Machine.execDbgRd addr s
  | .dbgWr addr value => Sys2Proof.Machine.execDbgWr addr value s
  | .fpgm image => Sys2Proof.Machine.execFpgm image s
  | .tapReset => Sys2Proof.Machine.execTapReset s
  | .spineLinkFail die => Sys2Proof.Machine.execSpineLinkFail die s
  | .referenceClockLoss ethernet => Sys2Proof.Machine.execReferenceClockLoss ethernet s
  | .resetNRelease slotId fpgmN => Sys2Proof.Machine.execResetNRelease slotId fpgmN s
  | .perDieResetComplete die untrained => Sys2Proof.Machine.execPerDieResetComplete die untrained s
  | .pfcPauseExpire port priority => Sys2Proof.Machine.execPfcPauseExpire port priority s

end Sys2Proof.Machine
end

