-- ==== Sys2Proof/Machine/Step.lean ====
section
/-! DEFINITION. One step of the block: the command at the front of the queue, or the passing of one CTCLK cycle. -/

namespace Sys2Proof.Machine

/-- The queue's front command runs on the state with the queue's rest; on an empty queue one CTCLK cycle passes
(DESIGN CHOICE, log 1), where the module has power to count one. -/
def step (s : State) : Host.Outcome State Fault Refusal :=
  match s.pending with
  | [] => .next s.idle
  | c :: cs => exec c { s with pending := cs }

/-- The state with the command that a word spells at the front of its queue; unchanged where the word spells none. (DESIGN CHOICE, log 2) -/
def State.withFetchWord (s : State) (nbits w : Nat) : State :=
  match Sys2Proof.decodeTableWord nbits w with
  | some c => { s with pending := c :: s.pending }
  | none => s

end Sys2Proof.Machine
end

