-- ==== Sys2Proof/Safety.lean ====
section
/-! DEFINITION. What counts as a safe step and a safe run, in the terms the statements use. -/

namespace Sys2Proof.Machine

/-- A step is safe where it answers a next state: it neither faults nor is refused. -/
def Safe (s : State) : Prop := ∃ t, step s = .next t

/-- A run of `k` steps from `s` is safe where it reaches a state. -/
def SafeRun (k : Nat) (s : State) : Prop := ∃ t, Sys2Proof.core.run k s = .next t

/-! ## The parts of the state, for frames -/

/-- The parts of the state, the queue of waiting commands apart. -/
inductive Field where
  | now | stamp | free | power | streams | egress | journals | stalls | voices | bases | rows | presses
  | stages | recUnits | engines | channels | dies | mem | nets | sessions | vct | criers | clerk | exports
  | flash | fw | sec | saps | clk | jtag | sent | rings | heldMoves
  deriving DecidableEq, Repr

/-- The part reads in `t` as it reads in `s`. -/
def Field.same (p : Field) (s t : State) : Prop :=
  match p with
  | .now => t.now = s.now
  | .stamp => t.stamp = s.stamp
  | .free => t.free = s.free
  | .power => t.power = s.power
  | .streams => t.streams = s.streams
  | .egress => t.egress = s.egress
  | .journals => t.journals = s.journals
  | .stalls => t.stalls = s.stalls
  | .voices => t.voices = s.voices
  | .bases => t.bases = s.bases
  | .rows => t.rows = s.rows
  | .presses => t.presses = s.presses
  | .stages => t.stages = s.stages
  | .recUnits => t.recUnits = s.recUnits
  | .engines => t.engines = s.engines
  | .channels => t.channels = s.channels
  | .dies => t.dies = s.dies
  | .mem => t.mem = s.mem
  | .nets => t.nets = s.nets
  | .sessions => t.sessions = s.sessions
  | .vct => t.vct = s.vct
  | .criers => t.criers = s.criers
  | .clerk => t.clerk = s.clerk
  | .exports => t.exports = s.exports
  | .flash => t.flash = s.flash
  | .fw => t.fw = s.fw
  | .sec => t.sec = s.sec
  | .saps => t.saps = s.saps
  | .clk => t.clk = s.clk
  | .jtag => t.jtag = s.jtag
  | .sent => t.sent = s.sent
  | .rings => t.rings = s.rings
  | .heldMoves => t.heldMoves = s.heldMoves

/-- Parts that answering a command writes: the session, the counters, and what has left the module. -/
def answered : List Field := [.nets, .sessions, .vct, .clerk, .sent]

/-- The same, with the audit log. -/
def recorded : List Field := .sec :: answered

/-- Every part but those named. -/
def allBut (l : List Field) : List Field :=
  [.now, .stamp, .free, .power, .streams, .egress, .journals, .stalls, .voices, .bases, .rows, .presses, .stages,
      .recUnits, .engines, .channels,
   .dies, .mem, .nets, .sessions, .vct, .criers, .clerk, .exports, .flash, .fw, .sec, .saps, .clk, .jtag, .sent,
      .rings, .heldMoves].filter (fun p => !l.contains p)

/-- The parts of the state that a command may write; every other part reads after it as before. -/
def touches : Instr → List Field
  | .hello _ _ =>
    answered ++ [.fw]
  | .resync _ _ | .stallQuery _ _ | .streamQuery _ _ | .attest _ _ | .heartbeat _ _ =>
    answered
  | .roleAssert _ _ | .unlockResponse _ _ =>
    recorded
  | .stallOpen _ _ | .stallLimits _ _ =>
    recorded ++ [.stalls]
  | .stallClose _ _ | .streamEnd _ _ =>
    allBut [.now, .free, .bases, .recUnits, .mem, .fw, .clk, .jtag]
  | .voiceLoad _ _ =>
    allBut [.now, .stamp, .free, .journals, .bases, .presses, .stages, .recUnits, .dies, .exports, .fw, .saps,
      .clk, .jtag, .rings]
  | .voiceUnload _ _ =>
    recorded ++ [.stalls, .voices, .rows]
  | .rowConfigure _ _ | .streamEntryRewrite _ =>
    allBut [.now, .stamp, .free, .journals, .recUnits, .exports, .fw, .saps, .jtag]
  | .streamOpen _ _ =>
    allBut [.now, .free, .voices, .bases, .rows, .presses, .stages, .recUnits, .dies, .exports, .fw, .saps, .clk,
      .jtag, .rings]
  | .streamFeed _ _ =>
    allBut [.now, .free, .bases, .presses, .stages, .recUnits, .exports, .fw, .saps, .clk, .jtag, .sent, .rings]
  | .streamMark _ _ =>
    answered ++ [.streams]
  | .streamPause _ _ =>
    answered ++ [.streams, .egress, .stalls, .rows, .presses, .engines, .dies, .criers, .rings]
  | .streamResume _ _ =>
    answered ++ [.stamp, .streams, .flash]
  | .streamPark _ _ =>
    answered ++ [.streams, .engines, .criers, .flash]
  | .streamExport _ _ =>
    allBut [.now, .stamp, .free, .bases, .recUnits, .mem, .fw, .clk, .jtag]
  | .streamImport _ _ =>
    allBut [.now, .free, .bases, .recUnits, .exports, .fw, .clk, .jtag]
  | .sapConfig _ _ =>
    recorded ++ [.saps, .clk]
  | .sapSlotmask _ _ =>
    recorded ++ [.saps]
  | .sapBind _ _ =>
    allBut [.now, .stamp, .free, .bases, .presses, .stages, .recUnits, .dies, .exports, .fw, .clk, .jtag, .rings]
  | .libWrite _ _ | .secCredCommit _ _ | .secCredClear _ _ | .secCfgSave _ =>
    recorded ++ [.free, .criers, .flash]
  | .libList _ _ =>
    answered ++ [.free]
  | .libErase _ _ =>
    recorded ++ [.flash]
  | .unlockChallenge _ _ =>
    recorded ++ [.free]
  | .fwStage _ _ =>
    recorded ++ [.free, .criers, .flash, .fw]
  | .fwCommit _ _ =>
    recorded ++ [.flash, .fw]
  | .auditRead _ _ =>
    answered ++ [.free, .flash]
  | .regRead _ _ =>
    answered ++ [.free, .mem, .exports, .flash, .clk]
  | .regWrite _ _ =>
    allBut [.now, .stamp, .streams, .egress, .journals, .stalls, .voices, .bases, .rows, .presses, .stages,
      .recUnits, .mem, .exports, .jtag, .rings, .heldMoves]
  | .freqMeasure _ _ | .countersRead _ _ | .freqMeasureDone _ | .fmtrTimeout =>
    answered ++ [.clk]
  | .clkGateOn _ _ | .clkGateOff _ _ =>
    recorded ++ [.clk]
  | .warmReset _ _ | .coldResetRequest _ _ | .perDieReset _ _ =>
    recorded ++ [.power, .channels, .fw, .clk]
  | .exportImageRead _ _ _ _ =>
    answered ++ [.free, .mem, .exports, .flash]
  | .vctOpen _ _ | .feedStatus _ =>
    [.nets, .sessions, .vct, .sent]
  | .vctClose _ _ | .retransmissionTimeout _ _ | .audio _ =>
    allBut [.now, .stamp, .free, .streams, .bases, .presses, .stages, .recUnits, .dies, .exports, .fw, .clk, .jtag,
      .rings]
  | .vctAck _ _ =>
    answered ++ [.egress, .stalls, .voices, .rows, .criers, .saps]
  | .vctCommand _ _ | .vctFeed _ _ =>
    allBut [.now, .free, .bases, .presses, .stages, .recUnits, .exports, .fw, .clk, .jtag, .rings]
  | .frameReceive _ _ =>
    [.nets, .vct, .sent]
  | .sessionSilenceTimeout _ | .sessionFreeTimeout _ =>
    allBut [.now, .stamp, .free, .streams, .bases, .presses, .stages, .recUnits, .dies, .exports, .fw, .clk, .jtag,
      .sent, .rings]
  | .grant _ =>
    answered ++ [.stalls]
  | .crier _ =>
    [.nets, .sessions, .vct, .criers, .sent]
  | .heartbeatRaise _ | .diagTimeout _ _ =>
    allBut [.now, .stamp, .free, .power, .recUnits, .channels, .mem, .exports, .fw, .sec, .jtag, .heldMoves]
  | .heartbeatSend _ =>
    [.nets, .sessions, .sent]
  | .clerkWatchdog _ | .thermalFailure | .palhaniStart =>
    [.power, .egress, .stalls, .nets, .criers, .clerk, .flash, .sec]
  | .staging _ =>
    [.stamp, .streams, .egress, .stalls, .rows, .engines, .dies]
  | .stagingComplete _ | .transferIssue _ =>
    allBut [.now, .free, .recUnits, .exports, .fw, .jtag]
  | .admission _ =>
    [.streams, .egress, .rows]
  | .beat _ _ =>
    allBut [.now, .stamp, .free, .exports, .fw, .jtag]
  | .quireEnd _ =>
    [.power, .streams, .egress, .journals, .stalls, .engines, .channels, .mem, .nets, .criers, .clerk, .flash,
      .sec, .heldMoves]
  | .folioWritten _ =>
    allBut [.now, .free, .recUnits, .fw, .jtag]
  | .transferComplete _ _ _ _ | .signal _ _ | .remoteFetchFail _ | .remoteFetchTimeout _ | .patrolScrub _ _ _
  | .rowFault _ _ =>
    allBut [.now, .stamp, .free, .recUnits, .exports, .fw, .jtag]
  | .wait _ _ | .swap _ _ =>
    [.streams, .presses, .engines, .flash, .rings]
  | .pageInComplete _ _ _ =>
    allBut [.now, .stamp, .recUnits, .fw, .jtag]
  | .teardownComplete _ =>
    [.stalls, .criers, .clerk]
  | .dlkFired _ _ _ =>
    [.streams, .egress, .stalls, .rows, .presses, .engines, .dies, .criers, .clerk, .rings]
  | .consCheck =>
    allBut [.now, .stamp, .free, .journals, .recUnits, .exports, .fw, .jtag]
  | .baseGranuleRewrite _ =>
    [.power, .egress, .stalls, .engines, .channels, .mem, .nets, .criers, .clerk, .flash, .sec, .heldMoves]
  | .rowBuildDone _ =>
    answered ++ [.rows, .engines, .clk]
  | .rtpPacketSend _ =>
    allBut [.now, .stamp, .free, .streams, .bases, .presses, .stages, .recUnits, .dies, .sessions, .exports, .fw,
      .clk, .jtag, .rings]
  | .linkDown _ =>
    [.free, .nets, .criers, .clerk, .clk]
  | .linkUp _ =>
    [.nets, .criers, .clerk]
  | .sapFrameSync _ _ _ | .sapWatchdog _ | .sapMutedPeriod _ =>
    allBut [.now, .stamp, .free, .streams, .bases, .presses, .stages, .recUnits, .dies, .sessions, .vct, .exports,
      .fw, .clk, .jtag, .sent, .rings]
  | .sapMaskCommit _ =>
    answered ++ [.saps]
  | .clkSrcSwitchDone _ =>
    [.saps, .clk]
  | .clkSrcDeadold _ | .flashChannelReset _ =>
    [.clk]
  | .parkDone _ _ =>
    [.free, .streams, .criers, .clerk, .flash]
  | .tallyRefill | .tallySave | .libEntryTimeout _ | .libEraseDone _ =>
    [.flash]
  | .flashScrub _ =>
    [.free, .criers, .clerk, .flash]
  | .bootScrubComplete _ =>
    [.criers, .clerk, .flash]
  | .orphanExpire _ =>
    [.mem, .flash]
  | .exportExpire _ =>
    [.exports]
  | .snapshotExpire _ _ =>
    [.sessions]
  | .challengeExpire | .lockoutEnd | .attestKeyReady | .entropyFail =>
    [.sec]
  | .scheduledReset | .thermalTrip | .inputLoss | .powerUp | .resetN =>
    allBut [.now, .stamp, .free, .sent]
  | .probationEnd =>
    [.flash, .sec]
  | .powerCapTick _ _ _ =>
    [.free, .power, .rows]
  | .thermalStep _ | .portsEnable | .referenceClockLoss _ =>
    [.power]
  | .pllLock _ =>
    [.power, .channels, .nets, .flash, .fw, .sec, .clk]
  | .extest _ _ | .extestPulse _ _ | .extestTrain _ _ | .idcode _ | .samplePreload _ _ _ | .highz _ | .clamp _
  | .bypass _ | .dbgRd _ | .dbgWr _ _ | .fpgm _ | .tapReset =>
    allBut [.now, .stamp, .sent]
  | .spineLinkFail _ =>
    allBut [.now, .stamp, .free, .recUnits, .channels, .mem, .exports, .fw, .jtag, .heldMoves]
  | .resetNRelease _ _ =>
    [.power, .jtag]
  | .perDieResetComplete _ _ =>
    [.power, .egress, .stalls, .rows, .presses, .stages, .engines, .channels, .mem, .nets, .criers, .clerk, .flash,
      .sec, .heldMoves]
  | .pfcPauseExpire _ _ =>
    [.nets, .sent]

/-- A run of bytes is written: `bs`, and 0 behind it up to `len`. A granule whose GDDR7 die is in reset keeps its bytes, and its part
of the run waits (R424). -/
def Lands (a len : Nat) (bs : List Byte) (s u : State) : Prop :=
  let held := s.stoppedGranules a len
  (∀ i, i < len → mget u.mem (a + i) = if (a + i) / 512 ∈ held then mget s.mem (a + i) else bs.getD i 0) ∧
  u.heldMoves = s.heldMoves ++ held.map (heldPart a len (some bs))

/-- Only the parts of the list differ: the queue and every other part read in `t` as in `s`. -/
def Only (l : List Field) (s t : State) : Prop := t.pending = s.pending ∧ ∀ f, f ∉ l → f.same s t

/-- The frame leaves the port, counted where the port is live, or joins the frames the port holds in order while its priority is
paused (R258), with the register words it was queued under (R285); no other port changes. -/
def Sends (p : Nat) (x : Sent) (s u : State) : Prop :=
  (if x.waits (s.net p) then u.sent = s.sent ∧ u.net p = { s.net p with held := (s.net p).held ++ [(s.net p).hold x] }
   else u.sent = x :: s.sent ∧
     u.net p = { s.net p with txFrames := (s.net p).txFrames + (if (s.net p).live then 1 else 0) }) ∧
  ∀ j, j ≠ p → u.net j = s.net j

/-! ## Carrying out a command of the mailbox -/

/-- Palhani carries the command to its own checks: both references run, the command is taken, and no check of R292
refuses it. -/
abbrev State.Accepts (s : State) (c : Shape) (h : CmdHdr) (len : Nat) : Prop :=
  s.clocked = true ∧ s.takes h = true ∧ s.precheck c h len = none

/-- The state that an accepted command acts on: its audit record, where R448 asks for one, is written first (R450). -/
def State.logged (s : State) (c : Shape) (h : CmdHdr) : State := if c.audited then s.auditCmd c h 1 .ok else s

/-- The command completes: it answers the state that its effect leaves, with the ST_OK response written, and those of the bad
COMMANDs that waited behind it (R288, R294). -/
def Completes (c : Instr) (s : State) (op : Nat) (h : CmdHdr) (flags : Nat) (u : State) (body : List Byte) : Prop :=
  exec c s = .next (u.reply (s.hdrDefer op h) .ok flags body)

/-- The commands of the mailbox: the row of Table 14.1 and the layout of each, its header, and its body's length. The
register accesses that have rows of their own are REG_WRITE and REG_READ bodies. -/
def mailbox (s : State) : Instr → Option (Shape × CmdHdr × Nat)
  | .hello h body => some (helloShape body, h, body.length)
  | .resync h body => some (resyncShape body, h, body.length)
  | .roleAssert h body => some (roleAssertShape h body, h, body.length)
  | .stallOpen h body => some (stallOpenShape h body, h, body.length)
  | .stallClose h body => some (stallCloseShape h body, h, body.length)
  | .stallQuery h body => some (stallQueryShape body, h, body.length)
  | .stallLimits h body => some (stallLimitsShape h body, h, body.length)
  | .voiceLoad h body => some (voiceLoadShape h body, h, body.length)
  | .voiceUnload h body => some (voiceUnloadShape h body, h, body.length)
  | .rowConfigure h body => some (rowConfigureShape h body, h, body.length)
  | .streamOpen h body => some (streamOpenShape body, h, body.length)
  | .streamMark h body => some (streamMarkShape body, h, body.length)
  | .streamPause h body => some (streamPauseShape body, h, body.length)
  | .streamResume h body => some (streamResumeShape body, h, body.length)
  | .streamEnd h body => some (streamEndShape body, h, body.length)
  | .streamPark h body => some (streamParkShape body, h, body.length)
  | .streamExport h body => some (streamExportShape body, h, body.length)
  | .streamImport h body => some (streamImportShape body, h, body.length)
  | .streamQuery h body => some (streamQueryShape body, h, body.length)
  | .sapConfig h body => some (sapConfigShape h body, h, body.length)
  | .sapSlotmask h body => some (sapSlotmaskShape h body, h, body.length)
  | .sapBind h body => some (sapBindShape body, h, body.length)
  | .libWrite h body => some (libWriteShape h body, h, body.length)
  | .libList h body => some (libListShape body, h, body.length)
  | .libErase h body => some (libEraseShape h body, h, body.length)
  | .attest h body => some (attestShape body, h, body.length)
  | .unlockChallenge h body => some (unlockChallengeShape h body, h, body.length)
  | .unlockResponse h body => some (unlockResponseShape body s, h, body.length)
  | .fwStage h body => some (fwStageShape h body, h, body.length)
  | .fwCommit h body => some (fwCommitShape h body, h, body.length)
  | .auditRead h body => some (auditReadShape body, h, body.length)
  | .regRead h body => some (regReadShape body, h, body.length)
  | .regWrite h body => some (regWriteShape h body, h, body.length)
  | .freqMeasure h body => some (freqMeasureShape body, h, body.length)
  | .countersRead h body => some (countersReadShape body, h, body.length)
  | .heartbeat h body => some (heartbeatShape body, h, body.length)
  | .clkGateOn h node => some (regWriteShape h (gateBody node true), h, 48)
  | .clkGateOff h node => some (regWriteShape h (gateBody node false), h, 48)
  | .warmReset h force => some (regWriteShape h (resetBody 1 0 force), h, 48)
  | .coldResetRequest h force => some (regWriteShape h (resetBody 2 0 force), h, 48)
  | .perDieReset h die => some (regWriteShape h (resetBody 3 die false), h, 48)
  | .secCredCommit h slot => some (regWriteShape h (credBody slot false), h, 48)
  | .secCredClear h slot => some (regWriteShape h (credBody slot true), h, 48)
  | .secCfgSave h => some (regWriteShape h (writeBody "SEC_CFG_SAVE" 1), h, 48)
  | .exportImageRead h handle index count => some (exportReadShape handle index count, h, 40)
  | .streamFeed _ _ | .vctOpen _ _ | .vctClose _ _ | .vctAck _ _ | .vctCommand _ _ | .vctFeed _ _
  | .frameReceive _ _ | .retransmissionTimeout _ _ | .sessionSilenceTimeout _ | .sessionFreeTimeout _
  | .feedStatus _ | .grant _ | .crier _ | .heartbeatRaise _ | .heartbeatSend _ | .clerkWatchdog _ | .staging _
  | .stagingComplete _ | .admission _ | .beat _ _ | .quireEnd _ | .folioWritten _ | .transferIssue _
  | .transferComplete _ _ _ _ | .wait _ _ | .signal _ _ | .swap _ _ | .pageInComplete _ _ _ | .remoteFetchFail _
  | .remoteFetchTimeout _ | .teardownComplete _ | .dlkFired _ _ _ | .consCheck | .patrolScrub _ _ _
  | .baseGranuleRewrite _ | .streamEntryRewrite _ | .rowFault _ _ | .rowBuildDone _ | .rtpPacketSend _ | .audio _
  | .linkDown _ | .linkUp _ | .sapFrameSync _ _ _ | .sapWatchdog _ | .sapMutedPeriod _ | .sapMaskCommit _
  | .clkSrcSwitchDone _ | .clkSrcDeadold _ | .freqMeasureDone _ | .fmtrTimeout | .diagTimeout _ _ | .parkDone _ _
  | .tallyRefill | .tallySave | .flashScrub _ | .bootScrubComplete _ | .flashChannelReset _ | .libEntryTimeout _
  | .libEraseDone _ | .orphanExpire _ | .exportExpire _ | .snapshotExpire _ _ | .challengeExpire | .lockoutEnd
  | .scheduledReset | .probationEnd | .powerCapTick _ _ _ | .thermalStep _ | .thermalFailure | .thermalTrip
  | .inputLoss | .powerUp | .resetN | .pllLock _ | .palhaniStart | .portsEnable | .attestKeyReady | .entropyFail
  | .extest _ _ | .extestPulse _ _ | .extestTrain _ _ | .idcode _ | .samplePreload _ _ _ | .highz _ | .clamp _
  | .bypass _ | .dbgRd _ | .dbgWr _ _ | .fpgm _ | .tapReset | .spineLinkFail _ | .referenceClockLoss _
  | .resetNRelease _ _ | .perDieResetComplete _ _ | .pfcPauseExpire _ _ => none

/-- The commands that act without a running clock: the input, the trip, the reset pin, and the loss itself. -/
def unclocked : Instr → Bool
  | .inputLoss | .thermalTrip | .powerUp | .resetN | .referenceClockLoss _ => true
  | _ => false

/-- The commands that are what a port receives. -/
def received : Instr → Bool
  | .vctOpen _ _ | .vctClose _ _ | .vctAck _ _ | .vctCommand _ _ | .vctFeed _ _ | .frameReceive _ _ => true
  | _ => false

/-- The command is a read that never completes once the 156.25 MHz reference is lost, or the watchdog of the clerk core that
waits in one. -/
def hangs (s : State) : Instr → Bool
  | .regRead h body =>
    s.takes h && (s.precheck (regReadShape body) h body.length).isNone && (regReadOwn h body s).waits
  | .countersRead h body =>
    s.takes h && (s.precheck (countersReadShape body) h body.length).isNone && (countersReadOwn body s).waits
  | .clerkWatchdog _ => s.clerk.hung
  | _ => false

end Sys2Proof.Machine
end

