-- ==== Sys2Proof/Certificates/Slice0/Obligations.lean ====
section
/-! DEFINITION. The statements about the model: what each command does when it completes, what it leaves alone, and what
every step keeps. Each says which rule of spec/ it formalises; OBLIGATIONS.json lists them. -/

section Statements
open Sys2Proof Sys2Proof.Machine

/-! ## The machine -/

/-- A step takes the command at the front of the queue and runs it on the state with the queue's rest. On an empty queue a
step lets one CTCLK cycle pass, in which no command runs: the stages' wait counters and their causes are brought up to date
(R214), the pages of audit records accepted since are programmed (R450), and nothing else changes. Without power no cycle is
counted and nothing changes. The model's choices: what an empty queue means (log 1), and when audit pages are programmed (log
70). -/
def Obligations.StepRunsFrontCommand : Prop :=
  (∀ (c : Instr) (cs : List Instr) (s : State), step { s with pending := c :: cs } = exec c { s with pending := cs }) ∧
  (∀ s : State, s.pending = [] →
    (s.power.phase ≠ .off ∧ s.power.phase ≠ .tripped →
      ∃ t, step s = .next t ∧ t.now = s.now + 1 ∧ Only [.now, .free, .flash, .presses, .stages] s t ∧
        (s.sec.auditSeq ≤ s.flash.auditDone ∨ s.awake = false → t.free = s.free ∧ t.flash = s.flash) ∧
        (s.flash.auditDone < s.sec.auditSeq → s.awake = true → t.flash.auditDone = s.sec.auditSeq ∧
          t.flash.auditPages = s.flash.auditPages + ceilDiv (s.sec.auditSeq - s.flash.auditDone) 32)) ∧
    (s.power.phase = .off ∨ s.power.phase = .tripped → step s = .next s))

/-- The state after a cold reset (Table 20.4): memory in its canonical form with no command waiting; every stream,
stall and row at FREE or ABSENT, no voice, base or session; every pool full (Table 11.2, R231), the registers of
Tables 12.7, 16.4 and 20.7 at their values, every gate off but what is in use, every crier source at number 0. -/
def Obligations.ResetLeavesTheTablesValues : Prop :=
  let s := State.reset
  Memory.wf s.mem = true ∧ s.pending = [] ∧ s.clocked = true ∧
  (∀ n, (s.stream n).st = .free ∧ (s.stream n).row = none ∧ (s.egr n).markerNext = false ∧ (s.journal n).records = []) ∧
  (∀ k, (s.stall k).st = .free ∧ (s.stall k).tally = 0 ∧ (s.voice k).loaded = false ∧ (s.base k).used = false) ∧
  (∀ k, (s.row k).st = .absent ∧ (s.press k).retired = false ∧ (s.engine k).issued = [] ∧ (s.engine k).queues = []) ∧
  (∀ d, (s.die d).pitchFree = 4096 ∧ (s.die d).feedFree = 180224 ∧ (s.die d).feedFloor = 0) ∧
  s.clerk.egrFree = 49152 ∧ s.clerk.feedGrant = 0 ∧ s.clerk.failed = none ∧
  (∀ k, (s.sess k).st = .closed ∧ (s.sess k).role = 0 ∧ (s.sess k).greeted = false ∧ (s.sess k).hbPeriod = 0) ∧
  (∀ c, (s.crierSrc c).seq = 0 ∧ (s.crierSrc c).ring = []) ∧
  (∀ p, (s.net p).cfg = 0x05DC0000#32 ∧ (s.net p).ports = 0xB7FEB7FC#32 ∧ (s.net p).up = false) ∧
  (∀ p, (s.sap p).enable = false ∧ (s.sap p).pend = 0 ∧ (s.sap p).act = 0) ∧
  s.power.cap = 100 ∧ s.power.alertMask = 0x0E#6 ∧ s.power.faultN = false ∧ s.sec.debug = 0 ∧ s.sec.challenge = none ∧
  s.clk.on = [] ∧ s.clk.switching = 0 ∧ s.clk.fmBusy = false

/-- A step keeps memory in its canonical form: addresses strictly rising, no entry of the default value. -/
def Obligations.StepKeepsMemoryForm : Prop :=
  ∀ s t : State, Memory.wf s.mem = true → step s = .next t → Memory.wf t.mem = true

/-- A command writes the parts of the state that `touches` lists for it; the queue and every other part read as
before. -/
def Obligations.CommandsWriteOnlyTheirParts : Prop :=
  ∀ (c : Instr) (s t : State), exec c s = .next t → Only (touches c) s t

/-- While both reference oscillators run, every command answers a next state: none faults, none is refused by the
model. -/
def Obligations.ClockedCommandsAnswer : Prop :=
  ∀ (c : Instr) (s : State), s.clocked = true → ∃ t, exec c s = .next t

/-- After the loss of the 100 MHz reference every command stops with the fault that says so, but for those that take the power
away, reset the module or lose the other reference (R426: the behaviour is not defined, and only a cold reset recovers the
module). After the loss of the 156.25 MHz reference alone nothing is received by a port; a read of a port's MAC or PCS
counters by COUNTERS_READ or REG_READ never completes, so that its clerk core hangs and fails its watchdog (R423, R426); every
other command stops with that fault (log 10, the model's reading: what else goes on is not stated). -/
def Obligations.LostReferenceStops : Prop :=
  (∀ (c : Instr) (s : State), s.clocked = false → unclocked c = false → s.portsLost = false →
    exec c s = .fault .undefinedAfterClockLoss) ∧
  (∀ (c : Instr) (s : State), s.portsLost = true → unclocked c = false → received c = false → hangs s c = false →
    exec c s = .fault .undefinedAfterClockLoss) ∧
  (∀ (c : Instr) (s : State), s.portsLost = true → received c = true → exec c s = .next s) ∧
  (∀ (h : CmdHdr) (body : List Byte) (s : State), s.portsLost = true → hangs s (.countersRead h body) = true →
    ∃ u : State, exec (.countersRead h body) s = .next (u.startCmd h) ∧ u.clerk = { s.clerk with hung := true } ∧ Only [.clerk] s u) ∧
  (∀ (h : CmdHdr) (n : String) (s : State), s.portsLost = true →
    n ∈ ["NET0_RX_FRAMES", "NET0_TX_FRAMES", "NET0_RX_DROP", "NET0_FEC_CORR", "NET0_FEC_UNCORR",
         "NET1_RX_FRAMES", "NET1_TX_FRAMES", "NET1_RX_DROP", "NET1_FEC_CORR", "NET1_FEC_UNCORR"] →
    let body := nameBytes n ++ [0, 0, 0, 0, 0, 1, 0, 0]
    s.takes h = true → s.precheck (regReadShape body) h body.length = none → 8 ≤ s.maxBody h.session →
    hangs s (.regRead h body) = true) ∧
  (∀ (h : CmdHdr) (body : List Byte) (s : State), s.portsLost = true → hangs s (.regRead h body) = true →
    ∃ u : State, exec (.regRead h body) s = .next (u.startCmd h) ∧ u.clerk = { s.clerk with hung := true } ∧ Only [.clerk] s u) ∧
  (∀ (core : Nat) (s : State), s.portsLost = true → s.clerk.hung = true → s.awake = true → s.clerk.failed = none →
    ∃ u : State, exec (.clerkWatchdog core) s = .next u ∧ u.clerk.failed = some 2) ∧
  (∀ (b : Bool) (s : State), ∃ t, exec (.referenceClockLoss b) s = .next t ∧ t.clocked = false ∧ Only [.power] s t)

/-! ## The command path -/

/-- R292 and Table 3.8: which check decides, in order. The model's choices: HELLO's check of R296 stands after the length, the
layout and the scope and before the rights (log 20), and a FREE target is met after a TORN one (log 21). -/
def Obligations.ChecksRunInOrder : Prop :=
  ∀ (s : State) (c : Shape) (h : CmdHdr) (len : Nat),
    let q := s.sess h.session
    let lengthOk := h.bytes.toNat = len ∧ c.lenOk = true
    let fieldsOk := hdrClean h = true ∧ c.fields = true ∧ scopeFits c.scope q.stall.isNone h = true
    let greeted := q.greeted = true ∨ c.opcode = 1
    let rightsOk := c.role ≤ q.role ∧ stallFits c.scope q.stall h = true ∧ (q.peer = true → c.peerOk = true)
    (¬lengthOk → s.precheck c h len = some (.badLength, [])) ∧
    (lengthOk → ¬fieldsOk → s.precheck c h len = some (.badDescriptor, [])) ∧
    (lengthOk → fieldsOk → ¬greeted → s.precheck c h len = some (.stateConflict, conflictBytes [⟨4, 0, 0, 0⟩])) ∧
    (lengthOk → fieldsOk → greeted → ¬rightsOk → s.precheck c h len = some (.noRight, [])) ∧
    (lengthOk → fieldsOk → greeted → rightsOk →
      (modScope h = true → s.precheck c h len = none) ∧
      (modScope h = false →
        ((s.stall (tgt h)).st = .torn → s.precheck c h len = if c.tornOk then none else some (.stallTorn, [])) ∧
        ((s.stall (tgt h)).st = .free →
          s.precheck c h len = some (.stateConflict, conflictBytes [⟨2, 0, tgt h, 0⟩])) ∧
        ((s.stall (tgt h)).st = .open_ ∨ (s.stall (tgt h)).st = .quiescing → s.precheck c h len = none)))

/-- A mailbox command that a check of R292 refuses is answered with that status and changes nothing else: at most its
audit record (R312) and the response are written. One that Palhani does not take changes nothing: after a module failure
(R348), and, as the model's choice, before its turn in the ring has come (log 22) and while a full response ring keeps answers
waiting (log 19). -/
def Obligations.RefusedCommandsHaveNoEffect : Prop :=
  ∀ (c : Instr) (s : State) (sh : Shape) (h : CmdHdr) (len : Nat), s.clocked = true → mailbox s c = some (sh, h, len) →
    (s.takes h = false → exec c s = .next s) ∧
    (∀ st body, s.takes h = true → s.precheck sh h len = some (st, body) →
      ∃ u : State, exec c s = .next (u.reply (s.hdrDefer sh.opcode h) st 0 body) ∧
        u = (if sh.auditRefused then s.auditCmd sh h 2 st else s) ∧ Only [.sec] s u)

/-- A response within the host's window and the response ring (R288, R294): the command's ring entry is given back,
one response ring entry is taken, the RESPONSE goes to the session's port with the header of Table 13.2, and the
answer is counted. A full response ring keeps the response waiting (log 19: the model's choice); the response of a session
freed since is counted as lost. A frame for a port whose link is down is listed and not counted (log 142, the model's choice). Where the next command of the ring is one that can run, answering does no more. An audit record (Table 19.5): the next sequence number, kind, opcode and status in their places, the chain to
the previous record's hash, and its own hash behind its 480 bytes; the region keeps the latest 1,048,576. A crier
record takes its source's next number. In a ring with room it is kept, marked when records before it were discarded;
in a full ring it is discarded and counted, its number still consumed. -/
def Obligations.AnswersAndRecordsAreWritten : Prop :=
  (∀ (s : State) (d : Defer) (st : Status) (flags : Nat) (body : List Byte),
     let q := s.sess d.session
     let pay := [BitVec.ofNat 8 d.opcode, st.code] ++ beBytes 2 body.length ++ beBytes 4 d.tag.toNat ++ [0, 0] ++
       beBytes 2 flags ++ beBytes 4 d.seq.toNat ++ body
     let t := s.respond d st flags body
     t.clerk = s.clerk.count st ∧
     (s.clerk.failed = none → q.gen = d.gen → q.life = d.life → q.st = .opened → q.rspUsed < 16 → q.txWait = [] →
       q.tx.length < q.window →
       t.sess d.session = { q with
         ring := q.ring.filter (fun c => decide (c.seq ≠ d.seq ∨ c.life ≠ q.life)), rspUsed := q.rspUsed + 1, txNext := q.txNext + 1,
         tx := q.tx ++ [{ seq := q.txNext, type := 4, body := pay, sentAt := s.now, rto := q.rto }] } ∧
       Sends q.src.port (.vct d.session 4 q.txNext pay) s t ∧ (∀ j, j ≠ d.session → t.sess j = s.sess j) ∧
       Only [.nets, .sessions, .clerk, .sent] s t) ∧
     (q.gen = d.gen → q.life = d.life → q.st = .opened → 16 ≤ q.rspUsed →
       t.sess d.session = { q with rspWait := q.rspWait ++ [(d.seq, pay)] } ∧ (∀ j, j ≠ d.session → t.sess j = s.sess j) ∧
       Only [.sessions, .clerk] s t) ∧
     (q.gen ≠ d.gen ∨ q.life ≠ d.life → t.vct = { s.vct with lost := s.vct.lost + 1 } ∧ (∀ j, j ≠ d.session → t.sess j = s.sess j) ∧
       Only [.sessions, .vct, .clerk] s t) ∧
     ((∀ c, (t.sess d.session).nextCmd = some c → c.bad = false) → s.reply d st flags body = t)) ∧
  (∀ (s : State) (kind op : Nat) (st : Byte) (role : Nat) (sess stall : Option Nat) (src : BitVec 128) (detail : List Byte),
     (∀ r, s.sec.audit.head? = some r → 508 ≤ r.length) →
     let t := s.audit kind op st role sess stall src detail
     Only [.sec] s t ∧
     ∃ head : List Byte, head.length = 480 ∧
       t.sec = { s.sec with auditSeq := s.sec.auditSeq + 1, audit := (head ++ sha256 head) :: s.sec.audit.take 1048575 } ∧
       head.take 8 = leBytes 8 (s.sec.auditSeq + 1) ∧
       (head.drop 20).take 3 = [BitVec.ofNat 8 kind, BitVec.ofNat 8 op, st] ∧
       (head.drop 48).take 404 = detail.take 404 ++ List.replicate (404 - detail.length) 0 ∧
       (s.sec.audit = [] → head.drop 452 = List.replicate 28 0) ∧
       (∀ r, s.sec.audit.head? = some r → head.drop 452 = (r.drop 480).take 28)) ∧
  (∀ (s : State) (src : Nat) (r : CrierRec),
     let c := s.crierSrc src
     let t := s.raise src r
     (t.crierSrc src).seq = c.seq + 1 ∧ (∀ j, j ≠ src → t.crierSrc j = s.crierSrc j) ∧
     (c.ring.length < 65536 →
       (t.crierSrc src).ring = c.ring ++ [{ r with seq := c.seq + 1, source := src, gap := c.gap }] ∧
       (t.crierSrc src).gap = false ∧ Only [.criers] s t) ∧
     (65536 ≤ c.ring.length →
       (t.crierSrc src).ring = c.ring ∧ (t.crierSrc src).gap = true ∧
       t.clerk = { s.clerk with crierLost := s.clerk.crierLost + 1 } ∧ Only [.criers, .clerk] s t))

/-! ## Session control -/

/-- HELLO (R296, R297): a version in range greets the session, changes nothing else, and both answers carry Table
13.4. HEARTBEAT (R302) sets its session's period. ROLE_ASSERT (R315, R431, R432): a role at or below the session's
own, the role of an unset slot with an empty credential, or the role whose slot the credential matches; its audit
record is written first. A credential that matches nothing is refused and counted. The model's choices: a refused HELLO does
not take an earlier greeting back (log 25); a role at or below the session's own leaves the peer flag, and an empty credential
against a set slot is a mismatch (log 26). -/
def Obligations.SessionsGreetAndTakeRoles : Prop :=
  ((∀ (h : CmdHdr) (body : List Byte) (s : State), s.Accepts (helloShape body) h body.length →
     let v := (s.sess h.session).version
     (fld body 0 1 ≤ v ∧ v ≤ fld body 1 1 →
       ∃ u, Completes (.hello h body) s 0x01 h 0 u (u.helloBody h.session) ∧
         u.sess h.session = { s.sess h.session with greeted := true } ∧ (∀ j, j ≠ h.session → u.sess j = s.sess j) ∧
         u.fw = { s.fw with greeted := true } ∧ Only [.sessions, .fw] s u) ∧
     (¬(fld body 0 1 ≤ v ∧ v ≤ fld body 1 1) →
       exec (.hello h body) s = .next (s.reply (s.hdrDefer 0x01 h) .version 0 (s.helloBody h.session)))) ∧
   (∀ (h : CmdHdr) (body : List Byte) (s : State), s.Accepts (heartbeatShape body) h body.length →
     ∃ u, Completes (.heartbeat h body) s 0x74 h 0 u [] ∧
       u.sess h.session = { s.sess h.session with hbPeriod := fld body 0 2 / 10 } ∧
       (∀ j, j ≠ h.session → u.sess j = s.sess j) ∧ Only [.sessions] s u)) ∧
  (∀ (h : CmdHdr) (body : List Byte) (s : State), s.Accepts (roleAssertShape h body) h body.length →
     let q := s.sess h.session
     let role := fld body 0 1
     let cred := body.drop 4
     let l := s.logged (roleAssertShape h body) h
     let sets := fun (peer : Bool) (run : Nat) => ∃ u,
       Completes (.roleAssert h body) s 0x03 h 0 u [BitVec.ofNat 8 role, 0, 0, 0] ∧
       u.sess h.session = { q with role := role, peer := peer } ∧ (∀ j, j ≠ h.session → u.sess j = s.sess j) ∧
       u.sec = { l.sec with failRun := run } ∧ Only [.sessions] { l with sec := u.sec } u
     (role ≤ q.role → sets q.peer s.sec.failRun) ∧
     (q.role < role → role ≤ 2 →
       ((s.cred (role - 1)).ver = 0 → cred = [] → sets false s.sec.failRun) ∧
       (s.sec.lockout = false → ¬((s.cred (role - 1)).ver = 0 ∧ cred = []) →
         ((s.cred (role - 1)).matches cred = true → sets false 0) ∧
         ((s.cred (role - 1)).matches cred = false → role = 2 → (s.cred 2).matches cred = true → sets true 0) ∧
         ((s.cred (role - 1)).matches cred = false → ¬(role = 2 ∧ (s.cred 2).matches cred = true) →
           ∃ u : State, exec (.roleAssert h body) s = .next (u.reply (s.hdrDefer 0x03 h) .noRight 0 []) ∧
             u.sec.failRun = s.sec.failRun + 1 ∧ u.sec.credFail = true ∧ u.sec.credFails = s.sec.credFails + 1 ∧
             u.sec.lockout = (s.sec.lockout || decide (8 ≤ s.sec.failRun + 1)) ∧ Only [.sec] s u))))

/-- RESYNC (R304): on page 0 the session's own stall or any stall a module session names, a new snapshot of sections 1
to 8 replaces the session's earlier one and takes the next nonzero number; a later page of the kept snapshot reads it. The
model's choices: the numbers are a counter (log 28), and the records of section 8 are read with their page (log 27). -/
def Obligations.ResyncTakesAndPagesASnapshot : Prop :=
  (∀ (h : CmdHdr) (body : List Byte) (s : State), s.Accepts (resyncShape body) h body.length →
    let q := s.sess h.session
    (∀ k, q.stall = some k → fld body 4 4 = k ∨ fld body 4 4 = 2 ^ 32 - 1) → fld body 0 2 = 0 →
    ∃ (kept : Kept) (u : State),
      kept.id = s.clerk.nextSnap ∧ kept.records = s.snapshot h.session ∧ kept.ids.isSome = bitAt (fld body 2 2) 0 ∧
      Completes (.resync h body) s 0x02 h (moreFlag 0 (s.snapPage (s.maxBody h.session) kept 0).2) u
        (s.snapPage (s.maxBody h.session) kept 0).1 ∧
      u.sess h.session = { q with snap := some kept } ∧ (∀ j, j ≠ h.session → u.sess j = s.sess j) ∧
      u.clerk = { s.clerk with nextSnap := nextId s.clerk.nextSnap } ∧ nextId s.clerk.nextSnap ≠ 0 ∧
      Only [.sessions, .clerk] s u) ∧
  (∀ (h : CmdHdr) (body : List Byte) (s : State) (kept : Kept), s.Accepts (resyncShape body) h body.length →
    let q := s.sess h.session
    (∀ k, q.stall = some k → fld body 4 4 = k ∨ fld body 4 4 = 2 ^ 32 - 1) → fld body 0 2 ≠ 0 → q.snap = some kept →
    fld body 8 4 = kept.id → fld body 0 2 < (s.snapPage (s.maxBody h.session) kept (fld body 0 2)).2 →
    Completes (.resync h body) s 0x02 h
      (moreFlag (fld body 0 2) (s.snapPage (s.maxBody h.session) kept (fld body 0 2)).2) s
      (s.snapPage (s.maxBody h.session) kept (fld body 0 2)).1)

/-! ## Stalls -/

/-- STALL_OPEN (R54, R316): the lowest stall that is FREE and holds nothing becomes OPEN with the body's seed, weight,
quotas and ceiling; its number is the response (that transfers of an earlier use keep the number from being taken: log 69). STALL_LIMITS (R319) changes the limits whose fields are not 0, on an
OPEN stall that they do not undercut; STALL_QUERY (R318) answers the entry and the floor chunks held, and changes
nothing. -/
def Obligations.StallsOpenAndTakeLimits : Prop :=
  (∀ (h : CmdHdr) (body : List Byte) (s : State) (k : Nat), s.Accepts (stallOpenShape h body) h body.length →
     s.fw.restart = none → k < 16384 → s.stallTakeable k = true → (∀ j, j < k → s.stallTakeable j = false) →
     ∃ u, Completes (.stallOpen h body) s 0x10 h 0 u (beBytes 4 k) ∧
       u.stall k = { st := .open_, seed := BitVec.ofNat 64 (fld body 0 8), weight := fld body 8 1, vquota := fld body 10 2,
                     quota := fld body 12 4, ceiling := fld body 16 4 } ∧
       (∀ j, j ≠ k → u.stall j = s.stall j) ∧ Only [.stalls] (s.logged (stallOpenShape h body) h) u) ∧
  ((∀ (h : CmdHdr) (body : List Byte) (s : State), s.Accepts (stallLimitsShape h body) h body.length →
     let t := s.stall (tgt h)
     t.st = .open_ → (fld body 4 4 = 0 ∨ t.opened ≤ fld body 4 4) → (fld body 2 2 = 0 ∨ t.voices ≤ fld body 2 2) →
     ∃ u, Completes (.stallLimits h body) s 0x13 h 0 u [] ∧
       u.stall (tgt h) = { t with
         weight := if fld body 0 1 = 0 then t.weight else fld body 0 1, vquota := if fld body 2 2 = 0 then t.vquota else fld body 2 2,
         quota := if fld body 4 4 = 0 then t.quota else fld body 4 4, ceiling := if fld body 8 4 = 0 then t.ceiling else fld body 8 4 } ∧
       (∀ j, j ≠ tgt h → u.stall j = s.stall j) ∧ Only [.stalls] (s.logged (stallLimitsShape h body) h) u) ∧
   (∀ (h : CmdHdr) (body : List Byte) (s : State), s.Accepts (stallQueryShape body) h body.length →
     Completes (.stallQuery h body) s 0x12 h 0 s (wordsBE (stallWords (s.stall (tgt h))) ++ beBytes 4 (s.floorChunks (tgt h)))))

/-- STALL_CLOSE (R317, Table 3.7). On an OPEN stall, or with abort on a QUIESCING one, it is answered ST_OK: the
unused credits are withdrawn, and every stream of the stall is FREE or has its end requested, with abort with nothing
left to admit; the stall is QUIESCING, or FREE where nothing is held any more. A stall that holds nothing is FREE at
once: its voices are unloaded, their hot parts leave every row, and STALL_FREED is raised. A drain close on a
QUIESCING stall is refused with ST_STATE_CONFLICT. A TORN stall is FREE at once: its streams are FREE, its voice IDs
are freed, STALL_FREED is its last record, and only its issued transfers keep its ID from being taken (log 69: the model's choice). -/
def Obligations.StallCloseEndsTheStall : Prop :=
  ∀ (h : CmdHdr) (body : List Byte) (s : State), s.Accepts (stallCloseShape h body) h body.length →
    let k := tgt h
    let t := s.stall k
    let abort := decide (fld body 0 1 = 1)
    let l := s.logged (stallCloseShape h body) h
    (t.st = .open_ ∨ (t.st = .quiescing ∧ abort = true) →
      (∃ u, Completes (.stallClose h body) s 0x11 h 0 u [] ∧ u.clerk.feedGrant = s.clerk.feedGrant - t.tally ∧
        (u.stall k).tally = 0 ∧ ((u.stall k).st = .quiescing ∨ (u.stall k).st = .free) ∧
        (∀ n ∈ s.stallStreams k, (u.stream n).st = .free ∨ (u.stream n).endReq = true) ∧
        (abort = true → ∀ n ∈ s.stallStreams k, (u.stream n).pendFrames = 0) ∧
        (∀ n, n ∉ s.stallStreams k → u.stream n = s.stream n)) ∧
      (t.opened = 0 ∧ t.held = 0 ∧ t.pitches = 0 ∧ t.egress = 0 ∧ t.porter = 0 → s.stallStreams k = [] →
        ∃ u, Completes (.stallClose h body) s 0x11 h 0 u [] ∧ u.stall k = {} ∧ (∀ j, j ≠ k → u.stall j = s.stall j) ∧
          (∀ v, u.voice v = if v ∈ s.stallVoices k then {} else s.voice v) ∧
          (∀ v ∈ s.stallVoices k, ∀ r, (u.row r).hosts v = false) ∧
          u.clerk.feedGrant = s.clerk.feedGrant - t.tally ∧
          ((s.crierSrc 0).ring.length < 65536 → ∃ r, (u.crierSrc 0).ring = (s.crierSrc 0).ring ++ [r] ∧
            r.event = 0x0011 ∧ r.stall = some k ∧ r.status = .ok) ∧
          Only [.stalls, .voices, .rows, .criers, .clerk] l u)) ∧
    (t.st = .quiescing → abort = false →
      exec (.stallClose h body) s = .next (s.reply (s.hdrDefer 0x11 h) .stateConflict 0 (conflictBytes [s.stallEntry k]))) ∧
    (t.st = .torn → ∃ u, Completes (.stallClose h body) s 0x11 h 0 u [] ∧ u.stall k = { porter := t.porter } ∧
      (∀ n ∈ s.stallStreams k, (u.stream n).st = .free ∧ u.stream n = (s.stream n).freed) ∧ (∀ n, n ∉ s.stallStreams k → u.stream n = s.stream n) ∧
      (∀ v ∈ s.stallVoices k, u.voice v = {}) ∧
      ((u.crierSrc 0).gap = false → ∃ l r, (u.crierSrc 0).ring = l ++ [r] ∧ r.event = 0x0011 ∧ r.stall = some k ∧ r.status = .ok))

/-- GRANT (R245, R273): a stall whose turn it is, with a home session, gets credits up to its ceiling out of the
shared buffers not granted yet; the ledger, the total and the hub's sum all rise by the same number, and the GRANT is
sent. TEARDOWN_COMPLETE (R77, R79): once a torn stall holds nothing, STALL_TORN is raised with the balances of Table
3.9. -/
def Obligations.GrantsAndTeardownsSettle : Prop :=
  (∀ (k q : Nat) (s : State), s.clocked = true → s.clerkUp = true → s.grantTurn k = true → s.homeOf k = some q →
    (s.stall k).st = .open_ → 2 * (s.stall k).tally ≤ (s.stall k).ceiling →
    let d := min ((s.stall k).ceiling - (s.stall k).tally) (s.feedFreeSum - s.clerk.feedGrant)
    0 < d →
    ∃ u : State, exec (.grant k) s = .next (u.post q 3
        (beBytes 4 k ++ beBytes 4 d ++ beBytes 4 ((s.stall k).granted + BitVec.ofNat 32 d).toNat ++ beBytes 4 0) none) ∧
      u.stall k = { s.stall k with tally := (s.stall k).tally + d, granted := (s.stall k).granted + BitVec.ofNat 32 d } ∧
      (∀ j, j ≠ k → u.stall j = s.stall j) ∧
      u.clerk = { s.clerk with feedGrant := s.clerk.feedGrant + d, grantLast := k } ∧ Only [.stalls, .clerk] s u) ∧
  (∀ (k : Nat) (s : State), s.clocked = true →
    let t := s.stall k
    t.tearing = true → t.tally = 0 ∧ t.held = 0 ∧ t.pitches = 0 ∧ t.egress = 0 ∧ t.porter = 0 →
    ∃ u : State, exec (.teardownComplete k) s = .next u ∧ u.stall k = { t with tearing := false } ∧
      (∀ j, j ≠ k → u.stall j = s.stall j) ∧
      ((s.crierSrc 0).ring.length < 65536 → (u.crierSrc 0).ring = (s.crierSrc 0).ring ++
        [{ seq := (s.crierSrc 0).seq + 1, source := 0, status := t.tear, event := 0x0010, gap := (s.crierSrc 0).gap,
           stall := some k, arg := BitVec.ofNat 64 t.tear.code.toNat, ext := [0, 0, 0, 0, 0, t.opened] }]) ∧
      Only [.stalls, .criers, .clerk] s u)

/-! ## Voices and rows -/

/-- VOICE_LOAD (R40, R41, R320): an adapter image that passes Table 2.2, on rows that are LIVE, run its base and have
room. A first load takes the lowest free voice ID and the first fit in the weight region, and writes the image there
and nowhere else, but for granules of a GDDR7 die in reset, whose part waits (R424); the rows of its mask hold its hot part.
A load of a voice the stall already has replaces its mask. A stream may at most be bound to another row. The model's choices:
the load ends in the step of the command (log 32), and a reload keeps the library entry of the first load (log 125). -/
def Obligations.VoiceLoadPlacesTheVoice : Prop :=
  ∀ (h : CmdHdr) (body : List Byte) (s : State), s.Accepts (voiceLoadShape h body) h body.length →
    let k := tgt h
    let mask := fld body 4 1
    let e := s.lib (fld body 0 4)
    let b := e.bytes
    let p := pkgOf b
    let img := canonical b
    let hash := voiceHash p.baseHash p.hash
    let l := s.logged (voiceLoadShape h body) h
    let fits := fun (old : Option Nat) (had : Nat) =>
      let added := (maskRows mask).filter (fun r => !bitAt had r)
      s.adapterCheck b (maskRows mask) added = none ∧ ∀ r ∈ added,
        (s.row r).st = .live ∧ (s.rowBase r).hash = p.baseHash ∧
        cacheFits (((s.hosted r old).map (fun q => (s.lib q.entry).bytes)) ++ [b]) (s.row r).latest.presses = true
    (s.stall k).st = .open_ → e.used = true → e.ready = true → e.erasing = false → p.kind = 1 → mask ≠ 0 →
    imageCheck b e.damaged = none → recordsBad b = false → sharesOk b = true → p.imageBytes ≤ 33554432 → p.stationary ≤ 1048576 →
    (∀ i, s.baseWith p.baseHash = some i → voiceBad (s.lib (s.base i).entry).bytes b = false) →
    (∀ v addr, s.ownVoice k hash = none → (s.stall k).voices ≠ (s.stall k).vquota → fits none 0 →
      firstFit s.extents p.imageBytes = some addr → lowest Config.nVoices (fun v => !(s.voice v).loaded) = some v →
      s.closedGranules addr img.length = [] →
      ∃ u, Completes (.voiceLoad h body) s 0x20 h 1 u (voiceBody v hash) ∧
        u.voice v = loadedVoice k (fld body 0 4) mask addr b ∧ (∀ j, j ≠ v → u.voice j = s.voice j) ∧
        (∀ r ∈ maskRows mask, (u.row r).hosts v = true) ∧
        u.stall k = { s.stall k with voices := (s.stall k).voices + 1 } ∧ (∀ j, j ≠ k → u.stall j = s.stall j) ∧
        (∀ n, u.stream n = { s.stream n with row := (u.stream n).row }) ∧
        Lands addr img.length img s u ∧ (∀ a, a < addr ∨ addr + img.length ≤ a → mget u.mem a = mget s.mem a) ∧
        Only [.streams, .stalls, .voices, .rows, .engines, .channels, .mem, .flash, .heldMoves] l u) ∧
    (∀ v, s.ownVoice k hash = some v → fits (some v) (s.voice v).mask.toNat →
      ∃ u, Completes (.voiceLoad h body) s 0x20 h 1 u (voiceBody v hash) ∧
        u.voice v = { s.voice v with mask := BitVec.ofNat 8 mask } ∧ (∀ j, j ≠ v → u.voice j = s.voice j) ∧
        ((s.voice v).loaded = true → (s.voice v).inRegion = true → ∀ r ∈ maskRows mask, (u.row r).hosts v = true) ∧
        (∀ n, u.stream n = { s.stream n with row := (u.stream n).row }) ∧ Only [.streams, .voices, .rows] l u)

/-- VOICE_UNLOAD (R44, R321): a loaded voice of the stall that no stream names is unloaded and counted off, and its
hot part leaves every row; while some stream of the voice is not FREE, the command is refused with ST_STATE_CONFLICT. -/
def Obligations.VoiceUnloadWaitsForItsStreams : Prop :=
  ∀ (h : CmdHdr) (body : List Byte) (s : State), s.Accepts (voiceUnloadShape h body) h body.length →
    let v := fld body 0 2
    let users := (s.streams.filter (fun p => decide (p.2.st ≠ .free ∧ p.2.voice = v))).map Prod.fst
    v < Config.nVoices → (s.voice v).loaded = true → (s.voice v).stall = tgt h →
    (users = [] → ∃ u, Completes (.voiceUnload h body) s 0x21 h 1 u [] ∧ u.voice v = {} ∧
      (∀ j, j ≠ v → u.voice j = s.voice j) ∧ (∀ r, u.row r = { s.row r with cache := tdel (s.row r).cache v }) ∧
      u.stall (tgt h) = { s.stall (tgt h) with voices := (s.stall (tgt h)).voices - 1 } ∧
      (∀ j, j ≠ tgt h → u.stall j = s.stall j) ∧ Only [.stalls, .voices, .rows] (s.logged (voiceUnloadShape h body) h) u) ∧
    (users ≠ [] → exec (.voiceUnload h body) s =
      .next (s.reply (s.hdrDefer 0x21 h) .stateConflict 0 (conflictBytes (users.map s.streamEntry))))

/-- ROW_CONFIGURE (R47, R322, Table 2.6), accepted. To build: an ABSENT row enters BUILDING with the configuration and
the placement of the named entry at once: its presses' nodes are on and its stages are the row's. A base in no row's
use takes the first fit of the weight region, and its image stands there and nowhere else. A LIVE row, to build or to
be removed, drains: stagings not admitted are abandoned; once nothing is resident it goes on, to BUILDING, or to
ABSENT, in no voice's mask, with the removal's response. A build's response is owed meanwhile. ROW_BUILD_DONE (R47): a
BUILDING row of a module in operation is LIVE, its sequencers' queues take the placement's descriptors in order
(R188), nodes of unused units turn off (R413), and its ROW_CONFIGURE is answered ST_OK with the hash of its base; while a press of
the row is in a per-die reset (R346, R464), or a part of its base waits for a GDDR7 die in reset (R424), the build is not done. The
model's choices: the drain leaves stagings that R47 would admit (log 33), old masks drop the row as BUILDING begins (log 154), which
queues the descriptors stand on (log 117), when they are written (log 149), and the presses they name count from the row's first
(log 124). -/
def Obligations.RowsConfigureAndBuild : Prop :=
  (∀ (h : CmdHdr) (body : List Byte) (s : State), s.Accepts (rowConfigureShape h body) h body.length →
     let r := fld body 0 1
     let presses := fld body 2 1
     let quire := fld body 4 2
     let e := s.lib (fld body 8 4)
     let b := e.bytes
     let p := pkgOf b
     let img := canonical b
     let hop := max 1 p.hop
     let cfg : RowCfg := { first := fld body 1 1, presses := presses, overlap := decide (fld body 3 1 = 1), quire := quire,
                           entry := fld body 8 4 }
     let d := s.hdrDefer 0x22 h
     let same := (s.rowBase r).used = true ∧ (s.rowBase r).hash = p.hash
     let onRow := s.voices.filter (fun q => q.2.inRegion && q.2.mask.getLsbD r)
     let elsewhere := fun (v : Voice) => ∃ j ∈ v.rows, j ≠ r ∧ s.goesOn j v.baseHash = true
     let built := fun (u : State) (i : Nat) =>
       (u.row r).st = .building ∧ (u.row r).cfg = { cfg with base := some i } ∧ (u.row r).newCfg = none ∧
       (u.row r).defer = some d ∧ (u.row r).prog = rowProgram b presses ∧ (∀ j, j ≠ r → u.row j = s.row j) ∧
       (∀ q ∈ cfg.pressList, q ∈ u.clk.on) ∧ (∀ x ∈ (placementOf b presses).stages, (u.stage (16 * cfg.first + x.key)).row = some r)
     let drains := fun (u : State) (new : RowCfg) =>
       (∀ n, (s.stream n).staged = true → (s.stream n).row = some r → (u.stream n).staged = false) ∧
       (0 < (s.row r).resident → (u.row r).st = .draining ∧ (u.row r).cfg = (s.row r).cfg ∧ (u.row r).newCfg = some new ∧
         (u.row r).defer = some d ∧ u.sent = s.sent)
     (presses ∈ pressCounts → cfg.first % presses = 0 → cfg.first + presses ≤ 16 → e.used = true → e.ready = true →
       e.erasing = false → p.kind = 0 → quire % hop = 0 → hop ≤ quire → quire ≤ 32 * hop → quire ≤ 7680 →
       (p.mode = 1 → p.scanFrames * hop ≤ quire) → s.otherOwners r cfg = [] →
       (same ∨ ∀ q ∈ onRow, elsewhere q.2) → (∀ q ∈ cfg.pressList, (s.press q).retired = false) →
       (same → cacheFits (onRow.map (fun q => (s.lib q.2.entry).bytes)) presses = true) →
       imageCheck b e.damaged = none → presses ∈ pkgCounts b → recordsBad b = false → descsBad b presses = false →
       placementOk b presses = true → (∀ d ∈ s.power.dieWait, d.1 ∉ cfg.pressList ∧ d.1 ∉ (s.row r).cfg.pressList) →
       (∀ i, s.baseWith p.hash = some i →
         ((s.row r).st = .absent → ∃ u : State, exec (.rowConfigure h body) s = .next (u.startCmd h) ∧ built u i ∧ u.sent = s.sent) ∧
         ((s.row r).st = .live → ∃ u : State, exec (.rowConfigure h body) s = .next (u.startCmd h) ∧ drains u { cfg with base := some i } ∧
           ((s.row r).resident = 0 → s.rowStaged r = [] → built u i ∧ u.sent = s.sent))) ∧
       (∀ i addr, s.baseWith p.hash = none → (s.bases.filter (fun q => q.2.used)).length < 8 → p.imageBytes ≤ 4294967296 →
         firstFit s.extents p.imageBytes = some addr → lowest 8 (fun i => !(s.base i).used) = some i →
         (s.row r).st = .absent → s.closedGranules addr img.length = [] →
           ∃ u : State, exec (.rowConfigure h body) s = .next (u.startCmd h) ∧ built u i ∧ u.sent = s.sent ∧
             u.base i = { reservedBase (fld body 8 4) addr b with loaded := true } ∧
             Lands addr img.length img s u ∧ (∀ a, a < addr ∨ addr + img.length ≤ a → mget u.mem a = mget s.mem a))) ∧
     (presses = 0 → cfg.first = 0 → fld body 3 1 = 0 → quire = 0 → fld body 8 4 = 0 → (s.row r).st = .live →
       (∀ q ∈ onRow, elsewhere q.2) →
       ∃ u : State, exec (.rowConfigure h body) s = .next (u.startCmd h) ∧ drains u {} ∧
         ((s.row r).resident = 0 → s.rowStaged r = [] →
           (u.row r).st = .absent ∧ (u.row r).cfg = {} ∧ (u.row r).newCfg = none ∧ (u.row r).defer = none ∧
           (∀ v, (u.voice v).mask.getLsbD r = false) ∧
           ∃ w : State, u = w.respond d .ok 1 ([BitVec.ofNat 8 r, 0, 0, 0] ++ List.replicate 32 0))) ∧
     (∀ (t : State), (t.row r).st = .draining → (t.row r).newCfg = some {} → (t.row r).resident = 0 →
       ((t.rowSettle r).row r).st = .absent ∧ ((t.rowSettle r).row r).cfg = {} ∧ ((t.rowSettle r).row r).defer = none ∧
       ∀ v, ((t.rowSettle r).voice v).mask.getLsbD r = false)) ∧
  (∀ (r : Nat) (s : State), s.clocked = true → s.rowInReset r = true ∨
     (∃ m ∈ s.heldMoves, (s.rowBase r).addr ≤ m.addr ∧ m.addr < (s.rowBase r).addr + (s.rowBase r).bytes) →
     exec (.rowBuildDone r) s = .next s) ∧
  (∀ (r : Nat) (s : State), s.clocked = true → s.awake = true → (s.row r).st = .building → s.rowInReset r = false →
     (∀ m ∈ s.heldMoves, ¬((s.rowBase r).addr ≤ m.addr ∧ m.addr < (s.rowBase r).addr + (s.rowBase r).bytes)) →
     let c := (s.row r).cfg
     let units := c.pressList.flatMap unitNodes
     let l := (placementOf (s.lib c.entry).bytes c.presses).descs
     ∃ u : State, exec (.rowBuildDone r) s = .next (u.answer (s.row r).defer .ok
         ([BitVec.ofNat 8 r, 3, 0, 0] ++ wordBytes (((c.base).map (s.base ·)).getD {}).hash)) ∧
       u.row r = { s.row r with st := .live, defer := none } ∧ (∀ j, j ≠ r → u.row j = s.row j) ∧
       (∀ e q, (tget ({} : PQueue) (u.engine e).queues q).descs.map (·.d) =
         (tget ({} : PQueue) (s.engine e).queues q).descs.map (·.d) ++
           (l.filter (fun x => decide (c.first + x.1 / 16 = e ∧ x.2.1 = q ∧ s.producerOf e q = .core (16 * c.first + x.1) ∧
             (placed c.first (descOf x.2.2)).op ≠ 1))).map (fun x => placed c.first (descOf x.2.2))) ∧
       (∀ n, n ∈ u.clk.on ↔ n ∈ s.clk.on ∧ ¬(n ∈ units ∧ n ∉ s.clk.used)) ∧ u.clk = { s.clk with on := u.clk.on } ∧
       Only [.rows, .engines, .clk] s u)

/-! ## Streams -/

/-- STREAM_OPEN (R52, R53, R55, R323): the lowest FREE stream ID whose egress buffers hold no samples becomes IDLE;
both feed sequence numbers stand one below `first_seq`, its folio slot gets the initial state of its voice's base and
its journal slot an empty journal, and nothing else of memory changes; a granule of either whose GDDR7 die is in reset is written
when the die is back (R424). -/
def Obligations.StreamOpenStartsBelowFirstSeq : Prop :=
  ∀ (h : CmdHdr) (body : List Byte) (s : State) (n : Nat), s.Accepts (streamOpenShape body) h body.length →
    let k := tgt h
    let v := fld body 0 2
    let e := { egressOf (body.drop 16) with
      kind := fld body 2 1, index := fld body 12 2, gen := (s.sess (fld body 12 2)).gen, rVoice := (s.voice v).rate, stall := k, markerNext := true }
    let first := BitVec.ofNat 32 (fld body 4 4)
    let ssrc := BitVec.ofNat 32 (fld body 8 4)
    let mayTake := fun j => (s.stream j).st = .free ∧ (s.egr j).busy = false
    let pkg := s.basePackage (s.voice v)
    let a := folioAddr n
    let b := Config.journalBase + n * Config.journalSlot
    let set := (initExponents (imageOps pkg)).map (fun x => a + 256 + x.1)
    let held := s.stoppedGranules a Config.folioBytes ++ s.stoppedGranules b 64
    s.fw.restart = none → v < Config.nVoices → (s.voice v).loaded = true → codecKnown e = true → s.egressOk k e = true →
    ¬(e.kind = 2 ∧ (s.sess e.index).version = 6) → (s.voice v).stall = k → (s.stall k).st = .open_ →
    (s.stall k).opened < (s.stall k).quota → n < Config.nStreams → mayTake n → (∀ j, j < n → ¬mayTake j) →
    s.closedGranules b 64 = [] →
    ∃ u, Completes (.streamOpen h body) s 0x30 h 0 u (beBytes 4 n) ∧
      u.stream n = {
        st := .idle, scan := (s.voice v).scan, stall := k, voice := v, row := s.pickRow (s.voice v).rows,
        outKind := fld body 2 1, outIndex := fld body 12 2, lastAcc := first - 1, lastEm := first - 1, ssrc := ssrc,
        origin := n, seed := (s.stall k).seed } ∧ (∀ j, j ≠ n → u.stream j = s.stream j) ∧
      u.egr n = { e with ssrc := ssrc, life := s.stamp + 1 } ∧ (∀ j, j ≠ n → u.egr j = s.egr j) ∧
      u.stall k = { s.stall k with opened := (s.stall k).opened + 1 } ∧ (∀ j, j ≠ k → u.stall j = s.stall j) ∧
      u.journal n = { complete := true, firstSeq := first } ∧ (∀ j, j ≠ n → u.journal j = s.journal j) ∧
      (held = [] → mread u.mem a 256 = folioHeader (u.stream n) (s.voice v).hash (hotStateOf pkg) (coldBytesOf pkg)) ∧
      (∀ i, a + 256 ≤ i → i < a + Config.folioBytes → i ∉ set → i / 512 ∉ held → mget u.mem i = 0) ∧
      (∀ i, i / 512 ∈ held → mget u.mem i = mget s.mem i) ∧
      (∀ i, (i < a ∨ a + Config.folioBytes ≤ i) → (i < b ∨ b + Config.journalSlot ≤ i) → i ∉ set →
        mget u.mem i = mget s.mem i) ∧
      Only [.stamp, .streams, .egress, .journals, .stalls, .engines, .channels, .mem, .heldMoves] s u

/-- STREAM_FEED (R56, R57, R244): a chunk of 1 to 512 valid tokens with the expected number, within the limit and paid
for by credits or else by the stream's floor, is accepted: the sequence number, the pending frames and the ledgers
move, it is queued, its tokens stand little-endian in its buffers (R28; where those lie is log 62, the model's choice), and an
unpaused IDLE or PARKED stream with frames becomes QUEUED. On a stream that holds no feed
buffer, the chunk's leading buffers of duration 0 are released at once, and one of no frames is complete at once (R59, R246). A chunk ahead is refused with ST_SEQ_GAP, one behind is a duplicate
and counted, one too many frames is refused with ST_QUOTA, a token count out of range with ST_BAD_LENGTH: those change
nothing but the session's status records and that count. -/
def Obligations.StreamFeedTakesTheExpectedChunk : Prop :=
  ∀ (k : Nat) (c : Chunk) (s : State), s.clocked = true → s.clerkUp = true → (s.sess k).st = .opened →
    let n := c.stream.toNat
    let x := s.stream n
    let t := s.stall x.stall
    let f := frames c.tokens
    let need := bufsFor c.tokens.length
    let lead := ((List.range need).filter (fun i => decide (frames (c.tokens.take (32 * (i + 1))) = 0))).length
    let whole := x.feedUnits ≠ 0 ∨ (lead = 0 ∧ x.chunks = [])
    let rec_ : FeedRec := { stream := n % 2 ^ 18, none_ := false, seq := c.seq, status := .ok, credits := 0, state := 0, info := 0 }
    let reply := fun (l : List Field) (r : FeedRec) (more : State → Prop) => ∃ u : State, exec (.streamFeed k c) s = .next u ∧
      u.sess k = { s.sess k with feedRecs := (s.sess k).feedRecs ++ [r] } ∧ (∀ j, j ≠ k → u.sess j = s.sess j) ∧
      more u ∧ Only (.sessions :: l) s u
    let nothing := fun (_ : State) => True
    let takes := fun (credits : Nat) (floor : Bool) => ∃ u : State, exec (.streamFeed k c) s = .next u ∧
      (u.stream n).lastAcc = c.seq ∧ (u.stream n).pendFrames = x.pendFrames + f ∧
      (u.stream n).samples = x.samples ∧ (u.stream n).marks = x.marks ∧
      (whole → (u.stream n).lastEm = x.lastEm ∧ ∃ b, (u.stream n).chunks = x.chunks ++
        [{ seq := c.seq, tokens := c.tokens, frame0 := x.fedFrames, bufs := b, floor := floor }] ∧
        (floor = true → b = [] ∧ mread u.mem (floorKey n) (16 * c.tokens.length) = c.tokens.flatMap tokenBytes) ∧
        (∀ d i, need = 1 → b = [(d, i)] → mread u.mem (sharedKey d i) (16 * c.tokens.length) = c.tokens.flatMap tokenBytes)) ∧
      (x.feedUnits = 0 → x.chunks = [] → 0 < lead → 0 < f → (u.stream n).lastEm = x.lastEm ∧ ∃ b, (u.stream n).chunks =
        [{ seq := c.seq, tokens := c.tokens, frame0 := x.fedFrames, bufs := b, floor := false, freed := lead }]) ∧
      (x.feedUnits = 0 → x.chunks = [] → f = 0 → (u.stream n).lastEm = c.seq ∧ (u.stream n).chunks = []) ∧
      (u.stream n).st =
        (if (x.st = .idle ∨ x.st = .parked) ∧ x.paused = false ∧ 0 < x.pendFrames + f then .queued else x.st) ∧
      (∀ j, j ≠ n → u.stream j = s.stream j) ∧
      (t.st = .open_ → (u.stall x.stall).tally = t.tally - credits ∧
        (whole → (u.stall x.stall).held = t.held + (if floor then 1 else credits))) ∧
      u.clerk.feedGrant = s.clerk.feedGrant - credits ∧
      (u.sess k).feedRecs = (s.sess k).feedRecs ++ [{ rec_ with credits := credits }] ∧
      (∀ j, j ≠ k → u.sess j = s.sess j)
    (c.tokens.length = 0 ∨ 512 < c.tokens.length →
      reply [] { stream := 0, none_ := true, seq := 0, status := .badLength, credits := 0, state := 0, info := 0 } nothing) ∧
    (1 ≤ c.tokens.length → c.tokens.length ≤ 512 → n < 2 ^ 18 → c.rsv = 0 → (s.sess k).role ≠ 0 → (s.sess k).peer = false →
      ((s.sess k).stall = none ∨ (s.sess k).stall = some x.stall) → x.st ≠ .free → x.st ≠ .faulted → t.st ≠ .torn →
      (2 ^ 31 < (c.seq - x.lastAcc - 1).toNat →
        reply [.vct] { rec_ with info := 1 } (fun u => u.vct = { s.vct with dups := s.vct.dups + 1 })) ∧
      (1 ≤ (c.seq - x.lastAcc - 1).toNat → (c.seq - x.lastAcc - 1).toNat ≤ 2 ^ 31 →
        reply [] { rec_ with status := .seqGap, info := x.lastAcc + 1 } nothing) ∧
      (c.seq = x.lastAcc + 1 → x.endReq = false → x.exportMove = false →
        c.tokens.all (tokenOk (s.voice x.voice).inventory) = true →
        (16777215 < x.pendFrames + f → reply [] { rec_ with status := .quota } nothing) ∧
        (x.pendFrames + f ≤ 16777215 → need ≤ t.tally → takes need false) ∧
        (x.pendFrames + f ≤ 16777215 → t.tally < need → need = 1 → x.floorHeld = false → takes 0 true)))

/-- STREAM_MARK (R70, R324) on a frame position at or past the boundary and past every pending mark appends it, two
marks pending at most before; a position already pending is answered and changes nothing. Both answer the count and
boundary. STREAM_PAUSE (Table 3.5) stops further admission: at once on a stream at rest, giving back what a QUEUED one
has staged; on a RESIDENT or DRAINING one the response is owed until the folio is written. STREAM_RESUME lifts it, and
a stream with frames pending becomes QUEUED. Each answers the state. A stream whose row hosts its voice stays bound to
it. The model's choices: `paused` is set at acceptance also on a RESIDENT or DRAINING stream (log 43), and a position already
pending is looked for before the boundary (log 47). -/
def Obligations.StreamsTakeMarksAndPause : Prop :=
  (∀ (h : CmdHdr) (body : List Byte) (s : State), s.Accepts (streamMarkShape body) h body.length →
     let n := streamArg body
     let p := fld body 6 6
     let x := s.stream n
     n < Config.nStreams → x.st ≠ .free → x.stall = tgt h → x.st ≠ .faulted → x.endReq = false → x.exportMove = false →
     p % max 1 (s.hopOf n) = 0 →
     (p ∉ x.marks → s.boundary n ≤ p → (∀ m ∈ x.marks, m ≤ p) → x.marks.length < 3 →
       ∃ u, Completes (.streamMark h body) s 0x32 h 0 u (markBody (x.marks.length + 1) (s.boundary n)) ∧
         u.stream n = { x with marks := x.marks ++ [p] } ∧ (∀ j, j ≠ n → u.stream j = s.stream j) ∧ Only [.streams] s u) ∧
     (p ∈ x.marks → Completes (.streamMark h body) s 0x32 h 0 s (markBody x.marks.length (s.boundary n)))) ∧
  (∀ (h : CmdHdr) (body : List Byte) (s : State),
     let n := streamArg body
     let x := s.stream n
     let stays := ∃ r ∈ s.bindRows x, x.row = some r
     n < Config.nStreams → x.st ≠ .free → x.stall = tgt h → x.st ≠ .faulted →
     (s.Accepts (streamPauseShape body) h body.length → x.paused = false →
       (x.st = .idle ∨ x.st = .parked → ∃ u, Completes (.streamPause h body) s 0x33 h 0 u (stateBody x.st) ∧
         u.stream n = { x with paused := true } ∧ (∀ j, j ≠ n → u.stream j = s.stream j) ∧ Only [.streams] s u) ∧
       (x.st = .queued → ∃ u, Completes (.streamPause h body) s 0x33 h 0 u (stateBody .idle) ∧
         u.stream n = { x with
           paused := true, st := .idle, staged := false, row := (u.stream n).row,
           pitch := if x.staged then 0 else x.pitch, readyAt := if x.staged then none else x.readyAt,
           copyIn := if x.staged then .none else x.copyIn } ∧
         (x.staged = false ∨ stays → (u.stream n).row = x.row) ∧ (∀ j, j ≠ n → u.stream j = s.stream j) ∧
         Only [.streams, .egress, .stalls, .rows, .presses, .engines, .dies, .criers, .clerk, .rings] s u) ∧
       (x.st = .resident ∨ x.st = .draining → ∃ u : State, exec (.streamPause h body) s = .next (u.startCmd h) ∧
         u.stream n = { x with paused := true, deferPause := x.deferPause ++ [s.hdrDefer 0x33 h] } ∧
         (∀ j, j ≠ n → u.stream j = s.stream j) ∧ Only [.streams] s u)) ∧
     (s.Accepts (streamResumeShape body) h body.length → x.paused = true →
       let wakes := (x.st = .idle ∨ x.st = .parked) ∧ 0 < x.pendFrames
       ∃ u, Completes (.streamResume h body) s 0x34 h 0 u (stateBody (if wakes then .queued else x.st)) ∧
         u.stream n = { x with
           paused := false, st := if wakes then .queued else x.st, row := (u.stream n).row,
           queuedAt := if wakes then s.stamp else x.queuedAt } ∧
         (¬wakes ∨ stays → (u.stream n).row = x.row) ∧
         (∀ j, j ≠ n → u.stream j = s.stream j) ∧ Only [.stamp, .streams, .flash] s u))

/-- STREAM_END (Table 3.4, R65) with no export pending. Graceful: a stream with frames still to play is marked and
goes on; one at rest with none is freed and its waiting samples still leave. Abort: a stream at rest is freed and its
samples are dropped; one on a row keeps only what is admitted. A FAULTED stream is freed with its status. A freed
stream's entry is the FREE entry (a fetch of its pages that is under way goes on, R213), its stall counts it off, and STREAM_FREED carries the status, sample_count and the
marks discarded. STREAM_PARK (R392, R397) of an IDLE stream with nothing pending draws one unit, and the hub porter is
to copy the folio. PARK_DONE (R67), once it has: a good end makes the record valid under its handle, in flash and in
the entry; a failed or a discarded write leaves no record, the entry as it was, and its PARK_DONE record says so. The model's
choices: an abort releases the chunks it discards at once (log 42), the entry's handle is written with the record (log 54), and
the copy stands in queue n mod 128 of engine 24 (log 70). -/
def Obligations.StreamsEndAndPark : Prop :=
  (∀ (h : CmdHdr) (body : List Byte) (s : State), s.Accepts (streamEndShape body) h body.length →
     let n := streamArg body
     let x := s.stream n
     let e := s.egr n
     let t := s.stall x.stall
     let abort := fld body 4 1
     let src := 1 + n % 4
     let frees := fun (st : Status) (keeps drops : Prop) => ∃ u,
       Completes (.streamEnd h body) s 0x35 h 0 u (stateBody .free) ∧ u.stream n = x.freed ∧ (∀ j, j ≠ n → u.stream j = s.stream j) ∧
       (t.st = .open_ → (u.stall x.stall).opened = t.opened - 1 ∧ (u.stall x.stall).ended = t.ended + 1) ∧
       (keeps → (u.egr n).bufs = e.bufs) ∧ (drops → (u.egr n).bufs = []) ∧
       ((u.crierSrc src).gap = false → ∃ l r, (u.crierSrc src).ring = l ++ [r] ∧ r.event = 0x0001 ∧ r.stream = some n ∧
         r.stall = some x.stall ∧ r.status = st ∧
         r.arg = BitVec.ofNat 64 (x.samples % 2 ^ 48 + 2 ^ 48 * ((x.marks.length + x.dropped) % 256)))
     n < Config.nStreams → x.st ≠ .free → x.stall = tgt h → x.exportReq = false →
     (x.st = .faulted → abort = 0 → frees x.status False False) ∧
     (x.st = .faulted → abort = 1 → frees x.status False True) ∧
     (abort = 0 → x.st = .idle ∨ x.st = .parked → x.pendFrames = 0 → frees .ok (e.kind ≠ 3 ∧ e.cutTo = none) (e.kind = 3)) ∧
     (abort = 0 → x.st = .queued ∨ x.st = .resident ∨ x.st = .draining →
       ∃ u, Completes (.streamEnd h body) s 0x35 h 0 u (stateBody x.st) ∧
         u.stream n = { x with endReq := true, paused := false } ∧ (∀ j, j ≠ n → u.stream j = s.stream j) ∧
         Only [.streams] s u) ∧
     (abort = 0 → x.st = .idle ∨ x.st = .parked → 0 < x.pendFrames →
       ∃ u, Completes (.streamEnd h body) s 0x35 h 0 u (stateBody .queued) ∧
         u.stream n = { x with endReq := true, paused := false, st := .queued, queuedAt := s.stamp, row := (u.stream n).row } ∧
         ((∃ r ∈ s.bindRows x, x.row = some r) → (u.stream n).row = x.row) ∧
         (∀ j, j ≠ n → u.stream j = s.stream j) ∧ Only [.stamp, .streams, .flash] s u) ∧
     (abort = 1 → x.st = .idle ∨ x.st = .parked ∨ x.st = .queued → frees .ok False True) ∧
     (∀ q, abort = 1 → x.st = .resident ∨ x.st = .draining → x.quire = some q →
       ∃ u, Completes (.streamEnd h body) s 0x35 h 0 u (stateBody x.st) ∧
         (u.stream n).st = x.st ∧ (u.stream n).endReq = true ∧ (u.stream n).paused = false ∧ (u.stream n).pendFrames = 0 ∧
         (u.stream n).quire = some q ∧ (u.stream n).chunks = x.chunks.filter (fun c => decide (c.frame0 < q.frame0 + q.frames)) ∧
         (u.stream n).marks = x.marks.filter (fun m => q.marks.contains m) ∧
         (∀ j, j ≠ n → u.stream j = s.stream j) ∧ Only [.streams, .stalls, .dies] s u)) ∧
  (∀ (h : CmdHdr) (body : List Byte) (s : State), s.Accepts (streamParkShape body) h body.length →
     let n := streamArg body
     let x := s.stream n
     let p := s.park n
     let queue := fun (w : State) => (tget ({} : PQueue) (w.engine 24).queues (n % 128)).descs.map (·.d)
     n < Config.nStreams → x.stall = tgt h → x.st = .idle → x.pendFrames = 0 → x.endReq = false → s.flash.readOnly = false →
     1 ≤ s.flash.tally →
     ∃ u, Completes (.streamPark h body) s 0x36 h 0 u (stateBody .parked) ∧
       u.stream n = { x with st := .parked } ∧ (∀ j, j ≠ n → u.stream j = s.stream j) ∧
       u.flash.tally = s.flash.tally - 1 ∧
       (p.writing = false → u.park n = {
         st := .writing, gen := (p.gen + 1) % 16384, stall := x.stall, samples := x.samples,
         writing := true, gone := p.gone, copied := p.copied }) ∧
       (∀ j, j ≠ n → u.park j = s.park j) ∧ queue u = queue s ++ [parkCopy n] ∧
       Only [.streams, .engines, .criers, .clerk, .flash] s u) ∧
  (∀ (n : Nat) (ok : Bool) (s : State), s.clocked = true → s.awake = true → (s.park n).gone = [] → (s.park n).writing = true →
     0 < (s.park n).copied →
     let p := s.park n
     let x := s.stream n
     let handle := n + 2 ^ 18 * p.gen
     let ends := fun (u : State) (st : Status) (arg : Nat) => exec (.parkDone n ok) s = .next u ∧
       (∀ j, j ≠ n → u.stream j = s.stream j) ∧ (∀ j, j ≠ n → u.park j = s.park j) ∧
       ((u.crierSrc 12).gap = false → ∃ l r, (u.crierSrc 12).ring = l ++ [r] ∧ r.event = 0x0003 ∧ r.stream = some n ∧
         r.status = st ∧ r.arg = BitVec.ofNat 64 arg) ∧ Only [.free, .streams, .criers, .clerk, .flash] s u
     let lost : Park := { gen := p.gen, copied := p.copied - 1, reading := p.reading, fetched := p.fetched }
     (p.discard = none → ok = true → ∃ u, ends u .ok handle ∧
       u.stream n = { x with inFlash := true, handle := BitVec.ofNat 32 handle, res := .inFlash } ∧
       u.park n = { p with st := .valid, writing := false, copied := p.copied - 1 }) ∧
     (p.discard = none → ok = false → ∃ u, ends u .dataError handle ∧ u.stream n = x ∧ u.park n = lost) ∧
     (∀ st, p.discard = some st → ∃ u, ends u st 0 ∧ u.stream n = x ∧ u.park n = lost))

/-- STREAM_EXPORT (R326): a stream at rest whose pages are here and whose image no uncorrectable granule spoils is
frozen under the lowest free handle (log 162: the model's choice), its image is held, and the descriptor is the response; a copy
leaves the stream, a move frees it, and its FREE entry keeps the stall that it moved from (log 135: the model's). Of any other
stream the response is owed. STREAM_QUERY (R325) answers the entry and the egress entry
and changes nothing. -/
def Obligations.ExportFreezesAndQueryReads : Prop :=
  (∀ (h : CmdHdr) (body : List Byte) (s : State), s.Accepts (streamExportShape body) h body.length →
    let n := streamArg body
    let x := s.stream n
    let move := fld body 4 1
    let port := (s.sess h.session).src.port
    let rests := x.st = .idle ∨ x.st = .parked ∨ (x.st = .queued ∧ x.staged = false)
    n < Config.nStreams → x.st ≠ .free → x.stall = tgt h → x.st ≠ .faulted → x.exportReq = false →
    (move = 1 → x.endReq = false) → s.exportsHeld < 1024 → ∀ i, s.freeHandle = some i →
    let d := s.exportDescriptor n i (s.imageBytes n).length port (decide (move = 1))
    (rests → x.res ≠ .remote → s.imagePoisoned n = false →
      (move = 0 → ∃ u, Completes (.streamExport h body) s 0x37 h 0 u d ∧ u.img i = { held := true, bytes := s.imageBytes n } ∧
        (∀ j, j ≠ i → u.img j = s.img j) ∧ Only [.channels, .exports, .flash, .heldMoves] s u) ∧
      (move = 1 → ∃ u, Completes (.streamExport h body) s 0x37 h 0 u d ∧ u.img i = { held := true, bytes := s.imageBytes n } ∧
        (∀ j, j ≠ i → u.img j = s.img j) ∧ u.stream n = { x.freed with movedBy := some x.stall } ∧ (∀ j, j ≠ n → u.stream j = s.stream j))) ∧
    (¬rests ∨ x.res = .remote →
      ∃ u : State, exec (.streamExport h body) s = .next (u.startCmd h) ∧
        u.stream n = { x with exportReq := true, exportMove := decide (move = 1), deferExport := some (s.hdrDefer 0x37 h) } ∧
        (∀ j, j ≠ n → u.stream j = s.stream j) ∧ Only [.streams] s u)) ∧
  (∀ (h : CmdHdr) (body : List Byte) (s : State), s.Accepts (streamQueryShape body) h body.length →
    let n := streamArg body
    modScope h = true ∨ (n < Config.nStreams ∧ (s.stream n).st ≠ .free ∧ (s.stream n).stall = tgt h) →
    Completes (.streamQuery h body) s 0x39 h 0 s
      (wordsBE (streamWords (s.stream n)) ++ wordsBE (egressWords (if (s.stream n).st = .free then {} else s.egr n))))

/-- STREAM_IMPORT (R327, R356, R357) takes the lowest stream ID R52 allows and restores what the descriptor carries:
with an image the pages are remote and a fetch is under way; a peer replay starts from the initial folio, which its folio slot
gets, at the start frame F of its frame-aligned position; a journal replay, whose journal can be read, starts from the initial folio
too and takes the records of the FAULTED stream's journal as its pending chunks; records of no frames at its front are complete at
once (R59). A granule of the slot whose GDDR7 die is in reset is written when the die is back (R424). The model's choices: the gather
of a replay ends in the step of its command (log 147), and the corners of a journal replay are log 49. -/
def Obligations.StreamImportRestoresTheStream : Prop :=
  ∀ (h : CmdHdr) (body : List Byte) (s : State) (n : Nat), s.Accepts (streamImportShape body) h body.length →
    let k := tgt h
    let d := importDesc body
    let kind := fld body 172 1
    let index := fld body 174 2
    let y := s.stream d.stream
    let j := s.journal d.stream
    let mayTake := fun i => (s.stream i).st = .free ∧ (s.egr i).busy = false
    let a := folioAddr n
    let b := Config.journalBase + n * Config.journalSlot
    let held := s.stoppedGranules a Config.folioBytes
    let initial := fun (x : Voice) (y : Stream) (u : State) =>
      let pkg := s.basePackage x
      let set := (initExponents (imageOps pkg)).map (fun e => a + 256 + e.1)
      (held = [] → mread u.mem a 256 = folioHeader y x.hash (hotStateOf pkg) (coldBytesOf pkg)) ∧
      (∀ i, a + 256 ≤ i → i < a + Config.folioBytes → i ∉ set → i / 512 ∉ held → mget u.mem i = 0)
    s.fw.restart = none → kind = 0 ∨ kind = 2 ∨ kind = 3 → ¬(kind = 2 ∧ (s.sess index).version = 6) →
    (s.stall k).st = .open_ → (s.stall k).opened < (s.stall k).quota →
    n < Config.nStreams → mayTake n → (∀ i, i < n → ¬mayTake i) →
    (d.bytes ≠ 0 → ∀ v, s.ownVoice k d.hash = some v →
      let x := s.voice v
      let e := { importEgress d.egress kind index x.rate k with gen := (s.sess index).gen }
      codecKnown e = true → s.egressOk k { e with rVoice := if x.rate = 0 then 8000 else x.rate } = true →
      524288 + 32 * d.chunks ≤ d.bytes → d.scan = x.scan → importBufs d ≤ s.ungranted →
      ∃ u, Completes (.streamImport h body) s 0x38 h 0 u
          (importBody n (if 0 < d.pend ∧ d.paused = false then .queued else .idle)) ∧
        (u.stream n).st = (if 0 < d.pend ∧ d.paused = false then .queued else .idle) ∧ (u.stream n).voice = v ∧
        (u.stream n).samples = d.samples ∧ (u.stream n).lastAcc = d.lastAcc ∧ (u.stream n).lastEm = d.lastEm ∧
        (u.stream n).pendFrames = d.pend ∧ (u.stream n).marks = d.marks ∧ (u.stream n).origin = d.origin ∧
        (u.stream n).ssrc = d.ssrc ∧ (u.stream n).seed = d.seed ∧ (u.stream n).lastMark = d.lastMark ∧
        (u.stream n).res = .remote ∧ (u.stream n).fetch.isSome = true ∧ (∀ i, i ≠ n → u.stream i = s.stream i) ∧
        (u.stall k).opened = (s.stall k).opened + 1 ∧ (u.stall k).held = (s.stall k).held + importBufs d) ∧
    (d.bytes = 0 → d.handle = 0 → ∀ v, s.ownVoice k d.hash = some v →
      let x := s.voice v
      let e := { importEgress d.egress kind index x.rate k with gen := (s.sess index).gen }
      codecKnown e = true → s.egressOk k { e with rVoice := if x.rate = 0 then 8000 else x.rate } = true →
      replayOk d body = true → d.scan = x.scan → peerOk d x.hop (Egress.nv { d.egress with rVoice := x.rate }) = true →
      ∃ u, Completes (.streamImport h body) s 0x38 h 0 u (importBody n .idle) ∧
        (u.stream n).st = .idle ∧ (u.stream n).voice = v ∧ (u.stream n).samples = d.samples ∧ (u.stream n).marks = d.marks ∧
        (u.stream n).res = .present ∧ (u.journal n).complete = true ∧ (u.journal n).firstFrame = d.samples / max 1 x.hop ∧
        u.clerk.replayPeer = s.clerk.replayPeer + 1 ∧ (∀ i, i ≠ n → u.stream i = s.stream i) ∧
        initial x (u.stream n) u ∧
        (∀ i, (i < a ∨ a + Config.folioBytes ≤ i) → (i < b ∨ b + Config.journalSlot ≤ i) →
          i ∉ (initExponents (imageOps (s.basePackage x))).map (fun e => a + 256 + e.1) → mget u.mem i = mget s.mem i) ∧
        (u.stall k).opened = (s.stall k).opened + 1) ∧
    (d.bytes = 0 → d.handle = 2 ^ 32 - 1 → y.stall = k → y.st = .faulted → y.status = .dataError ∨ y.status = .timeout →
      j.complete = true → s.journalPoisoned d.stream = false →
      let x := s.voice y.voice
      let e := { importEgress (s.egr d.stream) kind index x.rate k with gen := (s.sess index).gen }
      codecKnown e = true → s.egressOk k { e with rVoice := if x.rate = 0 then 8000 else x.rate } = true →
      replayOk d body = true → (∃ r ∈ s.barrierRows x, (s.row r).st = .live) →
      (j.records.map (fun c => bufsFor c.tokens.length)).sum ≤ s.ungranted →
      let total := (j.records.map (fun c => frames c.tokens)).sum
      let j0 := ((j.records.head?).map (·.frame0)).getD 0
      ∃ u, Completes (.streamImport h body) s 0x38 h 0 u
          (importBody n (if 0 < total ∧ d.paused = false then .queued else .idle)) ∧
        (u.stream n).st = (if 0 < total ∧ d.paused = false then .queued else .idle) ∧ (u.stream n).barrier = true ∧
        (u.stream n).pendFrames = total ∧ (u.stream n).samples = j.firstFrame * max 1 x.hop ∧
        (u.stream n).marks = j.replayMark :: y.marks ∧ (u.stream n).lastAcc = y.lastAcc ∧ (u.stream n).lastEm = emittedBy j0 (j.firstSeq - 1) j.records ∧
        (u.stream n).origin = y.origin ∧ (u.stream n).ssrc = y.ssrc ∧ (u.stream n).seed = y.seed ∧
        (u.stream n).chunks.map (fun c => (c.seq, c.tokens)) =
          (j.records.dropWhile (fun c => decide (c.frame0 + frames c.tokens ≤ j0))).map (fun c => (c.seq, c.tokens)) ∧
        u.journal n = j ∧ initial x { u.stream n with lastEm := j.firstSeq - 1 } u ∧
        u.clerk.replayJrnl = s.clerk.replayJrnl + 1 ∧ (∀ i, i ≠ n → u.stream i = s.stream i))

/-! ## The row pipeline -/

/-- STAGING (R93, R247): a LIVE row that may stage some stream stages one: of the stall the rotation serves while its
share lasts and it has one, else of the next stall after it; of that stall the one queued longest. A free pitch, the
floors and a place are claimed, and the row's scheduler asks its porter for the hot image. STAGING_COMPLETE (R227): once the
copy's barrier has signalled (R204), whose signal is taken, a header that fits completes the staging; any other faults the stream.
ADMISSION (R94): of the staged streams whose voice the row hosts, the one whose staging completed earliest is RESIDENT with its
quire fixed, and its frame tokens wait at the token stage. The model's choices: which descriptor and queue the copy has, and which
counter its signal (log 58), and that the rotation passes on when its stall has nothing (log 150). -/
def Obligations.StagingClaimsAndAdmissionAdmits : Prop :=
  (∀ (r : Nat) (s : State), s.clocked = true → s.awake = true → (s.row r).st = .live → s.clerk.failed = none →
    s.candidates r ≠ [] →
    let w := s.row r
    let stall := fun (j : Nat) => (s.stream j).stall
    ∃ n p u, exec (.staging r) s = .next u ∧ n ∈ s.candidates r ∧ s.freePitch n = some p ∧
      (let next := fun (last : Nat) => ∀ j ∈ s.candidates r,
         (stall n + Config.nStalls - last - 1) % Config.nStalls ≤ (stall j + Config.nStalls - last - 1) % Config.nStalls
       (w.cur = none → next w.lastServed) ∧
       (∀ c, w.cur = some c →
         (tget 0 w.granted c ≠ w.weight → (∃ j ∈ s.candidates r, stall j = c) → stall n = c) ∧
         (tget 0 w.granted c = w.weight ∨ (∀ j ∈ s.candidates r, stall j ≠ c) → next c))) ∧
      (∀ j ∈ s.candidates r, stall j = stall n → (s.stream n).queuedAt ≤ (s.stream j).queuedAt) ∧
      u.stream n = { s.stream n with staged := true, pitch := p, claimAt := s.stamp, readyAt := none, copyIn := .running } ∧
      (∀ j, j ≠ n → u.stream j = s.stream j) ∧ (u.row r).cur = some (stall n) ∧
      (u.row r).staged = w.staged + 1 ∧ (u.row r).resident = w.resident ∧ (∀ j, j ≠ r → u.row j = s.row j) ∧
      (u.die (p / 4096)).pitchFree = (s.die (p / 4096)).pitchFree - 1 ∧
      (u.stall (stall n)).pitches = (s.stall (stall n)).pitches + 1 ∧
      (u.egr n).floorRsv = true ∧ n ∈ (u.engine (20 + n % 4)).floors ∧
      (let queue := fun (v : State) => (tget ({} : PQueue) (v.engine (20 + n % 4)).queues r).descs.map (·.d)
       r < Config.nRows → queue u = queue s ++ [folioCopy n (stall n) 0 (folioAddr n) (pitchAddr p)]) ∧
      Only [.stamp, .streams, .egress, .stalls, .rows, .engines, .dies] s u) ∧
  (∀ (n : Nat) (s : State), let x := s.stream n
    let e := 16 + n % 4
    let b := x.row.getD 0
    let bar := fun (v : State) (f k : Nat) => tget (0 : BitVec 32) (v.engine f).bars k
    s.clocked = true → s.awake = true → x.staged = true → x.copyIn = .done → x.readyAt = none →
    (bar s e b = 0 → exec (.stagingComplete n) s = .next s.settleRows) ∧
    (bar s e b ≠ 0 → s.headerOk (pitchAddr x.pitch) x true = true → ∃ u : State, exec (.stagingComplete n) s = .next u.settleRows ∧
      u.stream n = { x with readyAt := some s.stamp } ∧ (∀ j, j ≠ n → u.stream j = s.stream j) ∧
      bar u e b = bar s e b - 1 ∧ (∀ f k, f ≠ e ∨ k ≠ b → bar u f k = bar s f k) ∧ Only [.stamp, .streams, .engines] s u) ∧
    (bar s e b ≠ 0 → s.headerOk (pitchAddr x.pitch) x true = false → x.st ≠ .free → x.st ≠ .faulted →
      ∃ u : State, exec (.stagingComplete n) s = .next u.settleRows ∧ (∀ j, j ≠ n → u.stream j = s.stream j) ∧
        (x.endReq = false → (u.stream n).st = .faulted ∧ (u.stream n).status = .dataError ∧ (u.stream n).staged = false) ∧
        (x.endReq = true → u.stream n = x.freed))) ∧
  (∀ (r n : Nat) (s : State), let x := s.stream n
    let w := s.row r
    let hop := max 1 (s.hopOf n)
    let f := s.quireFrames n r
    let marks := x.marks.filter (fun m => decide (m < x.samples + f * hop))
    let may := fun (j : Nat) => j ∈ s.ready r ∧ 0 < s.quireFrames j r ∧ w.hosts (s.stream j).voice = true
    let at_ := fun (j : Nat) => ((s.stream j).readyAt).getD 0
    s.clocked = true → s.awake = true → w.st = .live → w.resident < 512 * w.cfg.presses → s.clerk.failed = none →
    may n → (∀ j, may j → at_ n < at_ j ∨ (at_ n = at_ j ∧ n ≤ j)) →
    f ≤ x.pendFrames ∧ f ≤ w.cfg.quire / hop ∧
    ∃ u : State, exec (.admission r) s = .next u ∧
      u.stream n = { x with st := .resident, staged := false, readyAt := none, copyIn := .none, pendFrames := x.pendFrames - f,
                            quire := some { frame0 := x.samples / hop, frames := f, marks := marks, left := false } } ∧
      (∀ j, j ≠ n → u.stream j = s.stream j) ∧
      u.row r = { w with staged := w.staged - 1, resident := w.resident + 1, admits := w.admits + 1,
                         issue := w.issue ++ quireTokens n x.stall x.voice (x.samples / hop) f hop w.admits.toNat marks } ∧
      (∀ j, j ≠ r → u.row j = s.row j) ∧ (u.egr n).quireEnd = x.samples + f * hop ∧ Only [.streams, .egress, .rows] s u)

/-- BEAT (R81, R82, R102, R203, R205). A stage whose computed beat has left, with none of its section away, takes the
next one: at the token stage issued frame tokens in their order, one of a stream, no more than its beat size nor than
the in-flight limit, elsewhere what its neighbour has filled; it computes it, or waits for a barrier counter or a full
buffer with the cause noted. With nothing to take it starves. A computed token goes to the stage of its next operation
when that stage's verso accepts it, and waits where it is when not; one that comes back to a section goes behind the
section's beat; past the last operation it leaves the row. Cycles since the last visit count as starved or blocked
once nothing computed is owed (the accounting, and the rules of verso and of beats that come back: logs 39, 40, 155).
The state of a step (R96, R99): the initial slice at a reset, the pitch's at a quire's first step, else the one at hand; it is kept for
the next step, and after the last written to the pitch. A computation's events are counted at its recurrence unit (Table 5.6). The
arithmetic: rna is nearest, ties away (R152), and exact values round to themselves (R153); a block steps exactly and is rounded at the least
exponent from its own on that holds it (R109); codes stay in int8 (R157); in a convolution taps outside a zero-padded map, and codes at
the zero point, add nothing (R129); argmax is the lowest index of the greatest value (R143), the sampler's index is one of its logits
(R180), and no two draws share a counter (R173). -/
def Obligations.BeatsPassThroughTheStages : Prop :=
  (∀ (p r : Nat) (v : StageVisit) (s : State), s.clocked = true → s.awake = true →
    let k := 16 * p + v.stage
    let g := s.stage k
    let w := s.row r
    let c := g.counted (2 * s.now)
    let a := s.account k
    let spent := BitVec.ofNat 48 (2 * s.now - g.acct)
    let beat := if g.kind = 0 then (takeBeat (min g.beat (1024 * w.cfg.presses - w.inflight)) [] w.issue).1 else g.verso
    let rest := fun (u : State) => (∀ j, j ≠ k → u.stage j = s.stage j) ∧ Only [.stages, .presses] s u
    g.row = some r → rowRuns w = true →
    (g.recto = [] → g.out = [] → g.back = [] →
      (beat ≠ [] → a.visitCause r p k beat = none →
        exec (.beat p v) s = .next ((a.takeBeatIn r k beat (if g.kind = 0 then .issue else .verso)).computeBeat p r k beat v.reads).settleRows ∧
        (g.kind = 0 → beat.length ≤ g.beat ∧ (beat.map (·.stream)).Nodup ∧ (∀ t ∈ beat, t ∈ w.issue) ∧
          (w.inflight ≤ 1024 * w.cfg.presses → w.inflight + beat.length ≤ 1024 * w.cfg.presses))) ∧
      (∀ x, beat ≠ [] → a.visitCause r p k beat = some x →
        ∃ u : State, exec (.beat p v) s = .next u.settleRows ∧ u.stage k = { c with cause := some x } ∧ rest u) ∧
      (beat = [] → ∃ u : State, exec (.beat p v) s = .next u.settleRows ∧ u.stage k = { c with cause := none } ∧ rest u ∧
        (g.oweBusy = 0 → g.oweHand = 0 → g.oweLoop = 0 → (u.stage k).starve = g.starve + spent ∧ (u.stage k).block = g.block))) ∧
    (∀ t ts, g.recto = t :: ts →
      (∀ d, d ≠ k → w.opStage t.next = some d → w.returns d t.next = false → (s.stage d).accepts (s.rowScan r) t = false →
        ∃ u : State, exec (.beat p v) s = .next u.settleRows ∧ u.stage k = c ∧ rest u ∧
          (g.oweBusy = 0 → g.oweHand = 0 → g.oweLoop = 0 → (u.stage k).block = g.block + spent ∧ (u.stage k).starve = g.starve)) ∧
      (∀ d, ts = [] → d ≠ k → w.opStage t.next = some d →
        (w.returns d t.next = false → (s.stage d).accepts (s.rowScan r) t = true →
          ∃ u : State, exec (.beat p v) s = .next u.settleRows ∧ u.stage d = { s.stage d with verso := (s.stage d).verso ++ [t] } ∧
            u.stage k = { c with recto := [] } ∧ (∀ j, j ≠ k → j ≠ d → u.stage j = s.stage j) ∧ Only [.stages, .presses] s u) ∧
        (w.returns d t.next = true →
          ∃ u : State, exec (.beat p v) s = .next u.settleRows ∧ u.stage d = { s.stage d with back := (s.stage d).back ++ [t] } ∧
            u.stage k = { c with recto := [] } ∧ (∀ j, j ≠ k → j ≠ d → u.stage j = s.stage j) ∧ Only [.stages, .presses] s u)) ∧
      (ts = [] → w.opStage t.next = none → t.frame = true →
        ∃ u : State, exec (.beat p v) s = .next u.settleRows ∧ u.stage k = { c with recto := [] } ∧
          u.row r = { w with inflight := w.inflight - 1 } ∧ (∀ j, j ≠ r → u.row j = s.row j) ∧
          Only [.rows, .stages, .presses] s u))) ∧
  (∀ (r i : Nat) (o : LayerOp) (t : Tok) (s : State),
    let at_ := fun (u : State) => tget ({} : Slice) (u.row r).slices (sliceKey i t.stream)
    let a := sliceAddr (s.stream t.stream).pitch (sliceOff o)
    (t.reset = true → s.fetchSlice r i o t = some { initSlice o with seg := (at_ s).seg }) ∧
    (t.reset = false → t.first = true → s.fetchSlice r i o t = sliceOf o (mread s.mem a (sliceSize o))) ∧
    (t.reset = false → t.first = false → s.fetchSlice r i o t = some (at_ s)) ∧
    ∀ x : Slice, let u := s.keepSlice r i o t x
      (t.last = false → at_ u = x ∧ Only [.rows] s u) ∧
      (t.last = true → at_ u = {} ∧ (∀ j, j < (sliceBytes x).length → some (mget u.mem (a + j)) = (sliceBytes x)[j]?) ∧
        (∀ b, b < a ∨ a + (sliceBytes x).length ≤ b → mget u.mem b = mget s.mem b) ∧
        (∀ q, (s.stream t.stream).quire = some q → (u.stream t.stream).quire = some { q with backs := q.backs + 1 }) ∧
        Only [.rows, .mem, .streams, .engines] s u)) ∧
  (∀ (p i : Nat) (c : Cnt) (s : State), let x := s.recUnit (4 * p + i)
    let n := fun (k : Nat) => BitVec.ofNat 48 k
    (s.tally p (some i) c).recUnit (4 * p + i) = {
      steps := x.steps + n c.steps, grow := x.grow + n c.grow, renorm := x.renorm + n c.renorm,
      sat := x.sat + n c.sat, resets := x.resets + n c.resets, segs := x.segs + n c.segs }) ∧
  (∀ (n : Int) (d : Nat), 0 < d → let e := (n - rna n d * d).natAbs
    2 * e ≤ d ∧ (2 * e = d → n.natAbs ≤ (rna n d * d).natAbs)) ∧
  (∀ (v : Fp24) (c : Cnt), 1 ≤ bits v.toNat 22 15 → bits v.toNat 22 15 ≤ 254 → (round24 (val24 v) u1).run c = (v, c)) ∧
  (∀ (m : Modal) (x : List Int) (i : Nat) (b : BfBlock) (c : Cnt), b.e ≤ 255 →
    let exact := fun (j : Nat) => let l := (modeOf m (16 * i + j)).1
      let g := (modeOf m (16 * i + j)).2.1
      let h := b.m.getD j (0, 0)
      let y := x.getD ((16 * i + j) / m.modes) 0
      ((l.1 * h.1 - l.2 * h.2) * 2 ^ (b.e + 133) + g.1 * y, (l.1 * h.2 + l.2 * h.1) * 2 ^ (b.e + 133) + g.2 * y)
    let at_ := fun (e j : Nat) => (rna (exact j).1 (2 ^ (e + 156)), rna (exact j).2 (2 ^ (e + 156)))
    let holds := fun (e : Nat) => ∀ j, j < 16 → -32768 ≤ (at_ e j).1 ∧ (at_ e j).1 ≤ 32767 ∧ -32768 ≤ (at_ e j).2 ∧ (at_ e j).2 ≤ 32767
    ∃ (y : BfBlock) (k : Cnt), (stepBlock m x i b).run c = (y, k) ∧ b.e ≤ y.e ∧ y.e ≤ 255 ∧ k.steps = c.steps + 1 ∧
      k.grow = c.grow + (if b.e < y.e then 1 else 0) ∧ (∀ e, b.e ≤ e → e < y.e → ¬holds e) ∧
      (holds y.e → k.sat = c.sat ∧ ∀ j, j < 16 → y.m.getD j (0, 0) = at_ y.e j) ∧ (¬holds y.e → y.e = 255 ∧ k.sat = c.sat + 1)) ∧
  (∀ (xs : List Fp24) (n : Nat) (outs : List Nat) (draw : Option Draw) (c : Cnt),
    let r : QRow × Cnt := (weighRow xs n outs draw).run c
    r.1.xq.length = xs.length ∧ -128 ≤ r.1.z ∧ r.1.z ≤ 127 ∧ (∀ v ∈ r.1.xq, -128 ≤ v ∧ v ≤ 127) ∧ r.2.weigh = c.weigh + 1) ∧
  (∀ (d : OpDesc) (z : Int) (rows window : Tbl (List (List Int))) (w : List Int) (co o : Nat),
    (d.replicate = false → (∀ j, j < d.kF → inMap d (tapPos d o j) = false) → convAcc d z rows window w co o = 0) ∧
    ((∀ (p jt i : Nat), ((tget [] rows p).getD jt []).getD i z = z ∧ ((tget [] window p).getD jt []).getD i z = z) →
      convAcc d z rows window w co o = 0)) ∧
  (∀ vs : List Int, vs ≠ [] → argmax vs < vs.length ∧
    ∀ i, i < vs.length → vs.getD i 0 ≤ vs.getD (argmax vs) 0 ∧ (i < argmax vs → vs.getD i 0 < vs.getD (argmax vs) 0)) ∧
  (∀ (d : Draw) (vs : List Fp24) (c : Cnt), vs ≠ [] → let r : Nat × Cnt := (sampleStep d vs).run c
    r.1 < vs.length ∧ r.2.gumbel = c.gumbel + vs.length) ∧
  (∀ (d e : Draw) (b k : Nat), d.pos < 2 ^ 48 → e.pos < 2 ^ 48 → d.op < 128 → e.op < 128 → d.use < 256 → e.use < 256 → b < 1024 → k < 1024 →
    d.counter b = e.counter k → d.pos = e.pos ∧ d.op = e.op ∧ d.use = e.use ∧ b = k)

/-- QUIRE_END (R65, R226, R73): the stream is DRAINING with the quire's samples and marks counted, and its counts
stand in the header of its pitch; the row's scheduler asks its porter to write the folio out, behind a wait for the barrier of the
slices that its stages wrote back (R204; which descriptors, queue and counter these are is log 58). FOLIO_WRITTEN (R65,
R246) with no export pending: the pitch and the place return, chunks done go, and the stream is FREE, QUEUED or IDLE
by the first row of the rule that holds, its PAUSE commands answered. -/
def Obligations.QuiresDrainIntoTheFolio : Prop :=
  (∀ (n : Nat) (q : Quire) (s : State), let x := s.stream n
    let hop := max 1 (s.hopOf n)
    let count := x.samples + q.frames * hop
    let em := emittedBy (q.frame0 + q.frames) x.lastEm x.chunks
    let mark := q.marks.foldl max x.lastMark
    let head := leBytes 8 count ++ leBytes 8 mark ++ leBytes 4 em.toNat
    let a := pitchAddr x.pitch + 24
    let e := s.egr n
    s.clocked = true → s.awake = true → x.quire = some q → x.st = .resident → q.left = true → s.clerk.failed = none →
    ∃ u : State, exec (.quireEnd n) s = .next (if e.kind = 3 then u.raiseReplayMark n else u) ∧
      u.stream n = { x with st := .draining, samples := count, lastEm := em, lastMark := mark, copyOut := .running,
                            marks := x.marks.filter (fun m => !q.marks.contains m), quire := some { q with marks := [] } } ∧
      (∀ j, j ≠ n → u.stream j = s.stream j) ∧
      u.egr n = { e with floorRsv := e.floorRsv && decide (¬(e.kind = 3 ∨ e.quireEnd ≤ e.released)) } ∧
      (∀ j, j < 20 → some (mget u.mem (a + j)) = head[j]?) ∧
      (∀ b, b < a ∨ a + 20 ≤ b → mget u.mem b = mget s.mem b) ∧
      (let queue := fun (v : State) (r : Nat) => (tget ({} : PQueue) (v.engine (20 + n % 4)).queues r).descs.map (·.d)
       ∀ r, x.row = some r → r < Config.nRows →
         queue u r = queue s r ++ (if q.backs = 0 then [] else [backsWait n x.stall r q.backs]) ++
           [folioCopy n x.stall 1 (pitchAddr x.pitch) (folioAddr n)]) ∧
      Only [.streams, .egress, .engines, .mem] s u) ∧
  (∀ (n r : Nat) (s : State), let x := s.stream n
    let f := x.samples / max 1 (s.hopOf n)
    let tokens := fun (l : List HeldChunk) => l.map (fun c => (c.seq, c.tokens))
    s.clocked = true → s.awake = true → x.st = .draining → x.copyOut = .done → x.row = some r → (s.row r).st = .live →
    x.exportReq = false → x.staged = false →
    ∃ u : State, exec (.folioWritten n) s = .next u ∧ (∀ j, j ≠ n → u.stream j = s.stream j) ∧
      (u.row r).resident = (s.row r).resident - 1 ∧ (u.row r).st = .live ∧
      (u.die (x.pitch / 4096)).pitchFree = (s.die (x.pitch / 4096)).pitchFree + 1 ∧
      (x.endReq = true → x.pendFrames = 0 → u.stream n = x.freed) ∧
      (x.endReq = false ∨ 0 < x.pendFrames →
        (u.stream n).st = (if 0 < x.pendFrames ∧ x.paused = false then .queued else .idle) ∧ (u.stream n).pitch = 0 ∧
        (u.stream n).quire = none ∧ (u.stream n).copyOut = .none ∧ (u.stream n).pendFrames = x.pendFrames ∧
        (u.stream n).samples = x.samples ∧ (u.stream n).deferPause = [] ∧
        tokens (u.stream n).chunks = tokens (x.chunks.dropWhile (fun c => decide (c.frame0 + frames c.tokens ≤ f)))))

/-- ROW_FAULT (R346) on a press of the row: its running streams fault with ST_DATA_ERROR; the row goes back to
BUILDING, where it waits for the press's per-die reset (R464, Table 20.3), or, at the press's second fault within 24 hours,
the press is retired and the row is ABSENT (R345). That a fault which retires is counted, and that the row waits for the press's
reset, are log 59: the model's choices. -/
def Obligations.RowFaultsDrainOrRetire : Prop :=
  ∀ (r p : Nat) (s : State), s.clocked = true → s.awake = true → s.pressRow p = some r →
    ∃ u : State, exec (.rowFault r p) s = .next u ∧ u.clerk.rowFaults = s.clerk.rowFaults + 1 ∧ (u.press p).faultAt = some s.now ∧
      (∀ n, (s.stream n).st = .resident ∨ (s.stream n).st = .draining → (s.stream n).row = some r → (s.stream n).endReq = false →
        (u.stream n).st = .faulted ∧ (u.stream n).status = .dataError) ∧
      (∀ t, (s.press p).faultAt = some t → s.now - t ≤ dayCycles → (s.press p).retired = false →
        (u.press p).retired = true ∧ (u.row r).st = .absent) ∧
      ((s.press p).faultAt = none ∨ (∃ t, (s.press p).faultAt = some t ∧ dayCycles < s.now - t) →
        (u.press p).retired = (s.press p).retired ∧ (∃ b, (p, b) ∈ u.power.dieWait) ∧
        ((s.row r).newCfg = none → (u.row r).st = .building))

/-! ## Porters and memories -/

/-- TRANSFER_ISSUE (R186, R190, R197, R209) with one transfer on offer: it is issued into the slot offered, with the
bytes its source holds now (of GDDR7, with those it holds as its controller serves it, R229), and charged to its stall; if one of the folio pages it needs is not present, its
descriptor halts instead, and a page in flash is asked for. TRANSFER_COMPLETE (R186, R193, R229): a transfer whose
controllers serve earlier requests first stays issued; one whose ends answer without an error that stands has its
bytes at the destination and nowhere else, they are counted in its class, and its slot returns to the pool and the
stall. Behind either, every DRAINING row on which nothing admitted remains goes on (Table 2.6); no other row changes by it. When a
transfer's bytes are read, and that an INDEXED reads its index entries as it issues, are log 63: the model's choices. -/
def Obligations.TransfersIssueAndComplete : Prop :=
  (∀ (e a b len : Nat) (o : Offer) (s : State), s.clocked = true → s.awake = true → e < Config.nEngines →
    s.dieInReset e = false →
    let t := s.passHeads e
    let g := t.engine e
    let d := o.x.d
    let index := d.op = 1 ∧ spaceOf d.index.toNat = 0
    t.offers e = [o] → o.piece = .move a b len → (index → ∀ c, (t.channel c).poison = []) →
    (t.needsPage d a b = none → ∃ u w, exec (.transferIssue e) s = .next u.settleRows ∧ (u.engine e).issued = g.issued ++ [w] ∧
      w.slot = o.slot ∧ w.queue = o.queue ∧ w.desc = o.x.id ∧ w.op = d.op ∧ w.src = a ∧ w.dst = b ∧ w.len = len ∧ w.cls = d.cls ∧
      w.sys = d.sys ∧ w.stall = d.stall ∧ w.stream = d.stream ∧ w.discard = false ∧
      (d.expand = false → w.data = (if spaceOf a = 0 then [] else t.readKey a len) ∧ w.at_ = b ∧ w.corrupt = false) ∧
      (u.engine e).xfers = g.xfers ∧ (∀ j, j ≠ e → u.engine j = t.engine j) ∧
      (d.sys = false → u.stall d.stall = { t.stall d.stall with porter := (t.stall d.stall).porter + 1 } ∧
        ∀ k, k ≠ d.stall → u.stall k = t.stall k) ∧
      (d.sys = true → u.stalls = t.stalls) ∧ (¬index → u.heldMoves = t.heldMoves) ∧
      Only [.stamp, .engines, .channels, .stalls, .heldMoves] t u) ∧
    (∀ n, t.needsPage d a b = some n → ∃ u : State, exec (.transferIssue e) s = .next u.settleRows ∧ (u.engine e).issued = g.issued ∧
      (u.engine e).halts = g.halts + 1 ∧ (u.engine e).halted = g.halted + 1 ∧
      (∀ j, j ≠ e → j ≠ 24 → u.engine j = t.engine j) ∧ ((t.stream n).res = .inFlash → (u.park n).reading = true) ∧
      Only [.engines, .flash] t u)) ∧
  (∀ (e i : Nat) (t : Xfer) (rd wr : MemAnswer) (s : State), s.clocked = true → s.awake = true →
    (s.engine e).issued[i]? = some t →
    let bs := if spaceOf t.src = 0 then s.readKey t.src t.len else t.data
    (s.canComplete t = false → exec (.transferComplete e i rd wr) s = .next s.settleRows) ∧
    (s.canComplete t = true → t.discard = false → t.corrupt = false → rd.ues = 0 → rd.lost = false → s.poisoned t.src = false →
      wr.ues = 0 → wr.lost = false → (t.len < 512 → s.poisoned t.dst = false) →
      (spaceOf t.at_ = 0 → s.closedGranules t.at_ bs.length = []) →
      ∃ u : State, exec (.transferComplete e i rd wr) s = .next u.settleRows ∧
        (u.engine e).issued = (s.engine e).issued.eraseIdx i ∧ (u.engine e).xfers = (s.engine e).xfers + 1 ∧
        tget 0 (u.engine e).bytes t.cls = tget 0 (s.engine e).bytes t.cls + BitVec.ofNat 48 bs.length ∧
        (t.sys = false → (s.stall t.stall).st ≠ .quiescing → (u.stall t.stall).porter = (s.stall t.stall).porter - 1) ∧
        (∀ j, j < bs.length → some (mget u.mem (t.at_ + j)) = bs[j]?) ∧
        (∀ b, b < t.at_ ∨ t.at_ + bs.length ≤ b → mget u.mem b = mget s.mem b))) ∧
  (∀ s : State, (∀ r, r < Config.nRows → (s.row r).st = .draining → 0 < (s.row r).resident) → s.settleRows = s)

/-- WAIT (R202, R203), when its queue has reached it and its counter has its count, takes the count from the counter
and leaves its queue; before that it waits. SIGNAL (R202) at the head of its queue, nothing before it in flight,
increments its counter and leaves; a full counter stays, is counted, and the descriptor ends in error, which faults
its stream; the completion record of R208 is in its producer's ring. SWAP (R206): a pair whose verso is full and whose recto is released exchanges its halves; any other waits
with the swap asked for. That the saturation counts on the counter's engine is log 131, and when a swap takes effect log 65: the
model's choices. -/
def Obligations.BarriersAndSwaps : Prop :=
  (∀ (e q : Nat) (x : QDesc) (s : State), s.clocked = true → s.awake = true →
    let queue := fun (v : State) => (tget ({} : PQueue) (v.engine e).queues q).descs
    let b := bits x.d.opArg.toNat 7 0
    let to_ := bits x.d.opArg.toNat 12 8
    let c := bits x.d.opArg.toNat 31 13
    let bar := fun (v : State) (f k : Nat) => tget (0 : BitVec 32) (v.engine f).bars k
    let gone := fun (v : State) => ∀ y ∈ queue v, y.id ≠ x.id
    let record := fun (st : Status) => (s.producerOf e q, (⟨x.d.tag, st, x.d.op, e, q, x.doneN⟩ : CompRec))
    (s.reached e [] (tget ({} : PQueue) (s.engine e).queues q).decoded = some x → x.d.op = 4 →
      (c ≤ (bar s e b).toNat → ∃ u : State, exec (.wait e q) s = .next u ∧ bar u e b = bar s e b - BitVec.ofNat 32 c ∧
        (∀ f k, f ≠ e ∨ k ≠ b → bar u f k = bar s f k) ∧ gone u) ∧
      ((bar s e b).toNat < c → exec (.wait e q) s = .next s)) ∧
    (s.headDesc e q = some x → x.d.op = 3 →
      (bar s to_ b ≠ 0xFFFFFFFF#32 → ∃ u : State, exec (.signal e q) s = .next u.settleRows ∧ bar u to_ b = bar s to_ b + 1 ∧
        (∀ f k, f ≠ to_ ∨ k ≠ b → bar u f k = bar s f k) ∧ (u.engine to_).barsat = (s.engine to_).barsat ∧ gone u ∧
        ∃ l, u.rings = s.rings ++ (if x.d.notify then [record .ok] else []) ++ l) ∧
      (bar s to_ b = 0xFFFFFFFF#32 → ∃ u : State, exec (.signal e q) s = .next u.settleRows ∧ (∀ f k, bar u f k = bar s f k) ∧
        (u.engine to_).barsat = (s.engine to_).barsat + 1 ∧ gone u ∧ (∃ l, u.rings = s.rings ++ [record .dataError] ++ l) ∧
        (let y := s.stream x.d.stream
         x.d.sys = false → y.st ≠ .free → y.st ≠ .faulted → y.endReq = false →
           (u.stream x.d.stream).st = .faulted ∧ (u.stream x.d.stream).status = .dataError)))) ∧
  (∀ (p i : Nat) (s : State), let w := tget ({} : Pair) (s.press p).pairs i
    s.clocked = true → s.awake = true → p < 16 → i < 64 → w.kib ≠ 0 →
    ∃ u : State, exec (.swap p i) s = .next (u.passHeads p) ∧ ((s.engine p).queues = [] → exec (.swap p i) s = .next u) ∧
      tget ({} : Pair) (u.press p).pairs i =
        (if w.full = true ∧ w.held = false then { w with recto := !w.recto, full := false, held := true, req := false, swaps := w.swaps + 1 }
         else { w with req := true }) ∧
      (∀ j, j ≠ i → tget ({} : Pair) (u.press p).pairs j = tget ({} : Pair) (s.press p).pairs j) ∧
      (∀ j, j ≠ p → u.press j = s.press j) ∧ Only [.presses] s u)

/-- PAGE_IN_COMPLETE (R211, R213, R398): of a parked folio that the hub porter has copied back, the pages are present,
nothing stays halted on them, and the park record is free (but for a torn stall's); one that could not be read is
counted and faults the stream with ST_DATA_ERROR. An import's image that arrived whole with a header that fits gives
the folio and its seed; a header that does not fit faults the stream with ST_DATA_ERROR; REMOTE_FETCH_FAIL,
REMOTE_FETCH_TIMEOUT or a broken image fault it with ST_TIMEOUT (R211). The folio of an image and its journal slot are written, its
chunks' feed buffers, and no other memory; a page-in that the hub porter made writes none here. While a die with a granule of the
folio is in reset, the image is not all written (R424). The model's choices: a torn stall's park record stays (log 68), ST_TIMEOUT
for an image of a length other than the one announced (log 52), and which waits the detector sees (log 132). DLK_FIRED (R250) on two streams of a die each
of which waits for what the other holds: the younger staging is abandoned, and counted; without such a cycle nothing
happens. -/
def Obligations.PageInsFetchesAndDeadlocksEnd : Prop :=
  (∀ (n : Nat) (ok : Bool) (image : List Byte) (s : State), let x := s.stream n
    let a := folioAddr n
    s.clocked = true → s.awake = true →
    (x.fetch = none → (s.park n).reading = true → (s.park n).fetched = true → x.res = .inFlash → ok = true →
      ∃ u : State, exec (.pageInComplete n ok image) s = .next u.settleRows ∧
        u.stream n = { x with res := .present, inFlash := false, handle := 0 } ∧ (∀ j, j ≠ n → u.stream j = s.stream j) ∧
        u.flash.unparks = s.flash.unparks + 1 ∧ (u.park n).reading = false ∧ (∀ j, j ≠ n → u.park j = s.park j) ∧
        (u.park n).st = (if (s.stall x.stall).st = .torn then (s.park n).st else .free) ∧
        (∀ e q, e < Config.nEngines → ∀ y ∈ (tget ({} : PQueue) (u.engine e).queues q).descs, u.haltedOn e y n = false) ∧
        Only [.streams, .engines, .flash] s u) ∧
    (x.fetch = none → (s.park n).reading = true → x.res = .inFlash → ok = false →
      x.st ≠ .free → x.st ≠ .faulted → x.endReq = false →
      ∃ u : State, exec (.pageInComplete n ok image) s = .next u.settleRows ∧ u.flash.parkFail = s.flash.parkFail + 1 ∧
        (u.stream n).st = .faulted ∧ (u.stream n).status = .dataError) ∧
    (∀ f, x.fetch = some f → ok = true → image.length = f.bytes → Config.folioBytes ≤ f.bytes → n < Config.nStreams →
      x.st ≠ .free → x.st ≠ .faulted → x.exportReq = false →
      let fits := State.headerOk (s.bulkWrite a (image.take Config.folioBytes)) a x true
      let journal := fun (b : Nat) => Config.journalBase + n * Config.journalSlot ≤ b ∧ b < Config.journalBase + (n + 1) * Config.journalSlot
      (s.stoppedGranules a Config.folioBytes ≠ [] → exec (.pageInComplete n ok image) s = .next s.settleRows) ∧
      (s.stoppedGranules a Config.folioBytes = [] → ∃ u : State, exec (.pageInComplete n ok image) s = .next u.settleRows ∧
        (∀ i, i < Config.folioBytes → some (mget u.mem (a + i)) = image[i]?) ∧
        (∀ b, b < a ∨ a + Config.folioBytes ≤ b → (fits = true → ¬journal b ∧
            ∀ q ∈ f.bufs, b < sharedKey q.1 q.2 ∨ sharedKey q.1 q.2 + 512 ≤ b) → mget u.mem b = mget s.mem b) ∧
        (fits = true → (u.stream n).res = .present ∧ (u.stream n).fetch = none ∧ (u.stream n).st = x.st ∧
          (u.stream n).seed = BitVec.ofNat 64 (lfld image 16 8)) ∧
        (fits = false → x.endReq = false → (u.stream n).st = .faulted ∧ (u.stream n).status = .dataError))) ∧
    (∀ f, x.fetch = some f → x.st ≠ .free → x.st ≠ .faulted → x.endReq = false →
      ∃ u : State, exec (.remoteFetchFail n) s = .next u.settleRows ∧ exec (.remoteFetchTimeout n) s = .next u.settleRows ∧
        (ok = false ∨ image.length ≠ f.bytes → exec (.pageInComplete n ok image) s = .next u.settleRows) ∧
        (u.stream n).st = .faulted ∧ (u.stream n).status = .timeout ∧ (u.stream n).fetch = none ∧
        (∀ j, j ≠ n → u.stream j = s.stream j))) ∧
  (∀ (die younger older : Nat) (s : State), let x := s.stream younger
    s.clocked = true → s.awake = true → x.staged = true → younger % 4 = die → older % 4 = die →
    (s.stream older).holdsPitch = true → (s.stream older).claimAt < x.claimAt →
    (s.waitCycle die younger older = false → exec (.dlkFired die younger older) s = .next s) ∧
    (s.waitCycle die younger older = true → ∃ u : State, exec (.dlkFired die younger older) s = .next u ∧
      u.stream younger = { x with staged := false, pitch := 0, readyAt := none, copyIn := .none, row := (u.stream younger).row } ∧
      (∀ j, j ≠ younger → u.stream j = s.stream j) ∧ (u.die die).dlk = (s.die die).dlk + 1 ∧
      (∀ r, x.row = some r → (u.row r).staged = (s.row r).staged - 1)))

/-- CONS_CHECK (R252, R253): identities that hold are counted and nothing else happens; a failed stall row tears its
stalls, a failed pool row fails the module. PATROL_SCRUB (R237, R238): a visit is counted; a corrected data granule is
counted; an uncorrectable one is poisoned and counted, and what it lies in faults. BASE_GRANULE_REWRITE (R238): a
poisoned granule of a base image is written again from the library, once its die is not in reset (R424); a channel of a die in
reset is not visited (R464). STREAM_ENTRY_REWRITE (R239): the entry is written again as FAULTED, its counts from the folio header where
that may be read, else 0; that a FREE entry is only counted is log 67, the model's choice. -/
def Obligations.ChecksAndScrubsKeepTheMemories : Prop :=
  (∀ s : State, let m := s.failedRows
    s.clocked = true → s.awake = true → s.clerk.failed = none →
    ∃ u : State, exec .consCheck s = .next u.settleRows ∧ u.clerk.consChecks = s.clerk.consChecks + 1 ∧
      (m = 0 → u.clerk.consFail = s.clerk.consFail ∧ u.clerk.failed = none ∧ Only [.clerk] s u) ∧
      (m ≠ 0 → u.clerk.consFail = s.clerk.consFail + 1 ∧ u.clerk.failed = (if m % 64 = 0 then none else some 3) ∧
        ∀ k ∈ tkeys s.stalls, s.stallRow k = false → (s.stall k).st = .open_ → (u.stall k).st = .torn)) ∧
  (∀ (c slot : Nat) (out : MemAnswer) (s : State), s.clocked = true → s.awake = true → c < 48 →
    let x := s.channel c
    let y := { x with scrub := x.scrub + 1, retry := x.retry + BitVec.ofNat 48 out.retries }
    let bad := 0 < out.ues ∨ out.lost = true ∨ slot ∈ x.poison
    (s.dieInReset (20 + c / 12) = true → exec (.patrolScrub c slot out) s = .next s.settleRows) ∧
    (s.dieInReset (20 + c / 12) = false →
    (7864320 ≤ slot → slot < 8388608 → ∃ u : State, exec (.patrolScrub c slot out) s = .next u.settleRows ∧ u.channel c = y ∧
      (∀ j, j ≠ c → u.channel j = s.channel j) ∧ Only [.channels] s u) ∧
    (slot < 7864320 → ¬bad → ∃ u : State, exec (.patrolScrub c slot out) s = .next u.settleRows ∧
      u.channel c = (if 0 < out.ces then { y with
        ce := x.ce + 1, reqs := x.reqs.map (fun r => if r.slot = slot then { r with fixed := true } else r) } else y) ∧
      (∀ j, j ≠ c → u.channel j = s.channel j) ∧ Only [.channels] s u) ∧
    (slot < 7864320 → bad → ∃ u : State, exec (.patrolScrub c slot out) s = .next u.settleRows ∧ (u.channel c).scrub = x.scrub + 1 ∧
      (u.channel c).ue = x.ue + 1 ∧ (u.channel c).ueSeen = true ∧ slot ∈ (u.channel c).poison ∧
      (∀ j, j ≠ c → u.channel j = s.channel j) ∧
      (granuleOf s.sec.hashKey c slot = none → u.clerk.failed.isSome = true) ∧
      (∀ g v, granuleOf s.sec.hashKey c slot = some g → s.regionAt (512 * g) = .adapter v →
        (s.stall (s.voice v).stall).st = .open_ → (u.stall (s.voice v).stall).st = .torn) ∧
      (∀ g n, granuleOf s.sec.hashKey c slot = some g → s.regionAt (512 * g) = .folio n →
        (s.stream n).st = .idle ∨ (s.stream n).st = .queued → (s.stream n).res = .present → (s.stream n).endReq = false →
        (u.stream n).st = .faulted ∧ (u.stream n).status = .dataError)))) ∧
  (∀ (g b : Nat) (s : State), let a := 512 * g
    let x := s.base b
    let e := s.lib x.entry
    let bytes := ((canonical e.bytes).drop (a - x.addr)).take 512
    s.clocked = true → s.awake = true → s.regionAt a = .base b → s.poisoned a = true → e.used = true → e.damaged = false →
    ∃ u : State, exec (.baseGranuleRewrite g) s = .next u ∧ (s.stoppedGranules a 512 = [] → u.poisoned a = false) ∧
      Lands a 512 (bytes ++ List.replicate (512 - bytes.length) 0) s u ∧
      (∀ j, j < a ∨ a + 512 ≤ j → mget u.mem j = mget s.mem j) ∧ Only [.engines, .channels, .mem, .flash, .heldMoves] s u) ∧
  (∀ (n : Nat) (s : State), let x := s.stream n
    let a := folioAddr n
    let h := mread s.mem a 256
    let good := x.undef = false ∧ x.st ≠ .draining ∧ x.res = .present ∧ s.poisoned a = false ∧ s.headerOk a x false = true
    s.clocked = true → s.awake = true → n < Config.nStreams →
    ∃ u : State, exec (.streamEntryRewrite n) s = .next u.settleRows ∧ (u.die (n % 4)).ue = (s.die (n % 4)).ue + 1 ∧
      (u.die (n % 4)).ueSeen = true ∧ (∀ j, j ≠ n → u.stream j = s.stream j) ∧
      (x.st = .free → u.stream n = x) ∧
      (x.st ≠ .free →
        (let y := u.stream n
         y.st = .faulted ∧ y.status = .dataError ∧ y.stall = x.stall ∧ y.voice = x.voice ∧ y.outKind = x.outKind ∧
         y.outIndex = x.outIndex ∧ y.ssrc = x.ssrc ∧ y.origin = x.origin ∧ y.scan = x.scan ∧ y.seed = x.seed ∧
         y.staged = false ∧ y.chunks = [] ∧ y.marks = [] ∧ y.pendFrames = 0 ∧
         (good → y.samples = lfld h 24 8 ∧ y.lastMark = lfld h 32 8 ∧ y.lastEm = BitVec.ofNat 32 (lfld h 40 4) ∧ y.lastAcc = y.lastEm) ∧
         (¬good → y.samples = 0 ∧ y.lastMark = 0 ∧ y.lastEm = 0 ∧ y.lastAcc = 0))))

/-- The commands whose full statements are the longest complete, each under the conditions of its rule alone. STREAM_IMPORT
(R327, R356, R357): an image, a peer replay and a journal replay that meet the checks in order are answered ST_OK, and the
lowest stream ID that R52 allows is a stream of the voice at the descriptor's, or the journal's, position. CONS_CHECK (R252)
counts its evaluation, PATROL_SCRUB (R237) its visit. BASE_GRANULE_REWRITE (R238) leaves its granule readable, with the
library's bytes. STREAM_ENTRY_REWRITE (R239) counts the entry's error and leaves a stream that is not FREE as FAULTED. A
frame sync (R372) counts its frame; SAP_WATCHDOG (R376) mutes its port and counts; SAP_MUTED_PERIOD (R377) counts its
frame. -/
def Obligations.ImportsScrubsAndFramesComplete : Prop :=
  (∀ (h : CmdHdr) (body : List Byte) (s : State) (n v : Nat), s.Accepts (streamImportShape body) h body.length →
    let k := tgt h
    let d := importDesc body
    let kind := fld body 172 1
    let index := fld body 174 2
    let x := s.voice v
    let y := s.stream d.stream
    let j := s.journal d.stream
    let from_ := if d.bytes = 0 ∧ d.handle ≠ 0 then s.egr d.stream else d.egress
    let e := { importEgress from_ kind index x.rate k with gen := (s.sess index).gen }
    let pend := if d.bytes ≠ 0 then d.pend else if d.handle = 0 then 0 else (j.records.map (fun c => frames c.tokens)).sum
    let st := if 0 < pend ∧ d.paused = false then SState.queued else .idle
    s.fw.restart = none → s.outOk kind index = true → ¬(kind = 2 ∧ (s.sess index).version = 6) →
    codecKnown e = true → s.egressOk k { e with rVoice := if x.rate = 0 then 8000 else x.rate } = true →
    (s.stall k).st = .open_ → (s.stall k).opened < (s.stall k).quota → s.freeStreamId = some n →
    (d.bytes ≠ 0 ∧ s.ownVoice k d.hash = some v ∧ d.scan = x.scan ∧ 524288 + 32 * d.chunks ≤ d.bytes ∧ importBufs d ≤ s.ungranted) ∨
    (d.bytes = 0 ∧ d.handle = 0 ∧ s.ownVoice k d.hash = some v ∧ d.scan = x.scan ∧ replayOk d body = true ∧
      peerOk d x.hop (Egress.nv { d.egress with rVoice := x.rate }) = true) ∨
    (d.bytes = 0 ∧ d.handle = 2 ^ 32 - 1 ∧ y.voice = v ∧ y.stall = k ∧ replayOk d body = true ∧ y.st = .faulted ∧
      (y.status = .dataError ∨ y.status = .timeout) ∧ j.complete = true ∧ s.journalPoisoned d.stream = false ∧
      (∃ r ∈ s.barrierRows x, (s.row r).st = .live) ∧
      (j.records.map (fun c => bufsFor c.tokens.length)).sum ≤ s.ungranted) →
    ∃ u, Completes (.streamImport h body) s 0x38 h 0 u (importBody n st) ∧ (u.stream n).voice = v ∧
      (u.stream n).samples = (if d.bytes = 0 ∧ d.handle ≠ 0 then j.firstFrame * max 1 x.hop else d.samples)) ∧
  (∀ s : State, s.clocked = true → s.awake = true → s.clerk.failed = none →
    ∃ u : State, exec .consCheck s = .next u.settleRows ∧ u.clerk.consChecks = s.clerk.consChecks + 1) ∧
  (∀ (c slot : Nat) (out : MemAnswer) (s : State), s.clocked = true → s.awake = true → c < 48 → slot < 8388608 →
    s.dieInReset (20 + c / 12) = false →
    ∃ u : State, exec (.patrolScrub c slot out) s = .next u.settleRows ∧ (u.channel c).scrub = (s.channel c).scrub + 1) ∧
  (∀ (g b : Nat) (s : State), let x := s.base b
    let e := s.lib x.entry
    s.clocked = true → s.awake = true → s.regionAt (512 * g) = .base b → s.poisoned (512 * g) = true → e.used = true →
    e.damaged = false →
    s.stoppedGranules (512 * g) 512 = [] →
    ∃ u : State, exec (.baseGranuleRewrite g) s = .next u ∧ u.poisoned (512 * g) = false ∧
      ∀ i, i < 512 → mget u.mem (512 * g + i) = ((canonical e.bytes).drop (512 * g - x.addr)).getD i 0) ∧
  (∀ (n : Nat) (s : State), s.clocked = true → s.awake = true → n < Config.nStreams →
    ∃ u : State, exec (.streamEntryRewrite n) s = .next u.settleRows ∧ (u.die (n % 4)).ue = (s.die (n % 4)).ue + 1 ∧
      (u.stream n).st = (if (s.stream n).st = .free then .free else .faulted)) ∧
  (∀ (p bclk : Nat) (din : List (BitVec 32)) (s : State), s.clocked = true → s.awake = true → (s.sap p).enable = true →
    s.portClocked p = true →
    ∃ u : State, exec (.sapFrameSync p bclk din) s = .next u ∧ (u.sap p).frames = (s.sap p).frames + 1) ∧
  (∀ (p : Nat) (s : State), s.clocked = true → s.awake = true → (s.sap p).enable = true →
    ((s.sap p).wdLive = false ∨ (s.sap p).running = true →
      ∃ u : State, exec (.sapWatchdog p) s = .next u ∧ (u.sap p).wdLive = true ∧ (u.sap p).wdEvents = (s.sap p).wdEvents + 1) ∧
    ((s.sap p).wdLive = true → s.clerk.failed = none →
      ∃ u : State, exec (.sapMutedPeriod p) s = .next u ∧ (u.sap p).frames = (s.sap p).frames + 1))

/-! ## Audio out -/

/-- SAP_CONFIG (R328) on a format of R371 and a port with no bound stream: the port stops and takes the settings; its
masks are 0, mask writes still waiting are discarded and answered in order with masks of 0 (log 77: the model's choice), its slots
and groups are empty, its counters and flags stay. A master's mux that must move starts its switch; a slave keeps its mux (log 76: the
model's choice). SAP_SLOTMASK (R329) of a mask within the port's slots: a read answers
the pending and the active mask and changes nothing; a write waits, and its response is owed. SAP_MASK_COMMIT: the
port takes the oldest waiting mask as its pending mask, counts frame syncs anew, and answers the write; an enabled port
whose clock is withheld waits (R414). -/
def Obligations.PortsTakeSettingsAndMasks : Prop :=
  (∀ (h : CmdHdr) (body : List Byte) (s : State), s.Accepts (sapConfigShape h body) h body.length →
     let p := fld body 0 1
     let t := s.sap p
     let l := s.logged (sapConfigShape h body) h
     sapFormatBad (fld body 1 1) (fld body 2 1) (fld body 3 1) (fld body 4 1) (fld body 5 1) (fld body 8 4) = false →
     t.bound = [] →
     ∃ u, Completes (.sapConfig h body) s 0x40 h 1 u [] ∧
       u.sap p = { t with
         mode := fld body 1 1, master := decide (fld body 2 1 = 1), mclk := fld body 3 1, slots := fld body 4 1,
         bits := fld body 5 1, enable := bitAt (fld body 6 1) 0, rate := fld body 8 4, pend := 0, act := 0, writes := [], count := none,
         wdLive := false, running := false, synced := false, good := 0, csFrame := 0, tbl := [], groups := [], next := [], dout := [],
         tail := none, muxTo := if fld body 2 1 = 1 ∧ s.clk.switching.getLsbD p = false ∧ fld body 3 1 ≠ t.mux then fld body 3 1 else t.muxTo } ∧
       (∀ j, j ≠ p → u.sap j = s.sap j) ∧
       (fld body 2 1 = 1 → s.clk.switching.getLsbD p = false → fld body 3 1 ≠ t.mux → u.clk.switching.getLsbD p = true) ∧
       (fld body 2 1 = 0 → u.clk.switching = s.clk.switching) ∧
       u.clk.flushes = (if t.enable then s.clk.flushes + 1 else s.clk.flushes) ∧
       (∃ v : State, Only [.saps, .clk] l v ∧
         Only [.saps, .clk] (forEach (fun v (w : BitVec 128 × Defer) => v.respond w.2 .ok 1 (List.replicate 36 0)) t.writes v) u) ∧
       Only (answered ++ [.saps, .clk]) l u) ∧
  ((∀ (h : CmdHdr) (body : List Byte) (s : State), s.Accepts (sapSlotmaskShape h body) h body.length →
     let p := fld body 0 1
     let t := s.sap p
     let m := fld body 4 16
     m < 2 ^ t.slots →
     (fld body 1 1 = 0 → Completes (.sapSlotmask h body) s 0x41 h 0 s
       ([if t.pend ≠ t.act then 1 else 0, 0, 0, 0] ++ beBytes 16 t.pend.toNat ++ beBytes 16 t.act.toNat)) ∧
     (fld body 1 1 = 1 → ∃ u : State, exec (.sapSlotmask h body) s = .next (u.startCmd h) ∧
       u.sap p = { t with writes := t.writes ++ [(BitVec.ofNat 128 m, s.hdrDefer 0x41 h)] } ∧
       (∀ j, j ≠ p → u.sap j = s.sap j) ∧ Only [.saps] (s.logged (sapSlotmaskShape h body) h) u)) ∧
   (∀ (p : Nat) (s : State) (m : BitVec 128) (d : Defer) (ws : List (BitVec 128 × Defer)), s.clocked = true → s.awake = true →
     (s.sap p).writes = (m, d) :: ws → ((s.sap p).enable = true → s.portClocked p = true) →
     ∃ u : State, exec (.sapMaskCommit p) s = .next (u.respond d .ok 1
         ([if m ≠ (s.sap p).act then 1 else 0, 0, 0, 0] ++ beBytes 16 m.toNat ++ beBytes 16 (s.sap p).act.toNat)) ∧
       u.sap p = { s.sap p with pend := m, writes := ws, count := some 0 } ∧ (∀ j, j ≠ p → u.sap j = s.sap j) ∧ Only [.saps] s u) ∧
   (∀ (p : Nat) (s : State), s.clocked = true → (s.sap p).enable = true → s.portClocked p = false →
     exec (.sapMaskCommit p) s = .next s))

/-- SAP_BIND (R330) of a stream at rest: to a free slot of an enabled port whose format fits, the stream's samples
leave by that slot from now on; unbound, its waiting samples count as sent (log 80: the model's choice), and the slot it held is
free. -/
def Obligations.SapBindMovesTheStream : Prop :=
  ∀ (h : CmdHdr) (body : List Byte) (s : State), s.Accepts (sapBindShape body) h body.length →
    let n := streamArg body
    let x := s.stream n
    let j := fld body 4 2
    let p := j / 128
    let hold := bitAt (fld body 8 1) 0
    n < Config.nStreams → x.stall = tgt h → x.st = .idle ∨ x.st = .parked ∨ (x.st = .queued ∧ x.staged = false) →
    (j ≠ 0xFFFF → (s.sap p).bindBad (j % 128) (fld body 6 1) (fld body 7 1) hold = false →
      ((s.sap p).slot (j % 128)).bound = false → (s.sap p).enable = true →
      ∃ u, Completes (.sapBind h body) s 0x42 h 0 u [] ∧
        u.stream n = { x with outKind := 1, outIndex := j } ∧ (∀ i, i ≠ n → u.stream i = s.stream i) ∧
        (u.egr n).kind = 1 ∧ (u.egr n).index = j ∧
        (let k := (u.sap p).slot (j % 128)
         k.bound = true ∧ k.stream = n ∧ k.group = fld body 6 1 ∧ k.codec = fld body 7 1 ∧ k.hold = hold ∧ k.joined = false ∧ k.played = false ∧ k.due = none)) ∧
    (j = 0xFFFF →
      ∃ u, Completes (.sapBind h body) s 0x42 h 0 u [] ∧
        u.stream n = { x with outKind := 3, outIndex := 0 } ∧ (∀ i, i ≠ n → u.stream i = s.stream i) ∧
        (u.egr n).kind = 3 ∧ (u.egr n).bufs = [] ∧ x.samples ≤ (u.egr n).lastSent ∧
        ((s.egr n).kind = 1 → ((s.sap ((s.egr n).index / 128)).slot ((s.egr n).index % 128)).stream = n →
          ((u.sap ((s.egr n).index / 128)).slot ((s.egr n).index % 128)).bound = false))

/-- A frame sync (R372, R376, R377, R379, R329) on an enabled, clocked port. The frame counts; a frame of a wrong
length since the sync before it is a framing error; a pending mask becomes active at its second sync; a slot whose active
mask bit is 0 is not driven, and on a muted port every other slot sends silence; after eight right frames in a row the
watchdog's mute ends. SAP_WATCHDOG (R376): an enabled port that is not muted, or has had a sync since it was, is muted,
flagged and counted, with its event; of the frame under way it sends silence whenever edges come (R377); samples it had taken for its
next frame are discarded and counted (log 81: the model's choice).
SAP_MUTED_PERIOD (R377): while it is muted, frames count and the samples that fall due are discarded and counted. On the
pins (R370, R371, Table 16.1) bit i of slot k of a frame, counted from its most significant one, leaves in BCLK cycle
k × bits + i, one cycle later in I2S and TDM mode, and until then the last bit of the frame before stays. -/
def Obligations.FrameSyncsAndWatchdogs : Prop :=
  (∀ (p bclk : Nat) (din : List (BitVec 32)) (s : State), s.clocked = true → s.awake = true →
     let t := s.sap p
     let right := t.synced = false ∨ t.master = true ∨ bclk = t.slots * t.bits
     let muted := t.wdLive = true ∨ s.clerk.failed ≠ none
     t.enable = true → (t.master = true → s.clk.switching.getLsbD p = false) →
     (t.master = false → s.jtag.hub.takesPins = false) →
     ∃ u : State, exec (.sapFrameSync p bclk din) s = .next u ∧
       (u.sap p).frames = t.frames + 1 ∧ (u.sap p).running = true ∧ (u.sap p).synced = true ∧ (u.sap p).pend = t.pend ∧
       (right → (u.sap p).framings = t.framings ∧ (u.sap p).framing = t.framing) ∧
       (¬right → (u.sap p).framings = t.framings + 1 ∧ (u.sap p).framing = true) ∧
       (t.count = none → (u.sap p).act = t.act ∧ (u.sap p).count = none) ∧
       (t.count = some 0 → (u.sap p).act = t.act ∧ (u.sap p).count = some 1) ∧
       (t.count = some 1 → (u.sap p).act = t.pend ∧ (u.sap p).count = none) ∧
       (u.sap p).dout.length = t.slots ∧ (u.sap p).tail = (t.dout.getD (t.slots - 1) none).map (·.getLsbD 0) ∧
       (∀ i, i < t.slots → ((u.sap p).dout[i]? = some none ↔ (u.sap p).act.getLsbD i = false)) ∧
       (muted → t.cs = false → t.ctrlNext = none → ∀ i, i < t.slots → (u.sap p).act.getLsbD i = true →
         (u.sap p).dout[i]? = some (some (BitVec.ofNat 32 (t.silence (t.slot i).codec)))) ∧
       (t.wdLive = false → (u.sap p).wdLive = false) ∧
       (t.wdLive = true → ((u.sap p).wdLive = false ↔ t.synced = true ∧ right ∧ 7 ≤ t.good)) ∧
       (∀ j, j ≠ p → (u.sap j).dout = (s.sap j).dout ∧ (u.sap j).act = (s.sap j).act)) ∧
  ((∀ (p : Nat) (s : State), let x := s.sap p
     let taken := (x.next.filter Option.isSome).length
     s.clocked = true → s.awake = true → x.enable = true → x.wdLive = false ∨ x.running = true →
     ∃ u : State, exec (.sapWatchdog p) s = .next u ∧
       (u.sap p).wd = true ∧ (u.sap p).wdLive = true ∧ (u.sap p).wdEvents = x.wdEvents + 1 ∧ (u.sap p).running = false ∧
       (u.sap p).good = 0 ∧ (u.sap p).next = [] ∧ (u.sap p).muted = x.muted + BitVec.ofNat 48 taken ∧
       (x.synced = false → (u.sap p).dout = x.dout) ∧
       (x.synced = true → ∀ i, i < x.slots → (x.act.getLsbD i = false → (u.sap p).dout[i]? = some none) ∧
         (x.act.getLsbD i = true → x.cs = false → (u.sap p).dout[i]? = some (some (BitVec.ofNat 32 (x.silence (x.slot i).codec))))) ∧
       (u.sap p).act = x.act ∧ (u.sap p).pend = x.pend ∧ (u.sap p).frames = x.frames ∧
       ((s.crierSrc 11).ring.length < 65536 → ∃ r, (u.crierSrc 11).ring = (s.crierSrc 11).ring ++ [r] ∧ r.event = 0x0040 ∧
         r.unit = p ∧ r.arg = 1) ∧
       (x.next = [] → (∀ i, (x.slot i).due = none) →
         u.sap p = { x with wd := true, wdLive := true, wdEvents := x.wdEvents + 1, running := false, good := 0,
                            dout := if x.synced then x.frameWords true [] else x.dout } ∧
         (∀ j, j ≠ p → u.sap j = s.sap j) ∧ Only [.criers, .clerk, .saps] s u)) ∧
   (∀ (p : Nat) (s : State), s.clocked = true → s.awake = true → (s.sap p).enable = true → (s.sap p).wdLive = true →
     s.clerk.failed = none →
     ∃ u : State, exec (.sapMutedPeriod p) s = .next u ∧
       (u.sap p).frames = (s.sap p).frames + 1 ∧ (u.sap p).next = [] ∧ (u.sap p).dout = (s.sap p).dout ∧
       (u.sap p).muted = (s.sap p).muted + BitVec.ofNat 48 (((s.decide_ p).sap p).next.filter Option.isSome).length ∧
       Only [.power, .egress, .journals, .stalls, .voices, .rows, .engines, .channels, .mem, .nets, .criers, .clerk, .flash,
         .sec, .saps, .heldMoves] s u) ∧
   (∀ t : Sap, t.mode = 0 ∨ t.mode = 2 → t.doutBit 0 = t.tail) ∧
   (∀ (t : Sap) (k i : Nat), k < t.slots → i < t.bits →
     t.doutBit (k * t.bits + i + (if t.mode = 0 ∨ t.mode = 2 then 1 else 0)) =
       (t.dout.getD k none).map (fun w => w.getLsbD (t.bits - 1 - i))))

/-- RTP_PACKET_SEND (R61, R276, R277, R279, R283): a ready entry of a module in operation sends its next packet by the
port its link, or its fail-over, gives: packet i carries the entry's sequence number and the timestamp of output i × n;
while its priority is paused it waits. With no link the packet is counted and discarded, and no marker is spent. Either way
the samples of a stream that is not FREE are behind it. AUDIO (R282): one packet period of a VCT L16 stream goes out as a
sequenced message of the session it was bound to, its samples kept until the host acknowledges it; where that session is
not open its samples are discarded and counted, at the rate of the voice (log 146). The journal's replay mark follows the
resume position (R354), and other entries stay as they are, but where that write meets the 64th bad granule of a second
and the module fails (R217). The model's choices: when a packet is ready (log 71), which gap sets M (log 72), that a pause holds a packet
(log 73), and which frames count as sent (log 142). -/
def Obligations.SamplesLeaveInSequence : Prop :=
  (∀ (n : Nat) (s : State), s.clocked = true → s.awake = true → s.clerk.failed = none →
     let e := s.egr n
     let k := e.packet
     let i := e.lastSent / max 1 e.nv
     let live := (s.stream n).st ≠ .free
     let frame := [.power, .egress, .journals, .stalls, .voices, .rows, .engines, .channels, .mem, .nets, .vct, .criers, .clerk,
       .flash, .sec, .saps, .heldMoves]
     e.kind = 0 → e.ready = true →
     (∀ p, s.egressPort e.index = some p → (s.net p).paused.getLsbD (bits (s.net p).qos.toNat 5 3) = true →
       exec (.rtpPacketSend n) s = .next s) ∧
     (∀ p, s.egressPort e.index = some p → (s.net p).paused.getLsbD (bits (s.net p).qos.toNat 5 3) = false →
       ∃ u pkt, exec (.rtpPacketSend n) s = .next u ∧ u.sent = .rtp p pkt :: s.sent ∧
         pkt.stream = n ∧ pkt.dst = e.dstAddr ∧ pkt.dport = e.dstPort ∧ pkt.pt = e.pt ∧ pkt.ssrc = e.ssrc ∧
         pkt.marker = e.marker ∧ pkt.seq = BitVec.ofNat 16 (e.seqBase.toNat + i) ∧
         pkt.stamp = BitVec.ofNat 32 (i * e.nv * e.netRate / max 1 e.rVoice) ∧
         pkt.payload = e.encode ((List.range (k.m1 - k.m0)).map (fun j => e.output e.netRate (k.m0 + j))) ∧
         (live → (u.egr n).lastSent = k.stop ∧ (u.egr n).markerNext = false) ∧
         u.vct = { s.vct with rtpPkts := s.vct.rtpPkts + 1 } ∧
         (u.clerk.failed = none → (∀ j, j ≠ n → u.egr j = s.egr j) ∧
           u.net p = { s.net p with txFrames := (s.net p).txFrames + 1 } ∧ (∀ j, j ≠ p → u.net j = s.net j)) ∧
         Only (.sent :: frame) s u) ∧
     (s.egressPort e.index = none →
       ∃ u : State, exec (.rtpPacketSend n) s = .next u ∧ u.sent = s.sent ∧ u.vct = { s.vct with rtpDrop := s.vct.rtpDrop + 1 } ∧
         (live → (u.egr n).lastSent = k.stop ∧ (u.egr n).markerNext = e.markerNext ∧ (u.egr n).lastPkt = e.lastPkt) ∧
         (u.clerk.failed = none → (∀ j, j ≠ n → u.egr j = s.egr j) ∧ ∀ j, u.net j = s.net j) ∧ Only frame s u)) ∧
  (∀ (n : Nat) (s : State), s.clocked = true → s.awake = true → s.clerk.failed = none →
     let e := s.egr n
     let k := e.packet
     e.kind = 2 → e.ready = true →
     ((s.sess e.index).st = .opened → (s.sess e.index).gen = e.gen →
       ∃ u : State, exec (.audio n) s = .next ((u.post e.index 6 (s.audioPayload n) (some (n, k.stop, e.life))).raiseReplayMark n) ∧
         u.egr n = { e with lastSent := k.stop, markerNext := false, lastPkt := some s.now } ∧ (∀ j, j ≠ n → u.egr j = s.egr j) ∧
         Only [.egress] s u) ∧
     ((s.sess e.index).st ≠ .opened ∨ (s.sess e.index).gen ≠ e.gen →
       ∃ u : State, exec (.audio n) s = .next u ∧ u.vct = { s.vct with audioDrop := s.vct.audioDrop + BitVec.ofNat 48 (k.stop - e.lastSent) } ∧
         ((s.stream n).st ≠ .free → (u.egr n).lastSent = k.stop ∧ (u.egr n).markerNext = e.markerNext) ∧
         (u.clerk.failed = none → ∀ j, j ≠ n → u.egr j = s.egr j) ∧ u.sent = s.sent ∧
         Only [.power, .egress, .journals, .stalls, .voices, .rows, .engines, .channels, .mem, .nets, .vct, .criers, .clerk,
           .flash, .sec, .saps, .heldMoves] s u))

/-- LINK_DOWN (R283, R422): a port that was up is down and marked lost, its crossing is flushed with the received frames that had
partly crossed, counted as dropped, and LINK_EVENT is raised. The model's choices (log 74): one flush is counted, and how many frames
had partly crossed is a free number. LINK_UP: an enabled port whose lanes no boundary register holds is up, with LINK_EVENT. -/
def Obligations.LinksGoDownAndUp : Prop :=
  (∀ (p : Nat) (s : State), s.clocked = true → s.awake = true → (s.net p).up = true →
    ∃ u : State, exec (.linkDown p) s = .next u ∧
      (∃ d : BitVec 48, u.net p = { s.net p with up := false, lost := true, rxDrop := (s.net p).rxDrop + d }) ∧
      (∀ j, j ≠ p → u.net j = s.net j) ∧ u.clk = { s.clk with flushes := s.clk.flushes + 1 } ∧
      ((s.crierSrc 15).ring.length < 65536 → ∃ r, (u.crierSrc 15).ring = (s.crierSrc 15).ring ++ [r] ∧ r.event = 0x0060 ∧
        r.unit = p ∧ r.arg = 0) ∧
      Only [.free, .nets, .criers, .clerk, .clk] s u) ∧
  (∀ (p : Nat) (s : State), s.clocked = true → s.power.phase = .up → (s.net p).cfg.getLsbD 0 = true → (s.net p).up = false →
    s.lanesTaken p = false →
    ∃ u : State, exec (.linkUp p) s = .next u ∧ u.net p = { s.net p with up := true } ∧ (∀ j, j ≠ p → u.net j = s.net j) ∧
      ((s.crierSrc 15).ring.length < 65536 → ∃ r, (u.crierSrc 15).ring = (s.crierSrc 15).ring ++ [r] ∧ r.event = 0x0060 ∧
        r.unit = p ∧ r.arg = 1) ∧
      Only [.nets, .criers, .clerk] s u)

/-! ## Flash -/

/-- LIB_WRITE (R331, R391, R401): a part that continues its entry, or creates one in the lowest free number (R401) and
the lowest free extent (log 163: the model's choice), draws its units from the tally and is appended. A commit of the last part makes the entry READY once its image
passes the checks of Table 2.2, and the answer names the entry and its bytes. That a number and an extent are taken until the erasure
has ended is log 83. -/
def Obligations.LibWriteAppendsAndCommits : Prop :=
  ∀ (h : CmdHdr) (body : List Byte) (s : State) (p : Part), s.Accepts (libWriteShape h body) h body.length →
    let total := fld body 12 8
    let data := body.drop 24
    let draw := libDraw (body.length - 24)
    let owner := (h.session, (s.sess h.session).gen)
    let created := fld body 0 4 = 2 ^ 32 - 1 ∧ fld body 4 8 = 0 ∧ 0 < total ∧ total ≤ libMax ∧ data.length ≤ total ∧
      lowest 65536 (fun i => !(s.lib i).used) = some p.entry ∧ libFit s.libExtents total = some p.e.addr ∧
      p.e = { used := true, total := total, bytes := data, addr := p.e.addr, owner := owner } ∧ p.create = true
    let continued := p.entry = fld body 0 4 ∧ p.entry ≠ 2 ^ 32 - 1 ∧ (s.lib p.entry).used = true ∧ (s.lib p.entry).erasing = false ∧
      (s.lib p.entry).ready = false ∧ total = (s.lib p.entry).total ∧ (s.lib p.entry).owner = owner ∧
      fld body 4 8 = (s.lib p.entry).bytes.length ∧ fld body 4 8 + data.length ≤ total ∧
      p.e = { s.lib p.entry with bytes := (s.lib p.entry).bytes ++ data } ∧ p.create = false
    let reply := beBytes 4 p.entry ++ beBytes 8 p.e.bytes.length
    let wrote := fun (u : State) (ready : Bool) =>
      u.lib p.entry = { p.e with ready := ready } ∧ (∀ j, j ≠ p.entry → u.lib j = s.lib j) ∧
      u.flash.tally = s.flash.tally - draw ∧ Only [.free, .flash, .criers, .clerk] (s.logged (libWriteShape h body) h) u
    created ∨ continued → s.flash.readOnly = false → draw ≤ s.flash.tally →
    (fld body 20 1 = 0 → ∃ u, Completes (.libWrite h body) s 0x50 h 0 u reply ∧ wrote u false) ∧
    (fld body 20 1 = 1 → p.e.bytes.length = total → imageCheck p.e.bytes false = none →
      ∃ u, Completes (.libWrite h body) s 0x50 h 1 u reply ∧ wrote u true)

/-- LIB_LIST (R332) answers the records of the listed entries from a number on, as many as fit, and the number that
follows; LIB_ERASE (R333, R402) of a listed entry nothing uses takes it out of the listing; LIB_ERASE_DONE frees its
number; an entry still being written is taken out when its time is up (R331). The model's choices: what a listing gives for an entry
still being written is a free value (log 82), and a number stays taken until the erasure has ended (log 83). -/
def Obligations.LibraryListsAndErases : Prop :=
  (∀ (h : CmdHdr) (body : List Byte) (s : State), s.Accepts (libListShape body) h body.length →
    let first := fld body 0 4
    let ids := (s.flash.lib.filter (fun p => decide (first ≤ p.1) && (p.2.used && !p.2.erasing))).map Prod.fst
    let room := (s.maxBody h.session - 8) / 48
    ∃ u, Completes (.libList h body) s 0x51 h 0 u (beBytes 2 (ids.take room).length ++ beBytes 2 0 ++
        beBytes 4 ((ids[room]?).getD (2 ^ 32 - 1)) ++ (ids.take room).flatMap s.libRecord) ∧ Only [.free] s u) ∧
  (∀ (h : CmdHdr) (body : List Byte) (s : State), s.Accepts (libEraseShape h body) h body.length →
    let n := fld body 0 4
    (s.lib n).used = true → (s.lib n).erasing = false → s.libInUse n = false →
    ∃ u, Completes (.libErase h body) s 0x52 h 1 u [] ∧ u.lib n = { s.lib n with erasing := true } ∧
      (∀ j, j ≠ n → u.lib j = s.lib j) ∧ Only [.flash] (s.logged (libEraseShape h body) h) u) ∧
  (∀ (n : Nat) (s : State), s.clocked = true → s.awake = true → (s.lib n).used = true →
    ((s.lib n).erasing = true → ∃ u : State, exec (.libEraseDone n) s = .next u ∧ u.lib n = {} ∧ (∀ j, j ≠ n → u.lib j = s.lib j) ∧
      Only [.flash] s u) ∧
    ((s.lib n).erasing = false → (s.lib n).ready = false →
      ∃ u : State, exec (.libEntryTimeout n) s = .next u ∧ u.lib n = { s.lib n with erasing := true } ∧
        (∀ j, j ≠ n → u.lib j = s.lib j) ∧ Only [.flash] s u))

/-- R391: the wear tally grows by one unit at a refill and stops at its cap; a save keeps its present value. A flash
channel's reset flushes its crossing. ORPHAN_EXPIRE (R400) frees an orphan record, its generation kept, and clears its
pages and no other memory. FLASH_SCRUB (R388, R389, R393, R395, R396, R403): every page of the store read counts on its
channel. A readable page has its block refreshed past 72 corrected bits, four retries, or 90 days since the block's data
was written; the block then has no data of that age. An unreadable one retires its block for a spare; with the last spare
the flash is read-only; a library entry whose stripe was not rebuilt is damaged. BOOT_SCRUB_COMPLETE (R394) ends the boot
scrub and reports the pages that it has had refreshed. The model's choices: which blocks and channels pages lie on (logs 70, 126), which
events a retired block raises (log 86), and what the boot scrub's report counts (log 158). -/
def Obligations.FlashIsScrubbedAndKept : Prop :=
  (∀ s : State, s.clocked = true → s.awake = true →
     exec .tallyRefill s = .next { s with flash := { s.flash with tally := min 8808038 (s.flash.tally + 1) } } ∧
     exec .tallySave s = .next { s with flash := { s.flash with saved := s.flash.tally } } ∧
     (∀ c, exec (.flashChannelReset c) s = .next { s with clk := { s.clk with flushes := s.clk.flushes + 1 } }) ∧
     (∀ n, (s.park n).st = .orphan → ∃ u : State, exec (.orphanExpire n) s = .next u ∧ u.park n = { gen := (s.park n).gen } ∧
       (∀ j, j ≠ n → u.park j = s.park j) ∧
       (∀ i, i < Config.folioBytes → mget u.mem (parkAddr n + i) = 0) ∧
       (∀ a, a < parkAddr n ∨ parkAddr n + Config.folioBytes ≤ a → mget u.mem a = mget s.mem a) ∧ Only [.flash, .mem] s u)) ∧
  ((∀ (g : ScrubPage) (s : State), s.clocked = true → s.awake = true →
     let c := s.flashCh g.channel
     let due := 72 < g.corrBits ∨ 4 < g.retries ∨ 90 * dayCycles ≤ s.now - (s.flash.wear.blk g.block).since
     (g.wf = false → exec (.flashScrub g) s = .next s) ∧
     (g.wf = true → ∃ u : State, exec (.flashScrub g) s = .next u ∧
       (let d := u.flashCh g.channel
        d.corr = c.corr + BitVec.ofNat 48 g.corrWords ∧ d.retry = c.retry + BitVec.ofNat 48 g.retries ∧
        d.uncorr = (if g.readable then c.uncorr else c.uncorr + 1)) ∧
       (∀ j, j ≠ g.channel → (u.flashCh j).corr = (s.flashCh j).corr ∧ (u.flashCh j).retry = (s.flashCh j).retry ∧
         (u.flashCh j).uncorr = (s.flashCh j).uncorr) ∧
       (g.readable = true → due → u.flash.refresh = s.flash.refresh + 1 ∧ u.flash.spares = s.flash.spares ∧
         (s.flash.bootScrub = false → u.flash.bootPages = s.flash.bootPages)) ∧
       (g.readable = true → ¬due → (u.flashCh g.channel).reads = c.reads + 1 ∧ u.flash.refresh = s.flash.refresh ∧
         u.flash.wear.blocks = s.flash.wear.blocks ∧ Only [.flash] s u) ∧
       (g.readable = false → u.flash.spares = s.flash.spares - 1 ∧ u.flash.retired = s.flash.retired + 1 ∧
         (u.flash.wear.blk g.block).bad = true ∧
         (s.flash.spares ≤ 1 → u.flash.readOnly = true) ∧ (1 < s.flash.spares → u.flash.readOnly = s.flash.readOnly) ∧
         (∀ n, g.entry = some n → g.rebuilt = false → (s.lib n).used = true → (u.lib n).damaged = true)) ∧
       Only [.free, .flash, .criers, .clerk] s u)) ∧
   (∀ (k : Nat) (s : State), s.clocked = true → s.awake = true → s.flash.bootScrub = true →
     ∃ u : State, exec (.bootScrubComplete k) s = .next u ∧ u.flash = { s.flash with bootScrub := false, bootPages := 0 } ∧
       ((s.crierSrc 12).ring.length < 65536 → ∃ r, (u.crierSrc 12).ring = (s.crierSrc 12).ring ++ [r] ∧ r.event = 0x0050 ∧
         r.arg = BitVec.ofNat 64 (7 + 2 ^ 32 * (s.flash.bootPages % 2 ^ 32))) ∧
       Only [.flash, .criers, .clerk] s u))

/-! ## Security -/

/-- ATTEST (R334, R441): page 0 signs a new report with the boot's key, keeps it for the session and answers its first
page; a later page of the kept report reads it. ATTEST_KEY_READY (R440) makes the key ready. The model's choices: the report's number is
a counter (log 28), and its identity, its configuration hash and its signature are constants and functions without a value (logs 12, 13,
16). -/
def Obligations.AttestSignsAndPages : Prop :=
  (∀ (h : CmdHdr) (body : List Byte) (s : State), s.Accepts (attestShape body) h body.length → s.sec.attestReady = true →
    let q := s.sess h.session
    let room := s.maxBody h.session
    let page := fld body 0 2
    (page = 0 →
      let k : Kept := { id := s.clerk.nextReport, bytes := s.report s.clerk.nextReport (body.drop 8) }
      ∃ u, Completes (.attest h body) s 0x60 h (1 + moreFlag 0 (reportPage room k 0).2) u (reportPage room k 0).1 ∧
        u.sess h.session = { q with report := some k } ∧ (∀ j, j ≠ h.session → u.sess j = s.sess j) ∧
        u.clerk = { s.clerk with nextReport := nextId s.clerk.nextReport } ∧ Only [.sessions, .clerk] s u) ∧
    (∀ k, page ≠ 0 → q.report = some k → fld body 4 4 = k.id → page < (reportPage room k page).2 →
      Completes (.attest h body) s 0x60 h (moreFlag page (reportPage room k page).2) s (reportPage room k page).1)) ∧
  (∀ s : State, s.clocked = true → s.awake = true →
    exec .attestKeyReady s = .next { s with sec := { s.sec with attestReady := true } })

/-- UNLOCK_CHALLENGE (R335): the drawn nonce and the next number make the one challenge that counts; the nonce is a
free value. CHALLENGE_EXPIRE voids it. ENTROPY_FAIL (R444) is counted and latched; LOCKOUT_END (R315) ends a lockout
and its count. UNLOCK_RESPONSE (R335, R446, R447) to the challenge in force: parts are gathered in order; the content
complete and verified opens the level, voids the challenge, counts the unlock, and at level 2 makes the session the
maker's; content that does not verify is refused with ST_BAD_SIGNATURE and voids the challenge. The model's choices: the nonce is a free
value (log 4), challenge numbers are a counter (log 28), the order of the checks and that a content that verifies ends the challenge
(log 88), and whether a signature verifies is open (log 13). -/
def Obligations.UnlocksRunByChallenge : Prop :=
  ((∀ (h : CmdHdr) (body : List Byte) (s : State), s.Accepts (unlockChallengeShape h body) h body.length →
     let level := fld body 0 1
     s.sec.entropyFail = false → ¬(level = 1 ∧ (s.cred 1).ver = 0) →
     ∃ u, Completes (.unlockChallenge h body) s 0x61 h 0 u (beBytes 4 s.sec.nextCh ++ wordBytes (Config.freeWord s.free)) ∧
       u.sec.challenge = some { id := s.sec.nextCh, level := level, nonce := Config.freeWord s.free } ∧
       tget 0 u.sec.issued s.sec.nextCh = level ∧ u.sec.nextCh = nextId s.sec.nextCh ∧
       Only [.sec, .free] s u) ∧
   (∀ s : State, s.clocked = true → s.awake = true →
     exec .challengeExpire s = .next { s with sec := { s.sec with challenge := none } } ∧
     exec .entropyFail s = .next { s with sec := { s.sec with entropyFail := true, entFails := s.sec.entFails + 1 } } ∧
     (s.sec.lockout = true → exec .lockoutEnd s = .next { s with sec := { s.sec with lockout := false, failRun := 0 } }))) ∧
  (∀ (h : CmdHdr) (body : List Byte) (s : State) (c : Challenge), s.Accepts (unlockResponseShape body s) h body.length →
     let off := fld body 4 2
     let total := fld body 6 2
     let got := c.got ++ body.drop 8
     let reply := beBytes 2 got.length ++ beBytes 2 0
     let l := s.logged (unlockResponseShape body s) h
     tget 0 s.sec.issued (fld body 0 4) ≠ 0 → s.sec.challenge = some c → c.id = fld body 0 4 →
     ¬(c.level = 1 ∧ s.sec.lockout = true) → total = contentBytes c.level → off = c.got.length → got.length ≤ total →
     (got.length < total → ∃ u, Completes (.unlockResponse h body) s 0x62 h 0 u reply ∧
       u.sec = { l.sec with challenge := some { c with got := got } } ∧ Only [.sec] s u) ∧
     (got.length = total → s.unlockOk c got = true → ∃ u, Completes (.unlockResponse h body) s 0x62 h 1 u reply ∧
       u.sec.debug = max s.sec.debug c.level ∧ u.sec.unlocks = s.sec.unlocks + 1 ∧ u.sec.challenge = none ∧
       (u.sess h.session).role = (if c.level = 2 then 3 else (s.sess h.session).role) ∧
       (∀ j, j ≠ h.session → u.sess j = s.sess j) ∧ Only [.sec, .sessions] s u) ∧
     (got.length = total → s.unlockOk c got = false → ∃ u : State, exec (.unlockResponse h body) s =
         .next (u.reply (s.hdrDefer 0x62 h) .badSignature 0 []) ∧
       u.sec.challenge = none ∧ u.sec.debug = s.sec.debug ∧ u.sec.unlocks = s.sec.unlocks ∧ Only [.sec] s u))

/-- FW_STAGE (R336, R391): a part at the present offset, within 60 s of the part before, draws its units and is gathered; an
image staged earlier is discarded, its slot empty and its commit void; the last part of a good image puts it in the idle
slot and answers its hash and version. FW_COMMIT (R337) of the staged hash puts that slot on
probation; with mode 1 a restart is accepted. PROBATION_END makes the running image permanent. The model's choices: the idle slot is the one that is
not running, and a part that is not the last is answered with an empty body (log 89). -/
def Obligations.FirmwareIsStagedCommittedAndKept : Prop :=
  (∀ (h : CmdHdr) (body : List Byte) (s : State), s.Accepts (fwStageShape h body) h body.length →
    let off := fld body 0 8
    let total := fld body 8 8
    let data := body.drop 20
    let got := (if off = 0 then [] else s.fw.part) ++ data
    let draw := fwDraw data.length
    let img := fwImage got
    let owner := (h.session, (s.sess h.session).gen)
    let idle := 1 - s.fw.running
    0 < total → total ≤ fwMax → off + data.length ≤ total →
    off = 0 ∨ (off = s.fw.part.length ∧ s.fw.partOwner = some owner ∧ total = s.fw.partTotal ∧
      s.now - s.fw.partAt < 60 * Config.ctPerSecond) →
    s.flash.readOnly = false → draw ≤ s.flash.tally →
    (got.length < total → ∃ u, Completes (.fwStage h body) s 0x63 h 0 u [] ∧
      u.fw = { s.fw with
        part := got, partTotal := total, partOwner := some owner, partAt := s.now, staged := none, committed := false } ∧
      u.flash.tally = s.flash.tally - draw ∧
      u.flash.slots = (if s.fw.staged.isSome then s.flash.slots.set idle none else s.flash.slots) ∧
      u.flash.probation = (if s.fw.staged.isSome ∧ s.flash.probation = some idle then none else s.flash.probation)) ∧
    (got.length = total → fwCheck got = none →
      ∃ u, Completes (.fwStage h body) s 0x63 h 1 u (wordBytes img.hash ++ [4, BitVec.ofNat 8 img.minor] ++ beBytes 2 img.patch) ∧
        u.fw = { s.fw with part := [], partTotal := 0, partOwner := none, staged := some img, committed := false } ∧
        u.flash.slots = s.flash.slots.set idle (some img) ∧ u.flash.tally = s.flash.tally - draw)) ∧
  (∀ (h : CmdHdr) (body : List Byte) (s : State), s.Accepts (fwCommitShape h body) h body.length →
    s.fw.staged.map (·.hash) = some (BitVec.ofNat 256 (fld body 0 32)) → (fld body 32 1 = 1 → s.holdingStalls = []) →
    s.fw.restart = none →
    ∃ u, Completes (.fwCommit h body) s 0x64 h 0 u [] ∧ u.flash = { s.flash with probation := some (1 - s.fw.running) } ∧
      u.fw = { s.fw with committed := true, restart := if fld body 32 1 = 1 then some 0 else none } ∧
      Only [.flash, .fw] (s.logged (fwCommitShape h body) h) u) ∧
  (∀ s : State, s.clocked = true → s.awake = true → s.flash.probation = some s.fw.running → s.fw.greeted = true →
    s.clerk.failed = none →
    ∃ u : State, exec .probationEnd s = .next u ∧ u.flash = { s.flash with perm := s.fw.running, probation := none } ∧
      u.sec.auditSeq = s.sec.auditSeq + 1 ∧ Only [.flash, .sec] s u)

/-- The security registers (R434): a commit puts the staged salt and verifier into its credential slot, a clear
empties it, a save keeps both ports' values; each draws the configuration record's four units (log 86: the model's reading of Table
17.2). AUDIT_READ (R338)
answers the kept records from a number on and changes nothing but the counts of pages read in flash (on which channel, log 70). -/
def Obligations.CredentialsAndAuditRead : Prop :=
  (∀ (h : CmdHdr) (slot : Nat) (clear : Bool) (s : State), s.Accepts (regWriteShape h (credBody slot clear)) h 48 →
    let c : Instr := if clear then .secCredClear h slot else .secCredCommit h slot
    slot < 3 → 4 ≤ s.flash.tally →
    ∃ u, Completes c s 0x71 h 0 u (backBody 0) ∧ u.flash.tally = s.flash.tally - 4 ∧
      u.flash.cfg = { s.flash.cfg with creds := s.flash.cfg.creds.set slot (if clear then {} else s.stagedCred) } ∧
      Only [.free, .flash, .criers, .clerk] (s.logged (regWriteShape h (credBody slot clear)) h) u) ∧
  (∀ (h : CmdHdr) (s : State), s.Accepts (regWriteShape h (writeBody "SEC_CFG_SAVE" 1)) h 48 → 4 ≤ s.flash.tally →
    ∃ u, Completes (.secCfgSave h) s 0x71 h 0 u (backBody 0) ∧ u.flash.tally = s.flash.tally - 4 ∧
      u.flash.cfg = { s.flash.cfg with nets := some [(s.net 0).words, (s.net 1).words] } ∧
      Only [.free, .flash, .criers, .clerk] (s.logged (regWriteShape h (writeBody "SEC_CFG_SAVE" 1)) h) u) ∧
  (∀ (h : CmdHdr) (body : List Byte) (s : State), s.Accepts (auditReadShape body) h body.length →
    let oldest := s.sec.auditSeq + 1 - s.sec.audit.length
    let first := max (fld body 0 8) oldest
    let l := (s.sec.audit.reverse.drop (first - oldest)).take (min (fld body 8 2) ((s.maxBody h.session - 16) / 512))
    ∃ u, Completes (.auditRead h body) s 0x65 h (if l.length < fld body 8 2 ∧ first + l.length ≤ s.sec.auditSeq then 2 else 0) u
        (beBytes 8 first ++ beBytes 2 l.length ++ beBytes 6 0 ++ l.flatten) ∧
      u.flash = { s.flash with wear := u.flash.wear } ∧ Only [.free, .flash] s u)

/-! ## Registers and clocks -/

/-- REG_WRITE (R340) of a register of the tables whose clock runs. An RW register takes a value that keeps to its
fields and their range, and reads it back; of a W1C register the flags written 1 are cleared, the others stay, and the
answer reads the register as it is then; either way nothing else changes. A value outside the fields or the range is
refused with ST_BAD_DESCRIPTOR, whether the clock runs or not (R292, R340). The registers with commands of their own (gates, credentials, resets) are stated
with those. A register none of whose fields can be written is refused with ST_NO_RIGHT, a nonzero index with
ST_BAD_DESCRIPTOR. REG_READ (R339) answers the entries asked for, as many as fit a response, and nothing changes.
COUNTERS_READ (R342) answers its group's counters in the order of their tables. An access whose clock is stopped is
answered ST_TIMEOUT and counted (R425). The model's choices: names carry decimal indices (log 97), SAPn_CTRL reads back what was written
(log 96), a register of 16 bytes is one value (log 92), and the width of the window's entries (log 91). -/
def Obligations.RegistersReadAndWrite : Prop :=
  (∀ (h : CmdHdr) (body : List Byte) (s : State) (pat : String) (i : List Nat) (d : RegDef),
     s.Accepts (regWriteShape h body) h body.length → regName body = some (pat, i) → isDebug body = false →
     regDef pat i = some d → pat ≠ "HUB_EXPORT#_IMAGE" →
     let v := fld body 40 8
     let n := ix i 0
     let l := s.logged (regWriteShape h body) h
     let act := ((netWrite pat i v).orElse (fun _ => limitWrite pat i v)).orElse (fun _ =>
       (unitWrite pat i v).orElse (fun _ => systemWrite h pat i v s))
     let refused := fun (st : Status) => exec (.regWrite h body) s = .next (s.reply (s.hdrDefer 0x71 h) st 0 [])
     let stored := fun (back : State → Nat) (f : Field) (holds : State → Prop) =>
       ∃ u, Completes (.regWrite h body) s 0x71 h 0 u (beBytes 8 (back u)) ∧ holds u ∧ Only [f] l u
     let runs := (d.view i).stop s = false
     let rw := fun (name : String) (ok : Prop) (f : Field) (holds : State → Prop) =>
       (pat = name → ok → runs → stored (fun _ => v) f holds) ∧ (pat = name → ¬ok → refused .badDescriptor)
     let w1c := fun (name : String) (mask : Nat) (f : Field) (back : State → Nat) (holds : State → Prop) =>
       (pat = name → v &&& mask = v → runs → stored back f holds) ∧ (pat = name → v &&& mask ≠ v → refused .badDescriptor)
     let net := fun (g : NetPort → NetPort) (u : State) => u.net n = g (s.net n) ∧ ∀ j, j ≠ n → u.net j = s.net j
     let sap := fun (g : Sap → Sap) (u : State) => u.sap n = g (s.sap n) ∧ ∀ j, j ≠ n → u.sap j = s.sap j
     let limit := fun (e q : Nat) (u : State) =>
       tget ({} : PQueue) (u.engine e).queues q = { tget ({} : PQueue) (s.engine e).queues q with limit := v } ∧
       (∀ j, j ≠ q → tget ({} : PQueue) (u.engine e).queues j = tget ({} : PQueue) (s.engine e).queues j) ∧
       ∀ j, j ≠ e → u.engine j = s.engine j
     let w := BitVec.ofNat 32 v
     let word := v < 2 ^ 32
     let clear := fun (flag : Bool) (k : Nat) => flag && !v.testBit k
     (act = none → refused .noRight) ∧
     (act ≠ none → fld body 32 4 ≠ 0 → refused .badDescriptor) ∧
     (∀ a, act = some a → (∀ st b f, a ≠ .refuse st b f) → fld body 32 4 = 0 → ¬runs →
       ∃ u : State, exec (.regWrite h body) s = .next (u.reply (s.hdrDefer 0x71 h) .timeout 0 []) ∧
         u.clk = { s.clk with diag := s.clk.diag + 1 } ∧ Only [.clk] s u) ∧
     (fld body 32 4 = 0 →
       rw "NET#_CFG" (v < 2 ^ 30 ∧ netCfgOk v = true) .nets (net (fun t => { t with cfg := w })) ∧
       rw "NET#_QOS" (v < 2 ^ 26) .nets (net (fun t => { t with qos := w })) ∧
       rw "NET#_PORTS" (word ∧ v.testBit 16 = false) .nets (net (fun t => { t with ports := w })) ∧
       rw "NET#_IPV#" word .nets (net (fun t => { t with ipv4 := w })) ∧
       rw "NET#_IPV#_MASK" word .nets (net (fun t => { t with mask4 := w })) ∧
       rw "NET#_IPV#_GW" word .nets (net (fun t => { t with gw4 := w })) ∧
       rw "NET#_IPV#_ADDR#" word .nets (net (fun t => { t with ipv6 := setWord128 t.ipv6 (ix i 2) v })) ∧
       rw "NET#_IPV#_GW#" word .nets (net (fun t => { t with gw6 := setWord128 t.gw6 (ix i 2) v })) ∧
       rw "NET#_IPV#_PREFIX" (1 ≤ v ∧ v ≤ 128) .nets (net (fun t => { t with prefix6 := w })) ∧
       w1c "NET#_STATUS" 7 .nets (fun u => (u.net n).statusWord) (net (fun t => { t with lost := clear t.lost 2 })) ∧
       rw "PRS#_PRT_Q#_LIMIT" (1 ≤ v ∧ v ≤ 1024) .engines (limit n (ix i 1)) ∧
       rw "SS#_PRT_Q#_LIMIT" (1 ≤ v ∧ v ≤ 1024) .engines (limit (16 + n) (ix i 1)) ∧
       rw "ME#_PRT_Q#_LIMIT" (1 ≤ v ∧ v ≤ 1024) .engines (limit (20 + n) (ix i 1)) ∧
       rw "HUB_PRT_Q#_LIMIT" (1 ≤ v ∧ v ≤ 1024) .engines (limit 24 n) ∧
       (let c := 12 * n + ix i 1
        w1c "ME#_GD#_STATUS" 7 .channels (fun u => (u.channel c).statusWord) (fun u =>
          u.channel c = { s.channel c with ueSeen := clear (s.channel c).ueSeen 0 } ∧ ∀ j, j ≠ c → u.channel j = s.channel j)) ∧
       w1c "SS#_STATUS" 1 .dies (fun u => b2n (u.die n).ueSeen) (fun u =>
         u.die n = { s.die n with ueSeen := clear (s.die n).ueSeen 0 } ∧ ∀ j, j ≠ n → u.die j = s.die j) ∧
       rw "SAP#_CTRL" (v ≤ 3) .saps (sap (fun t => { t with ctrlNext := some (v.testBit 0, v.testBit 1) })) ∧
       w1c "SAP#_STATUS" 0x7F .saps (fun u => (u.sap n).statusWord) (sap (fun t => { t with
         wd := clear t.wd 0, nonaudio := clear t.nonaudio 2, underrun := clear t.underrun 3, framing := clear t.framing 4 })) ∧
       w1c "HUB_FLASH_STATUS" 0xF .flash (fun u => u.flash.statusWord) (fun u =>
         u.flash = { s.flash with tallyZero := clear s.flash.tallyZero 0 }) ∧
       w1c "CLK_GATE_EVENT" 0x1FF0001 .clk (fun u => u.clk.eventWord) (fun u =>
         u.clk = { s.clk with refusedSeen := clear s.clk.refusedSeen 0 }) ∧
       w1c "SEC_STATUS" 0x1FF .sec State.secWord (fun u => u.sec = { l.sec with credFail := clear l.sec.credFail 5 }) ∧
       (pat = "SEC_CRED_STAGE#" → runs → stored (fun _ => 0) .sec (fun u =>
         u.sec = { l.sec with stage := l.sec.stage.set n (BitVec.ofNat 64 v) })) ∧
       rw "PWR_CAP_CTRL" (48 ≤ v ∧ v ≤ 100) .power (fun u => u.power = { s.power with cap := v }) ∧
       w1c "THM_STATUS" 3 .power (fun u => u.power.thmWord) (fun u =>
         u.power = { s.power with throttleSeen := clear s.power.throttleSeen 0, overLimit := clear s.power.overLimit 1 }) ∧
       rw "MOD_ALERT_CTRL" (v ≤ 0x3F) .power (fun u => u.power = { s.power with alertMask := BitVec.ofNat 6 v }))) ∧
  ((∀ (h : CmdHdr) (body : List Byte) (s : State) (pat : String) (i : List Nat) (d : RegDef),
     s.Accepts (regReadShape body) h body.length → regName body = some (pat, i) → isDebug body = false →
     pat ≠ "HUB_EXPORT#_IMAGE" → regDef pat i = some d →
     let index := fld body 32 4
     let count := fld body 36 2
     let v := d.view i
     (∀ n, v.window = some n → index + count ≤ n) → (v.window = none → index = 0 ∧ count = 1) →
     count * v.width ≤ s.maxBody h.session →
     (v.stop s = false → Completes (.regRead h body) s 0x70 h 0 s ((List.range count).flatMap (fun i => v.bytes s (index + i)))) ∧
     (v.stop s = true → ∃ u : State, exec (.regRead h body) s = .next (u.reply (s.hdrDefer 0x70 h) .timeout 0 []) ∧
       u.clk = { s.clk with diag := s.clk.diag + 1 } ∧ Only [.clk] s u)) ∧
   (∀ (h : CmdHdr) (body : List Byte) (s : State), s.Accepts (countersReadShape body) h body.length →
     let g := fld body 0 1
     let u := fld body 1 1
     u < groupUnits g →
     (s.groupOff g u = false → Completes (.countersRead h body) s 0x73 h 0 s ((s.groupCtrs g u).flatMap (beBytes 8))) ∧
     (s.groupOff g u = true → ∃ t, exec (.countersRead h body) s = .next (t.reply (s.hdrDefer 0x73 h) .timeout 0 []) ∧
       t.clk = { s.clk with diag := s.clk.diag + 1 } ∧ Only [.clk] s t)))

/-- A read of HUB_EXPORTh_IMAGE (R326, R364) answers the entries of a held image and notes them; once every entry has
been read the image is released. It is released too when its time is up. The image of an orphan park record n is read under handle
0x80000000 + n (R400): its 1,024 entries are the record's pages; once all have been read the record is free, its generation kept. On
which channel a page is read is log 70, and that a read of an image no longer held ends with ST_TIMEOUT is log 90. -/
def Obligations.ExportImagesAreReadAndReleased : Prop :=
  (∀ (h : CmdHdr) (handle index count : Nat) (s : State), s.Accepts (exportReadShape handle index count) h 40 →
    let g := s.img handle
    let seen := ((List.range count).map (index + ·)).foldl insertNat g.read
    handle < 2 ^ 31 → g.held = true → index + count ≤ g.bytes.length / 512 → 512 * count ≤ s.maxBody h.session →
    ∃ u, Completes (.exportImageRead h handle index count) s 0x70 h 0 u ((g.bytes.drop (512 * index)).take (512 * count)) ∧
      (seen.length = g.bytes.length / 512 → u.img handle = {}) ∧
      (seen.length ≠ g.bytes.length / 512 → u.img handle = { g with read := seen }) ∧
      (∀ j, j ≠ handle → u.img j = s.img j) ∧ Only [.exports] s u) ∧
  (∀ (h : CmdHdr) (n index count : Nat) (s : State), s.Accepts (exportReadShape (2 ^ 31 + n) index count) h 40 →
    let g := s.park n
    let seen := ((List.range count).map (index + ·)).foldl insertNat g.read
    let done := seen.length = 1024
    g.st = .orphan → index + count ≤ 1024 → 512 * count ≤ s.maxBody h.session →
    ∃ u, Completes (.exportImageRead h (2 ^ 31 + n) index count) s 0x70 h 0 u (mread s.mem (parkAddr n + 512 * index) (512 * count)) ∧
      u.park n = (if done then { gen := g.gen } else { g with read := seen }) ∧ (∀ j, j ≠ n → u.park j = s.park j) ∧
      (∀ a, mget u.mem a = if done ∧ parkAddr n ≤ a ∧ a < parkAddr n + Config.folioBytes then 0 else mget s.mem a) ∧
      Only [.free, .flash, .mem] s u) ∧
  (∀ (h : CmdHdr) (handle index count : Nat) (s : State), s.Accepts (exportReadShape handle index count) h 40 →
    (handle < 2 ^ 31 → (s.img handle).held = false) → (2 ^ 31 ≤ handle → (s.park (handle - 2 ^ 31)).st ≠ .orphan) →
    exec (.exportImageRead h handle index count) s = .next (s.reply (s.hdrDefer 0x70 h) .timeout 0 [])) ∧
  (∀ (handle : Nat) (s : State), s.clocked = true → s.awake = true → (s.img handle).held = true →
    ∃ u : State, exec (.exportExpire handle) s = .next u ∧ u.img handle = {} ∧ (∀ j, j ≠ handle → u.img j = s.img j) ∧
      Only [.exports] s u)

/-- R412: a request to turn a node on turns on the node and its parent; a request to turn one off does so unless the
node is in use, and then it is refused, counted and recorded with the node. The read-back shows the request. -/
def Obligations.GateRequestsActOnTheTree : Prop :=
  ∀ (h : CmdHdr) (node : Nat) (s : State), node < 272 →
    (s.Accepts (regWriteShape h (gateBody node true)) h 48 →
      ∃ u, Completes (.clkGateOn h node) s 0x71 h 0 u (beBytes 8 (node + 512)) ∧ node ∈ u.clk.on ∧
        (16 ≤ node → (node - 16) / 16 ∈ u.clk.on) ∧ (∀ k ∈ s.clk.on, k ∈ u.clk.on) ∧ u.clk.refused = s.clk.refused ∧
        Only [.clk] (s.logged (regWriteShape h (gateBody node true)) h) u) ∧
    (s.Accepts (regWriteShape h (gateBody node false)) h 48 →
      ∃ u, Completes (.clkGateOff h node) s 0x71 h 0 u (beBytes 8 node) ∧
        Only [.clk] (s.logged (regWriteShape h (gateBody node false)) h) u ∧
        (s.nodeUsed node = false → node ∉ u.clk.on ∧ (∀ k ∈ s.clk.on, k ≠ node → k ∈ u.clk.on) ∧ u.clk.refused = s.clk.refused) ∧
        (s.nodeUsed node = true → u.clk.on = s.clk.on ∧ u.clk.refused = s.clk.refused + 1 ∧ u.clk.lastNode = node ∧
          u.clk.refusedSeen = true))

/-- R417: while one measurement runs, FREQ_MEASURE is refused with ST_BUSY and has no effect; otherwise it starts, and
its response is owed (deferred: log 23). -/
def Obligations.OneMeasurementAtATime : Prop :=
  ∀ (h : CmdHdr) (body : List Byte) (s : State), s.Accepts (freqMeasureShape body) h body.length →
    (s.clk.fmBusy = true → exec (.freqMeasure h body) s = .next (s.reply (s.hdrDefer 0x72 h) .busy 0 [])) ∧
    (s.clk.fmBusy = false → exec (.freqMeasure h body) s = .next (State.startCmd { s with clk := { s.clk with
      fmTarget := fld body 0 1, fmRef := fld body 1 1, fmK := fld body 2 1, fmBusy := true, fmDone := false, fmSat := false,
      fmTimeout := false, fmDefer := some (s.hdrDefer 0x72 h) } } h))

/-- FREQ_MEASURE_DONE (R341, R416): the count, at most 2^32 - 1 and then marked saturated, ends the measurement and is
answered; FMTR_TIMEOUT ends it with ST_TIMEOUT. CLK_SRC_SWITCH_DONE (R414): the mux stands at its new source and the
switch is counted; CLK_SRC_DEADOLD: a switch whose old source is stopped is counted once. DIAG_TIMEOUT (R425): an access to a
register of a press or of a memory-edge die is answered ST_TIMEOUT and counted, and a press whose node is on is retired (R345); no
other access has a timeout. That a switch is forced once, and that done is set by a count alone, are log 87: the model's choices. -/
def Obligations.MeasurementsAndSwitchesEnd : Prop :=
  (∀ s : State, s.clocked = true → s.awake = true → s.clk.fmBusy = true →
    (∀ count, ∃ u : State, exec (.freqMeasureDone count) s = .next (u.answer s.clk.fmDefer .ok
        (beBytes 4 (min count (2 ^ 32 - 1)) ++ [if 2 ^ 32 - 1 ≤ count then 1 else 0, 0, 0, 0])) ∧
      u = { s with clk := { s.clk with
        fmBusy := false, fmDone := true, fmSat := decide (2 ^ 32 - 1 ≤ count),
        fmCount := BitVec.ofNat 32 (min count (2 ^ 32 - 1)), fmDefer := none } }) ∧
    exec .fmtrTimeout s = .next (State.answer { s with clk := { s.clk with
        fmBusy := false, fmTimeout := true, fmDefer := none } } s.clk.fmDefer .timeout [])) ∧
  (∀ (p : Nat) (s : State), s.clocked = true → p < 16 → s.clk.switching.getLsbD p = true →
    (∃ u : State, exec (.clkSrcSwitchDone p) s = .next u ∧ (u.sap p).mux = (s.sap p).muxTo ∧ u.clk.switches = s.clk.switches + 1 ∧
      (p ∉ s.clk.sapWait → u.clk.switching.getLsbD p = false) ∧ (∀ j, j ≠ p → u.sap j = s.sap j) ∧ Only [.saps, .clk] s u) ∧
    (s.clk.muxed.getLsbD p = false → ∃ u : State, exec (.clkSrcDeadold p) s = .next u ∧ u.clk.deadold = s.clk.deadold + 1 ∧
      u.clk.muxed.getLsbD p = true ∧ u.clk.switching = s.clk.switching ∧ Only [.clk] s u)) ∧
  (∀ s : State, s.clocked = true → s.clk.ctSwitch = true →
    exec (.clkSrcSwitchDone 16) s = .next { s with clk := { s.clk with
      ctSwitch := false, ctPll := true, switches := s.clk.switches + 1 } } ∧
    (s.clk.ctDead = false → exec (.clkSrcDeadold 16) s = .next { s with clk := { s.clk with
      ctDead := true, deadold := s.clk.deadold + 1 } })) ∧
  (∀ (h : CmdHdr) (c : List Byte) (s : State), s.clocked = true → s.clerkUp = true → s.commandBytes h.session h.seq = some c →
    let op := fld c 0 1
    let ends := fun (p : Option Nat) => exec (.diagTimeout h p) s =
      .next (State.reply { s with clk := { s.clk with diag := s.clk.diag + 1 } } (s.hdrDefer op h) .timeout 0 [])
    (diagDie c = none → ∀ p, exec (.diagTimeout h p) s = .next s) ∧
    ∀ d, diagDie c = some d → (16 ≤ d → d < 24 → ends none) ∧ (d < 16 → s.pressOn d = false → ends (some d)) ∧
      (d < 16 → s.pressOn d = true → ∃ u : State, exec (.diagTimeout h (some d)) s = .next (u.reply (s.hdrDefer op h) .timeout 0 []) ∧
        u.clk.diag = s.clk.diag + 1 ∧ (u.press d).retired = true))

/-! ## Resets, power and heat -/

/-- PWR_RESET_CTRL (R465): a warm or cold reset is accepted when it is forced or no stall holds a stream, and takes
place later; a press that no row owns begins its reset, a retired one is refused with ST_NO_RESOURCE (log 34), a
memory-edge die begins its own with its channels untrained and its crossing flushed (Table 18.5). A press whose engine still holds
issued transfers begins it once none is left, and its response is owed until then (log 102: the model's choice). Unforced against a held stream the request is refused with the stalls' states (the order of these refusals: log 24). PER_DIE_RESET_COMPLETE (R462, R464): a
press's buffer pairs, scales, queues and memory are clear, no other press's memory, and a row that waited for it in
BUILDING goes on building (R346); a memory-edge die's channels are trained again, and what Palhani wrote to it meanwhile, and nothing
else, lands (R424; log 147). A channel that fails to train is a module failure (R217). What a die's reset clears is log 103. -/
def Obligations.ResetRequestsAndDieResets : Prop :=
  ((∀ (h : CmdHdr) (force : Bool) (s : State), s.fw.restart = none → s.power.dieWait = [] → s.power.asked = none →
     let sh := fun (kind : Nat) => regWriteShape h (resetBody kind 0 force)
     let go := fun (c : Instr) (kind : Nat) => s.Accepts (sh kind) h 48 →
       (force = true ∨ s.holdingStalls = [] → ∃ u, Completes c s 0x71 h 0 u (beBytes 8 0) ∧
         u.fw = { s.fw with restart := some kind } ∧ Only [.fw] (s.logged (sh kind) h) u) ∧
       (force = false → s.holdingStalls ≠ [] → exec c s = .next
         (s.reply (s.hdrDefer 0x71 h) .stateConflict 0 (conflictBytes (s.holdingStalls.map s.stallEntry))))
     go (.warmReset h force) 1 ∧ go (.coldResetRequest h force) 2) ∧
   (∀ (h : CmdHdr) (die : Nat) (s : State), s.fw.restart = none → s.power.dieWait = [] → s.power.asked = none →
     s.Accepts (regWriteShape h (resetBody 3 die false)) h 48 →
     let l := s.logged (regWriteShape h (resetBody 3 die false)) h
     (die < 16 → s.pressRow die = none → (s.press die).retired = false → (s.engine die).issued = [] →
       ∃ u, Completes (.perDieReset h die) s 0x71 h 0 u (beBytes 8 0) ∧
         u.power = { s.power with dieWait := [(die, true)], asked := some (die, none) } ∧ Only [.power] l u) ∧
     (die < 16 → s.pressRow die = none → (s.press die).retired = false → (s.engine die).issued ≠ [] →
       ∃ u : State, exec (.perDieReset h die) s = .next (u.startCmd h) ∧
         u.power = { s.power with dieWait := [(die, false)], asked := some (die, some (s.hdrDefer 0x71 h)) } ∧ Only [.power] l u) ∧
     (die < 16 → s.pressRow die = none → (s.press die).retired = true →
       exec (.perDieReset h die) s = .next (s.reply (s.hdrDefer 0x71 h) .noResource 0 [])) ∧
     (20 ≤ die → die < 24 → s.presentRows = [] →
       ∃ u, Completes (.perDieReset h die) s 0x71 h 0 u (beBytes 8 0) ∧ u.power.dieWait = [(die, true)] ∧
         (∀ c, c < 12 → (u.channel (12 * (die - 20) + c)).trained = false ∧ (u.channel (12 * (die - 20) + c)).reqs = []) ∧
         u.clk = { s.clk with flushes := s.clk.flushes + 1 } ∧
         (∀ c, c < 12 * (die - 20) ∨ 12 * (die - 19) ≤ c → u.channel c = s.channel c) ∧ Only [.power, .channels, .clk] l u))) ∧
  (∀ (die : Nat) (bad : List Nat) (s : State), s.clocked = true → s.awake = true → s.dieInReset die = true →
     (∀ r, die < 16 → s.pressRow die = some r → (s.row r).st = .building → ∃ u : State,
       exec (.perDieResetComplete die bad) s = .next u ∧ (u.row r).st = .building ∧
       u.power.dieResets = s.power.dieResets + 1 ∧ u.dieInReset die = false) ∧
     (die < 16 → (∀ r, s.pressRow die = some r → (s.row r).st ≠ .building) →
       ∃ u : State, exec (.perDieResetComplete die bad) s = .next u ∧ (u.press die).pairs = [] ∧ (u.press die).scales = [] ∧
       (u.engine die).queues = [] ∧ (∀ j, j ≠ die → u.press j = s.press j) ∧
       u.power.dieResets = s.power.dieResets + 1 ∧ u.dieInReset die = false ∧
       (∀ a, mget u.mem a = if addrWord 2 die 0 ≤ a ∧ a < addrWord 2 die 0 + 2 ^ 48 then 0 else mget s.mem a)) ∧
     (20 ≤ die → die < 24 → ∃ u : State, exec (.perDieResetComplete die bad) s = .next u ∧
       u.power.dieResets = s.power.dieResets + 1 ∧ u.dieInReset die = false ∧
       (∀ a, (∀ m ∈ s.heldMoves, a < m.addr ∨ m.addr + max m.len (m.bytes.getD []).length ≤ a) → mget u.mem a = mget s.mem a) ∧
       (s.power.dieWait = [(die, true)] → u.heldMoves = [] ∧ ∀ m bs, s.heldMoves = [m] → m.bytes = some bs → bs.length = m.len →
         (∀ c, (s.channel c).poison = []) → ∀ i, i < m.len → some (mget u.mem (m.addr + i)) = bs[i]?) ∧
       (∀ c, c < 12 → 12 * (die - 20) + c ∉ bad → (u.channel (12 * (die - 20) + c)).trained = true) ∧
       (∀ c, c < 12 → 12 * (die - 20) + c ∈ bad → (u.channel (12 * (die - 20) + c)).failed = true ∧ u.clerk.failed ≠ none)))

/-- Table 20.4. A cold reset (input loss, trip, RESET_N, a scheduled one) leaves flash contents, the audit log and the
pins, and every other register at its reset value; the phase says where the module stands; where every rail goes down, and at the power-up
after a trip, the TAP is reset too (R459, R470, R487). Without power RESET_N moves the pin alone; under boundary scan its cell captures it
besides (R486). A release by SCHEDULED_RESET samples the pins (R479, R480). A warm reset frees streams, stalls, voices, rows and sessions,
disables the serial audio ports with their configuration kept, and keeps counters, the boot count, flash, and the memory of GDDR7 and of
the hub; with no image to run FAULT_N is low and the ports are down (R437). The model's choices: what a cold reset leaves of the TAP and the tally
(logs 85, 100), and what a warm one leaves of what Table 20.4 does not list (log 101). -/
def Obligations.ResetsLeaveWhatTheTableKeeps : Prop :=
  ∀ s : State,
    let cold := fun (u : State) (ph : Phase) (tap : Jtag) =>
      u.power.phase = ph ∧ u.streams = [] ∧ u.egress = [] ∧ u.stalls = [] ∧ u.voices = [] ∧ u.bases = [] ∧ u.rows = [] ∧
      u.presses = [] ∧ u.engines = [] ∧ u.channels = [] ∧ u.dies = [] ∧ u.nets = [] ∧ u.saps = [] ∧ u.vct = {} ∧ u.clk = {} ∧
      u.clerk = {} ∧ u.exports = [] ∧ u.criers = [] ∧ u.rings = [] ∧ u.journals = [] ∧ u.stages = [] ∧ u.recUnits = [] ∧
      u.clocked = true ∧ (∀ k, u.sess k = { gen := (u.sess k).gen }) ∧
      u.sec = { audit := s.sec.audit, auditSeq := s.sec.auditSeq } ∧ u.flash.lib = s.flash.lib ∧ u.flash.cfg = s.flash.cfg ∧
      u.flash.slots = s.flash.slots ∧ u.flash.tally = s.flash.saved ∧ u.jtag = tap ∧ u.heldMoves = [] ∧
      u.power.slotPins = s.power.slotPins ∧ u.power.fpgmPin = s.power.fpgmPin ∧
      (∀ a, mget u.mem a = if bits a 51 48 = 3 then mget s.mem a else 0)
    (s.power.phase ≠ .off → ∃ u : State, exec .inputLoss s = .next u ∧ cold u .off {}) ∧
    (s.power.phase ≠ .off → ∃ u : State, exec .thermalTrip s = .next u ∧ cold u .tripped {}) ∧
    (s.power.phase = .off → exec .resetN s = .next { s with power := { s.power with resetN := false } }) ∧
    (s.power.phase = .tripped → ∃ u : State, exec .resetN s = .next u ∧ cold u .held {} ∧ u.power.resetN = false) ∧
    (s.power.phase ≠ .off → s.power.phase ≠ .tripped → s.jtag.hub.takesPins = false →
      ∃ u : State, exec .resetN s = .next u ∧ cold u .held s.jtag ∧ u.power.resetN = false) ∧
    (s.power.phase ≠ .off → s.power.phase ≠ .tripped → s.jtag.hub.takesPins = true →
      ∃ u : State, exec .resetN s = .next u ∧ u.power = { s.power with resetN := false } ∧ u.jtag.hub.capture[145]? = some false ∧
        Only [.power, .jtag] s u) ∧
    (s.clocked = true → s.awake = true → s.fw.restart = some 2 ∨ s.fw.restart = some 0 →
      ∃ u : State, exec .scheduledReset s = .next u ∧ cold u .released s.jtag ∧ u.power.slotId = s.power.slotPins ∧
        u.power.fpgmN = s.power.fpgmPin) ∧
    (s.clocked = true → s.awake = true → s.fw.restart = some 1 → s.clerk.failed = none →
      ∃ u : State, exec .scheduledReset s = .next u ∧ u.streams = [] ∧ u.egress = [] ∧ u.stalls = [] ∧ u.voices = [] ∧ u.bases = [] ∧
        u.rings = [] ∧ u.journals = [] ∧ (∀ r, (u.row r).st = .absent) ∧ (twf ({} : Row) s.rows = true → ∀ r, (u.row r).admits = (s.row r).admits) ∧
        (∀ k, u.sess k = { gen := (u.sess k).gen }) ∧ u.power.warm = s.power.warm + 1 ∧ u.flash.bootCount = s.flash.bootCount ∧
        u.flash.lib = s.flash.lib ∧ u.flash.tally = s.flash.tally ∧ u.clk.refused = s.clk.refused ∧
        u.vct = { s.vct with peers := [] } ∧ u.fw.restart = none ∧ u.heldMoves = [] ∧
        (∀ a, mget u.mem a = if bits a 51 48 = 0 ∨ bits a 51 48 = 3 ∨ bits a 51 48 = 5 then mget s.mem a else 0) ∧
        (twf ({} : Sap) s.saps = true → ∀ p, let x := u.sap p
          let y := s.sap p
          x.enable = false ∧ x.bound = [] ∧ x.mode = y.mode ∧ x.master = y.master ∧ x.mclk = y.mclk ∧ x.slots = y.slots ∧
          x.bits = y.bits ∧ x.rate = y.rate ∧ x.mux = y.mux ∧ x.frames = y.frames ∧ x.underruns = y.underruns) ∧
        (u.power.phase = .stuck → u.power.faultN = false ∧ (u.net 0).up = false ∧ (u.net 1).up = false))

/-- The boot sequence (Table 20.2, R410, R435, R444, R458, R476, R479, R480). POWER_UP holds while RESET_N is low, else it samples the
pins; RESET_N's release samples them too, and later only the pins change; under boundary scan their cells capture them, and nothing else
follows (R486). At PLL lock the ROM refuses to run where the maker's key fails the fused hash (R435); else it chooses an image, or none
runs; once CTCLK runs on (R414) Palhani counts the boot; the ports come up and FAULT_N is released. Factory programming starts no image.
Which results the ROM meets are operands (logs 103, 104), and the slot that runs is chosen at PLL lock (log 100). -/
def Obligations.BootRunsInOrder : Prop :=
  ∀ s : State,
    (s.power.phase = .off → ∃ u : State, exec .powerUp s = .next u ∧ u.jtag = {} ∧
      u.power.phase = (if s.power.resetN then .released else .held) ∧
      (s.power.resetN = true → u.power.slotId = s.power.slotPins ∧ u.power.fpgmN = s.power.fpgmPin)) ∧
    (∀ id f, s.clocked = true → s.jtag.hub.takesPins = false →
      (s.power.phase = .held → exec (.resetNRelease id f) s = .next { s with power := { s.power with
        resetN := true, slotPins := id, fpgmPin := f, phase := .released, slotId := id, fpgmN := f } }) ∧
      (s.power.phase ≠ .held → exec (.resetNRelease id f) s = .next { s with power := { s.power with
        resetN := true, slotPins := id, fpgmPin := f } })) ∧
    (∀ id f, s.clocked = true → s.tapUp = true → s.jtag.hub.takesPins = true →
      ∃ u : State, exec (.resetNRelease id f) s = .next u ∧ u.power = { s.power with resetN := true, slotPins := id, fpgmPin := f } ∧
        u.jtag.hub.capture[145]? = some true ∧ u.jtag.hub.capture[150]? = some f ∧ Only [.power, .jtag] s u) ∧
    (∀ b : BootResult, s.clocked = true → s.power.phase = .released →
      (b.keyOk = false → ∃ u : State, exec (.pllLock b) s = .next u ∧ u.power = { s.power with phase := .stuck } ∧ u.fw = s.fw) ∧
      (b.keyOk = true →
      (s.power.fpgmN = false → ∃ u : State, exec (.pllLock b) s = .next u ∧ u.power.phase = .factory ∧ u.fw = s.fw) ∧
      (s.power.fpgmN = true → 3 ≤ b.entropyFails → ∃ u : State, exec (.pllLock b) s = .next u ∧ u.power.phase = .stuck ∧ u.fw = s.fw) ∧
      (s.power.fpgmN = true → b.entropyFails < 3 →
        let want := s.flash.probation.getD s.flash.perm
        (s.slotGood want = true → ∃ u : State, exec (.pllLock b) s = .next u ∧ u.power.phase = .booting ∧ u.fw.running = want ∧
          u.sec.hashKey = b.hashKey ∧ ∀ c, c < 48 → c ∉ b.untrained → (u.channel c).trained = true) ∧
        (s.slotGood want = false → s.slotGood (1 - want) = true → ∃ u : State, exec (.pllLock b) s = .next u ∧
          u.power.phase = .booting ∧ u.fw.running = 1 - want ∧ u.flash.fallback = some (s.slotHash want) ∧
          u.flash.probation = none) ∧
        (s.slotGood want = false → s.slotGood (1 - want) = false → ∃ u : State, exec (.pllLock b) s = .next u ∧ u.power.phase = .stuck ∧
          u.power.faultN = false)))) ∧
    (s.clocked = true → s.power.phase = .booting → s.clk.ctSwitch = true → exec .palhaniStart s = .next s) ∧
    (s.clocked = true → s.power.phase = .booting → s.clk.ctSwitch = false →
      ∃ u : State, exec .palhaniStart s = .next u ∧ u.power.phase = .started ∧ u.flash.bootCount = s.flash.bootCount + 1 ∧
        s.sec.auditSeq < u.sec.auditSeq ∧ (u.clerk.failed = s.clerk.failed → u.flash.fallback = none) ∧
        (u.clerk.failed ≠ s.clerk.failed → s.channels.any (fun c => c.2.failed) = true)) ∧
    (s.clocked = true → s.power.phase = .started →
      exec .portsEnable s = .next { s with power := { s.power with phase := .up, faultN := s.clerk.failed.isNone } })

/-- R456 with R466: a measurement is stored; while the power lies above the effective cap more staging places are
withheld, below it fewer, on every LIVE row in proportion to its presses; while any is withheld the cap binds, and its
milliseconds count. How many places a step takes or gives back is a free value, and so no clause says. R469: after 100
ms with any die sensor at 95 °C or more the effective cap has fallen by 25 W, not below 1,200 W; with every sensor
below 90 °C it has risen by 25 W, up to the cap of R456; between the two it stays (how the thermal cap stands apart from the cap of
R456: log 106; the free step: log 105). -/
def Obligations.CapsFollowPowerAndHeat : Prop :=
  (∀ (v a w : Nat) (s : State), s.clocked = true → s.awake = true →
     ∃ u : State, exec (.powerCapTick v a w) s = .next u ∧ u.power.volts = v ∧ u.power.amps = a ∧ u.power.watts = w ∧
       (let cap := 25 * min (min s.power.cap (463 * v / 25000)) s.power.thermCap
        0 < v → (cap < w → s.power.withhold < 512 → s.power.withhold < u.power.withhold) ∧
        (w < cap → 0 < s.power.withhold → u.power.withhold < s.power.withhold) ∧
        (w = cap → u.power.withhold = s.power.withhold)) ∧
       u.power.binding = decide (0 < u.power.withhold) ∧
       (0 < u.power.withhold → u.power.capMs = s.power.capMs + 1) ∧ (u.power.withhold = 0 → u.power.capMs = s.power.capMs) ∧
       (∀ r, r < Config.nRows → (u.row r).withheld =
         if (s.row r).st = .live then u.power.withhold * (s.row r).cfg.presses else 0) ∧
       Only [.free, .power, .rows] s u) ∧
  (∀ (temps : List Int) (s : State), s.clocked = true → s.awake = true → temps.length = 25 →
     ∃ u : State, exec (.thermalStep temps) s = .next u ∧ u.power.base = s.power.base ∧ Only [.power] s u ∧
       ((∃ t ∈ temps, (380 : Int) ≤ t) → 48 ≤ s.power.base → u.power.eff = max 48 (s.power.eff - 1) ∧ u.power.throttleSeen = true) ∧
       ((∀ t ∈ temps, t < (360 : Int)) → s.power.base ≤ 100 → u.power.eff = min s.power.base (s.power.eff + 1)) ∧
       ((∀ t ∈ temps, t < (380 : Int)) → (∃ t ∈ temps, (360 : Int) ≤ t) → u.power.eff = s.power.eff) ∧
       ((∃ t ∈ temps, (420 : Int) ≤ t) → u.power.overLimit = true))

/-- THERMAL_FAILURE (R470) with a sensor at 110 °C, or at 105 °C at the least cap, and a spine link to S, M or H lost
(R344) are module failures, with causes 5 and 6: FAULT_N falls, the failure is counted and MODULE_FAILED raised. A
spine link to a press retires the press: its row is ABSENT, and its node goes off, or does so once the press's engine holds
no transfer (R412, R413; log 159). -/
def Obligations.ModuleFailures : Prop :=
  ∀ s : State, s.clocked = true → s.awake = true →
    let fails := fun (c : Instr) (cause : Nat) => s.clerk.failed = none →
      ∃ u : State, exec c s = .next u ∧ u.clerk.failed = some cause ∧ u.power.faultN = false ∧
        u.clerk.moduleFailures = s.clerk.moduleFailures + 1 ∧ u.sec.auditSeq = s.sec.auditSeq + 1 ∧
        ((s.crierSrc 0).ring.length < 65536 → ∃ r, (u.crierSrc 0).ring = (s.crierSrc 0).ring ++ [r] ∧ r.event = 0x00F0 ∧
          r.arg = BitVec.ofNat 64 cause)
    ((∃ d, (440 : Int) ≤ tget 0 s.power.temps d ∨ ((420 : Int) ≤ tget 0 s.power.temps d ∧ s.power.eff ≤ 48)) →
      fails .thermalFailure 5) ∧
    (∀ die, 16 ≤ die → fails (.spineLinkFail die) 6) ∧
    (∀ die, die < 16 → (s.press die).retired = false → ∃ u : State, exec (.spineLinkFail die) s = .next u ∧
      (u.press die).retired = true ∧ (∀ r, s.pressRow die = some r → (u.row r).st = .absent) ∧
      (die ∉ u.clk.on ∨ die ∈ u.clk.offWait))

/-! ## Voxry Command Transport -/

/-- A well-formed OPEN (R263, R269): a new one takes the lowest closed session, which stands at sequence number 0 with
the host's address, version and epoch; a repeated one is answered with its session again; one that resumes a DEAD
session reopens it with its role; one that names nothing it may open, or finds no closed session, is answered refused
and counted. CLOSE (R269) frees the session of its sender: its ID is closed, one use older. ACK (R266, R267) takes the
messages that it acknowledges from the session's unacknowledged ones, and the host's window. That after a module failure an OPEN alone
is answered is log 98, and that a session's response ring has an entry back with an ACK, log 19. -/
def Obligations.OpenAndCloseSessions : Prop :=
  (∀ (x : Src) (m : VctMsg) (s : State), s.clocked = true → s.power.phase = .up → s.clerk.failed = none → m.type = 7 →
     crcOk m = true → headerClean m = true →
     let p := s.popRx x m
     let same := fun (q : Session) => q.src.addr = x.addr ∧ q.src.udp = x.udp ∧ q.epoch = m.epoch
     let j := m.session.toNat
     let answers := fun (k : Nat) (refused : Bool) (u : State) => exec (.vctOpen x m) s = .next u ∧
       Sends x.port (.ackTo x k m.epoch refused) p u ∧
       u.vct = { p.vct with bad := p.vct.bad + (if refused then 1 else 0) } ∧ Only [.nets, .sessions, .vct, .sent] s u
     let refuses := ∃ u, answers 0 true u ∧ u.sessions = s.sessions
     (msgResume m = false →
       (∀ k, (∀ e ∈ s.sessions, ¬(e.2.st = .opened ∧ same e.2)) → m.version = 6 ∨ m.version = 7 → s.openTarget m = true →
         lowest Config.nSessions (fun k => decide ((s.sess k).st = .closed)) = some k →
         ∃ u, answers k false u ∧ u.sess k = {
             st := .opened, src := x, version := m.version.toNat, epoch := m.epoch, stall := openStall m,
             window := max 1 m.window.toNat, lastRx := s.now, gen := (s.sess k).gen } ∧
           (∀ i, i ≠ k → u.sess i = s.sess i)) ∧
       (∀ e, s.sessions.find? (fun e => decide (e.2.st = .opened ∧ e.2.src.addr = x.addr ∧ e.2.src.udp = x.udp ∧
           e.2.epoch = m.epoch)) = some e → ∃ u, answers e.1 false u ∧ u.sessions = s.sessions) ∧
       ((∀ e ∈ s.sessions, ¬(e.2.st = .opened ∧ same e.2)) →
         (m.version ≠ 6 ∧ m.version ≠ 7) ∨ s.openTarget m = false ∨
           lowest Config.nSessions (fun k => decide ((s.sess k).st = .closed)) = none → refuses)) ∧
     (msgResume m = true →
       ((s.sess j).st = .dead → same (s.sess j) → m.version.toNat = (s.sess j).version →
         openStall m = (s.sess j).stall → s.openTarget m = true →
         ∃ u, answers j false u ∧ (u.sess j).st = .opened ∧ (u.sess j).role = (s.sess j).role ∧
           (u.sess j).greeted = (s.sess j).greeted ∧ (u.sess j).txNext = 0 ∧ (u.sess j).rxNext = 0 ∧ (u.sess j).tx = [] ∧
           (∀ i, i ≠ j → u.sess i = s.sess i)) ∧
       ((s.sess j).st ≠ .dead ∨ ¬same (s.sess j) ∨ s.openTarget m = false → refuses))) ∧
  (∀ (x : Src) (m : VctMsg) (s : State) (k : Nat), s.clocked = true → s.power.phase = .up → s.clerk.failed = none →
     crcOk m = true → headerClean m = true → s.sessionOf x m = some k →
     (m.type = 8 → ∃ u : State, exec (.vctClose x m) s = .next u ∧ u.sess k = { gen := (s.sess k).gen + 1 } ∧
       (∀ i, i ≠ k → u.sess i = s.sess i)) ∧
     (m.type = 2 → ∃ u : State, exec (.vctAck x m) s = .next u ∧ (u.sess k).window = max 1 m.window.toNat ∧ (u.sess k).lastRx = s.now ∧
       (u.sess k).rxNext = (s.sess k).rxNext ∧ (u.sess k).role = (s.sess k).role ∧ (∀ i, i ≠ k → u.sess i = s.sess i) ∧
       ((s.sess k).txWait = [] → (s.sess k).rspWait = [] → (∀ c, (s.sess k).nextCmd = some c → c.bad = false) → (u.sess k).tx.map (·.seq) =
         ((s.sess k).tx.map (·.seq)).filter (fun q => !below q m.ack))))

/-- COMMAND and FEED in order (R266, R270, R271), nothing held before them: the session's next number moves on and is
acknowledged; a COMMAND of a known opcode waits in the ring, which has room, and a FEED's chunks are handled one by
one. A COMMAND that meets a full ring is not delivered, and nothing is acknowledged. A COMMAND shorter than 16 bytes is answered
with opcode 0, tag 0 and ST_BAD_LENGTH (R290), one of no opcode with ST_BAD_OPCODE (R292), when its turn in the ring has come: at once
where no command waits before it; behind another it waits (log 22: the model's choice). -/
def Obligations.MessagesAreDeliveredInOrder : Prop :=
  ∀ (x : Src) (m : VctMsg) (s : State) (k : Nat), s.clocked = true → s.power.phase = .up → s.clerk.failed = none →
    crcOk m = true → headerClean m = true → s.sessionOf x m = some k → m.seq = (s.sess k).rxNext → (s.sess k).rxHeld = [] →
    let t := (s.popRx x m).takeAck k m
    let q := t.sess k
    (m.type = 0 → (s.sess k).ring.length < 16 → (q.nextCmd = none → 16 ≤ m.payload.length ∧ fld m.payload 0 1 ∈ opcodes) →
      (∀ c, q.nextCmd = some c → c.bad = false) →
      ∃ u : State, exec (.vctCommand x m) s = .next u ∧
        u.sess k = { t.sess k with rxNext := m.seq + 1, ring := (t.sess k).ring ++ [{ seq := m.seq, bytes := m.payload, life := (t.sess k).life }] } ∧
        (∀ i, i ≠ k → u.sess i = s.sess i) ∧ Sends (s.sess k).src.port (.ackMsg k (m.seq + 1) [] []) t u ∧
        Only [.nets, .sessions, .sent] t u) ∧
    (m.type = 0 → q.ring = [] → q.rspUsed < 16 → m.payload.length < 16 ∨ fld m.payload 0 1 ∉ opcodes →
      let short := m.payload.length < 16
      let d : Defer := ⟨k, m.seq, if short then 0 else BitVec.ofNat 32 (fld m.payload 4 4), if short then 0 else fld m.payload 0 1, q.gen, q.life⟩
      ∃ v : State, v.sess k = { q with rxNext := m.seq + 1, ring := [{ seq := m.seq, bytes := m.payload, life := q.life }] } ∧
        (∀ i, i ≠ k → v.sess i = s.sess i) ∧ Only [.sessions] t v ∧
        exec (.vctCommand x m) s = .next ((v.respond d (if short then .badLength else .badOpcode) 0 []).sendAck k)) ∧
    (m.type = 0 → 16 ≤ (t.sess k).ring.length → ∃ u : State, exec (.vctCommand x m) s = .next u ∧
      (u.sess k).ring = (t.sess k).ring ∧ (u.sess k).rxNext = m.seq ∧ (u.sess k).tx = (t.sess k).tx ∧
      (∀ i, i ≠ k → u.sess i = s.sess i) ∧ Only [.sessions] t u) ∧
    (∀ c cs, m.type = 1 → parseChunks (m.payload.length / 16) m.payload = some (c :: cs) →
      ∃ v, v.sess k = { t.sess k with rxNext := m.seq + 1 } ∧ (∀ i, i ≠ k → v.sess i = s.sess i) ∧ Only [.sessions] t v ∧
        exec (.vctFeed x m) s = .next ((forEach (fun s c => s.feed k c) (c :: cs) v).sendAck k))

/-- Frames (R257 to R259) on a port in operation, read from their bytes where these are given: FEC codewords count by their
outcome (Table 12.7). One with a bad FCS, or (log 144: the model's choice) of a length outside R257's, is dropped and counted. Of the
others, each counted as received, these are dropped and counted too: a fragment, one with IP options, one without the tag that the
port asks for or with one that it does not (of PFC frames too, log 144), one not for the port's MAC or IP address (log 99), PAUSE and
other types, PFC without pfc_en, and UDP to another port. Over IPv4 or IPv6, a VCT datagram that passes R261 waits in the receive buffer,
and one that fails it is counted; an ARP request for the port's address, a neighbour solicitation for it and an echo request to the
port are answered to their sender. Past three quarters of the buffer (its size: log 17) PFC for vct_pcp leaves, once (R258). A received
PFC frame sets the priorities it may, and the end of its time releases one; the frames held meanwhile leave in order once their
priority is free, under the settings they were queued with (R285); a reply waits likewise. -/
def Obligations.FramesAreReceived : Prop :=
  (∀ (p : Nat) (x : Frame) (s : State), s.clocked = true → s.power.phase = .up → (s.net p).live = true →
    let f := x.read
    let t := s.net p
    let fec := { t with fecCorr := t.fecCorr + BitVec.ofNat 48 f.fecCorr, fecUncorr := t.fecUncorr + BitVec.ofNat 48 f.fecUncorr }
    let plain := f.fcsOk = true ∧ f.lengthOk = true ∧ f.fragment = false ∧ f.options = false ∧ vlanOk t f = true
    let mine := frameForPort p f = true ∧ ipForPort t f.body = true
    let counted := { fec with rxFrames := t.rxFrames + 1 }
    let mapped := fun (a : BitVec 32) => BitVec.ofNat 128 (0xFFFF * 2 ^ 32 + a.toNat)
    let answers := fun (r : Sent) => ∃ c u : State, c.net p = counted ∧ (∀ j, j ≠ p → c.net j = s.net j) ∧ Only [.nets] s c ∧
      exec (.frameReceive p x) s = .next u ∧ Sends p r c u ∧ Only [.nets, .sent] s u
    let drops := fun (n : NetPort) => ∃ u : State, exec (.frameReceive p x) s = .next u ∧ u.net p = { n with rxDrop := t.rxDrop + 1 } ∧
      (∀ j, j ≠ p → u.net j = s.net j) ∧ Only [.nets] s u
    let datagram := fun (a : BitVec 128) (sp dp : BitVec 16) (len : Nat) (sumOk : Bool) (data : List Byte) =>
      (dp.toNat ≠ bits t.ports.toNat 15 0 → drops counted) ∧
      (dp.toNat = bits t.ports.toNat 15 0 → sumOk = false ∨ parseMsg data = none ∨ len ≠ data.length + 8 ∨
          (∃ m, parseMsg data = some m ∧ crcOk m = false) →
        ∃ u : State, exec (.frameReceive p x) s = .next u ∧ u.vct = { s.vct with badCrc := s.vct.badCrc + 1 } ∧ u.net p = counted ∧
          (∀ j, j ≠ p → u.net j = s.net j) ∧ Only [.nets, .vct] s u) ∧
      (∀ m, sumOk = true → dp.toNat = bits t.ports.toNat 15 0 → parseMsg data = some m → len = data.length + 8 → crcOk m = true →
        m.type.toNat ∈ [0, 1, 2, 7, 8] → ∃ u : State, exec (.frameReceive p x) s = .next u ∧
        u.vct.rx = s.vct.rx ++ [(⟨p, a, sp⟩, m)] ∧
        (if t.cfg.getLsbD 1 = true ∧ p ∉ s.vct.pfcSent ∧ 3 * Config.rxCapacity < 4 * u.vct.filled p then
          u.vct.pfcSent = s.vct.pfcSent ++ [p] ∧ u.sent = .pfc p (bits t.qos.toNat 2 0) true :: s.sent ∧
          u.net p = { counted with txFrames := t.txFrames + 1 }
         else u.vct.pfcSent = s.vct.pfcSent ∧ u.sent = s.sent ∧ u.net p = counted) ∧
        (∀ j, j ≠ p → u.net j = s.net j) ∧ Only [.nets, .vct, .sent] s u)
    (f.fcsOk = false ∨ f.lengthOk = false → drops fec) ∧
    (f.fcsOk = true → f.lengthOk = true → f.fragment = true ∨ f.options = true ∨ vlanOk t f = false ∨ (isPfc f.body = false ∧ ¬mine) →
      drops counted) ∧
    (plain → mine → f.body = .pause ∨ f.body = .other → drops counted) ∧
    (∀ a d sp dp len ok data, plain → mine → f.body = .udp4 a d sp dp len ok data → datagram (mapped a) sp dp len ok data) ∧
    (∀ a d sp dp len ok data, plain → mine → f.body = .udp6 a d sp dp len ok data → datagram a sp dp len ok data) ∧
    (plain → mine →
      (∀ w a, f.body = .arp w a → a = t.ipv4 → a ≠ 0 →
        answers (.reply p 0 f.src (mapped w) [])) ∧
      (∀ w a, f.body = .nd w a → a = t.ipv6 → a ≠ 0 → answers (.reply p 1 f.src w [])) ∧
      (∀ w d data, f.body = .echo4 w d data →
        answers (.reply p 2 f.src (mapped w) data)) ∧
      (∀ w d data, f.body = .echo6 w d data → answers (.reply p 3 f.src w data))) ∧
    (∀ en times, f.body = .pfc en times → plain → t.cfg.getLsbD 1 = false → drops counted) ∧
    (∀ en times, f.body = .pfc en times → plain → t.cfg.getLsbD 1 = true →
      let w := { counted with paused := pfcPaused t.paused (bits t.qos.toNat 25 18) en times }
      let go := t.held.filter (fun y => !y.waits w)
      ∃ u : State, exec (.frameReceive p x) s = .next u ∧ u.sent = go.reverse ++ s.sent ∧
        u.net p = { w with held := t.held.filter (fun y => y.waits w), txFrames := t.txFrames + BitVec.ofNat 48 go.length } ∧
        (∀ j, j ≠ p → u.net j = s.net j) ∧ Only [.nets, .sent] s u)) ∧
  (∀ (p priority : Nat) (s : State), s.clocked = true → priority < 8 → ∃ u : State, exec (.pfcPauseExpire p priority) s = .next u ∧
    (∀ i, i < 8 → (u.net p).paused.getLsbD i = ((s.net p).paused.getLsbD i && decide (i ≠ priority))) ∧
    (u.net p).held = (s.net p).held.filter (fun y => y.waits (u.net p)) ∧
    u.sent = ((s.net p).held.filter (fun y => !y.waits (u.net p))).reverse ++ s.sent ∧
    (∀ j, j ≠ p → u.net j = s.net j) ∧ Only [.nets, .sent] s u)

/-- R268 and R269. A message unacknowledged past its timeout goes again, its timeout doubled up to 64 ms; after the
eighth time its session is DEAD. A silent session is DEAD, and a DEAD one not resumed is freed. A kept snapshot or
report ends. When each row comes is the environment's (log 7), and the smoothed times are integers (log 99): the model's choices. -/
def Obligations.TimeoutsRetransmitAndClose : Prop :=
  ∀ (k : Nat) (s : State), s.clocked = true →
    let q := s.sess k
    let dead := fun (u : State) => (u.sess k).st = .dead ∧ (u.sess k).tx = [] ∧ (u.sess k).txWait = [] ∧
      (u.sess k).role = q.role ∧ (u.sess k).gen = q.gen ∧ (∀ i, i ≠ k → u.sess i = s.sess i) ∧ u.sent = s.sent
    (∀ seq m, s.power.phase = .up → s.clerk.failed = none → q.st = .opened →
      q.tx.find? (fun m => decide (m.seq = seq)) = some m → m.sacked = false →
      (m.retx < 8 → ∃ u : State, exec (.retransmissionTimeout k seq) s = .next u ∧
        u.sess k = { q with tx := q.tx.map (fun x =>
          if x.seq = seq then { x with retx := x.retx + 1, rto := min 33600000 (2 * x.rto), sentAt := s.now } else x) } ∧
        (∀ i, i ≠ k → u.sess i = s.sess i) ∧ Sends q.src.port (.vct k m.type seq m.body) s u ∧
        u.vct = { s.vct with retx := s.vct.retx + 1 } ∧ Only [.nets, .sessions, .vct, .sent] s u) ∧
      (8 ≤ m.retx → ∃ u : State, exec (.retransmissionTimeout k seq) s = .next u ∧ dead u)) ∧
    (q.st = .opened → ∃ u : State, exec (.sessionSilenceTimeout k) s = .next u ∧ dead u) ∧
    (q.st = .dead → ∃ u : State, exec (.sessionFreeTimeout k) s = .next u ∧ u.sess k = { gen := q.gen + 1 } ∧
      ∀ i, i ≠ k → u.sess i = s.sess i) ∧
    (∃ u : State, exec (.snapshotExpire k true) s = .next u ∧ u.sess k = { q with report := none } ∧ Only [.sessions] s u) ∧
    (∃ u : State, exec (.snapshotExpire k false) s = .next u ∧ u.sess k = { q with snap := none } ∧ Only [.sessions] s u)

/-- FEED_STATUS (R272): up to 64 waiting records leave in one message, oldest first. CRIER (R301): the oldest record
that a session takes leaves its ring in one message to every open session that takes it, with those behind it that go to the same
sessions, as many as follow before one that goes elsewhere, 40 at most and no more than a message to each of them holds; records that no
session takes stay. With none to send nothing happens. R302, R303: with no probe missed, and no engine that waits for a stopped domain (R424), a heartbeat is raised; a
press of a node that is on that misses its probe is retired, and none is raised. A session whose heartbeat is on and that has
not sent the latest one sends it in an ACK, with its SACK blocks (R267). The hub watchdog
makes a module failure with cause 2 (R287). -/
def Obligations.RecordsAndHeartbeatsLeave : Prop :=
  ((∀ (k : Nat) (s : State), s.clocked = true → s.clerkUp = true → (s.sess k).st = .opened →
     let now := (s.sess k).feedRecs.take (min 64 ((s.maxBody k + 16) / 16))
     now ≠ [] → ∃ u : State, exec (.feedStatus k) s = .next (u.post k 9 (now.flatMap feedRecBytes) none) ∧
       u.sess k = { s.sess k with feedRecs := (s.sess k).feedRecs.drop now.length } ∧ (∀ i, i ≠ k → u.sess i = s.sess i) ∧
       Only [.sessions] s u) ∧
   (∀ (n : Nat) (s : State), s.clocked = true → s.clerkUp = true →
     ((∀ q ∈ (s.crierSrc n).ring, s.takers q = []) → exec (.crier n) s = .next s) ∧
     (∀ (skip rs : List CrierRec) (r : CrierRec), let dest := s.takers r
       let room := (dest.map (fun k => s.maxBody k + 16)).foldl min 9216
       (s.crierSrc n).ring = skip ++ r :: rs → (∀ q ∈ skip, s.takers q = []) → dest ≠ [] → (recordBE r).length ≤ room →
       ∃ (u : State) (pre post : List CrierRec), let now := r :: pre.filter (fun q => decide (s.takers q ≠ []))
         rs = pre ++ post ∧ (∀ q ∈ now, s.takers q = dest) ∧ now.length ≤ 40 ∧ (now.flatMap recordBE).length ≤ room ∧
         (∀ q qs, post = q :: qs → s.takers q ≠ [] ∧
           (s.takers q ≠ dest ∨ now.length = 40 ∨ room < (now.flatMap recordBE).length + (recordBE q).length)) ∧
         exec (.crier n) s = .next (forEach (fun v k => v.post k 5 (now.flatMap recordBE) none) dest u) ∧
         u.crierSrc n = { s.crierSrc n with ring := skip ++ pre.filter (fun q => decide (s.takers q = [])) ++ post } ∧
         (∀ j, j ≠ n → u.crierSrc j = s.crierSrc j) ∧ Only [.criers] s u))) ∧
  (∀ s : State, s.clocked = true →
     (s.awake = true → s.clerk.failed = none →
       ((∀ e, e < Config.nEngines → s.engineWaits e = true → e < 16 ∧ ((s.press e).retired = true ∨ e ∉ s.clk.on)) →
         exec (.heartbeatRaise []) s = .next { s with clerk := { s.clerk with hb := s.clerk.hb + 1 } }) ∧
       (∀ e, e < 16 → s.engineWaits e = true → (s.press e).retired = false → e ∈ s.clk.on →
         ∃ u : State, exec (.heartbeatRaise []) s = .next u ∧ (u.press e).retired = true ∧ u.clerk.hb = s.clerk.hb) ∧
       (∀ p, (s.press p).retired = false → p ∈ s.clk.on → ∃ u : State, exec (.heartbeatRaise [.press p]) s = .next u ∧ (u.press p).retired = true ∧
         u.clerk.hb = s.clerk.hb) ∧
       (∀ c, ∃ u : State, exec (.clerkWatchdog c) s = .next u ∧ u.clerk.failed = some 2 ∧ u.power.faultN = false ∧
         u.clerk.moduleFailures = s.clerk.moduleFailures + 1 ∧ u.sec.audit = s.sec.audit)) ∧
     (∀ k, s.clerkUp = true → (s.sess k).st = .opened → 0 < (s.sess k).hbPeriod → (s.sess k).hbSent ≠ s.clerk.hb.toNat →
       ∃ u : State, exec (.heartbeatSend k) s = .next u ∧ u.sess k = { s.sess k with hbSent := s.clerk.hb.toNat } ∧
         (∀ i, i ≠ k → u.sess i = s.sess i) ∧
         Sends (s.sess k).src.port (.ackMsg k (s.sess k).rxNext (s.sess k).sackBlocks (s.heartbeatBlock k)) s u ∧
         Only [.nets, .sessions, .sent] s u))

/-! ## Boundary scan and test -/

/-- The TAP's public instructions (R485, R486, R487): while the TAP has power each is loaded, in the device it names,
with its register; EXTEST_PULSE and EXTEST_TRAIN are the retimers' and select BYPASS in the hub. Every other device
keeps what it holds. An instruction that drives the pins captures them in the cells: RESET_N, FPGM_N and PRESENT_N as they are; the
levels of the pins from outside are free values (log 110). SAMPLE/PRELOAD takes the levels that its operand gives, of FPGM_N and SLOT_ID
too (R479). An instruction that takes a retimer's lanes costs its port the link. Test-Logic-Reset selects IDCODE in all three. Where the
hub gives its pins back, RESET_N acts by its level: low, it resets the module; high, it releases a held one (R476). DBG_RD is open from
debug level 1 on, DBG_WR at level 2 (Table 19.4); below, each selects BYPASS and reads or writes nothing. What a debug address reads is
a free value, and a debug write is kept in the debug space (log 94: the model's choices). FPGM in factory programming (R480): a good
image is written to the permanent slot and answered 0x600D, any other 0x0BAD; after one that was good, another changes nothing (log 95);
outside the mode it selects BYPASS. -/
def Obligations.TestAccess : Prop :=
  ((∀ (d : ChainDev) (cells pins : List Bool) (s : State), s.clocked = true → s.tapUp = true →
     (s.power.resetN = true ↔ s.power.phase ≠ .held) →
     let x := s.jtag.dev d
     let base : List Field := [.free, .nets, .criers, .clerk, .clk, .jtag]
     let loads := fun (c : Instr) (l : List Field) (holds : State → Prop) =>
       ∃ u : State, exec c s = .next u ∧ holds u ∧ (∀ e, e ≠ d → u.jtag.dev e = s.jtag.dev e) ∧ u.jtag.debug = s.jtag.debug ∧ Only l s u
     let is := fun (y : TapDev) (u : State) => u.jtag.dev d = y
     let drives := fun (ir : TapIr) (u : State) => let y := u.jtag.dev d
       y = { x with ir := ir, update := cells, capture := y.capture } ∧ y.capture.length = cellCount d ∧
       (d = .hub → y.capture[145]? = some s.power.resetN ∧ y.capture[150]? = some s.power.fpgmPin ∧ y.capture[151]? = some false ∧
         ∀ k p, k < 156 → hubCell k = some (p, .output) ∨ hubCell k = some (p, .control) → y.capture[k]? = some (cells.getD k false))
     loads (.extest d cells) base (drives .extest) ∧
     (d ≠ .hub → loads (.extestPulse d cells) base (drives .extestPulse) ∧ loads (.extestTrain d cells) base (drives .extestTrain)) ∧
     (d = .hub → loads (.extestPulse d cells) base (is { x with ir := .bypass, dr := 0 }) ∧
       loads (.extestTrain d cells) base (is { x with ir := .bypass, dr := 0 })) ∧
     loads (.idcode d) base (is { x with ir := .idcode, dr := idOf d }) ∧
     loads (.samplePreload d pins cells) (.power :: base) (fun u =>
       u.jtag.dev d = { x with ir := .samplePreload, capture := pins, update := cells } ∧ (d ≠ .hub → u.power = s.power) ∧
       (d = .hub → u.power = { s.power with fpgmPin := pins.getD 150 true, slotPins := u.power.slotPins } ∧
         ∀ i, i < 4 → u.power.slotPins.getLsbD i = pins.getD (152 + i) false)) ∧
     loads (.highz d) base (is { x with ir := .highz, dr := 0 }) ∧ loads (.clamp d) base (is { x with ir := .clamp, dr := 0 }) ∧
     loads (.bypass d) base (is { x with ir := .bypass, dr := 0 })) ∧
   (∀ s : State, s.clocked = true → s.tapUp = true → (s.power.resetN = true ↔ s.power.phase ≠ .held) →
     ∃ u : State, exec .tapReset s = .next u ∧
     (∀ d, u.jtag.dev d = { s.jtag.dev d with ir := .idcode, dr := idOf d }) ∧ u.clk.flushes = s.clk.flushes + 1 ∧
     Only [.clk, .jtag] s u) ∧
   (∀ s : State, s.clocked = true → s.tapUp = true → ∀ c ∈ [Instr.tapReset, .bypass .hub, .idcode .hub],
     (s.power.resetN = false → s.power.phase ≠ .held → ∃ u : State, exec c s = .next u ∧ u.power.phase = .held ∧ u.streams = [] ∧
       u.rows = [] ∧ u.nets = [] ∧ u.flash.lib = s.flash.lib) ∧
     (s.power.resetN = true → s.power.phase = .held → ∃ u : State, exec c s = .next u ∧
       u.power = { s.power with phase := .released, slotId := s.power.slotPins, fpgmN := s.power.fpgmPin })) ∧
   (∀ (p : Nat) (cells : List Bool) (s : State), s.clocked = true → s.awake = true → p < 2 → (s.net p).up = true →
     s.power.resetN = true →
     let d := if p = 0 then ChainDev.retimer0 else .retimer1
     ∀ c ∈ [Instr.extest d cells, .extestPulse d cells, .extestTrain d cells, .highz d, .clamp d],
       ∃ u : State, exec c s = .next u ∧ (u.net p).up = false ∧ (u.net p).lost = true)) ∧
  ((∀ (a : BitVec 64) (v : Byte) (s : State), s.clocked = true → s.tapUp = true → (s.power.resetN = true ↔ s.power.phase ≠ .held) →
     (∀ p, s.lanesTaken p = true → (s.net p).up = false) →
     let x := s.jtag.hub
     let closed := fun (c : Instr) => exec c s = .next { s with jtag := { s.jtag with hub := { x with ir := .bypass, dr := 0 } } }
     (s.sec.debug = 0 → closed (.dbgRd a)) ∧
     (s.sec.debug ≠ 0 → exec (.dbgRd a) s = .next { s with
       jtag := { s.jtag with hub := { x with ir := .dbgRd, dr := (Config.freeWord s.free).setWidth 64 } }, free := s.free + 1 }) ∧
     (s.sec.debug < 2 → closed (.dbgWr a v)) ∧
     (2 ≤ s.sec.debug → ∃ u : State, exec (.dbgWr a v) s = .next u ∧ tget 0 u.jtag.debug a.toNat = v ∧
       (∀ b, b ≠ a.toNat → tget 0 u.jtag.debug b = tget 0 s.jtag.debug b) ∧
       u.jtag.hub = { x with ir := .dbgWr, dr := v.setWidth 64 } ∧ Only [.jtag] s u)) ∧
   (∀ (image : List Byte) (s : State), s.clocked = true → (s.power.resetN = true ↔ s.power.phase ≠ .held) →
     (∀ p, s.lanesTaken p = true → (s.net p).up = false) →
     let x := s.jtag.hub
     let good := fwGood image = true ∧ image.length ≤ fwMax
     (s.power.phase = .factory → s.power.programmed = false → good → ∃ u : State, exec (.fpgm image) s = .next u ∧
       u.jtag.hub = { x with ir := .fpgm, dr := 0x600D#64 } ∧ u.power = { s.power with programmed := true } ∧
       u.flash = { s.flash with slots := s.flash.slots.set s.flash.perm (some (fwImage image)), wear := u.flash.wear } ∧
       Only [.power, .free, .flash, .jtag] s u) ∧
     (s.power.phase = .factory → s.power.programmed = true → exec (.fpgm image) s = .next { s with
       jtag := { s.jtag with hub := { x with ir := .fpgm, dr := 0x600D#64 } } }) ∧
     (s.power.phase = .factory → s.power.programmed = false → ¬good → exec (.fpgm image) s = .next { s with
       jtag := { s.jtag with hub := { x with ir := .fpgm, dr := 0x0BAD#64 } } }) ∧
     (s.power.phase ≠ .factory → s.tapUp = true → exec (.fpgm image) s = .next { s with
       jtag := { s.jtag with hub := { x with ir := .bypass, dr := 0 } } })))

end Statements
end

