-- ==== Sys2Proof/Laws/Tables.lean ====
section
/-! SUPPORT. Laws of the sparse tables and of memory: a read gives what was last written there, a write leaves every
other place alone, and every operation keeps the canonical form. -/

namespace Sys2Proof.Machine
set_option Elab.async false

/-! ## Reading after writing -/

theorem tget_tput {α : Type} (d : α) (t : Tbl α) (k j : Nat) (v : α) :
    tget d (tput t k v) j = if j = k then v else tget d t j := by
  induction t with
  | nil => simp [tput, tget, eq_comm]
  | cons p t ih =>
    obtain ⟨i, a⟩ := p
    simp only [tput]
    split
    · by_cases h : j = k
      · simp [tget, h]
      · simp [tget, h, Ne.symm h]
    · split
      · subst_vars; by_cases h : j = i <;> simp [tget, h, eq_comm]
      · by_cases h : i = j
        · subst h; simp only [tget, if_true]; split <;> simp_all
        · simp [tget, h, ih]

theorem tget_filter {α : Type} (d : α) (p : Nat → Bool) (t : Tbl α) (j : Nat) :
    tget d (t.filter (fun e => p e.1)) j = if p j then tget d t j else d := by
  induction t with
  | nil => simp [tget]
  | cons e t ih =>
    obtain ⟨i, a⟩ := e
    by_cases hp : p i
    · by_cases h : i = j
      · subst h; simp [tget, hp]
      · simp [tget, hp, h, ih]
    · by_cases h : i = j
      · subst h; simp [hp, ih]
      · simp [tget, hp, h, ih]

theorem tget_tdel {α : Type} (d : α) (t : Tbl α) (k j : Nat) :
    tget d (tdel t k) j = if j = k then d else tget d t j := by
  have h := tget_filter d (fun i => decide (i ≠ k)) t j
  simp only [tdel]
  rw [h]
  by_cases hj : j = k <;> simp [hj]

/-- What a table reads after one entry is written. -/
@[simp] theorem tget_tset {α : Type} [DecidableEq α] (d : α) (t : Tbl α) (k j : Nat) (v : α) :
    tget d (tset d t k v) j = if j = k then v else tget d t j := by
  unfold tset
  split
  · subst_vars; exact tget_tdel _ t k j
  · exact tget_tput d t k j v

@[simp] theorem tget_nil {α : Type} (d : α) (k : Nat) : tget d ([] : Tbl α) k = d := rfl

/-! ## The canonical form -/

theorem twf_iff {α : Type} [DecidableEq α] (d : α) (t : Tbl α) :
    twf d t = true ↔ (t.map Prod.fst).Pairwise (· < ·) ∧ ∀ e ∈ t, e.2 ≠ d := by
  simp [twf]

theorem twf_nil {α : Type} [DecidableEq α] (d : α) : twf d ([] : Tbl α) = true := by simp [twf]

theorem twf_filter {α : Type} [DecidableEq α] (d : α) (p : Nat × α → Bool) (t : Tbl α) (h : twf d t = true) :
    twf d (t.filter p) = true := by
  rw [twf_iff] at h ⊢
  refine ⟨h.1.sublist (List.filter_sublist.map _), fun e he => h.2 e ?_⟩
  exact (List.mem_filter.mp he).1

theorem tput_keys {α : Type} (t : Tbl α) (k : Nat) (v : α) (e : Nat × α) (h : e ∈ tput t k v) : e = (k, v) ∨ e ∈ t := by
  induction t with
  | nil => simpa [tput] using h
  | cons p t ih =>
    obtain ⟨i, a⟩ := p
    simp only [tput] at h
    split at h
    · simpa using h
    · split at h
      · rcases List.mem_cons.mp h with h | h
        · exact .inl h
        · exact .inr (List.mem_cons_of_mem _ h)
      · rcases List.mem_cons.mp h with h | h
        · exact .inr (h ▸ List.mem_cons_self)
        · exact (ih h).imp id (List.mem_cons_of_mem _)

theorem tput_rising {α : Type} (t : Tbl α) (k : Nat) (v : α) (h : (t.map Prod.fst).Pairwise (· < ·)) :
    ((tput t k v).map Prod.fst).Pairwise (· < ·) := by
  induction t with
  | nil => simp [tput]
  | cons p t ih =>
    obtain ⟨i, a⟩ := p
    simp only [List.map_cons, List.pairwise_cons] at h
    simp only [tput]
    split
    · rename_i hk
      simp only [List.map_cons, List.pairwise_cons, List.mem_cons]
      exact ⟨fun x hx => hx.elim (fun e => e ▸ hk) (fun e => Nat.lt_trans hk (h.1 x e)), h⟩
    · split
      · subst_vars; simpa using h
      · simp only [List.map_cons, List.pairwise_cons]
        refine ⟨fun x hx => ?_, ih h.2⟩
        obtain ⟨e, he, rfl⟩ := List.mem_map.mp hx
        rcases tput_keys t k v e he with rfl | he
        · simp only; omega
        · exact h.1 _ (List.mem_map_of_mem he)

/-- Writing one entry keeps a table's canonical form. -/
theorem twf_tset {α : Type} [DecidableEq α] (d : α) (t : Tbl α) (k : Nat) (v : α) (h : twf d t = true) :
    twf d (tset d t k v) = true := by
  unfold tset
  split
  · exact twf_filter d _ t h
  · rename_i hv
    rw [twf_iff] at h ⊢
    exact ⟨tput_rising t k v h.1, fun e he => (tput_keys t k v e he).elim (fun x => x ▸ hv) (h.2 e)⟩

/-! ## Memory -/

/-- What a byte reads after one byte is written. -/
@[simp] theorem mget_mset (m : List Host.Cell) (a b : Nat) (v : Byte) :
    mget (mset m a v) b = if b = a then v else mget m b := tget_tset ..

@[simp] theorem wf_mset (m : List Host.Cell) (a : Nat) (v : Byte) (h : Memory.wf m = true) :
    Memory.wf (mset m a v) = true := twf_tset _ m a v h

@[simp] theorem wf_filter (m : List Host.Cell) (p : Host.Cell → Bool) (h : Memory.wf m = true) :
    Memory.wf (m.filter p) = true := twf_filter _ p m h

@[simp] theorem wf_nil : Memory.wf [] = true := by simp [Memory.wf, twf]

@[simp] theorem wf_mwrite (m : List Host.Cell) (a : Nat) (l : List Byte) (h : Memory.wf m = true) :
    Memory.wf (mwrite m a l) = true := by
  induction l generalizing m a with
  | nil => exact h
  | cons b l ih => exact ih _ _ (wf_mset m a b h)

@[simp] theorem wf_mclear (m : List Host.Cell) (a n : Nat) (h : Memory.wf m = true) :
    Memory.wf (mclear m a n) = true := wf_filter m _ h

/-- Changing memory step by step, each step keeping the canonical form. -/
theorem wf_foldl {α : Type} (f : List Host.Cell → α → List Host.Cell)
    (hf : ∀ m a, Memory.wf m = true → Memory.wf (f m a) = true) (l : List α) (m : List Host.Cell) (h : Memory.wf m = true) :
    Memory.wf (l.foldl f m) = true := by
  induction l generalizing m with
  | nil => exact h
  | cons a l ih => exact ih _ (hf m a h)

/-- Copying cells one by one keeps the canonical form. -/
theorem wf_foldl_mset (cells : List Host.Cell) (f : Host.Cell → Nat) (m : List Host.Cell) (h : Memory.wf m = true) :
    Memory.wf (cells.foldl (fun acc c => mset acc (f c) c.2) m) = true := by
  induction cells generalizing m with
  | nil => exact h
  | cons c l ih => exact ih _ (wf_mset m _ _ h)

@[simp] theorem wf_mcopy (m : List Host.Cell) (src dst n : Nat) (h : Memory.wf m = true) :
    Memory.wf (mcopy m src dst n) = true :=
  wf_foldl_mset _ (fun c => c.1 - src + dst) _ (wf_mclear m dst n h)

/-- What a byte reads after bytes are written from `a` on. -/
theorem mget_mwrite (m : List Host.Cell) (a b : Nat) (l : List Byte) :
    mget (mwrite m a l) b = if a ≤ b ∧ b < a + l.length then l.getD (b - a) 0 else mget m b := by
  induction l generalizing m a with
  | nil => rw [if_neg (by simp only [List.length_nil]; omega)]; rfl
  | cons v l ih =>
    simp only [mwrite, ih, mget_mset, List.length_cons]
    by_cases h : b = a
    · subst h; rw [if_neg (by omega), if_pos rfl, if_pos (by omega)]; simp
    · rw [if_neg h]
      by_cases h1 : a + 1 ≤ b ∧ b < a + 1 + l.length
      · obtain ⟨k, hk⟩ : ∃ k, b - a = k + 1 := ⟨b - a - 1, by omega⟩
        have hb : b - (a + 1) = k := by omega
        rw [if_pos h1, if_pos (by omega), hk, hb]; simp
      · rw [if_neg h1, if_neg (by omega)]

/-- What a byte reads after a range is set to the default. -/
theorem mget_mclear (m : List Host.Cell) (a n b : Nat) :
    mget (mclear m a n) b = if a ≤ b ∧ b < a + n then memDefault else mget m b := by
  have h := tget_filter memDefault (fun i => decide (¬ (a ≤ i ∧ i < a + n))) m b
  unfold mget mclear
  rw [h]
  by_cases hb : a ≤ b ∧ b < a + n <;> simp [hb]

/-- A read of `n` bytes gives `n` bytes. -/
@[simp] theorem mread_length (m : List Host.Cell) (a n : Nat) : (mread m a n).length = n := by simp [mread]

/-! ## Bytes -/

@[simp] theorem beBytes_length (n v : Nat) : (beBytes n v).length = n := by
  induction n <;> simp_all [beBytes]

@[simp] theorem leBytes_length (n v : Nat) : (leBytes n v).length = n := by
  induction n generalizing v <;> simp_all [leBytes]

end Sys2Proof.Machine
end

