-- ==== Sys2Proof/Laws/State.lean ====
section
/-! SUPPORT. One lemma per field and per table of the state for each update of the state: what an update writes reads
back, and everything else reads as before. -/

namespace Sys2Proof.Machine
set_option Elab.async false

variable (s : State)

@[simp] theorem State.modStream_eq (k : Nat) (f : Stream → Stream) : s.modStream k f = s.putStream k (f (s.stream k)) := rfl
@[simp] theorem State.modEgr_eq (k : Nat) (f : Egress → Egress) : s.modEgr k f = s.putEgr k (f (s.egr k)) := rfl
@[simp] theorem State.modJournal_eq (k : Nat) (f : Journal → Journal) : s.modJournal k f = s.putJournal k (f (s.journal k)) := rfl
@[simp] theorem State.modStall_eq (k : Nat) (f : Stall → Stall) : s.modStall k f = s.putStall k (f (s.stall k)) := rfl
@[simp] theorem State.modVoice_eq (k : Nat) (f : Voice → Voice) : s.modVoice k f = s.putVoice k (f (s.voice k)) := rfl
@[simp] theorem State.modBase_eq (k : Nat) (f : Base → Base) : s.modBase k f = s.putBase k (f (s.base k)) := rfl
@[simp] theorem State.modRow_eq (k : Nat) (f : Row → Row) : s.modRow k f = s.putRow k (f (s.row k)) := rfl
@[simp] theorem State.modPress_eq (k : Nat) (f : Press → Press) : s.modPress k f = s.putPress k (f (s.press k)) := rfl
@[simp] theorem State.modStage_eq (k : Nat) (f : Stage → Stage) : s.modStage k f = s.putStage k (f (s.stage k)) := rfl
@[simp] theorem State.modRecUnit_eq (k : Nat) (f : RecUnit → RecUnit) : s.modRecUnit k f = s.putRecUnit k (f (s.recUnit k)) := rfl
@[simp] theorem State.modEngine_eq (k : Nat) (f : Engine → Engine) : s.modEngine k f = s.putEngine k (f (s.engine k)) := rfl
@[simp] theorem State.modChannel_eq (k : Nat) (f : Channel → Channel) : s.modChannel k f = s.putChannel k (f (s.channel k)) := rfl
@[simp] theorem State.modDie_eq (k : Nat) (f : Die → Die) : s.modDie k f = s.putDie k (f (s.die k)) := rfl
@[simp] theorem State.modNet_eq (k : Nat) (f : NetPort → NetPort) : s.modNet k f = s.putNet k (f (s.net k)) := rfl
@[simp] theorem State.modSess_eq (k : Nat) (f : Session → Session) : s.modSess k f = s.putSess k (f (s.sess k)) := rfl
@[simp] theorem State.modCrierSrc_eq (k : Nat) (f : CrierSrc → CrierSrc) : s.modCrierSrc k f = s.putCrierSrc k (f (s.crierSrc k)) := rfl
@[simp] theorem State.modImg_eq (k : Nat) (f : ExportImg → ExportImg) : s.modImg k f = s.putImg k (f (s.img k)) := rfl
@[simp] theorem State.modSap_eq (k : Nat) (f : Sap → Sap) : s.modSap k f = s.putSap k (f (s.sap k)) := rfl
@[simp] theorem State.modPark_eq (k : Nat) (f : Park → Park) : s.modPark k f = s.putPark k (f (s.park k)) := rfl
@[simp] theorem State.modLib_eq (k : Nat) (f : LibEntry → LibEntry) : s.modLib k f = s.putLib k (f (s.lib k)) := rfl
@[simp] theorem State.modFlashCh_eq (k : Nat) (f : FlashCh → FlashCh) : s.modFlashCh k f = s.putFlashCh k (f (s.flashCh k)) := rfl

/-! ## putStream -/

@[simp] theorem State.putStream_pending (k : Nat) (v : Stream) : (s.putStream k v).pending = s.pending := rfl
@[simp] theorem State.putStream_now (k : Nat) (v : Stream) : (s.putStream k v).now = s.now := rfl
@[simp] theorem State.putStream_stamp (k : Nat) (v : Stream) : (s.putStream k v).stamp = s.stamp := rfl
@[simp] theorem State.putStream_free (k : Nat) (v : Stream) : (s.putStream k v).free = s.free := rfl
@[simp] theorem State.putStream_power (k : Nat) (v : Stream) : (s.putStream k v).power = s.power := rfl
@[simp] theorem State.putStream_egress (k : Nat) (v : Stream) : (s.putStream k v).egress = s.egress := rfl
@[simp] theorem State.putStream_journals (k : Nat) (v : Stream) : (s.putStream k v).journals = s.journals := rfl
@[simp] theorem State.putStream_stalls (k : Nat) (v : Stream) : (s.putStream k v).stalls = s.stalls := rfl
@[simp] theorem State.putStream_voices (k : Nat) (v : Stream) : (s.putStream k v).voices = s.voices := rfl
@[simp] theorem State.putStream_bases (k : Nat) (v : Stream) : (s.putStream k v).bases = s.bases := rfl
@[simp] theorem State.putStream_rows (k : Nat) (v : Stream) : (s.putStream k v).rows = s.rows := rfl
@[simp] theorem State.putStream_presses (k : Nat) (v : Stream) : (s.putStream k v).presses = s.presses := rfl
@[simp] theorem State.putStream_stages (k : Nat) (v : Stream) : (s.putStream k v).stages = s.stages := rfl
@[simp] theorem State.putStream_rings (k : Nat) (v : Stream) : (s.putStream k v).rings = s.rings := rfl
@[simp] theorem State.putStream_recUnits (k : Nat) (v : Stream) : (s.putStream k v).recUnits = s.recUnits := rfl
@[simp] theorem State.putStream_engines (k : Nat) (v : Stream) : (s.putStream k v).engines = s.engines := rfl
@[simp] theorem State.putStream_channels (k : Nat) (v : Stream) : (s.putStream k v).channels = s.channels := rfl
@[simp] theorem State.putStream_dies (k : Nat) (v : Stream) : (s.putStream k v).dies = s.dies := rfl
@[simp] theorem State.putStream_mem (k : Nat) (v : Stream) : (s.putStream k v).mem = s.mem := rfl
@[simp] theorem State.putStream_heldMoves (k : Nat) (v : Stream) : (s.putStream k v).heldMoves = s.heldMoves := rfl
@[simp] theorem State.putStream_nets (k : Nat) (v : Stream) : (s.putStream k v).nets = s.nets := rfl
@[simp] theorem State.putStream_sessions (k : Nat) (v : Stream) : (s.putStream k v).sessions = s.sessions := rfl
@[simp] theorem State.putStream_vct (k : Nat) (v : Stream) : (s.putStream k v).vct = s.vct := rfl
@[simp] theorem State.putStream_criers (k : Nat) (v : Stream) : (s.putStream k v).criers = s.criers := rfl
@[simp] theorem State.putStream_clerk (k : Nat) (v : Stream) : (s.putStream k v).clerk = s.clerk := rfl
@[simp] theorem State.putStream_exports (k : Nat) (v : Stream) : (s.putStream k v).exports = s.exports := rfl
@[simp] theorem State.putStream_flash (k : Nat) (v : Stream) : (s.putStream k v).flash = s.flash := rfl
@[simp] theorem State.putStream_fw (k : Nat) (v : Stream) : (s.putStream k v).fw = s.fw := rfl
@[simp] theorem State.putStream_sec (k : Nat) (v : Stream) : (s.putStream k v).sec = s.sec := rfl
@[simp] theorem State.putStream_saps (k : Nat) (v : Stream) : (s.putStream k v).saps = s.saps := rfl
@[simp] theorem State.putStream_clk (k : Nat) (v : Stream) : (s.putStream k v).clk = s.clk := rfl
@[simp] theorem State.putStream_jtag (k : Nat) (v : Stream) : (s.putStream k v).jtag = s.jtag := rfl
@[simp] theorem State.putStream_sent (k : Nat) (v : Stream) : (s.putStream k v).sent = s.sent := rfl
@[simp] theorem State.putStream_stream (k : Nat) (v : Stream) (j : Nat) : (s.putStream k v).stream j = if j = k then v else s.stream j :=
  tget_tset ..
@[simp] theorem State.putStream_egr (k : Nat) (v : Stream) (j : Nat) : (s.putStream k v).egr j = s.egr j := rfl
@[simp] theorem State.putStream_journal (k : Nat) (v : Stream) (j : Nat) : (s.putStream k v).journal j = s.journal j := rfl
@[simp] theorem State.putStream_stall (k : Nat) (v : Stream) (j : Nat) : (s.putStream k v).stall j = s.stall j := rfl
@[simp] theorem State.putStream_voice (k : Nat) (v : Stream) (j : Nat) : (s.putStream k v).voice j = s.voice j := rfl
@[simp] theorem State.putStream_base (k : Nat) (v : Stream) (j : Nat) : (s.putStream k v).base j = s.base j := rfl
@[simp] theorem State.putStream_row (k : Nat) (v : Stream) (j : Nat) : (s.putStream k v).row j = s.row j := rfl
@[simp] theorem State.putStream_press (k : Nat) (v : Stream) (j : Nat) : (s.putStream k v).press j = s.press j := rfl
@[simp] theorem State.putStream_stage (k : Nat) (v : Stream) (j : Nat) : (s.putStream k v).stage j = s.stage j := rfl
@[simp] theorem State.putStream_recUnit (k : Nat) (v : Stream) (j : Nat) : (s.putStream k v).recUnit j = s.recUnit j := rfl
@[simp] theorem State.putStream_engine (k : Nat) (v : Stream) (j : Nat) : (s.putStream k v).engine j = s.engine j := rfl
@[simp] theorem State.putStream_channel (k : Nat) (v : Stream) (j : Nat) : (s.putStream k v).channel j = s.channel j := rfl
@[simp] theorem State.putStream_die (k : Nat) (v : Stream) (j : Nat) : (s.putStream k v).die j = s.die j := rfl
@[simp] theorem State.putStream_net (k : Nat) (v : Stream) (j : Nat) : (s.putStream k v).net j = s.net j := rfl
@[simp] theorem State.putStream_sess (k : Nat) (v : Stream) (j : Nat) : (s.putStream k v).sess j = s.sess j := rfl
@[simp] theorem State.putStream_crierSrc (k : Nat) (v : Stream) (j : Nat) : (s.putStream k v).crierSrc j = s.crierSrc j := rfl
@[simp] theorem State.putStream_img (k : Nat) (v : Stream) (j : Nat) : (s.putStream k v).img j = s.img j := rfl
@[simp] theorem State.putStream_sap (k : Nat) (v : Stream) (j : Nat) : (s.putStream k v).sap j = s.sap j := rfl
@[simp] theorem State.putStream_park (k : Nat) (v : Stream) (j : Nat) : (s.putStream k v).park j = s.park j := rfl
@[simp] theorem State.putStream_lib (k : Nat) (v : Stream) (j : Nat) : (s.putStream k v).lib j = s.lib j := rfl
@[simp] theorem State.putStream_flashCh (k : Nat) (v : Stream) (j : Nat) : (s.putStream k v).flashCh j = s.flashCh j := rfl

/-! ## putEgr -/

@[simp] theorem State.putEgr_pending (k : Nat) (v : Egress) : (s.putEgr k v).pending = s.pending := rfl
@[simp] theorem State.putEgr_now (k : Nat) (v : Egress) : (s.putEgr k v).now = s.now := rfl
@[simp] theorem State.putEgr_stamp (k : Nat) (v : Egress) : (s.putEgr k v).stamp = s.stamp := rfl
@[simp] theorem State.putEgr_free (k : Nat) (v : Egress) : (s.putEgr k v).free = s.free := rfl
@[simp] theorem State.putEgr_power (k : Nat) (v : Egress) : (s.putEgr k v).power = s.power := rfl
@[simp] theorem State.putEgr_streams (k : Nat) (v : Egress) : (s.putEgr k v).streams = s.streams := rfl
@[simp] theorem State.putEgr_journals (k : Nat) (v : Egress) : (s.putEgr k v).journals = s.journals := rfl
@[simp] theorem State.putEgr_stalls (k : Nat) (v : Egress) : (s.putEgr k v).stalls = s.stalls := rfl
@[simp] theorem State.putEgr_voices (k : Nat) (v : Egress) : (s.putEgr k v).voices = s.voices := rfl
@[simp] theorem State.putEgr_bases (k : Nat) (v : Egress) : (s.putEgr k v).bases = s.bases := rfl
@[simp] theorem State.putEgr_rows (k : Nat) (v : Egress) : (s.putEgr k v).rows = s.rows := rfl
@[simp] theorem State.putEgr_presses (k : Nat) (v : Egress) : (s.putEgr k v).presses = s.presses := rfl
@[simp] theorem State.putEgr_stages (k : Nat) (v : Egress) : (s.putEgr k v).stages = s.stages := rfl
@[simp] theorem State.putEgr_rings (k : Nat) (v : Egress) : (s.putEgr k v).rings = s.rings := rfl
@[simp] theorem State.putEgr_recUnits (k : Nat) (v : Egress) : (s.putEgr k v).recUnits = s.recUnits := rfl
@[simp] theorem State.putEgr_engines (k : Nat) (v : Egress) : (s.putEgr k v).engines = s.engines := rfl
@[simp] theorem State.putEgr_channels (k : Nat) (v : Egress) : (s.putEgr k v).channels = s.channels := rfl
@[simp] theorem State.putEgr_dies (k : Nat) (v : Egress) : (s.putEgr k v).dies = s.dies := rfl
@[simp] theorem State.putEgr_mem (k : Nat) (v : Egress) : (s.putEgr k v).mem = s.mem := rfl
@[simp] theorem State.putEgr_heldMoves (k : Nat) (v : Egress) : (s.putEgr k v).heldMoves = s.heldMoves := rfl
@[simp] theorem State.putEgr_nets (k : Nat) (v : Egress) : (s.putEgr k v).nets = s.nets := rfl
@[simp] theorem State.putEgr_sessions (k : Nat) (v : Egress) : (s.putEgr k v).sessions = s.sessions := rfl
@[simp] theorem State.putEgr_vct (k : Nat) (v : Egress) : (s.putEgr k v).vct = s.vct := rfl
@[simp] theorem State.putEgr_criers (k : Nat) (v : Egress) : (s.putEgr k v).criers = s.criers := rfl
@[simp] theorem State.putEgr_clerk (k : Nat) (v : Egress) : (s.putEgr k v).clerk = s.clerk := rfl
@[simp] theorem State.putEgr_exports (k : Nat) (v : Egress) : (s.putEgr k v).exports = s.exports := rfl
@[simp] theorem State.putEgr_flash (k : Nat) (v : Egress) : (s.putEgr k v).flash = s.flash := rfl
@[simp] theorem State.putEgr_fw (k : Nat) (v : Egress) : (s.putEgr k v).fw = s.fw := rfl
@[simp] theorem State.putEgr_sec (k : Nat) (v : Egress) : (s.putEgr k v).sec = s.sec := rfl
@[simp] theorem State.putEgr_saps (k : Nat) (v : Egress) : (s.putEgr k v).saps = s.saps := rfl
@[simp] theorem State.putEgr_clk (k : Nat) (v : Egress) : (s.putEgr k v).clk = s.clk := rfl
@[simp] theorem State.putEgr_jtag (k : Nat) (v : Egress) : (s.putEgr k v).jtag = s.jtag := rfl
@[simp] theorem State.putEgr_sent (k : Nat) (v : Egress) : (s.putEgr k v).sent = s.sent := rfl
@[simp] theorem State.putEgr_stream (k : Nat) (v : Egress) (j : Nat) : (s.putEgr k v).stream j = s.stream j := rfl
@[simp] theorem State.putEgr_egr (k : Nat) (v : Egress) (j : Nat) : (s.putEgr k v).egr j = if j = k then v else s.egr j :=
  tget_tset ..
@[simp] theorem State.putEgr_journal (k : Nat) (v : Egress) (j : Nat) : (s.putEgr k v).journal j = s.journal j := rfl
@[simp] theorem State.putEgr_stall (k : Nat) (v : Egress) (j : Nat) : (s.putEgr k v).stall j = s.stall j := rfl
@[simp] theorem State.putEgr_voice (k : Nat) (v : Egress) (j : Nat) : (s.putEgr k v).voice j = s.voice j := rfl
@[simp] theorem State.putEgr_base (k : Nat) (v : Egress) (j : Nat) : (s.putEgr k v).base j = s.base j := rfl
@[simp] theorem State.putEgr_row (k : Nat) (v : Egress) (j : Nat) : (s.putEgr k v).row j = s.row j := rfl
@[simp] theorem State.putEgr_press (k : Nat) (v : Egress) (j : Nat) : (s.putEgr k v).press j = s.press j := rfl
@[simp] theorem State.putEgr_stage (k : Nat) (v : Egress) (j : Nat) : (s.putEgr k v).stage j = s.stage j := rfl
@[simp] theorem State.putEgr_recUnit (k : Nat) (v : Egress) (j : Nat) : (s.putEgr k v).recUnit j = s.recUnit j := rfl
@[simp] theorem State.putEgr_engine (k : Nat) (v : Egress) (j : Nat) : (s.putEgr k v).engine j = s.engine j := rfl
@[simp] theorem State.putEgr_channel (k : Nat) (v : Egress) (j : Nat) : (s.putEgr k v).channel j = s.channel j := rfl
@[simp] theorem State.putEgr_die (k : Nat) (v : Egress) (j : Nat) : (s.putEgr k v).die j = s.die j := rfl
@[simp] theorem State.putEgr_net (k : Nat) (v : Egress) (j : Nat) : (s.putEgr k v).net j = s.net j := rfl
@[simp] theorem State.putEgr_sess (k : Nat) (v : Egress) (j : Nat) : (s.putEgr k v).sess j = s.sess j := rfl
@[simp] theorem State.putEgr_crierSrc (k : Nat) (v : Egress) (j : Nat) : (s.putEgr k v).crierSrc j = s.crierSrc j := rfl
@[simp] theorem State.putEgr_img (k : Nat) (v : Egress) (j : Nat) : (s.putEgr k v).img j = s.img j := rfl
@[simp] theorem State.putEgr_sap (k : Nat) (v : Egress) (j : Nat) : (s.putEgr k v).sap j = s.sap j := rfl
@[simp] theorem State.putEgr_park (k : Nat) (v : Egress) (j : Nat) : (s.putEgr k v).park j = s.park j := rfl
@[simp] theorem State.putEgr_lib (k : Nat) (v : Egress) (j : Nat) : (s.putEgr k v).lib j = s.lib j := rfl
@[simp] theorem State.putEgr_flashCh (k : Nat) (v : Egress) (j : Nat) : (s.putEgr k v).flashCh j = s.flashCh j := rfl

/-! ## putJournal -/

@[simp] theorem State.putJournal_pending (k : Nat) (v : Journal) : (s.putJournal k v).pending = s.pending := rfl
@[simp] theorem State.putJournal_now (k : Nat) (v : Journal) : (s.putJournal k v).now = s.now := rfl
@[simp] theorem State.putJournal_stamp (k : Nat) (v : Journal) : (s.putJournal k v).stamp = s.stamp := rfl
@[simp] theorem State.putJournal_free (k : Nat) (v : Journal) : (s.putJournal k v).free = s.free := rfl
@[simp] theorem State.putJournal_power (k : Nat) (v : Journal) : (s.putJournal k v).power = s.power := rfl
@[simp] theorem State.putJournal_streams (k : Nat) (v : Journal) : (s.putJournal k v).streams = s.streams := rfl
@[simp] theorem State.putJournal_egress (k : Nat) (v : Journal) : (s.putJournal k v).egress = s.egress := rfl
@[simp] theorem State.putJournal_stalls (k : Nat) (v : Journal) : (s.putJournal k v).stalls = s.stalls := rfl
@[simp] theorem State.putJournal_voices (k : Nat) (v : Journal) : (s.putJournal k v).voices = s.voices := rfl
@[simp] theorem State.putJournal_bases (k : Nat) (v : Journal) : (s.putJournal k v).bases = s.bases := rfl
@[simp] theorem State.putJournal_rows (k : Nat) (v : Journal) : (s.putJournal k v).rows = s.rows := rfl
@[simp] theorem State.putJournal_presses (k : Nat) (v : Journal) : (s.putJournal k v).presses = s.presses := rfl
@[simp] theorem State.putJournal_stages (k : Nat) (v : Journal) : (s.putJournal k v).stages = s.stages := rfl
@[simp] theorem State.putJournal_rings (k : Nat) (v : Journal) : (s.putJournal k v).rings = s.rings := rfl
@[simp] theorem State.putJournal_recUnits (k : Nat) (v : Journal) : (s.putJournal k v).recUnits = s.recUnits := rfl
@[simp] theorem State.putJournal_engines (k : Nat) (v : Journal) : (s.putJournal k v).engines = s.engines := rfl
@[simp] theorem State.putJournal_channels (k : Nat) (v : Journal) : (s.putJournal k v).channels = s.channels := rfl
@[simp] theorem State.putJournal_dies (k : Nat) (v : Journal) : (s.putJournal k v).dies = s.dies := rfl
@[simp] theorem State.putJournal_mem (k : Nat) (v : Journal) : (s.putJournal k v).mem = s.mem := rfl
@[simp] theorem State.putJournal_heldMoves (k : Nat) (v : Journal) : (s.putJournal k v).heldMoves = s.heldMoves := rfl
@[simp] theorem State.putJournal_nets (k : Nat) (v : Journal) : (s.putJournal k v).nets = s.nets := rfl
@[simp] theorem State.putJournal_sessions (k : Nat) (v : Journal) : (s.putJournal k v).sessions = s.sessions := rfl
@[simp] theorem State.putJournal_vct (k : Nat) (v : Journal) : (s.putJournal k v).vct = s.vct := rfl
@[simp] theorem State.putJournal_criers (k : Nat) (v : Journal) : (s.putJournal k v).criers = s.criers := rfl
@[simp] theorem State.putJournal_clerk (k : Nat) (v : Journal) : (s.putJournal k v).clerk = s.clerk := rfl
@[simp] theorem State.putJournal_exports (k : Nat) (v : Journal) : (s.putJournal k v).exports = s.exports := rfl
@[simp] theorem State.putJournal_flash (k : Nat) (v : Journal) : (s.putJournal k v).flash = s.flash := rfl
@[simp] theorem State.putJournal_fw (k : Nat) (v : Journal) : (s.putJournal k v).fw = s.fw := rfl
@[simp] theorem State.putJournal_sec (k : Nat) (v : Journal) : (s.putJournal k v).sec = s.sec := rfl
@[simp] theorem State.putJournal_saps (k : Nat) (v : Journal) : (s.putJournal k v).saps = s.saps := rfl
@[simp] theorem State.putJournal_clk (k : Nat) (v : Journal) : (s.putJournal k v).clk = s.clk := rfl
@[simp] theorem State.putJournal_jtag (k : Nat) (v : Journal) : (s.putJournal k v).jtag = s.jtag := rfl
@[simp] theorem State.putJournal_sent (k : Nat) (v : Journal) : (s.putJournal k v).sent = s.sent := rfl
@[simp] theorem State.putJournal_stream (k : Nat) (v : Journal) (j : Nat) : (s.putJournal k v).stream j = s.stream j := rfl
@[simp] theorem State.putJournal_egr (k : Nat) (v : Journal) (j : Nat) : (s.putJournal k v).egr j = s.egr j := rfl
@[simp] theorem State.putJournal_journal (k : Nat) (v : Journal) (j : Nat) : (s.putJournal k v).journal j = if j = k then v else s.journal j :=
  tget_tset ..
@[simp] theorem State.putJournal_stall (k : Nat) (v : Journal) (j : Nat) : (s.putJournal k v).stall j = s.stall j := rfl
@[simp] theorem State.putJournal_voice (k : Nat) (v : Journal) (j : Nat) : (s.putJournal k v).voice j = s.voice j := rfl
@[simp] theorem State.putJournal_base (k : Nat) (v : Journal) (j : Nat) : (s.putJournal k v).base j = s.base j := rfl
@[simp] theorem State.putJournal_row (k : Nat) (v : Journal) (j : Nat) : (s.putJournal k v).row j = s.row j := rfl
@[simp] theorem State.putJournal_press (k : Nat) (v : Journal) (j : Nat) : (s.putJournal k v).press j = s.press j := rfl
@[simp] theorem State.putJournal_stage (k : Nat) (v : Journal) (j : Nat) : (s.putJournal k v).stage j = s.stage j := rfl
@[simp] theorem State.putJournal_recUnit (k : Nat) (v : Journal) (j : Nat) : (s.putJournal k v).recUnit j = s.recUnit j := rfl
@[simp] theorem State.putJournal_engine (k : Nat) (v : Journal) (j : Nat) : (s.putJournal k v).engine j = s.engine j := rfl
@[simp] theorem State.putJournal_channel (k : Nat) (v : Journal) (j : Nat) : (s.putJournal k v).channel j = s.channel j := rfl
@[simp] theorem State.putJournal_die (k : Nat) (v : Journal) (j : Nat) : (s.putJournal k v).die j = s.die j := rfl
@[simp] theorem State.putJournal_net (k : Nat) (v : Journal) (j : Nat) : (s.putJournal k v).net j = s.net j := rfl
@[simp] theorem State.putJournal_sess (k : Nat) (v : Journal) (j : Nat) : (s.putJournal k v).sess j = s.sess j := rfl
@[simp] theorem State.putJournal_crierSrc (k : Nat) (v : Journal) (j : Nat) : (s.putJournal k v).crierSrc j = s.crierSrc j := rfl
@[simp] theorem State.putJournal_img (k : Nat) (v : Journal) (j : Nat) : (s.putJournal k v).img j = s.img j := rfl
@[simp] theorem State.putJournal_sap (k : Nat) (v : Journal) (j : Nat) : (s.putJournal k v).sap j = s.sap j := rfl
@[simp] theorem State.putJournal_park (k : Nat) (v : Journal) (j : Nat) : (s.putJournal k v).park j = s.park j := rfl
@[simp] theorem State.putJournal_lib (k : Nat) (v : Journal) (j : Nat) : (s.putJournal k v).lib j = s.lib j := rfl
@[simp] theorem State.putJournal_flashCh (k : Nat) (v : Journal) (j : Nat) : (s.putJournal k v).flashCh j = s.flashCh j := rfl

/-! ## putStall -/

@[simp] theorem State.putStall_pending (k : Nat) (v : Stall) : (s.putStall k v).pending = s.pending := rfl
@[simp] theorem State.putStall_now (k : Nat) (v : Stall) : (s.putStall k v).now = s.now := rfl
@[simp] theorem State.putStall_stamp (k : Nat) (v : Stall) : (s.putStall k v).stamp = s.stamp := rfl
@[simp] theorem State.putStall_free (k : Nat) (v : Stall) : (s.putStall k v).free = s.free := rfl
@[simp] theorem State.putStall_power (k : Nat) (v : Stall) : (s.putStall k v).power = s.power := rfl
@[simp] theorem State.putStall_streams (k : Nat) (v : Stall) : (s.putStall k v).streams = s.streams := rfl
@[simp] theorem State.putStall_egress (k : Nat) (v : Stall) : (s.putStall k v).egress = s.egress := rfl
@[simp] theorem State.putStall_journals (k : Nat) (v : Stall) : (s.putStall k v).journals = s.journals := rfl
@[simp] theorem State.putStall_voices (k : Nat) (v : Stall) : (s.putStall k v).voices = s.voices := rfl
@[simp] theorem State.putStall_bases (k : Nat) (v : Stall) : (s.putStall k v).bases = s.bases := rfl
@[simp] theorem State.putStall_rows (k : Nat) (v : Stall) : (s.putStall k v).rows = s.rows := rfl
@[simp] theorem State.putStall_presses (k : Nat) (v : Stall) : (s.putStall k v).presses = s.presses := rfl
@[simp] theorem State.putStall_stages (k : Nat) (v : Stall) : (s.putStall k v).stages = s.stages := rfl
@[simp] theorem State.putStall_rings (k : Nat) (v : Stall) : (s.putStall k v).rings = s.rings := rfl
@[simp] theorem State.putStall_recUnits (k : Nat) (v : Stall) : (s.putStall k v).recUnits = s.recUnits := rfl
@[simp] theorem State.putStall_engines (k : Nat) (v : Stall) : (s.putStall k v).engines = s.engines := rfl
@[simp] theorem State.putStall_channels (k : Nat) (v : Stall) : (s.putStall k v).channels = s.channels := rfl
@[simp] theorem State.putStall_dies (k : Nat) (v : Stall) : (s.putStall k v).dies = s.dies := rfl
@[simp] theorem State.putStall_mem (k : Nat) (v : Stall) : (s.putStall k v).mem = s.mem := rfl
@[simp] theorem State.putStall_heldMoves (k : Nat) (v : Stall) : (s.putStall k v).heldMoves = s.heldMoves := rfl
@[simp] theorem State.putStall_nets (k : Nat) (v : Stall) : (s.putStall k v).nets = s.nets := rfl
@[simp] theorem State.putStall_sessions (k : Nat) (v : Stall) : (s.putStall k v).sessions = s.sessions := rfl
@[simp] theorem State.putStall_vct (k : Nat) (v : Stall) : (s.putStall k v).vct = s.vct := rfl
@[simp] theorem State.putStall_criers (k : Nat) (v : Stall) : (s.putStall k v).criers = s.criers := rfl
@[simp] theorem State.putStall_clerk (k : Nat) (v : Stall) : (s.putStall k v).clerk = s.clerk := rfl
@[simp] theorem State.putStall_exports (k : Nat) (v : Stall) : (s.putStall k v).exports = s.exports := rfl
@[simp] theorem State.putStall_flash (k : Nat) (v : Stall) : (s.putStall k v).flash = s.flash := rfl
@[simp] theorem State.putStall_fw (k : Nat) (v : Stall) : (s.putStall k v).fw = s.fw := rfl
@[simp] theorem State.putStall_sec (k : Nat) (v : Stall) : (s.putStall k v).sec = s.sec := rfl
@[simp] theorem State.putStall_saps (k : Nat) (v : Stall) : (s.putStall k v).saps = s.saps := rfl
@[simp] theorem State.putStall_clk (k : Nat) (v : Stall) : (s.putStall k v).clk = s.clk := rfl
@[simp] theorem State.putStall_jtag (k : Nat) (v : Stall) : (s.putStall k v).jtag = s.jtag := rfl
@[simp] theorem State.putStall_sent (k : Nat) (v : Stall) : (s.putStall k v).sent = s.sent := rfl
@[simp] theorem State.putStall_stream (k : Nat) (v : Stall) (j : Nat) : (s.putStall k v).stream j = s.stream j := rfl
@[simp] theorem State.putStall_egr (k : Nat) (v : Stall) (j : Nat) : (s.putStall k v).egr j = s.egr j := rfl
@[simp] theorem State.putStall_journal (k : Nat) (v : Stall) (j : Nat) : (s.putStall k v).journal j = s.journal j := rfl
@[simp] theorem State.putStall_stall (k : Nat) (v : Stall) (j : Nat) : (s.putStall k v).stall j = if j = k then v else s.stall j :=
  tget_tset ..
@[simp] theorem State.putStall_voice (k : Nat) (v : Stall) (j : Nat) : (s.putStall k v).voice j = s.voice j := rfl
@[simp] theorem State.putStall_base (k : Nat) (v : Stall) (j : Nat) : (s.putStall k v).base j = s.base j := rfl
@[simp] theorem State.putStall_row (k : Nat) (v : Stall) (j : Nat) : (s.putStall k v).row j = s.row j := rfl
@[simp] theorem State.putStall_press (k : Nat) (v : Stall) (j : Nat) : (s.putStall k v).press j = s.press j := rfl
@[simp] theorem State.putStall_stage (k : Nat) (v : Stall) (j : Nat) : (s.putStall k v).stage j = s.stage j := rfl
@[simp] theorem State.putStall_recUnit (k : Nat) (v : Stall) (j : Nat) : (s.putStall k v).recUnit j = s.recUnit j := rfl
@[simp] theorem State.putStall_engine (k : Nat) (v : Stall) (j : Nat) : (s.putStall k v).engine j = s.engine j := rfl
@[simp] theorem State.putStall_channel (k : Nat) (v : Stall) (j : Nat) : (s.putStall k v).channel j = s.channel j := rfl
@[simp] theorem State.putStall_die (k : Nat) (v : Stall) (j : Nat) : (s.putStall k v).die j = s.die j := rfl
@[simp] theorem State.putStall_net (k : Nat) (v : Stall) (j : Nat) : (s.putStall k v).net j = s.net j := rfl
@[simp] theorem State.putStall_sess (k : Nat) (v : Stall) (j : Nat) : (s.putStall k v).sess j = s.sess j := rfl
@[simp] theorem State.putStall_crierSrc (k : Nat) (v : Stall) (j : Nat) : (s.putStall k v).crierSrc j = s.crierSrc j := rfl
@[simp] theorem State.putStall_img (k : Nat) (v : Stall) (j : Nat) : (s.putStall k v).img j = s.img j := rfl
@[simp] theorem State.putStall_sap (k : Nat) (v : Stall) (j : Nat) : (s.putStall k v).sap j = s.sap j := rfl
@[simp] theorem State.putStall_park (k : Nat) (v : Stall) (j : Nat) : (s.putStall k v).park j = s.park j := rfl
@[simp] theorem State.putStall_lib (k : Nat) (v : Stall) (j : Nat) : (s.putStall k v).lib j = s.lib j := rfl
@[simp] theorem State.putStall_flashCh (k : Nat) (v : Stall) (j : Nat) : (s.putStall k v).flashCh j = s.flashCh j := rfl

/-! ## putVoice -/

@[simp] theorem State.putVoice_pending (k : Nat) (v : Voice) : (s.putVoice k v).pending = s.pending := rfl
@[simp] theorem State.putVoice_now (k : Nat) (v : Voice) : (s.putVoice k v).now = s.now := rfl
@[simp] theorem State.putVoice_stamp (k : Nat) (v : Voice) : (s.putVoice k v).stamp = s.stamp := rfl
@[simp] theorem State.putVoice_free (k : Nat) (v : Voice) : (s.putVoice k v).free = s.free := rfl
@[simp] theorem State.putVoice_power (k : Nat) (v : Voice) : (s.putVoice k v).power = s.power := rfl
@[simp] theorem State.putVoice_streams (k : Nat) (v : Voice) : (s.putVoice k v).streams = s.streams := rfl
@[simp] theorem State.putVoice_egress (k : Nat) (v : Voice) : (s.putVoice k v).egress = s.egress := rfl
@[simp] theorem State.putVoice_journals (k : Nat) (v : Voice) : (s.putVoice k v).journals = s.journals := rfl
@[simp] theorem State.putVoice_stalls (k : Nat) (v : Voice) : (s.putVoice k v).stalls = s.stalls := rfl
@[simp] theorem State.putVoice_bases (k : Nat) (v : Voice) : (s.putVoice k v).bases = s.bases := rfl
@[simp] theorem State.putVoice_rows (k : Nat) (v : Voice) : (s.putVoice k v).rows = s.rows := rfl
@[simp] theorem State.putVoice_presses (k : Nat) (v : Voice) : (s.putVoice k v).presses = s.presses := rfl
@[simp] theorem State.putVoice_stages (k : Nat) (v : Voice) : (s.putVoice k v).stages = s.stages := rfl
@[simp] theorem State.putVoice_rings (k : Nat) (v : Voice) : (s.putVoice k v).rings = s.rings := rfl
@[simp] theorem State.putVoice_recUnits (k : Nat) (v : Voice) : (s.putVoice k v).recUnits = s.recUnits := rfl
@[simp] theorem State.putVoice_engines (k : Nat) (v : Voice) : (s.putVoice k v).engines = s.engines := rfl
@[simp] theorem State.putVoice_channels (k : Nat) (v : Voice) : (s.putVoice k v).channels = s.channels := rfl
@[simp] theorem State.putVoice_dies (k : Nat) (v : Voice) : (s.putVoice k v).dies = s.dies := rfl
@[simp] theorem State.putVoice_mem (k : Nat) (v : Voice) : (s.putVoice k v).mem = s.mem := rfl
@[simp] theorem State.putVoice_heldMoves (k : Nat) (v : Voice) : (s.putVoice k v).heldMoves = s.heldMoves := rfl
@[simp] theorem State.putVoice_nets (k : Nat) (v : Voice) : (s.putVoice k v).nets = s.nets := rfl
@[simp] theorem State.putVoice_sessions (k : Nat) (v : Voice) : (s.putVoice k v).sessions = s.sessions := rfl
@[simp] theorem State.putVoice_vct (k : Nat) (v : Voice) : (s.putVoice k v).vct = s.vct := rfl
@[simp] theorem State.putVoice_criers (k : Nat) (v : Voice) : (s.putVoice k v).criers = s.criers := rfl
@[simp] theorem State.putVoice_clerk (k : Nat) (v : Voice) : (s.putVoice k v).clerk = s.clerk := rfl
@[simp] theorem State.putVoice_exports (k : Nat) (v : Voice) : (s.putVoice k v).exports = s.exports := rfl
@[simp] theorem State.putVoice_flash (k : Nat) (v : Voice) : (s.putVoice k v).flash = s.flash := rfl
@[simp] theorem State.putVoice_fw (k : Nat) (v : Voice) : (s.putVoice k v).fw = s.fw := rfl
@[simp] theorem State.putVoice_sec (k : Nat) (v : Voice) : (s.putVoice k v).sec = s.sec := rfl
@[simp] theorem State.putVoice_saps (k : Nat) (v : Voice) : (s.putVoice k v).saps = s.saps := rfl
@[simp] theorem State.putVoice_clk (k : Nat) (v : Voice) : (s.putVoice k v).clk = s.clk := rfl
@[simp] theorem State.putVoice_jtag (k : Nat) (v : Voice) : (s.putVoice k v).jtag = s.jtag := rfl
@[simp] theorem State.putVoice_sent (k : Nat) (v : Voice) : (s.putVoice k v).sent = s.sent := rfl
@[simp] theorem State.putVoice_stream (k : Nat) (v : Voice) (j : Nat) : (s.putVoice k v).stream j = s.stream j := rfl
@[simp] theorem State.putVoice_egr (k : Nat) (v : Voice) (j : Nat) : (s.putVoice k v).egr j = s.egr j := rfl
@[simp] theorem State.putVoice_journal (k : Nat) (v : Voice) (j : Nat) : (s.putVoice k v).journal j = s.journal j := rfl
@[simp] theorem State.putVoice_stall (k : Nat) (v : Voice) (j : Nat) : (s.putVoice k v).stall j = s.stall j := rfl
@[simp] theorem State.putVoice_voice (k : Nat) (v : Voice) (j : Nat) : (s.putVoice k v).voice j = if j = k then v else s.voice j :=
  tget_tset ..
@[simp] theorem State.putVoice_base (k : Nat) (v : Voice) (j : Nat) : (s.putVoice k v).base j = s.base j := rfl
@[simp] theorem State.putVoice_row (k : Nat) (v : Voice) (j : Nat) : (s.putVoice k v).row j = s.row j := rfl
@[simp] theorem State.putVoice_press (k : Nat) (v : Voice) (j : Nat) : (s.putVoice k v).press j = s.press j := rfl
@[simp] theorem State.putVoice_stage (k : Nat) (v : Voice) (j : Nat) : (s.putVoice k v).stage j = s.stage j := rfl
@[simp] theorem State.putVoice_recUnit (k : Nat) (v : Voice) (j : Nat) : (s.putVoice k v).recUnit j = s.recUnit j := rfl
@[simp] theorem State.putVoice_engine (k : Nat) (v : Voice) (j : Nat) : (s.putVoice k v).engine j = s.engine j := rfl
@[simp] theorem State.putVoice_channel (k : Nat) (v : Voice) (j : Nat) : (s.putVoice k v).channel j = s.channel j := rfl
@[simp] theorem State.putVoice_die (k : Nat) (v : Voice) (j : Nat) : (s.putVoice k v).die j = s.die j := rfl
@[simp] theorem State.putVoice_net (k : Nat) (v : Voice) (j : Nat) : (s.putVoice k v).net j = s.net j := rfl
@[simp] theorem State.putVoice_sess (k : Nat) (v : Voice) (j : Nat) : (s.putVoice k v).sess j = s.sess j := rfl
@[simp] theorem State.putVoice_crierSrc (k : Nat) (v : Voice) (j : Nat) : (s.putVoice k v).crierSrc j = s.crierSrc j := rfl
@[simp] theorem State.putVoice_img (k : Nat) (v : Voice) (j : Nat) : (s.putVoice k v).img j = s.img j := rfl
@[simp] theorem State.putVoice_sap (k : Nat) (v : Voice) (j : Nat) : (s.putVoice k v).sap j = s.sap j := rfl
@[simp] theorem State.putVoice_park (k : Nat) (v : Voice) (j : Nat) : (s.putVoice k v).park j = s.park j := rfl
@[simp] theorem State.putVoice_lib (k : Nat) (v : Voice) (j : Nat) : (s.putVoice k v).lib j = s.lib j := rfl
@[simp] theorem State.putVoice_flashCh (k : Nat) (v : Voice) (j : Nat) : (s.putVoice k v).flashCh j = s.flashCh j := rfl

/-! ## putBase -/

@[simp] theorem State.putBase_pending (k : Nat) (v : Base) : (s.putBase k v).pending = s.pending := rfl
@[simp] theorem State.putBase_now (k : Nat) (v : Base) : (s.putBase k v).now = s.now := rfl
@[simp] theorem State.putBase_stamp (k : Nat) (v : Base) : (s.putBase k v).stamp = s.stamp := rfl
@[simp] theorem State.putBase_free (k : Nat) (v : Base) : (s.putBase k v).free = s.free := rfl
@[simp] theorem State.putBase_power (k : Nat) (v : Base) : (s.putBase k v).power = s.power := rfl
@[simp] theorem State.putBase_streams (k : Nat) (v : Base) : (s.putBase k v).streams = s.streams := rfl
@[simp] theorem State.putBase_egress (k : Nat) (v : Base) : (s.putBase k v).egress = s.egress := rfl
@[simp] theorem State.putBase_journals (k : Nat) (v : Base) : (s.putBase k v).journals = s.journals := rfl
@[simp] theorem State.putBase_stalls (k : Nat) (v : Base) : (s.putBase k v).stalls = s.stalls := rfl
@[simp] theorem State.putBase_voices (k : Nat) (v : Base) : (s.putBase k v).voices = s.voices := rfl
@[simp] theorem State.putBase_rows (k : Nat) (v : Base) : (s.putBase k v).rows = s.rows := rfl
@[simp] theorem State.putBase_presses (k : Nat) (v : Base) : (s.putBase k v).presses = s.presses := rfl
@[simp] theorem State.putBase_stages (k : Nat) (v : Base) : (s.putBase k v).stages = s.stages := rfl
@[simp] theorem State.putBase_rings (k : Nat) (v : Base) : (s.putBase k v).rings = s.rings := rfl
@[simp] theorem State.putBase_recUnits (k : Nat) (v : Base) : (s.putBase k v).recUnits = s.recUnits := rfl
@[simp] theorem State.putBase_engines (k : Nat) (v : Base) : (s.putBase k v).engines = s.engines := rfl
@[simp] theorem State.putBase_channels (k : Nat) (v : Base) : (s.putBase k v).channels = s.channels := rfl
@[simp] theorem State.putBase_dies (k : Nat) (v : Base) : (s.putBase k v).dies = s.dies := rfl
@[simp] theorem State.putBase_mem (k : Nat) (v : Base) : (s.putBase k v).mem = s.mem := rfl
@[simp] theorem State.putBase_heldMoves (k : Nat) (v : Base) : (s.putBase k v).heldMoves = s.heldMoves := rfl
@[simp] theorem State.putBase_nets (k : Nat) (v : Base) : (s.putBase k v).nets = s.nets := rfl
@[simp] theorem State.putBase_sessions (k : Nat) (v : Base) : (s.putBase k v).sessions = s.sessions := rfl
@[simp] theorem State.putBase_vct (k : Nat) (v : Base) : (s.putBase k v).vct = s.vct := rfl
@[simp] theorem State.putBase_criers (k : Nat) (v : Base) : (s.putBase k v).criers = s.criers := rfl
@[simp] theorem State.putBase_clerk (k : Nat) (v : Base) : (s.putBase k v).clerk = s.clerk := rfl
@[simp] theorem State.putBase_exports (k : Nat) (v : Base) : (s.putBase k v).exports = s.exports := rfl
@[simp] theorem State.putBase_flash (k : Nat) (v : Base) : (s.putBase k v).flash = s.flash := rfl
@[simp] theorem State.putBase_fw (k : Nat) (v : Base) : (s.putBase k v).fw = s.fw := rfl
@[simp] theorem State.putBase_sec (k : Nat) (v : Base) : (s.putBase k v).sec = s.sec := rfl
@[simp] theorem State.putBase_saps (k : Nat) (v : Base) : (s.putBase k v).saps = s.saps := rfl
@[simp] theorem State.putBase_clk (k : Nat) (v : Base) : (s.putBase k v).clk = s.clk := rfl
@[simp] theorem State.putBase_jtag (k : Nat) (v : Base) : (s.putBase k v).jtag = s.jtag := rfl
@[simp] theorem State.putBase_sent (k : Nat) (v : Base) : (s.putBase k v).sent = s.sent := rfl
@[simp] theorem State.putBase_stream (k : Nat) (v : Base) (j : Nat) : (s.putBase k v).stream j = s.stream j := rfl
@[simp] theorem State.putBase_egr (k : Nat) (v : Base) (j : Nat) : (s.putBase k v).egr j = s.egr j := rfl
@[simp] theorem State.putBase_journal (k : Nat) (v : Base) (j : Nat) : (s.putBase k v).journal j = s.journal j := rfl
@[simp] theorem State.putBase_stall (k : Nat) (v : Base) (j : Nat) : (s.putBase k v).stall j = s.stall j := rfl
@[simp] theorem State.putBase_voice (k : Nat) (v : Base) (j : Nat) : (s.putBase k v).voice j = s.voice j := rfl
@[simp] theorem State.putBase_base (k : Nat) (v : Base) (j : Nat) : (s.putBase k v).base j = if j = k then v else s.base j :=
  tget_tset ..
@[simp] theorem State.putBase_row (k : Nat) (v : Base) (j : Nat) : (s.putBase k v).row j = s.row j := rfl
@[simp] theorem State.putBase_press (k : Nat) (v : Base) (j : Nat) : (s.putBase k v).press j = s.press j := rfl
@[simp] theorem State.putBase_stage (k : Nat) (v : Base) (j : Nat) : (s.putBase k v).stage j = s.stage j := rfl
@[simp] theorem State.putBase_recUnit (k : Nat) (v : Base) (j : Nat) : (s.putBase k v).recUnit j = s.recUnit j := rfl
@[simp] theorem State.putBase_engine (k : Nat) (v : Base) (j : Nat) : (s.putBase k v).engine j = s.engine j := rfl
@[simp] theorem State.putBase_channel (k : Nat) (v : Base) (j : Nat) : (s.putBase k v).channel j = s.channel j := rfl
@[simp] theorem State.putBase_die (k : Nat) (v : Base) (j : Nat) : (s.putBase k v).die j = s.die j := rfl
@[simp] theorem State.putBase_net (k : Nat) (v : Base) (j : Nat) : (s.putBase k v).net j = s.net j := rfl
@[simp] theorem State.putBase_sess (k : Nat) (v : Base) (j : Nat) : (s.putBase k v).sess j = s.sess j := rfl
@[simp] theorem State.putBase_crierSrc (k : Nat) (v : Base) (j : Nat) : (s.putBase k v).crierSrc j = s.crierSrc j := rfl
@[simp] theorem State.putBase_img (k : Nat) (v : Base) (j : Nat) : (s.putBase k v).img j = s.img j := rfl
@[simp] theorem State.putBase_sap (k : Nat) (v : Base) (j : Nat) : (s.putBase k v).sap j = s.sap j := rfl
@[simp] theorem State.putBase_park (k : Nat) (v : Base) (j : Nat) : (s.putBase k v).park j = s.park j := rfl
@[simp] theorem State.putBase_lib (k : Nat) (v : Base) (j : Nat) : (s.putBase k v).lib j = s.lib j := rfl
@[simp] theorem State.putBase_flashCh (k : Nat) (v : Base) (j : Nat) : (s.putBase k v).flashCh j = s.flashCh j := rfl

/-! ## putRow -/

@[simp] theorem State.putRow_pending (k : Nat) (v : Row) : (s.putRow k v).pending = s.pending := rfl
@[simp] theorem State.putRow_now (k : Nat) (v : Row) : (s.putRow k v).now = s.now := rfl
@[simp] theorem State.putRow_stamp (k : Nat) (v : Row) : (s.putRow k v).stamp = s.stamp := rfl
@[simp] theorem State.putRow_free (k : Nat) (v : Row) : (s.putRow k v).free = s.free := rfl
@[simp] theorem State.putRow_power (k : Nat) (v : Row) : (s.putRow k v).power = s.power := rfl
@[simp] theorem State.putRow_streams (k : Nat) (v : Row) : (s.putRow k v).streams = s.streams := rfl
@[simp] theorem State.putRow_egress (k : Nat) (v : Row) : (s.putRow k v).egress = s.egress := rfl
@[simp] theorem State.putRow_journals (k : Nat) (v : Row) : (s.putRow k v).journals = s.journals := rfl
@[simp] theorem State.putRow_stalls (k : Nat) (v : Row) : (s.putRow k v).stalls = s.stalls := rfl
@[simp] theorem State.putRow_voices (k : Nat) (v : Row) : (s.putRow k v).voices = s.voices := rfl
@[simp] theorem State.putRow_bases (k : Nat) (v : Row) : (s.putRow k v).bases = s.bases := rfl
@[simp] theorem State.putRow_presses (k : Nat) (v : Row) : (s.putRow k v).presses = s.presses := rfl
@[simp] theorem State.putRow_stages (k : Nat) (v : Row) : (s.putRow k v).stages = s.stages := rfl
@[simp] theorem State.putRow_rings (k : Nat) (v : Row) : (s.putRow k v).rings = s.rings := rfl
@[simp] theorem State.putRow_recUnits (k : Nat) (v : Row) : (s.putRow k v).recUnits = s.recUnits := rfl
@[simp] theorem State.putRow_engines (k : Nat) (v : Row) : (s.putRow k v).engines = s.engines := rfl
@[simp] theorem State.putRow_channels (k : Nat) (v : Row) : (s.putRow k v).channels = s.channels := rfl
@[simp] theorem State.putRow_dies (k : Nat) (v : Row) : (s.putRow k v).dies = s.dies := rfl
@[simp] theorem State.putRow_mem (k : Nat) (v : Row) : (s.putRow k v).mem = s.mem := rfl
@[simp] theorem State.putRow_heldMoves (k : Nat) (v : Row) : (s.putRow k v).heldMoves = s.heldMoves := rfl
@[simp] theorem State.putRow_nets (k : Nat) (v : Row) : (s.putRow k v).nets = s.nets := rfl
@[simp] theorem State.putRow_sessions (k : Nat) (v : Row) : (s.putRow k v).sessions = s.sessions := rfl
@[simp] theorem State.putRow_vct (k : Nat) (v : Row) : (s.putRow k v).vct = s.vct := rfl
@[simp] theorem State.putRow_criers (k : Nat) (v : Row) : (s.putRow k v).criers = s.criers := rfl
@[simp] theorem State.putRow_clerk (k : Nat) (v : Row) : (s.putRow k v).clerk = s.clerk := rfl
@[simp] theorem State.putRow_exports (k : Nat) (v : Row) : (s.putRow k v).exports = s.exports := rfl
@[simp] theorem State.putRow_flash (k : Nat) (v : Row) : (s.putRow k v).flash = s.flash := rfl
@[simp] theorem State.putRow_fw (k : Nat) (v : Row) : (s.putRow k v).fw = s.fw := rfl
@[simp] theorem State.putRow_sec (k : Nat) (v : Row) : (s.putRow k v).sec = s.sec := rfl
@[simp] theorem State.putRow_saps (k : Nat) (v : Row) : (s.putRow k v).saps = s.saps := rfl
@[simp] theorem State.putRow_clk (k : Nat) (v : Row) : (s.putRow k v).clk = s.clk := rfl
@[simp] theorem State.putRow_jtag (k : Nat) (v : Row) : (s.putRow k v).jtag = s.jtag := rfl
@[simp] theorem State.putRow_sent (k : Nat) (v : Row) : (s.putRow k v).sent = s.sent := rfl
@[simp] theorem State.putRow_stream (k : Nat) (v : Row) (j : Nat) : (s.putRow k v).stream j = s.stream j := rfl
@[simp] theorem State.putRow_egr (k : Nat) (v : Row) (j : Nat) : (s.putRow k v).egr j = s.egr j := rfl
@[simp] theorem State.putRow_journal (k : Nat) (v : Row) (j : Nat) : (s.putRow k v).journal j = s.journal j := rfl
@[simp] theorem State.putRow_stall (k : Nat) (v : Row) (j : Nat) : (s.putRow k v).stall j = s.stall j := rfl
@[simp] theorem State.putRow_voice (k : Nat) (v : Row) (j : Nat) : (s.putRow k v).voice j = s.voice j := rfl
@[simp] theorem State.putRow_base (k : Nat) (v : Row) (j : Nat) : (s.putRow k v).base j = s.base j := rfl
@[simp] theorem State.putRow_row (k : Nat) (v : Row) (j : Nat) : (s.putRow k v).row j = if j = k then v else s.row j :=
  tget_tset ..
@[simp] theorem State.putRow_press (k : Nat) (v : Row) (j : Nat) : (s.putRow k v).press j = s.press j := rfl
@[simp] theorem State.putRow_stage (k : Nat) (v : Row) (j : Nat) : (s.putRow k v).stage j = s.stage j := rfl
@[simp] theorem State.putRow_recUnit (k : Nat) (v : Row) (j : Nat) : (s.putRow k v).recUnit j = s.recUnit j := rfl
@[simp] theorem State.putRow_engine (k : Nat) (v : Row) (j : Nat) : (s.putRow k v).engine j = s.engine j := rfl
@[simp] theorem State.putRow_channel (k : Nat) (v : Row) (j : Nat) : (s.putRow k v).channel j = s.channel j := rfl
@[simp] theorem State.putRow_die (k : Nat) (v : Row) (j : Nat) : (s.putRow k v).die j = s.die j := rfl
@[simp] theorem State.putRow_net (k : Nat) (v : Row) (j : Nat) : (s.putRow k v).net j = s.net j := rfl
@[simp] theorem State.putRow_sess (k : Nat) (v : Row) (j : Nat) : (s.putRow k v).sess j = s.sess j := rfl
@[simp] theorem State.putRow_crierSrc (k : Nat) (v : Row) (j : Nat) : (s.putRow k v).crierSrc j = s.crierSrc j := rfl
@[simp] theorem State.putRow_img (k : Nat) (v : Row) (j : Nat) : (s.putRow k v).img j = s.img j := rfl
@[simp] theorem State.putRow_sap (k : Nat) (v : Row) (j : Nat) : (s.putRow k v).sap j = s.sap j := rfl
@[simp] theorem State.putRow_park (k : Nat) (v : Row) (j : Nat) : (s.putRow k v).park j = s.park j := rfl
@[simp] theorem State.putRow_lib (k : Nat) (v : Row) (j : Nat) : (s.putRow k v).lib j = s.lib j := rfl
@[simp] theorem State.putRow_flashCh (k : Nat) (v : Row) (j : Nat) : (s.putRow k v).flashCh j = s.flashCh j := rfl

/-! ## putPress -/

@[simp] theorem State.putPress_pending (k : Nat) (v : Press) : (s.putPress k v).pending = s.pending := rfl
@[simp] theorem State.putPress_now (k : Nat) (v : Press) : (s.putPress k v).now = s.now := rfl
@[simp] theorem State.putPress_stamp (k : Nat) (v : Press) : (s.putPress k v).stamp = s.stamp := rfl
@[simp] theorem State.putPress_free (k : Nat) (v : Press) : (s.putPress k v).free = s.free := rfl
@[simp] theorem State.putPress_power (k : Nat) (v : Press) : (s.putPress k v).power = s.power := rfl
@[simp] theorem State.putPress_streams (k : Nat) (v : Press) : (s.putPress k v).streams = s.streams := rfl
@[simp] theorem State.putPress_egress (k : Nat) (v : Press) : (s.putPress k v).egress = s.egress := rfl
@[simp] theorem State.putPress_journals (k : Nat) (v : Press) : (s.putPress k v).journals = s.journals := rfl
@[simp] theorem State.putPress_stalls (k : Nat) (v : Press) : (s.putPress k v).stalls = s.stalls := rfl
@[simp] theorem State.putPress_voices (k : Nat) (v : Press) : (s.putPress k v).voices = s.voices := rfl
@[simp] theorem State.putPress_bases (k : Nat) (v : Press) : (s.putPress k v).bases = s.bases := rfl
@[simp] theorem State.putPress_rows (k : Nat) (v : Press) : (s.putPress k v).rows = s.rows := rfl
@[simp] theorem State.putPress_stages (k : Nat) (v : Press) : (s.putPress k v).stages = s.stages := rfl
@[simp] theorem State.putPress_rings (k : Nat) (v : Press) : (s.putPress k v).rings = s.rings := rfl
@[simp] theorem State.putPress_recUnits (k : Nat) (v : Press) : (s.putPress k v).recUnits = s.recUnits := rfl
@[simp] theorem State.putPress_engines (k : Nat) (v : Press) : (s.putPress k v).engines = s.engines := rfl
@[simp] theorem State.putPress_channels (k : Nat) (v : Press) : (s.putPress k v).channels = s.channels := rfl
@[simp] theorem State.putPress_dies (k : Nat) (v : Press) : (s.putPress k v).dies = s.dies := rfl
@[simp] theorem State.putPress_mem (k : Nat) (v : Press) : (s.putPress k v).mem = s.mem := rfl
@[simp] theorem State.putPress_heldMoves (k : Nat) (v : Press) : (s.putPress k v).heldMoves = s.heldMoves := rfl
@[simp] theorem State.putPress_nets (k : Nat) (v : Press) : (s.putPress k v).nets = s.nets := rfl
@[simp] theorem State.putPress_sessions (k : Nat) (v : Press) : (s.putPress k v).sessions = s.sessions := rfl
@[simp] theorem State.putPress_vct (k : Nat) (v : Press) : (s.putPress k v).vct = s.vct := rfl
@[simp] theorem State.putPress_criers (k : Nat) (v : Press) : (s.putPress k v).criers = s.criers := rfl
@[simp] theorem State.putPress_clerk (k : Nat) (v : Press) : (s.putPress k v).clerk = s.clerk := rfl
@[simp] theorem State.putPress_exports (k : Nat) (v : Press) : (s.putPress k v).exports = s.exports := rfl
@[simp] theorem State.putPress_flash (k : Nat) (v : Press) : (s.putPress k v).flash = s.flash := rfl
@[simp] theorem State.putPress_fw (k : Nat) (v : Press) : (s.putPress k v).fw = s.fw := rfl
@[simp] theorem State.putPress_sec (k : Nat) (v : Press) : (s.putPress k v).sec = s.sec := rfl
@[simp] theorem State.putPress_saps (k : Nat) (v : Press) : (s.putPress k v).saps = s.saps := rfl
@[simp] theorem State.putPress_clk (k : Nat) (v : Press) : (s.putPress k v).clk = s.clk := rfl
@[simp] theorem State.putPress_jtag (k : Nat) (v : Press) : (s.putPress k v).jtag = s.jtag := rfl
@[simp] theorem State.putPress_sent (k : Nat) (v : Press) : (s.putPress k v).sent = s.sent := rfl
@[simp] theorem State.putPress_stream (k : Nat) (v : Press) (j : Nat) : (s.putPress k v).stream j = s.stream j := rfl
@[simp] theorem State.putPress_egr (k : Nat) (v : Press) (j : Nat) : (s.putPress k v).egr j = s.egr j := rfl
@[simp] theorem State.putPress_journal (k : Nat) (v : Press) (j : Nat) : (s.putPress k v).journal j = s.journal j := rfl
@[simp] theorem State.putPress_stall (k : Nat) (v : Press) (j : Nat) : (s.putPress k v).stall j = s.stall j := rfl
@[simp] theorem State.putPress_voice (k : Nat) (v : Press) (j : Nat) : (s.putPress k v).voice j = s.voice j := rfl
@[simp] theorem State.putPress_base (k : Nat) (v : Press) (j : Nat) : (s.putPress k v).base j = s.base j := rfl
@[simp] theorem State.putPress_row (k : Nat) (v : Press) (j : Nat) : (s.putPress k v).row j = s.row j := rfl
@[simp] theorem State.putPress_press (k : Nat) (v : Press) (j : Nat) : (s.putPress k v).press j = if j = k then v else s.press j :=
  tget_tset ..
@[simp] theorem State.putPress_stage (k : Nat) (v : Press) (j : Nat) : (s.putPress k v).stage j = s.stage j := rfl
@[simp] theorem State.putPress_recUnit (k : Nat) (v : Press) (j : Nat) : (s.putPress k v).recUnit j = s.recUnit j := rfl
@[simp] theorem State.putPress_engine (k : Nat) (v : Press) (j : Nat) : (s.putPress k v).engine j = s.engine j := rfl
@[simp] theorem State.putPress_channel (k : Nat) (v : Press) (j : Nat) : (s.putPress k v).channel j = s.channel j := rfl
@[simp] theorem State.putPress_die (k : Nat) (v : Press) (j : Nat) : (s.putPress k v).die j = s.die j := rfl
@[simp] theorem State.putPress_net (k : Nat) (v : Press) (j : Nat) : (s.putPress k v).net j = s.net j := rfl
@[simp] theorem State.putPress_sess (k : Nat) (v : Press) (j : Nat) : (s.putPress k v).sess j = s.sess j := rfl
@[simp] theorem State.putPress_crierSrc (k : Nat) (v : Press) (j : Nat) : (s.putPress k v).crierSrc j = s.crierSrc j := rfl
@[simp] theorem State.putPress_img (k : Nat) (v : Press) (j : Nat) : (s.putPress k v).img j = s.img j := rfl
@[simp] theorem State.putPress_sap (k : Nat) (v : Press) (j : Nat) : (s.putPress k v).sap j = s.sap j := rfl
@[simp] theorem State.putPress_park (k : Nat) (v : Press) (j : Nat) : (s.putPress k v).park j = s.park j := rfl
@[simp] theorem State.putPress_lib (k : Nat) (v : Press) (j : Nat) : (s.putPress k v).lib j = s.lib j := rfl
@[simp] theorem State.putPress_flashCh (k : Nat) (v : Press) (j : Nat) : (s.putPress k v).flashCh j = s.flashCh j := rfl

/-! ## putStage -/

@[simp] theorem State.putStage_pending (k : Nat) (v : Stage) : (s.putStage k v).pending = s.pending := rfl
@[simp] theorem State.putStage_now (k : Nat) (v : Stage) : (s.putStage k v).now = s.now := rfl
@[simp] theorem State.putStage_stamp (k : Nat) (v : Stage) : (s.putStage k v).stamp = s.stamp := rfl
@[simp] theorem State.putStage_free (k : Nat) (v : Stage) : (s.putStage k v).free = s.free := rfl
@[simp] theorem State.putStage_power (k : Nat) (v : Stage) : (s.putStage k v).power = s.power := rfl
@[simp] theorem State.putStage_streams (k : Nat) (v : Stage) : (s.putStage k v).streams = s.streams := rfl
@[simp] theorem State.putStage_egress (k : Nat) (v : Stage) : (s.putStage k v).egress = s.egress := rfl
@[simp] theorem State.putStage_journals (k : Nat) (v : Stage) : (s.putStage k v).journals = s.journals := rfl
@[simp] theorem State.putStage_stalls (k : Nat) (v : Stage) : (s.putStage k v).stalls = s.stalls := rfl
@[simp] theorem State.putStage_voices (k : Nat) (v : Stage) : (s.putStage k v).voices = s.voices := rfl
@[simp] theorem State.putStage_bases (k : Nat) (v : Stage) : (s.putStage k v).bases = s.bases := rfl
@[simp] theorem State.putStage_rows (k : Nat) (v : Stage) : (s.putStage k v).rows = s.rows := rfl
@[simp] theorem State.putStage_presses (k : Nat) (v : Stage) : (s.putStage k v).presses = s.presses := rfl
@[simp] theorem State.putStage_rings (k : Nat) (v : Stage) : (s.putStage k v).rings = s.rings := rfl
@[simp] theorem State.putStage_recUnits (k : Nat) (v : Stage) : (s.putStage k v).recUnits = s.recUnits := rfl
@[simp] theorem State.putStage_engines (k : Nat) (v : Stage) : (s.putStage k v).engines = s.engines := rfl
@[simp] theorem State.putStage_channels (k : Nat) (v : Stage) : (s.putStage k v).channels = s.channels := rfl
@[simp] theorem State.putStage_dies (k : Nat) (v : Stage) : (s.putStage k v).dies = s.dies := rfl
@[simp] theorem State.putStage_mem (k : Nat) (v : Stage) : (s.putStage k v).mem = s.mem := rfl
@[simp] theorem State.putStage_heldMoves (k : Nat) (v : Stage) : (s.putStage k v).heldMoves = s.heldMoves := rfl
@[simp] theorem State.putStage_nets (k : Nat) (v : Stage) : (s.putStage k v).nets = s.nets := rfl
@[simp] theorem State.putStage_sessions (k : Nat) (v : Stage) : (s.putStage k v).sessions = s.sessions := rfl
@[simp] theorem State.putStage_vct (k : Nat) (v : Stage) : (s.putStage k v).vct = s.vct := rfl
@[simp] theorem State.putStage_criers (k : Nat) (v : Stage) : (s.putStage k v).criers = s.criers := rfl
@[simp] theorem State.putStage_clerk (k : Nat) (v : Stage) : (s.putStage k v).clerk = s.clerk := rfl
@[simp] theorem State.putStage_exports (k : Nat) (v : Stage) : (s.putStage k v).exports = s.exports := rfl
@[simp] theorem State.putStage_flash (k : Nat) (v : Stage) : (s.putStage k v).flash = s.flash := rfl
@[simp] theorem State.putStage_fw (k : Nat) (v : Stage) : (s.putStage k v).fw = s.fw := rfl
@[simp] theorem State.putStage_sec (k : Nat) (v : Stage) : (s.putStage k v).sec = s.sec := rfl
@[simp] theorem State.putStage_saps (k : Nat) (v : Stage) : (s.putStage k v).saps = s.saps := rfl
@[simp] theorem State.putStage_clk (k : Nat) (v : Stage) : (s.putStage k v).clk = s.clk := rfl
@[simp] theorem State.putStage_jtag (k : Nat) (v : Stage) : (s.putStage k v).jtag = s.jtag := rfl
@[simp] theorem State.putStage_sent (k : Nat) (v : Stage) : (s.putStage k v).sent = s.sent := rfl
@[simp] theorem State.putStage_stream (k : Nat) (v : Stage) (j : Nat) : (s.putStage k v).stream j = s.stream j := rfl
@[simp] theorem State.putStage_egr (k : Nat) (v : Stage) (j : Nat) : (s.putStage k v).egr j = s.egr j := rfl
@[simp] theorem State.putStage_journal (k : Nat) (v : Stage) (j : Nat) : (s.putStage k v).journal j = s.journal j := rfl
@[simp] theorem State.putStage_stall (k : Nat) (v : Stage) (j : Nat) : (s.putStage k v).stall j = s.stall j := rfl
@[simp] theorem State.putStage_voice (k : Nat) (v : Stage) (j : Nat) : (s.putStage k v).voice j = s.voice j := rfl
@[simp] theorem State.putStage_base (k : Nat) (v : Stage) (j : Nat) : (s.putStage k v).base j = s.base j := rfl
@[simp] theorem State.putStage_row (k : Nat) (v : Stage) (j : Nat) : (s.putStage k v).row j = s.row j := rfl
@[simp] theorem State.putStage_press (k : Nat) (v : Stage) (j : Nat) : (s.putStage k v).press j = s.press j := rfl
@[simp] theorem State.putStage_stage (k : Nat) (v : Stage) (j : Nat) : (s.putStage k v).stage j = if j = k then v else s.stage j :=
  tget_tset ..
@[simp] theorem State.putStage_recUnit (k : Nat) (v : Stage) (j : Nat) : (s.putStage k v).recUnit j = s.recUnit j := rfl
@[simp] theorem State.putStage_engine (k : Nat) (v : Stage) (j : Nat) : (s.putStage k v).engine j = s.engine j := rfl
@[simp] theorem State.putStage_channel (k : Nat) (v : Stage) (j : Nat) : (s.putStage k v).channel j = s.channel j := rfl
@[simp] theorem State.putStage_die (k : Nat) (v : Stage) (j : Nat) : (s.putStage k v).die j = s.die j := rfl
@[simp] theorem State.putStage_net (k : Nat) (v : Stage) (j : Nat) : (s.putStage k v).net j = s.net j := rfl
@[simp] theorem State.putStage_sess (k : Nat) (v : Stage) (j : Nat) : (s.putStage k v).sess j = s.sess j := rfl
@[simp] theorem State.putStage_crierSrc (k : Nat) (v : Stage) (j : Nat) : (s.putStage k v).crierSrc j = s.crierSrc j := rfl
@[simp] theorem State.putStage_img (k : Nat) (v : Stage) (j : Nat) : (s.putStage k v).img j = s.img j := rfl
@[simp] theorem State.putStage_sap (k : Nat) (v : Stage) (j : Nat) : (s.putStage k v).sap j = s.sap j := rfl
@[simp] theorem State.putStage_park (k : Nat) (v : Stage) (j : Nat) : (s.putStage k v).park j = s.park j := rfl
@[simp] theorem State.putStage_lib (k : Nat) (v : Stage) (j : Nat) : (s.putStage k v).lib j = s.lib j := rfl
@[simp] theorem State.putStage_flashCh (k : Nat) (v : Stage) (j : Nat) : (s.putStage k v).flashCh j = s.flashCh j := rfl

/-! ## putRecUnit -/

@[simp] theorem State.putRecUnit_pending (k : Nat) (v : RecUnit) : (s.putRecUnit k v).pending = s.pending := rfl
@[simp] theorem State.putRecUnit_now (k : Nat) (v : RecUnit) : (s.putRecUnit k v).now = s.now := rfl
@[simp] theorem State.putRecUnit_stamp (k : Nat) (v : RecUnit) : (s.putRecUnit k v).stamp = s.stamp := rfl
@[simp] theorem State.putRecUnit_free (k : Nat) (v : RecUnit) : (s.putRecUnit k v).free = s.free := rfl
@[simp] theorem State.putRecUnit_power (k : Nat) (v : RecUnit) : (s.putRecUnit k v).power = s.power := rfl
@[simp] theorem State.putRecUnit_streams (k : Nat) (v : RecUnit) : (s.putRecUnit k v).streams = s.streams := rfl
@[simp] theorem State.putRecUnit_egress (k : Nat) (v : RecUnit) : (s.putRecUnit k v).egress = s.egress := rfl
@[simp] theorem State.putRecUnit_journals (k : Nat) (v : RecUnit) : (s.putRecUnit k v).journals = s.journals := rfl
@[simp] theorem State.putRecUnit_stalls (k : Nat) (v : RecUnit) : (s.putRecUnit k v).stalls = s.stalls := rfl
@[simp] theorem State.putRecUnit_voices (k : Nat) (v : RecUnit) : (s.putRecUnit k v).voices = s.voices := rfl
@[simp] theorem State.putRecUnit_bases (k : Nat) (v : RecUnit) : (s.putRecUnit k v).bases = s.bases := rfl
@[simp] theorem State.putRecUnit_rows (k : Nat) (v : RecUnit) : (s.putRecUnit k v).rows = s.rows := rfl
@[simp] theorem State.putRecUnit_presses (k : Nat) (v : RecUnit) : (s.putRecUnit k v).presses = s.presses := rfl
@[simp] theorem State.putRecUnit_stages (k : Nat) (v : RecUnit) : (s.putRecUnit k v).stages = s.stages := rfl
@[simp] theorem State.putRecUnit_rings (k : Nat) (v : RecUnit) : (s.putRecUnit k v).rings = s.rings := rfl
@[simp] theorem State.putRecUnit_engines (k : Nat) (v : RecUnit) : (s.putRecUnit k v).engines = s.engines := rfl
@[simp] theorem State.putRecUnit_channels (k : Nat) (v : RecUnit) : (s.putRecUnit k v).channels = s.channels := rfl
@[simp] theorem State.putRecUnit_dies (k : Nat) (v : RecUnit) : (s.putRecUnit k v).dies = s.dies := rfl
@[simp] theorem State.putRecUnit_mem (k : Nat) (v : RecUnit) : (s.putRecUnit k v).mem = s.mem := rfl
@[simp] theorem State.putRecUnit_heldMoves (k : Nat) (v : RecUnit) : (s.putRecUnit k v).heldMoves = s.heldMoves := rfl
@[simp] theorem State.putRecUnit_nets (k : Nat) (v : RecUnit) : (s.putRecUnit k v).nets = s.nets := rfl
@[simp] theorem State.putRecUnit_sessions (k : Nat) (v : RecUnit) : (s.putRecUnit k v).sessions = s.sessions := rfl
@[simp] theorem State.putRecUnit_vct (k : Nat) (v : RecUnit) : (s.putRecUnit k v).vct = s.vct := rfl
@[simp] theorem State.putRecUnit_criers (k : Nat) (v : RecUnit) : (s.putRecUnit k v).criers = s.criers := rfl
@[simp] theorem State.putRecUnit_clerk (k : Nat) (v : RecUnit) : (s.putRecUnit k v).clerk = s.clerk := rfl
@[simp] theorem State.putRecUnit_exports (k : Nat) (v : RecUnit) : (s.putRecUnit k v).exports = s.exports := rfl
@[simp] theorem State.putRecUnit_flash (k : Nat) (v : RecUnit) : (s.putRecUnit k v).flash = s.flash := rfl
@[simp] theorem State.putRecUnit_fw (k : Nat) (v : RecUnit) : (s.putRecUnit k v).fw = s.fw := rfl
@[simp] theorem State.putRecUnit_sec (k : Nat) (v : RecUnit) : (s.putRecUnit k v).sec = s.sec := rfl
@[simp] theorem State.putRecUnit_saps (k : Nat) (v : RecUnit) : (s.putRecUnit k v).saps = s.saps := rfl
@[simp] theorem State.putRecUnit_clk (k : Nat) (v : RecUnit) : (s.putRecUnit k v).clk = s.clk := rfl
@[simp] theorem State.putRecUnit_jtag (k : Nat) (v : RecUnit) : (s.putRecUnit k v).jtag = s.jtag := rfl
@[simp] theorem State.putRecUnit_sent (k : Nat) (v : RecUnit) : (s.putRecUnit k v).sent = s.sent := rfl
@[simp] theorem State.putRecUnit_stream (k : Nat) (v : RecUnit) (j : Nat) : (s.putRecUnit k v).stream j = s.stream j := rfl
@[simp] theorem State.putRecUnit_egr (k : Nat) (v : RecUnit) (j : Nat) : (s.putRecUnit k v).egr j = s.egr j := rfl
@[simp] theorem State.putRecUnit_journal (k : Nat) (v : RecUnit) (j : Nat) : (s.putRecUnit k v).journal j = s.journal j := rfl
@[simp] theorem State.putRecUnit_stall (k : Nat) (v : RecUnit) (j : Nat) : (s.putRecUnit k v).stall j = s.stall j := rfl
@[simp] theorem State.putRecUnit_voice (k : Nat) (v : RecUnit) (j : Nat) : (s.putRecUnit k v).voice j = s.voice j := rfl
@[simp] theorem State.putRecUnit_base (k : Nat) (v : RecUnit) (j : Nat) : (s.putRecUnit k v).base j = s.base j := rfl
@[simp] theorem State.putRecUnit_row (k : Nat) (v : RecUnit) (j : Nat) : (s.putRecUnit k v).row j = s.row j := rfl
@[simp] theorem State.putRecUnit_press (k : Nat) (v : RecUnit) (j : Nat) : (s.putRecUnit k v).press j = s.press j := rfl
@[simp] theorem State.putRecUnit_stage (k : Nat) (v : RecUnit) (j : Nat) : (s.putRecUnit k v).stage j = s.stage j := rfl
@[simp] theorem State.putRecUnit_recUnit (k : Nat) (v : RecUnit) (j : Nat) : (s.putRecUnit k v).recUnit j = if j = k then v else s.recUnit j :=
  tget_tset ..
@[simp] theorem State.putRecUnit_engine (k : Nat) (v : RecUnit) (j : Nat) : (s.putRecUnit k v).engine j = s.engine j := rfl
@[simp] theorem State.putRecUnit_channel (k : Nat) (v : RecUnit) (j : Nat) : (s.putRecUnit k v).channel j = s.channel j := rfl
@[simp] theorem State.putRecUnit_die (k : Nat) (v : RecUnit) (j : Nat) : (s.putRecUnit k v).die j = s.die j := rfl
@[simp] theorem State.putRecUnit_net (k : Nat) (v : RecUnit) (j : Nat) : (s.putRecUnit k v).net j = s.net j := rfl
@[simp] theorem State.putRecUnit_sess (k : Nat) (v : RecUnit) (j : Nat) : (s.putRecUnit k v).sess j = s.sess j := rfl
@[simp] theorem State.putRecUnit_crierSrc (k : Nat) (v : RecUnit) (j : Nat) : (s.putRecUnit k v).crierSrc j = s.crierSrc j := rfl
@[simp] theorem State.putRecUnit_img (k : Nat) (v : RecUnit) (j : Nat) : (s.putRecUnit k v).img j = s.img j := rfl
@[simp] theorem State.putRecUnit_sap (k : Nat) (v : RecUnit) (j : Nat) : (s.putRecUnit k v).sap j = s.sap j := rfl
@[simp] theorem State.putRecUnit_park (k : Nat) (v : RecUnit) (j : Nat) : (s.putRecUnit k v).park j = s.park j := rfl
@[simp] theorem State.putRecUnit_lib (k : Nat) (v : RecUnit) (j : Nat) : (s.putRecUnit k v).lib j = s.lib j := rfl
@[simp] theorem State.putRecUnit_flashCh (k : Nat) (v : RecUnit) (j : Nat) : (s.putRecUnit k v).flashCh j = s.flashCh j := rfl

/-! ## putEngine -/

@[simp] theorem State.putEngine_pending (k : Nat) (v : Engine) : (s.putEngine k v).pending = s.pending := rfl
@[simp] theorem State.putEngine_now (k : Nat) (v : Engine) : (s.putEngine k v).now = s.now := rfl
@[simp] theorem State.putEngine_stamp (k : Nat) (v : Engine) : (s.putEngine k v).stamp = s.stamp := rfl
@[simp] theorem State.putEngine_free (k : Nat) (v : Engine) : (s.putEngine k v).free = s.free := rfl
@[simp] theorem State.putEngine_power (k : Nat) (v : Engine) : (s.putEngine k v).power = s.power := rfl
@[simp] theorem State.putEngine_streams (k : Nat) (v : Engine) : (s.putEngine k v).streams = s.streams := rfl
@[simp] theorem State.putEngine_egress (k : Nat) (v : Engine) : (s.putEngine k v).egress = s.egress := rfl
@[simp] theorem State.putEngine_journals (k : Nat) (v : Engine) : (s.putEngine k v).journals = s.journals := rfl
@[simp] theorem State.putEngine_stalls (k : Nat) (v : Engine) : (s.putEngine k v).stalls = s.stalls := rfl
@[simp] theorem State.putEngine_voices (k : Nat) (v : Engine) : (s.putEngine k v).voices = s.voices := rfl
@[simp] theorem State.putEngine_bases (k : Nat) (v : Engine) : (s.putEngine k v).bases = s.bases := rfl
@[simp] theorem State.putEngine_rows (k : Nat) (v : Engine) : (s.putEngine k v).rows = s.rows := rfl
@[simp] theorem State.putEngine_presses (k : Nat) (v : Engine) : (s.putEngine k v).presses = s.presses := rfl
@[simp] theorem State.putEngine_stages (k : Nat) (v : Engine) : (s.putEngine k v).stages = s.stages := rfl
@[simp] theorem State.putEngine_rings (k : Nat) (v : Engine) : (s.putEngine k v).rings = s.rings := rfl
@[simp] theorem State.putEngine_recUnits (k : Nat) (v : Engine) : (s.putEngine k v).recUnits = s.recUnits := rfl
@[simp] theorem State.putEngine_channels (k : Nat) (v : Engine) : (s.putEngine k v).channels = s.channels := rfl
@[simp] theorem State.putEngine_dies (k : Nat) (v : Engine) : (s.putEngine k v).dies = s.dies := rfl
@[simp] theorem State.putEngine_mem (k : Nat) (v : Engine) : (s.putEngine k v).mem = s.mem := rfl
@[simp] theorem State.putEngine_heldMoves (k : Nat) (v : Engine) : (s.putEngine k v).heldMoves = s.heldMoves := rfl
@[simp] theorem State.putEngine_nets (k : Nat) (v : Engine) : (s.putEngine k v).nets = s.nets := rfl
@[simp] theorem State.putEngine_sessions (k : Nat) (v : Engine) : (s.putEngine k v).sessions = s.sessions := rfl
@[simp] theorem State.putEngine_vct (k : Nat) (v : Engine) : (s.putEngine k v).vct = s.vct := rfl
@[simp] theorem State.putEngine_criers (k : Nat) (v : Engine) : (s.putEngine k v).criers = s.criers := rfl
@[simp] theorem State.putEngine_clerk (k : Nat) (v : Engine) : (s.putEngine k v).clerk = s.clerk := rfl
@[simp] theorem State.putEngine_exports (k : Nat) (v : Engine) : (s.putEngine k v).exports = s.exports := rfl
@[simp] theorem State.putEngine_flash (k : Nat) (v : Engine) : (s.putEngine k v).flash = s.flash := rfl
@[simp] theorem State.putEngine_fw (k : Nat) (v : Engine) : (s.putEngine k v).fw = s.fw := rfl
@[simp] theorem State.putEngine_sec (k : Nat) (v : Engine) : (s.putEngine k v).sec = s.sec := rfl
@[simp] theorem State.putEngine_saps (k : Nat) (v : Engine) : (s.putEngine k v).saps = s.saps := rfl
@[simp] theorem State.putEngine_clk (k : Nat) (v : Engine) : (s.putEngine k v).clk = s.clk := rfl
@[simp] theorem State.putEngine_jtag (k : Nat) (v : Engine) : (s.putEngine k v).jtag = s.jtag := rfl
@[simp] theorem State.putEngine_sent (k : Nat) (v : Engine) : (s.putEngine k v).sent = s.sent := rfl
@[simp] theorem State.putEngine_stream (k : Nat) (v : Engine) (j : Nat) : (s.putEngine k v).stream j = s.stream j := rfl
@[simp] theorem State.putEngine_egr (k : Nat) (v : Engine) (j : Nat) : (s.putEngine k v).egr j = s.egr j := rfl
@[simp] theorem State.putEngine_journal (k : Nat) (v : Engine) (j : Nat) : (s.putEngine k v).journal j = s.journal j := rfl
@[simp] theorem State.putEngine_stall (k : Nat) (v : Engine) (j : Nat) : (s.putEngine k v).stall j = s.stall j := rfl
@[simp] theorem State.putEngine_voice (k : Nat) (v : Engine) (j : Nat) : (s.putEngine k v).voice j = s.voice j := rfl
@[simp] theorem State.putEngine_base (k : Nat) (v : Engine) (j : Nat) : (s.putEngine k v).base j = s.base j := rfl
@[simp] theorem State.putEngine_row (k : Nat) (v : Engine) (j : Nat) : (s.putEngine k v).row j = s.row j := rfl
@[simp] theorem State.putEngine_press (k : Nat) (v : Engine) (j : Nat) : (s.putEngine k v).press j = s.press j := rfl
@[simp] theorem State.putEngine_stage (k : Nat) (v : Engine) (j : Nat) : (s.putEngine k v).stage j = s.stage j := rfl
@[simp] theorem State.putEngine_recUnit (k : Nat) (v : Engine) (j : Nat) : (s.putEngine k v).recUnit j = s.recUnit j := rfl
@[simp] theorem State.putEngine_engine (k : Nat) (v : Engine) (j : Nat) : (s.putEngine k v).engine j = if j = k then v else s.engine j :=
  tget_tset ..
@[simp] theorem State.putEngine_channel (k : Nat) (v : Engine) (j : Nat) : (s.putEngine k v).channel j = s.channel j := rfl
@[simp] theorem State.putEngine_die (k : Nat) (v : Engine) (j : Nat) : (s.putEngine k v).die j = s.die j := rfl
@[simp] theorem State.putEngine_net (k : Nat) (v : Engine) (j : Nat) : (s.putEngine k v).net j = s.net j := rfl
@[simp] theorem State.putEngine_sess (k : Nat) (v : Engine) (j : Nat) : (s.putEngine k v).sess j = s.sess j := rfl
@[simp] theorem State.putEngine_crierSrc (k : Nat) (v : Engine) (j : Nat) : (s.putEngine k v).crierSrc j = s.crierSrc j := rfl
@[simp] theorem State.putEngine_img (k : Nat) (v : Engine) (j : Nat) : (s.putEngine k v).img j = s.img j := rfl
@[simp] theorem State.putEngine_sap (k : Nat) (v : Engine) (j : Nat) : (s.putEngine k v).sap j = s.sap j := rfl
@[simp] theorem State.putEngine_park (k : Nat) (v : Engine) (j : Nat) : (s.putEngine k v).park j = s.park j := rfl
@[simp] theorem State.putEngine_lib (k : Nat) (v : Engine) (j : Nat) : (s.putEngine k v).lib j = s.lib j := rfl
@[simp] theorem State.putEngine_flashCh (k : Nat) (v : Engine) (j : Nat) : (s.putEngine k v).flashCh j = s.flashCh j := rfl

/-! ## putChannel -/

@[simp] theorem State.putChannel_pending (k : Nat) (v : Channel) : (s.putChannel k v).pending = s.pending := rfl
@[simp] theorem State.putChannel_now (k : Nat) (v : Channel) : (s.putChannel k v).now = s.now := rfl
@[simp] theorem State.putChannel_stamp (k : Nat) (v : Channel) : (s.putChannel k v).stamp = s.stamp := rfl
@[simp] theorem State.putChannel_free (k : Nat) (v : Channel) : (s.putChannel k v).free = s.free := rfl
@[simp] theorem State.putChannel_power (k : Nat) (v : Channel) : (s.putChannel k v).power = s.power := rfl
@[simp] theorem State.putChannel_streams (k : Nat) (v : Channel) : (s.putChannel k v).streams = s.streams := rfl
@[simp] theorem State.putChannel_egress (k : Nat) (v : Channel) : (s.putChannel k v).egress = s.egress := rfl
@[simp] theorem State.putChannel_journals (k : Nat) (v : Channel) : (s.putChannel k v).journals = s.journals := rfl
@[simp] theorem State.putChannel_stalls (k : Nat) (v : Channel) : (s.putChannel k v).stalls = s.stalls := rfl
@[simp] theorem State.putChannel_voices (k : Nat) (v : Channel) : (s.putChannel k v).voices = s.voices := rfl
@[simp] theorem State.putChannel_bases (k : Nat) (v : Channel) : (s.putChannel k v).bases = s.bases := rfl
@[simp] theorem State.putChannel_rows (k : Nat) (v : Channel) : (s.putChannel k v).rows = s.rows := rfl
@[simp] theorem State.putChannel_presses (k : Nat) (v : Channel) : (s.putChannel k v).presses = s.presses := rfl
@[simp] theorem State.putChannel_stages (k : Nat) (v : Channel) : (s.putChannel k v).stages = s.stages := rfl
@[simp] theorem State.putChannel_rings (k : Nat) (v : Channel) : (s.putChannel k v).rings = s.rings := rfl
@[simp] theorem State.putChannel_recUnits (k : Nat) (v : Channel) : (s.putChannel k v).recUnits = s.recUnits := rfl
@[simp] theorem State.putChannel_engines (k : Nat) (v : Channel) : (s.putChannel k v).engines = s.engines := rfl
@[simp] theorem State.putChannel_dies (k : Nat) (v : Channel) : (s.putChannel k v).dies = s.dies := rfl
@[simp] theorem State.putChannel_mem (k : Nat) (v : Channel) : (s.putChannel k v).mem = s.mem := rfl
@[simp] theorem State.putChannel_heldMoves (k : Nat) (v : Channel) : (s.putChannel k v).heldMoves = s.heldMoves := rfl
@[simp] theorem State.putChannel_nets (k : Nat) (v : Channel) : (s.putChannel k v).nets = s.nets := rfl
@[simp] theorem State.putChannel_sessions (k : Nat) (v : Channel) : (s.putChannel k v).sessions = s.sessions := rfl
@[simp] theorem State.putChannel_vct (k : Nat) (v : Channel) : (s.putChannel k v).vct = s.vct := rfl
@[simp] theorem State.putChannel_criers (k : Nat) (v : Channel) : (s.putChannel k v).criers = s.criers := rfl
@[simp] theorem State.putChannel_clerk (k : Nat) (v : Channel) : (s.putChannel k v).clerk = s.clerk := rfl
@[simp] theorem State.putChannel_exports (k : Nat) (v : Channel) : (s.putChannel k v).exports = s.exports := rfl
@[simp] theorem State.putChannel_flash (k : Nat) (v : Channel) : (s.putChannel k v).flash = s.flash := rfl
@[simp] theorem State.putChannel_fw (k : Nat) (v : Channel) : (s.putChannel k v).fw = s.fw := rfl
@[simp] theorem State.putChannel_sec (k : Nat) (v : Channel) : (s.putChannel k v).sec = s.sec := rfl
@[simp] theorem State.putChannel_saps (k : Nat) (v : Channel) : (s.putChannel k v).saps = s.saps := rfl
@[simp] theorem State.putChannel_clk (k : Nat) (v : Channel) : (s.putChannel k v).clk = s.clk := rfl
@[simp] theorem State.putChannel_jtag (k : Nat) (v : Channel) : (s.putChannel k v).jtag = s.jtag := rfl
@[simp] theorem State.putChannel_sent (k : Nat) (v : Channel) : (s.putChannel k v).sent = s.sent := rfl
@[simp] theorem State.putChannel_stream (k : Nat) (v : Channel) (j : Nat) : (s.putChannel k v).stream j = s.stream j := rfl
@[simp] theorem State.putChannel_egr (k : Nat) (v : Channel) (j : Nat) : (s.putChannel k v).egr j = s.egr j := rfl
@[simp] theorem State.putChannel_journal (k : Nat) (v : Channel) (j : Nat) : (s.putChannel k v).journal j = s.journal j := rfl
@[simp] theorem State.putChannel_stall (k : Nat) (v : Channel) (j : Nat) : (s.putChannel k v).stall j = s.stall j := rfl
@[simp] theorem State.putChannel_voice (k : Nat) (v : Channel) (j : Nat) : (s.putChannel k v).voice j = s.voice j := rfl
@[simp] theorem State.putChannel_base (k : Nat) (v : Channel) (j : Nat) : (s.putChannel k v).base j = s.base j := rfl
@[simp] theorem State.putChannel_row (k : Nat) (v : Channel) (j : Nat) : (s.putChannel k v).row j = s.row j := rfl
@[simp] theorem State.putChannel_press (k : Nat) (v : Channel) (j : Nat) : (s.putChannel k v).press j = s.press j := rfl
@[simp] theorem State.putChannel_stage (k : Nat) (v : Channel) (j : Nat) : (s.putChannel k v).stage j = s.stage j := rfl
@[simp] theorem State.putChannel_recUnit (k : Nat) (v : Channel) (j : Nat) : (s.putChannel k v).recUnit j = s.recUnit j := rfl
@[simp] theorem State.putChannel_engine (k : Nat) (v : Channel) (j : Nat) : (s.putChannel k v).engine j = s.engine j := rfl
@[simp] theorem State.putChannel_channel (k : Nat) (v : Channel) (j : Nat) : (s.putChannel k v).channel j = if j = k then v else s.channel j :=
  tget_tset ..
@[simp] theorem State.putChannel_die (k : Nat) (v : Channel) (j : Nat) : (s.putChannel k v).die j = s.die j := rfl
@[simp] theorem State.putChannel_net (k : Nat) (v : Channel) (j : Nat) : (s.putChannel k v).net j = s.net j := rfl
@[simp] theorem State.putChannel_sess (k : Nat) (v : Channel) (j : Nat) : (s.putChannel k v).sess j = s.sess j := rfl
@[simp] theorem State.putChannel_crierSrc (k : Nat) (v : Channel) (j : Nat) : (s.putChannel k v).crierSrc j = s.crierSrc j := rfl
@[simp] theorem State.putChannel_img (k : Nat) (v : Channel) (j : Nat) : (s.putChannel k v).img j = s.img j := rfl
@[simp] theorem State.putChannel_sap (k : Nat) (v : Channel) (j : Nat) : (s.putChannel k v).sap j = s.sap j := rfl
@[simp] theorem State.putChannel_park (k : Nat) (v : Channel) (j : Nat) : (s.putChannel k v).park j = s.park j := rfl
@[simp] theorem State.putChannel_lib (k : Nat) (v : Channel) (j : Nat) : (s.putChannel k v).lib j = s.lib j := rfl
@[simp] theorem State.putChannel_flashCh (k : Nat) (v : Channel) (j : Nat) : (s.putChannel k v).flashCh j = s.flashCh j := rfl

/-! ## putDie -/

@[simp] theorem State.putDie_pending (k : Nat) (v : Die) : (s.putDie k v).pending = s.pending := rfl
@[simp] theorem State.putDie_now (k : Nat) (v : Die) : (s.putDie k v).now = s.now := rfl
@[simp] theorem State.putDie_stamp (k : Nat) (v : Die) : (s.putDie k v).stamp = s.stamp := rfl
@[simp] theorem State.putDie_free (k : Nat) (v : Die) : (s.putDie k v).free = s.free := rfl
@[simp] theorem State.putDie_power (k : Nat) (v : Die) : (s.putDie k v).power = s.power := rfl
@[simp] theorem State.putDie_streams (k : Nat) (v : Die) : (s.putDie k v).streams = s.streams := rfl
@[simp] theorem State.putDie_egress (k : Nat) (v : Die) : (s.putDie k v).egress = s.egress := rfl
@[simp] theorem State.putDie_journals (k : Nat) (v : Die) : (s.putDie k v).journals = s.journals := rfl
@[simp] theorem State.putDie_stalls (k : Nat) (v : Die) : (s.putDie k v).stalls = s.stalls := rfl
@[simp] theorem State.putDie_voices (k : Nat) (v : Die) : (s.putDie k v).voices = s.voices := rfl
@[simp] theorem State.putDie_bases (k : Nat) (v : Die) : (s.putDie k v).bases = s.bases := rfl
@[simp] theorem State.putDie_rows (k : Nat) (v : Die) : (s.putDie k v).rows = s.rows := rfl
@[simp] theorem State.putDie_presses (k : Nat) (v : Die) : (s.putDie k v).presses = s.presses := rfl
@[simp] theorem State.putDie_stages (k : Nat) (v : Die) : (s.putDie k v).stages = s.stages := rfl
@[simp] theorem State.putDie_rings (k : Nat) (v : Die) : (s.putDie k v).rings = s.rings := rfl
@[simp] theorem State.putDie_recUnits (k : Nat) (v : Die) : (s.putDie k v).recUnits = s.recUnits := rfl
@[simp] theorem State.putDie_engines (k : Nat) (v : Die) : (s.putDie k v).engines = s.engines := rfl
@[simp] theorem State.putDie_channels (k : Nat) (v : Die) : (s.putDie k v).channels = s.channels := rfl
@[simp] theorem State.putDie_mem (k : Nat) (v : Die) : (s.putDie k v).mem = s.mem := rfl
@[simp] theorem State.putDie_heldMoves (k : Nat) (v : Die) : (s.putDie k v).heldMoves = s.heldMoves := rfl
@[simp] theorem State.putDie_nets (k : Nat) (v : Die) : (s.putDie k v).nets = s.nets := rfl
@[simp] theorem State.putDie_sessions (k : Nat) (v : Die) : (s.putDie k v).sessions = s.sessions := rfl
@[simp] theorem State.putDie_vct (k : Nat) (v : Die) : (s.putDie k v).vct = s.vct := rfl
@[simp] theorem State.putDie_criers (k : Nat) (v : Die) : (s.putDie k v).criers = s.criers := rfl
@[simp] theorem State.putDie_clerk (k : Nat) (v : Die) : (s.putDie k v).clerk = s.clerk := rfl
@[simp] theorem State.putDie_exports (k : Nat) (v : Die) : (s.putDie k v).exports = s.exports := rfl
@[simp] theorem State.putDie_flash (k : Nat) (v : Die) : (s.putDie k v).flash = s.flash := rfl
@[simp] theorem State.putDie_fw (k : Nat) (v : Die) : (s.putDie k v).fw = s.fw := rfl
@[simp] theorem State.putDie_sec (k : Nat) (v : Die) : (s.putDie k v).sec = s.sec := rfl
@[simp] theorem State.putDie_saps (k : Nat) (v : Die) : (s.putDie k v).saps = s.saps := rfl
@[simp] theorem State.putDie_clk (k : Nat) (v : Die) : (s.putDie k v).clk = s.clk := rfl
@[simp] theorem State.putDie_jtag (k : Nat) (v : Die) : (s.putDie k v).jtag = s.jtag := rfl
@[simp] theorem State.putDie_sent (k : Nat) (v : Die) : (s.putDie k v).sent = s.sent := rfl
@[simp] theorem State.putDie_stream (k : Nat) (v : Die) (j : Nat) : (s.putDie k v).stream j = s.stream j := rfl
@[simp] theorem State.putDie_egr (k : Nat) (v : Die) (j : Nat) : (s.putDie k v).egr j = s.egr j := rfl
@[simp] theorem State.putDie_journal (k : Nat) (v : Die) (j : Nat) : (s.putDie k v).journal j = s.journal j := rfl
@[simp] theorem State.putDie_stall (k : Nat) (v : Die) (j : Nat) : (s.putDie k v).stall j = s.stall j := rfl
@[simp] theorem State.putDie_voice (k : Nat) (v : Die) (j : Nat) : (s.putDie k v).voice j = s.voice j := rfl
@[simp] theorem State.putDie_base (k : Nat) (v : Die) (j : Nat) : (s.putDie k v).base j = s.base j := rfl
@[simp] theorem State.putDie_row (k : Nat) (v : Die) (j : Nat) : (s.putDie k v).row j = s.row j := rfl
@[simp] theorem State.putDie_press (k : Nat) (v : Die) (j : Nat) : (s.putDie k v).press j = s.press j := rfl
@[simp] theorem State.putDie_stage (k : Nat) (v : Die) (j : Nat) : (s.putDie k v).stage j = s.stage j := rfl
@[simp] theorem State.putDie_recUnit (k : Nat) (v : Die) (j : Nat) : (s.putDie k v).recUnit j = s.recUnit j := rfl
@[simp] theorem State.putDie_engine (k : Nat) (v : Die) (j : Nat) : (s.putDie k v).engine j = s.engine j := rfl
@[simp] theorem State.putDie_channel (k : Nat) (v : Die) (j : Nat) : (s.putDie k v).channel j = s.channel j := rfl
@[simp] theorem State.putDie_die (k : Nat) (v : Die) (j : Nat) : (s.putDie k v).die j = if j = k then v else s.die j :=
  tget_tset ..
@[simp] theorem State.putDie_net (k : Nat) (v : Die) (j : Nat) : (s.putDie k v).net j = s.net j := rfl
@[simp] theorem State.putDie_sess (k : Nat) (v : Die) (j : Nat) : (s.putDie k v).sess j = s.sess j := rfl
@[simp] theorem State.putDie_crierSrc (k : Nat) (v : Die) (j : Nat) : (s.putDie k v).crierSrc j = s.crierSrc j := rfl
@[simp] theorem State.putDie_img (k : Nat) (v : Die) (j : Nat) : (s.putDie k v).img j = s.img j := rfl
@[simp] theorem State.putDie_sap (k : Nat) (v : Die) (j : Nat) : (s.putDie k v).sap j = s.sap j := rfl
@[simp] theorem State.putDie_park (k : Nat) (v : Die) (j : Nat) : (s.putDie k v).park j = s.park j := rfl
@[simp] theorem State.putDie_lib (k : Nat) (v : Die) (j : Nat) : (s.putDie k v).lib j = s.lib j := rfl
@[simp] theorem State.putDie_flashCh (k : Nat) (v : Die) (j : Nat) : (s.putDie k v).flashCh j = s.flashCh j := rfl

/-! ## putNet -/

@[simp] theorem State.putNet_pending (k : Nat) (v : NetPort) : (s.putNet k v).pending = s.pending := rfl
@[simp] theorem State.putNet_now (k : Nat) (v : NetPort) : (s.putNet k v).now = s.now := rfl
@[simp] theorem State.putNet_stamp (k : Nat) (v : NetPort) : (s.putNet k v).stamp = s.stamp := rfl
@[simp] theorem State.putNet_free (k : Nat) (v : NetPort) : (s.putNet k v).free = s.free := rfl
@[simp] theorem State.putNet_power (k : Nat) (v : NetPort) : (s.putNet k v).power = s.power := rfl
@[simp] theorem State.putNet_streams (k : Nat) (v : NetPort) : (s.putNet k v).streams = s.streams := rfl
@[simp] theorem State.putNet_egress (k : Nat) (v : NetPort) : (s.putNet k v).egress = s.egress := rfl
@[simp] theorem State.putNet_journals (k : Nat) (v : NetPort) : (s.putNet k v).journals = s.journals := rfl
@[simp] theorem State.putNet_stalls (k : Nat) (v : NetPort) : (s.putNet k v).stalls = s.stalls := rfl
@[simp] theorem State.putNet_voices (k : Nat) (v : NetPort) : (s.putNet k v).voices = s.voices := rfl
@[simp] theorem State.putNet_bases (k : Nat) (v : NetPort) : (s.putNet k v).bases = s.bases := rfl
@[simp] theorem State.putNet_rows (k : Nat) (v : NetPort) : (s.putNet k v).rows = s.rows := rfl
@[simp] theorem State.putNet_presses (k : Nat) (v : NetPort) : (s.putNet k v).presses = s.presses := rfl
@[simp] theorem State.putNet_stages (k : Nat) (v : NetPort) : (s.putNet k v).stages = s.stages := rfl
@[simp] theorem State.putNet_rings (k : Nat) (v : NetPort) : (s.putNet k v).rings = s.rings := rfl
@[simp] theorem State.putNet_recUnits (k : Nat) (v : NetPort) : (s.putNet k v).recUnits = s.recUnits := rfl
@[simp] theorem State.putNet_engines (k : Nat) (v : NetPort) : (s.putNet k v).engines = s.engines := rfl
@[simp] theorem State.putNet_channels (k : Nat) (v : NetPort) : (s.putNet k v).channels = s.channels := rfl
@[simp] theorem State.putNet_dies (k : Nat) (v : NetPort) : (s.putNet k v).dies = s.dies := rfl
@[simp] theorem State.putNet_mem (k : Nat) (v : NetPort) : (s.putNet k v).mem = s.mem := rfl
@[simp] theorem State.putNet_heldMoves (k : Nat) (v : NetPort) : (s.putNet k v).heldMoves = s.heldMoves := rfl
@[simp] theorem State.putNet_sessions (k : Nat) (v : NetPort) : (s.putNet k v).sessions = s.sessions := rfl
@[simp] theorem State.putNet_vct (k : Nat) (v : NetPort) : (s.putNet k v).vct = s.vct := rfl
@[simp] theorem State.putNet_criers (k : Nat) (v : NetPort) : (s.putNet k v).criers = s.criers := rfl
@[simp] theorem State.putNet_clerk (k : Nat) (v : NetPort) : (s.putNet k v).clerk = s.clerk := rfl
@[simp] theorem State.putNet_exports (k : Nat) (v : NetPort) : (s.putNet k v).exports = s.exports := rfl
@[simp] theorem State.putNet_flash (k : Nat) (v : NetPort) : (s.putNet k v).flash = s.flash := rfl
@[simp] theorem State.putNet_fw (k : Nat) (v : NetPort) : (s.putNet k v).fw = s.fw := rfl
@[simp] theorem State.putNet_sec (k : Nat) (v : NetPort) : (s.putNet k v).sec = s.sec := rfl
@[simp] theorem State.putNet_saps (k : Nat) (v : NetPort) : (s.putNet k v).saps = s.saps := rfl
@[simp] theorem State.putNet_clk (k : Nat) (v : NetPort) : (s.putNet k v).clk = s.clk := rfl
@[simp] theorem State.putNet_jtag (k : Nat) (v : NetPort) : (s.putNet k v).jtag = s.jtag := rfl
@[simp] theorem State.putNet_sent (k : Nat) (v : NetPort) : (s.putNet k v).sent = s.sent := rfl
@[simp] theorem State.putNet_stream (k : Nat) (v : NetPort) (j : Nat) : (s.putNet k v).stream j = s.stream j := rfl
@[simp] theorem State.putNet_egr (k : Nat) (v : NetPort) (j : Nat) : (s.putNet k v).egr j = s.egr j := rfl
@[simp] theorem State.putNet_journal (k : Nat) (v : NetPort) (j : Nat) : (s.putNet k v).journal j = s.journal j := rfl
@[simp] theorem State.putNet_stall (k : Nat) (v : NetPort) (j : Nat) : (s.putNet k v).stall j = s.stall j := rfl
@[simp] theorem State.putNet_voice (k : Nat) (v : NetPort) (j : Nat) : (s.putNet k v).voice j = s.voice j := rfl
@[simp] theorem State.putNet_base (k : Nat) (v : NetPort) (j : Nat) : (s.putNet k v).base j = s.base j := rfl
@[simp] theorem State.putNet_row (k : Nat) (v : NetPort) (j : Nat) : (s.putNet k v).row j = s.row j := rfl
@[simp] theorem State.putNet_press (k : Nat) (v : NetPort) (j : Nat) : (s.putNet k v).press j = s.press j := rfl
@[simp] theorem State.putNet_stage (k : Nat) (v : NetPort) (j : Nat) : (s.putNet k v).stage j = s.stage j := rfl
@[simp] theorem State.putNet_recUnit (k : Nat) (v : NetPort) (j : Nat) : (s.putNet k v).recUnit j = s.recUnit j := rfl
@[simp] theorem State.putNet_engine (k : Nat) (v : NetPort) (j : Nat) : (s.putNet k v).engine j = s.engine j := rfl
@[simp] theorem State.putNet_channel (k : Nat) (v : NetPort) (j : Nat) : (s.putNet k v).channel j = s.channel j := rfl
@[simp] theorem State.putNet_die (k : Nat) (v : NetPort) (j : Nat) : (s.putNet k v).die j = s.die j := rfl
@[simp] theorem State.putNet_net (k : Nat) (v : NetPort) (j : Nat) : (s.putNet k v).net j = if j = k then v else s.net j :=
  tget_tset ..
@[simp] theorem State.putNet_sess (k : Nat) (v : NetPort) (j : Nat) : (s.putNet k v).sess j = s.sess j := rfl
@[simp] theorem State.putNet_crierSrc (k : Nat) (v : NetPort) (j : Nat) : (s.putNet k v).crierSrc j = s.crierSrc j := rfl
@[simp] theorem State.putNet_img (k : Nat) (v : NetPort) (j : Nat) : (s.putNet k v).img j = s.img j := rfl
@[simp] theorem State.putNet_sap (k : Nat) (v : NetPort) (j : Nat) : (s.putNet k v).sap j = s.sap j := rfl
@[simp] theorem State.putNet_park (k : Nat) (v : NetPort) (j : Nat) : (s.putNet k v).park j = s.park j := rfl
@[simp] theorem State.putNet_lib (k : Nat) (v : NetPort) (j : Nat) : (s.putNet k v).lib j = s.lib j := rfl
@[simp] theorem State.putNet_flashCh (k : Nat) (v : NetPort) (j : Nat) : (s.putNet k v).flashCh j = s.flashCh j := rfl

/-! ## putSess -/

@[simp] theorem State.putSess_pending (k : Nat) (v : Session) : (s.putSess k v).pending = s.pending := rfl
@[simp] theorem State.putSess_now (k : Nat) (v : Session) : (s.putSess k v).now = s.now := rfl
@[simp] theorem State.putSess_stamp (k : Nat) (v : Session) : (s.putSess k v).stamp = s.stamp := rfl
@[simp] theorem State.putSess_free (k : Nat) (v : Session) : (s.putSess k v).free = s.free := rfl
@[simp] theorem State.putSess_power (k : Nat) (v : Session) : (s.putSess k v).power = s.power := rfl
@[simp] theorem State.putSess_streams (k : Nat) (v : Session) : (s.putSess k v).streams = s.streams := rfl
@[simp] theorem State.putSess_egress (k : Nat) (v : Session) : (s.putSess k v).egress = s.egress := rfl
@[simp] theorem State.putSess_journals (k : Nat) (v : Session) : (s.putSess k v).journals = s.journals := rfl
@[simp] theorem State.putSess_stalls (k : Nat) (v : Session) : (s.putSess k v).stalls = s.stalls := rfl
@[simp] theorem State.putSess_voices (k : Nat) (v : Session) : (s.putSess k v).voices = s.voices := rfl
@[simp] theorem State.putSess_bases (k : Nat) (v : Session) : (s.putSess k v).bases = s.bases := rfl
@[simp] theorem State.putSess_rows (k : Nat) (v : Session) : (s.putSess k v).rows = s.rows := rfl
@[simp] theorem State.putSess_presses (k : Nat) (v : Session) : (s.putSess k v).presses = s.presses := rfl
@[simp] theorem State.putSess_stages (k : Nat) (v : Session) : (s.putSess k v).stages = s.stages := rfl
@[simp] theorem State.putSess_rings (k : Nat) (v : Session) : (s.putSess k v).rings = s.rings := rfl
@[simp] theorem State.putSess_recUnits (k : Nat) (v : Session) : (s.putSess k v).recUnits = s.recUnits := rfl
@[simp] theorem State.putSess_engines (k : Nat) (v : Session) : (s.putSess k v).engines = s.engines := rfl
@[simp] theorem State.putSess_channels (k : Nat) (v : Session) : (s.putSess k v).channels = s.channels := rfl
@[simp] theorem State.putSess_dies (k : Nat) (v : Session) : (s.putSess k v).dies = s.dies := rfl
@[simp] theorem State.putSess_mem (k : Nat) (v : Session) : (s.putSess k v).mem = s.mem := rfl
@[simp] theorem State.putSess_heldMoves (k : Nat) (v : Session) : (s.putSess k v).heldMoves = s.heldMoves := rfl
@[simp] theorem State.putSess_nets (k : Nat) (v : Session) : (s.putSess k v).nets = s.nets := rfl
@[simp] theorem State.putSess_vct (k : Nat) (v : Session) : (s.putSess k v).vct = s.vct := rfl
@[simp] theorem State.putSess_criers (k : Nat) (v : Session) : (s.putSess k v).criers = s.criers := rfl
@[simp] theorem State.putSess_clerk (k : Nat) (v : Session) : (s.putSess k v).clerk = s.clerk := rfl
@[simp] theorem State.putSess_exports (k : Nat) (v : Session) : (s.putSess k v).exports = s.exports := rfl
@[simp] theorem State.putSess_flash (k : Nat) (v : Session) : (s.putSess k v).flash = s.flash := rfl
@[simp] theorem State.putSess_fw (k : Nat) (v : Session) : (s.putSess k v).fw = s.fw := rfl
@[simp] theorem State.putSess_sec (k : Nat) (v : Session) : (s.putSess k v).sec = s.sec := rfl
@[simp] theorem State.putSess_saps (k : Nat) (v : Session) : (s.putSess k v).saps = s.saps := rfl
@[simp] theorem State.putSess_clk (k : Nat) (v : Session) : (s.putSess k v).clk = s.clk := rfl
@[simp] theorem State.putSess_jtag (k : Nat) (v : Session) : (s.putSess k v).jtag = s.jtag := rfl
@[simp] theorem State.putSess_sent (k : Nat) (v : Session) : (s.putSess k v).sent = s.sent := rfl
@[simp] theorem State.putSess_stream (k : Nat) (v : Session) (j : Nat) : (s.putSess k v).stream j = s.stream j := rfl
@[simp] theorem State.putSess_egr (k : Nat) (v : Session) (j : Nat) : (s.putSess k v).egr j = s.egr j := rfl
@[simp] theorem State.putSess_journal (k : Nat) (v : Session) (j : Nat) : (s.putSess k v).journal j = s.journal j := rfl
@[simp] theorem State.putSess_stall (k : Nat) (v : Session) (j : Nat) : (s.putSess k v).stall j = s.stall j := rfl
@[simp] theorem State.putSess_voice (k : Nat) (v : Session) (j : Nat) : (s.putSess k v).voice j = s.voice j := rfl
@[simp] theorem State.putSess_base (k : Nat) (v : Session) (j : Nat) : (s.putSess k v).base j = s.base j := rfl
@[simp] theorem State.putSess_row (k : Nat) (v : Session) (j : Nat) : (s.putSess k v).row j = s.row j := rfl
@[simp] theorem State.putSess_press (k : Nat) (v : Session) (j : Nat) : (s.putSess k v).press j = s.press j := rfl
@[simp] theorem State.putSess_stage (k : Nat) (v : Session) (j : Nat) : (s.putSess k v).stage j = s.stage j := rfl
@[simp] theorem State.putSess_recUnit (k : Nat) (v : Session) (j : Nat) : (s.putSess k v).recUnit j = s.recUnit j := rfl
@[simp] theorem State.putSess_engine (k : Nat) (v : Session) (j : Nat) : (s.putSess k v).engine j = s.engine j := rfl
@[simp] theorem State.putSess_channel (k : Nat) (v : Session) (j : Nat) : (s.putSess k v).channel j = s.channel j := rfl
@[simp] theorem State.putSess_die (k : Nat) (v : Session) (j : Nat) : (s.putSess k v).die j = s.die j := rfl
@[simp] theorem State.putSess_net (k : Nat) (v : Session) (j : Nat) : (s.putSess k v).net j = s.net j := rfl
@[simp] theorem State.putSess_sess (k : Nat) (v : Session) (j : Nat) : (s.putSess k v).sess j = if j = k then v else s.sess j :=
  tget_tset ..
@[simp] theorem State.putSess_crierSrc (k : Nat) (v : Session) (j : Nat) : (s.putSess k v).crierSrc j = s.crierSrc j := rfl
@[simp] theorem State.putSess_img (k : Nat) (v : Session) (j : Nat) : (s.putSess k v).img j = s.img j := rfl
@[simp] theorem State.putSess_sap (k : Nat) (v : Session) (j : Nat) : (s.putSess k v).sap j = s.sap j := rfl
@[simp] theorem State.putSess_park (k : Nat) (v : Session) (j : Nat) : (s.putSess k v).park j = s.park j := rfl
@[simp] theorem State.putSess_lib (k : Nat) (v : Session) (j : Nat) : (s.putSess k v).lib j = s.lib j := rfl
@[simp] theorem State.putSess_flashCh (k : Nat) (v : Session) (j : Nat) : (s.putSess k v).flashCh j = s.flashCh j := rfl

/-! ## putCrierSrc -/

@[simp] theorem State.putCrierSrc_pending (k : Nat) (v : CrierSrc) : (s.putCrierSrc k v).pending = s.pending := rfl
@[simp] theorem State.putCrierSrc_now (k : Nat) (v : CrierSrc) : (s.putCrierSrc k v).now = s.now := rfl
@[simp] theorem State.putCrierSrc_stamp (k : Nat) (v : CrierSrc) : (s.putCrierSrc k v).stamp = s.stamp := rfl
@[simp] theorem State.putCrierSrc_free (k : Nat) (v : CrierSrc) : (s.putCrierSrc k v).free = s.free := rfl
@[simp] theorem State.putCrierSrc_power (k : Nat) (v : CrierSrc) : (s.putCrierSrc k v).power = s.power := rfl
@[simp] theorem State.putCrierSrc_streams (k : Nat) (v : CrierSrc) : (s.putCrierSrc k v).streams = s.streams := rfl
@[simp] theorem State.putCrierSrc_egress (k : Nat) (v : CrierSrc) : (s.putCrierSrc k v).egress = s.egress := rfl
@[simp] theorem State.putCrierSrc_journals (k : Nat) (v : CrierSrc) : (s.putCrierSrc k v).journals = s.journals := rfl
@[simp] theorem State.putCrierSrc_stalls (k : Nat) (v : CrierSrc) : (s.putCrierSrc k v).stalls = s.stalls := rfl
@[simp] theorem State.putCrierSrc_voices (k : Nat) (v : CrierSrc) : (s.putCrierSrc k v).voices = s.voices := rfl
@[simp] theorem State.putCrierSrc_bases (k : Nat) (v : CrierSrc) : (s.putCrierSrc k v).bases = s.bases := rfl
@[simp] theorem State.putCrierSrc_rows (k : Nat) (v : CrierSrc) : (s.putCrierSrc k v).rows = s.rows := rfl
@[simp] theorem State.putCrierSrc_presses (k : Nat) (v : CrierSrc) : (s.putCrierSrc k v).presses = s.presses := rfl
@[simp] theorem State.putCrierSrc_stages (k : Nat) (v : CrierSrc) : (s.putCrierSrc k v).stages = s.stages := rfl
@[simp] theorem State.putCrierSrc_rings (k : Nat) (v : CrierSrc) : (s.putCrierSrc k v).rings = s.rings := rfl
@[simp] theorem State.putCrierSrc_recUnits (k : Nat) (v : CrierSrc) : (s.putCrierSrc k v).recUnits = s.recUnits := rfl
@[simp] theorem State.putCrierSrc_engines (k : Nat) (v : CrierSrc) : (s.putCrierSrc k v).engines = s.engines := rfl
@[simp] theorem State.putCrierSrc_channels (k : Nat) (v : CrierSrc) : (s.putCrierSrc k v).channels = s.channels := rfl
@[simp] theorem State.putCrierSrc_dies (k : Nat) (v : CrierSrc) : (s.putCrierSrc k v).dies = s.dies := rfl
@[simp] theorem State.putCrierSrc_mem (k : Nat) (v : CrierSrc) : (s.putCrierSrc k v).mem = s.mem := rfl
@[simp] theorem State.putCrierSrc_heldMoves (k : Nat) (v : CrierSrc) : (s.putCrierSrc k v).heldMoves = s.heldMoves := rfl
@[simp] theorem State.putCrierSrc_nets (k : Nat) (v : CrierSrc) : (s.putCrierSrc k v).nets = s.nets := rfl
@[simp] theorem State.putCrierSrc_sessions (k : Nat) (v : CrierSrc) : (s.putCrierSrc k v).sessions = s.sessions := rfl
@[simp] theorem State.putCrierSrc_vct (k : Nat) (v : CrierSrc) : (s.putCrierSrc k v).vct = s.vct := rfl
@[simp] theorem State.putCrierSrc_clerk (k : Nat) (v : CrierSrc) : (s.putCrierSrc k v).clerk = s.clerk := rfl
@[simp] theorem State.putCrierSrc_exports (k : Nat) (v : CrierSrc) : (s.putCrierSrc k v).exports = s.exports := rfl
@[simp] theorem State.putCrierSrc_flash (k : Nat) (v : CrierSrc) : (s.putCrierSrc k v).flash = s.flash := rfl
@[simp] theorem State.putCrierSrc_fw (k : Nat) (v : CrierSrc) : (s.putCrierSrc k v).fw = s.fw := rfl
@[simp] theorem State.putCrierSrc_sec (k : Nat) (v : CrierSrc) : (s.putCrierSrc k v).sec = s.sec := rfl
@[simp] theorem State.putCrierSrc_saps (k : Nat) (v : CrierSrc) : (s.putCrierSrc k v).saps = s.saps := rfl
@[simp] theorem State.putCrierSrc_clk (k : Nat) (v : CrierSrc) : (s.putCrierSrc k v).clk = s.clk := rfl
@[simp] theorem State.putCrierSrc_jtag (k : Nat) (v : CrierSrc) : (s.putCrierSrc k v).jtag = s.jtag := rfl
@[simp] theorem State.putCrierSrc_sent (k : Nat) (v : CrierSrc) : (s.putCrierSrc k v).sent = s.sent := rfl
@[simp] theorem State.putCrierSrc_stream (k : Nat) (v : CrierSrc) (j : Nat) : (s.putCrierSrc k v).stream j = s.stream j := rfl
@[simp] theorem State.putCrierSrc_egr (k : Nat) (v : CrierSrc) (j : Nat) : (s.putCrierSrc k v).egr j = s.egr j := rfl
@[simp] theorem State.putCrierSrc_journal (k : Nat) (v : CrierSrc) (j : Nat) : (s.putCrierSrc k v).journal j = s.journal j := rfl
@[simp] theorem State.putCrierSrc_stall (k : Nat) (v : CrierSrc) (j : Nat) : (s.putCrierSrc k v).stall j = s.stall j := rfl
@[simp] theorem State.putCrierSrc_voice (k : Nat) (v : CrierSrc) (j : Nat) : (s.putCrierSrc k v).voice j = s.voice j := rfl
@[simp] theorem State.putCrierSrc_base (k : Nat) (v : CrierSrc) (j : Nat) : (s.putCrierSrc k v).base j = s.base j := rfl
@[simp] theorem State.putCrierSrc_row (k : Nat) (v : CrierSrc) (j : Nat) : (s.putCrierSrc k v).row j = s.row j := rfl
@[simp] theorem State.putCrierSrc_press (k : Nat) (v : CrierSrc) (j : Nat) : (s.putCrierSrc k v).press j = s.press j := rfl
@[simp] theorem State.putCrierSrc_stage (k : Nat) (v : CrierSrc) (j : Nat) : (s.putCrierSrc k v).stage j = s.stage j := rfl
@[simp] theorem State.putCrierSrc_recUnit (k : Nat) (v : CrierSrc) (j : Nat) : (s.putCrierSrc k v).recUnit j = s.recUnit j := rfl
@[simp] theorem State.putCrierSrc_engine (k : Nat) (v : CrierSrc) (j : Nat) : (s.putCrierSrc k v).engine j = s.engine j := rfl
@[simp] theorem State.putCrierSrc_channel (k : Nat) (v : CrierSrc) (j : Nat) : (s.putCrierSrc k v).channel j = s.channel j := rfl
@[simp] theorem State.putCrierSrc_die (k : Nat) (v : CrierSrc) (j : Nat) : (s.putCrierSrc k v).die j = s.die j := rfl
@[simp] theorem State.putCrierSrc_net (k : Nat) (v : CrierSrc) (j : Nat) : (s.putCrierSrc k v).net j = s.net j := rfl
@[simp] theorem State.putCrierSrc_sess (k : Nat) (v : CrierSrc) (j : Nat) : (s.putCrierSrc k v).sess j = s.sess j := rfl
@[simp] theorem State.putCrierSrc_crierSrc (k : Nat) (v : CrierSrc) (j : Nat) : (s.putCrierSrc k v).crierSrc j = if j = k then v else s.crierSrc j :=
  tget_tset ..
@[simp] theorem State.putCrierSrc_img (k : Nat) (v : CrierSrc) (j : Nat) : (s.putCrierSrc k v).img j = s.img j := rfl
@[simp] theorem State.putCrierSrc_sap (k : Nat) (v : CrierSrc) (j : Nat) : (s.putCrierSrc k v).sap j = s.sap j := rfl
@[simp] theorem State.putCrierSrc_park (k : Nat) (v : CrierSrc) (j : Nat) : (s.putCrierSrc k v).park j = s.park j := rfl
@[simp] theorem State.putCrierSrc_lib (k : Nat) (v : CrierSrc) (j : Nat) : (s.putCrierSrc k v).lib j = s.lib j := rfl
@[simp] theorem State.putCrierSrc_flashCh (k : Nat) (v : CrierSrc) (j : Nat) : (s.putCrierSrc k v).flashCh j = s.flashCh j := rfl

/-! ## putImg -/

@[simp] theorem State.putImg_pending (k : Nat) (v : ExportImg) : (s.putImg k v).pending = s.pending := rfl
@[simp] theorem State.putImg_now (k : Nat) (v : ExportImg) : (s.putImg k v).now = s.now := rfl
@[simp] theorem State.putImg_stamp (k : Nat) (v : ExportImg) : (s.putImg k v).stamp = s.stamp := rfl
@[simp] theorem State.putImg_free (k : Nat) (v : ExportImg) : (s.putImg k v).free = s.free := rfl
@[simp] theorem State.putImg_power (k : Nat) (v : ExportImg) : (s.putImg k v).power = s.power := rfl
@[simp] theorem State.putImg_streams (k : Nat) (v : ExportImg) : (s.putImg k v).streams = s.streams := rfl
@[simp] theorem State.putImg_egress (k : Nat) (v : ExportImg) : (s.putImg k v).egress = s.egress := rfl
@[simp] theorem State.putImg_journals (k : Nat) (v : ExportImg) : (s.putImg k v).journals = s.journals := rfl
@[simp] theorem State.putImg_stalls (k : Nat) (v : ExportImg) : (s.putImg k v).stalls = s.stalls := rfl
@[simp] theorem State.putImg_voices (k : Nat) (v : ExportImg) : (s.putImg k v).voices = s.voices := rfl
@[simp] theorem State.putImg_bases (k : Nat) (v : ExportImg) : (s.putImg k v).bases = s.bases := rfl
@[simp] theorem State.putImg_rows (k : Nat) (v : ExportImg) : (s.putImg k v).rows = s.rows := rfl
@[simp] theorem State.putImg_presses (k : Nat) (v : ExportImg) : (s.putImg k v).presses = s.presses := rfl
@[simp] theorem State.putImg_stages (k : Nat) (v : ExportImg) : (s.putImg k v).stages = s.stages := rfl
@[simp] theorem State.putImg_rings (k : Nat) (v : ExportImg) : (s.putImg k v).rings = s.rings := rfl
@[simp] theorem State.putImg_recUnits (k : Nat) (v : ExportImg) : (s.putImg k v).recUnits = s.recUnits := rfl
@[simp] theorem State.putImg_engines (k : Nat) (v : ExportImg) : (s.putImg k v).engines = s.engines := rfl
@[simp] theorem State.putImg_channels (k : Nat) (v : ExportImg) : (s.putImg k v).channels = s.channels := rfl
@[simp] theorem State.putImg_dies (k : Nat) (v : ExportImg) : (s.putImg k v).dies = s.dies := rfl
@[simp] theorem State.putImg_mem (k : Nat) (v : ExportImg) : (s.putImg k v).mem = s.mem := rfl
@[simp] theorem State.putImg_heldMoves (k : Nat) (v : ExportImg) : (s.putImg k v).heldMoves = s.heldMoves := rfl
@[simp] theorem State.putImg_nets (k : Nat) (v : ExportImg) : (s.putImg k v).nets = s.nets := rfl
@[simp] theorem State.putImg_sessions (k : Nat) (v : ExportImg) : (s.putImg k v).sessions = s.sessions := rfl
@[simp] theorem State.putImg_vct (k : Nat) (v : ExportImg) : (s.putImg k v).vct = s.vct := rfl
@[simp] theorem State.putImg_criers (k : Nat) (v : ExportImg) : (s.putImg k v).criers = s.criers := rfl
@[simp] theorem State.putImg_clerk (k : Nat) (v : ExportImg) : (s.putImg k v).clerk = s.clerk := rfl
@[simp] theorem State.putImg_flash (k : Nat) (v : ExportImg) : (s.putImg k v).flash = s.flash := rfl
@[simp] theorem State.putImg_fw (k : Nat) (v : ExportImg) : (s.putImg k v).fw = s.fw := rfl
@[simp] theorem State.putImg_sec (k : Nat) (v : ExportImg) : (s.putImg k v).sec = s.sec := rfl
@[simp] theorem State.putImg_saps (k : Nat) (v : ExportImg) : (s.putImg k v).saps = s.saps := rfl
@[simp] theorem State.putImg_clk (k : Nat) (v : ExportImg) : (s.putImg k v).clk = s.clk := rfl
@[simp] theorem State.putImg_jtag (k : Nat) (v : ExportImg) : (s.putImg k v).jtag = s.jtag := rfl
@[simp] theorem State.putImg_sent (k : Nat) (v : ExportImg) : (s.putImg k v).sent = s.sent := rfl
@[simp] theorem State.putImg_stream (k : Nat) (v : ExportImg) (j : Nat) : (s.putImg k v).stream j = s.stream j := rfl
@[simp] theorem State.putImg_egr (k : Nat) (v : ExportImg) (j : Nat) : (s.putImg k v).egr j = s.egr j := rfl
@[simp] theorem State.putImg_journal (k : Nat) (v : ExportImg) (j : Nat) : (s.putImg k v).journal j = s.journal j := rfl
@[simp] theorem State.putImg_stall (k : Nat) (v : ExportImg) (j : Nat) : (s.putImg k v).stall j = s.stall j := rfl
@[simp] theorem State.putImg_voice (k : Nat) (v : ExportImg) (j : Nat) : (s.putImg k v).voice j = s.voice j := rfl
@[simp] theorem State.putImg_base (k : Nat) (v : ExportImg) (j : Nat) : (s.putImg k v).base j = s.base j := rfl
@[simp] theorem State.putImg_row (k : Nat) (v : ExportImg) (j : Nat) : (s.putImg k v).row j = s.row j := rfl
@[simp] theorem State.putImg_press (k : Nat) (v : ExportImg) (j : Nat) : (s.putImg k v).press j = s.press j := rfl
@[simp] theorem State.putImg_stage (k : Nat) (v : ExportImg) (j : Nat) : (s.putImg k v).stage j = s.stage j := rfl
@[simp] theorem State.putImg_recUnit (k : Nat) (v : ExportImg) (j : Nat) : (s.putImg k v).recUnit j = s.recUnit j := rfl
@[simp] theorem State.putImg_engine (k : Nat) (v : ExportImg) (j : Nat) : (s.putImg k v).engine j = s.engine j := rfl
@[simp] theorem State.putImg_channel (k : Nat) (v : ExportImg) (j : Nat) : (s.putImg k v).channel j = s.channel j := rfl
@[simp] theorem State.putImg_die (k : Nat) (v : ExportImg) (j : Nat) : (s.putImg k v).die j = s.die j := rfl
@[simp] theorem State.putImg_net (k : Nat) (v : ExportImg) (j : Nat) : (s.putImg k v).net j = s.net j := rfl
@[simp] theorem State.putImg_sess (k : Nat) (v : ExportImg) (j : Nat) : (s.putImg k v).sess j = s.sess j := rfl
@[simp] theorem State.putImg_crierSrc (k : Nat) (v : ExportImg) (j : Nat) : (s.putImg k v).crierSrc j = s.crierSrc j := rfl
@[simp] theorem State.putImg_img (k : Nat) (v : ExportImg) (j : Nat) : (s.putImg k v).img j = if j = k then v else s.img j :=
  tget_tset ..
@[simp] theorem State.putImg_sap (k : Nat) (v : ExportImg) (j : Nat) : (s.putImg k v).sap j = s.sap j := rfl
@[simp] theorem State.putImg_park (k : Nat) (v : ExportImg) (j : Nat) : (s.putImg k v).park j = s.park j := rfl
@[simp] theorem State.putImg_lib (k : Nat) (v : ExportImg) (j : Nat) : (s.putImg k v).lib j = s.lib j := rfl
@[simp] theorem State.putImg_flashCh (k : Nat) (v : ExportImg) (j : Nat) : (s.putImg k v).flashCh j = s.flashCh j := rfl

/-! ## putSap -/

@[simp] theorem State.putSap_pending (k : Nat) (v : Sap) : (s.putSap k v).pending = s.pending := rfl
@[simp] theorem State.putSap_now (k : Nat) (v : Sap) : (s.putSap k v).now = s.now := rfl
@[simp] theorem State.putSap_stamp (k : Nat) (v : Sap) : (s.putSap k v).stamp = s.stamp := rfl
@[simp] theorem State.putSap_free (k : Nat) (v : Sap) : (s.putSap k v).free = s.free := rfl
@[simp] theorem State.putSap_power (k : Nat) (v : Sap) : (s.putSap k v).power = s.power := rfl
@[simp] theorem State.putSap_streams (k : Nat) (v : Sap) : (s.putSap k v).streams = s.streams := rfl
@[simp] theorem State.putSap_egress (k : Nat) (v : Sap) : (s.putSap k v).egress = s.egress := rfl
@[simp] theorem State.putSap_journals (k : Nat) (v : Sap) : (s.putSap k v).journals = s.journals := rfl
@[simp] theorem State.putSap_stalls (k : Nat) (v : Sap) : (s.putSap k v).stalls = s.stalls := rfl
@[simp] theorem State.putSap_voices (k : Nat) (v : Sap) : (s.putSap k v).voices = s.voices := rfl
@[simp] theorem State.putSap_bases (k : Nat) (v : Sap) : (s.putSap k v).bases = s.bases := rfl
@[simp] theorem State.putSap_rows (k : Nat) (v : Sap) : (s.putSap k v).rows = s.rows := rfl
@[simp] theorem State.putSap_presses (k : Nat) (v : Sap) : (s.putSap k v).presses = s.presses := rfl
@[simp] theorem State.putSap_stages (k : Nat) (v : Sap) : (s.putSap k v).stages = s.stages := rfl
@[simp] theorem State.putSap_rings (k : Nat) (v : Sap) : (s.putSap k v).rings = s.rings := rfl
@[simp] theorem State.putSap_recUnits (k : Nat) (v : Sap) : (s.putSap k v).recUnits = s.recUnits := rfl
@[simp] theorem State.putSap_engines (k : Nat) (v : Sap) : (s.putSap k v).engines = s.engines := rfl
@[simp] theorem State.putSap_channels (k : Nat) (v : Sap) : (s.putSap k v).channels = s.channels := rfl
@[simp] theorem State.putSap_dies (k : Nat) (v : Sap) : (s.putSap k v).dies = s.dies := rfl
@[simp] theorem State.putSap_mem (k : Nat) (v : Sap) : (s.putSap k v).mem = s.mem := rfl
@[simp] theorem State.putSap_heldMoves (k : Nat) (v : Sap) : (s.putSap k v).heldMoves = s.heldMoves := rfl
@[simp] theorem State.putSap_nets (k : Nat) (v : Sap) : (s.putSap k v).nets = s.nets := rfl
@[simp] theorem State.putSap_sessions (k : Nat) (v : Sap) : (s.putSap k v).sessions = s.sessions := rfl
@[simp] theorem State.putSap_vct (k : Nat) (v : Sap) : (s.putSap k v).vct = s.vct := rfl
@[simp] theorem State.putSap_criers (k : Nat) (v : Sap) : (s.putSap k v).criers = s.criers := rfl
@[simp] theorem State.putSap_clerk (k : Nat) (v : Sap) : (s.putSap k v).clerk = s.clerk := rfl
@[simp] theorem State.putSap_exports (k : Nat) (v : Sap) : (s.putSap k v).exports = s.exports := rfl
@[simp] theorem State.putSap_flash (k : Nat) (v : Sap) : (s.putSap k v).flash = s.flash := rfl
@[simp] theorem State.putSap_fw (k : Nat) (v : Sap) : (s.putSap k v).fw = s.fw := rfl
@[simp] theorem State.putSap_sec (k : Nat) (v : Sap) : (s.putSap k v).sec = s.sec := rfl
@[simp] theorem State.putSap_clk (k : Nat) (v : Sap) : (s.putSap k v).clk = s.clk := rfl
@[simp] theorem State.putSap_jtag (k : Nat) (v : Sap) : (s.putSap k v).jtag = s.jtag := rfl
@[simp] theorem State.putSap_sent (k : Nat) (v : Sap) : (s.putSap k v).sent = s.sent := rfl
@[simp] theorem State.putSap_stream (k : Nat) (v : Sap) (j : Nat) : (s.putSap k v).stream j = s.stream j := rfl
@[simp] theorem State.putSap_egr (k : Nat) (v : Sap) (j : Nat) : (s.putSap k v).egr j = s.egr j := rfl
@[simp] theorem State.putSap_journal (k : Nat) (v : Sap) (j : Nat) : (s.putSap k v).journal j = s.journal j := rfl
@[simp] theorem State.putSap_stall (k : Nat) (v : Sap) (j : Nat) : (s.putSap k v).stall j = s.stall j := rfl
@[simp] theorem State.putSap_voice (k : Nat) (v : Sap) (j : Nat) : (s.putSap k v).voice j = s.voice j := rfl
@[simp] theorem State.putSap_base (k : Nat) (v : Sap) (j : Nat) : (s.putSap k v).base j = s.base j := rfl
@[simp] theorem State.putSap_row (k : Nat) (v : Sap) (j : Nat) : (s.putSap k v).row j = s.row j := rfl
@[simp] theorem State.putSap_press (k : Nat) (v : Sap) (j : Nat) : (s.putSap k v).press j = s.press j := rfl
@[simp] theorem State.putSap_stage (k : Nat) (v : Sap) (j : Nat) : (s.putSap k v).stage j = s.stage j := rfl
@[simp] theorem State.putSap_recUnit (k : Nat) (v : Sap) (j : Nat) : (s.putSap k v).recUnit j = s.recUnit j := rfl
@[simp] theorem State.putSap_engine (k : Nat) (v : Sap) (j : Nat) : (s.putSap k v).engine j = s.engine j := rfl
@[simp] theorem State.putSap_channel (k : Nat) (v : Sap) (j : Nat) : (s.putSap k v).channel j = s.channel j := rfl
@[simp] theorem State.putSap_die (k : Nat) (v : Sap) (j : Nat) : (s.putSap k v).die j = s.die j := rfl
@[simp] theorem State.putSap_net (k : Nat) (v : Sap) (j : Nat) : (s.putSap k v).net j = s.net j := rfl
@[simp] theorem State.putSap_sess (k : Nat) (v : Sap) (j : Nat) : (s.putSap k v).sess j = s.sess j := rfl
@[simp] theorem State.putSap_crierSrc (k : Nat) (v : Sap) (j : Nat) : (s.putSap k v).crierSrc j = s.crierSrc j := rfl
@[simp] theorem State.putSap_img (k : Nat) (v : Sap) (j : Nat) : (s.putSap k v).img j = s.img j := rfl
@[simp] theorem State.putSap_sap (k : Nat) (v : Sap) (j : Nat) : (s.putSap k v).sap j = if j = k then v else s.sap j :=
  tget_tset ..
@[simp] theorem State.putSap_park (k : Nat) (v : Sap) (j : Nat) : (s.putSap k v).park j = s.park j := rfl
@[simp] theorem State.putSap_lib (k : Nat) (v : Sap) (j : Nat) : (s.putSap k v).lib j = s.lib j := rfl
@[simp] theorem State.putSap_flashCh (k : Nat) (v : Sap) (j : Nat) : (s.putSap k v).flashCh j = s.flashCh j := rfl

/-! ## putPark -/

@[simp] theorem State.putPark_pending (k : Nat) (v : Park) : (s.putPark k v).pending = s.pending := rfl
@[simp] theorem State.putPark_now (k : Nat) (v : Park) : (s.putPark k v).now = s.now := rfl
@[simp] theorem State.putPark_stamp (k : Nat) (v : Park) : (s.putPark k v).stamp = s.stamp := rfl
@[simp] theorem State.putPark_free (k : Nat) (v : Park) : (s.putPark k v).free = s.free := rfl
@[simp] theorem State.putPark_power (k : Nat) (v : Park) : (s.putPark k v).power = s.power := rfl
@[simp] theorem State.putPark_streams (k : Nat) (v : Park) : (s.putPark k v).streams = s.streams := rfl
@[simp] theorem State.putPark_egress (k : Nat) (v : Park) : (s.putPark k v).egress = s.egress := rfl
@[simp] theorem State.putPark_journals (k : Nat) (v : Park) : (s.putPark k v).journals = s.journals := rfl
@[simp] theorem State.putPark_stalls (k : Nat) (v : Park) : (s.putPark k v).stalls = s.stalls := rfl
@[simp] theorem State.putPark_voices (k : Nat) (v : Park) : (s.putPark k v).voices = s.voices := rfl
@[simp] theorem State.putPark_bases (k : Nat) (v : Park) : (s.putPark k v).bases = s.bases := rfl
@[simp] theorem State.putPark_rows (k : Nat) (v : Park) : (s.putPark k v).rows = s.rows := rfl
@[simp] theorem State.putPark_presses (k : Nat) (v : Park) : (s.putPark k v).presses = s.presses := rfl
@[simp] theorem State.putPark_stages (k : Nat) (v : Park) : (s.putPark k v).stages = s.stages := rfl
@[simp] theorem State.putPark_rings (k : Nat) (v : Park) : (s.putPark k v).rings = s.rings := rfl
@[simp] theorem State.putPark_recUnits (k : Nat) (v : Park) : (s.putPark k v).recUnits = s.recUnits := rfl
@[simp] theorem State.putPark_engines (k : Nat) (v : Park) : (s.putPark k v).engines = s.engines := rfl
@[simp] theorem State.putPark_channels (k : Nat) (v : Park) : (s.putPark k v).channels = s.channels := rfl
@[simp] theorem State.putPark_dies (k : Nat) (v : Park) : (s.putPark k v).dies = s.dies := rfl
@[simp] theorem State.putPark_mem (k : Nat) (v : Park) : (s.putPark k v).mem = s.mem := rfl
@[simp] theorem State.putPark_heldMoves (k : Nat) (v : Park) : (s.putPark k v).heldMoves = s.heldMoves := rfl
@[simp] theorem State.putPark_nets (k : Nat) (v : Park) : (s.putPark k v).nets = s.nets := rfl
@[simp] theorem State.putPark_sessions (k : Nat) (v : Park) : (s.putPark k v).sessions = s.sessions := rfl
@[simp] theorem State.putPark_vct (k : Nat) (v : Park) : (s.putPark k v).vct = s.vct := rfl
@[simp] theorem State.putPark_criers (k : Nat) (v : Park) : (s.putPark k v).criers = s.criers := rfl
@[simp] theorem State.putPark_clerk (k : Nat) (v : Park) : (s.putPark k v).clerk = s.clerk := rfl
@[simp] theorem State.putPark_exports (k : Nat) (v : Park) : (s.putPark k v).exports = s.exports := rfl
@[simp] theorem State.putPark_fw (k : Nat) (v : Park) : (s.putPark k v).fw = s.fw := rfl
@[simp] theorem State.putPark_sec (k : Nat) (v : Park) : (s.putPark k v).sec = s.sec := rfl
@[simp] theorem State.putPark_saps (k : Nat) (v : Park) : (s.putPark k v).saps = s.saps := rfl
@[simp] theorem State.putPark_clk (k : Nat) (v : Park) : (s.putPark k v).clk = s.clk := rfl
@[simp] theorem State.putPark_jtag (k : Nat) (v : Park) : (s.putPark k v).jtag = s.jtag := rfl
@[simp] theorem State.putPark_sent (k : Nat) (v : Park) : (s.putPark k v).sent = s.sent := rfl
@[simp] theorem State.putPark_stream (k : Nat) (v : Park) (j : Nat) : (s.putPark k v).stream j = s.stream j := rfl
@[simp] theorem State.putPark_egr (k : Nat) (v : Park) (j : Nat) : (s.putPark k v).egr j = s.egr j := rfl
@[simp] theorem State.putPark_journal (k : Nat) (v : Park) (j : Nat) : (s.putPark k v).journal j = s.journal j := rfl
@[simp] theorem State.putPark_stall (k : Nat) (v : Park) (j : Nat) : (s.putPark k v).stall j = s.stall j := rfl
@[simp] theorem State.putPark_voice (k : Nat) (v : Park) (j : Nat) : (s.putPark k v).voice j = s.voice j := rfl
@[simp] theorem State.putPark_base (k : Nat) (v : Park) (j : Nat) : (s.putPark k v).base j = s.base j := rfl
@[simp] theorem State.putPark_row (k : Nat) (v : Park) (j : Nat) : (s.putPark k v).row j = s.row j := rfl
@[simp] theorem State.putPark_press (k : Nat) (v : Park) (j : Nat) : (s.putPark k v).press j = s.press j := rfl
@[simp] theorem State.putPark_stage (k : Nat) (v : Park) (j : Nat) : (s.putPark k v).stage j = s.stage j := rfl
@[simp] theorem State.putPark_recUnit (k : Nat) (v : Park) (j : Nat) : (s.putPark k v).recUnit j = s.recUnit j := rfl
@[simp] theorem State.putPark_engine (k : Nat) (v : Park) (j : Nat) : (s.putPark k v).engine j = s.engine j := rfl
@[simp] theorem State.putPark_channel (k : Nat) (v : Park) (j : Nat) : (s.putPark k v).channel j = s.channel j := rfl
@[simp] theorem State.putPark_die (k : Nat) (v : Park) (j : Nat) : (s.putPark k v).die j = s.die j := rfl
@[simp] theorem State.putPark_net (k : Nat) (v : Park) (j : Nat) : (s.putPark k v).net j = s.net j := rfl
@[simp] theorem State.putPark_sess (k : Nat) (v : Park) (j : Nat) : (s.putPark k v).sess j = s.sess j := rfl
@[simp] theorem State.putPark_crierSrc (k : Nat) (v : Park) (j : Nat) : (s.putPark k v).crierSrc j = s.crierSrc j := rfl
@[simp] theorem State.putPark_img (k : Nat) (v : Park) (j : Nat) : (s.putPark k v).img j = s.img j := rfl
@[simp] theorem State.putPark_sap (k : Nat) (v : Park) (j : Nat) : (s.putPark k v).sap j = s.sap j := rfl
@[simp] theorem State.putPark_park (k : Nat) (v : Park) (j : Nat) : (s.putPark k v).park j = if j = k then v else s.park j :=
  tget_tset ..
@[simp] theorem State.putPark_lib (k : Nat) (v : Park) (j : Nat) : (s.putPark k v).lib j = s.lib j := rfl
@[simp] theorem State.putPark_flashCh (k : Nat) (v : Park) (j : Nat) : (s.putPark k v).flashCh j = s.flashCh j := rfl

/-! ## putLib -/

@[simp] theorem State.putLib_pending (k : Nat) (v : LibEntry) : (s.putLib k v).pending = s.pending := rfl
@[simp] theorem State.putLib_now (k : Nat) (v : LibEntry) : (s.putLib k v).now = s.now := rfl
@[simp] theorem State.putLib_stamp (k : Nat) (v : LibEntry) : (s.putLib k v).stamp = s.stamp := rfl
@[simp] theorem State.putLib_free (k : Nat) (v : LibEntry) : (s.putLib k v).free = s.free := rfl
@[simp] theorem State.putLib_power (k : Nat) (v : LibEntry) : (s.putLib k v).power = s.power := rfl
@[simp] theorem State.putLib_streams (k : Nat) (v : LibEntry) : (s.putLib k v).streams = s.streams := rfl
@[simp] theorem State.putLib_egress (k : Nat) (v : LibEntry) : (s.putLib k v).egress = s.egress := rfl
@[simp] theorem State.putLib_journals (k : Nat) (v : LibEntry) : (s.putLib k v).journals = s.journals := rfl
@[simp] theorem State.putLib_stalls (k : Nat) (v : LibEntry) : (s.putLib k v).stalls = s.stalls := rfl
@[simp] theorem State.putLib_voices (k : Nat) (v : LibEntry) : (s.putLib k v).voices = s.voices := rfl
@[simp] theorem State.putLib_bases (k : Nat) (v : LibEntry) : (s.putLib k v).bases = s.bases := rfl
@[simp] theorem State.putLib_rows (k : Nat) (v : LibEntry) : (s.putLib k v).rows = s.rows := rfl
@[simp] theorem State.putLib_presses (k : Nat) (v : LibEntry) : (s.putLib k v).presses = s.presses := rfl
@[simp] theorem State.putLib_stages (k : Nat) (v : LibEntry) : (s.putLib k v).stages = s.stages := rfl
@[simp] theorem State.putLib_rings (k : Nat) (v : LibEntry) : (s.putLib k v).rings = s.rings := rfl
@[simp] theorem State.putLib_recUnits (k : Nat) (v : LibEntry) : (s.putLib k v).recUnits = s.recUnits := rfl
@[simp] theorem State.putLib_engines (k : Nat) (v : LibEntry) : (s.putLib k v).engines = s.engines := rfl
@[simp] theorem State.putLib_channels (k : Nat) (v : LibEntry) : (s.putLib k v).channels = s.channels := rfl
@[simp] theorem State.putLib_dies (k : Nat) (v : LibEntry) : (s.putLib k v).dies = s.dies := rfl
@[simp] theorem State.putLib_mem (k : Nat) (v : LibEntry) : (s.putLib k v).mem = s.mem := rfl
@[simp] theorem State.putLib_heldMoves (k : Nat) (v : LibEntry) : (s.putLib k v).heldMoves = s.heldMoves := rfl
@[simp] theorem State.putLib_nets (k : Nat) (v : LibEntry) : (s.putLib k v).nets = s.nets := rfl
@[simp] theorem State.putLib_sessions (k : Nat) (v : LibEntry) : (s.putLib k v).sessions = s.sessions := rfl
@[simp] theorem State.putLib_vct (k : Nat) (v : LibEntry) : (s.putLib k v).vct = s.vct := rfl
@[simp] theorem State.putLib_criers (k : Nat) (v : LibEntry) : (s.putLib k v).criers = s.criers := rfl
@[simp] theorem State.putLib_clerk (k : Nat) (v : LibEntry) : (s.putLib k v).clerk = s.clerk := rfl
@[simp] theorem State.putLib_exports (k : Nat) (v : LibEntry) : (s.putLib k v).exports = s.exports := rfl
@[simp] theorem State.putLib_fw (k : Nat) (v : LibEntry) : (s.putLib k v).fw = s.fw := rfl
@[simp] theorem State.putLib_sec (k : Nat) (v : LibEntry) : (s.putLib k v).sec = s.sec := rfl
@[simp] theorem State.putLib_saps (k : Nat) (v : LibEntry) : (s.putLib k v).saps = s.saps := rfl
@[simp] theorem State.putLib_clk (k : Nat) (v : LibEntry) : (s.putLib k v).clk = s.clk := rfl
@[simp] theorem State.putLib_jtag (k : Nat) (v : LibEntry) : (s.putLib k v).jtag = s.jtag := rfl
@[simp] theorem State.putLib_sent (k : Nat) (v : LibEntry) : (s.putLib k v).sent = s.sent := rfl
@[simp] theorem State.putLib_stream (k : Nat) (v : LibEntry) (j : Nat) : (s.putLib k v).stream j = s.stream j := rfl
@[simp] theorem State.putLib_egr (k : Nat) (v : LibEntry) (j : Nat) : (s.putLib k v).egr j = s.egr j := rfl
@[simp] theorem State.putLib_journal (k : Nat) (v : LibEntry) (j : Nat) : (s.putLib k v).journal j = s.journal j := rfl
@[simp] theorem State.putLib_stall (k : Nat) (v : LibEntry) (j : Nat) : (s.putLib k v).stall j = s.stall j := rfl
@[simp] theorem State.putLib_voice (k : Nat) (v : LibEntry) (j : Nat) : (s.putLib k v).voice j = s.voice j := rfl
@[simp] theorem State.putLib_base (k : Nat) (v : LibEntry) (j : Nat) : (s.putLib k v).base j = s.base j := rfl
@[simp] theorem State.putLib_row (k : Nat) (v : LibEntry) (j : Nat) : (s.putLib k v).row j = s.row j := rfl
@[simp] theorem State.putLib_press (k : Nat) (v : LibEntry) (j : Nat) : (s.putLib k v).press j = s.press j := rfl
@[simp] theorem State.putLib_stage (k : Nat) (v : LibEntry) (j : Nat) : (s.putLib k v).stage j = s.stage j := rfl
@[simp] theorem State.putLib_recUnit (k : Nat) (v : LibEntry) (j : Nat) : (s.putLib k v).recUnit j = s.recUnit j := rfl
@[simp] theorem State.putLib_engine (k : Nat) (v : LibEntry) (j : Nat) : (s.putLib k v).engine j = s.engine j := rfl
@[simp] theorem State.putLib_channel (k : Nat) (v : LibEntry) (j : Nat) : (s.putLib k v).channel j = s.channel j := rfl
@[simp] theorem State.putLib_die (k : Nat) (v : LibEntry) (j : Nat) : (s.putLib k v).die j = s.die j := rfl
@[simp] theorem State.putLib_net (k : Nat) (v : LibEntry) (j : Nat) : (s.putLib k v).net j = s.net j := rfl
@[simp] theorem State.putLib_sess (k : Nat) (v : LibEntry) (j : Nat) : (s.putLib k v).sess j = s.sess j := rfl
@[simp] theorem State.putLib_crierSrc (k : Nat) (v : LibEntry) (j : Nat) : (s.putLib k v).crierSrc j = s.crierSrc j := rfl
@[simp] theorem State.putLib_img (k : Nat) (v : LibEntry) (j : Nat) : (s.putLib k v).img j = s.img j := rfl
@[simp] theorem State.putLib_sap (k : Nat) (v : LibEntry) (j : Nat) : (s.putLib k v).sap j = s.sap j := rfl
@[simp] theorem State.putLib_park (k : Nat) (v : LibEntry) (j : Nat) : (s.putLib k v).park j = s.park j := rfl
@[simp] theorem State.putLib_lib (k : Nat) (v : LibEntry) (j : Nat) : (s.putLib k v).lib j = if j = k then v else s.lib j :=
  tget_tset ..
@[simp] theorem State.putLib_flashCh (k : Nat) (v : LibEntry) (j : Nat) : (s.putLib k v).flashCh j = s.flashCh j := rfl

/-! ## putFlashCh -/

@[simp] theorem State.putFlashCh_pending (k : Nat) (v : FlashCh) : (s.putFlashCh k v).pending = s.pending := rfl
@[simp] theorem State.putFlashCh_now (k : Nat) (v : FlashCh) : (s.putFlashCh k v).now = s.now := rfl
@[simp] theorem State.putFlashCh_stamp (k : Nat) (v : FlashCh) : (s.putFlashCh k v).stamp = s.stamp := rfl
@[simp] theorem State.putFlashCh_free (k : Nat) (v : FlashCh) : (s.putFlashCh k v).free = s.free := rfl
@[simp] theorem State.putFlashCh_power (k : Nat) (v : FlashCh) : (s.putFlashCh k v).power = s.power := rfl
@[simp] theorem State.putFlashCh_streams (k : Nat) (v : FlashCh) : (s.putFlashCh k v).streams = s.streams := rfl
@[simp] theorem State.putFlashCh_egress (k : Nat) (v : FlashCh) : (s.putFlashCh k v).egress = s.egress := rfl
@[simp] theorem State.putFlashCh_journals (k : Nat) (v : FlashCh) : (s.putFlashCh k v).journals = s.journals := rfl
@[simp] theorem State.putFlashCh_stalls (k : Nat) (v : FlashCh) : (s.putFlashCh k v).stalls = s.stalls := rfl
@[simp] theorem State.putFlashCh_voices (k : Nat) (v : FlashCh) : (s.putFlashCh k v).voices = s.voices := rfl
@[simp] theorem State.putFlashCh_bases (k : Nat) (v : FlashCh) : (s.putFlashCh k v).bases = s.bases := rfl
@[simp] theorem State.putFlashCh_rows (k : Nat) (v : FlashCh) : (s.putFlashCh k v).rows = s.rows := rfl
@[simp] theorem State.putFlashCh_presses (k : Nat) (v : FlashCh) : (s.putFlashCh k v).presses = s.presses := rfl
@[simp] theorem State.putFlashCh_stages (k : Nat) (v : FlashCh) : (s.putFlashCh k v).stages = s.stages := rfl
@[simp] theorem State.putFlashCh_rings (k : Nat) (v : FlashCh) : (s.putFlashCh k v).rings = s.rings := rfl
@[simp] theorem State.putFlashCh_recUnits (k : Nat) (v : FlashCh) : (s.putFlashCh k v).recUnits = s.recUnits := rfl
@[simp] theorem State.putFlashCh_engines (k : Nat) (v : FlashCh) : (s.putFlashCh k v).engines = s.engines := rfl
@[simp] theorem State.putFlashCh_channels (k : Nat) (v : FlashCh) : (s.putFlashCh k v).channels = s.channels := rfl
@[simp] theorem State.putFlashCh_dies (k : Nat) (v : FlashCh) : (s.putFlashCh k v).dies = s.dies := rfl
@[simp] theorem State.putFlashCh_mem (k : Nat) (v : FlashCh) : (s.putFlashCh k v).mem = s.mem := rfl
@[simp] theorem State.putFlashCh_heldMoves (k : Nat) (v : FlashCh) : (s.putFlashCh k v).heldMoves = s.heldMoves := rfl
@[simp] theorem State.putFlashCh_nets (k : Nat) (v : FlashCh) : (s.putFlashCh k v).nets = s.nets := rfl
@[simp] theorem State.putFlashCh_sessions (k : Nat) (v : FlashCh) : (s.putFlashCh k v).sessions = s.sessions := rfl
@[simp] theorem State.putFlashCh_vct (k : Nat) (v : FlashCh) : (s.putFlashCh k v).vct = s.vct := rfl
@[simp] theorem State.putFlashCh_criers (k : Nat) (v : FlashCh) : (s.putFlashCh k v).criers = s.criers := rfl
@[simp] theorem State.putFlashCh_clerk (k : Nat) (v : FlashCh) : (s.putFlashCh k v).clerk = s.clerk := rfl
@[simp] theorem State.putFlashCh_exports (k : Nat) (v : FlashCh) : (s.putFlashCh k v).exports = s.exports := rfl
@[simp] theorem State.putFlashCh_fw (k : Nat) (v : FlashCh) : (s.putFlashCh k v).fw = s.fw := rfl
@[simp] theorem State.putFlashCh_sec (k : Nat) (v : FlashCh) : (s.putFlashCh k v).sec = s.sec := rfl
@[simp] theorem State.putFlashCh_saps (k : Nat) (v : FlashCh) : (s.putFlashCh k v).saps = s.saps := rfl
@[simp] theorem State.putFlashCh_clk (k : Nat) (v : FlashCh) : (s.putFlashCh k v).clk = s.clk := rfl
@[simp] theorem State.putFlashCh_jtag (k : Nat) (v : FlashCh) : (s.putFlashCh k v).jtag = s.jtag := rfl
@[simp] theorem State.putFlashCh_sent (k : Nat) (v : FlashCh) : (s.putFlashCh k v).sent = s.sent := rfl
@[simp] theorem State.putFlashCh_stream (k : Nat) (v : FlashCh) (j : Nat) : (s.putFlashCh k v).stream j = s.stream j := rfl
@[simp] theorem State.putFlashCh_egr (k : Nat) (v : FlashCh) (j : Nat) : (s.putFlashCh k v).egr j = s.egr j := rfl
@[simp] theorem State.putFlashCh_journal (k : Nat) (v : FlashCh) (j : Nat) : (s.putFlashCh k v).journal j = s.journal j := rfl
@[simp] theorem State.putFlashCh_stall (k : Nat) (v : FlashCh) (j : Nat) : (s.putFlashCh k v).stall j = s.stall j := rfl
@[simp] theorem State.putFlashCh_voice (k : Nat) (v : FlashCh) (j : Nat) : (s.putFlashCh k v).voice j = s.voice j := rfl
@[simp] theorem State.putFlashCh_base (k : Nat) (v : FlashCh) (j : Nat) : (s.putFlashCh k v).base j = s.base j := rfl
@[simp] theorem State.putFlashCh_row (k : Nat) (v : FlashCh) (j : Nat) : (s.putFlashCh k v).row j = s.row j := rfl
@[simp] theorem State.putFlashCh_press (k : Nat) (v : FlashCh) (j : Nat) : (s.putFlashCh k v).press j = s.press j := rfl
@[simp] theorem State.putFlashCh_stage (k : Nat) (v : FlashCh) (j : Nat) : (s.putFlashCh k v).stage j = s.stage j := rfl
@[simp] theorem State.putFlashCh_recUnit (k : Nat) (v : FlashCh) (j : Nat) : (s.putFlashCh k v).recUnit j = s.recUnit j := rfl
@[simp] theorem State.putFlashCh_engine (k : Nat) (v : FlashCh) (j : Nat) : (s.putFlashCh k v).engine j = s.engine j := rfl
@[simp] theorem State.putFlashCh_channel (k : Nat) (v : FlashCh) (j : Nat) : (s.putFlashCh k v).channel j = s.channel j := rfl
@[simp] theorem State.putFlashCh_die (k : Nat) (v : FlashCh) (j : Nat) : (s.putFlashCh k v).die j = s.die j := rfl
@[simp] theorem State.putFlashCh_net (k : Nat) (v : FlashCh) (j : Nat) : (s.putFlashCh k v).net j = s.net j := rfl
@[simp] theorem State.putFlashCh_sess (k : Nat) (v : FlashCh) (j : Nat) : (s.putFlashCh k v).sess j = s.sess j := rfl
@[simp] theorem State.putFlashCh_crierSrc (k : Nat) (v : FlashCh) (j : Nat) : (s.putFlashCh k v).crierSrc j = s.crierSrc j := rfl
@[simp] theorem State.putFlashCh_img (k : Nat) (v : FlashCh) (j : Nat) : (s.putFlashCh k v).img j = s.img j := rfl
@[simp] theorem State.putFlashCh_sap (k : Nat) (v : FlashCh) (j : Nat) : (s.putFlashCh k v).sap j = s.sap j := rfl
@[simp] theorem State.putFlashCh_park (k : Nat) (v : FlashCh) (j : Nat) : (s.putFlashCh k v).park j = s.park j := rfl
@[simp] theorem State.putFlashCh_lib (k : Nat) (v : FlashCh) (j : Nat) : (s.putFlashCh k v).lib j = s.lib j := rfl
@[simp] theorem State.putFlashCh_flashCh (k : Nat) (v : FlashCh) (j : Nat) : (s.putFlashCh k v).flashCh j = if j = k then v else s.flashCh j :=
  tget_tset ..

/-! ## modClerk -/

@[simp] theorem State.modClerk_pending (f : Clerk → Clerk) : (s.modClerk f).pending = s.pending := rfl
@[simp] theorem State.modClerk_now (f : Clerk → Clerk) : (s.modClerk f).now = s.now := rfl
@[simp] theorem State.modClerk_stamp (f : Clerk → Clerk) : (s.modClerk f).stamp = s.stamp := rfl
@[simp] theorem State.modClerk_free (f : Clerk → Clerk) : (s.modClerk f).free = s.free := rfl
@[simp] theorem State.modClerk_power (f : Clerk → Clerk) : (s.modClerk f).power = s.power := rfl
@[simp] theorem State.modClerk_streams (f : Clerk → Clerk) : (s.modClerk f).streams = s.streams := rfl
@[simp] theorem State.modClerk_egress (f : Clerk → Clerk) : (s.modClerk f).egress = s.egress := rfl
@[simp] theorem State.modClerk_journals (f : Clerk → Clerk) : (s.modClerk f).journals = s.journals := rfl
@[simp] theorem State.modClerk_stalls (f : Clerk → Clerk) : (s.modClerk f).stalls = s.stalls := rfl
@[simp] theorem State.modClerk_voices (f : Clerk → Clerk) : (s.modClerk f).voices = s.voices := rfl
@[simp] theorem State.modClerk_bases (f : Clerk → Clerk) : (s.modClerk f).bases = s.bases := rfl
@[simp] theorem State.modClerk_rows (f : Clerk → Clerk) : (s.modClerk f).rows = s.rows := rfl
@[simp] theorem State.modClerk_presses (f : Clerk → Clerk) : (s.modClerk f).presses = s.presses := rfl
@[simp] theorem State.modClerk_stages (f : Clerk → Clerk) : (s.modClerk f).stages = s.stages := rfl
@[simp] theorem State.modClerk_rings (f : Clerk → Clerk) : (s.modClerk f).rings = s.rings := rfl
@[simp] theorem State.modClerk_recUnits (f : Clerk → Clerk) : (s.modClerk f).recUnits = s.recUnits := rfl
@[simp] theorem State.modClerk_engines (f : Clerk → Clerk) : (s.modClerk f).engines = s.engines := rfl
@[simp] theorem State.modClerk_channels (f : Clerk → Clerk) : (s.modClerk f).channels = s.channels := rfl
@[simp] theorem State.modClerk_dies (f : Clerk → Clerk) : (s.modClerk f).dies = s.dies := rfl
@[simp] theorem State.modClerk_mem (f : Clerk → Clerk) : (s.modClerk f).mem = s.mem := rfl
@[simp] theorem State.modClerk_heldMoves (f : Clerk → Clerk) : (s.modClerk f).heldMoves = s.heldMoves := rfl
@[simp] theorem State.modClerk_nets (f : Clerk → Clerk) : (s.modClerk f).nets = s.nets := rfl
@[simp] theorem State.modClerk_sessions (f : Clerk → Clerk) : (s.modClerk f).sessions = s.sessions := rfl
@[simp] theorem State.modClerk_vct (f : Clerk → Clerk) : (s.modClerk f).vct = s.vct := rfl
@[simp] theorem State.modClerk_criers (f : Clerk → Clerk) : (s.modClerk f).criers = s.criers := rfl
@[simp] theorem State.modClerk_clerk (f : Clerk → Clerk) : (s.modClerk f).clerk = f s.clerk := rfl
@[simp] theorem State.modClerk_exports (f : Clerk → Clerk) : (s.modClerk f).exports = s.exports := rfl
@[simp] theorem State.modClerk_flash (f : Clerk → Clerk) : (s.modClerk f).flash = s.flash := rfl
@[simp] theorem State.modClerk_fw (f : Clerk → Clerk) : (s.modClerk f).fw = s.fw := rfl
@[simp] theorem State.modClerk_sec (f : Clerk → Clerk) : (s.modClerk f).sec = s.sec := rfl
@[simp] theorem State.modClerk_saps (f : Clerk → Clerk) : (s.modClerk f).saps = s.saps := rfl
@[simp] theorem State.modClerk_clk (f : Clerk → Clerk) : (s.modClerk f).clk = s.clk := rfl
@[simp] theorem State.modClerk_jtag (f : Clerk → Clerk) : (s.modClerk f).jtag = s.jtag := rfl
@[simp] theorem State.modClerk_sent (f : Clerk → Clerk) : (s.modClerk f).sent = s.sent := rfl
@[simp] theorem State.modClerk_stream (f : Clerk → Clerk) (j : Nat) : (s.modClerk f).stream j = s.stream j := rfl
@[simp] theorem State.modClerk_egr (f : Clerk → Clerk) (j : Nat) : (s.modClerk f).egr j = s.egr j := rfl
@[simp] theorem State.modClerk_journal (f : Clerk → Clerk) (j : Nat) : (s.modClerk f).journal j = s.journal j := rfl
@[simp] theorem State.modClerk_stall (f : Clerk → Clerk) (j : Nat) : (s.modClerk f).stall j = s.stall j := rfl
@[simp] theorem State.modClerk_voice (f : Clerk → Clerk) (j : Nat) : (s.modClerk f).voice j = s.voice j := rfl
@[simp] theorem State.modClerk_base (f : Clerk → Clerk) (j : Nat) : (s.modClerk f).base j = s.base j := rfl
@[simp] theorem State.modClerk_row (f : Clerk → Clerk) (j : Nat) : (s.modClerk f).row j = s.row j := rfl
@[simp] theorem State.modClerk_press (f : Clerk → Clerk) (j : Nat) : (s.modClerk f).press j = s.press j := rfl
@[simp] theorem State.modClerk_stage (f : Clerk → Clerk) (j : Nat) : (s.modClerk f).stage j = s.stage j := rfl
@[simp] theorem State.modClerk_recUnit (f : Clerk → Clerk) (j : Nat) : (s.modClerk f).recUnit j = s.recUnit j := rfl
@[simp] theorem State.modClerk_engine (f : Clerk → Clerk) (j : Nat) : (s.modClerk f).engine j = s.engine j := rfl
@[simp] theorem State.modClerk_channel (f : Clerk → Clerk) (j : Nat) : (s.modClerk f).channel j = s.channel j := rfl
@[simp] theorem State.modClerk_die (f : Clerk → Clerk) (j : Nat) : (s.modClerk f).die j = s.die j := rfl
@[simp] theorem State.modClerk_net (f : Clerk → Clerk) (j : Nat) : (s.modClerk f).net j = s.net j := rfl
@[simp] theorem State.modClerk_sess (f : Clerk → Clerk) (j : Nat) : (s.modClerk f).sess j = s.sess j := rfl
@[simp] theorem State.modClerk_crierSrc (f : Clerk → Clerk) (j : Nat) : (s.modClerk f).crierSrc j = s.crierSrc j := rfl
@[simp] theorem State.modClerk_img (f : Clerk → Clerk) (j : Nat) : (s.modClerk f).img j = s.img j := rfl
@[simp] theorem State.modClerk_sap (f : Clerk → Clerk) (j : Nat) : (s.modClerk f).sap j = s.sap j := rfl
@[simp] theorem State.modClerk_park (f : Clerk → Clerk) (j : Nat) : (s.modClerk f).park j = s.park j := rfl
@[simp] theorem State.modClerk_lib (f : Clerk → Clerk) (j : Nat) : (s.modClerk f).lib j = s.lib j := rfl
@[simp] theorem State.modClerk_flashCh (f : Clerk → Clerk) (j : Nat) : (s.modClerk f).flashCh j = s.flashCh j := rfl

/-! ## modVct -/

@[simp] theorem State.modVct_pending (f : Vct → Vct) : (s.modVct f).pending = s.pending := rfl
@[simp] theorem State.modVct_now (f : Vct → Vct) : (s.modVct f).now = s.now := rfl
@[simp] theorem State.modVct_stamp (f : Vct → Vct) : (s.modVct f).stamp = s.stamp := rfl
@[simp] theorem State.modVct_free (f : Vct → Vct) : (s.modVct f).free = s.free := rfl
@[simp] theorem State.modVct_power (f : Vct → Vct) : (s.modVct f).power = s.power := rfl
@[simp] theorem State.modVct_streams (f : Vct → Vct) : (s.modVct f).streams = s.streams := rfl
@[simp] theorem State.modVct_egress (f : Vct → Vct) : (s.modVct f).egress = s.egress := rfl
@[simp] theorem State.modVct_journals (f : Vct → Vct) : (s.modVct f).journals = s.journals := rfl
@[simp] theorem State.modVct_stalls (f : Vct → Vct) : (s.modVct f).stalls = s.stalls := rfl
@[simp] theorem State.modVct_voices (f : Vct → Vct) : (s.modVct f).voices = s.voices := rfl
@[simp] theorem State.modVct_bases (f : Vct → Vct) : (s.modVct f).bases = s.bases := rfl
@[simp] theorem State.modVct_rows (f : Vct → Vct) : (s.modVct f).rows = s.rows := rfl
@[simp] theorem State.modVct_presses (f : Vct → Vct) : (s.modVct f).presses = s.presses := rfl
@[simp] theorem State.modVct_stages (f : Vct → Vct) : (s.modVct f).stages = s.stages := rfl
@[simp] theorem State.modVct_rings (f : Vct → Vct) : (s.modVct f).rings = s.rings := rfl
@[simp] theorem State.modVct_recUnits (f : Vct → Vct) : (s.modVct f).recUnits = s.recUnits := rfl
@[simp] theorem State.modVct_engines (f : Vct → Vct) : (s.modVct f).engines = s.engines := rfl
@[simp] theorem State.modVct_channels (f : Vct → Vct) : (s.modVct f).channels = s.channels := rfl
@[simp] theorem State.modVct_dies (f : Vct → Vct) : (s.modVct f).dies = s.dies := rfl
@[simp] theorem State.modVct_mem (f : Vct → Vct) : (s.modVct f).mem = s.mem := rfl
@[simp] theorem State.modVct_heldMoves (f : Vct → Vct) : (s.modVct f).heldMoves = s.heldMoves := rfl
@[simp] theorem State.modVct_nets (f : Vct → Vct) : (s.modVct f).nets = s.nets := rfl
@[simp] theorem State.modVct_sessions (f : Vct → Vct) : (s.modVct f).sessions = s.sessions := rfl
@[simp] theorem State.modVct_vct (f : Vct → Vct) : (s.modVct f).vct = f s.vct := rfl
@[simp] theorem State.modVct_criers (f : Vct → Vct) : (s.modVct f).criers = s.criers := rfl
@[simp] theorem State.modVct_clerk (f : Vct → Vct) : (s.modVct f).clerk = s.clerk := rfl
@[simp] theorem State.modVct_exports (f : Vct → Vct) : (s.modVct f).exports = s.exports := rfl
@[simp] theorem State.modVct_flash (f : Vct → Vct) : (s.modVct f).flash = s.flash := rfl
@[simp] theorem State.modVct_fw (f : Vct → Vct) : (s.modVct f).fw = s.fw := rfl
@[simp] theorem State.modVct_sec (f : Vct → Vct) : (s.modVct f).sec = s.sec := rfl
@[simp] theorem State.modVct_saps (f : Vct → Vct) : (s.modVct f).saps = s.saps := rfl
@[simp] theorem State.modVct_clk (f : Vct → Vct) : (s.modVct f).clk = s.clk := rfl
@[simp] theorem State.modVct_jtag (f : Vct → Vct) : (s.modVct f).jtag = s.jtag := rfl
@[simp] theorem State.modVct_sent (f : Vct → Vct) : (s.modVct f).sent = s.sent := rfl
@[simp] theorem State.modVct_stream (f : Vct → Vct) (j : Nat) : (s.modVct f).stream j = s.stream j := rfl
@[simp] theorem State.modVct_egr (f : Vct → Vct) (j : Nat) : (s.modVct f).egr j = s.egr j := rfl
@[simp] theorem State.modVct_journal (f : Vct → Vct) (j : Nat) : (s.modVct f).journal j = s.journal j := rfl
@[simp] theorem State.modVct_stall (f : Vct → Vct) (j : Nat) : (s.modVct f).stall j = s.stall j := rfl
@[simp] theorem State.modVct_voice (f : Vct → Vct) (j : Nat) : (s.modVct f).voice j = s.voice j := rfl
@[simp] theorem State.modVct_base (f : Vct → Vct) (j : Nat) : (s.modVct f).base j = s.base j := rfl
@[simp] theorem State.modVct_row (f : Vct → Vct) (j : Nat) : (s.modVct f).row j = s.row j := rfl
@[simp] theorem State.modVct_press (f : Vct → Vct) (j : Nat) : (s.modVct f).press j = s.press j := rfl
@[simp] theorem State.modVct_stage (f : Vct → Vct) (j : Nat) : (s.modVct f).stage j = s.stage j := rfl
@[simp] theorem State.modVct_recUnit (f : Vct → Vct) (j : Nat) : (s.modVct f).recUnit j = s.recUnit j := rfl
@[simp] theorem State.modVct_engine (f : Vct → Vct) (j : Nat) : (s.modVct f).engine j = s.engine j := rfl
@[simp] theorem State.modVct_channel (f : Vct → Vct) (j : Nat) : (s.modVct f).channel j = s.channel j := rfl
@[simp] theorem State.modVct_die (f : Vct → Vct) (j : Nat) : (s.modVct f).die j = s.die j := rfl
@[simp] theorem State.modVct_net (f : Vct → Vct) (j : Nat) : (s.modVct f).net j = s.net j := rfl
@[simp] theorem State.modVct_sess (f : Vct → Vct) (j : Nat) : (s.modVct f).sess j = s.sess j := rfl
@[simp] theorem State.modVct_crierSrc (f : Vct → Vct) (j : Nat) : (s.modVct f).crierSrc j = s.crierSrc j := rfl
@[simp] theorem State.modVct_img (f : Vct → Vct) (j : Nat) : (s.modVct f).img j = s.img j := rfl
@[simp] theorem State.modVct_sap (f : Vct → Vct) (j : Nat) : (s.modVct f).sap j = s.sap j := rfl
@[simp] theorem State.modVct_park (f : Vct → Vct) (j : Nat) : (s.modVct f).park j = s.park j := rfl
@[simp] theorem State.modVct_lib (f : Vct → Vct) (j : Nat) : (s.modVct f).lib j = s.lib j := rfl
@[simp] theorem State.modVct_flashCh (f : Vct → Vct) (j : Nat) : (s.modVct f).flashCh j = s.flashCh j := rfl

/-! ## modSec -/

@[simp] theorem State.modSec_pending (f : Sec → Sec) : (s.modSec f).pending = s.pending := rfl
@[simp] theorem State.modSec_now (f : Sec → Sec) : (s.modSec f).now = s.now := rfl
@[simp] theorem State.modSec_stamp (f : Sec → Sec) : (s.modSec f).stamp = s.stamp := rfl
@[simp] theorem State.modSec_free (f : Sec → Sec) : (s.modSec f).free = s.free := rfl
@[simp] theorem State.modSec_power (f : Sec → Sec) : (s.modSec f).power = s.power := rfl
@[simp] theorem State.modSec_streams (f : Sec → Sec) : (s.modSec f).streams = s.streams := rfl
@[simp] theorem State.modSec_egress (f : Sec → Sec) : (s.modSec f).egress = s.egress := rfl
@[simp] theorem State.modSec_journals (f : Sec → Sec) : (s.modSec f).journals = s.journals := rfl
@[simp] theorem State.modSec_stalls (f : Sec → Sec) : (s.modSec f).stalls = s.stalls := rfl
@[simp] theorem State.modSec_voices (f : Sec → Sec) : (s.modSec f).voices = s.voices := rfl
@[simp] theorem State.modSec_bases (f : Sec → Sec) : (s.modSec f).bases = s.bases := rfl
@[simp] theorem State.modSec_rows (f : Sec → Sec) : (s.modSec f).rows = s.rows := rfl
@[simp] theorem State.modSec_presses (f : Sec → Sec) : (s.modSec f).presses = s.presses := rfl
@[simp] theorem State.modSec_stages (f : Sec → Sec) : (s.modSec f).stages = s.stages := rfl
@[simp] theorem State.modSec_rings (f : Sec → Sec) : (s.modSec f).rings = s.rings := rfl
@[simp] theorem State.modSec_recUnits (f : Sec → Sec) : (s.modSec f).recUnits = s.recUnits := rfl
@[simp] theorem State.modSec_engines (f : Sec → Sec) : (s.modSec f).engines = s.engines := rfl
@[simp] theorem State.modSec_channels (f : Sec → Sec) : (s.modSec f).channels = s.channels := rfl
@[simp] theorem State.modSec_dies (f : Sec → Sec) : (s.modSec f).dies = s.dies := rfl
@[simp] theorem State.modSec_mem (f : Sec → Sec) : (s.modSec f).mem = s.mem := rfl
@[simp] theorem State.modSec_heldMoves (f : Sec → Sec) : (s.modSec f).heldMoves = s.heldMoves := rfl
@[simp] theorem State.modSec_nets (f : Sec → Sec) : (s.modSec f).nets = s.nets := rfl
@[simp] theorem State.modSec_sessions (f : Sec → Sec) : (s.modSec f).sessions = s.sessions := rfl
@[simp] theorem State.modSec_vct (f : Sec → Sec) : (s.modSec f).vct = s.vct := rfl
@[simp] theorem State.modSec_criers (f : Sec → Sec) : (s.modSec f).criers = s.criers := rfl
@[simp] theorem State.modSec_clerk (f : Sec → Sec) : (s.modSec f).clerk = s.clerk := rfl
@[simp] theorem State.modSec_exports (f : Sec → Sec) : (s.modSec f).exports = s.exports := rfl
@[simp] theorem State.modSec_flash (f : Sec → Sec) : (s.modSec f).flash = s.flash := rfl
@[simp] theorem State.modSec_fw (f : Sec → Sec) : (s.modSec f).fw = s.fw := rfl
@[simp] theorem State.modSec_sec (f : Sec → Sec) : (s.modSec f).sec = f s.sec := rfl
@[simp] theorem State.modSec_saps (f : Sec → Sec) : (s.modSec f).saps = s.saps := rfl
@[simp] theorem State.modSec_clk (f : Sec → Sec) : (s.modSec f).clk = s.clk := rfl
@[simp] theorem State.modSec_jtag (f : Sec → Sec) : (s.modSec f).jtag = s.jtag := rfl
@[simp] theorem State.modSec_sent (f : Sec → Sec) : (s.modSec f).sent = s.sent := rfl
@[simp] theorem State.modSec_stream (f : Sec → Sec) (j : Nat) : (s.modSec f).stream j = s.stream j := rfl
@[simp] theorem State.modSec_egr (f : Sec → Sec) (j : Nat) : (s.modSec f).egr j = s.egr j := rfl
@[simp] theorem State.modSec_journal (f : Sec → Sec) (j : Nat) : (s.modSec f).journal j = s.journal j := rfl
@[simp] theorem State.modSec_stall (f : Sec → Sec) (j : Nat) : (s.modSec f).stall j = s.stall j := rfl
@[simp] theorem State.modSec_voice (f : Sec → Sec) (j : Nat) : (s.modSec f).voice j = s.voice j := rfl
@[simp] theorem State.modSec_base (f : Sec → Sec) (j : Nat) : (s.modSec f).base j = s.base j := rfl
@[simp] theorem State.modSec_row (f : Sec → Sec) (j : Nat) : (s.modSec f).row j = s.row j := rfl
@[simp] theorem State.modSec_press (f : Sec → Sec) (j : Nat) : (s.modSec f).press j = s.press j := rfl
@[simp] theorem State.modSec_stage (f : Sec → Sec) (j : Nat) : (s.modSec f).stage j = s.stage j := rfl
@[simp] theorem State.modSec_recUnit (f : Sec → Sec) (j : Nat) : (s.modSec f).recUnit j = s.recUnit j := rfl
@[simp] theorem State.modSec_engine (f : Sec → Sec) (j : Nat) : (s.modSec f).engine j = s.engine j := rfl
@[simp] theorem State.modSec_channel (f : Sec → Sec) (j : Nat) : (s.modSec f).channel j = s.channel j := rfl
@[simp] theorem State.modSec_die (f : Sec → Sec) (j : Nat) : (s.modSec f).die j = s.die j := rfl
@[simp] theorem State.modSec_net (f : Sec → Sec) (j : Nat) : (s.modSec f).net j = s.net j := rfl
@[simp] theorem State.modSec_sess (f : Sec → Sec) (j : Nat) : (s.modSec f).sess j = s.sess j := rfl
@[simp] theorem State.modSec_crierSrc (f : Sec → Sec) (j : Nat) : (s.modSec f).crierSrc j = s.crierSrc j := rfl
@[simp] theorem State.modSec_img (f : Sec → Sec) (j : Nat) : (s.modSec f).img j = s.img j := rfl
@[simp] theorem State.modSec_sap (f : Sec → Sec) (j : Nat) : (s.modSec f).sap j = s.sap j := rfl
@[simp] theorem State.modSec_park (f : Sec → Sec) (j : Nat) : (s.modSec f).park j = s.park j := rfl
@[simp] theorem State.modSec_lib (f : Sec → Sec) (j : Nat) : (s.modSec f).lib j = s.lib j := rfl
@[simp] theorem State.modSec_flashCh (f : Sec → Sec) (j : Nat) : (s.modSec f).flashCh j = s.flashCh j := rfl

/-! ## modFlash -/

@[simp] theorem State.modFlash_pending (f : Flash → Flash) : (s.modFlash f).pending = s.pending := rfl
@[simp] theorem State.modFlash_now (f : Flash → Flash) : (s.modFlash f).now = s.now := rfl
@[simp] theorem State.modFlash_stamp (f : Flash → Flash) : (s.modFlash f).stamp = s.stamp := rfl
@[simp] theorem State.modFlash_free (f : Flash → Flash) : (s.modFlash f).free = s.free := rfl
@[simp] theorem State.modFlash_power (f : Flash → Flash) : (s.modFlash f).power = s.power := rfl
@[simp] theorem State.modFlash_streams (f : Flash → Flash) : (s.modFlash f).streams = s.streams := rfl
@[simp] theorem State.modFlash_egress (f : Flash → Flash) : (s.modFlash f).egress = s.egress := rfl
@[simp] theorem State.modFlash_journals (f : Flash → Flash) : (s.modFlash f).journals = s.journals := rfl
@[simp] theorem State.modFlash_stalls (f : Flash → Flash) : (s.modFlash f).stalls = s.stalls := rfl
@[simp] theorem State.modFlash_voices (f : Flash → Flash) : (s.modFlash f).voices = s.voices := rfl
@[simp] theorem State.modFlash_bases (f : Flash → Flash) : (s.modFlash f).bases = s.bases := rfl
@[simp] theorem State.modFlash_rows (f : Flash → Flash) : (s.modFlash f).rows = s.rows := rfl
@[simp] theorem State.modFlash_presses (f : Flash → Flash) : (s.modFlash f).presses = s.presses := rfl
@[simp] theorem State.modFlash_stages (f : Flash → Flash) : (s.modFlash f).stages = s.stages := rfl
@[simp] theorem State.modFlash_rings (f : Flash → Flash) : (s.modFlash f).rings = s.rings := rfl
@[simp] theorem State.modFlash_recUnits (f : Flash → Flash) : (s.modFlash f).recUnits = s.recUnits := rfl
@[simp] theorem State.modFlash_engines (f : Flash → Flash) : (s.modFlash f).engines = s.engines := rfl
@[simp] theorem State.modFlash_channels (f : Flash → Flash) : (s.modFlash f).channels = s.channels := rfl
@[simp] theorem State.modFlash_dies (f : Flash → Flash) : (s.modFlash f).dies = s.dies := rfl
@[simp] theorem State.modFlash_mem (f : Flash → Flash) : (s.modFlash f).mem = s.mem := rfl
@[simp] theorem State.modFlash_heldMoves (f : Flash → Flash) : (s.modFlash f).heldMoves = s.heldMoves := rfl
@[simp] theorem State.modFlash_nets (f : Flash → Flash) : (s.modFlash f).nets = s.nets := rfl
@[simp] theorem State.modFlash_sessions (f : Flash → Flash) : (s.modFlash f).sessions = s.sessions := rfl
@[simp] theorem State.modFlash_vct (f : Flash → Flash) : (s.modFlash f).vct = s.vct := rfl
@[simp] theorem State.modFlash_criers (f : Flash → Flash) : (s.modFlash f).criers = s.criers := rfl
@[simp] theorem State.modFlash_clerk (f : Flash → Flash) : (s.modFlash f).clerk = s.clerk := rfl
@[simp] theorem State.modFlash_exports (f : Flash → Flash) : (s.modFlash f).exports = s.exports := rfl
@[simp] theorem State.modFlash_flash (f : Flash → Flash) : (s.modFlash f).flash = f s.flash := rfl
@[simp] theorem State.modFlash_fw (f : Flash → Flash) : (s.modFlash f).fw = s.fw := rfl
@[simp] theorem State.modFlash_sec (f : Flash → Flash) : (s.modFlash f).sec = s.sec := rfl
@[simp] theorem State.modFlash_saps (f : Flash → Flash) : (s.modFlash f).saps = s.saps := rfl
@[simp] theorem State.modFlash_clk (f : Flash → Flash) : (s.modFlash f).clk = s.clk := rfl
@[simp] theorem State.modFlash_jtag (f : Flash → Flash) : (s.modFlash f).jtag = s.jtag := rfl
@[simp] theorem State.modFlash_sent (f : Flash → Flash) : (s.modFlash f).sent = s.sent := rfl
@[simp] theorem State.modFlash_stream (f : Flash → Flash) (j : Nat) : (s.modFlash f).stream j = s.stream j := rfl
@[simp] theorem State.modFlash_egr (f : Flash → Flash) (j : Nat) : (s.modFlash f).egr j = s.egr j := rfl
@[simp] theorem State.modFlash_journal (f : Flash → Flash) (j : Nat) : (s.modFlash f).journal j = s.journal j := rfl
@[simp] theorem State.modFlash_stall (f : Flash → Flash) (j : Nat) : (s.modFlash f).stall j = s.stall j := rfl
@[simp] theorem State.modFlash_voice (f : Flash → Flash) (j : Nat) : (s.modFlash f).voice j = s.voice j := rfl
@[simp] theorem State.modFlash_base (f : Flash → Flash) (j : Nat) : (s.modFlash f).base j = s.base j := rfl
@[simp] theorem State.modFlash_row (f : Flash → Flash) (j : Nat) : (s.modFlash f).row j = s.row j := rfl
@[simp] theorem State.modFlash_press (f : Flash → Flash) (j : Nat) : (s.modFlash f).press j = s.press j := rfl
@[simp] theorem State.modFlash_stage (f : Flash → Flash) (j : Nat) : (s.modFlash f).stage j = s.stage j := rfl
@[simp] theorem State.modFlash_recUnit (f : Flash → Flash) (j : Nat) : (s.modFlash f).recUnit j = s.recUnit j := rfl
@[simp] theorem State.modFlash_engine (f : Flash → Flash) (j : Nat) : (s.modFlash f).engine j = s.engine j := rfl
@[simp] theorem State.modFlash_channel (f : Flash → Flash) (j : Nat) : (s.modFlash f).channel j = s.channel j := rfl
@[simp] theorem State.modFlash_die (f : Flash → Flash) (j : Nat) : (s.modFlash f).die j = s.die j := rfl
@[simp] theorem State.modFlash_net (f : Flash → Flash) (j : Nat) : (s.modFlash f).net j = s.net j := rfl
@[simp] theorem State.modFlash_sess (f : Flash → Flash) (j : Nat) : (s.modFlash f).sess j = s.sess j := rfl
@[simp] theorem State.modFlash_crierSrc (f : Flash → Flash) (j : Nat) : (s.modFlash f).crierSrc j = s.crierSrc j := rfl
@[simp] theorem State.modFlash_img (f : Flash → Flash) (j : Nat) : (s.modFlash f).img j = s.img j := rfl
@[simp] theorem State.modFlash_sap (f : Flash → Flash) (j : Nat) : (s.modFlash f).sap j = s.sap j := rfl

/-! ## modWear -/

@[simp] theorem State.modWear_pending (f : Wear → Wear) : (s.modWear f).pending = s.pending := rfl
@[simp] theorem State.modWear_now (f : Wear → Wear) : (s.modWear f).now = s.now := rfl
@[simp] theorem State.modWear_stamp (f : Wear → Wear) : (s.modWear f).stamp = s.stamp := rfl
@[simp] theorem State.modWear_free (f : Wear → Wear) : (s.modWear f).free = s.free := rfl
@[simp] theorem State.modWear_power (f : Wear → Wear) : (s.modWear f).power = s.power := rfl
@[simp] theorem State.modWear_streams (f : Wear → Wear) : (s.modWear f).streams = s.streams := rfl
@[simp] theorem State.modWear_egress (f : Wear → Wear) : (s.modWear f).egress = s.egress := rfl
@[simp] theorem State.modWear_journals (f : Wear → Wear) : (s.modWear f).journals = s.journals := rfl
@[simp] theorem State.modWear_stalls (f : Wear → Wear) : (s.modWear f).stalls = s.stalls := rfl
@[simp] theorem State.modWear_voices (f : Wear → Wear) : (s.modWear f).voices = s.voices := rfl
@[simp] theorem State.modWear_bases (f : Wear → Wear) : (s.modWear f).bases = s.bases := rfl
@[simp] theorem State.modWear_rows (f : Wear → Wear) : (s.modWear f).rows = s.rows := rfl
@[simp] theorem State.modWear_presses (f : Wear → Wear) : (s.modWear f).presses = s.presses := rfl
@[simp] theorem State.modWear_stages (f : Wear → Wear) : (s.modWear f).stages = s.stages := rfl
@[simp] theorem State.modWear_rings (f : Wear → Wear) : (s.modWear f).rings = s.rings := rfl
@[simp] theorem State.modWear_recUnits (f : Wear → Wear) : (s.modWear f).recUnits = s.recUnits := rfl
@[simp] theorem State.modWear_engines (f : Wear → Wear) : (s.modWear f).engines = s.engines := rfl
@[simp] theorem State.modWear_channels (f : Wear → Wear) : (s.modWear f).channels = s.channels := rfl
@[simp] theorem State.modWear_dies (f : Wear → Wear) : (s.modWear f).dies = s.dies := rfl
@[simp] theorem State.modWear_mem (f : Wear → Wear) : (s.modWear f).mem = s.mem := rfl
@[simp] theorem State.modWear_heldMoves (f : Wear → Wear) : (s.modWear f).heldMoves = s.heldMoves := rfl
@[simp] theorem State.modWear_nets (f : Wear → Wear) : (s.modWear f).nets = s.nets := rfl
@[simp] theorem State.modWear_sessions (f : Wear → Wear) : (s.modWear f).sessions = s.sessions := rfl
@[simp] theorem State.modWear_vct (f : Wear → Wear) : (s.modWear f).vct = s.vct := rfl
@[simp] theorem State.modWear_criers (f : Wear → Wear) : (s.modWear f).criers = s.criers := rfl
@[simp] theorem State.modWear_clerk (f : Wear → Wear) : (s.modWear f).clerk = s.clerk := rfl
@[simp] theorem State.modWear_exports (f : Wear → Wear) : (s.modWear f).exports = s.exports := rfl
@[simp] theorem State.modWear_flash (f : Wear → Wear) : (s.modWear f).flash = { s.flash with wear := f s.flash.wear } := rfl
@[simp] theorem State.modWear_fw (f : Wear → Wear) : (s.modWear f).fw = s.fw := rfl
@[simp] theorem State.modWear_sec (f : Wear → Wear) : (s.modWear f).sec = s.sec := rfl
@[simp] theorem State.modWear_saps (f : Wear → Wear) : (s.modWear f).saps = s.saps := rfl
@[simp] theorem State.modWear_clk (f : Wear → Wear) : (s.modWear f).clk = s.clk := rfl
@[simp] theorem State.modWear_jtag (f : Wear → Wear) : (s.modWear f).jtag = s.jtag := rfl
@[simp] theorem State.modWear_sent (f : Wear → Wear) : (s.modWear f).sent = s.sent := rfl
@[simp] theorem State.modWear_stream (f : Wear → Wear) (j : Nat) : (s.modWear f).stream j = s.stream j := rfl
@[simp] theorem State.modWear_egr (f : Wear → Wear) (j : Nat) : (s.modWear f).egr j = s.egr j := rfl
@[simp] theorem State.modWear_journal (f : Wear → Wear) (j : Nat) : (s.modWear f).journal j = s.journal j := rfl
@[simp] theorem State.modWear_stall (f : Wear → Wear) (j : Nat) : (s.modWear f).stall j = s.stall j := rfl
@[simp] theorem State.modWear_voice (f : Wear → Wear) (j : Nat) : (s.modWear f).voice j = s.voice j := rfl
@[simp] theorem State.modWear_base (f : Wear → Wear) (j : Nat) : (s.modWear f).base j = s.base j := rfl
@[simp] theorem State.modWear_row (f : Wear → Wear) (j : Nat) : (s.modWear f).row j = s.row j := rfl
@[simp] theorem State.modWear_press (f : Wear → Wear) (j : Nat) : (s.modWear f).press j = s.press j := rfl
@[simp] theorem State.modWear_stage (f : Wear → Wear) (j : Nat) : (s.modWear f).stage j = s.stage j := rfl
@[simp] theorem State.modWear_recUnit (f : Wear → Wear) (j : Nat) : (s.modWear f).recUnit j = s.recUnit j := rfl
@[simp] theorem State.modWear_engine (f : Wear → Wear) (j : Nat) : (s.modWear f).engine j = s.engine j := rfl
@[simp] theorem State.modWear_channel (f : Wear → Wear) (j : Nat) : (s.modWear f).channel j = s.channel j := rfl
@[simp] theorem State.modWear_die (f : Wear → Wear) (j : Nat) : (s.modWear f).die j = s.die j := rfl
@[simp] theorem State.modWear_net (f : Wear → Wear) (j : Nat) : (s.modWear f).net j = s.net j := rfl
@[simp] theorem State.modWear_sess (f : Wear → Wear) (j : Nat) : (s.modWear f).sess j = s.sess j := rfl
@[simp] theorem State.modWear_crierSrc (f : Wear → Wear) (j : Nat) : (s.modWear f).crierSrc j = s.crierSrc j := rfl
@[simp] theorem State.modWear_img (f : Wear → Wear) (j : Nat) : (s.modWear f).img j = s.img j := rfl
@[simp] theorem State.modWear_sap (f : Wear → Wear) (j : Nat) : (s.modWear f).sap j = s.sap j := rfl
@[simp] theorem State.modWear_park (f : Wear → Wear) (j : Nat) : (s.modWear f).park j = s.park j := rfl
@[simp] theorem State.modWear_lib (f : Wear → Wear) (j : Nat) : (s.modWear f).lib j = s.lib j := rfl

/-! ## modClk -/

@[simp] theorem State.modClk_pending (f : Clk → Clk) : (s.modClk f).pending = s.pending := rfl
@[simp] theorem State.modClk_now (f : Clk → Clk) : (s.modClk f).now = s.now := rfl
@[simp] theorem State.modClk_stamp (f : Clk → Clk) : (s.modClk f).stamp = s.stamp := rfl
@[simp] theorem State.modClk_free (f : Clk → Clk) : (s.modClk f).free = s.free := rfl
@[simp] theorem State.modClk_power (f : Clk → Clk) : (s.modClk f).power = s.power := rfl
@[simp] theorem State.modClk_streams (f : Clk → Clk) : (s.modClk f).streams = s.streams := rfl
@[simp] theorem State.modClk_egress (f : Clk → Clk) : (s.modClk f).egress = s.egress := rfl
@[simp] theorem State.modClk_journals (f : Clk → Clk) : (s.modClk f).journals = s.journals := rfl
@[simp] theorem State.modClk_stalls (f : Clk → Clk) : (s.modClk f).stalls = s.stalls := rfl
@[simp] theorem State.modClk_voices (f : Clk → Clk) : (s.modClk f).voices = s.voices := rfl
@[simp] theorem State.modClk_bases (f : Clk → Clk) : (s.modClk f).bases = s.bases := rfl
@[simp] theorem State.modClk_rows (f : Clk → Clk) : (s.modClk f).rows = s.rows := rfl
@[simp] theorem State.modClk_presses (f : Clk → Clk) : (s.modClk f).presses = s.presses := rfl
@[simp] theorem State.modClk_stages (f : Clk → Clk) : (s.modClk f).stages = s.stages := rfl
@[simp] theorem State.modClk_rings (f : Clk → Clk) : (s.modClk f).rings = s.rings := rfl
@[simp] theorem State.modClk_recUnits (f : Clk → Clk) : (s.modClk f).recUnits = s.recUnits := rfl
@[simp] theorem State.modClk_engines (f : Clk → Clk) : (s.modClk f).engines = s.engines := rfl
@[simp] theorem State.modClk_channels (f : Clk → Clk) : (s.modClk f).channels = s.channels := rfl
@[simp] theorem State.modClk_dies (f : Clk → Clk) : (s.modClk f).dies = s.dies := rfl
@[simp] theorem State.modClk_mem (f : Clk → Clk) : (s.modClk f).mem = s.mem := rfl
@[simp] theorem State.modClk_heldMoves (f : Clk → Clk) : (s.modClk f).heldMoves = s.heldMoves := rfl
@[simp] theorem State.modClk_nets (f : Clk → Clk) : (s.modClk f).nets = s.nets := rfl
@[simp] theorem State.modClk_sessions (f : Clk → Clk) : (s.modClk f).sessions = s.sessions := rfl
@[simp] theorem State.modClk_vct (f : Clk → Clk) : (s.modClk f).vct = s.vct := rfl
@[simp] theorem State.modClk_criers (f : Clk → Clk) : (s.modClk f).criers = s.criers := rfl
@[simp] theorem State.modClk_clerk (f : Clk → Clk) : (s.modClk f).clerk = s.clerk := rfl
@[simp] theorem State.modClk_exports (f : Clk → Clk) : (s.modClk f).exports = s.exports := rfl
@[simp] theorem State.modClk_flash (f : Clk → Clk) : (s.modClk f).flash = s.flash := rfl
@[simp] theorem State.modClk_fw (f : Clk → Clk) : (s.modClk f).fw = s.fw := rfl
@[simp] theorem State.modClk_sec (f : Clk → Clk) : (s.modClk f).sec = s.sec := rfl
@[simp] theorem State.modClk_saps (f : Clk → Clk) : (s.modClk f).saps = s.saps := rfl
@[simp] theorem State.modClk_clk (f : Clk → Clk) : (s.modClk f).clk = f s.clk := rfl
@[simp] theorem State.modClk_jtag (f : Clk → Clk) : (s.modClk f).jtag = s.jtag := rfl
@[simp] theorem State.modClk_sent (f : Clk → Clk) : (s.modClk f).sent = s.sent := rfl
@[simp] theorem State.modClk_stream (f : Clk → Clk) (j : Nat) : (s.modClk f).stream j = s.stream j := rfl
@[simp] theorem State.modClk_egr (f : Clk → Clk) (j : Nat) : (s.modClk f).egr j = s.egr j := rfl
@[simp] theorem State.modClk_journal (f : Clk → Clk) (j : Nat) : (s.modClk f).journal j = s.journal j := rfl
@[simp] theorem State.modClk_stall (f : Clk → Clk) (j : Nat) : (s.modClk f).stall j = s.stall j := rfl
@[simp] theorem State.modClk_voice (f : Clk → Clk) (j : Nat) : (s.modClk f).voice j = s.voice j := rfl
@[simp] theorem State.modClk_base (f : Clk → Clk) (j : Nat) : (s.modClk f).base j = s.base j := rfl
@[simp] theorem State.modClk_row (f : Clk → Clk) (j : Nat) : (s.modClk f).row j = s.row j := rfl
@[simp] theorem State.modClk_press (f : Clk → Clk) (j : Nat) : (s.modClk f).press j = s.press j := rfl
@[simp] theorem State.modClk_stage (f : Clk → Clk) (j : Nat) : (s.modClk f).stage j = s.stage j := rfl
@[simp] theorem State.modClk_recUnit (f : Clk → Clk) (j : Nat) : (s.modClk f).recUnit j = s.recUnit j := rfl
@[simp] theorem State.modClk_engine (f : Clk → Clk) (j : Nat) : (s.modClk f).engine j = s.engine j := rfl
@[simp] theorem State.modClk_channel (f : Clk → Clk) (j : Nat) : (s.modClk f).channel j = s.channel j := rfl
@[simp] theorem State.modClk_die (f : Clk → Clk) (j : Nat) : (s.modClk f).die j = s.die j := rfl
@[simp] theorem State.modClk_net (f : Clk → Clk) (j : Nat) : (s.modClk f).net j = s.net j := rfl
@[simp] theorem State.modClk_sess (f : Clk → Clk) (j : Nat) : (s.modClk f).sess j = s.sess j := rfl
@[simp] theorem State.modClk_crierSrc (f : Clk → Clk) (j : Nat) : (s.modClk f).crierSrc j = s.crierSrc j := rfl
@[simp] theorem State.modClk_img (f : Clk → Clk) (j : Nat) : (s.modClk f).img j = s.img j := rfl
@[simp] theorem State.modClk_sap (f : Clk → Clk) (j : Nat) : (s.modClk f).sap j = s.sap j := rfl
@[simp] theorem State.modClk_park (f : Clk → Clk) (j : Nat) : (s.modClk f).park j = s.park j := rfl
@[simp] theorem State.modClk_lib (f : Clk → Clk) (j : Nat) : (s.modClk f).lib j = s.lib j := rfl
@[simp] theorem State.modClk_flashCh (f : Clk → Clk) (j : Nat) : (s.modClk f).flashCh j = s.flashCh j := rfl

/-! ## modPower -/

@[simp] theorem State.modPower_pending (f : Power → Power) : (s.modPower f).pending = s.pending := rfl
@[simp] theorem State.modPower_now (f : Power → Power) : (s.modPower f).now = s.now := rfl
@[simp] theorem State.modPower_stamp (f : Power → Power) : (s.modPower f).stamp = s.stamp := rfl
@[simp] theorem State.modPower_free (f : Power → Power) : (s.modPower f).free = s.free := rfl
@[simp] theorem State.modPower_power (f : Power → Power) : (s.modPower f).power = f s.power := rfl
@[simp] theorem State.modPower_streams (f : Power → Power) : (s.modPower f).streams = s.streams := rfl
@[simp] theorem State.modPower_egress (f : Power → Power) : (s.modPower f).egress = s.egress := rfl
@[simp] theorem State.modPower_journals (f : Power → Power) : (s.modPower f).journals = s.journals := rfl
@[simp] theorem State.modPower_stalls (f : Power → Power) : (s.modPower f).stalls = s.stalls := rfl
@[simp] theorem State.modPower_voices (f : Power → Power) : (s.modPower f).voices = s.voices := rfl
@[simp] theorem State.modPower_bases (f : Power → Power) : (s.modPower f).bases = s.bases := rfl
@[simp] theorem State.modPower_rows (f : Power → Power) : (s.modPower f).rows = s.rows := rfl
@[simp] theorem State.modPower_presses (f : Power → Power) : (s.modPower f).presses = s.presses := rfl
@[simp] theorem State.modPower_stages (f : Power → Power) : (s.modPower f).stages = s.stages := rfl
@[simp] theorem State.modPower_rings (f : Power → Power) : (s.modPower f).rings = s.rings := rfl
@[simp] theorem State.modPower_recUnits (f : Power → Power) : (s.modPower f).recUnits = s.recUnits := rfl
@[simp] theorem State.modPower_engines (f : Power → Power) : (s.modPower f).engines = s.engines := rfl
@[simp] theorem State.modPower_channels (f : Power → Power) : (s.modPower f).channels = s.channels := rfl
@[simp] theorem State.modPower_dies (f : Power → Power) : (s.modPower f).dies = s.dies := rfl
@[simp] theorem State.modPower_mem (f : Power → Power) : (s.modPower f).mem = s.mem := rfl
@[simp] theorem State.modPower_heldMoves (f : Power → Power) : (s.modPower f).heldMoves = s.heldMoves := rfl
@[simp] theorem State.modPower_nets (f : Power → Power) : (s.modPower f).nets = s.nets := rfl
@[simp] theorem State.modPower_sessions (f : Power → Power) : (s.modPower f).sessions = s.sessions := rfl
@[simp] theorem State.modPower_vct (f : Power → Power) : (s.modPower f).vct = s.vct := rfl
@[simp] theorem State.modPower_criers (f : Power → Power) : (s.modPower f).criers = s.criers := rfl
@[simp] theorem State.modPower_clerk (f : Power → Power) : (s.modPower f).clerk = s.clerk := rfl
@[simp] theorem State.modPower_exports (f : Power → Power) : (s.modPower f).exports = s.exports := rfl
@[simp] theorem State.modPower_flash (f : Power → Power) : (s.modPower f).flash = s.flash := rfl
@[simp] theorem State.modPower_fw (f : Power → Power) : (s.modPower f).fw = s.fw := rfl
@[simp] theorem State.modPower_sec (f : Power → Power) : (s.modPower f).sec = s.sec := rfl
@[simp] theorem State.modPower_saps (f : Power → Power) : (s.modPower f).saps = s.saps := rfl
@[simp] theorem State.modPower_clk (f : Power → Power) : (s.modPower f).clk = s.clk := rfl
@[simp] theorem State.modPower_jtag (f : Power → Power) : (s.modPower f).jtag = s.jtag := rfl
@[simp] theorem State.modPower_sent (f : Power → Power) : (s.modPower f).sent = s.sent := rfl
@[simp] theorem State.modPower_stream (f : Power → Power) (j : Nat) : (s.modPower f).stream j = s.stream j := rfl
@[simp] theorem State.modPower_egr (f : Power → Power) (j : Nat) : (s.modPower f).egr j = s.egr j := rfl
@[simp] theorem State.modPower_journal (f : Power → Power) (j : Nat) : (s.modPower f).journal j = s.journal j := rfl
@[simp] theorem State.modPower_stall (f : Power → Power) (j : Nat) : (s.modPower f).stall j = s.stall j := rfl
@[simp] theorem State.modPower_voice (f : Power → Power) (j : Nat) : (s.modPower f).voice j = s.voice j := rfl
@[simp] theorem State.modPower_base (f : Power → Power) (j : Nat) : (s.modPower f).base j = s.base j := rfl
@[simp] theorem State.modPower_row (f : Power → Power) (j : Nat) : (s.modPower f).row j = s.row j := rfl
@[simp] theorem State.modPower_press (f : Power → Power) (j : Nat) : (s.modPower f).press j = s.press j := rfl
@[simp] theorem State.modPower_stage (f : Power → Power) (j : Nat) : (s.modPower f).stage j = s.stage j := rfl
@[simp] theorem State.modPower_recUnit (f : Power → Power) (j : Nat) : (s.modPower f).recUnit j = s.recUnit j := rfl
@[simp] theorem State.modPower_engine (f : Power → Power) (j : Nat) : (s.modPower f).engine j = s.engine j := rfl
@[simp] theorem State.modPower_channel (f : Power → Power) (j : Nat) : (s.modPower f).channel j = s.channel j := rfl
@[simp] theorem State.modPower_die (f : Power → Power) (j : Nat) : (s.modPower f).die j = s.die j := rfl
@[simp] theorem State.modPower_net (f : Power → Power) (j : Nat) : (s.modPower f).net j = s.net j := rfl
@[simp] theorem State.modPower_sess (f : Power → Power) (j : Nat) : (s.modPower f).sess j = s.sess j := rfl
@[simp] theorem State.modPower_crierSrc (f : Power → Power) (j : Nat) : (s.modPower f).crierSrc j = s.crierSrc j := rfl
@[simp] theorem State.modPower_img (f : Power → Power) (j : Nat) : (s.modPower f).img j = s.img j := rfl
@[simp] theorem State.modPower_sap (f : Power → Power) (j : Nat) : (s.modPower f).sap j = s.sap j := rfl
@[simp] theorem State.modPower_park (f : Power → Power) (j : Nat) : (s.modPower f).park j = s.park j := rfl
@[simp] theorem State.modPower_lib (f : Power → Power) (j : Nat) : (s.modPower f).lib j = s.lib j := rfl
@[simp] theorem State.modPower_flashCh (f : Power → Power) (j : Nat) : (s.modPower f).flashCh j = s.flashCh j := rfl

/-! ## modFw -/

@[simp] theorem State.modFw_pending (f : Fw → Fw) : (s.modFw f).pending = s.pending := rfl
@[simp] theorem State.modFw_now (f : Fw → Fw) : (s.modFw f).now = s.now := rfl
@[simp] theorem State.modFw_stamp (f : Fw → Fw) : (s.modFw f).stamp = s.stamp := rfl
@[simp] theorem State.modFw_free (f : Fw → Fw) : (s.modFw f).free = s.free := rfl
@[simp] theorem State.modFw_power (f : Fw → Fw) : (s.modFw f).power = s.power := rfl
@[simp] theorem State.modFw_streams (f : Fw → Fw) : (s.modFw f).streams = s.streams := rfl
@[simp] theorem State.modFw_egress (f : Fw → Fw) : (s.modFw f).egress = s.egress := rfl
@[simp] theorem State.modFw_journals (f : Fw → Fw) : (s.modFw f).journals = s.journals := rfl
@[simp] theorem State.modFw_stalls (f : Fw → Fw) : (s.modFw f).stalls = s.stalls := rfl
@[simp] theorem State.modFw_voices (f : Fw → Fw) : (s.modFw f).voices = s.voices := rfl
@[simp] theorem State.modFw_bases (f : Fw → Fw) : (s.modFw f).bases = s.bases := rfl
@[simp] theorem State.modFw_rows (f : Fw → Fw) : (s.modFw f).rows = s.rows := rfl
@[simp] theorem State.modFw_presses (f : Fw → Fw) : (s.modFw f).presses = s.presses := rfl
@[simp] theorem State.modFw_stages (f : Fw → Fw) : (s.modFw f).stages = s.stages := rfl
@[simp] theorem State.modFw_rings (f : Fw → Fw) : (s.modFw f).rings = s.rings := rfl
@[simp] theorem State.modFw_recUnits (f : Fw → Fw) : (s.modFw f).recUnits = s.recUnits := rfl
@[simp] theorem State.modFw_engines (f : Fw → Fw) : (s.modFw f).engines = s.engines := rfl
@[simp] theorem State.modFw_channels (f : Fw → Fw) : (s.modFw f).channels = s.channels := rfl
@[simp] theorem State.modFw_dies (f : Fw → Fw) : (s.modFw f).dies = s.dies := rfl
@[simp] theorem State.modFw_mem (f : Fw → Fw) : (s.modFw f).mem = s.mem := rfl
@[simp] theorem State.modFw_heldMoves (f : Fw → Fw) : (s.modFw f).heldMoves = s.heldMoves := rfl
@[simp] theorem State.modFw_nets (f : Fw → Fw) : (s.modFw f).nets = s.nets := rfl
@[simp] theorem State.modFw_sessions (f : Fw → Fw) : (s.modFw f).sessions = s.sessions := rfl
@[simp] theorem State.modFw_vct (f : Fw → Fw) : (s.modFw f).vct = s.vct := rfl
@[simp] theorem State.modFw_criers (f : Fw → Fw) : (s.modFw f).criers = s.criers := rfl
@[simp] theorem State.modFw_clerk (f : Fw → Fw) : (s.modFw f).clerk = s.clerk := rfl
@[simp] theorem State.modFw_exports (f : Fw → Fw) : (s.modFw f).exports = s.exports := rfl
@[simp] theorem State.modFw_flash (f : Fw → Fw) : (s.modFw f).flash = s.flash := rfl
@[simp] theorem State.modFw_fw (f : Fw → Fw) : (s.modFw f).fw = f s.fw := rfl
@[simp] theorem State.modFw_sec (f : Fw → Fw) : (s.modFw f).sec = s.sec := rfl
@[simp] theorem State.modFw_saps (f : Fw → Fw) : (s.modFw f).saps = s.saps := rfl
@[simp] theorem State.modFw_clk (f : Fw → Fw) : (s.modFw f).clk = s.clk := rfl
@[simp] theorem State.modFw_jtag (f : Fw → Fw) : (s.modFw f).jtag = s.jtag := rfl
@[simp] theorem State.modFw_sent (f : Fw → Fw) : (s.modFw f).sent = s.sent := rfl
@[simp] theorem State.modFw_stream (f : Fw → Fw) (j : Nat) : (s.modFw f).stream j = s.stream j := rfl
@[simp] theorem State.modFw_egr (f : Fw → Fw) (j : Nat) : (s.modFw f).egr j = s.egr j := rfl
@[simp] theorem State.modFw_journal (f : Fw → Fw) (j : Nat) : (s.modFw f).journal j = s.journal j := rfl
@[simp] theorem State.modFw_stall (f : Fw → Fw) (j : Nat) : (s.modFw f).stall j = s.stall j := rfl
@[simp] theorem State.modFw_voice (f : Fw → Fw) (j : Nat) : (s.modFw f).voice j = s.voice j := rfl
@[simp] theorem State.modFw_base (f : Fw → Fw) (j : Nat) : (s.modFw f).base j = s.base j := rfl
@[simp] theorem State.modFw_row (f : Fw → Fw) (j : Nat) : (s.modFw f).row j = s.row j := rfl
@[simp] theorem State.modFw_press (f : Fw → Fw) (j : Nat) : (s.modFw f).press j = s.press j := rfl
@[simp] theorem State.modFw_stage (f : Fw → Fw) (j : Nat) : (s.modFw f).stage j = s.stage j := rfl
@[simp] theorem State.modFw_recUnit (f : Fw → Fw) (j : Nat) : (s.modFw f).recUnit j = s.recUnit j := rfl
@[simp] theorem State.modFw_engine (f : Fw → Fw) (j : Nat) : (s.modFw f).engine j = s.engine j := rfl
@[simp] theorem State.modFw_channel (f : Fw → Fw) (j : Nat) : (s.modFw f).channel j = s.channel j := rfl
@[simp] theorem State.modFw_die (f : Fw → Fw) (j : Nat) : (s.modFw f).die j = s.die j := rfl
@[simp] theorem State.modFw_net (f : Fw → Fw) (j : Nat) : (s.modFw f).net j = s.net j := rfl
@[simp] theorem State.modFw_sess (f : Fw → Fw) (j : Nat) : (s.modFw f).sess j = s.sess j := rfl
@[simp] theorem State.modFw_crierSrc (f : Fw → Fw) (j : Nat) : (s.modFw f).crierSrc j = s.crierSrc j := rfl
@[simp] theorem State.modFw_img (f : Fw → Fw) (j : Nat) : (s.modFw f).img j = s.img j := rfl
@[simp] theorem State.modFw_sap (f : Fw → Fw) (j : Nat) : (s.modFw f).sap j = s.sap j := rfl
@[simp] theorem State.modFw_park (f : Fw → Fw) (j : Nat) : (s.modFw f).park j = s.park j := rfl
@[simp] theorem State.modFw_lib (f : Fw → Fw) (j : Nat) : (s.modFw f).lib j = s.lib j := rfl
@[simp] theorem State.modFw_flashCh (f : Fw → Fw) (j : Nat) : (s.modFw f).flashCh j = s.flashCh j := rfl

/-! ## emit -/

@[simp] theorem State.emit_pending (x : Sent) : (s.emit x).pending = s.pending := rfl
@[simp] theorem State.emit_now (x : Sent) : (s.emit x).now = s.now := rfl
@[simp] theorem State.emit_stamp (x : Sent) : (s.emit x).stamp = s.stamp := rfl
@[simp] theorem State.emit_free (x : Sent) : (s.emit x).free = s.free := rfl
@[simp] theorem State.emit_power (x : Sent) : (s.emit x).power = s.power := rfl
@[simp] theorem State.emit_streams (x : Sent) : (s.emit x).streams = s.streams := rfl
@[simp] theorem State.emit_egress (x : Sent) : (s.emit x).egress = s.egress := rfl
@[simp] theorem State.emit_journals (x : Sent) : (s.emit x).journals = s.journals := rfl
@[simp] theorem State.emit_stalls (x : Sent) : (s.emit x).stalls = s.stalls := rfl
@[simp] theorem State.emit_voices (x : Sent) : (s.emit x).voices = s.voices := rfl
@[simp] theorem State.emit_bases (x : Sent) : (s.emit x).bases = s.bases := rfl
@[simp] theorem State.emit_rows (x : Sent) : (s.emit x).rows = s.rows := rfl
@[simp] theorem State.emit_presses (x : Sent) : (s.emit x).presses = s.presses := rfl
@[simp] theorem State.emit_stages (x : Sent) : (s.emit x).stages = s.stages := rfl
@[simp] theorem State.emit_rings (x : Sent) : (s.emit x).rings = s.rings := rfl
@[simp] theorem State.emit_recUnits (x : Sent) : (s.emit x).recUnits = s.recUnits := rfl
@[simp] theorem State.emit_engines (x : Sent) : (s.emit x).engines = s.engines := rfl
@[simp] theorem State.emit_channels (x : Sent) : (s.emit x).channels = s.channels := rfl
@[simp] theorem State.emit_dies (x : Sent) : (s.emit x).dies = s.dies := rfl
@[simp] theorem State.emit_mem (x : Sent) : (s.emit x).mem = s.mem := rfl
@[simp] theorem State.emit_heldMoves (x : Sent) : (s.emit x).heldMoves = s.heldMoves := rfl
@[simp] theorem State.emit_nets (x : Sent) : (s.emit x).nets = s.nets := rfl
@[simp] theorem State.emit_sessions (x : Sent) : (s.emit x).sessions = s.sessions := rfl
@[simp] theorem State.emit_vct (x : Sent) : (s.emit x).vct = s.vct := rfl
@[simp] theorem State.emit_criers (x : Sent) : (s.emit x).criers = s.criers := rfl
@[simp] theorem State.emit_clerk (x : Sent) : (s.emit x).clerk = s.clerk := rfl
@[simp] theorem State.emit_exports (x : Sent) : (s.emit x).exports = s.exports := rfl
@[simp] theorem State.emit_flash (x : Sent) : (s.emit x).flash = s.flash := rfl
@[simp] theorem State.emit_fw (x : Sent) : (s.emit x).fw = s.fw := rfl
@[simp] theorem State.emit_sec (x : Sent) : (s.emit x).sec = s.sec := rfl
@[simp] theorem State.emit_saps (x : Sent) : (s.emit x).saps = s.saps := rfl
@[simp] theorem State.emit_clk (x : Sent) : (s.emit x).clk = s.clk := rfl
@[simp] theorem State.emit_jtag (x : Sent) : (s.emit x).jtag = s.jtag := rfl
@[simp] theorem State.emit_sent (x : Sent) : (s.emit x).sent = x :: s.sent := rfl
@[simp] theorem State.emit_stream (x : Sent) (j : Nat) : (s.emit x).stream j = s.stream j := rfl
@[simp] theorem State.emit_egr (x : Sent) (j : Nat) : (s.emit x).egr j = s.egr j := rfl
@[simp] theorem State.emit_journal (x : Sent) (j : Nat) : (s.emit x).journal j = s.journal j := rfl
@[simp] theorem State.emit_stall (x : Sent) (j : Nat) : (s.emit x).stall j = s.stall j := rfl
@[simp] theorem State.emit_voice (x : Sent) (j : Nat) : (s.emit x).voice j = s.voice j := rfl
@[simp] theorem State.emit_base (x : Sent) (j : Nat) : (s.emit x).base j = s.base j := rfl
@[simp] theorem State.emit_row (x : Sent) (j : Nat) : (s.emit x).row j = s.row j := rfl
@[simp] theorem State.emit_press (x : Sent) (j : Nat) : (s.emit x).press j = s.press j := rfl
@[simp] theorem State.emit_stage (x : Sent) (j : Nat) : (s.emit x).stage j = s.stage j := rfl
@[simp] theorem State.emit_recUnit (x : Sent) (j : Nat) : (s.emit x).recUnit j = s.recUnit j := rfl
@[simp] theorem State.emit_engine (x : Sent) (j : Nat) : (s.emit x).engine j = s.engine j := rfl
@[simp] theorem State.emit_channel (x : Sent) (j : Nat) : (s.emit x).channel j = s.channel j := rfl
@[simp] theorem State.emit_die (x : Sent) (j : Nat) : (s.emit x).die j = s.die j := rfl
@[simp] theorem State.emit_net (x : Sent) (j : Nat) : (s.emit x).net j = s.net j := rfl
@[simp] theorem State.emit_sess (x : Sent) (j : Nat) : (s.emit x).sess j = s.sess j := rfl
@[simp] theorem State.emit_crierSrc (x : Sent) (j : Nat) : (s.emit x).crierSrc j = s.crierSrc j := rfl
@[simp] theorem State.emit_img (x : Sent) (j : Nat) : (s.emit x).img j = s.img j := rfl
@[simp] theorem State.emit_sap (x : Sent) (j : Nat) : (s.emit x).sap j = s.sap j := rfl
@[simp] theorem State.emit_park (x : Sent) (j : Nat) : (s.emit x).park j = s.park j := rfl
@[simp] theorem State.emit_lib (x : Sent) (j : Nat) : (s.emit x).lib j = s.lib j := rfl
@[simp] theorem State.emit_flashCh (x : Sent) (j : Nat) : (s.emit x).flashCh j = s.flashCh j := rfl

/-! ## tick -/

@[simp] theorem State.tick_pending : (s.tick).pending = s.pending := rfl
@[simp] theorem State.tick_now : (s.tick).now = s.now := rfl
@[simp] theorem State.tick_stamp : s.tick.stamp = s.stamp + 1 := rfl
@[simp] theorem State.tick_free : (s.tick).free = s.free := rfl
@[simp] theorem State.tick_power : (s.tick).power = s.power := rfl
@[simp] theorem State.tick_streams : (s.tick).streams = s.streams := rfl
@[simp] theorem State.tick_egress : (s.tick).egress = s.egress := rfl
@[simp] theorem State.tick_journals : (s.tick).journals = s.journals := rfl
@[simp] theorem State.tick_stalls : (s.tick).stalls = s.stalls := rfl
@[simp] theorem State.tick_voices : (s.tick).voices = s.voices := rfl
@[simp] theorem State.tick_bases : (s.tick).bases = s.bases := rfl
@[simp] theorem State.tick_rows : (s.tick).rows = s.rows := rfl
@[simp] theorem State.tick_presses : (s.tick).presses = s.presses := rfl
@[simp] theorem State.tick_stages : (s.tick).stages = s.stages := rfl
@[simp] theorem State.tick_rings : (s.tick).rings = s.rings := rfl
@[simp] theorem State.tick_recUnits : (s.tick).recUnits = s.recUnits := rfl
@[simp] theorem State.tick_engines : (s.tick).engines = s.engines := rfl
@[simp] theorem State.tick_channels : (s.tick).channels = s.channels := rfl
@[simp] theorem State.tick_dies : (s.tick).dies = s.dies := rfl
@[simp] theorem State.tick_mem : (s.tick).mem = s.mem := rfl
@[simp] theorem State.tick_heldMoves : (s.tick).heldMoves = s.heldMoves := rfl
@[simp] theorem State.tick_nets : (s.tick).nets = s.nets := rfl
@[simp] theorem State.tick_sessions : (s.tick).sessions = s.sessions := rfl
@[simp] theorem State.tick_vct : (s.tick).vct = s.vct := rfl
@[simp] theorem State.tick_criers : (s.tick).criers = s.criers := rfl
@[simp] theorem State.tick_clerk : (s.tick).clerk = s.clerk := rfl
@[simp] theorem State.tick_exports : (s.tick).exports = s.exports := rfl
@[simp] theorem State.tick_flash : (s.tick).flash = s.flash := rfl
@[simp] theorem State.tick_fw : (s.tick).fw = s.fw := rfl
@[simp] theorem State.tick_sec : (s.tick).sec = s.sec := rfl
@[simp] theorem State.tick_saps : (s.tick).saps = s.saps := rfl
@[simp] theorem State.tick_clk : (s.tick).clk = s.clk := rfl
@[simp] theorem State.tick_jtag : (s.tick).jtag = s.jtag := rfl
@[simp] theorem State.tick_sent : (s.tick).sent = s.sent := rfl
@[simp] theorem State.tick_stream (j : Nat) : (s.tick).stream j = s.stream j := rfl
@[simp] theorem State.tick_egr (j : Nat) : (s.tick).egr j = s.egr j := rfl
@[simp] theorem State.tick_journal (j : Nat) : (s.tick).journal j = s.journal j := rfl
@[simp] theorem State.tick_stall (j : Nat) : (s.tick).stall j = s.stall j := rfl
@[simp] theorem State.tick_voice (j : Nat) : (s.tick).voice j = s.voice j := rfl
@[simp] theorem State.tick_base (j : Nat) : (s.tick).base j = s.base j := rfl
@[simp] theorem State.tick_row (j : Nat) : (s.tick).row j = s.row j := rfl
@[simp] theorem State.tick_press (j : Nat) : (s.tick).press j = s.press j := rfl
@[simp] theorem State.tick_stage (j : Nat) : (s.tick).stage j = s.stage j := rfl
@[simp] theorem State.tick_recUnit (j : Nat) : (s.tick).recUnit j = s.recUnit j := rfl
@[simp] theorem State.tick_engine (j : Nat) : (s.tick).engine j = s.engine j := rfl
@[simp] theorem State.tick_channel (j : Nat) : (s.tick).channel j = s.channel j := rfl
@[simp] theorem State.tick_die (j : Nat) : (s.tick).die j = s.die j := rfl
@[simp] theorem State.tick_net (j : Nat) : (s.tick).net j = s.net j := rfl
@[simp] theorem State.tick_sess (j : Nat) : (s.tick).sess j = s.sess j := rfl
@[simp] theorem State.tick_crierSrc (j : Nat) : (s.tick).crierSrc j = s.crierSrc j := rfl
@[simp] theorem State.tick_img (j : Nat) : (s.tick).img j = s.img j := rfl
@[simp] theorem State.tick_sap (j : Nat) : (s.tick).sap j = s.sap j := rfl
@[simp] theorem State.tick_park (j : Nat) : (s.tick).park j = s.park j := rfl
@[simp] theorem State.tick_lib (j : Nat) : (s.tick).lib j = s.lib j := rfl
@[simp] theorem State.tick_flashCh (j : Nat) : (s.tick).flashCh j = s.flashCh j := rfl

/-! ## draw -/

@[simp] theorem State.draw_pending : (s.draw.2).pending = s.pending := rfl
@[simp] theorem State.draw_now : (s.draw.2).now = s.now := rfl
@[simp] theorem State.draw_stamp : (s.draw.2).stamp = s.stamp := rfl
@[simp] theorem State.draw_free : s.draw.2.free = s.free + 1 := rfl
@[simp] theorem State.draw_power : (s.draw.2).power = s.power := rfl
@[simp] theorem State.draw_streams : (s.draw.2).streams = s.streams := rfl
@[simp] theorem State.draw_egress : (s.draw.2).egress = s.egress := rfl
@[simp] theorem State.draw_journals : (s.draw.2).journals = s.journals := rfl
@[simp] theorem State.draw_stalls : (s.draw.2).stalls = s.stalls := rfl
@[simp] theorem State.draw_voices : (s.draw.2).voices = s.voices := rfl
@[simp] theorem State.draw_bases : (s.draw.2).bases = s.bases := rfl
@[simp] theorem State.draw_rows : (s.draw.2).rows = s.rows := rfl
@[simp] theorem State.draw_presses : (s.draw.2).presses = s.presses := rfl
@[simp] theorem State.draw_stages : (s.draw.2).stages = s.stages := rfl
@[simp] theorem State.draw_rings : (s.draw.2).rings = s.rings := rfl
@[simp] theorem State.draw_recUnits : (s.draw.2).recUnits = s.recUnits := rfl
@[simp] theorem State.draw_engines : (s.draw.2).engines = s.engines := rfl
@[simp] theorem State.draw_channels : (s.draw.2).channels = s.channels := rfl
@[simp] theorem State.draw_dies : (s.draw.2).dies = s.dies := rfl
@[simp] theorem State.draw_mem : (s.draw.2).mem = s.mem := rfl
@[simp] theorem State.draw_heldMoves : (s.draw.2).heldMoves = s.heldMoves := rfl
@[simp] theorem State.draw_nets : (s.draw.2).nets = s.nets := rfl
@[simp] theorem State.draw_sessions : (s.draw.2).sessions = s.sessions := rfl
@[simp] theorem State.draw_vct : (s.draw.2).vct = s.vct := rfl
@[simp] theorem State.draw_criers : (s.draw.2).criers = s.criers := rfl
@[simp] theorem State.draw_clerk : (s.draw.2).clerk = s.clerk := rfl
@[simp] theorem State.draw_exports : (s.draw.2).exports = s.exports := rfl
@[simp] theorem State.draw_flash : (s.draw.2).flash = s.flash := rfl
@[simp] theorem State.draw_fw : (s.draw.2).fw = s.fw := rfl
@[simp] theorem State.draw_sec : (s.draw.2).sec = s.sec := rfl
@[simp] theorem State.draw_saps : (s.draw.2).saps = s.saps := rfl
@[simp] theorem State.draw_clk : (s.draw.2).clk = s.clk := rfl
@[simp] theorem State.draw_jtag : (s.draw.2).jtag = s.jtag := rfl
@[simp] theorem State.draw_sent : (s.draw.2).sent = s.sent := rfl
@[simp] theorem State.draw_stream (j : Nat) : (s.draw.2).stream j = s.stream j := rfl
@[simp] theorem State.draw_egr (j : Nat) : (s.draw.2).egr j = s.egr j := rfl
@[simp] theorem State.draw_journal (j : Nat) : (s.draw.2).journal j = s.journal j := rfl
@[simp] theorem State.draw_stall (j : Nat) : (s.draw.2).stall j = s.stall j := rfl
@[simp] theorem State.draw_voice (j : Nat) : (s.draw.2).voice j = s.voice j := rfl
@[simp] theorem State.draw_base (j : Nat) : (s.draw.2).base j = s.base j := rfl
@[simp] theorem State.draw_row (j : Nat) : (s.draw.2).row j = s.row j := rfl
@[simp] theorem State.draw_press (j : Nat) : (s.draw.2).press j = s.press j := rfl
@[simp] theorem State.draw_stage (j : Nat) : (s.draw.2).stage j = s.stage j := rfl
@[simp] theorem State.draw_recUnit (j : Nat) : (s.draw.2).recUnit j = s.recUnit j := rfl
@[simp] theorem State.draw_engine (j : Nat) : (s.draw.2).engine j = s.engine j := rfl
@[simp] theorem State.draw_channel (j : Nat) : (s.draw.2).channel j = s.channel j := rfl
@[simp] theorem State.draw_die (j : Nat) : (s.draw.2).die j = s.die j := rfl
@[simp] theorem State.draw_net (j : Nat) : (s.draw.2).net j = s.net j := rfl
@[simp] theorem State.draw_sess (j : Nat) : (s.draw.2).sess j = s.sess j := rfl
@[simp] theorem State.draw_crierSrc (j : Nat) : (s.draw.2).crierSrc j = s.crierSrc j := rfl
@[simp] theorem State.draw_img (j : Nat) : (s.draw.2).img j = s.img j := rfl
@[simp] theorem State.draw_sap (j : Nat) : (s.draw.2).sap j = s.sap j := rfl
@[simp] theorem State.draw_park (j : Nat) : (s.draw.2).park j = s.park j := rfl
@[simp] theorem State.draw_lib (j : Nat) : (s.draw.2).lib j = s.lib j := rfl
@[simp] theorem State.draw_flashCh (j : Nat) : (s.draw.2).flashCh j = s.flashCh j := rfl

end Sys2Proof.Machine
end

