-- ==== Sys2Proof/Laws/Ops.lean ====
section
/-! SUPPORT. What the shared operations keep: the queue of waiting commands, memory's canonical form, and the parts of the state that each
never writes (a mask over `Field`, by index). -/

namespace Sys2Proof.Machine
set_option Elab.async false

/-- Every part of the mask `a` is a part of the mask `m`. -/
structure Sub (a m : Nat) : Prop where
  bit : ∀ i, a.testBit i = true → m.testBit i = true

theorem Sub.refl (m : Nat) : Sub m m := ⟨fun _ h => h⟩
theorem Sub.of {a b m : Nat} (h : Sub a m) (k : b &&& a = b) : Sub b m := by
  refine ⟨fun i hi => h.bit i ?_⟩
  rw [← k, Nat.testBit_and] at hi
  exact (Bool.and_eq_true_iff.mp hi).2

/-- What every operation but the queue's keeps: the queue of waiting commands, memory's canonical form, and every part of
the state (`Field`, by its index) that the mask does not name. -/
structure Keeps (μ : Nat) (s t : State) : Prop where
  pending : t.pending = s.pending
  wf : Memory.wf s.mem = true → Memory.wf t.mem = true
  frame : ∀ p : Field, μ.testBit p.ctorIdx = false → p.same s t

theorem Field.same_refl (p : Field) (s : State) : p.same s s := by cases p <;> rfl
theorem Field.same_trans (p : Field) {s t u : State} (h : p.same s t) (k : p.same t u) : p.same s u := by
  cases p <;> exact k.trans h

namespace Keeps
theorem refl {μ : Nat} (s : State) : Keeps μ s s := ⟨rfl, id, fun p _ => p.same_refl s⟩
theorem id_ {μ : Nat} (s : State) : Keeps μ s (id s) := .refl s
theorem trans {μ : Nat} {s t u : State} (h : Keeps μ s t) (k : Keeps μ t u) : Keeps μ s u :=
  ⟨k.pending.trans h.pending, k.wf ∘ h.wf, fun p q => p.same_trans (h.frame p q) (k.frame p q)⟩
theorem mono {μ ν : Nat} {s t : State} (h : Keeps μ s t) (k : Sub μ ν) : Keeps ν s t :=
  ⟨h.pending, h.wf, fun p q => h.frame p (by
    cases e : μ.testBit p.ctorIdx with
    | false => rfl
    | true => rw [k.bit _ e] at q; cases q)⟩
/-- One more change: of the parts of `a` alone, the queue left as it is. -/
theorem part {μ a : Nat} {s t u : State} (h : Keeps μ s t) (hp : u.pending = t.pending)
    (hw : Memory.wf t.mem = true → Memory.wf u.mem = true) (hf : ∀ p : Field, a.testBit p.ctorIdx = false → p.same t u)
    (hm : Sub a μ) : Keeps μ s u := h.trans ((⟨hp, hw, hf⟩ : Keeps a t u).mono hm)
theorem ite {μ : Nat} {s t u : State} {c : Prop} [Decidable c] (h : Keeps μ s t) (k : Keeps μ s u) :
    Keeps μ s (if c then t else u) := by
  split <;> assumption
theorem mem {μ : Nat} {s t : State} {m : List Host.Cell} (h : Keeps μ s t) (k : Memory.wf t.mem = true → Memory.wf m = true)
    (hm : Sub 0x20000 μ := by first | assumption | (apply Sub.of <;> first | assumption | rfl)) : Keeps μ s { t with mem := m } :=
  h.part rfl k (fun p => by cases p <;> first | exact fun _ => rfl | exact fun e => absurd e (by decide)) hm
theorem journals {μ : Nat} {s t : State} {x : Tbl Journal} (h : Keeps μ s t)
    (hm : Sub 0x40 μ := by first | assumption | (apply Sub.of <;> first | assumption | rfl)) : Keeps μ s { t with journals := x } :=
  h.part rfl id (fun p => by cases p <;> first | exact fun _ => rfl | exact fun e => absurd e (by decide)) hm
theorem tokens {μ : Nat} {s t : State} {x : Tbl Stage} {y : Tbl Row} (h : Keeps μ s t)
    (hm : Sub 0x1400 μ := by first | assumption | (apply Sub.of <;> first | assumption | rfl)) : Keeps μ s { t with stages := x, rows := y } :=
  h.part rfl id (fun p => by cases p <;> first | exact fun _ => rfl | exact fun e => absurd e (by decide)) hm
theorem voices {μ : Nat} {s t : State} {x : Tbl Voice} (h : Keeps μ s t)
    (hm : Sub 0x100 μ := by first | assumption | (apply Sub.of <;> first | assumption | rfl)) : Keeps μ s { t with voices := x } :=
  h.part rfl id (fun p => by cases p <;> first | exact fun _ => rfl | exact fun e => absurd e (by decide)) hm
theorem free {μ : Nat} {s t : State} {x : Nat} (h : Keeps μ s t)
    (hm : Sub 0x4 μ := by first | assumption | (apply Sub.of <;> first | assumption | rfl)) : Keeps μ s { t with free := x } :=
  h.part rfl id (fun p => by cases p <;> first | exact fun _ => rfl | exact fun e => absurd e (by decide)) hm
theorem channels {μ : Nat} {s t : State} {x : Tbl Channel} (h : Keeps μ s t)
    (hm : Sub 0x8000 μ := by first | assumption | (apply Sub.of <;> first | assumption | rfl)) : Keeps μ s { t with channels := x } :=
  h.part rfl id (fun p => by cases p <;> first | exact fun _ => rfl | exact fun e => absurd e (by decide)) hm
theorem engines {μ : Nat} {s t : State} {x : Tbl Engine} (h : Keeps μ s t)
    (hm : Sub 0x4000 μ := by first | assumption | (apply Sub.of <;> first | assumption | rfl)) : Keeps μ s { t with engines := x } :=
  h.part rfl id (fun p => by cases p <;> first | exact fun _ => rfl | exact fun e => absurd e (by decide)) hm
theorem rows {μ : Nat} {s t : State} {x : Tbl Row} (h : Keeps μ s t)
    (hm : Sub 0x400 μ := by first | assumption | (apply Sub.of <;> first | assumption | rfl)) : Keeps μ s { t with rows := x } :=
  h.part rfl id (fun p => by cases p <;> first | exact fun _ => rfl | exact fun e => absurd e (by decide)) hm
theorem rings {μ : Nat} {s t : State} {x : List (Producer × CompRec)} (h : Keeps μ s t)
    (hm : Sub 0x80000000 μ := by first | assumption | (apply Sub.of <;> first | assumption | rfl)) : Keeps μ s { t with rings := x } :=
  h.part rfl id (fun p => by cases p <;> first | exact fun _ => rfl | exact fun e => absurd e (by decide)) hm
theorem heldMoves {μ : Nat} {s t : State} {x : List HeldMove} (h : Keeps μ s t)
    (hm : Sub 0x100000000 μ := by first | assumption | (apply Sub.of <;> first | assumption | rfl)) : Keeps μ s { t with heldMoves := x } :=
  h.part rfl id (fun p => by cases p <;> first | exact fun _ => rfl | exact fun e => absurd e (by decide)) hm
theorem flash {μ : Nat} {s t : State} {x : Flash} (h : Keeps μ s t)
    (hm : Sub 0x1000000 μ := by first | assumption | (apply Sub.of <;> first | assumption | rfl)) : Keeps μ s { t with flash := x } :=
  h.part rfl id (fun p => by cases p <;> first | exact fun _ => rfl | exact fun e => absurd e (by decide)) hm
theorem jtag {μ : Nat} {s t : State} {x : Jtag} (h : Keeps μ s t)
    (hm : Sub 0x20000000 μ := by first | assumption | (apply Sub.of <;> first | assumption | rfl)) : Keeps μ s { t with jtag := x } :=
  h.part rfl id (fun p => by cases p <;> first | exact fun _ => rfl | exact fun e => absurd e (by decide)) hm
theorem of_snd {μ : Nat} {α : Type} {s t : State} {p : α × State} {b : α} (e : p = (b, t)) (h : Keeps μ s p.2) :
    Keeps μ s t := by subst e; exact h
theorem of_fst {μ : Nat} {α : Type} {s t : State} {p : State × α} {b : α} (e : p = (t, b)) (h : Keeps μ s p.1) :
    Keeps μ s t := by subst e; exact h
end Keeps

theorem State.putStream_keeps {μ : Nat} {s₀ : State} (s : State) (k : Nat) (v : Stream) (h : Keeps μ s₀ s)
    (hm : Sub 0x10 μ := by first | assumption | (apply Sub.of <;> first | assumption | rfl)) : Keeps μ s₀ (s.putStream k v) :=
  h.part rfl id (fun p => by cases p <;> first | exact fun _ => rfl | exact fun e => absurd e (by decide)) hm
theorem State.modStream_keeps {μ : Nat} {s₀ : State} (s : State) (k : Nat) (f : Stream → Stream) (h : Keeps μ s₀ s)
    (hm : Sub 0x10 μ := by first | assumption | (apply Sub.of <;> first | assumption | rfl)) : Keeps μ s₀ (s.modStream k f) :=
  h.part rfl id (fun p => by cases p <;> first | exact fun _ => rfl | exact fun e => absurd e (by decide)) hm
theorem State.putEgr_keeps {μ : Nat} {s₀ : State} (s : State) (k : Nat) (v : Egress) (h : Keeps μ s₀ s)
    (hm : Sub 0x20 μ := by first | assumption | (apply Sub.of <;> first | assumption | rfl)) : Keeps μ s₀ (s.putEgr k v) :=
  h.part rfl id (fun p => by cases p <;> first | exact fun _ => rfl | exact fun e => absurd e (by decide)) hm
theorem State.modEgr_keeps {μ : Nat} {s₀ : State} (s : State) (k : Nat) (f : Egress → Egress) (h : Keeps μ s₀ s)
    (hm : Sub 0x20 μ := by first | assumption | (apply Sub.of <;> first | assumption | rfl)) : Keeps μ s₀ (s.modEgr k f) :=
  h.part rfl id (fun p => by cases p <;> first | exact fun _ => rfl | exact fun e => absurd e (by decide)) hm
theorem State.putJournal_keeps {μ : Nat} {s₀ : State} (s : State) (k : Nat) (v : Journal) (h : Keeps μ s₀ s)
    (hm : Sub 0x40 μ := by first | assumption | (apply Sub.of <;> first | assumption | rfl)) : Keeps μ s₀ (s.putJournal k v) :=
  h.part rfl id (fun p => by cases p <;> first | exact fun _ => rfl | exact fun e => absurd e (by decide)) hm
theorem State.modJournal_keeps {μ : Nat} {s₀ : State} (s : State) (k : Nat) (f : Journal → Journal) (h : Keeps μ s₀ s)
    (hm : Sub 0x40 μ := by first | assumption | (apply Sub.of <;> first | assumption | rfl)) : Keeps μ s₀ (s.modJournal k f) :=
  h.part rfl id (fun p => by cases p <;> first | exact fun _ => rfl | exact fun e => absurd e (by decide)) hm
theorem State.putStall_keeps {μ : Nat} {s₀ : State} (s : State) (k : Nat) (v : Stall) (h : Keeps μ s₀ s)
    (hm : Sub 0x80 μ := by first | assumption | (apply Sub.of <;> first | assumption | rfl)) : Keeps μ s₀ (s.putStall k v) :=
  h.part rfl id (fun p => by cases p <;> first | exact fun _ => rfl | exact fun e => absurd e (by decide)) hm
theorem State.modStall_keeps {μ : Nat} {s₀ : State} (s : State) (k : Nat) (f : Stall → Stall) (h : Keeps μ s₀ s)
    (hm : Sub 0x80 μ := by first | assumption | (apply Sub.of <;> first | assumption | rfl)) : Keeps μ s₀ (s.modStall k f) :=
  h.part rfl id (fun p => by cases p <;> first | exact fun _ => rfl | exact fun e => absurd e (by decide)) hm
theorem State.putVoice_keeps {μ : Nat} {s₀ : State} (s : State) (k : Nat) (v : Voice) (h : Keeps μ s₀ s)
    (hm : Sub 0x100 μ := by first | assumption | (apply Sub.of <;> first | assumption | rfl)) : Keeps μ s₀ (s.putVoice k v) :=
  h.part rfl id (fun p => by cases p <;> first | exact fun _ => rfl | exact fun e => absurd e (by decide)) hm
theorem State.modVoice_keeps {μ : Nat} {s₀ : State} (s : State) (k : Nat) (f : Voice → Voice) (h : Keeps μ s₀ s)
    (hm : Sub 0x100 μ := by first | assumption | (apply Sub.of <;> first | assumption | rfl)) : Keeps μ s₀ (s.modVoice k f) :=
  h.part rfl id (fun p => by cases p <;> first | exact fun _ => rfl | exact fun e => absurd e (by decide)) hm
theorem State.putBase_keeps {μ : Nat} {s₀ : State} (s : State) (k : Nat) (v : Base) (h : Keeps μ s₀ s)
    (hm : Sub 0x200 μ := by first | assumption | (apply Sub.of <;> first | assumption | rfl)) : Keeps μ s₀ (s.putBase k v) :=
  h.part rfl id (fun p => by cases p <;> first | exact fun _ => rfl | exact fun e => absurd e (by decide)) hm
theorem State.modBase_keeps {μ : Nat} {s₀ : State} (s : State) (k : Nat) (f : Base → Base) (h : Keeps μ s₀ s)
    (hm : Sub 0x200 μ := by first | assumption | (apply Sub.of <;> first | assumption | rfl)) : Keeps μ s₀ (s.modBase k f) :=
  h.part rfl id (fun p => by cases p <;> first | exact fun _ => rfl | exact fun e => absurd e (by decide)) hm
theorem State.putRow_keeps {μ : Nat} {s₀ : State} (s : State) (k : Nat) (v : Row) (h : Keeps μ s₀ s)
    (hm : Sub 0x400 μ := by first | assumption | (apply Sub.of <;> first | assumption | rfl)) : Keeps μ s₀ (s.putRow k v) :=
  h.part rfl id (fun p => by cases p <;> first | exact fun _ => rfl | exact fun e => absurd e (by decide)) hm
theorem State.modRow_keeps {μ : Nat} {s₀ : State} (s : State) (k : Nat) (f : Row → Row) (h : Keeps μ s₀ s)
    (hm : Sub 0x400 μ := by first | assumption | (apply Sub.of <;> first | assumption | rfl)) : Keeps μ s₀ (s.modRow k f) :=
  h.part rfl id (fun p => by cases p <;> first | exact fun _ => rfl | exact fun e => absurd e (by decide)) hm
theorem State.putPress_keeps {μ : Nat} {s₀ : State} (s : State) (k : Nat) (v : Press) (h : Keeps μ s₀ s)
    (hm : Sub 0x800 μ := by first | assumption | (apply Sub.of <;> first | assumption | rfl)) : Keeps μ s₀ (s.putPress k v) :=
  h.part rfl id (fun p => by cases p <;> first | exact fun _ => rfl | exact fun e => absurd e (by decide)) hm
theorem State.modPress_keeps {μ : Nat} {s₀ : State} (s : State) (k : Nat) (f : Press → Press) (h : Keeps μ s₀ s)
    (hm : Sub 0x800 μ := by first | assumption | (apply Sub.of <;> first | assumption | rfl)) : Keeps μ s₀ (s.modPress k f) :=
  h.part rfl id (fun p => by cases p <;> first | exact fun _ => rfl | exact fun e => absurd e (by decide)) hm
theorem State.putStage_keeps {μ : Nat} {s₀ : State} (s : State) (k : Nat) (v : Stage) (h : Keeps μ s₀ s)
    (hm : Sub 0x1000 μ := by first | assumption | (apply Sub.of <;> first | assumption | rfl)) : Keeps μ s₀ (s.putStage k v) :=
  h.part rfl id (fun p => by cases p <;> first | exact fun _ => rfl | exact fun e => absurd e (by decide)) hm
theorem State.modStage_keeps {μ : Nat} {s₀ : State} (s : State) (k : Nat) (f : Stage → Stage) (h : Keeps μ s₀ s)
    (hm : Sub 0x1000 μ := by first | assumption | (apply Sub.of <;> first | assumption | rfl)) : Keeps μ s₀ (s.modStage k f) :=
  h.part rfl id (fun p => by cases p <;> first | exact fun _ => rfl | exact fun e => absurd e (by decide)) hm
theorem State.putRecUnit_keeps {μ : Nat} {s₀ : State} (s : State) (k : Nat) (v : RecUnit) (h : Keeps μ s₀ s)
    (hm : Sub 0x2000 μ := by first | assumption | (apply Sub.of <;> first | assumption | rfl)) : Keeps μ s₀ (s.putRecUnit k v) :=
  h.part rfl id (fun p => by cases p <;> first | exact fun _ => rfl | exact fun e => absurd e (by decide)) hm
theorem State.modRecUnit_keeps {μ : Nat} {s₀ : State} (s : State) (k : Nat) (f : RecUnit → RecUnit) (h : Keeps μ s₀ s)
    (hm : Sub 0x2000 μ := by first | assumption | (apply Sub.of <;> first | assumption | rfl)) : Keeps μ s₀ (s.modRecUnit k f) :=
  h.part rfl id (fun p => by cases p <;> first | exact fun _ => rfl | exact fun e => absurd e (by decide)) hm
theorem State.putEngine_keeps {μ : Nat} {s₀ : State} (s : State) (k : Nat) (v : Engine) (h : Keeps μ s₀ s)
    (hm : Sub 0x4000 μ := by first | assumption | (apply Sub.of <;> first | assumption | rfl)) : Keeps μ s₀ (s.putEngine k v) :=
  h.part rfl id (fun p => by cases p <;> first | exact fun _ => rfl | exact fun e => absurd e (by decide)) hm
theorem State.modEngine_keeps {μ : Nat} {s₀ : State} (s : State) (k : Nat) (f : Engine → Engine) (h : Keeps μ s₀ s)
    (hm : Sub 0x4000 μ := by first | assumption | (apply Sub.of <;> first | assumption | rfl)) : Keeps μ s₀ (s.modEngine k f) :=
  h.part rfl id (fun p => by cases p <;> first | exact fun _ => rfl | exact fun e => absurd e (by decide)) hm
theorem State.putChannel_keeps {μ : Nat} {s₀ : State} (s : State) (k : Nat) (v : Channel) (h : Keeps μ s₀ s)
    (hm : Sub 0x8000 μ := by first | assumption | (apply Sub.of <;> first | assumption | rfl)) : Keeps μ s₀ (s.putChannel k v) :=
  h.part rfl id (fun p => by cases p <;> first | exact fun _ => rfl | exact fun e => absurd e (by decide)) hm
theorem State.modChannel_keeps {μ : Nat} {s₀ : State} (s : State) (k : Nat) (f : Channel → Channel) (h : Keeps μ s₀ s)
    (hm : Sub 0x8000 μ := by first | assumption | (apply Sub.of <;> first | assumption | rfl)) : Keeps μ s₀ (s.modChannel k f) :=
  h.part rfl id (fun p => by cases p <;> first | exact fun _ => rfl | exact fun e => absurd e (by decide)) hm
theorem State.putDie_keeps {μ : Nat} {s₀ : State} (s : State) (k : Nat) (v : Die) (h : Keeps μ s₀ s)
    (hm : Sub 0x10000 μ := by first | assumption | (apply Sub.of <;> first | assumption | rfl)) : Keeps μ s₀ (s.putDie k v) :=
  h.part rfl id (fun p => by cases p <;> first | exact fun _ => rfl | exact fun e => absurd e (by decide)) hm
theorem State.modDie_keeps {μ : Nat} {s₀ : State} (s : State) (k : Nat) (f : Die → Die) (h : Keeps μ s₀ s)
    (hm : Sub 0x10000 μ := by first | assumption | (apply Sub.of <;> first | assumption | rfl)) : Keeps μ s₀ (s.modDie k f) :=
  h.part rfl id (fun p => by cases p <;> first | exact fun _ => rfl | exact fun e => absurd e (by decide)) hm
theorem State.putNet_keeps {μ : Nat} {s₀ : State} (s : State) (k : Nat) (v : NetPort) (h : Keeps μ s₀ s)
    (hm : Sub 0x40000 μ := by first | assumption | (apply Sub.of <;> first | assumption | rfl)) : Keeps μ s₀ (s.putNet k v) :=
  h.part rfl id (fun p => by cases p <;> first | exact fun _ => rfl | exact fun e => absurd e (by decide)) hm
theorem State.modNet_keeps {μ : Nat} {s₀ : State} (s : State) (k : Nat) (f : NetPort → NetPort) (h : Keeps μ s₀ s)
    (hm : Sub 0x40000 μ := by first | assumption | (apply Sub.of <;> first | assumption | rfl)) : Keeps μ s₀ (s.modNet k f) :=
  h.part rfl id (fun p => by cases p <;> first | exact fun _ => rfl | exact fun e => absurd e (by decide)) hm
theorem State.putSess_keeps {μ : Nat} {s₀ : State} (s : State) (k : Nat) (v : Session) (h : Keeps μ s₀ s)
    (hm : Sub 0x80000 μ := by first | assumption | (apply Sub.of <;> first | assumption | rfl)) : Keeps μ s₀ (s.putSess k v) :=
  h.part rfl id (fun p => by cases p <;> first | exact fun _ => rfl | exact fun e => absurd e (by decide)) hm
theorem State.modSess_keeps {μ : Nat} {s₀ : State} (s : State) (k : Nat) (f : Session → Session) (h : Keeps μ s₀ s)
    (hm : Sub 0x80000 μ := by first | assumption | (apply Sub.of <;> first | assumption | rfl)) : Keeps μ s₀ (s.modSess k f) :=
  h.part rfl id (fun p => by cases p <;> first | exact fun _ => rfl | exact fun e => absurd e (by decide)) hm
theorem State.putCrierSrc_keeps {μ : Nat} {s₀ : State} (s : State) (k : Nat) (v : CrierSrc) (h : Keeps μ s₀ s)
    (hm : Sub 0x200000 μ := by first | assumption | (apply Sub.of <;> first | assumption | rfl)) : Keeps μ s₀ (s.putCrierSrc k v) :=
  h.part rfl id (fun p => by cases p <;> first | exact fun _ => rfl | exact fun e => absurd e (by decide)) hm
theorem State.modCrierSrc_keeps {μ : Nat} {s₀ : State} (s : State) (k : Nat) (f : CrierSrc → CrierSrc) (h : Keeps μ s₀ s)
    (hm : Sub 0x200000 μ := by first | assumption | (apply Sub.of <;> first | assumption | rfl)) : Keeps μ s₀ (s.modCrierSrc k f) :=
  h.part rfl id (fun p => by cases p <;> first | exact fun _ => rfl | exact fun e => absurd e (by decide)) hm
theorem State.putImg_keeps {μ : Nat} {s₀ : State} (s : State) (k : Nat) (v : ExportImg) (h : Keeps μ s₀ s)
    (hm : Sub 0x800000 μ := by first | assumption | (apply Sub.of <;> first | assumption | rfl)) : Keeps μ s₀ (s.putImg k v) :=
  h.part rfl id (fun p => by cases p <;> first | exact fun _ => rfl | exact fun e => absurd e (by decide)) hm
theorem State.modImg_keeps {μ : Nat} {s₀ : State} (s : State) (k : Nat) (f : ExportImg → ExportImg) (h : Keeps μ s₀ s)
    (hm : Sub 0x800000 μ := by first | assumption | (apply Sub.of <;> first | assumption | rfl)) : Keeps μ s₀ (s.modImg k f) :=
  h.part rfl id (fun p => by cases p <;> first | exact fun _ => rfl | exact fun e => absurd e (by decide)) hm
theorem State.putSap_keeps {μ : Nat} {s₀ : State} (s : State) (k : Nat) (v : Sap) (h : Keeps μ s₀ s)
    (hm : Sub 0x8000000 μ := by first | assumption | (apply Sub.of <;> first | assumption | rfl)) : Keeps μ s₀ (s.putSap k v) :=
  h.part rfl id (fun p => by cases p <;> first | exact fun _ => rfl | exact fun e => absurd e (by decide)) hm
theorem State.modSap_keeps {μ : Nat} {s₀ : State} (s : State) (k : Nat) (f : Sap → Sap) (h : Keeps μ s₀ s)
    (hm : Sub 0x8000000 μ := by first | assumption | (apply Sub.of <;> first | assumption | rfl)) : Keeps μ s₀ (s.modSap k f) :=
  h.part rfl id (fun p => by cases p <;> first | exact fun _ => rfl | exact fun e => absurd e (by decide)) hm
theorem State.putPark_keeps {μ : Nat} {s₀ : State} (s : State) (k : Nat) (v : Park) (h : Keeps μ s₀ s)
    (hm : Sub 0x1000000 μ := by first | assumption | (apply Sub.of <;> first | assumption | rfl)) : Keeps μ s₀ (s.putPark k v) :=
  h.part rfl id (fun p => by cases p <;> first | exact fun _ => rfl | exact fun e => absurd e (by decide)) hm
theorem State.modPark_keeps {μ : Nat} {s₀ : State} (s : State) (k : Nat) (f : Park → Park) (h : Keeps μ s₀ s)
    (hm : Sub 0x1000000 μ := by first | assumption | (apply Sub.of <;> first | assumption | rfl)) : Keeps μ s₀ (s.modPark k f) :=
  h.part rfl id (fun p => by cases p <;> first | exact fun _ => rfl | exact fun e => absurd e (by decide)) hm
theorem State.putLib_keeps {μ : Nat} {s₀ : State} (s : State) (k : Nat) (v : LibEntry) (h : Keeps μ s₀ s)
    (hm : Sub 0x1000000 μ := by first | assumption | (apply Sub.of <;> first | assumption | rfl)) : Keeps μ s₀ (s.putLib k v) :=
  h.part rfl id (fun p => by cases p <;> first | exact fun _ => rfl | exact fun e => absurd e (by decide)) hm
theorem State.modLib_keeps {μ : Nat} {s₀ : State} (s : State) (k : Nat) (f : LibEntry → LibEntry) (h : Keeps μ s₀ s)
    (hm : Sub 0x1000000 μ := by first | assumption | (apply Sub.of <;> first | assumption | rfl)) : Keeps μ s₀ (s.modLib k f) :=
  h.part rfl id (fun p => by cases p <;> first | exact fun _ => rfl | exact fun e => absurd e (by decide)) hm
theorem State.putFlashCh_keeps {μ : Nat} {s₀ : State} (s : State) (k : Nat) (v : FlashCh) (h : Keeps μ s₀ s)
    (hm : Sub 0x1000000 μ := by first | assumption | (apply Sub.of <;> first | assumption | rfl)) : Keeps μ s₀ (s.putFlashCh k v) :=
  h.part rfl id (fun p => by cases p <;> first | exact fun _ => rfl | exact fun e => absurd e (by decide)) hm
theorem State.modFlashCh_keeps {μ : Nat} {s₀ : State} (s : State) (k : Nat) (f : FlashCh → FlashCh) (h : Keeps μ s₀ s)
    (hm : Sub 0x1000000 μ := by first | assumption | (apply Sub.of <;> first | assumption | rfl)) : Keeps μ s₀ (s.modFlashCh k f) :=
  h.part rfl id (fun p => by cases p <;> first | exact fun _ => rfl | exact fun e => absurd e (by decide)) hm
theorem State.modClerk_keeps {μ : Nat} {s₀ : State} (s : State) (f : Clerk → Clerk) (h : Keeps μ s₀ s)
    (hm : Sub 0x400000 μ := by first | assumption | (apply Sub.of <;> first | assumption | rfl)) : Keeps μ s₀ (s.modClerk f) :=
  h.part rfl id (fun p => by cases p <;> first | exact fun _ => rfl | exact fun e => absurd e (by decide)) hm
theorem State.modVct_keeps {μ : Nat} {s₀ : State} (s : State) (f : Vct → Vct) (h : Keeps μ s₀ s)
    (hm : Sub 0x100000 μ := by first | assumption | (apply Sub.of <;> first | assumption | rfl)) : Keeps μ s₀ (s.modVct f) :=
  h.part rfl id (fun p => by cases p <;> first | exact fun _ => rfl | exact fun e => absurd e (by decide)) hm
theorem State.modSec_keeps {μ : Nat} {s₀ : State} (s : State) (f : Sec → Sec) (h : Keeps μ s₀ s)
    (hm : Sub 0x4000000 μ := by first | assumption | (apply Sub.of <;> first | assumption | rfl)) : Keeps μ s₀ (s.modSec f) :=
  h.part rfl id (fun p => by cases p <;> first | exact fun _ => rfl | exact fun e => absurd e (by decide)) hm
theorem State.modFlash_keeps {μ : Nat} {s₀ : State} (s : State) (f : Flash → Flash) (h : Keeps μ s₀ s)
    (hm : Sub 0x1000000 μ := by first | assumption | (apply Sub.of <;> first | assumption | rfl)) : Keeps μ s₀ (s.modFlash f) :=
  h.part rfl id (fun p => by cases p <;> first | exact fun _ => rfl | exact fun e => absurd e (by decide)) hm
theorem State.modClk_keeps {μ : Nat} {s₀ : State} (s : State) (f : Clk → Clk) (h : Keeps μ s₀ s)
    (hm : Sub 0x10000000 μ := by first | assumption | (apply Sub.of <;> first | assumption | rfl)) : Keeps μ s₀ (s.modClk f) :=
  h.part rfl id (fun p => by cases p <;> first | exact fun _ => rfl | exact fun e => absurd e (by decide)) hm
theorem State.modPower_keeps {μ : Nat} {s₀ : State} (s : State) (f : Power → Power) (h : Keeps μ s₀ s)
    (hm : Sub 0x8 μ := by first | assumption | (apply Sub.of <;> first | assumption | rfl)) : Keeps μ s₀ (s.modPower f) :=
  h.part rfl id (fun p => by cases p <;> first | exact fun _ => rfl | exact fun e => absurd e (by decide)) hm
theorem State.modFw_keeps {μ : Nat} {s₀ : State} (s : State) (f : Fw → Fw) (h : Keeps μ s₀ s)
    (hm : Sub 0x2000000 μ := by first | assumption | (apply Sub.of <;> first | assumption | rfl)) : Keeps μ s₀ (s.modFw f) :=
  h.part rfl id (fun p => by cases p <;> first | exact fun _ => rfl | exact fun e => absurd e (by decide)) hm
theorem State.emit_keeps {μ : Nat} {s₀ : State} (s : State) (x : Sent) (h : Keeps μ s₀ s)
    (hm : Sub 0x40000000 μ := by first | assumption | (apply Sub.of <;> first | assumption | rfl)) : Keeps μ s₀ (s.emit x) :=
  h.part rfl id (fun p => by cases p <;> first | exact fun _ => rfl | exact fun e => absurd e (by decide)) hm
theorem State.tick_keeps {μ : Nat} {s₀ : State} (s : State) (h : Keeps μ s₀ s)
    (hm : Sub 0x2 μ := by first | assumption | (apply Sub.of <;> first | assumption | rfl)) : Keeps μ s₀ s.tick :=
  h.part rfl id (fun p => by cases p <;> first | exact fun _ => rfl | exact fun e => absurd e (by decide)) hm
theorem State.draw_keeps {μ : Nat} {s₀ : State} (s : State) (h : Keeps μ s₀ s)
    (hm : Sub 0x4 μ := by first | assumption | (apply Sub.of <;> first | assumption | rfl)) : Keeps μ s₀ s.draw.2 :=
  h.part rfl id (fun p => by cases p <;> first | exact fun _ => rfl | exact fun e => absurd e (by decide)) hm
theorem forEach_keeps {α : Type} {μ : Nat} {s₀ : State} (f : State → α → State) (l : List α) (s : State) (hf : ∀ t a, Keeps μ t (f t a)) (h : Keeps μ s₀ s) : Keeps μ s₀ (forEach f l s) := by
  induction l generalizing s with
  | nil => exact h
  | cons a l ih => exact ih _ (h.trans (hf s a))

theorem foldl_keeps {α β : Type} {μ : Nat} {s₀ : State} (f : State × β → α → State × β)
    (hf : ∀ acc a, Keeps μ s₀ acc.1 → Keeps μ s₀ (f acc a).1) (l : List α) (p : State × β) (h : Keeps μ s₀ p.1) :
    Keeps μ s₀ (l.foldl f p).1 := by
  induction l generalizing p with
  | nil => exact h
  | cons a l ih => exact ih _ (hf p a h)

/-- A step under a live clock keeps what its effect keeps. -/
theorem run_keeps {μ : Nat} {s t : State} {f : State → State} (hf : ∀ u, Keeps μ u (f u)) (h : run s f = .next t) :
    Keeps μ s t := by
  unfold run at h
  split at h
  · injection h with h; exact h ▸ hf s
  · cases h

theorem run_next {s : State} {f : State → State} (h : s.clocked = true) : run s f = .next (f s) := by simp [run, h]
theorem run_fault {s : State} {f : State → State} (h : s.clocked = false)
    : run s f = .fault .undefinedAfterClockLoss := by
  simp [run, h]

theorem runPort_keeps {μ : Nat} {s t : State} {f : State → State} (hf : ∀ u, Keeps μ u (f u))
    (h : runPort s f = .next t) :
    Keeps μ s t := by
  unfold runPort at h
  split at h
  · injection h with h; exact h ▸ Keeps.refl s
  · exact run_keeps hf h

theorem State.modWear_keeps {μ : Nat} {s₀ : State} (s : State) (f : Wear → Wear) (hk
    : Keeps μ s₀ s) (hm : Sub 0x1000000 μ := by first | assumption | (apply Sub.of <;> first | assumption | rfl))
    : Keeps μ s₀ (State.modWear s f) := by
  unfold State.modWear
  repeat' first
      | (with_reducible first
          | exact hk | exact Keeps.refl _ | apply Keeps.flash)
      | (apply Sub.of <;> first | assumption | rfl) | dsimp only

theorem State.flashWrite_keeps {μ : Nat} {s₀ : State} (s : State) (key pages : Nat) (hk
    : Keeps μ s₀ s) (hm : Sub 0x1000004 μ := by first | assumption | (apply Sub.of <;> first | assumption | rfl))
    : Keeps μ s₀ (State.flashWrite s key pages) := by
  unfold State.flashWrite
  repeat' first
      | (with_reducible first
          | exact hk | exact Keeps.refl _ | apply Keeps.ite | apply State.draw_keeps | apply State.modWear_keeps
          | apply forEach_keeps)
      | (intro _ _) | (apply Sub.of <;> first | assumption | rfl) | split | dsimp only

theorem State.libRead_keeps {μ : Nat} {s₀ : State} (s : State) (n bytes : Nat) (hk
    : Keeps μ s₀ s) (hm : Sub 0x1000000 μ := by first | assumption | (apply Sub.of <;> first | assumption | rfl))
    : Keeps μ s₀ (State.libRead s n bytes) := by
  unfold State.libRead
  repeat' first
      | (with_reducible first
          | exact hk | exact Keeps.refl _ | apply State.modWear_keeps)
      | (intro _ _) | (apply Sub.of <;> first | assumption | rfl) | dsimp only

theorem State.flashReadPage_keeps {μ : Nat} {s₀ : State} (s : State) (key : Nat) (hk
    : Keeps μ s₀ s) (hm : Sub 0x1000004 μ := by first | assumption | (apply Sub.of <;> first | assumption | rfl))
    : Keeps μ s₀ (State.flashReadPage s key) := by
  unfold State.flashReadPage
  repeat' first
      | (with_reducible first
          | exact hk | exact Keeps.refl _ | apply State.draw_keeps | apply State.modWear_keeps)
      | (intro _ _) | (apply Sub.of <;> first | assumption | rfl) | dsimp only

theorem State.flashFree_keeps {μ : Nat} {s₀ : State} (s : State) (key : Nat) (hk
    : Keeps μ s₀ s) (hm : Sub 0x1000000 μ := by first | assumption | (apply Sub.of <;> first | assumption | rfl))
    : Keeps μ s₀ (State.flashFree s key) := by
  unfold State.flashFree
  repeat' first
      | (with_reducible first
          | exact hk | exact Keeps.refl _ | apply State.modWear_keeps)
      | (intro _ _) | (apply Sub.of <;> first | assumption | rfl) | dsimp only

theorem State.raise_keeps {μ : Nat} {s₀ : State} (s : State) (src : Nat) (r : CrierRec) (hk
    : Keeps μ s₀ s) (hm : Sub 0x600000 μ := by first | assumption | (apply Sub.of <;> first | assumption | rfl))
    : Keeps μ s₀ (State.raise s src r) := by
  unfold State.raise
  repeat' first
      | (with_reducible first
          | exact hk | exact Keeps.refl _ | apply Keeps.ite | apply State.putCrierSrc_keeps
          | apply State.modClerk_keeps)
      | (intro _ _) | (apply Sub.of <;> first | assumption | rfl) | split | dsimp only

theorem State.sendFrame_keeps {μ : Nat} {s₀ : State} (s : State) (p : Nat) (x : Sent) (hk
    : Keeps μ s₀ s)
    (hm : Sub 0x40040000 μ := by first | assumption | (apply Sub.of <;> first | assumption | rfl))
    : Keeps μ s₀ (State.sendFrame s p x) := by
  unfold State.sendFrame
  repeat' first
      | (with_reducible first
          | exact hk | exact Keeps.refl _ | apply Keeps.ite | apply State.modNet_keeps | apply State.emit_keeps)
      | (intro _ _) | (apply Sub.of <;> first | assumption | rfl) | split | dsimp only

theorem State.sendOn_keeps {μ : Nat} {s₀ : State} (s : State) (p : Nat) (x : Sent) (hk
    : Keeps μ s₀ s)
    (hm : Sub 0x40040000 μ := by first | assumption | (apply Sub.of <;> first | assumption | rfl))
    : Keeps μ s₀ (State.sendOn s p x) := by
  unfold State.sendOn
  repeat' first
      | (with_reducible first
          | exact hk | exact Keeps.refl _ | apply Keeps.ite | apply State.modNet_keeps | apply State.sendFrame_keeps)
      | (intro _ _) | (apply Sub.of <;> first | assumption | rfl) | split | dsimp only

theorem State.sendVct_keeps {μ : Nat} {s₀ : State} (s : State) (k : Nat) (x : Sent) (hk
    : Keeps μ s₀ s)
    (hm : Sub 0x40040000 μ := by first | assumption | (apply Sub.of <;> first | assumption | rfl))
    : Keeps μ s₀ (State.sendVct s k x) := by
  unfold State.sendVct
  repeat' first
      | (with_reducible first
          | exact hk | exact Keeps.refl _ | apply State.sendOn_keeps)
      | (apply Sub.of <;> first | assumption | rfl) | dsimp only

theorem State.sendHeld_keeps {μ : Nat} {s₀ : State} (s : State) (p : Nat) (hk
    : Keeps μ s₀ s)
    (hm : Sub 0x40040000 μ := by first | assumption | (apply Sub.of <;> first | assumption | rfl))
    : Keeps μ s₀ (State.sendHeld s p) := by
  unfold State.sendHeld
  repeat' first
      | (with_reducible first
          | exact hk | exact Keeps.refl _ | apply State.sendFrame_keeps | apply State.modNet_keeps
          | apply forEach_keeps)
      | (intro _ _) | (apply Sub.of <;> first | assumption | rfl) | dsimp only

theorem State.post_keeps {μ : Nat} {s₀ : State} (s : State) (k type : Nat) (body : List Byte)
    (aud : Option (Nat × Nat × Nat)) (hk : Keeps μ s₀ s)
    (hm : Sub 0x401C0000 μ := by first | assumption | (apply Sub.of <;> first | assumption | rfl))
    : Keeps μ s₀ (State.post s k type body aud) := by
  unfold State.post
  repeat' first
      | (with_reducible first
          | exact hk | exact Keeps.refl _ | apply Keeps.ite | apply State.putSess_keeps | apply State.sendVct_keeps
          | apply State.modVct_keeps)
      | (intro _ _) | (apply Sub.of <;> first | assumption | rfl) | split | dsimp only

theorem State.writeResponse_keeps {μ : Nat} {s₀ : State} (s : State) (k : Nat) (seq : BitVec 32)
    (payload : List Byte) (hk : Keeps μ s₀ s)
    (hm : Sub 0x401C0000 μ := by first | assumption | (apply Sub.of <;> first | assumption | rfl))
    : Keeps μ s₀ (State.writeResponse s k seq payload) := by
  unfold State.writeResponse
  extract_lets v1
  have h1 : Keeps μ s₀ v1 := by
    unfold v1
    repeat' first
        | (with_reducible first
            | exact hk | exact Keeps.refl _ | apply Keeps.ite | apply State.modSess_keeps)
        | (intro _ _) | (apply Sub.of <;> first | assumption | rfl) | split | dsimp only
  clear_value v1
  repeat' first
      | (with_reducible first
          | exact h1 | exact Keeps.refl _ | apply State.post_keeps)
      | (apply Sub.of <;> first | assumption | rfl) | dsimp only

theorem State.loseResponse_keeps {μ : Nat} {s₀ : State} (s : State) (d : Defer) (hk
    : Keeps μ s₀ s) (hm : Sub 0x180000 μ := by first | assumption | (apply Sub.of <;> first | assumption | rfl))
    : Keeps μ s₀ (State.loseResponse s d) := by
  unfold State.loseResponse
  extract_lets v1
  have h1 : Keeps μ s₀ v1 := by
    unfold v1
    repeat' first
        | (with_reducible first
            | exact hk | exact Keeps.refl _ | apply State.modVct_keeps)
        | (intro _ _) | (apply Sub.of <;> first | assumption | rfl) | dsimp only
  clear_value v1
  repeat' first
      | (with_reducible first
          | exact h1 | exact Keeps.refl _ | apply Keeps.ite | apply State.modSess_keeps)
      | (intro _ _) | (apply Sub.of <;> first | assumption | rfl) | split | dsimp only

theorem State.respond_keeps {μ : Nat} {s₀ : State} (s : State) (d : Defer) (st : Status) (flags : Nat)
    (body : List Byte) (hk : Keeps μ s₀ s)
    (hm : Sub 0x405C0000 μ := by first | assumption | (apply Sub.of <;> first | assumption | rfl))
    : Keeps μ s₀ (State.respond s d st flags body) := by
  unfold State.respond
  extract_lets v1 v2
  clear_value v1
  have h2 : Keeps μ s₀ v2 := by
    unfold v2
    repeat' first
        | (with_reducible first
            | exact hk | exact Keeps.refl _ | apply State.modClerk_keeps)
        | (apply Sub.of <;> first | assumption | rfl) | dsimp only
  clear_value v2
  repeat' first
      | (with_reducible first
          | exact h2 | exact Keeps.refl _ | apply Keeps.ite | apply State.modSess_keeps
          | apply State.writeResponse_keeps | apply State.loseResponse_keeps)
      | (intro _ _) | (apply Sub.of <;> first | assumption | rfl) | split | dsimp only

theorem State.serveBad_keeps {μ : Nat} {s₀ : State} (k fuel : Nat) (s : State) (hk
    : Keeps μ s₀ s) (hm : Sub 0x405C0000 μ := by first | assumption | (apply Sub.of <;> first | assumption | rfl)) :
    Keeps μ s₀ (State.serveBad k fuel s) := by
  induction fuel generalizing s with
  | zero => exact hk
  | succ fuel ih =>
    unfold State.serveBad
    dsimp only
    split
    · split
      · refine ih _ ?_
        split
        · exact State.respond_keeps _ _ _ _ _ hk
        · exact State.respond_keeps _ _ _ _ _ hk
      · exact hk
    · exact hk

theorem State.reply_keeps {μ : Nat} {s₀ : State} (s : State) (d : Defer) (st : Status) (flags : Nat)
    (body : List Byte) (hk : Keeps μ s₀ s)
    (hm : Sub 0x405C0000 μ := by first | assumption | (apply Sub.of <;> first | assumption | rfl)) :
    Keeps μ s₀ (State.reply s d st flags body) := by
  exact State.serveBad_keeps _ _ _ (State.respond_keeps _ _ _ _ _ hk)

theorem State.answer_keeps {μ : Nat} {s₀ : State} (s : State) (d : Option Defer) (st : Status)
    (body : List Byte) (hk : Keeps μ s₀ s)
    (hm : Sub 0x405C0000 μ := by first | assumption | (apply Sub.of <;> first | assumption | rfl))
    : Keeps μ s₀ (State.answer s d st body) := by
  unfold State.answer
  repeat' first
      | (with_reducible first
          | exact hk | exact Keeps.refl _ | apply State.respond_keeps)
      | (apply Sub.of <;> first | assumption | rfl) | split | dsimp only

theorem State.answerAll_keeps {μ : Nat} {s₀ : State} (s : State) (ds : List Defer) (st : Status)
    (body : List Byte) (hk : Keeps μ s₀ s)
    (hm : Sub 0x405C0000 μ := by first | assumption | (apply Sub.of <;> first | assumption | rfl))
    : Keeps μ s₀ (State.answerAll s ds st body) := by
  unfold State.answerAll
  repeat' first
      | (with_reducible first
          | exact hk | exact Keeps.refl _ | apply State.respond_keeps | apply forEach_keeps)
      | (intro _ _) | (apply Sub.of <;> first | assumption | rfl) | dsimp only

theorem State.answerOwed_keeps {μ : Nat} {s₀ : State} (s : State) (x : Stream) (st : Status) (body : List Byte)
    (hk : Keeps μ s₀ s)
    (hm : Sub 0x405C0000 μ := by first | assumption | (apply Sub.of <;> first | assumption | rfl))
    : Keeps μ s₀ (State.answerOwed s x st body) := by
  unfold State.answerOwed
  repeat' first
      | (with_reducible first
          | exact hk | exact Keeps.refl _ | apply State.answerAll_keeps | apply State.answer_keeps)
      | (apply Sub.of <;> first | assumption | rfl) | dsimp only

theorem State.audit_keeps {μ : Nat} {s₀ : State} (s : State) (kind op : Nat) (status : Byte) (role : Nat)
    (sess : Option Nat) (stall : Option Nat) (src : BitVec 128) (detail : List Byte) (hk : Keeps μ s₀ s)
    (hm : Sub 0x4000000 μ := by first | assumption | (apply Sub.of <;> first | assumption | rfl))
    : Keeps μ s₀ (State.audit s kind op status role sess stall src detail) := by
  unfold State.audit
  repeat' first
      | (with_reducible first
          | exact hk | exact Keeps.refl _ | apply State.modSec_keeps)
      | (intro _ _) | (apply Sub.of <;> first | assumption | rfl) | split | dsimp only

theorem State.flashEvent_keeps {μ : Nat} {s₀ : State} (s : State) (kind value unit : Nat) (stream : Option Nat)
    (hk : Keeps μ s₀ s)
    (hm : Sub 0x600000 μ := by first | assumption | (apply Sub.of <;> first | assumption | rfl))
    : Keeps μ s₀ (State.flashEvent s kind value unit stream) := by
  unfold State.flashEvent
  repeat' first
      | (with_reducible first
          | exact hk | exact Keeps.refl _ | apply Keeps.ite | apply State.raise_keeps)
      | (apply Sub.of <;> first | assumption | rfl) | split | dsimp only

theorem State.retireBlock_keeps {μ : Nat} {s₀ : State} (s : State) (block channel : Nat) (hk
    : Keeps μ s₀ s) (hm : Sub 0x1600000 μ := by first | assumption | (apply Sub.of <;> first | assumption | rfl))
    : Keeps μ s₀ (State.retireBlock s block channel) := by
  unfold State.retireBlock
  extract_lets v1 v2 v3 v4 v5 v6 v7
  clear_value v1
  clear_value v2
  clear_value v3
  have h4 : Keeps μ s₀ v4 := by
    unfold v4
    repeat' first
        | (with_reducible first
            | exact hk | exact Keeps.refl _ | apply State.modFlash_keeps)
        | (intro _ _) | (apply Sub.of <;> first | assumption | rfl) | dsimp only
  clear_value v4
  have h5 : Keeps μ s₀ v5 := by
    unfold v5
    repeat' first
        | (with_reducible first
            | exact h4 | exact Keeps.refl _ | apply State.flashEvent_keeps)
        | (apply Sub.of <;> first | assumption | rfl) | dsimp only
  clear_value v5
  have h6 : Keeps μ s₀ v6 := by
    unfold v6
    repeat' first
        | (with_reducible first
            | exact h5 | exact Keeps.refl _ | apply State.modWear_keeps)
        | (intro _ _) | (apply Sub.of <;> first | assumption | rfl) | dsimp only
  clear_value v6
  have h7 : Keeps μ s₀ v7 := by
    unfold v7
    repeat' first
        | (with_reducible first
            | exact h6 | exact Keeps.refl _ | apply Keeps.ite | apply State.flashEvent_keeps)
        | (apply Sub.of <;> first | assumption | rfl) | split | dsimp only
  clear_value v7
  repeat' first
      | (with_reducible first
          | exact h7 | exact Keeps.refl _ | apply Keeps.ite | apply State.flashEvent_keeps)
      | (apply Sub.of <;> first | assumption | rfl) | split | dsimp only

theorem State.programFailed_keeps {μ : Nat} {s₀ : State} (s : State) (hk
    : Keeps μ s₀ s) (hm : Sub 0x1600004 μ := by first | assumption | (apply Sub.of <;> first | assumption | rfl))
    : Keeps μ s₀ (State.programFailed s) := by
  unfold State.programFailed
  repeat' first
      | (with_reducible first
          | exact hk | exact Keeps.refl _ | apply State.draw_keeps | apply State.retireBlock_keeps
          | apply forEach_keeps)
      | (intro _ _) | (apply Sub.of <;> first | assumption | rfl) | split | dsimp only

theorem State.giveBufs_keeps {μ : Nat} {s₀ : State} (s : State) (bufs : List (Nat × Nat)) (hk
    : Keeps μ s₀ s) (hm : Sub 0x10000 μ := by first | assumption | (apply Sub.of <;> first | assumption | rfl))
    : Keeps μ s₀ (State.giveBufs s bufs) := by
  unfold State.giveBufs
  repeat' first
      | (with_reducible first
          | exact hk | exact Keeps.refl _ | apply State.modDie_keeps | apply forEach_keeps)
      | (intro _ _) | (apply Sub.of <;> first | assumption | rfl) | dsimp only

theorem State.releaseChunk_keeps {μ : Nat} {s₀ : State} (n : Nat) (s : State) (c : HeldChunk) (hk
    : Keeps μ s₀ s) (hm : Sub 0x10080 μ := by first | assumption | (apply Sub.of <;> first | assumption | rfl))
    : Keeps μ s₀ (State.releaseChunk n s c) := by
  unfold State.releaseChunk
  extract_lets v1 v2 v3
  clear_value v1
  have h2 : Keeps μ s₀ v2 := by
    unfold v2
    repeat' first
        | (with_reducible first
            | exact hk | exact Keeps.refl _ | apply State.giveBufs_keeps)
        | (apply Sub.of <;> first | assumption | rfl) | dsimp only
  clear_value v2
  have h3 : Keeps μ s₀ v3 := by
    unfold v3
    repeat' first
        | (with_reducible first
            | exact h2 | exact Keeps.refl _ | apply Keeps.ite | apply State.modDie_keeps)
        | (intro _ _) | (apply Sub.of <;> first | assumption | rfl) | split | dsimp only
  clear_value v3
  repeat' first
      | (with_reducible first
          | exact h3 | exact Keeps.refl _ | apply State.modStall_keeps)
      | (intro _ _) | (apply Sub.of <;> first | assumption | rfl) | dsimp only

theorem State.releaseChunks_keeps {μ : Nat} {s₀ : State} (s : State) (n : Nat) (cs : List HeldChunk) (hk
    : Keeps μ s₀ s) (hm : Sub 0x10080 μ := by first | assumption | (apply Sub.of <;> first | assumption | rfl))
    : Keeps μ s₀ (State.releaseChunks s n cs) := by
  unfold State.releaseChunks
  repeat' first
      | (with_reducible first
          | exact hk | exact Keeps.refl _ | apply State.releaseChunk_keeps | apply forEach_keeps)
      | (intro _ _) | (apply Sub.of <;> first | assumption | rfl) | dsimp only

theorem State.takeBufs_keeps {μ : Nat} {s₀ : State} (ds : List Nat) (k : Nat) (s : State) (hk
    : Keeps μ s₀ s) (hm : Sub 0x10000 μ := by first | assumption | (apply Sub.of <;> first | assumption | rfl)) :
    Keeps μ s₀ (State.takeBufs ds k s).2 := by
  induction ds generalizing k s with
  | nil => exact hk
  | cons d ds ih => exact ih _ _ (.ite hk (State.modDie_keeps _ _ _ hk))

theorem State.givePitch_keeps {μ : Nat} {s₀ : State} (s : State) (n : Nat) (hk
    : Keeps μ s₀ s) (hm : Sub 0x10080 μ := by first | assumption | (apply Sub.of <;> first | assumption | rfl))
    : Keeps μ s₀ (State.givePitch s n) := by
  unfold State.givePitch
  extract_lets v1 v2
  clear_value v1
  have h2 : Keeps μ s₀ v2 := by
    unfold v2
    repeat' first
        | (with_reducible first
            | exact hk | exact Keeps.refl _ | apply State.modDie_keeps)
        | (intro _ _) | (apply Sub.of <;> first | assumption | rfl) | dsimp only
  clear_value v2
  repeat' first
      | (with_reducible first
          | exact h2 | exact Keeps.refl _ | apply State.modStall_keeps)
      | (intro _ _) | (apply Sub.of <;> first | assumption | rfl) | dsimp only

theorem State.giveEgress_keeps {μ : Nat} {s₀ : State} (s : State) (stall c : Nat) (hk
    : Keeps μ s₀ s) (hm : Sub 0x400080 μ := by first | assumption | (apply Sub.of <;> first | assumption | rfl))
    : Keeps μ s₀ (State.giveEgress s stall c) := by
  unfold State.giveEgress
  repeat' first
      | (with_reducible first
          | exact hk | exact Keeps.refl _ | apply State.modClerk_keeps | apply State.modStall_keeps)
      | (intro _ _) | (apply Sub.of <;> first | assumption | rfl) | dsimp only

theorem State.unbindSlot_keeps {μ : Nat} {s₀ : State} (s : State) (n : Nat) (e : Egress) (hk
    : Keeps μ s₀ s) (hm : Sub 0x8000000 μ := by first | assumption | (apply Sub.of <;> first | assumption | rfl))
    : Keeps μ s₀ (State.unbindSlot s n e) := by
  unfold State.unbindSlot
  repeat' first
      | (with_reducible first
          | exact hk | exact Keeps.refl _ | apply Keeps.ite | apply State.modSap_keeps)
      | (intro _ _) | (apply Sub.of <;> first | assumption | rfl) | split | dsimp only

theorem State.discardEgress_keeps {μ : Nat} {s₀ : State} (s : State) (n : Nat) (keep : Bool) (hk
    : Keeps μ s₀ s) (hm : Sub 0x4000A0 μ := by first | assumption | (apply Sub.of <;> first | assumption | rfl))
    : Keeps μ s₀ (State.discardEgress s n keep) := by
  unfold State.discardEgress
  extract_lets v1 v2
  clear_value v1
  have h2 : Keeps μ s₀ v2 := by
    unfold v2
    repeat' first
        | (with_reducible first
            | exact hk | exact Keeps.refl _ | apply State.giveEgress_keeps)
        | (apply Sub.of <;> first | assumption | rfl) | dsimp only
  clear_value v2
  repeat' first
      | (with_reducible first
          | exact h2 | exact Keeps.refl _ | apply State.putEgr_keeps)
      | (apply Sub.of <;> first | assumption | rfl) | dsimp only

theorem State.dropEgress_keeps {μ : Nat} {s₀ : State} (s : State) (n : Nat) (hk
    : Keeps μ s₀ s) (hm : Sub 0x4000A0 μ := by first | assumption | (apply Sub.of <;> first | assumption | rfl))
    : Keeps μ s₀ (State.dropEgress s n) := by
  unfold State.dropEgress
  repeat' first
      | (with_reducible first
          | exact hk | exact Keeps.refl _ | apply State.discardEgress_keeps)
      | (apply Sub.of <;> first | assumption | rfl) | dsimp only

theorem State.closeEgress_keeps {μ : Nat} {s₀ : State} (s : State) (n : Nat) (hk
    : Keeps μ s₀ s) (hm : Sub 0x84000A0 μ := by first | assumption | (apply Sub.of <;> first | assumption | rfl))
    : Keeps μ s₀ (State.closeEgress s n) := by
  unfold State.closeEgress
  extract_lets v1 v2 v3
  clear_value v1
  have h2 : Keeps μ s₀ v2 := by
    unfold v2
    repeat' first
        | (with_reducible first
            | exact hk | exact Keeps.refl _ | apply Keeps.ite | apply State.dropEgress_keeps)
        | (apply Sub.of <;> first | assumption | rfl) | split | dsimp only
  clear_value v2
  clear_value v3
  repeat' first
      | (with_reducible first
          | exact h2 | exact Keeps.refl _ | apply Keeps.ite | apply State.unbindSlot_keeps | apply State.putEgr_keeps)
      | (apply Sub.of <;> first | assumption | rfl) | split | dsimp only

theorem State.pushDesc_keeps {μ : Nat} {s₀ : State} (s : State) (who : Producer) (e q : Nat) (d : Desc) (hk
    : Keeps μ s₀ s) (hm : Sub 0x4000 μ := by first | assumption | (apply Sub.of <;> first | assumption | rfl))
    : Keeps μ s₀ (State.pushDesc s who e q d) := by
  unfold State.pushDesc
  repeat' first
      | (with_reducible first
          | exact hk | exact Keeps.refl _ | apply Keeps.ite | apply State.modEngine_keeps)
      | (intro _ _) | (apply Sub.of <;> first | assumption | rfl) | split | dsimp only

theorem State.signalSys_keeps {μ : Nat} {s₀ : State} (s : State) (e b : Nat) (hk
    : Keeps μ s₀ s) (hm : Sub 0x4000 μ := by first | assumption | (apply Sub.of <;> first | assumption | rfl))
    : Keeps μ s₀ (State.signalSys s e b) := by
  unfold State.signalSys
  repeat' first
      | (with_reducible first
          | exact hk | exact Keeps.refl _ | apply Keeps.ite | apply State.modEngine_keeps)
      | (intro _ _) | (apply Sub.of <;> first | assumption | rfl) | split | dsimp only

theorem State.takeBar_keeps {μ : Nat} {s₀ : State} (s : State) (e b k : Nat) (hk
    : Keeps μ s₀ s) (hm : Sub 0x4000 μ := by first | assumption | (apply Sub.of <;> first | assumption | rfl))
    : Keeps μ s₀ (State.takeBar s e b k) := by
  unfold State.takeBar
  repeat' first
      | (with_reducible first
          | exact hk | exact Keeps.refl _ | apply State.modEngine_keeps)
      | (intro _ _) | (apply Sub.of <;> first | assumption | rfl) | dsimp only

theorem State.modPair_keeps {μ : Nat} {s₀ : State} (s : State) (p i : Nat) (f : Pair → Pair) (hk
    : Keeps μ s₀ s) (hm : Sub 0x800 μ := by first | assumption | (apply Sub.of <;> first | assumption | rfl))
    : Keeps μ s₀ (State.modPair s p i f) := by
  unfold State.modPair
  repeat' first
      | (with_reducible first
          | exact hk | exact Keeps.refl _ | apply State.modPress_keeps)
      | (intro _ _) | (apply Sub.of <;> first | assumption | rfl) | dsimp only

theorem State.voidFill_keeps {μ : Nat} {s₀ : State} (s : State) (d : Desc) (hk
    : Keeps μ s₀ s) (hm : Sub 0x800 μ := by first | assumption | (apply Sub.of <;> first | assumption | rfl))
    : Keeps μ s₀ (State.voidFill s d) := by
  unfold State.voidFill
  repeat' first
      | (with_reducible first
          | exact hk | exact Keeps.refl _ | apply Keeps.ite | apply State.modPair_keeps)
      | (apply Sub.of <;> first | assumption | rfl) | split | dsimp only

theorem State.ringRecord_keeps {μ : Nat} {s₀ : State} (s : State) (e q : Nat) (x : QDesc) (st : Status) (hk
    : Keeps μ s₀ s)
    (hm : Sub 0x80000000 μ := by first | assumption | (apply Sub.of <;> first | assumption | rfl))
    : Keeps μ s₀ (State.ringRecord s e q x st) := by
  unfold State.ringRecord
  repeat' first
      | (with_reducible first
          | exact hk | exact Keeps.refl _ | apply Keeps.rings)
      | (apply Sub.of <;> first | assumption | rfl) | dsimp only

theorem State.porterRecord_keeps {μ : Nat} {s₀ : State} (s : State) (e q : Nat) (x : QDesc) (st : Status) (hk
    : Keeps μ s₀ s)
    (hm : Sub 0x80600000 μ := by first | assumption | (apply Sub.of <;> first | assumption | rfl))
    : Keeps μ s₀ (State.porterRecord s e q x st) := by
  unfold State.porterRecord
  repeat' first
      | (with_reducible first
          | exact hk | exact Keeps.refl _ | apply Keeps.ite | apply State.ringRecord_keeps | apply State.raise_keeps)
      | (apply Sub.of <;> first | assumption | rfl) | split | dsimp only

theorem State.cancelDesc_keeps {μ : Nat} {s₀ : State} (s : State) (e q : Nat) (x : QDesc) (hk
    : Keeps μ s₀ s)
    (hm : Sub 0x80604800 μ := by first | assumption | (apply Sub.of <;> first | assumption | rfl))
    : Keeps μ s₀ (State.cancelDesc s e q x) := by
  unfold State.cancelDesc
  extract_lets v1
  have h1 : Keeps μ s₀ v1 := by
    unfold v1
    repeat' first
        | (with_reducible first
            | exact hk | exact Keeps.refl _ | apply Keeps.ite | apply State.modEngine_keeps | apply State.queue_keeps)
        | (intro _ _) | (apply Sub.of <;> first | assumption | rfl) | split | dsimp only
  clear_value v1
  repeat' first
      | (with_reducible first
          | exact h1 | exact Keeps.refl _ | apply State.voidFill_keeps | apply State.porterRecord_keeps)
      | (apply Sub.of <;> first | assumption | rfl) | dsimp only

theorem State.cancelWhere_keeps {μ : Nat} {s₀ : State} (s : State) (sel : Desc → Bool) (hk
    : Keeps μ s₀ s)
    (hm : Sub 0x80604800 μ := by first | assumption | (apply Sub.of <;> first | assumption | rfl))
    : Keeps μ s₀ (State.cancelWhere s sel) := by
  unfold State.cancelWhere
  repeat' first
      | (with_reducible first
          | exact hk | exact Keeps.refl _ | apply Keeps.ite | apply State.cancelDesc_keeps | apply forEach_keeps)
      | (intro _ _) | (apply Sub.of <;> first | assumption | rfl) | split | dsimp only

theorem State.cancelStream_keeps {μ : Nat} {s₀ : State} (s : State) (n : Nat) (hk
    : Keeps μ s₀ s)
    (hm : Sub 0x80604800 μ := by first | assumption | (apply Sub.of <;> first | assumption | rfl))
    : Keeps μ s₀ (State.cancelStream s n) := by
  unfold State.cancelStream
  repeat' first
      | (with_reducible first
          | exact hk | exact Keeps.refl _ | apply State.cancelWhere_keeps)
      | (intro _ _) | (apply Sub.of <;> first | assumption | rfl) | dsimp only

theorem State.dropFloor_keeps {μ : Nat} {s₀ : State} (s : State) (n : Nat) (hk
    : Keeps μ s₀ s) (hm : Sub 0x4000 μ := by first | assumption | (apply Sub.of <;> first | assumption | rfl))
    : Keeps μ s₀ (State.dropFloor s n) := by
  unfold State.dropFloor
  repeat' first
      | (with_reducible first
          | exact hk | exact Keeps.refl _ | apply State.modEngine_keeps)
      | (intro _ _) | (apply Sub.of <;> first | assumption | rfl) | dsimp only

theorem State.modTokens_keeps {μ : Nat} {s₀ : State} (s : State) (sel : Tok → Bool) (f : Tok → Tok) (hk
    : Keeps μ s₀ s) (hm : Sub 0x1400 μ := by first | assumption | (apply Sub.of <;> first | assumption | rfl))
    : Keeps μ s₀ (State.modTokens s sel f) := by
  unfold State.modTokens
  repeat' first
      | (with_reducible first
          | exact hk | exact Keeps.refl _ | apply Keeps.ite | apply Keeps.tokens)
      | (intro _ _) | (apply Sub.of <;> first | assumption | rfl) | split | dsimp only

theorem State.voidTokens_keeps {μ : Nat} {s₀ : State} (s : State) (sel : Tok → Bool) (hk
    : Keeps μ s₀ s) (hm : Sub 0x1400 μ := by first | assumption | (apply Sub.of <;> first | assumption | rfl))
    : Keeps μ s₀ (State.voidTokens s sel) := by
  unfold State.voidTokens
  repeat' first
      | (with_reducible first
          | exact hk | exact Keeps.refl _ | apply State.modTokens_keeps)
      | (intro _ _) | (apply Sub.of <;> first | assumption | rfl) | dsimp only

theorem State.voidRow_keeps {μ : Nat} {s₀ : State} (s : State) (r : Nat) (hk
    : Keeps μ s₀ s) (hm : Sub 0x1400 μ := by first | assumption | (apply Sub.of <;> first | assumption | rfl))
    : Keeps μ s₀ (State.voidRow s r) := by
  unfold State.voidRow
  repeat' first
      | (with_reducible first
          | exact hk | exact Keeps.refl _ | apply Keeps.ite | apply Keeps.tokens)
      | (intro _ _) | (apply Sub.of <;> first | assumption | rfl) | split | dsimp only

theorem State.goneTokens_keeps {μ : Nat} {s₀ : State} (s : State) (n : Nat) (hk
    : Keeps μ s₀ s) (hm : Sub 0x1400 μ := by first | assumption | (apply Sub.of <;> first | assumption | rfl))
    : Keeps μ s₀ (State.goneTokens s n) := by
  unfold State.goneTokens
  repeat' first
      | (with_reducible first
          | exact hk | exact Keeps.refl _ | apply State.modTokens_keeps)
      | (intro _ _) | (apply Sub.of <;> first | assumption | rfl) | dsimp only

theorem State.rebind_keeps {μ : Nat} {s₀ : State} (s : State) (n : Nat) (hk
    : Keeps μ s₀ s) (hm : Sub 0x10 μ := by first | assumption | (apply Sub.of <;> first | assumption | rfl))
    : Keeps μ s₀ (State.rebind s n) := by
  unfold State.rebind
  repeat' first
      | (with_reducible first
          | exact hk | exact Keeps.refl _ | apply Keeps.ite | apply State.modStream_keeps)
      | (intro _ _) | (apply Sub.of <;> first | assumption | rfl) | split | dsimp only

theorem State.releaseHot_keeps {μ : Nat} {s₀ : State} (s : State) (r v : Nat) (hk
    : Keeps μ s₀ s) (hm : Sub 0x400 μ := by first | assumption | (apply Sub.of <;> first | assumption | rfl))
    : Keeps μ s₀ (State.releaseHot s r v) := by
  unfold State.releaseHot
  repeat' first
      | (with_reducible first
          | exact hk | exact Keeps.refl _ | apply Keeps.ite | apply State.modRow_keeps)
      | (intro _ _) | (apply Sub.of <;> first | assumption | rfl) | split | dsimp only

theorem State.leftRow_keeps {μ : Nat} {s₀ : State} (s : State) (n : Nat) (x : Stream) (hk
    : Keeps μ s₀ s) (hm : Sub 0x410 μ := by first | assumption | (apply Sub.of <;> first | assumption | rfl))
    : Keeps μ s₀ (State.leftRow s n x) := by
  unfold State.leftRow
  extract_lets v1
  have h1 : Keeps μ s₀ v1 := by
    unfold v1
    repeat' first
        | (with_reducible first
            | exact hk | exact Keeps.refl _ | apply State.releaseHot_keeps)
        | (apply Sub.of <;> first | assumption | rfl) | split | dsimp only
  clear_value v1
  repeat' first
      | (with_reducible first
          | exact h1 | exact Keeps.refl _ | apply State.rebind_keeps)
      | (apply Sub.of <;> first | assumption | rfl) | dsimp only

theorem State.abandon_keeps {μ : Nat} {s₀ : State} (s : State) (n : Nat) (hk
    : Keeps μ s₀ s)
    (hm : Sub 0x80614CB0 μ := by first | assumption | (apply Sub.of <;> first | assumption | rfl))
    : Keeps μ s₀ (State.abandon s n) := by
  unfold State.abandon
  repeat' first
      | (with_reducible first
          | exact hk | exact Keeps.refl _ | apply Keeps.ite | apply State.takeBar_keeps
          | apply State.cancelStream_keeps | apply State.givePitch_keeps | apply State.dropFloor_keeps
          | apply State.modEgr_keeps | apply State.modRow_keeps | apply State.modStream_keeps
          | apply State.leftRow_keeps)
      | (intro _ _) | (apply Sub.of <;> first | assumption | rfl) | split | dsimp only

theorem State.discardPark_keeps {μ : Nat} {s₀ : State} (s : State) (n : Nat) (st : Status) (hk
    : Keeps μ s₀ s) (hm : Sub 0x1000000 μ := by first | assumption | (apply Sub.of <;> first | assumption | rfl))
    : Keeps μ s₀ (State.discardPark s n st) := by
  unfold State.discardPark
  repeat' first
      | (with_reducible first
          | exact hk | exact Keeps.refl _ | apply Keeps.ite | apply State.modPark_keeps)
      | (intro _ _) | (apply Sub.of <;> first | assumption | rfl) | split | dsimp only

theorem State.egrStop_keeps {μ : Nat} {s₀ : State} (s : State) (n : Nat) (act : EgrAct) (hk
    : Keeps μ s₀ s) (hm : Sub 0x4000A0 μ := by first | assumption | (apply Sub.of <;> first | assumption | rfl))
    : Keeps μ s₀ (State.egrStop s n act) := by
  unfold State.egrStop
  repeat' first
      | (with_reducible first
          | exact hk | exact Keeps.refl _ | apply Keeps.ite | apply State.dropEgress_keeps | apply State.modEgr_keeps
          | apply State.putEgr_keeps)
      | (intro _ _) | (apply Sub.of <;> first | assumption | rfl) | split | dsimp only

theorem State.dropBacks_keeps {μ : Nat} {s₀ : State} (s : State) (n : Nat) (hk
    : Keeps μ s₀ s) (hm : Sub 0x4000 μ := by first | assumption | (apply Sub.of <;> first | assumption | rfl))
    : Keeps μ s₀ (State.dropBacks s n) := by
  unfold State.dropBacks
  repeat' first
      | (with_reducible first
          | exact hk | exact Keeps.refl _ | apply Keeps.ite | apply State.takeBar_keeps)
      | (intro _ _) | (apply Sub.of <;> first | assumption | rfl) | split | dsimp only

theorem State.stopStream_keeps {μ : Nat} {s₀ : State} (s : State) (n : Nat) (act : EgrAct) (parkSt : Status)
    (hk : Keeps μ s₀ s)
    (hm : Sub 0x81615CB0 μ := by first | assumption | (apply Sub.of <;> first | assumption | rfl)) :
    Keeps μ s₀ (State.stopStream s n act parkSt) := by
  unfold State.stopStream
  extract_lets s1 x s2 s3 s4 s5 s6 s7
  have h1 : Keeps μ s₀ s1 := State.abandon_keeps _ _ hk
  have h2 : Keeps μ s₀ s2 := State.dropFloor_keeps _ _ (State.givePitch_keeps _ _ (State.cancelStream_keeps _ _
    (State.dropBacks_keeps _ _ h1)))
  have h3 : Keeps μ s₀ s3 := by
    unfold s3
    split
    · exact State.modRow_keeps _ _ _ h2
    · exact h2
  have h4 : Keeps μ s₀ s4 := .ite (State.goneTokens_keeps _ _ h3) (State.cancelStream_keeps _ _ h1)
  have h5 : Keeps μ s₀ s5 := State.releaseChunks_keeps _ _ _ h4
  have h6 : Keeps μ s₀ s6 := by
    unfold s6
    split
    · exact State.modStall_keeps _ _ _ (State.giveBufs_keeps _ _ h5)
    · exact h5
  exact State.modStream_keeps _ _ _ (State.egrStop_keeps _ _ _ (State.discardPark_keeps _ _ _ h6))

theorem State.dropHot_keeps {μ : Nat} {s₀ : State} (s : State) (v : Nat) (hk
    : Keeps μ s₀ s) (hm : Sub 0x400 μ := by first | assumption | (apply Sub.of <;> first | assumption | rfl))
    : Keeps μ s₀ (State.dropHot s v) := by
  unfold State.dropHot
  repeat' first
      | (with_reducible first
          | exact hk | exact Keeps.refl _ | apply Keeps.rows)
      | (intro _ _) | (apply Sub.of <;> first | assumption | rfl) | dsimp only

theorem State.dropVoice_keeps {μ : Nat} {s₀ : State} (s : State) (v : Nat) (hk
    : Keeps μ s₀ s) (hm : Sub 0x500 μ := by first | assumption | (apply Sub.of <;> first | assumption | rfl))
    : Keeps μ s₀ (State.dropVoice s v) := by
  unfold State.dropVoice
  repeat' first
      | (with_reducible first
          | exact hk | exact Keeps.refl _ | apply State.dropHot_keeps | apply State.putVoice_keeps)
      | (apply Sub.of <;> first | assumption | rfl) | dsimp only

theorem State.settleStall_keeps {μ : Nat} {s₀ : State} (s : State) (k : Nat) (hk
    : Keeps μ s₀ s) (hm : Sub 0x600580 μ := by first | assumption | (apply Sub.of <;> first | assumption | rfl))
    : Keeps μ s₀ (State.settleStall s k) := by
  unfold State.settleStall
  repeat' first
      | (with_reducible first
          | exact hk | exact Keeps.refl _ | apply Keeps.ite | apply State.dropVoice_keeps | apply State.raise_keeps
          | apply State.putStall_keeps | apply forEach_keeps)
      | (intro _ _) | (apply Sub.of <;> first | assumption | rfl) | split | dsimp only

theorem State.freePark_keeps {μ : Nat} {s₀ : State} (s : State) (n : Nat) (hk
    : Keeps μ s₀ s) (hm : Sub 0x1000000 μ := by first | assumption | (apply Sub.of <;> first | assumption | rfl))
    : Keeps μ s₀ (State.freePark s n) := by
  unfold State.freePark
  repeat' first
      | (with_reducible first
          | exact hk | exact Keeps.refl _ | apply State.flashFree_keeps | apply State.modPark_keeps)
      | (intro _ _) | (apply Sub.of <;> first | assumption | rfl) | dsimp only

theorem State.freeStream_keeps {μ : Nat} {s₀ : State} (s : State) (n : Nat) (st : Status) (marks : Nat)
    (record : Bool) (act : EgrAct) (hk : Keeps μ s₀ s)
    (hm : Sub 0x89615DF0 μ := by first | assumption | (apply Sub.of <;> first | assumption | rfl))
    : Keeps μ s₀ (State.freeStream s n st marks record act) := by
  unfold State.freeStream
  extract_lets v1 v2 v3 v4 v5 v6 v7
  clear_value v1
  have h2 : Keeps μ s₀ v2 := by
    unfold v2
    repeat' first
        | (with_reducible first
            | exact hk | exact Keeps.refl _ | apply State.stopStream_keeps)
        | (apply Sub.of <;> first | assumption | rfl) | dsimp only
  clear_value v2
  have h3 : Keeps μ s₀ v3 := by
    unfold v3
    repeat' first
        | (with_reducible first
            | exact h2 | exact Keeps.refl _ | apply Keeps.ite | apply State.raise_keeps)
        | (apply Sub.of <;> first | assumption | rfl) | split | dsimp only
  clear_value v3
  have h4 : Keeps μ s₀ v4 := by
    unfold v4
    repeat' first
        | (with_reducible first
            | exact h3 | exact Keeps.refl _ | apply State.modStall_keeps)
        | (intro _ _) | (apply Sub.of <;> first | assumption | rfl) | dsimp only
  clear_value v4
  have h5 : Keeps μ s₀ v5 := by
    unfold v5
    repeat' first
        | (with_reducible first
            | exact h4 | exact Keeps.refl _ | apply Keeps.ite | apply State.freePark_keeps)
        | (apply Sub.of <;> first | assumption | rfl) | split | dsimp only
  clear_value v5
  have h6 : Keeps μ s₀ v6 := by
    unfold v6
    repeat' first
        | (with_reducible first
            | exact h5 | exact Keeps.refl _ | apply Keeps.journals)
        | (apply Sub.of <;> first | assumption | rfl) | dsimp only
  clear_value v6
  have h7 : Keeps μ s₀ v7 := by
    unfold v7
    repeat' first
        | (with_reducible first
            | exact h6 | exact Keeps.refl _ | apply State.putStream_keeps | apply State.leftRow_keeps
            | apply State.closeEgress_keeps)
        | (apply Sub.of <;> first | assumption | rfl) | dsimp only
  clear_value v7
  repeat' first
      | (with_reducible first
          | exact h7 | exact Keeps.refl _ | apply State.settleStall_keeps)
      | (apply Sub.of <;> first | assumption | rfl) | dsimp only

theorem State.faultWith_keeps {μ : Nat} {s₀ : State} (s : State) (act : EgrAct) (n : Nat) (st : Status)
    (source unit : Nat) (hk : Keeps μ s₀ s)
    (hm : Sub 0xC97D5DF0 μ := by first | assumption | (apply Sub.of <;> first | assumption | rfl))
    : Keeps μ s₀ (State.faultWith s act n st source unit) := by
  unfold State.faultWith
  repeat' first
      | (with_reducible first
          | exact hk | exact Keeps.refl _ | apply Keeps.ite | apply State.modStall_keeps | apply State.modClerk_keeps
          | apply State.freeStream_keeps | apply State.answerOwed_keeps | apply State.stopStream_keeps
          | apply State.modStream_keeps | apply State.leftRow_keeps | apply State.raise_keeps)
      | (intro _ _) | (apply Sub.of <;> first | assumption | rfl) | split | dsimp only

theorem State.faultStream_keeps {μ : Nat} {s₀ : State} (s : State) (n : Nat) (st : Status) (source unit : Nat)
    (hk : Keeps μ s₀ s)
    (hm : Sub 0xC97D5DF0 μ := by first | assumption | (apply Sub.of <;> first | assumption | rfl))
    : Keeps μ s₀ (State.faultStream s n st source unit) := by
  unfold State.faultStream
  repeat' first
      | (with_reducible first
          | exact hk | exact Keeps.refl _ | apply State.faultWith_keeps)
      | (apply Sub.of <;> first | assumption | rfl) | dsimp only

theorem State.faultOfRow_keeps {μ : Nat} {s₀ : State} (p : Nat) (s : State) (n : Nat) (hk
    : Keeps μ s₀ s)
    (hm : Sub 0xC97D5DF0 μ := by first | assumption | (apply Sub.of <;> first | assumption | rfl))
    : Keeps μ s₀ (State.faultOfRow p s n) := by
  unfold State.faultOfRow
  repeat' first
      | (with_reducible first
          | exact hk | exact Keeps.refl _ | apply Keeps.ite | apply State.faultWith_keeps)
      | (apply Sub.of <;> first | assumption | rfl) | split | dsimp only

theorem State.tearStream_keeps {μ : Nat} {s₀ : State} (s : State) (n : Nat) (hk
    : Keeps μ s₀ s)
    (hm : Sub 0xC17D5CB0 μ := by first | assumption | (apply Sub.of <;> first | assumption | rfl))
    : Keeps μ s₀ (State.tearStream s n) := by
  unfold State.tearStream
  extract_lets v1 v2 v3
  clear_value v1
  have h2 : Keeps μ s₀ v2 := by
    unfold v2
    repeat' first
        | (with_reducible first
            | exact hk | exact Keeps.refl _ | apply Keeps.ite | apply State.dropEgress_keeps
            | apply State.stopStream_keeps | apply State.modStall_keeps)
        | (intro _ _) | (apply Sub.of <;> first | assumption | rfl) | split | dsimp only
  clear_value v2
  have h3 : Keeps μ s₀ v3 := by
    unfold v3
    repeat' first
        | (with_reducible first
            | exact h2 | exact Keeps.refl _ | apply State.modStream_keeps)
        | (intro _ _) | (apply Sub.of <;> first | assumption | rfl) | dsimp only
  clear_value v3
  repeat' first
      | (with_reducible first
          | exact h3 | exact Keeps.refl _ | apply State.answerOwed_keeps)
      | (apply Sub.of <;> first | assumption | rfl) | dsimp only

theorem State.clearBars_keeps {μ : Nat} {s₀ : State} (s : State) (k : Nat) (hk
    : Keeps μ s₀ s) (hm : Sub 0x4000 μ := by first | assumption | (apply Sub.of <;> first | assumption | rfl))
    : Keeps μ s₀ (State.clearBars s k) := by
  unfold State.clearBars
  repeat' first
      | (with_reducible first
          | exact hk | exact Keeps.refl _ | apply Keeps.engines)
      | (intro _ _) | (apply Sub.of <;> first | assumption | rfl) | dsimp only

theorem State.tearStall_keeps {μ : Nat} {s₀ : State} (s : State) (k : Nat) (st : Status) (hk
    : Keeps μ s₀ s)
    (hm : Sub 0xC97D5DB0 μ := by first | assumption | (apply Sub.of <;> first | assumption | rfl))
    : Keeps μ s₀ (State.tearStall s k st) := by
  unfold State.tearStall
  repeat' first
      | (with_reducible first
          | exact hk | exact Keeps.refl _ | apply Keeps.ite | apply State.open__keeps | apply State.modClerk_keeps
          | apply State.tally_keeps | apply State.modStall_keeps | apply State.voidTokens_keeps
          | apply State.cancelWhere_keeps | apply State.clearBars_keeps | apply State.tearStream_keeps
          | apply State.dropEgress_keeps | apply State.closeEgress_keeps | apply State.dropHot_keeps
          | apply State.modVoice_keeps | apply forEach_keeps)
      | (intro _ _) | (apply Sub.of <;> first | assumption | rfl) | split | dsimp only

theorem State.dropAllEgress_keeps {μ : Nat} {s₀ : State} (s : State) (hk
    : Keeps μ s₀ s) (hm : Sub 0x4000A0 μ := by first | assumption | (apply Sub.of <;> first | assumption | rfl))
    : Keeps μ s₀ (State.dropAllEgress s) := by
  unfold State.dropAllEgress
  repeat' first
      | (with_reducible first
          | exact hk | exact Keeps.refl _ | apply State.discardEgress_keeps | apply forEach_keeps)
      | (intro _ _) | (apply Sub.of <;> first | assumption | rfl) | dsimp only

theorem State.dropFrames_keeps {μ : Nat} {s₀ : State} (s : State) (hk
    : Keeps μ s₀ s) (hm : Sub 0x40000 μ := by first | assumption | (apply Sub.of <;> first | assumption | rfl))
    : Keeps μ s₀ (State.dropFrames s) := by
  unfold State.dropFrames
  repeat' first
      | (with_reducible first
          | exact hk | exact Keeps.refl _ | apply State.modNet_keeps | apply forEach_keeps)
      | (intro _ _) | (apply Sub.of <;> first | assumption | rfl) | dsimp only

theorem State.failProbation_keeps {μ : Nat} {s₀ : State} (s : State) (hk
    : Keeps μ s₀ s) (hm : Sub 0x1000000 μ := by first | assumption | (apply Sub.of <;> first | assumption | rfl))
    : Keeps μ s₀ (State.failProbation s) := by
  unfold State.failProbation
  repeat' first
      | (with_reducible first
          | exact hk | exact Keeps.refl _ | apply Keeps.ite | apply State.modFlash_keeps)
      | (intro _ _) | (apply Sub.of <;> first | assumption | rfl) | split | dsimp only

theorem State.failModule_keeps {μ : Nat} {s₀ : State} (s : State) (cause : Nat) (hk
    : Keeps μ s₀ s) (hm : Sub 0x56400A8 μ := by first | assumption | (apply Sub.of <;> first | assumption | rfl))
    : Keeps μ s₀ (State.failModule s cause) := by
  unfold State.failModule
  repeat' first
      | (with_reducible first
          | exact hk | exact Keeps.refl _ | apply Keeps.ite | apply State.raise_keeps | apply State.audit_keeps
          | apply State.modClerk_keeps | apply State.dropAllEgress_keeps | apply State.dropFrames_keeps
          | apply State.modPower_keeps | apply State.failProbation_keeps)
      | (intro _ _) | (apply Sub.of <;> first | assumption | rfl) | split | dsimp only

theorem State.checkChannels_keeps {μ : Nat} {s₀ : State} (s : State) (old : Tbl Channel) (hk
    : Keeps μ s₀ s) (hm : Sub 0x56400A8 μ := by first | assumption | (apply Sub.of <;> first | assumption | rfl))
    : Keeps μ s₀ (State.checkChannels s old) := by
  unfold State.checkChannels
  repeat' first
      | (with_reducible first
          | exact hk | exact Keeps.refl _ | apply Keeps.ite | apply State.failModule_keeps)
      | (intro _ _) | (apply Sub.of <;> first | assumption | rfl) | split | dsimp only

theorem State.onGranules_keeps {μ : Nat} {s₀ : State} (s : State) (a len : Nat) (not_ : List Nat)
    (f : Channel → Nat → Bool → Channel) (hk : Keeps μ s₀ s)
    (hm : Sub 0x56480A8 μ := by first | assumption | (apply Sub.of <;> first | assumption | rfl))
    : Keeps μ s₀ (State.onGranules s a len not_ f) := by
  unfold State.onGranules
  repeat' first
      | (with_reducible first
          | exact hk | exact Keeps.refl _ | apply State.checkChannels_keeps | apply Keeps.channels)
      | refine Keeps.of_snd (by assumption) ?_ | refine Keeps.of_fst (by assumption) ?_ | (intro _ _)
      | (apply Sub.of <;> first | assumption | rfl) | split | dsimp only

theorem State.memRecord_keeps {μ : Nat} {s₀ : State} (s : State) (src unit : Nat) (at_ : Nat)
    (stall stream : Option Nat) (hk : Keeps μ s₀ s)
    (hm : Sub 0x600000 μ := by first | assumption | (apply Sub.of <;> first | assumption | rfl))
    : Keeps μ s₀ (State.memRecord s src unit at_ stall stream) := by
  unfold State.memRecord
  repeat' first
      | (with_reducible first
          | exact hk | exact Keeps.refl _ | apply State.raise_keeps)
      | (apply Sub.of <;> first | assumption | rfl) | dsimp only

theorem State.channelUe_keeps {μ : Nat} {s₀ : State} (s : State) (c slot : Nat) (hk
    : Keeps μ s₀ s) (hm : Sub 0x56480A8 μ := by first | assumption | (apply Sub.of <;> first | assumption | rfl))
    : Keeps μ s₀ (State.channelUe s c slot) := by
  unfold State.channelUe
  repeat' first
      | (with_reducible first
          | exact hk | exact Keeps.refl _ | apply State.modChannel_keeps | apply State.checkChannels_keeps)
      | (intro _ _) | (apply Sub.of <;> first | assumption | rfl) | dsimp only

theorem State.granuleRecords_keeps {μ : Nat} {s₀ : State} (s : State) (gs : List Nat)
    (whose : Nat → Option Nat × Option Nat) (hk : Keeps μ s₀ s)
    (hm : Sub 0x600000 μ := by first | assumption | (apply Sub.of <;> first | assumption | rfl))
    : Keeps μ s₀ (State.granuleRecords s gs whose) := by
  unfold State.granuleRecords
  repeat' first
      | (with_reducible first
          | exact hk | exact Keeps.refl _ | apply State.memRecord_keeps | apply forEach_keeps)
      | refine Keeps.of_snd (by assumption) ?_ | refine Keeps.of_fst (by assumption) ?_ | (intro _ _)
      | (apply Sub.of <;> first | assumption | rfl) | split | dsimp only

theorem State.readSpan_keeps {μ : Nat} {s₀ : State} (s : State) (a len : Nat) (stall stream : Option Nat) (hk
    : Keeps μ s₀ s)
    (hm : Sub 0x1056480A8 μ := by first | assumption | (apply Sub.of <;> first | assumption | rfl))
    : Keeps μ s₀ (State.readSpan s a len stall stream) := by
  unfold State.readSpan
  extract_lets v1 v2 v3
  clear_value v1
  clear_value v2
  have h3 : Keeps μ s₀ v3 := by
    unfold v3
    repeat' first
        | (with_reducible first
            | exact hk | exact Keeps.refl _ | apply State.granuleRecords_keeps)
        | (intro _ _) | (apply Sub.of <;> first | assumption | rfl) | dsimp only
  clear_value v3
  repeat' first
      | (with_reducible first
          | exact h3 | exact Keeps.refl _ | apply State.onGranules_keeps | apply Keeps.heldMoves)
      | (intro _ _) | (apply Sub.of <;> first | assumption | rfl) | dsimp only

theorem State.bulkInit_keeps {μ : Nat} {s₀ : State} (s : State) (a len : Nat) (bs : List Byte) (hk
    : Keeps μ s₀ s)
    (hm : Sub 0x1056680A8 μ := by first | assumption | (apply Sub.of <;> first | assumption | rfl)) :
    Keeps μ s₀ (State.bulkInit s a len bs) := by
  unfold State.bulkInit
  extract_lets held shut s1 kept m
  have h1 : Keeps μ s₀ s1 := State.granuleRecords_keeps _ _ _ hk
  have hw : Memory.wf s1.mem = true → Memory.wf m = true := fun w =>
    wf_foldl (fun m (p : Nat × List Byte) => mwrite m p.1 p.2) (fun m p h => wf_mwrite m p.1 p.2 h) _ _
      (wf_mwrite _ _ _ (wf_mclear _ _ _ w))
  exact State.onGranules_keeps _ _ _ _ _ (.heldMoves (.mem h1 hw))

theorem State.bulkWrite_keeps {μ : Nat} {s₀ : State} (s : State) (a : Nat) (bs : List Byte) (hk
    : Keeps μ s₀ s)
    (hm : Sub 0x1056680A8 μ := by first | assumption | (apply Sub.of <;> first | assumption | rfl)) :
    Keeps μ s₀ (State.bulkWrite s a bs) := by
  exact State.bulkInit_keeps _ _ _ _ hk

theorem State.landHeld_keeps {μ : Nat} {s₀ : State} (s : State) (hk
    : Keeps μ s₀ s)
    (hm : Sub 0x1056680A8 μ := by first | assumption | (apply Sub.of <;> first | assumption | rfl)) :
    Keeps μ s₀ (State.landHeld s) := by
  refine forEach_keeps _ _ _ (fun t m => ?_) (.heldMoves hk)
  split
  · exact State.bulkInit_keeps _ _ _ _ (.refl t)
  · exact State.readSpan_keeps _ _ _ _ _ (.refl t)

theorem State.countMove_keeps {μ : Nat} {s₀ : State} (s : State) (e c a len : Nat) (hk
    : Keeps μ s₀ s) (hm : Sub 0x4000 μ := by first | assumption | (apply Sub.of <;> first | assumption | rfl))
    : Keeps μ s₀ (State.countMove s e c a len) := by
  unfold State.countMove
  repeat' first
      | (with_reducible first
          | exact hk | exact Keeps.refl _ | apply State.modEngine_keeps)
      | (intro _ _) | (apply Sub.of <;> first | assumption | rfl) | dsimp only

theorem State.gateOff_keeps {μ : Nat} {s₀ : State} (s : State) (ns : List Nat) (hk
    : Keeps μ s₀ s)
    (hm : Sub 0x10000000 μ := by first | assumption | (apply Sub.of <;> first | assumption | rfl))
    : Keeps μ s₀ (State.gateOff s ns) := by
  unfold State.gateOff
  repeat' first
      | (with_reducible first
          | exact hk | exact Keeps.refl _ | apply Keeps.ite | apply State.modClk_keeps | apply forEach_keeps)
      | (intro _ _) | (apply Sub.of <;> first | assumption | rfl) | split | dsimp only

theorem State.gateAgain_keeps {μ : Nat} {s₀ : State} (s : State) (p : Nat) (hk
    : Keeps μ s₀ s)
    (hm : Sub 0x10000000 μ := by first | assumption | (apply Sub.of <;> first | assumption | rfl))
    : Keeps μ s₀ (State.gateAgain s p) := by
  unfold State.gateAgain
  repeat' first
      | (with_reducible first
          | exact hk | exact Keeps.refl _ | apply Keeps.ite | apply State.modClk_keeps | apply State.gateOff_keeps)
      | (intro _ _) | (apply Sub.of <;> first | assumption | rfl) | split | dsimp only

theorem State.freeBases_keeps {μ : Nat} {s₀ : State} (s : State) (hk
    : Keeps μ s₀ s) (hm : Sub 0x200 μ := by first | assumption | (apply Sub.of <;> first | assumption | rfl))
    : Keeps μ s₀ (State.freeBases s) := by
  unfold State.freeBases
  repeat' first
      | (with_reducible first
          | exact hk | exact Keeps.refl _ | apply Keeps.ite | apply State.putBase_keeps | apply forEach_keeps)
      | (intro _ _) | (apply Sub.of <;> first | assumption | rfl) | split | dsimp only

theorem State.maskDrop_keeps {μ : Nat} {s₀ : State} (s : State) (r : Nat) (sel : Voice → Bool) (hk
    : Keeps μ s₀ s) (hm : Sub 0x100 μ := by first | assumption | (apply Sub.of <;> first | assumption | rfl))
    : Keeps μ s₀ (State.maskDrop s r sel) := by
  unfold State.maskDrop
  repeat' first
      | (with_reducible first
          | exact hk | exact Keeps.refl _ | apply Keeps.ite | apply Keeps.voices)
      | (intro _ _) | (apply Sub.of <;> first | assumption | rfl) | split | dsimp only

theorem State.rebindAll_keeps {μ : Nat} {s₀ : State} (s : State) (hk
    : Keeps μ s₀ s) (hm : Sub 0x10 μ := by first | assumption | (apply Sub.of <;> first | assumption | rfl))
    : Keeps μ s₀ (State.rebindAll s) := by
  unfold State.rebindAll
  repeat' first
      | (with_reducible first
          | exact hk | exact Keeps.refl _ | apply State.rebind_keeps | apply forEach_keeps)
      | (intro _ _) | (apply Sub.of <;> first | assumption | rfl) | dsimp only

theorem State.account_keeps {μ : Nat} {s₀ : State} (s : State) (k : Nat) (hk
    : Keeps μ s₀ s) (hm : Sub 0x1800 μ := by first | assumption | (apply Sub.of <;> first | assumption | rfl))
    : Keeps μ s₀ (State.account s k) := by
  unfold State.account
  repeat' first
      | (with_reducible first
          | exact hk | exact Keeps.refl _ | apply Keeps.ite | apply State.modPress_keeps | apply State.putStage_keeps)
      | (apply Sub.of <;> first | assumption | rfl) | split | dsimp only

theorem State.clearQueues_keeps {μ : Nat} {s₀ : State} (s : State) (p : Nat) (hk
    : Keeps μ s₀ s) (hm : Sub 0x4000 μ := by first | assumption | (apply Sub.of <;> first | assumption | rfl))
    : Keeps μ s₀ (State.clearQueues s p) := by
  unfold State.clearQueues
  repeat' first
      | (with_reducible first
          | exact hk | exact Keeps.refl _ | apply Keeps.ite | apply State.modEngine_keeps)
      | (intro _ _) | (apply Sub.of <;> first | assumption | rfl) | split | dsimp only

theorem State.clearStages_keeps {μ : Nat} {s₀ : State} (s : State) (c : RowCfg) (hk
    : Keeps μ s₀ s) (hm : Sub 0x5800 μ := by first | assumption | (apply Sub.of <;> first | assumption | rfl))
    : Keeps μ s₀ (State.clearStages s c) := by
  unfold State.clearStages
  extract_lets v1
  have h1 : Keeps μ s₀ v1 := by
    unfold v1
    repeat' first
        | (with_reducible first
            | exact hk | exact Keeps.refl _ | apply State.account_keeps | apply State.modStage_keeps
            | apply forEach_keeps)
        | (intro _ _) | (apply Sub.of <;> first | assumption | rfl) | dsimp only
  clear_value v1
  repeat' first
      | (with_reducible first
          | exact h1 | exact Keeps.refl _ | apply State.clearQueues_keeps | apply forEach_keeps)
      | (intro _ _) | (apply Sub.of <;> first | assumption | rfl) | dsimp only

theorem State.rowAbsent_keeps {μ : Nat} {s₀ : State} (s : State) (r : Nat) (hk
    : Keeps μ s₀ s)
    (hm : Sub 0x10005F10 μ := by first | assumption | (apply Sub.of <;> first | assumption | rfl))
    : Keeps μ s₀ (State.rowAbsent s r) := by
  unfold State.rowAbsent
  extract_lets v1 v2 v3 v4 v5
  clear_value v1
  have h2 : Keeps μ s₀ v2 := by
    unfold v2
    repeat' first
        | (with_reducible first
            | exact hk | exact Keeps.refl _ | apply State.clearStages_keeps)
        | (apply Sub.of <;> first | assumption | rfl) | dsimp only
  clear_value v2
  have h3 : Keeps μ s₀ v3 := by
    unfold v3
    repeat' first
        | (with_reducible first
            | exact h2 | exact Keeps.refl _ | apply State.modClk_keeps)
        | (intro _ _) | (apply Sub.of <;> first | assumption | rfl) | dsimp only
  clear_value v3
  have h4 : Keeps μ s₀ v4 := by
    unfold v4
    repeat' first
        | (with_reducible first
            | exact h3 | exact Keeps.refl _ | apply State.putRow_keeps)
        | (apply Sub.of <;> first | assumption | rfl) | dsimp only
  clear_value v4
  have h5 : Keeps μ s₀ v5 := by
    unfold v5
    repeat' first
        | (with_reducible first
            | exact h4 | exact Keeps.refl _ | apply State.gateOff_keeps)
        | (apply Sub.of <;> first | assumption | rfl) | dsimp only
  clear_value v5
  repeat' first
      | (with_reducible first
          | exact h5 | exact Keeps.refl _ | apply State.maskDrop_keeps | apply State.freeBases_keeps
          | apply State.rebindAll_keeps)
      | (intro _ _) | (apply Sub.of <;> first | assumption | rfl) | dsimp only

theorem State.rowRebased_keeps {μ : Nat} {s₀ : State} (s : State) (r : Nat) (old new : Option Nat) (hk
    : Keeps μ s₀ s) (hm : Sub 0x500 μ := by first | assumption | (apply Sub.of <;> first | assumption | rfl))
    : Keeps μ s₀ (State.rowRebased s r old new) := by
  unfold State.rowRebased
  repeat' first
      | (with_reducible first
          | exact hk | exact Keeps.refl _ | apply Keeps.ite | apply State.maskDrop_keeps | apply State.modRow_keeps)
      | (intro _ _) | (apply Sub.of <;> first | assumption | rfl) | split | dsimp only

theorem State.loadHots_keeps {μ : Nat} {s₀ : State} (s : State) (r : Nat) (hk
    : Keeps μ s₀ s) (hm : Sub 0x400 μ := by first | assumption | (apply Sub.of <;> first | assumption | rfl))
    : Keeps μ s₀ (State.loadHots s r) := by
  unfold State.loadHots
  repeat' first
      | (with_reducible first
          | exact hk | exact Keeps.refl _ | apply State.modRow_keeps)
      | (intro _ _) | (apply Sub.of <;> first | assumption | rfl) | dsimp only

theorem State.loadBase_keeps {μ : Nat} {s₀ : State} (s : State) (i entry : Nat) (hk
    : Keeps μ s₀ s)
    (hm : Sub 0x10566C2A8 μ := by first | assumption | (apply Sub.of <;> first | assumption | rfl))
    : Keeps μ s₀ (State.loadBase s i entry) := by
  unfold State.loadBase
  repeat' first
      | (with_reducible first
          | exact hk | exact Keeps.refl _ | apply Keeps.ite | apply State.libRead_keeps | apply State.bulkWrite_keeps
          | apply State.countMove_keeps | apply State.modBase_keeps)
      | (intro _ _) | (apply Sub.of <;> first | assumption | rfl) | split | dsimp only

theorem State.applyPlacement_keeps {μ : Nat} {s₀ : State} (s : State) (r : Nat) (c : RowCfg) (p : PlacementMap)
    (hk : Keeps μ s₀ s)
    (hm : Sub 0x5800 μ := by first | assumption | (apply Sub.of <;> first | assumption | rfl))
    : Keeps μ s₀ (State.applyPlacement s r c p) := by
  unfold State.applyPlacement
  extract_lets v1 v2 v3
  have h1 : Keeps μ s₀ v1 := by
    unfold v1
    repeat' first
        | (with_reducible first
            | exact hk | exact Keeps.refl _ | apply State.modStage_keeps | apply forEach_keeps)
        | (intro _ _) | (apply Sub.of <;> first | assumption | rfl) | dsimp only
  clear_value v1
  have h2 : Keeps μ s₀ v2 := by
    unfold v2
    repeat' first
        | (with_reducible first
            | exact h1 | exact Keeps.refl _ | apply State.modPress_keeps | apply forEach_keeps)
        | (intro _ _) | (apply Sub.of <;> first | assumption | rfl) | dsimp only
  clear_value v2
  have h3 : Keeps μ s₀ v3 := by
    unfold v3
    repeat' first
        | (with_reducible first
            | exact h2 | exact Keeps.refl _ | apply State.modEngine_keeps | apply forEach_keeps)
        | (intro _ _) | (apply Sub.of <;> first | assumption | rfl) | dsimp only
  clear_value v3
  repeat' first
      | (with_reducible first
          | exact h3 | exact Keeps.refl _ | apply State.modEngine_keeps | apply forEach_keeps)
      | (intro _ _) | (apply Sub.of <;> first | assumption | rfl) | dsimp only

theorem State.rowConfig_keeps {μ : Nat} {s₀ : State} (s : State) (r : Nat) (c : RowCfg) (hk
    : Keeps μ s₀ s)
    (hm : Sub 0x10005F00 μ := by first | assumption | (apply Sub.of <;> first | assumption | rfl))
    : Keeps μ s₀ (State.rowConfig s r c) := by
  unfold State.rowConfig
  extract_lets v1 v2 v3 v4 v5 v6 v7 v8 v9 v10 v11
  clear_value v1
  clear_value v2
  have h3 : Keeps μ s₀ v3 := by
    unfold v3
    repeat' first
        | (with_reducible first
            | exact hk | exact Keeps.refl _ | apply State.clearStages_keeps)
        | (apply Sub.of <;> first | assumption | rfl) | dsimp only
  clear_value v3
  have h4 : Keeps μ s₀ v4 := by
    unfold v4
    repeat' first
        | (with_reducible first
            | exact h3 | exact Keeps.refl _ | apply State.modClk_keeps)
        | (intro _ _) | (apply Sub.of <;> first | assumption | rfl) | dsimp only
  clear_value v4
  clear_value v5
  clear_value v6
  clear_value v7
  have h8 : Keeps μ s₀ v8 := by
    unfold v8
    repeat' first
        | (with_reducible first
            | exact h4 | exact Keeps.refl _ | apply State.putRow_keeps)
        | (intro _ _) | (apply Sub.of <;> first | assumption | rfl) | dsimp only
  clear_value v8
  have h9 : Keeps μ s₀ v9 := by
    unfold v9
    repeat' first
        | (with_reducible first
            | exact h8 | exact Keeps.refl _ | apply State.gateOff_keeps)
        | (intro _ _) | (apply Sub.of <;> first | assumption | rfl) | dsimp only
  clear_value v9
  clear_value v10
  have h11 : Keeps μ s₀ v11 := by
    unfold v11
    repeat' first
        | (with_reducible first
            | exact h9 | exact Keeps.refl _ | apply State.modClk_keeps)
        | (intro _ _) | (apply Sub.of <;> first | assumption | rfl) | dsimp only
  clear_value v11
  repeat' first
      | (with_reducible first
          | exact h11 | exact Keeps.refl _ | apply State.rowRebased_keeps | apply State.freeBases_keeps)
      | (apply Sub.of <;> first | assumption | rfl) | dsimp only

theorem State.rowLoad_keeps {μ : Nat} {s₀ : State} (s : State) (r : Nat) (hk
    : Keeps μ s₀ s) (hm : Sub 0x5C00 μ := by first | assumption | (apply Sub.of <;> first | assumption | rfl))
    : Keeps μ s₀ (State.rowLoad s r) := by
  unfold State.rowLoad
  repeat' first
      | (with_reducible first
          | exact hk | exact Keeps.refl _ | apply State.applyPlacement_keeps | apply State.loadHots_keeps)
      | (apply Sub.of <;> first | assumption | rfl) | dsimp only

theorem State.rowReload_keeps {μ : Nat} {s₀ : State} (s : State) (r : Nat) (hk
    : Keeps μ s₀ s) (hm : Sub 0x5C00 μ := by first | assumption | (apply Sub.of <;> first | assumption | rfl))
    : Keeps μ s₀ (State.rowReload s r) := by
  unfold State.rowReload
  repeat' first
      | (with_reducible first
          | exact hk | exact Keeps.refl _ | apply Keeps.ite | apply State.rowLoad_keeps)
      | (apply Sub.of <;> first | assumption | rfl) | split | dsimp only

theorem State.rowRefused_keeps {μ : Nat} {s₀ : State} (s : State) (r : Nat) (st : Status) (hk
    : Keeps μ s₀ s)
    (hm : Sub 0x505C5F10 μ := by first | assumption | (apply Sub.of <;> first | assumption | rfl))
    : Keeps μ s₀ (State.rowRefused s r st) := by
  unfold State.rowRefused
  repeat' first
      | (with_reducible first
          | exact hk | exact Keeps.refl _ | apply State.rowAbsent_keeps | apply State.answer_keeps)
      | (apply Sub.of <;> first | assumption | rfl) | dsimp only

theorem State.rowBuild_keeps {μ : Nat} {s₀ : State} (s : State) (r : Nat) (c : RowCfg) (hk
    : Keeps μ s₀ s)
    (hm : Sub 0x1557EDFB8 μ := by first | assumption | (apply Sub.of <;> first | assumption | rfl))
    : Keeps μ s₀ (State.rowBuild s r c) := by
  unfold State.rowBuild
  repeat' first
      | (with_reducible first
          | exact hk | exact Keeps.refl _ | apply State.rowRefused_keeps | apply State.loadBase_keeps
          | apply State.rowConfig_keeps | apply State.rowReload_keeps | apply State.rebindAll_keeps)
      | (apply Sub.of <;> first | assumption | rfl) | split | dsimp only

theorem State.enterBuilding_keeps {μ : Nat} {s₀ : State} (s : State) (r : Nat) (hk
    : Keeps μ s₀ s)
    (hm : Sub 0x1557EDFB8 μ := by first | assumption | (apply Sub.of <;> first | assumption | rfl))
    : Keeps μ s₀ (State.enterBuilding s r) := by
  unfold State.enterBuilding
  repeat' first
      | (with_reducible first
          | exact hk | exact Keeps.refl _ | apply State.rowBuild_keeps | apply State.rowConfig_keeps
          | apply State.rowReload_keeps)
      | (apply Sub.of <;> first | assumption | rfl) | split | dsimp only

theorem State.rowOn_keeps {μ : Nat} {s₀ : State} (s : State) (r : Nat) (hk
    : Keeps μ s₀ s)
    (hm : Sub 0x1557EDFB8 μ := by first | assumption | (apply Sub.of <;> first | assumption | rfl))
    : Keeps μ s₀ (State.rowOn s r) := by
  unfold State.rowOn
  repeat' first
      | (with_reducible first
          | exact hk | exact Keeps.refl _ | apply Keeps.ite | apply State.rowAbsent_keeps | apply State.answer_keeps
          | apply State.enterBuilding_keeps)
      | (apply Sub.of <;> first | assumption | rfl) | split | dsimp only

theorem State.rowSettle_keeps {μ : Nat} {s₀ : State} (s : State) (r : Nat) (hk
    : Keeps μ s₀ s)
    (hm : Sub 0x1557EDFB8 μ := by first | assumption | (apply Sub.of <;> first | assumption | rfl))
    : Keeps μ s₀ (State.rowSettle s r) := by
  unfold State.rowSettle
  repeat' first
      | (with_reducible first
          | exact hk | exact Keeps.refl _ | apply Keeps.ite | apply State.rowOn_keeps)
      | (apply Sub.of <;> first | assumption | rfl) | split | dsimp only

theorem State.settleRows_keeps {μ : Nat} {s₀ : State} (s : State) (hk
    : Keeps μ s₀ s)
    (hm : Sub 0x1557EDFB8 μ := by first | assumption | (apply Sub.of <;> first | assumption | rfl))
    : Keeps μ s₀ (State.settleRows s) := by
  unfold State.settleRows
  repeat' first
      | (with_reducible first
          | exact hk | exact Keeps.refl _ | apply State.rowSettle_keeps | apply forEach_keeps)
      | (intro _ _) | (apply Sub.of <;> first | assumption | rfl) | dsimp only

theorem runSettled_keeps {μ : Nat} {s t : State} {f : State → State} (hf : ∀ u, Keeps μ u (f u))
    (h : runSettled s f = .next t) (hm : Sub 0x1557EDFB8 μ := by first | assumption | (apply Sub.of <;> first | assumption | rfl)) : Keeps μ s t :=
  run_keeps (fun u => State.settleRows_keeps _ (hf u)) h

theorem State.retirePress_keeps {μ : Nat} {s₀ : State} (s : State) (p cause : Nat) (hk
    : Keeps μ s₀ s)
    (hm : Sub 0xD97D5FF0 μ := by first | assumption | (apply Sub.of <;> first | assumption | rfl))
    : Keeps μ s₀ (State.retirePress s p cause) := by
  unfold State.retirePress
  repeat' first
      | (with_reducible first
          | exact hk | exact Keeps.refl _ | apply Keeps.ite | apply State.faultOfRow_keeps | apply State.abandon_keeps
          | apply State.rowAbsent_keeps | apply State.answer_keeps | apply State.modPress_keeps
          | apply State.gateOff_keeps | apply State.raise_keeps | apply forEach_keeps)
      | (intro _ _) | (apply Sub.of <;> first | assumption | rfl) | split | dsimp only

theorem State.resetPress_keeps {μ : Nat} {s₀ : State} (s : State) (p : Nat) (hk
    : Keeps μ s₀ s) (hm : Sub 0x24800 μ := by first | assumption | (apply Sub.of <;> first | assumption | rfl))
    : Keeps μ s₀ (State.resetPress s p) := by
  unfold State.resetPress
  extract_lets v1 v2
  have h1 : Keeps μ s₀ v1 := by
    unfold v1
    repeat' first
        | (with_reducible first
            | exact hk | exact Keeps.refl _ | apply State.modPress_keeps)
        | (intro _ _) | (apply Sub.of <;> first | assumption | rfl) | dsimp only
  clear_value v1
  have h2 : Keeps μ s₀ v2 := by
    unfold v2
    repeat' first
        | (with_reducible first
            | exact h1 | exact Keeps.refl _ | apply State.modEngine_keeps)
        | (intro _ _) | (apply Sub.of <;> first | assumption | rfl) | dsimp only
  clear_value v2
  repeat' first
      | (with_reducible first
          | exact h2 | exact Keeps.refl _ | apply Keeps.mem)
      | exact fun w => wf_mclear _ _ _ w | (apply Sub.of <;> first | assumption | rfl) | dsimp only

theorem State.requestAgain_keeps {μ : Nat} {s₀ : State} (s : State) (m : Nat) (t : Xfer) (hk
    : Keeps μ s₀ s) (hm : Sub 0x8000 μ := by first | assumption | (apply Sub.of <;> first | assumption | rfl))
    : Keeps μ s₀ (State.requestAgain s m t) := by
  unfold State.requestAgain
  repeat' first
      | (with_reducible first
          | exact hk | exact Keeps.refl _ | apply Keeps.ite | apply State.modChannel_keeps | apply forEach_keeps)
      | refine Keeps.of_snd (by assumption) ?_ | refine Keeps.of_fst (by assumption) ?_ | (intro _ _)
      | (apply Sub.of <;> first | assumption | rfl) | split | dsimp only

theorem State.requestsAgain_keeps {μ : Nat} {s₀ : State} (s : State) (m : Nat) (hk
    : Keeps μ s₀ s) (hm : Sub 0x8000 μ := by first | assumption | (apply Sub.of <;> first | assumption | rfl))
    : Keeps μ s₀ (State.requestsAgain s m) := by
  unfold State.requestsAgain
  repeat' first
      | (with_reducible first
          | exact hk | exact Keeps.refl _ | apply State.requestAgain_keeps | apply forEach_keeps)
      | (intro _ _) | (apply Sub.of <;> first | assumption | rfl) | dsimp only

theorem State.resetEdge_keeps {μ : Nat} {s₀ : State} (s : State) (m : Nat) (hk
    : Keeps μ s₀ s) (hm : Sub 0xC000 μ := by first | assumption | (apply Sub.of <;> first | assumption | rfl))
    : Keeps μ s₀ (State.resetEdge s m) := by
  unfold State.resetEdge
  extract_lets v1
  have h1 : Keeps μ s₀ v1 := by
    unfold v1
    repeat' first
        | (with_reducible first
            | exact hk | exact Keeps.refl _ | apply State.modEngine_keeps)
        | (intro _ _) | (apply Sub.of <;> first | assumption | rfl) | dsimp only
  clear_value v1
  repeat' first
      | (with_reducible first
          | exact h1 | exact Keeps.refl _ | apply State.modChannel_keeps | apply forEach_keeps)
      | (intro _ _) | (apply Sub.of <;> first | assumption | rfl) | dsimp only

theorem State.countDieReset_keeps {μ : Nat} {s₀ : State} (s : State) (hk
    : Keeps μ s₀ s) (hm : Sub 0x8 μ := by first | assumption | (apply Sub.of <;> first | assumption | rfl))
    : Keeps μ s₀ (State.countDieReset s) := by
  unfold State.countDieReset
  repeat' first
      | (with_reducible first
          | exact hk | exact Keeps.refl _ | apply State.modPower_keeps)
      | (intro _ _) | (apply Sub.of <;> first | assumption | rfl) | dsimp only

theorem State.answerAsked_keeps {μ : Nat} {s₀ : State} (s : State) (e : Nat) (st : Status) (body : List Byte)
    (hk : Keeps μ s₀ s)
    (hm : Sub 0x405C0008 μ := by first | assumption | (apply Sub.of <;> first | assumption | rfl))
    : Keeps μ s₀ (State.answerAsked s e st body) := by
  unfold State.answerAsked
  repeat' first
      | (with_reducible first
          | exact hk | exact Keeps.refl _ | apply Keeps.ite | apply State.modPower_keeps | apply State.answer_keeps)
      | (intro _ _) | (apply Sub.of <;> first | assumption | rfl) | split | dsimp only

theorem State.startDieReset_keeps {μ : Nat} {s₀ : State} (s : State) (e : Nat) (hk
    : Keeps μ s₀ s)
    (hm : Sub 0x405C0008 μ := by first | assumption | (apply Sub.of <;> first | assumption | rfl))
    : Keeps μ s₀ (State.startDieReset s e) := by
  unfold State.startDieReset
  repeat' first
      | (with_reducible first
          | exact hk | exact Keeps.refl _ | apply Keeps.ite | apply State.modPower_keeps
          | apply State.answerAsked_keeps)
      | (intro _ _) | (apply Sub.of <;> first | assumption | rfl) | split | dsimp only

theorem State.beginPressReset_keeps {μ : Nat} {s₀ : State} (s : State) (p : Nat) (hk
    : Keeps μ s₀ s)
    (hm : Sub 0x405C0008 μ := by first | assumption | (apply Sub.of <;> first | assumption | rfl))
    : Keeps μ s₀ (State.beginPressReset s p) := by
  unfold State.beginPressReset
  repeat' first
      | (with_reducible first
          | exact hk | exact Keeps.refl _ | apply Keeps.ite | apply State.modPower_keeps
          | apply State.startDieReset_keeps)
      | (intro _ _) | (apply Sub.of <;> first | assumption | rfl) | split | dsimp only

theorem State.reloadRow_keeps {μ : Nat} {s₀ : State} (s : State) (p : Nat) (hk
    : Keeps μ s₀ s) (hm : Sub 0x5C00 μ := by first | assumption | (apply Sub.of <;> first | assumption | rfl))
    : Keeps μ s₀ (State.reloadRow s p) := by
  unfold State.reloadRow
  repeat' first
      | (with_reducible first
          | exact hk | exact Keeps.refl _ | apply Keeps.ite | apply State.rowLoad_keeps)
      | (apply Sub.of <;> first | assumption | rfl) | split | dsimp only

theorem State.rowFault_keeps {μ : Nat} {s₀ : State} (s : State) (r p : Nat) (hk
    : Keeps μ s₀ s)
    (hm : Sub 0x1DD7FDFF8 μ := by first | assumption | (apply Sub.of <;> first | assumption | rfl))
    : Keeps μ s₀ (State.rowFault s r p) := by
  unfold State.rowFault
  extract_lets v1 v2 v3 v4 v5 v6 v7 v8 v9 v10
  clear_value v1
  clear_value v2
  clear_value v3
  have h4 : Keeps μ s₀ v4 := by
    unfold v4
    repeat' first
        | (with_reducible first
            | exact hk | exact Keeps.refl _ | apply State.modPress_keeps)
        | (intro _ _) | (apply Sub.of <;> first | assumption | rfl) | dsimp only
  clear_value v4
  have h5 : Keeps μ s₀ v5 := by
    unfold v5
    repeat' first
        | (with_reducible first
            | exact h4 | exact Keeps.refl _ | apply Keeps.ite | apply State.modRow_keeps)
        | (intro _ _) | (apply Sub.of <;> first | assumption | rfl) | split | dsimp only
  clear_value v5
  have h6 : Keeps μ s₀ v6 := by
    unfold v6
    repeat' first
        | (with_reducible first
            | exact h5 | exact Keeps.refl _ | apply State.voidRow_keeps)
        | (apply Sub.of <;> first | assumption | rfl) | dsimp only
  clear_value v6
  have h7 : Keeps μ s₀ v7 := by
    unfold v7
    repeat' first
        | (with_reducible first
            | exact h6 | exact Keeps.refl _ | apply State.abandon_keeps | apply forEach_keeps)
        | (intro _ _) | (apply Sub.of <;> first | assumption | rfl) | dsimp only
  clear_value v7
  have h8 : Keeps μ s₀ v8 := by
    unfold v8
    repeat' first
        | (with_reducible first
            | exact h7 | exact Keeps.refl _ | apply State.faultOfRow_keeps | apply forEach_keeps)
        | (intro _ _) | (apply Sub.of <;> first | assumption | rfl) | dsimp only
  clear_value v8
  have h9 : Keeps μ s₀ v9 := by
    unfold v9
    repeat' first
        | (with_reducible first
            | exact h8 | exact Keeps.refl _ | apply State.modClerk_keeps)
        | (intro _ _) | (apply Sub.of <;> first | assumption | rfl) | dsimp only
  clear_value v9
  have h10 : Keeps μ s₀ v10 := by
    unfold v10
    repeat' first
        | (with_reducible first
            | exact h9 | exact Keeps.refl _ | apply State.raise_keeps)
        | (apply Sub.of <;> first | assumption | rfl) | dsimp only
  clear_value v10
  repeat' first
      | (with_reducible first
          | exact h10 | exact Keeps.refl _ | apply Keeps.ite | apply State.retirePress_keeps
          | apply State.answerAsked_keeps | apply State.beginPressReset_keeps | apply State.rowOn_keeps)
      | (apply Sub.of <;> first | assumption | rfl) | split | dsimp only

theorem State.linkEvent_keeps {μ : Nat} {s₀ : State} (s : State) (p arg : Nat) (hk
    : Keeps μ s₀ s) (hm : Sub 0x600000 μ := by first | assumption | (apply Sub.of <;> first | assumption | rfl))
    : Keeps μ s₀ (State.linkEvent s p arg) := by
  unfold State.linkEvent
  repeat' first
      | (with_reducible first
          | exact hk | exact Keeps.refl _ | apply State.raise_keeps)
      | (apply Sub.of <;> first | assumption | rfl) | dsimp only

theorem State.dropLink_keeps {μ : Nat} {s₀ : State} (s : State) (port : Nat) (hk
    : Keeps μ s₀ s)
    (hm : Sub 0x10640004 μ := by first | assumption | (apply Sub.of <;> first | assumption | rfl))
    : Keeps μ s₀ (State.dropLink s port) := by
  unfold State.dropLink
  repeat' first
      | (with_reducible first
          | exact hk | exact Keeps.refl _ | apply Keeps.ite | apply State.draw_keeps | apply State.modNet_keeps
          | apply State.modClk_keeps | apply State.linkEvent_keeps)
      | (intro _ _) | (apply Sub.of <;> first | assumption | rfl) | split | dsimp only

theorem State.dropHeld_keeps {μ : Nat} {s₀ : State} (s : State) (k : Nat) (hk
    : Keeps μ s₀ s) (hm : Sub 0x40000 μ := by first | assumption | (apply Sub.of <;> first | assumption | rfl))
    : Keeps μ s₀ (State.dropHeld s k) := by
  unfold State.dropHeld
  repeat' first
      | (with_reducible first
          | exact hk | exact Keeps.refl _ | apply Keeps.ite | apply State.modNet_keeps)
      | (intro _ _) | (apply Sub.of <;> first | assumption | rfl) | split | dsimp only

end Sys2Proof.Machine
end

