-- ==== Sys2Proof/Laws/Operands.lean ====
section
/-! SUPPORT. What the command path of the clerk keep: the queue of waiting commands, memory's canonical form, and the parts of the state that each
never writes (a mask over `Field`, by index). -/

namespace Sys2Proof.Machine
set_option Elab.async false

theorem State.startCmd_keeps {μ : Nat} {s₀ : State} (s : State) (h : CmdHdr) (hk
    : Keeps μ s₀ s) (hm : Sub 0x405C0000 μ := by first | assumption | (apply Sub.of <;> first | assumption | rfl)) :
    Keeps μ s₀ (State.startCmd s h) := by
  unfold State.startCmd
  dsimp only
  refine State.serveBad_keeps _ _ _ ?_
  split
  · exact State.putSess_keeps _ _ _ hk
  · exact hk

theorem State.auditCmd_keeps {μ : Nat} {s₀ : State} (s : State) (c : Shape) (h : CmdHdr) (kind : Nat)
    (st : Status) (hk : Keeps μ s₀ s)
    (hm : Sub 0x4000000 μ := by first | assumption | (apply Sub.of <;> first | assumption | rfl))
    : Keeps μ s₀ (State.auditCmd s c h kind st) := by
  unfold State.auditCmd
  repeat' first
      | (with_reducible first
          | exact hk | exact Keeps.refl _ | apply Keeps.ite | apply State.audit_keeps)
      | (apply Sub.of <;> first | assumption | rfl) | split | dsimp only

theorem State.refuse_keeps {μ : Nat} {s₀ : State} (s : State) (c : Shape) (h : CmdHdr) (st : Status)
    (body : List Byte) (f : State → State) (hf : ∀ t u, Keeps μ t u → Keeps μ t (f u)) (hk : Keeps μ s₀ s)
    (hm : Sub 0x445C0000 μ := by first | assumption | (apply Sub.of <;> first | assumption | rfl))
    : Keeps μ s₀ (State.refuse s c h st body f) := by
  unfold State.refuse
  repeat' first
      | (with_reducible first
          | exact hk | exact Keeps.refl _ | apply Keeps.ite | apply State.auditCmd_keeps | apply State.reply_keeps
          | apply hf)
      | (apply Sub.of <;> first | assumption | rfl) | split | dsimp only

/-- The effect an outcome of a command's own checks has. -/
def Act.effect : Act → State → State
  | .refuse _ _ f => f
  | .done f _ _ => f
  | .later f => f

/-- An outcome whose effect keeps the queue and memory's form, and writes only the parts of the mask. -/
def ActKeeps (μ : Nat) (a : Act) : Prop := ∀ t, Keeps μ t (a.effect t)

/-- The same of an outcome that may be absent. -/
def OptKeeps (μ : Nat) (a : Option Act) : Prop := ∀ x, a = some x → ActKeeps μ x

theorem ActKeeps.refuse {μ : Nat} {st : Status} {b : List Byte} {f : State → State} (h : ∀ t, Keeps μ t (f t)) :
    ActKeeps μ (.refuse st b f) := h
theorem ActKeeps.done {μ : Nat} {f : State → State} {b : State → List Byte} {n : Nat} (h : ∀ t, Keeps μ t (f t)) :
    ActKeeps μ (.done f b n) := h
theorem ActKeeps.later {μ : Nat} {f : State → State} (h : ∀ t, Keeps μ t (f t)) : ActKeeps μ (.later f) := h
theorem ActKeeps.ok {μ : Nat} {f : State → State} {b : List Byte} (h : ∀ t, Keeps μ t (f t))
    : ActKeeps μ (.ok f b) := h
theorem ActKeeps.no {μ : Nat} (st : Status) : ActKeeps μ (.no st) := Keeps.refl
theorem ActKeeps.conflict {μ : Nat} (l : List Conflict) : ActKeeps μ (.conflict l) := Keeps.refl
theorem ActKeeps.ite {μ : Nat} {c : Prop} [Decidable c] {a b : Act} (h : ActKeeps μ a) (k : ActKeeps μ b) :
    ActKeeps μ (if c then a else b) := by
  split <;> assumption
theorem OptKeeps.none {μ : Nat} : OptKeeps μ none := by simp [OptKeeps]
theorem OptKeeps.some {μ : Nat} {a : Act} (h : ActKeeps μ a) : OptKeeps μ (some a) := fun _ e => Option.some.inj e ▸ h
theorem OptKeeps.ite {μ : Nat} {c : Prop} [Decidable c] {a b : Option Act} (h : OptKeeps μ a) (k : OptKeeps μ b) :
    OptKeeps μ (if c then a else b) := by
  split <;> assumption

/-- A command of the mailbox keeps what its own effect keeps; it writes the audit log only where R312 asks for a record. -/
theorem clerk_keeps {μ : Nat} {c : Shape} {h : CmdHdr} {len : Nat} {own : State → Act} {s : State}
    (ho : ∀ t, ActKeeps μ (own t)) (ha : (c.audited = false ∧ c.auditRefused = false) ∨ Sub 0x4000000 μ)
    (hm : Sub 0x405C0000 μ := by first | assumption | (apply Sub.of <;> first | assumption | rfl)) : Keeps μ s (clerk c h len own s) := by
  have hr : ∀ st b f, (∀ t, Keeps μ t (f t)) → Keeps μ s (s.refuse c h st b f) := by
    intro st b f hf
    unfold State.refuse
    refine State.reply_keeps _ _ _ _ _ ((?_ : Keeps μ s _).trans (hf _))
    cases ha with
    | inl ha => simpa [ha] using Keeps.refl s
    | inr ha => exact .ite (State.auditCmd_keeps _ _ _ _ _ (.refl s)) (.refl s)
  have hu : Keeps μ s (if c.audited then s.auditCmd c h 1 .ok else s) := by
    cases ha with
    | inl ha => simpa [ha] using Keeps.refl s
    | inr ha => exact .ite (State.auditCmd_keeps _ _ _ _ _ (.refl s)) (.refl s)
  have hf := ho s
  unfold clerk
  refine .ite ?_ (.refl s)
  split
  · exact hr _ _ _ Keeps.refl
  · split
    · rename_i e
      rw [e] at hf
      exact hr _ _ _ hf
    · rename_i e
      rw [e] at hf
      exact State.reply_keeps _ _ _ _ _ (hu.trans (hf _))
    · rename_i e
      rw [e] at hf
      exact State.startCmd_keeps _ _ (hu.trans (hf _))

/-- An accepted command that carries out at once answers the effect on the logged state, and its response. -/
theorem clerk_done {c : Shape} {h : CmdHdr} {len : Nat} {own : State → Act} {s : State} {f : State → State}
    {b : State → List Byte} {n : Nat} (ha : s.Accepts c h len) (ho : own s = .done f b n) :
    run s (clerk c h len own) =
      .next ((f (s.logged c h)).reply (s.hdrDefer c.opcode h) .ok n (b (f (s.logged c h)))) := by
  obtain ⟨h1, h2, h3⟩ := ha
  simp [run, clerk, State.logged, h1, h2, h3, ho]

/-- An accepted command whose response is deferred has its effect on the logged state, and the commands behind it may start. -/
theorem clerk_later {c : Shape} {h : CmdHdr} {len : Nat} {own : State → Act} {s : State} {f : State → State}
    (ha : s.Accepts c h len) (ho : own s = .later f) :
    run s (clerk c h len own) = .next ((f (s.logged c h)).startCmd h) := by
  obtain ⟨h1, h2, h3⟩ := ha
  simp [run, clerk, State.logged, h1, h2, h3, ho]

/-- An accepted command that its own checks refuse has the refusal's effect alone. -/
theorem clerk_refused {c : Shape} {h : CmdHdr} {len : Nat} {own : State → Act} {s : State} {f : State → State}
    {st : Status} {b : List Byte} (ha : s.Accepts c h len) (ho : own s = .refuse st b f) :
    run s (clerk c h len own) = .next (s.refuse c h st b f) := by
  obtain ⟨h1, h2, h3⟩ := ha
  simp [run, clerk, h1, h2, h3, ho]

/-- A command that a check of R292 refuses has no effect but the refusal. -/
theorem clerk_prechecked {c : Shape} {h : CmdHdr} {len : Nat} {own : State → Act} {s : State} {st : Status}
    {b : List Byte} (hc : s.clocked = true) (ht : s.takes h = true) (hp : s.precheck c h len = some (st, b)) :
    run s (clerk c h len own) = .next (s.refuse c h st b id) := by
  simp [run, clerk, hc, ht, hp]

/-- A command that Palhani does not take changes nothing. -/
theorem clerk_untaken {c : Shape} {h : CmdHdr} {len : Nat} {own : State → Act} {s : State} (hc : s.clocked = true)
    (ht : s.takes h = false) : run s (clerk c h len own) = .next s := by
  simp [run, clerk, hc, ht]

@[simp] theorem State.logged_unaudited {s : State} {c : Shape} {h : CmdHdr} (e : c.audited = false) : s.logged c h = s := by
  simp [State.logged, e]

end Sys2Proof.Machine
end

