-- ==== Sys2Proof/Laws/Control.lean ====
section
/-! SUPPORT. What session control keep: the queue of waiting commands, memory's canonical form, and the parts of the state that each
never writes (a mask over `Field`, by index). -/

namespace Sys2Proof.Machine
set_option Elab.async false

theorem helloOwn_keeps {μ : Nat} (h : CmdHdr) (body : List Byte) (s : State)
    (hm : Sub 0x2080000 μ := by first | assumption | (apply Sub.of <;> first | assumption | rfl))
    : ActKeeps μ (helloOwn h body s) := by
  unfold helloOwn
  repeat' first
      | (with_reducible first
          | exact Keeps.refl _ | exact ActKeeps.no _ | exact ActKeeps.conflict _ | exact OptKeeps.none
          | apply ActKeeps.ite | apply OptKeeps.ite | apply Keeps.ite | apply OptKeeps.some | apply ActKeeps.ok
          | apply ActKeeps.done | apply ActKeeps.later | apply ActKeeps.refuse | apply State.modSess_keeps
          | apply State.modFw_keeps | apply State.refuse_keeps | exact Keeps.id_ _ | assumption)
      | (apply Sub.of <;> first | assumption | rfl) | split | dsimp only | intro _

theorem execHello_keeps {h : CmdHdr} {body : List Byte} {s : State} {t : State}
    (h : execHello h body s = .next t) : Keeps 0x425C0000 s t := by
  have hm := Sub.refl 0x425C0000
  unfold execHello at h
  refine run_keeps ?_ h
  intro _
  repeat' first
      | (with_reducible first
          | exact Keeps.refl _ | apply Keeps.ite | apply clerk_keeps | apply helloOwn_keeps | apply clerk_keeps
          | exact Keeps.id_ _ | assumption)
      | exact Or.inl ⟨rfl, rfl⟩ | refine Or.inr ?_ | (apply Sub.of <;> first | assumption | rfl) | split | dsimp only
      | intro _

theorem resyncOwn_keeps {μ : Nat} (h : CmdHdr) (body : List Byte) (s : State)
    (hm : Sub 0x480000 μ := by first | assumption | (apply Sub.of <;> first | assumption | rfl))
    : ActKeeps μ (resyncOwn h body s) := by
  unfold resyncOwn
  extract_lets q page stall id room named
  refine .ite (.no _) (.ite ?_ ?_)
  · exact .done (fun t => State.modClerk_keeps _ _ (State.modSess_keeps _ _ _ (.refl t)))
  · dsimp only
    split
    · exact .conflict _
    · exact .ite (.conflict _) (.ite (.no _) (.done Keeps.refl))

theorem execResync_keeps {h : CmdHdr} {body : List Byte} {s : State} {t : State}
    (h : execResync h body s = .next t) : Keeps 0x405C0000 s t := by
  have hm := Sub.refl 0x405C0000
  unfold execResync at h
  refine run_keeps ?_ h
  intro _
  repeat' first
      | (with_reducible first
          | exact Keeps.refl _ | apply Keeps.ite | apply clerk_keeps | apply resyncOwn_keeps | apply clerk_keeps
          | exact Keeps.id_ _ | assumption)
      | exact Or.inl ⟨rfl, rfl⟩ | refine Or.inr ?_ | (apply Sub.of <;> first | assumption | rfl) | split | dsimp only
      | intro _

theorem State.setRole_keeps {μ : Nat} {s₀ : State} (s : State) (k role : Nat) (peer : Bool) (hk
    : Keeps μ s₀ s) (hm : Sub 0x80000 μ := by first | assumption | (apply Sub.of <;> first | assumption | rfl))
    : Keeps μ s₀ (State.setRole s k role peer) := by
  unfold State.setRole
  repeat' first
      | (with_reducible first
          | exact hk | exact Keeps.refl _ | apply State.modSess_keeps)
      | (intro _ _) | (apply Sub.of <;> first | assumption | rfl) | dsimp only

theorem State.credFailed_keeps {μ : Nat} {s₀ : State} (s : State) (hk
    : Keeps μ s₀ s) (hm : Sub 0x4000000 μ := by first | assumption | (apply Sub.of <;> first | assumption | rfl))
    : Keeps μ s₀ (State.credFailed s) := by
  unfold State.credFailed
  extract_lets v1 v2
  clear_value v1
  have h2 : Keeps μ s₀ v2 := by
    unfold v2
    repeat' first
        | (with_reducible first
            | exact hk | exact Keeps.refl _ | apply State.modSec_keeps)
        | (intro _ _) | (apply Sub.of <;> first | assumption | rfl) | dsimp only
  clear_value v2
  repeat' first
      | (with_reducible first
          | exact h2 | exact Keeps.refl _ | apply Keeps.ite | apply State.modSec_keeps | apply State.audit_keeps)
      | (intro _ _) | (apply Sub.of <;> first | assumption | rfl) | split | dsimp only

theorem roleAssertOwn_keeps {μ : Nat} (h : CmdHdr) (body : List Byte) (s : State)
    (hm : Sub 0x4080000 μ := by first | assumption | (apply Sub.of <;> first | assumption | rfl))
    : ActKeeps μ (roleAssertOwn h body s) := by
  unfold roleAssertOwn
  repeat' first
      | (with_reducible first
          | exact Keeps.refl _ | exact ActKeeps.no _ | exact ActKeeps.conflict _ | exact OptKeeps.none
          | apply ActKeeps.ite | apply OptKeeps.ite | apply Keeps.ite | apply OptKeeps.some | apply ActKeeps.ok
          | apply ActKeeps.done | apply ActKeeps.later | apply ActKeeps.refuse | apply State.setRole_keeps
          | apply State.modSec_keeps | apply State.refuse_keeps | apply State.credFailed_keeps | exact Keeps.id_ _
          | assumption)
      | (apply Sub.of <;> first | assumption | rfl) | split | dsimp only | intro _

theorem execRoleAssert_keeps {h : CmdHdr} {body : List Byte} {s : State} {t : State}
    (h : execRoleAssert h body s = .next t) : Keeps 0x445C0000 s t := by
  have hm := Sub.refl 0x445C0000
  unfold execRoleAssert at h
  refine run_keeps ?_ h
  intro _
  repeat' first
      | (with_reducible first
          | exact Keeps.refl _ | apply Keeps.ite | apply clerk_keeps | apply roleAssertOwn_keeps | apply clerk_keeps
          | exact Keeps.id_ _ | assumption)
      | exact Or.inl ⟨rfl, rfl⟩ | refine Or.inr ?_ | (apply Sub.of <;> first | assumption | rfl) | split | dsimp only
      | intro _

theorem heartbeatOwn_keeps {μ : Nat} (h : CmdHdr) (body : List Byte) (_s : State)
    (hm : Sub 0x80000 μ := by first | assumption | (apply Sub.of <;> first | assumption | rfl))
    : ActKeeps μ (heartbeatOwn h body _s) := by
  unfold heartbeatOwn
  repeat' first
      | (with_reducible first
          | exact Keeps.refl _ | exact ActKeeps.no _ | exact ActKeeps.conflict _ | exact OptKeeps.none
          | apply ActKeeps.ite | apply OptKeeps.ite | apply Keeps.ite | apply OptKeeps.some | apply ActKeeps.ok
          | apply ActKeeps.done | apply ActKeeps.later | apply ActKeeps.refuse | apply State.modSess_keeps
          | exact Keeps.id_ _ | assumption)
      | (apply Sub.of <;> first | assumption | rfl) | split | dsimp only | intro _

theorem execHeartbeat_keeps {h : CmdHdr} {body : List Byte} {s : State} {t : State}
    (h : execHeartbeat h body s = .next t) : Keeps 0x405C0000 s t := by
  have hm := Sub.refl 0x405C0000
  unfold execHeartbeat at h
  refine run_keeps ?_ h
  intro _
  repeat' first
      | (with_reducible first
          | exact Keeps.refl _ | apply Keeps.ite | apply clerk_keeps | apply heartbeatOwn_keeps | apply clerk_keeps
          | exact Keeps.id_ _ | assumption)
      | exact Or.inl ⟨rfl, rfl⟩ | refine Or.inr ?_ | (apply Sub.of <;> first | assumption | rfl) | split | dsimp only
      | intro _

end Sys2Proof.Machine
end

