-- ==== Sys2Proof/Laws/StreamOps.lean ====
section
/-! SUPPORT. What the stream operations keep: the queue of waiting commands, memory's canonical form, and the parts of the state that each
never writes (a mask over `Field`, by index). -/

namespace Sys2Proof.Machine
set_option Elab.async false

theorem State.storeTokens_keeps {μ : Nat} {s₀ : State} (s : State) (n : Nat) (c : HeldChunk) (hk
    : Keeps μ s₀ s) (hm : Sub 0x20000 μ := by first | assumption | (apply Sub.of <;> first | assumption | rfl)) :
    Keeps μ s₀ (State.storeTokens s n c) := by
  exact .mem hk (fun w => wf_foldl (fun m (p : Nat × Nat) => mwrite m p.2 (((c.tokens.drop (32 * p.1)).take 32).flatMap tokenBytes))
    (fun m p h => wf_mwrite _ _ _ h) _ _ w)

theorem State.writeJournal_keeps {μ : Nat} {s₀ : State} (s : State) (n : Nat) (j : Journal) (hk
    : Keeps μ s₀ s)
    (hm : Sub 0x10566C0E8 μ := by first | assumption | (apply Sub.of <;> first | assumption | rfl))
    : Keeps μ s₀ (State.writeJournal s n j) := by
  unfold State.writeJournal
  repeat' first
      | (with_reducible first
          | exact hk | exact Keeps.refl _ | apply Keeps.ite | apply State.putJournal_keeps
          | apply State.bulkWrite_keeps | apply State.countMove_keeps | apply Keeps.mem)
      | exact fun w => wf_mclear _ _ _ w | (intro w; first | exact w | exact wf_mwrite _ _ _ w)
      | (apply Sub.of <;> first | assumption | rfl) | split | dsimp only

theorem State.journalAppend_keeps {μ : Nat} {s₀ : State} (s : State) (n : Nat) (c : HeldChunk) (hk
    : Keeps μ s₀ s)
    (hm : Sub 0x10566C0E8 μ := by first | assumption | (apply Sub.of <;> first | assumption | rfl))
    : Keeps μ s₀ (State.journalAppend s n c) := by
  unfold State.journalAppend
  repeat' first
      | (with_reducible first
          | exact hk | exact Keeps.refl _ | apply Keeps.ite | apply State.writeJournal_keeps
          | apply State.modClerk_keeps | apply State.raise_keeps)
      | refine Keeps.of_snd (by assumption) ?_ | refine Keeps.of_fst (by assumption) ?_ | (intro _ _)
      | (apply Sub.of <;> first | assumption | rfl) | split | dsimp only

theorem State.raiseReplayMark_keeps {μ : Nat} {s₀ : State} (s : State) (n : Nat) (hk
    : Keeps μ s₀ s)
    (hm : Sub 0x10566C0E8 μ := by first | assumption | (apply Sub.of <;> first | assumption | rfl))
    : Keeps μ s₀ (State.raiseReplayMark s n) := by
  unfold State.raiseReplayMark
  repeat' first
      | (with_reducible first
          | exact hk | exact Keeps.refl _ | apply Keeps.ite | apply State.writeJournal_keeps)
      | (apply Sub.of <;> first | assumption | rfl) | split | dsimp only

theorem State.hubPush_keeps {μ : Nat} {s₀ : State} (s : State) (n : Nat) (d : Desc) (hk
    : Keeps μ s₀ s) (hm : Sub 0x4000 μ := by first | assumption | (apply Sub.of <;> first | assumption | rfl))
    : Keeps μ s₀ (State.hubPush s n d) := by
  unfold State.hubPush
  repeat' first
      | (with_reducible first
          | exact hk | exact Keeps.refl _ | apply State.pushDesc_keeps)
      | (apply Sub.of <;> first | assumption | rfl) | dsimp only

theorem State.initByte_keeps {μ : Nat} {s₀ : State} (s : State) (a : Nat) (v : Byte) (hk
    : Keeps μ s₀ s)
    (hm : Sub 0x100020000 μ := by first | assumption | (apply Sub.of <;> first | assumption | rfl)) :
    Keeps μ s₀ (State.initByte s a v) := by
  unfold State.initByte
  split
  · exact .mem hk (fun w => wf_mset _ _ _ w)
  · exact .heldMoves hk

theorem State.initFolio_keeps {μ : Nat} {s₀ : State} (s : State) (n : Nat) (hk
    : Keeps μ s₀ s)
    (hm : Sub 0x1056680A8 μ := by first | assumption | (apply Sub.of <;> first | assumption | rfl)) :
    Keeps μ s₀ (State.initFolio s n) := by
  unfold State.initFolio
  extract_lets x v b
  exact forEach_keeps _ _ _ (fun t e => State.initByte_keeps _ _ _ (.refl t)) (State.bulkInit_keeps _ _ _ _ hk)

theorem State.applyMark_keeps {μ : Nat} {s₀ : State} (s : State) (n p : Nat) (hk
    : Keeps μ s₀ s) (hm : Sub 0x20 μ := by first | assumption | (apply Sub.of <;> first | assumption | rfl))
    : Keeps μ s₀ (State.applyMark s n p) := by
  unfold State.applyMark
  repeat' first
      | (with_reducible first
          | exact hk | exact Keeps.refl _ | apply Keeps.ite | apply State.modEgr_keeps)
      | (intro _ _) | (apply Sub.of <;> first | assumption | rfl) | split | dsimp only

theorem State.writeSample_keeps {μ : Nat} {s₀ : State} (s : State) (n p : Nat) (v : Int) (hk
    : Keeps μ s₀ s) (hm : Sub 0x4000A0 μ := by first | assumption | (apply Sub.of <;> first | assumption | rfl))
    : Keeps μ s₀ (State.writeSample s n p v) := by
  unfold State.writeSample
  extract_lets v1 v2
  have h1 : Keeps μ s₀ v1 := by
    unfold v1
    repeat' first
        | (with_reducible first
            | exact hk | exact Keeps.refl _ | apply State.applyMark_keeps)
        | (apply Sub.of <;> first | assumption | rfl) | dsimp only
  clear_value v1
  clear_value v2
  repeat' first
      | (with_reducible first
          | exact h1 | exact Keeps.refl _ | apply Keeps.ite | apply State.putEgr_keeps | apply State.modClerk_keeps
          | apply State.modStall_keeps)
      | (intro _ _) | (apply Sub.of <;> first | assumption | rfl) | split | dsimp only

theorem State.releaseEgress_keeps {μ : Nat} {s₀ : State} (s : State) (n p : Nat) (hk
    : Keeps μ s₀ s) (hm : Sub 0x4000A0 μ := by first | assumption | (apply Sub.of <;> first | assumption | rfl))
    : Keeps μ s₀ (State.releaseEgress s n p) := by
  unfold State.releaseEgress
  repeat' first
      | (with_reducible first
          | exact hk | exact Keeps.refl _ | apply State.putEgr_keeps | apply State.giveEgress_keeps)
      | (intro _ _) | (apply Sub.of <;> first | assumption | rfl) | dsimp only

theorem State.queue_keeps {μ : Nat} {s₀ : State} (s : State) (n : Nat) (hk
    : Keeps μ s₀ s) (hm : Sub 0x12 μ := by first | assumption | (apply Sub.of <;> first | assumption | rfl))
    : Keeps μ s₀ (State.queue s n) := by
  unfold State.queue
  repeat' first
      | (with_reducible first
          | exact hk | exact Keeps.refl _ | apply State.rebind_keeps | apply State.modStream_keeps
          | apply State.tick_keeps)
      | (intro _ _) | (apply Sub.of <;> first | assumption | rfl) | dsimp only

theorem State.wake_keeps {μ : Nat} {s₀ : State} (s : State) (n : Nat) (hk
    : Keeps μ s₀ s) (hm : Sub 0x1000012 μ := by first | assumption | (apply Sub.of <;> first | assumption | rfl))
    : Keeps μ s₀ (State.wake s n) := by
  unfold State.wake
  repeat' first
      | (with_reducible first
          | exact hk | exact Keeps.refl _ | apply Keeps.ite | apply State.idle_keeps | apply State.discardPark_keeps
          | apply State.queue_keeps)
      | (apply Sub.of <;> first | assumption | rfl) | split | dsimp only

theorem State.freeze_keeps {μ : Nat} {s₀ : State} (s : State) (n handle port : Nat) (move : Bool) (hk
    : Keeps μ s₀ s)
    (hm : Sub 0x18DE5DDF8 μ := by first | assumption | (apply Sub.of <;> first | assumption | rfl))
    : Keeps μ s₀ (State.freeze s n handle port move).2 := by
  unfold State.freeze
  extract_lets v1 v2 v3 v4 v5
  clear_value v1
  clear_value v2
  clear_value v3
  have h4 : Keeps μ s₀ v4 := by
    unfold v4
    repeat' first
        | (with_reducible first
            | exact hk | exact Keeps.refl _ | apply State.putImg_keeps)
        | (apply Sub.of <;> first | assumption | rfl) | dsimp only
  clear_value v4
  have h5 : Keeps μ s₀ v5 := by
    unfold v5
    repeat' first
        | (with_reducible first
            | exact h4 | exact Keeps.refl _ | apply Keeps.ite | apply State.modWear_keeps | apply State.readSpan_keeps)
        | (intro _ _) | (apply Sub.of <;> first | assumption | rfl) | split | dsimp only
  clear_value v5
  repeat' first
      | (with_reducible first
          | exact h5 | exact Keeps.refl _ | apply Keeps.ite | apply State.freeStream_keeps
          | apply State.modStream_keeps)
      | (intro _ _) | (apply Sub.of <;> first | assumption | rfl) | split | dsimp only

theorem State.readFault_keeps {μ : Nat} {s₀ : State} (s : State) (n : Nat) (hk
    : Keeps μ s₀ s)
    (hm : Sub 0x1CD7DDDF8 μ := by first | assumption | (apply Sub.of <;> first | assumption | rfl))
    : Keeps μ s₀ (State.readFault s n) := by
  unfold State.readFault
  repeat' first
      | (with_reducible first
          | exact hk | exact Keeps.refl _ | apply State.readSpan_keeps | apply State.faultStream_keeps)
      | (apply Sub.of <;> first | assumption | rfl) | dsimp only

theorem State.serveExport_keeps {μ : Nat} {s₀ : State} (s : State) (n : Nat) (hk
    : Keeps μ s₀ s)
    (hm : Sub 0x1CDFDDDF8 μ := by first | assumption | (apply Sub.of <;> first | assumption | rfl))
    : Keeps μ s₀ (State.serveExport s n) := by
  unfold State.serveExport
  repeat' first
      | (with_reducible first
          | exact hk | exact Keeps.refl _ | apply Keeps.ite | apply State.readFault_keeps
          | apply State.modStream_keeps | apply State.respond_keeps | apply State.freeze_keeps
          | apply State.answerAll_keeps)
      | refine Keeps.of_snd (by assumption) ?_ | refine Keeps.of_fst (by assumption) ?_ | (intro _ _)
      | (apply Sub.of <;> first | assumption | rfl) | split | dsimp only

theorem State.finish_keeps {μ : Nat} {s₀ : State} (s : State) (n : Nat) (st : Status) (act : EgrAct) (hk
    : Keeps μ s₀ s)
    (hm : Sub 0xC97D5DF0 μ := by first | assumption | (apply Sub.of <;> first | assumption | rfl))
    : Keeps μ s₀ (State.finish s n st act) := by
  unfold State.finish
  extract_lets v1 v2 v3
  clear_value v1
  have h2 : Keeps μ s₀ v2 := by
    unfold v2
    repeat' first
        | (with_reducible first
            | exact hk | exact Keeps.refl _ | apply State.freeStream_keeps)
        | (apply Sub.of <;> first | assumption | rfl) | dsimp only
  clear_value v2
  clear_value v3
  repeat' first
      | (with_reducible first
          | exact h2 | exact Keeps.refl _ | apply State.answerAll_keeps | apply State.answer_keeps)
      | (apply Sub.of <;> first | assumption | rfl) | dsimp only

theorem State.cancelMove_keeps {μ : Nat} {s₀ : State} (s : State) (n : Nat) (hk
    : Keeps μ s₀ s) (hm : Sub 0x10 μ := by first | assumption | (apply Sub.of <;> first | assumption | rfl))
    : Keeps μ s₀ (State.cancelMove s n) := by
  unfold State.cancelMove
  repeat' first
      | (with_reducible first
          | exact hk | exact Keeps.refl _ | apply Keeps.ite | apply State.modStream_keeps)
      | (intro _ _) | (apply Sub.of <;> first | assumption | rfl) | split | dsimp only

theorem State.serveFirst_keeps {μ : Nat} {s₀ : State} (s : State) (n : Nat) (hk
    : Keeps μ s₀ s)
    (hm : Sub 0x1CDFDDDF8 μ := by first | assumption | (apply Sub.of <;> first | assumption | rfl))
    : Keeps μ s₀ (State.serveFirst s n) := by
  unfold State.serveFirst
  repeat' first
      | (with_reducible first
          | exact hk | exact Keeps.refl _ | apply Keeps.ite | apply State.serveExport_keeps)
      | (apply Sub.of <;> first | assumption | rfl) | split | dsimp only

theorem State.finishServed_keeps {μ : Nat} {s₀ : State} (s : State) (n : Nat) (act : EgrAct) (hk
    : Keeps μ s₀ s)
    (hm : Sub 0x1CDFDDDF8 μ := by first | assumption | (apply Sub.of <;> first | assumption | rfl))
    : Keeps μ s₀ (State.finishServed s n act) := by
  unfold State.finishServed
  extract_lets v1
  have h1 : Keeps μ s₀ v1 := by
    unfold v1
    repeat' first
        | (with_reducible first
            | exact hk | exact Keeps.refl _ | apply State.serveFirst_keeps)
        | (apply Sub.of <;> first | assumption | rfl) | dsimp only
  clear_value v1
  repeat' first
      | (with_reducible first
          | exact h1 | exact Keeps.refl _ | apply State.finish_keeps)
      | (apply Sub.of <;> first | assumption | rfl) | split | dsimp only

theorem State.endGraceful_keeps {μ : Nat} {s₀ : State} (s : State) (n : Nat) (hk
    : Keeps μ s₀ s)
    (hm : Sub 0x1CDFDDDFA μ := by first | assumption | (apply Sub.of <;> first | assumption | rfl))
    : Keeps μ s₀ (State.endGraceful s n) := by
  unfold State.endGraceful
  extract_lets v1 v2
  have h1 : Keeps μ s₀ v1 := by
    unfold v1
    repeat' first
        | (with_reducible first
            | exact hk | exact Keeps.refl _ | apply State.cancelMove_keeps)
        | (apply Sub.of <;> first | assumption | rfl) | dsimp only
  clear_value v1
  clear_value v2
  repeat' first
      | (with_reducible first
          | exact h1 | exact Keeps.refl _ | apply Keeps.ite | apply State.finish_keeps | apply State.idle_keeps
          | apply State.finishServed_keeps | apply State.discardPark_keeps | apply State.modStream_keeps
          | apply State.queue_keeps)
      | (intro _ _) | (apply Sub.of <;> first | assumption | rfl) | split | dsimp only

theorem State.endAbort_keeps {μ : Nat} {s₀ : State} (s : State) (n : Nat) (hk
    : Keeps μ s₀ s)
    (hm : Sub 0x1CDFDDDF8 μ := by first | assumption | (apply Sub.of <;> first | assumption | rfl))
    : Keeps μ s₀ (State.endAbort s n) := by
  unfold State.endAbort
  extract_lets v1 v2
  have h1 : Keeps μ s₀ v1 := by
    unfold v1
    repeat' first
        | (with_reducible first
            | exact hk | exact Keeps.refl _ | apply State.cancelMove_keeps)
        | (apply Sub.of <;> first | assumption | rfl) | dsimp only
  clear_value v1
  clear_value v2
  repeat' first
      | (with_reducible first
          | exact h1 | exact Keeps.refl _ | apply State.finish_keeps | apply State.releaseChunks_keeps
          | apply State.modStream_keeps | apply State.finishServed_keeps)
      | (intro _ _) | (apply Sub.of <;> first | assumption | rfl) | split | dsimp only

theorem State.endStream_keeps {μ : Nat} {s₀ : State} (s : State) (n : Nat) (abort : Bool) (hk
    : Keeps μ s₀ s)
    (hm : Sub 0x1CDFDDDFA μ := by first | assumption | (apply Sub.of <;> first | assumption | rfl))
    : Keeps μ s₀ (State.endStream s n abort) := by
  unfold State.endStream
  repeat' first
      | (with_reducible first
          | exact hk | exact Keeps.refl _ | apply Keeps.ite | apply State.endAbort_keeps
          | apply State.endGraceful_keeps)
      | (apply Sub.of <;> first | assumption | rfl) | split | dsimp only

end Sys2Proof.Machine
end

