-- ==== Sys2Proof/Laws/Sched.lean ====
section
/-! SUPPORT. What the scheduler keep: the queue of waiting commands, memory's canonical form, and the parts of the state that each
never writes (a mask over `Field`, by index). -/

namespace Sys2Proof.Machine
set_option Elab.async false

theorem State.claimStaging_keeps {μ : Nat} {s₀ : State} (s : State) (r n : Nat) (hk
    : Keeps μ s₀ s) (hm : Sub 0x144B2 μ := by first | assumption | (apply Sub.of <;> first | assumption | rfl))
    : Keeps μ s₀ (State.claimStaging s r n) := by
  unfold State.claimStaging
  repeat' first
      | (with_reducible first
          | exact hk | exact Keeps.refl _ | apply State.modDie_keeps | apply State.modStall_keeps
          | apply State.modEgr_keeps | apply State.modEngine_keeps | apply State.modRow_keeps
          | apply State.modStream_keeps | apply State.tick_keeps | apply State.pushDesc_keeps)
      | (intro _ _) | (apply Sub.of <;> first | assumption | rfl) | split | dsimp only

theorem State.stageOne_keeps {μ : Nat} {s₀ : State} (s : State) (r : Nat) (hk
    : Keeps μ s₀ s) (hm : Sub 0x144B2 μ := by first | assumption | (apply Sub.of <;> first | assumption | rfl))
    : Keeps μ s₀ (State.stageOne s r) := by
  unfold State.stageOne
  repeat' first
      | (with_reducible first
          | exact hk | exact Keeps.refl _ | apply Keeps.ite | apply State.putRow_keeps
          | apply State.claimStaging_keeps)
      | (intro _ _) | (apply Sub.of <;> first | assumption | rfl) | split | dsimp only

theorem State.writeProgram_keeps {μ : Nat} {s₀ : State} (s : State) (r : Nat) (sel : Nat → Bool) (hk
    : Keeps μ s₀ s) (hm : Sub 0x4000 μ := by first | assumption | (apply Sub.of <;> first | assumption | rfl))
    : Keeps μ s₀ (State.writeProgram s r sel) := by
  unfold State.writeProgram
  repeat' first
      | (with_reducible first
          | exact hk | exact Keeps.refl _ | apply Keeps.ite | apply State.pushDesc_keeps | apply forEach_keeps)
      | (intro _ _) | (apply Sub.of <;> first | assumption | rfl) | split | dsimp only

theorem State.admitStream_keeps {μ : Nat} {s₀ : State} (s : State) (r n : Nat) (hk
    : Keeps μ s₀ s) (hm : Sub 0x430 μ := by first | assumption | (apply Sub.of <;> first | assumption | rfl))
    : Keeps μ s₀ (State.admitStream s r n) := by
  unfold State.admitStream
  extract_lets v1 v2 v3 v4 v5 v6 v7
  clear_value v1
  clear_value v2
  clear_value v3
  clear_value v4
  clear_value v5
  have h6 : Keeps μ s₀ v6 := by
    unfold v6
    repeat' first
        | (with_reducible first
            | exact hk | exact Keeps.refl _ | apply State.modStream_keeps)
        | (intro _ _) | (apply Sub.of <;> first | assumption | rfl) | dsimp only
  clear_value v6
  have h7 : Keeps μ s₀ v7 := by
    unfold v7
    repeat' first
        | (with_reducible first
            | exact h6 | exact Keeps.refl _ | apply State.modEgr_keeps | apply State.quireEnd_keeps)
        | (intro _ _) | (apply Sub.of <;> first | assumption | rfl) | dsimp only
  clear_value v7
  repeat' first
      | (with_reducible first
          | exact h7 | exact Keeps.refl _ | apply State.modRow_keeps)
      | (intro _ _) | (apply Sub.of <;> first | assumption | rfl) | dsimp only

theorem State.admitOne_keeps {μ : Nat} {s₀ : State} (s : State) (r : Nat) (hk
    : Keeps μ s₀ s) (hm : Sub 0x430 μ := by first | assumption | (apply Sub.of <;> first | assumption | rfl))
    : Keeps μ s₀ (State.admitOne s r) := by
  unfold State.admitOne
  repeat' first
      | (with_reducible first
          | exact hk | exact Keeps.refl _ | apply Keeps.ite | apply State.admitStream_keeps)
      | (intro _ _) | (apply Sub.of <;> first | assumption | rfl) | split | dsimp only

theorem State.drainRow_keeps {μ : Nat} {s₀ : State} (s : State) (r : Nat) (hk
    : Keeps μ s₀ s)
    (hm : Sub 0x80614CB0 μ := by first | assumption | (apply Sub.of <;> first | assumption | rfl))
    : Keeps μ s₀ (State.drainRow s r) := by
  unfold State.drainRow
  extract_lets v1 v2
  have h1 : Keeps μ s₀ v1 := by
    unfold v1
    repeat' first
        | (with_reducible first
            | exact hk | exact Keeps.refl _ | apply State.admitOne_keeps | apply forEach_keeps)
        | (intro _ _) | (apply Sub.of <;> first | assumption | rfl) | dsimp only
  clear_value v1
  have h2 : Keeps μ s₀ v2 := by
    unfold v2
    repeat' first
        | (with_reducible first
            | exact h1 | exact Keeps.refl _ | apply State.modRow_keeps)
        | (intro _ _) | (apply Sub.of <;> first | assumption | rfl) | dsimp only
  clear_value v2
  repeat' first
      | (with_reducible first
          | exact h2 | exact Keeps.refl _ | apply State.abandon_keeps | apply forEach_keeps)
      | (intro _ _) | (apply Sub.of <;> first | assumption | rfl) | dsimp only

theorem State.quireEnd_keeps {μ : Nat} {s₀ : State} (s : State) (n : Nat) (q : Quire) (hk
    : Keeps μ s₀ s)
    (hm : Sub 0x10566C0F8 μ := by first | assumption | (apply Sub.of <;> first | assumption | rfl)) :
    Keeps μ s₀ (State.quireEnd s n q) := by
  unfold State.quireEnd
  extract_lets _ _ _ _ _ s1 s2 _ s3 _ s4 s5
  have h2 : Keeps μ s₀ s2 := State.modEgr_keeps _ _ _ (State.modStream_keeps _ _ _ hk)
  have h3 : Keeps μ s₀ s3 := .mem h2 (fun w => wf_mwrite _ _ _ w)
  have h4 : Keeps μ s₀ s4 := .ite h3 (State.pushDesc_keeps _ _ _ _ _ h3)
  have h5 : Keeps μ s₀ s5 := State.pushDesc_keeps _ _ _ _ _ h4
  exact .ite (State.raiseReplayMark_keeps _ _ h5) h5

theorem State.releaseFirst_keeps {μ : Nat} {s₀ : State} (s : State) (n done : Nat) (c : HeldChunk) (hk
    : Keeps μ s₀ s) (hm : Sub 0x10080 μ := by first | assumption | (apply Sub.of <;> first | assumption | rfl)) :
    Keeps μ s₀ (State.releaseFirst s n done c).1 := by
  unfold State.releaseFirst
  split
  · exact hk
  · exact State.releaseChunk_keeps _ _ _ hk

theorem State.releasePart_keeps {μ : Nat} {s₀ : State} (s : State) (n f : Nat) (c : HeldChunk) (hk
    : Keeps μ s₀ s) (hm : Sub 0x10080 μ := by first | assumption | (apply Sub.of <;> first | assumption | rfl)) :
    Keeps μ s₀ (State.releasePart s n f c).1 := State.releaseFirst_keeps _ _ _ _ hk

theorem State.releaseLead_keeps {μ : Nat} {s₀ : State} (n : Nat) (cs : List HeldChunk) (s : State) (hk
    : Keeps μ s₀ s) (hm : Sub 0x10080 μ := by first | assumption | (apply Sub.of <;> first | assumption | rfl)) :
    Keeps μ s₀ (State.releaseLead n cs s).1 := by
  induction cs generalizing s with
  | nil => exact hk
  | cons c cs ih =>
    unfold State.releaseLead
    have h := State.releasePart_keeps s n c.frame0 c hk
    generalize s.releasePart n c.frame0 c = p at h
    dsimp only
    split
    · exact h
    · exact ih _ h

theorem State.releaseParts_keeps {μ : Nat} {s₀ : State} (n f : Nat) (cs : List HeldChunk) (s : State) (hk
    : Keeps μ s₀ s) (hm : Sub 0x10080 μ := by first | assumption | (apply Sub.of <;> first | assumption | rfl)) :
    Keeps μ s₀ (State.releaseParts n f cs s).1 := by
  induction cs generalizing s with
  | nil => exact hk
  | cons c cs ih => exact ih _ (State.releasePart_keeps s n f c hk)

theorem State.releaseDone_keeps {μ : Nat} {s₀ : State} (s : State) (n : Nat) (hk
    : Keeps μ s₀ s) (hm : Sub 0x10090 μ := by first | assumption | (apply Sub.of <;> first | assumption | rfl))
    : Keeps μ s₀ (State.releaseDone s n) := by
  unfold State.releaseDone
  repeat' first
      | (with_reducible first
          | exact hk | exact Keeps.refl _ | apply State.releaseParts_keeps | apply State.modStream_keeps)
      | refine Keeps.of_snd (by assumption) ?_ | refine Keeps.of_fst (by assumption) ?_ | (intro _ _)
      | (apply Sub.of <;> first | assumption | rfl) | split | dsimp only

theorem State.releaseIdle_keeps {μ : Nat} {s₀ : State} (s : State) (n : Nat) (hk
    : Keeps μ s₀ s) (hm : Sub 0x10090 μ := by first | assumption | (apply Sub.of <;> first | assumption | rfl))
    : Keeps μ s₀ (State.releaseIdle s n) := by
  unfold State.releaseIdle
  repeat' first
      | (with_reducible first
          | exact hk | exact Keeps.refl _ | apply State.releaseLead_keeps | apply State.modStream_keeps)
      | refine Keeps.of_snd (by assumption) ?_ | refine Keeps.of_fst (by assumption) ?_ | (intro _ _)
      | (apply Sub.of <;> first | assumption | rfl) | split | dsimp only

theorem State.leaveDraining_keeps {μ : Nat} {s₀ : State} (s : State) (n : Nat) (hk
    : Keeps μ s₀ s)
    (hm : Sub 0xC97D5DF2 μ := by first | assumption | (apply Sub.of <;> first | assumption | rfl))
    : Keeps μ s₀ (State.leaveDraining s n) := by
  unfold State.leaveDraining
  repeat' first
      | (with_reducible first
          | exact hk | exact Keeps.refl _ | apply Keeps.ite | apply State.finish_keeps | apply State.queue_keeps
          | apply State.modStream_keeps | apply State.idle_keeps | apply State.answerAll_keeps
          | apply State.answer_keeps)
      | (intro _ _) | (apply Sub.of <;> first | assumption | rfl) | split | dsimp only

theorem State.folioWritten_keeps {μ : Nat} {s₀ : State} (s : State) (n : Nat) (hk
    : Keeps μ s₀ s)
    (hm : Sub 0x1DDFFDFFA μ := by first | assumption | (apply Sub.of <;> first | assumption | rfl)) :
    Keeps μ s₀ (State.folioWritten s n) := by
  unfold State.folioWritten
  extract_lets x s1 s2 s4 s5 s6 s7 s8
  have h1 : Keeps μ s₀ s1 := State.dropFloor_keeps _ _ (State.givePitch_keeps _ _ hk)
  have h2 : Keeps μ s₀ s2 := by
    unfold s2
    split
    · exact State.modRow_keeps _ _ _ h1
    · exact h1
  have h4 : Keeps μ s₀ s4 := State.releaseDone_keeps _ _ (State.modStream_keeps _ _ _ h2)
  have h5 : Keeps μ s₀ s5 := State.leftRow_keeps _ _ _ h4
  have h6 : Keeps μ s₀ s6 := .ite (State.serveExport_keeps _ _ h5) h5
  have h7 : Keeps μ s₀ s7 := .ite (State.leaveDraining_keeps _ _ h6) h6
  have h8 : Keeps μ s₀ s8 := State.settleStall_keeps _ _ h7
  split
  · exact State.rowSettle_keeps _ _ h8
  · exact h8

end Sys2Proof.Machine
end

