-- ==== Sys2Proof/Laws/Porters.lean ====
section
/-! SUPPORT. What porters and memories keep: the queue of waiting commands, memory's canonical form, and the parts of the state that each
never writes (a mask over `Field`, by index). -/

namespace Sys2Proof.Machine
set_option Elab.async false

theorem State.endDesc_keeps {μ : Nat} {s₀ : State} (s : State) (e q : Nat) (x : QDesc) (st : Status) (hk
    : Keeps μ s₀ s)
    (hm : Sub 0xC97D5DF0 μ := by first | assumption | (apply Sub.of <;> first | assumption | rfl))
    : Keeps μ s₀ (State.endDesc s e q x st) := by
  unfold State.endDesc
  extract_lets v1 v2
  have h1 : Keeps μ s₀ v1 := by
    unfold v1
    repeat' first
        | (with_reducible first
            | exact hk | exact Keeps.refl _ | apply Keeps.ite | apply State.modEngine_keeps)
        | (intro _ _) | (apply Sub.of <;> first | assumption | rfl) | split | dsimp only
  clear_value v1
  have h2 : Keeps μ s₀ v2 := by
    unfold v2
    repeat' first
        | (with_reducible first
            | exact h1 | exact Keeps.refl _ | apply State.porterRecord_keeps)
        | (apply Sub.of <;> first | assumption | rfl) | dsimp only
  clear_value v2
  repeat' first
      | (with_reducible first
          | exact h2 | exact Keeps.refl _ | apply Keeps.ite | apply State.faultStream_keeps)
      | (apply Sub.of <;> first | assumption | rfl) | split | dsimp only

theorem State.copyDone_keeps {μ : Nat} {s₀ : State} (s : State) (d : Desc) (hk
    : Keeps μ s₀ s) (hm : Sub 0x1004010 μ := by first | assumption | (apply Sub.of <;> first | assumption | rfl))
    : Keeps μ s₀ (State.copyDone s d) := by
  unfold State.copyDone
  repeat' first
      | (with_reducible first
          | exact hk | exact Keeps.refl _ | apply Keeps.ite | apply State.modPark_keeps | apply State.modStream_keeps
          | apply State.signalSys_keeps)
      | (intro _ _) | (apply Sub.of <;> first | assumption | rfl) | split | dsimp only

theorem State.completeDesc_keeps {μ : Nat} {s₀ : State} (s : State) (e q : Nat) (x : QDesc) (hk
    : Keeps μ s₀ s)
    (hm : Sub 0x81004810 μ := by first | assumption | (apply Sub.of <;> first | assumption | rfl))
    : Keeps μ s₀ (State.completeDesc s e q x) := by
  unfold State.completeDesc
  extract_lets v1 v2 v3
  have h1 : Keeps μ s₀ v1 := by
    unfold v1
    repeat' first
        | (with_reducible first
            | exact hk | exact Keeps.refl _ | apply State.modEngine_keeps)
        | (intro _ _) | (apply Sub.of <;> first | assumption | rfl) | dsimp only
  clear_value v1
  have h2 : Keeps μ s₀ v2 := by
    unfold v2
    repeat' first
        | (with_reducible first
            | exact h1 | exact Keeps.refl _ | apply Keeps.ite | apply State.ringRecord_keeps)
        | (apply Sub.of <;> first | assumption | rfl) | split | dsimp only
  clear_value v2
  have h3 : Keeps μ s₀ v3 := by
    unfold v3
    repeat' first
        | (with_reducible first
            | exact h2 | exact Keeps.refl _ | apply Keeps.ite | apply State.modPair_keeps)
        | (apply Sub.of <;> first | assumption | rfl) | split | dsimp only
  clear_value v3
  repeat' first
      | (with_reducible first
          | exact h3 | exact Keeps.refl _ | apply State.copyDone_keeps)
      | (apply Sub.of <;> first | assumption | rfl) | dsimp only

theorem State.askSwap_keeps {μ : Nat} {s₀ : State} (s : State) (p i : Nat) (hk
    : Keeps μ s₀ s) (hm : Sub 0x800 μ := by first | assumption | (apply Sub.of <;> first | assumption | rfl))
    : Keeps μ s₀ (State.askSwap s p i) := by
  unfold State.askSwap
  repeat' first
      | (with_reducible first
          | exact hk | exact Keeps.refl _ | apply Keeps.ite | apply State.modPair_keeps)
      | (intro _ _) | (apply Sub.of <;> first | assumption | rfl) | split | dsimp only

theorem State.passSwap_keeps {μ : Nat} {s₀ s t : State} {e q : Nat} (hk
    : Keeps μ s₀ s)
    (hm : Sub 0x81004810 μ := by first | assumption | (apply Sub.of <;> first | assumption | rfl))
    (h : s.passSwap e q = some t) :
    Keeps μ s₀ t := by
  unfold State.passSwap at h
  split at h
  · dsimp only at h
    split at h
    · cases h
    · split at h
      · cases h
        exact State.askSwap_keeps _ _ _ (State.modEngine_keeps _ _ _ hk)
      · split at h
        · cases h
        · cases h
          exact State.completeDesc_keeps _ _ _ _ hk
  · cases h

theorem State.passOne_keeps {μ : Nat} {s₀ s t : State} {e q : Nat} (hk
    : Keeps μ s₀ s)
    (hm : Sub 0x81004810 μ := by first | assumption | (apply Sub.of <;> first | assumption | rfl))
    (h : s.passOne e q = some t) :
    Keeps μ s₀ t := by
  unfold State.passOne at h
  split at h
  · split at h
    · cases h
      exact State.completeDesc_keeps _ _ _ _ hk
    · exact State.passSwap_keeps hk (h := h)
  · exact State.passSwap_keeps hk (h := h)

theorem State.passQueue_keeps {μ : Nat} {s₀ : State} (e q fuel : Nat) (s : State) (hk
    : Keeps μ s₀ s) (hm : Sub 0x81004810 μ := by first | assumption | (apply Sub.of <;> first | assumption | rfl)) :
    Keeps μ s₀ (State.passQueue e q fuel s) := by
  induction fuel generalizing s with
  | zero => exact hk
  | succ fuel ih =>
    unfold State.passQueue
    split
    · rename_i h
      exact ih _ (State.passOne_keeps hk (h := h))
    · exact hk

theorem State.passHeads_keeps {μ : Nat} {s₀ : State} (s : State) (e : Nat) (hk
    : Keeps μ s₀ s) (hm : Sub 0x81004810 μ := by first | assumption | (apply Sub.of <;> first | assumption | rfl)) :
    Keeps μ s₀ (State.passHeads s e) := by
  exact forEach_keeps _ _ _ (fun t p => State.passQueue_keeps e p.1 _ t (.refl t)) hk

theorem State.noteUe_keeps {μ : Nat} {s₀ : State} (s : State) (key n : Nat) (stall stream : Option Nat) (hk
    : Keeps μ s₀ s) (hm : Sub 0x56580A8 μ := by first | assumption | (apply Sub.of <;> first | assumption | rfl))
    : Keeps μ s₀ (State.noteUe s key n stall stream) := by
  unfold State.noteUe
  repeat' first
      | (with_reducible first
          | exact hk | exact Keeps.refl _ | apply Keeps.ite | apply State.memRecord_keeps
          | apply State.channelUe_keeps | apply State.modDie_keeps)
      | refine Keeps.of_snd (by assumption) ?_ | refine Keeps.of_fst (by assumption) ?_ | (intro _ _)
      | (apply Sub.of <;> first | assumption | rfl) | split | dsimp only

theorem State.haltDesc_keeps {μ : Nat} {s₀ : State} (s : State) (e q : Nat) (x : QDesc) (n : Nat) (hk
    : Keeps μ s₀ s) (hm : Sub 0x1004000 μ := by first | assumption | (apply Sub.of <;> first | assumption | rfl))
    : Keeps μ s₀ (State.haltDesc s e q x n) := by
  unfold State.haltDesc
  extract_lets v1 v2
  clear_value v1
  have h2 : Keeps μ s₀ v2 := by
    unfold v2
    repeat' first
        | (with_reducible first
            | exact hk | exact Keeps.refl _ | apply State.modEngine_keeps)
        | (intro _ _) | (apply Sub.of <;> first | assumption | rfl) | dsimp only
  clear_value v2
  repeat' first
      | (with_reducible first
          | exact h2 | exact Keeps.refl _ | apply Keeps.ite | apply State.modPark_keeps | apply State.hubPush_keeps)
      | (intro _ _) | (apply Sub.of <;> first | assumption | rfl) | split | dsimp only

theorem State.request_keeps {μ : Nat} {s₀ : State} (s : State) (key serial : Nat) (hk
    : Keeps μ s₀ s) (hm : Sub 0x8000 μ := by first | assumption | (apply Sub.of <;> first | assumption | rfl))
    : Keeps μ s₀ (State.request s key serial) := by
  unfold State.request
  repeat' first
      | (with_reducible first
          | exact hk | exact Keeps.refl _ | apply Keeps.ite | apply State.modChannel_keeps)
      | refine Keeps.of_snd (by assumption) ?_ | refine Keeps.of_fst (by assumption) ?_ | (intro _ _)
      | (apply Sub.of <;> first | assumption | rfl) | split | dsimp only

theorem State.issuePiece_keeps {μ : Nat} {s₀ : State} (s : State) (e : Nat) (o : Offer) (src dst len : Nat)
    (hk : Keeps μ s₀ s)
    (hm : Sub 0x10564C0AA μ := by first | assumption | (apply Sub.of <;> first | assumption | rfl)) :
    Keeps μ s₀ (State.issuePiece s e o src dst len) := by
  unfold State.issuePiece
  extract_lets x c last next lands t s1 s2 s3
  have h1 : Keeps μ s₀ s1 := State.modEngine_keeps _ _ _ hk
  have h2 : Keeps μ s₀ s2 := .ite (forEach_keeps _ _ _ (fun t k => State.readSpan_keeps _ _ _ _ _ (.refl t)) h1) h1
  have h3 : Keeps μ s₀ s3 := State.tick_keeps _ (State.request_keeps _ _ _ (State.request_keeps _ _ _ h2))
  exact .ite h3 (State.modStall_keeps _ _ _ h3)

theorem State.issueFrom_keeps {μ : Nat} {s₀ : State} (s : State) (e : Nat) (o : Offer) (hk
    : Keeps μ s₀ s)
    (hm : Sub 0x1CD7DDDFA μ := by first | assumption | (apply Sub.of <;> first | assumption | rfl))
    : Keeps μ s₀ (State.issueFrom s e o) := by
  unfold State.issueFrom
  repeat' first
      | (with_reducible first
          | exact hk | exact Keeps.refl _ | apply Keeps.ite | apply State.haltDesc_keeps | apply State.queue_keeps
          | apply State.issuePiece_keeps | apply State.endDesc_keeps | apply State.noteUe_keeps)
      | (intro _ _) | (apply Sub.of <;> first | assumption | rfl) | split | dsimp only

theorem State.issueOne_keeps {μ : Nat} {s₀ : State} (s : State) (e : Nat) (hk
    : Keeps μ s₀ s)
    (hm : Sub 0x1CD7DDDFA μ := by first | assumption | (apply Sub.of <;> first | assumption | rfl))
    : Keeps μ s₀ (State.issueOne s e) := by
  unfold State.issueOne
  extract_lets v1 v2 v3
  clear_value v1
  clear_value v2
  have h3 : Keeps μ s₀ v3 := by
    unfold v3
    repeat' first
        | (with_reducible first
            | exact hk | exact Keeps.refl _ | apply State.modEngine_keeps)
        | (intro _ _) | (apply Sub.of <;> first | assumption | rfl) | dsimp only
  clear_value v3
  repeat' first
      | (with_reducible first
          | exact h3 | exact Keeps.refl _ | apply State.queue_keeps | apply State.modEngine_keeps
          | apply State.issueFrom_keeps)
      | (intro _ _) | (apply Sub.of <;> first | assumption | rfl) | split | dsimp only

theorem execTransferIssue_keeps {engine : Nat} {s : State} {t : State}
    (h : execTransferIssue engine s = .next t) : Keeps 0x1DD7FDFFA s t := by
  have hm := Sub.refl 0x1DD7FDFFA
  unfold execTransferIssue at h
  refine runSettled_keeps ?_ h
  intro _
  repeat' first
      | (with_reducible first
          | exact Keeps.refl _ | apply Keeps.ite | apply State.passHeads_keeps | apply State.issueOne_keeps
          | exact Keeps.id_ _ | assumption)
      | (apply Sub.of <;> first | assumption | rfl) | split | dsimp only | intro _

theorem State.noteCe_keeps {μ : Nat} {s₀ : State} (s : State) (key n serial : Nat) (hk
    : Keeps μ s₀ s) (hm : Sub 0x18800 μ := by first | assumption | (apply Sub.of <;> first | assumption | rfl))
    : Keeps μ s₀ (State.noteCe s key n serial) := by
  unfold State.noteCe
  repeat' first
      | (with_reducible first
          | exact hk | exact Keeps.refl _ | apply Keeps.ite | apply State.modChannel_keeps | apply State.modDie_keeps
          | apply State.modPress_keeps)
      | refine Keeps.of_snd (by assumption) ?_ | refine Keeps.of_fst (by assumption) ?_ | (intro _ _)
      | (apply Sub.of <;> first | assumption | rfl) | split | dsimp only

theorem State.noteRetries_keeps {μ : Nat} {s₀ : State} (s : State) (key : Nat) (a : MemAnswer) (hk
    : Keeps μ s₀ s) (hm : Sub 0x8000 μ := by first | assumption | (apply Sub.of <;> first | assumption | rfl))
    : Keeps μ s₀ (State.noteRetries s key a) := by
  unfold State.noteRetries
  repeat' first
      | (with_reducible first
          | exact hk | exact Keeps.refl _ | apply Keeps.ite | apply State.modChannel_keeps)
      | (intro _ _) | (apply Sub.of <;> first | assumption | rfl) | split | dsimp only

theorem State.countRead_keeps {μ : Nat} {s₀ : State} (s : State) (key : Nat) (hk
    : Keeps μ s₀ s) (hm : Sub 0x8000 μ := by first | assumption | (apply Sub.of <;> first | assumption | rfl))
    : Keeps μ s₀ (State.countRead s key) := by
  unfold State.countRead
  repeat' first
      | (with_reducible first
          | exact hk | exact Keeps.refl _ | apply Keeps.ite | apply State.modChannel_keeps)
      | (intro _ _) | (apply Sub.of <;> first | assumption | rfl) | split | dsimp only

theorem State.rewriteEntry_keeps {μ : Nat} {s₀ : State} (s : State) (stream : Nat) (hk
    : Keeps μ s₀ s)
    (hm : Sub 0x1C57DDCB8 μ := by first | assumption | (apply Sub.of <;> first | assumption | rfl))
    : Keeps μ s₀ (State.rewriteEntry s stream) := by
  unfold State.rewriteEntry
  repeat' first
      | (with_reducible first
          | exact hk | exact Keeps.refl _ | apply Keeps.ite | apply State.dropEgress_keeps
          | apply State.stopStream_keeps | apply State.modStall_keeps | apply State.modClerk_keeps
          | apply State.readSpan_keeps | apply State.putStream_keeps | apply State.leftRow_keeps
          | apply State.raise_keeps | apply State.answerOwed_keeps)
      | (intro _ _) | (apply Sub.of <;> first | assumption | rfl) | split | dsimp only

theorem State.land_keeps {μ : Nat} {s₀ : State} (s : State) (e : Nat) (t : Xfer) (hk
    : Keeps μ s₀ s)
    (hm : Sub 0x10566C0A8 μ := by first | assumption | (apply Sub.of <;> first | assumption | rfl))
    : Keeps μ s₀ (State.land s e t) := by
  unfold State.land
  extract_lets v1 v2 v3
  clear_value v1
  have h2 : Keeps μ s₀ v2 := by
    unfold v2
    repeat' first
        | (with_reducible first
            | exact hk | exact Keeps.refl _ | apply State.countRead_keeps)
        | (apply Sub.of <;> first | assumption | rfl) | dsimp only
  clear_value v2
  have h3 : Keeps μ s₀ v3 := by
    unfold v3
    repeat' first
        | (with_reducible first
            | exact h2 | exact Keeps.refl _ | apply Keeps.ite | apply State.bulkWrite_keeps | apply Keeps.mem)
        | exact fun w => wf_mwrite _ _ _ w | (intro w; first | exact w | exact wf_mwrite _ _ _ w)
        | (apply Sub.of <;> first | assumption | rfl) | split | dsimp only
  clear_value v3
  repeat' first
      | (with_reducible first
          | exact h3 | exact Keeps.refl _ | apply State.modEngine_keeps)
      | (intro _ _) | (apply Sub.of <;> first | assumption | rfl) | dsimp only

theorem State.failXfer_keeps {μ : Nat} {s₀ : State} (s : State) (e : Nat) (t : Xfer) (key : Nat)
    (ue write : Bool) (hk : Keeps μ s₀ s)
    (hm : Sub 0x1DD7FDFF8 μ := by first | assumption | (apply Sub.of <;> first | assumption | rfl))
    : Keeps μ s₀ (State.failXfer s e t key ue write) := by
  unfold State.failXfer
  extract_lets v1 v2 v3 v4 v5 v6 v7
  have h1 : Keeps μ s₀ v1 := by
    unfold v1
    repeat' first
        | (with_reducible first
            | exact hk | exact Keeps.refl _ | apply Keeps.ite | apply State.modStream_keeps)
        | (intro _ _) | (apply Sub.of <;> first | assumption | rfl) | split | dsimp only
  clear_value v1
  clear_value v2
  clear_value v3
  have h4 : Keeps μ s₀ v4 := by
    unfold v4
    repeat' first
        | (with_reducible first
            | exact h1 | exact Keeps.refl _ | apply Keeps.ite | apply State.tearStall_keeps)
        | (apply Sub.of <;> first | assumption | rfl) | split | dsimp only
  clear_value v4
  have h5 : Keeps μ s₀ v5 := by
    unfold v5
    repeat' first
        | (with_reducible first
            | exact h4 | exact Keeps.refl _ | apply Keeps.ite | apply State.endDesc_keeps | apply State.queue_keeps
            | apply State.copyDone_keeps | apply State.faultStream_keeps)
        | (apply Sub.of <;> first | assumption | rfl) | split | dsimp only
  clear_value v5
  have h6 : Keeps μ s₀ v6 := by
    unfold v6
    repeat' first
        | (with_reducible first
            | exact h5 | exact Keeps.refl _ | apply State.faultStream_keeps)
        | (apply Sub.of <;> first | assumption | rfl) | split | dsimp only
  clear_value v6
  have h7 : Keeps μ s₀ v7 := by
    unfold v7
    repeat' first
        | (with_reducible first
            | exact h6 | exact Keeps.refl _ | apply Keeps.ite | apply State.rewriteEntry_keeps)
        | (apply Sub.of <;> first | assumption | rfl) | split | dsimp only
  clear_value v7
  repeat' first
      | (with_reducible first
          | exact h7 | exact Keeps.refl _ | apply Keeps.ite | apply State.rowFault_keeps)
      | (apply Sub.of <;> first | assumption | rfl) | split | dsimp only

theorem State.stepDesc_keeps {μ : Nat} {s₀ : State} (s : State) (e : Nat) (t : Xfer) (hk
    : Keeps μ s₀ s)
    (hm : Sub 0xC97D5DF0 μ := by first | assumption | (apply Sub.of <;> first | assumption | rfl))
    : Keeps μ s₀ (State.stepDesc s e t) := by
  unfold State.stepDesc
  extract_lets v1 v2 v3
  have h1 : Keeps μ s₀ v1 := by
    unfold v1
    repeat' first
        | (with_reducible first
            | exact hk | exact Keeps.refl _ | apply State.modEngine_keeps | apply State.queue_keeps)
        | (intro _ _) | (apply Sub.of <;> first | assumption | rfl) | dsimp only
  clear_value v1
  have h2 : Keeps μ s₀ v2 := by
    unfold v2
    repeat' first
        | (with_reducible first
            | exact h1 | exact Keeps.refl _ | apply Keeps.ite | apply State.modPress_keeps)
        | (intro _ _) | (apply Sub.of <;> first | assumption | rfl) | split | dsimp only
  clear_value v2
  have h3 : Keeps μ s₀ v3 := by
    unfold v3
    repeat' first
        | (with_reducible first
            | exact h2 | exact Keeps.refl _ | apply Keeps.ite | apply State.faultStream_keeps)
        | (apply Sub.of <;> first | assumption | rfl) | split | dsimp only
  clear_value v3
  repeat' first
      | (with_reducible first
          | exact h3 | exact Keeps.refl _ | apply Keeps.ite | apply State.completeDesc_keeps | apply State.queue_keeps)
      | (apply Sub.of <;> first | assumption | rfl) | split | dsimp only

theorem State.endXfer_keeps {μ : Nat} {s₀ : State} (s : State) (e : Nat) (t : Xfer) (rd wr : MemAnswer) (hk
    : Keeps μ s₀ s)
    (hm : Sub 0x1DD7FDFF8 μ := by first | assumption | (apply Sub.of <;> first | assumption | rfl))
    : Keeps μ s₀ (State.endXfer s e t rd wr) := by
  unfold State.endXfer
  extract_lets v1 v2 v3 v4 v5 v6 v7 v8 v9
  clear_value v1
  clear_value v2
  clear_value v3
  clear_value v4
  have h5 : Keeps μ s₀ v5 := by
    unfold v5
    repeat' first
        | (with_reducible first
            | exact hk | exact Keeps.refl _ | apply State.noteRetries_keeps)
        | (apply Sub.of <;> first | assumption | rfl) | dsimp only
  clear_value v5
  have h6 : Keeps μ s₀ v6 := by
    unfold v6
    repeat' first
        | (with_reducible first
            | exact h5 | exact Keeps.refl _ | apply Keeps.ite | apply State.noteCe_keeps)
        | (apply Sub.of <;> first | assumption | rfl) | split | dsimp only
  clear_value v6
  have h7 : Keeps μ s₀ v7 := by
    unfold v7
    repeat' first
        | (with_reducible first
            | exact h6 | exact Keeps.refl _ | apply Keeps.ite | apply State.noteCe_keeps)
        | (apply Sub.of <;> first | assumption | rfl) | split | dsimp only
  clear_value v7
  have h8 : Keeps μ s₀ v8 := by
    unfold v8
    repeat' first
        | (with_reducible first
            | exact h7 | exact Keeps.refl _ | apply Keeps.ite | apply State.countRead_keeps | apply State.noteUe_keeps)
        | (apply Sub.of <;> first | assumption | rfl) | split | dsimp only
  clear_value v8
  have h9 : Keeps μ s₀ v9 := by
    unfold v9
    repeat' first
        | (with_reducible first
            | exact h8 | exact Keeps.refl _ | apply Keeps.ite | apply State.noteUe_keeps)
        | (apply Sub.of <;> first | assumption | rfl) | split | dsimp only
  clear_value v9
  repeat' first
      | (with_reducible first
          | exact h9 | exact Keeps.refl _ | apply Keeps.ite | apply State.failXfer_keeps | apply State.land_keeps
          | apply State.stepDesc_keeps)
      | (apply Sub.of <;> first | assumption | rfl) | split | dsimp only

theorem State.unrequest_keeps {μ : Nat} {s₀ : State} (s : State) (key serial : Nat) (hk
    : Keeps μ s₀ s) (hm : Sub 0x8000 μ := by first | assumption | (apply Sub.of <;> first | assumption | rfl))
    : Keeps μ s₀ (State.unrequest s key serial) := by
  unfold State.unrequest
  repeat' first
      | (with_reducible first
          | exact hk | exact Keeps.refl _ | apply Keeps.ite | apply State.modChannel_keeps)
      | (intro _ _) | (apply Sub.of <;> first | assumption | rfl) | split | dsimp only

theorem State.returnSlot_keeps {μ : Nat} {s₀ : State} (s : State) (e index : Nat) (t : Xfer) (hk
    : Keeps μ s₀ s) (hm : Sub 0x4080 μ := by first | assumption | (apply Sub.of <;> first | assumption | rfl))
    : Keeps μ s₀ (State.returnSlot s e index t) := by
  unfold State.returnSlot
  extract_lets v1
  have h1 : Keeps μ s₀ v1 := by
    unfold v1
    repeat' first
        | (with_reducible first
            | exact hk | exact Keeps.refl _ | apply State.modEngine_keeps)
        | (intro _ _) | (apply Sub.of <;> first | assumption | rfl) | dsimp only
  clear_value v1
  repeat' first
      | (with_reducible first
          | exact h1 | exact Keeps.refl _ | apply Keeps.ite | apply State.modStall_keeps)
      | (intro _ _) | (apply Sub.of <;> first | assumption | rfl) | split | dsimp only

theorem execTransferComplete_keeps {engine index : Nat} {rd wr : MemAnswer} {s : State} {t : State}
    (h : execTransferComplete engine index rd wr s = .next t) : Keeps 0x1DD7FDFF8 s t := by
  have hm := Sub.refl 0x1DD7FDFF8
  unfold execTransferComplete at h
  refine runSettled_keeps ?_ h
  intro _
  repeat' first
      | (with_reducible first
          | exact Keeps.refl _ | apply Keeps.ite | apply State.returnSlot_keeps | apply State.endXfer_keeps
          | apply State.unrequest_keeps | apply State.settleStall_keeps | apply State.passHeads_keeps
          | apply State.startDieReset_keeps | apply State.gateAgain_keeps | exact Keeps.id_ _ | assumption)
      | (apply Sub.of <;> first | assumption | rfl) | split | dsimp only | intro _

theorem execWait_keeps {engine queue : Nat} {s : State} {t : State} (h : execWait engine queue s = .next t)
    : Keeps 0x81004810 s t := by
  have hm := Sub.refl 0x81004810
  unfold execWait at h
  refine run_keeps ?_ h
  intro _
  repeat' first
      | (with_reducible first
          | exact Keeps.refl _ | apply Keeps.ite | apply State.queue_keeps | apply State.modEngine_keeps
          | apply State.completeDesc_keeps | apply State.passHeads_keeps | exact Keeps.id_ _ | assumption)
      | (apply Sub.of <;> first | assumption | rfl) | split | dsimp only | intro _

theorem State.signalBar_keeps {μ : Nat} {s₀ : State} (s : State) (e q : Nat) (x : QDesc) (hk
    : Keeps μ s₀ s)
    (hm : Sub 0xC97D5DF0 μ := by first | assumption | (apply Sub.of <;> first | assumption | rfl))
    : Keeps μ s₀ (State.signalBar s e q x) := by
  unfold State.signalBar
  repeat' first
      | (with_reducible first
          | exact hk | exact Keeps.refl _ | apply Keeps.ite | apply State.modEngine_keeps | apply State.endDesc_keeps
          | apply State.completeDesc_keeps)
      | (intro _ _) | (apply Sub.of <;> first | assumption | rfl) | split | dsimp only

theorem execSignal_keeps {engine queue : Nat} {s : State} {t : State} (h : execSignal engine queue s = .next t)
    : Keeps 0x1DD7FDFF8 s t := by
  have hm := Sub.refl 0x1DD7FDFF8
  unfold execSignal at h
  refine runSettled_keeps ?_ h
  intro _
  repeat' first
      | (with_reducible first
          | exact Keeps.refl _ | apply Keeps.ite | apply State.queue_keeps | apply State.signalBar_keeps
          | apply State.passHeads_keeps | exact Keeps.id_ _ | assumption)
      | (apply Sub.of <;> first | assumption | rfl) | split | dsimp only | intro _

theorem execSwap_keeps {press pair : Nat} {s : State} {t : State} (h : execSwap press pair s = .next t)
    : Keeps 0x81004810 s t := by
  have hm := Sub.refl 0x81004810
  unfold execSwap at h
  refine run_keeps ?_ h
  intro _
  repeat' first
      | (with_reducible first
          | exact Keeps.refl _ | apply Keeps.ite | apply State.askSwap_keeps | apply State.passHeads_keeps
          | exact Keeps.id_ _ | assumption)
      | (apply Sub.of <;> first | assumption | rfl) | split | dsimp only | intro _

theorem State.resumeHalted_keeps {μ : Nat} {s₀ : State} (s : State) (n : Nat) (hk
    : Keeps μ s₀ s) (hm : Sub 0x4000 μ := by first | assumption | (apply Sub.of <;> first | assumption | rfl))
    : Keeps μ s₀ (State.resumeHalted s n) := by
  unfold State.resumeHalted
  repeat' first
      | (with_reducible first
          | exact hk | exact Keeps.refl _ | apply Keeps.ite | apply State.modEngine_keeps | apply forEach_keeps)
      | (intro _ _) | (apply Sub.of <;> first | assumption | rfl) | split | dsimp only

theorem State.pagesPresent_keeps {μ : Nat} {s₀ : State} (s : State) (n : Nat) (hk
    : Keeps μ s₀ s) (hm : Sub 0x4010 μ := by first | assumption | (apply Sub.of <;> first | assumption | rfl))
    : Keeps μ s₀ (State.pagesPresent s n) := by
  unfold State.pagesPresent
  extract_lets v1
  have h1 : Keeps μ s₀ v1 := by
    unfold v1
    repeat' first
        | (with_reducible first
            | exact hk | exact Keeps.refl _ | apply State.modStream_keeps)
        | (intro _ _) | (apply Sub.of <;> first | assumption | rfl) | dsimp only
  clear_value v1
  repeat' first
      | (with_reducible first
          | exact h1 | exact Keeps.refl _ | apply State.resumeHalted_keeps)
      | (apply Sub.of <;> first | assumption | rfl) | dsimp only

theorem State.endHalted_keeps {μ : Nat} {s₀ : State} (s : State) (n : Nat) (st : Status) (hk
    : Keeps μ s₀ s)
    (hm : Sub 0xC97D5DF0 μ := by first | assumption | (apply Sub.of <;> first | assumption | rfl))
    : Keeps μ s₀ (State.endHalted s n st) := by
  unfold State.endHalted
  repeat' first
      | (with_reducible first
          | exact hk | exact Keeps.refl _ | apply Keeps.ite | apply State.endDesc_keeps | apply forEach_keeps)
      | (intro _ _) | (apply Sub.of <;> first | assumption | rfl) | split | dsimp only

theorem State.unpark_keeps {μ : Nat} {s₀ : State} (s : State) (n : Nat) (hk
    : Keeps μ s₀ s) (hm : Sub 0x1004010 μ := by first | assumption | (apply Sub.of <;> first | assumption | rfl))
    : Keeps μ s₀ (State.unpark s n) := by
  unfold State.unpark
  extract_lets v1 v2 v3 v4
  have h1 : Keeps μ s₀ v1 := by
    unfold v1
    repeat' first
        | (with_reducible first
            | exact hk | exact Keeps.refl _ | apply State.modFlash_keeps | apply State.modWear_keeps)
        | (intro _ _) | (apply Sub.of <;> first | assumption | rfl) | dsimp only
  clear_value v1
  clear_value v2
  have h3 : Keeps μ s₀ v3 := by
    unfold v3
    repeat' first
        | (with_reducible first
            | exact h1 | exact Keeps.refl _ | apply State.modPark_keeps)
        | (intro _ _) | (apply Sub.of <;> first | assumption | rfl) | dsimp only
  clear_value v3
  have h4 : Keeps μ s₀ v4 := by
    unfold v4
    repeat' first
        | (with_reducible first
            | exact h3 | exact Keeps.refl _ | apply Keeps.ite | apply State.freePark_keeps)
        | (apply Sub.of <;> first | assumption | rfl) | split | dsimp only
  clear_value v4
  repeat' first
      | (with_reducible first
          | exact h4 | exact Keeps.refl _ | apply State.pagesPresent_keeps)
      | (apply Sub.of <;> first | assumption | rfl) | dsimp only

theorem State.parkUnread_keeps {μ : Nat} {s₀ : State} (s : State) (n : Nat) (hk
    : Keeps μ s₀ s) (hm : Sub 0x1600004 μ := by first | assumption | (apply Sub.of <;> first | assumption | rfl))
    : Keeps μ s₀ (State.parkUnread s n) := by
  unfold State.parkUnread
  repeat' first
      | (with_reducible first
          | exact hk | exact Keeps.refl _ | apply State.draw_keeps | apply State.modFlash_keeps
          | apply State.modWear_keeps | apply State.flashEvent_keeps | apply State.retireBlock_keeps)
      | refine Keeps.of_snd (by assumption) ?_ | refine Keeps.of_fst (by assumption) ?_ | (intro _ _)
      | (apply Sub.of <;> first | assumption | rfl) | split | dsimp only

theorem State.unparkFail_keeps {μ : Nat} {s₀ : State} (s : State) (n : Nat) (hk
    : Keeps μ s₀ s)
    (hm : Sub 0xC97D5DF4 μ := by first | assumption | (apply Sub.of <;> first | assumption | rfl))
    : Keeps μ s₀ (State.unparkFail s n) := by
  unfold State.unparkFail
  extract_lets v1 v2 v3 v4
  clear_value v1
  clear_value v2
  have h3 : Keeps μ s₀ v3 := by
    unfold v3
    repeat' first
        | (with_reducible first
            | exact hk | exact Keeps.refl _ | apply State.cancelWhere_keeps)
        | (intro _ _) | (apply Sub.of <;> first | assumption | rfl) | dsimp only
  clear_value v3
  have h4 : Keeps μ s₀ v4 := by
    unfold v4
    repeat' first
        | (with_reducible first
            | exact h3 | exact Keeps.refl _ | apply State.modPark_keeps | apply State.parkUnread_keeps)
        | (intro _ _) | (apply Sub.of <;> first | assumption | rfl) | dsimp only
  clear_value v4
  repeat' first
      | (with_reducible first
          | exact h4 | exact Keeps.refl _ | apply Keeps.ite | apply State.raise_keeps | apply State.endHalted_keeps
          | apply State.faultStream_keeps)
      | (apply Sub.of <;> first | assumption | rfl) | split | dsimp only

theorem State.placeChunks_keeps {μ : Nat} {s₀ : State} (s : State) (n : Nat) (cs : List HeldChunk)
    (bufs : List (Nat × Nat)) (hk : Keeps μ s₀ s)
    (hm : Sub 0x10567C0F8 μ := by first | assumption | (apply Sub.of <;> first | assumption | rfl))
    : Keeps μ s₀ (State.placeChunks s n cs bufs) := by
  unfold State.placeChunks
  repeat' first
      | (with_reducible first
          | exact hk | exact Keeps.refl _ | apply State.giveBufs_keeps | apply State.modStall_keeps
          | apply State.storeTokens_keeps | apply State.modStream_keeps | apply State.releaseIdle_keeps
          | apply State.writeJournal_keeps | apply forEach_keeps)
      | refine Keeps.of_snd (by assumption) ?_ | refine Keeps.of_fst (by assumption) ?_ | (intro _ _)
      | (apply Sub.of <;> first | assumption | rfl) | split | dsimp only

theorem State.imageArrived_keeps {μ : Nat} {s₀ : State} (s : State) (n : Nat) (f : Fetch) (image : List Byte)
    (hk : Keeps μ s₀ s)
    (hm : Sub 0x1CDFFDDF8 μ := by first | assumption | (apply Sub.of <;> first | assumption | rfl))
    : Keeps μ s₀ (State.imageArrived s n f image) := by
  unfold State.imageArrived
  extract_lets v1 v2
  clear_value v1
  have h2 : Keeps μ s₀ v2 := by
    unfold v2
    repeat' first
        | (with_reducible first
            | exact hk | exact Keeps.refl _ | apply State.bulkWrite_keeps)
        | (apply Sub.of <;> first | assumption | rfl) | dsimp only
  clear_value v2
  repeat' first
      | (with_reducible first
          | exact h2 | exact Keeps.refl _ | apply Keeps.ite | apply State.putStream_keeps
          | apply State.modStream_keeps | apply State.pagesPresent_keeps | apply State.faultStream_keeps
          | apply State.placeChunks_keeps | apply State.modEgr_keeps | apply State.idle_keeps
          | apply State.serveExport_keeps)
      | refine Keeps.of_snd (by assumption) ?_ | refine Keeps.of_fst (by assumption) ?_ | (intro _ _)
      | (apply Sub.of <;> first | assumption | rfl) | split | dsimp only

theorem State.fetchFailed_keeps {μ : Nat} {s₀ : State} (s : State) (n : Nat) (hk
    : Keeps μ s₀ s)
    (hm : Sub 0xC97D5DF0 μ := by first | assumption | (apply Sub.of <;> first | assumption | rfl))
    : Keeps μ s₀ (State.fetchFailed s n) := by
  unfold State.fetchFailed
  repeat' first
      | (with_reducible first
          | exact hk | exact Keeps.refl _ | apply Keeps.ite | apply State.modVct_keeps | apply State.modStream_keeps
          | apply State.faultStream_keeps | apply State.answer_keeps)
      | (intro _ _) | (apply Sub.of <;> first | assumption | rfl) | split | dsimp only

theorem execPageInComplete_keeps {stream : Nat} {ok : Bool} {image : List Byte} {s : State} {t : State}
    (h : execPageInComplete stream ok image s = .next t) : Keeps 0x1DDFFDFFC s t := by
  have hm := Sub.refl 0x1DDFFDFFC
  unfold execPageInComplete at h
  refine runSettled_keeps ?_ h
  intro _
  repeat' first
      | (with_reducible first
          | exact Keeps.refl _ | apply Keeps.ite | apply State.imageArrived_keeps | apply State.fetchFailed_keeps
          | apply State.unpark_keeps | apply State.modPark_keeps | apply State.unparkFail_keeps | exact Keeps.id_ _
          | assumption)
      | (apply Sub.of <;> first | assumption | rfl) | split | dsimp only | intro _

theorem execRemoteFetchFail_keeps {stream : Nat} {s : State} {t : State}
    (h : execRemoteFetchFail stream s = .next t) : Keeps 0x1DD7FDFF8 s t := by
  have hm := Sub.refl 0x1DD7FDFF8
  unfold execRemoteFetchFail at h
  refine runSettled_keeps ?_ h
  intro _
  repeat' first
      | (with_reducible first
          | exact Keeps.refl _ | apply Keeps.ite | apply State.fetchFailed_keeps | exact Keeps.id_ _ | assumption)
      | (apply Sub.of <;> first | assumption | rfl) | split | dsimp only | intro _

theorem execRemoteFetchTimeout_keeps {stream : Nat} {s : State} {t : State}
    (h : execRemoteFetchTimeout stream s = .next t) : Keeps 0x1DD7FDFF8 s t := by
  have hm := Sub.refl 0x1DD7FDFF8
  unfold execRemoteFetchTimeout at h
  refine runSettled_keeps ?_ h
  intro _
  repeat' first
      | (with_reducible first
          | exact Keeps.refl _ | apply Keeps.ite | apply State.fetchFailed_keeps | exact Keeps.id_ _ | assumption)
      | (apply Sub.of <;> first | assumption | rfl) | split | dsimp only | intro _

theorem execDlkFired_keeps {die younger older : Nat} {s : State} {t : State}
    (h : execDlkFired die younger older s = .next t) : Keeps 0x80614CB0 s t := by
  have hm := Sub.refl 0x80614CB0
  unfold execDlkFired at h
  refine run_keeps ?_ h
  intro _
  repeat' first
      | (with_reducible first
          | exact Keeps.refl _ | apply Keeps.ite | apply State.abandon_keeps | apply State.modDie_keeps
          | apply State.raise_keeps | exact Keeps.id_ _ | assumption)
      | (apply Sub.of <;> first | assumption | rfl) | split | dsimp only | intro _

theorem execConsCheck_keeps {s : State} {t : State} (h : execConsCheck s = .next t) : Keeps 0x1DD7FDFB8 s t := by
  have hm := Sub.refl 0x1DD7FDFB8
  unfold execConsCheck at h
  refine runSettled_keeps ?_ h
  intro _
  repeat' first
      | (with_reducible first
          | exact Keeps.refl _ | apply Keeps.ite | apply clerk_keeps | apply State.modClerk_keeps
          | apply State.raise_keeps | apply State.tearStall_keeps | apply State.failModule_keeps | apply forEach_keeps
          | exact Keeps.id_ _ | assumption)
      | exact Or.inl ⟨rfl, rfl⟩ | refine Or.inr ?_ | (apply Sub.of <;> first | assumption | rfl) | split | dsimp only
      | intro _

theorem State.scrubUe_keeps {μ : Nat} {s₀ : State} (s : State) (ch slot g : Nat) (hk
    : Keeps μ s₀ s)
    (hm : Sub 0xCD7DDDF8 μ := by first | assumption | (apply Sub.of <;> first | assumption | rfl))
    : Keeps μ s₀ (State.scrubUe s ch slot g) := by
  unfold State.scrubUe
  repeat' first
      | (with_reducible first
          | exact hk | exact Keeps.refl _ | apply Keeps.ite | apply State.memRecord_keeps
          | apply State.channelUe_keeps | apply State.faultStream_keeps | apply State.tearStall_keeps)
      | (apply Sub.of <;> first | assumption | rfl) | split | dsimp only

theorem execPatrolScrub_keeps {channel slot : Nat} {out : MemAnswer} {s : State} {t : State}
    (h : execPatrolScrub channel slot out s = .next t) : Keeps 0x1DD7FDFF8 s t := by
  have hm := Sub.refl 0x1DD7FDFF8
  unfold execPatrolScrub at h
  refine runSettled_keeps ?_ h
  intro _
  repeat' first
      | (with_reducible first
          | exact Keeps.refl _ | apply Keeps.ite | apply State.modChannel_keeps | apply State.scrubUe_keeps
          | apply State.memRecord_keeps | apply State.channelUe_keeps | apply State.failModule_keeps
          | exact Keeps.id_ _ | assumption)
      | (apply Sub.of <;> first | assumption | rfl) | split | dsimp only | intro _

theorem execBaseGranuleRewrite_keeps {granule : Nat} {s : State} {t : State}
    (h : execBaseGranuleRewrite granule s = .next t) : Keeps 0x10566C0A8 s t := by
  have hm := Sub.refl 0x10566C0A8
  unfold execBaseGranuleRewrite at h
  refine run_keeps ?_ h
  intro _
  repeat' first
      | (with_reducible first
          | exact Keeps.refl _ | apply Keeps.ite | apply State.libRead_keeps | apply State.bulkWrite_keeps
          | apply State.countMove_keeps | exact Keeps.id_ _ | assumption)
      | (apply Sub.of <;> first | assumption | rfl) | split | dsimp only | intro _

theorem execStreamEntryRewrite_keeps {stream : Nat} {s : State} {t : State}
    (h : execStreamEntryRewrite stream s = .next t) : Keeps 0x1D57FDFB8 s t := by
  have hm := Sub.refl 0x1D57FDFB8
  unfold execStreamEntryRewrite at h
  refine runSettled_keeps ?_ h
  intro _
  repeat' first
      | (with_reducible first
          | exact Keeps.refl _ | apply Keeps.ite | apply State.modDie_keeps | apply State.memRecord_keeps
          | apply State.rewriteEntry_keeps | exact Keeps.id_ _ | assumption)
      | (apply Sub.of <;> first | assumption | rfl) | split | dsimp only | intro _

end Sys2Proof.Machine
end

