-- ==== Sys2Proof/Laws/Stages.lean ====
section
/-! SUPPORT. What the stages of a row keep: the queue of waiting commands, memory's canonical form, and the parts of the state that each
never writes (a mask over `Field`, by index). -/

namespace Sys2Proof.Machine
set_option Elab.async false

theorem State.keepSlice_keeps {μ : Nat} {s₀ : State} (s : State) (r op : Nat) (o : LayerOp) (t : Tok)
    (x : Slice) (hk : Keeps μ s₀ s)
    (hm : Sub 0x24410 μ := by first | assumption | (apply Sub.of <;> first | assumption | rfl))
    : Keeps μ s₀ (State.keepSlice s r op o t x) := by
  unfold State.keepSlice
  extract_lets v1
  have h1 : Keeps μ s₀ v1 := by
    unfold v1
    repeat' first
        | (with_reducible first
            | exact hk | exact Keeps.refl _ | apply Keeps.ite | apply State.modRow_keeps)
        | (intro _ _) | (apply Sub.of <;> first | assumption | rfl) | split | dsimp only
  clear_value v1
  repeat' first
      | (with_reducible first
          | exact h1 | exact Keeps.refl _ | apply Keeps.ite | apply State.modStream_keeps
          | apply State.signalSys_keeps | apply Keeps.mem)
      | exact fun w => wf_mwrite _ _ _ w | (intro w; first | exact w | exact wf_mwrite _ _ _ w) | (intro _ _)
      | (apply Sub.of <;> first | assumption | rfl) | split | dsimp only

theorem State.tally_keeps {μ : Nat} {s₀ : State} (s : State) (press : Nat) (ru : Option Nat) (c : Cnt) (hk
    : Keeps μ s₀ s) (hm : Sub 0x2800 μ := by first | assumption | (apply Sub.of <;> first | assumption | rfl))
    : Keeps μ s₀ (State.tally s press ru c) := by
  unfold State.tally
  extract_lets v1 v2
  clear_value v1
  have h2 : Keeps μ s₀ v2 := by
    unfold v2
    repeat' first
        | (with_reducible first
            | exact hk | exact Keeps.refl _ | apply State.modPress_keeps)
        | (intro _ _) | (apply Sub.of <;> first | assumption | rfl) | dsimp only
  clear_value v2
  repeat' first
      | (with_reducible first
          | exact h2 | exact Keeps.refl _ | apply State.modRecUnit_keeps)
      | (intro _ _) | (apply Sub.of <;> first | assumption | rfl) | split | dsimp only

theorem State.loadBanks_keeps {μ : Nat} {s₀ : State} (s : State) (press r k op : Nat) (g : Stage)
    (scales : List Fp24) (hk : Keeps μ s₀ s)
    (hm : Sub 0x800 μ := by first | assumption | (apply Sub.of <;> first | assumption | rfl))
    : Keeps μ s₀ (State.loadBanks s press r k op g scales) := by
  unfold State.loadBanks
  repeat' first
      | (with_reducible first
          | exact hk | exact Keeps.refl _ | apply Keeps.ite | apply State.modPress_keeps)
      | (intro _ _) | (apply Sub.of <;> first | assumption | rfl) | split | dsimp only

theorem State.egressTok_keeps {μ : Nat} {s₀ : State} (s : State) (r : Nat) (t : Tok) (hk
    : Keeps μ s₀ s) (hm : Sub 0x4004B0 μ := by first | assumption | (apply Sub.of <;> first | assumption | rfl))
    : Keeps μ s₀ (State.egressTok s r t) := by
  unfold State.egressTok
  extract_lets v1 v2
  have h1 : Keeps μ s₀ v1 := by
    unfold v1
    repeat' first
        | (with_reducible first
            | exact hk | exact Keeps.refl _ | apply Keeps.ite | apply State.writeSample_keeps)
        | (apply Sub.of <;> first | assumption | rfl) | split | dsimp only
  clear_value v1
  have h2 : Keeps μ s₀ v2 := by
    unfold v2
    repeat' first
        | (with_reducible first
            | exact h1 | exact Keeps.refl _ | apply Keeps.ite | apply State.modStream_keeps | apply State.modEgr_keeps)
        | (intro _ _) | (apply Sub.of <;> first | assumption | rfl) | split | dsimp only
  clear_value v2
  repeat' first
      | (with_reducible first
          | exact h2 | exact Keeps.refl _ | apply Keeps.ite | apply State.modRow_keeps)
      | (intro _ _) | (apply Sub.of <;> first | assumption | rfl) | split | dsimp only

theorem State.passDead_keeps {μ : Nat} {s₀ : State} (s : State) (r : Nat) (o : LayerOp) (t : Tok) (hk
    : Keeps μ s₀ s) (hm : Sub 0x400 μ := by first | assumption | (apply Sub.of <;> first | assumption | rfl))
    : Keeps μ s₀ (State.passDead s r o t).1 := by
  unfold State.passDead
  extract_lets v1 v2 v3
  clear_value v1
  clear_value v2
  have h3 : Keeps μ s₀ v3 := by
    unfold v3
    repeat' first
        | (with_reducible first
            | exact hk | exact Keeps.refl _ | apply Keeps.ite | apply State.modRow_keeps)
        | (intro _ _) | (apply Sub.of <;> first | assumption | rfl) | split | dsimp only
  clear_value v3
  repeat' first
      | (with_reducible first
          | exact h3 | exact Keeps.refl _)
      | (intro _ _) | (apply Sub.of <;> first | assumption | rfl) | split | dsimp only

theorem State.imageUe_keeps {μ : Nat} {s₀ : State} (s : State) (press : Nat) (t : Tok) (a : Nat × Bool) (hk
    : Keeps μ s₀ s)
    (hm : Sub 0x1CD7DDDF8 μ := by first | assumption | (apply Sub.of <;> first | assumption | rfl))
    : Keeps μ s₀ (State.imageUe s press t a) := by
  unfold State.imageUe
  extract_lets v1
  have h1 : Keeps μ s₀ v1 := by
    unfold v1
    repeat' first
        | (with_reducible first
            | exact hk | exact Keeps.refl _ | apply State.readSpan_keeps)
        | (apply Sub.of <;> first | assumption | rfl) | dsimp only
  clear_value v1
  repeat' first
      | (with_reducible first
          | exact h1 | exact Keeps.refl _ | apply Keeps.ite | apply State.tearStall_keeps
          | apply State.faultStream_keeps)
      | (apply Sub.of <;> first | assumption | rfl) | split | dsimp only

theorem State.clearRest_keeps {μ : Nat} {s₀ : State} (s : State) (r : Nat) (t : Tok) (hk
    : Keeps μ s₀ s)
    (hm : Sub 0x1056680A8 μ := by first | assumption | (apply Sub.of <;> first | assumption | rfl))
    : Keeps μ s₀ (State.clearRest s r t) := by
  unfold State.clearRest
  repeat' first
      | (with_reducible first
          | exact hk | exact Keeps.refl _ | apply State.bulkInit_keeps | apply forEach_keeps)
      | (intro _ _) | (apply Sub.of <;> first | assumption | rfl) | split | dsimp only

theorem State.tokenOp_keeps {μ : Nat} {s₀ : State} (s : State) (press r : Nat) (t : Tok) (hk
    : Keeps μ s₀ s)
    (hm : Sub 0x1CD7FDDF8 μ := by first | assumption | (apply Sub.of <;> first | assumption | rfl))
    : Keeps μ s₀ (State.tokenOp s press r t).1 := by
  unfold State.tokenOp
  extract_lets v1 v2 v3
  have h1 : Keeps μ s₀ v1 := by
    unfold v1
    repeat' first
        | (with_reducible first
            | exact hk | exact Keeps.refl _ | apply Keeps.ite | apply State.clearRest_keeps)
        | (apply Sub.of <;> first | assumption | rfl) | split | dsimp only
  clear_value v1
  clear_value v2
  clear_value v3
  repeat' first
      | (with_reducible first
          | exact h1 | exact Keeps.refl _ | apply State.imageUe_keeps | apply State.passDead_keeps
          | apply State.readSpan_keeps | apply State.countMove_keeps | apply forEach_keeps)
      | (intro _ _) | (apply Sub.of <;> first | assumption | rfl) | split | dsimp only

theorem State.throughRecto_keeps {μ : Nat} {s₀ : State} (s : State) (press r op : Nat) (bs : List Byte) (hk
    : Keeps μ s₀ s) (hm : Sub 0x20000 μ := by first | assumption | (apply Sub.of <;> first | assumption | rfl)) :
    Keeps μ s₀ ((State.throughRecto s press r op bs).1) := by
  unfold State.throughRecto
  split
  · exact .mem hk (fun w => wf_mwrite _ _ _ w)
  · exact hk

theorem State.contextOp_keeps {μ : Nat} {s₀ : State} (s : State) (press r : Nat) (t : Tok) (off len : Nat) (hk
    : Keeps μ s₀ s)
    (hm : Sub 0x1CD7FDDF8 μ := by first | assumption | (apply Sub.of <;> first | assumption | rfl)) :
    Keeps μ s₀ ((State.contextOp s press r t off len).1) := by
  unfold State.contextOp
  extract_lets a e s1 w s2
  split
  · exact State.passDead_keeps _ _ _ _ (State.faultStream_keeps _ _ _ _ _ (State.readSpan_keeps _ _ _ _ _ hk))
  · have h2 : Keeps μ s₀ s2 := .ite hk (State.countMove_keeps _ _ _ _ _ (State.readSpan_keeps _ _ _ _ _ hk))
    have h3 := State.throughRecto_keeps s2 press r t.next w h2
    generalize s2.throughRecto press r t.next w = p at h3
    exact State.countMove_keeps _ _ _ _ _ (State.bulkWrite_keeps _ _ _ h3)

theorem State.storeRecords_keeps {μ : Nat} {s₀ : State} (s : State) (press r : Nat) (o : LayerOp) (t : Tok)
    (recs : List (List Byte)) (hk : Keeps μ s₀ s)
    (hm : Sub 0x20000 μ := by first | assumption | (apply Sub.of <;> first | assumption | rfl)) :
    Keeps μ s₀ (State.storeRecords s press r o t recs) := by
  unfold State.storeRecords
  split
  · refine .mem hk (fun w => wf_foldl _ ?_ _ _ w)
    exact fun m x h => wf_mwrite m _ x.2 h
  · exact hk

theorem State.storeBands_keeps {μ : Nat} {s₀ : State} (s : State) (press r op : Nat) (bands : List (List Byte))
    (hk : Keeps μ s₀ s)
    (hm : Sub 0x20000 μ := by first | assumption | (apply Sub.of <;> first | assumption | rfl)) :
    Keeps μ s₀ (State.storeBands s press r op bands) := by
  unfold State.storeBands
  split
  · exact .mem hk (fun w => wf_foldl (fun m (x : Nat × List Byte) => mwrite m _ x.2) (fun m x h => wf_mwrite _ _ _ h) _ _ w)
  · exact hk

theorem State.storeKept_keeps {μ : Nat} {s₀ : State} (s : State) (press r : Nat) (o : LayerOp) (t : Tok)
    (x : Kept8) (hk : Keeps μ s₀ s)
    (hm : Sub 0x20000 μ := by first | assumption | (apply Sub.of <;> first | assumption | rfl)) :
    Keeps μ s₀ (State.storeKept s press r o t x) := by
  unfold State.storeKept
  extract_lets s1 s2
  have h1 : Keeps μ s₀ s1 := State.storeRecords_keeps _ _ _ _ _ _ hk
  refine State.storeBands_keeps _ _ _ _ _ ?_
  unfold s2
  split
  · exact .mem h1 (fun w => wf_mwrite _ _ _ w)
  · exact h1

theorem State.stateOp_keeps {μ : Nat} {s₀ : State} (s : State) (press r : Nat) (g : Stage) (o : LayerOp)
    (t : Tok) (hk : Keeps μ s₀ s)
    (hm : Sub 0xC97F7DF0 μ := by first | assumption | (apply Sub.of <;> first | assumption | rfl))
    : Keeps μ s₀ (State.stateOp s press r g o t).1 := by
  unfold State.stateOp
  repeat' first
      | (with_reducible first
          | exact hk | exact Keeps.refl _ | apply State.faultStream_keeps | apply State.passDead_keeps
          | apply State.tally_keeps | apply State.storeKept_keeps | apply State.keepSlice_keeps)
      | refine Keeps.of_snd (by assumption) ?_ | refine Keeps.of_fst (by assumption) ?_ | (intro _ _)
      | (apply Sub.of <;> first | assumption | rfl) | split | dsimp only

theorem State.opTok_keeps {μ : Nat} {s₀ : State} (s : State) (press r k : Nat) (g : Stage) (o : LayerOp)
    (t : Tok) (hk : Keeps μ s₀ s)
    (hm : Sub 0x1CD7FFDF8 μ := by first | assumption | (apply Sub.of <;> first | assumption | rfl)) :
    Keeps μ s₀ ((State.opTok s press r k g o t).1) := by
  unfold State.opTok
  extract_lets u s1
  have h1 : Keeps μ s₀ s1 := State.loadBanks_keeps _ _ _ _ _ _ _ hk
  split
  · exact State.passDead_keeps _ _ _ _ hk
  · split
    · exact State.tokenOp_keeps _ _ _ _ h1
    · exact State.contextOp_keeps _ _ _ _ _ _ h1
    · split
      · exact State.stateOp_keeps _ _ _ _ _ _ h1
      · exact State.tally_keeps _ _ _ _ h1

theorem State.runTok_keeps {μ : Nat} {s₀ : State} (press r k : Nat) (g : Stage) (fuel : Nat) (s : State)
    (t : Tok) (hk : Keeps μ s₀ s)
    (hm : Sub 0x1CD7FFDF8 μ := by first | assumption | (apply Sub.of <;> first | assumption | rfl)) :
    Keeps μ s₀ (State.runTok press r k g fuel s t).1 := by
  induction fuel generalizing s t with
  | zero => exact hk
  | succ fuel ih =>
    unfold State.runTok
    split
    · exact hk
    · split
      · exact hk
      · rename_i o _ _
        have h := State.opTok_keeps s press r k g o t hk
        exact foldl_keeps (fun acc u =>
          let p := State.runTok press r k g fuel acc.1 u
          (p.1, acc.2 ++ p.2)) (fun acc u h => ih acc.1 u h) (State.opTok s press r k g o t).2
          ((State.opTok s press r k g o t).1, ([] : List Tok)) h

end Sys2Proof.Machine
end

