-- ==== Sys2Proof/Laws/Rows.lean ====
section
/-! SUPPORT. What the row pipeline keep: the queue of waiting commands, memory's canonical form, and the parts of the state that each
never writes (a mask over `Field`, by index). -/

namespace Sys2Proof.Machine
set_option Elab.async false

theorem State.charge_keeps {μ : Nat} {s₀ : State} (s : State) (r k : Nat) (ops : List (Nat × Nat))
    (beat : List Tok) (hk : Keeps μ s₀ s)
    (hm : Sub 0x1000 μ := by first | assumption | (apply Sub.of <;> first | assumption | rfl))
    : Keeps μ s₀ (State.charge s r k ops beat) := by
  unfold State.charge
  repeat' first
      | (with_reducible first
          | exact hk | exact Keeps.refl _ | apply Keeps.ite | apply State.modStage_keeps)
      | (intro _ _) | (apply Sub.of <;> first | assumption | rfl) | split | dsimp only

theorem State.passTok_keeps {μ : Nat} {s₀ s u : State} {r k : Nat} {t : Tok} (hk
    : Keeps μ s₀ s) (hm : Sub 0x4014B0 μ := by first | assumption | (apply Sub.of <;> first | assumption | rfl))
    (h : s.passTok r k t = some u) :
    Keeps μ s₀ u := by
  unfold State.passTok at h
  split at h
  · cases h
    exact .ite (State.modRow_keeps _ _ _ hk) hk
  · split at h
    · split at h
      · cases h
        exact State.egressTok_keeps _ _ _ hk
      · cases h
    · split at h
      · cases h
        exact State.modStage_keeps _ _ _ hk
      · split at h
        · cases h
          exact State.modStage_keeps _ _ _ hk
        · cases h

theorem State.handOver_keeps {μ : Nat} {s₀ : State} (r k : Nat) (ts kept : List Tok) (s : State) (hk
    : Keeps μ s₀ s) (hm : Sub 0x4014B0 μ := by first | assumption | (apply Sub.of <;> first | assumption | rfl)) :
    Keeps μ s₀ (State.handOver r k ts kept s) := by
  induction ts generalizing s kept with
  | nil => exact State.modStage_keeps _ _ _ hk
  | cons t ts ih =>
    unfold State.handOver
    split
    · rename_i h
      exact ih _ _ (State.passTok_keeps hk (h := h))
    · exact .ite (ih _ _ hk) (State.modStage_keeps _ _ _ hk)

theorem State.takeBeatIn_keeps {μ : Nat} {s₀ : State} (s : State) (r k : Nat) (beat : List Tok)
    (src : BeatFrom) (hk : Keeps μ s₀ s)
    (hm : Sub 0x1400 μ := by first | assumption | (apply Sub.of <;> first | assumption | rfl))
    : Keeps μ s₀ (State.takeBeatIn s r k beat src) := by
  unfold State.takeBeatIn
  extract_lets v1 v2 v3
  clear_value v1
  clear_value v2
  have h3 : Keeps μ s₀ v3 := by
    unfold v3
    repeat' first
        | (with_reducible first
            | exact hk | exact Keeps.refl _ | apply State.modStage_keeps)
        | (intro _ _) | (apply Sub.of <;> first | assumption | rfl) | dsimp only
  clear_value v3
  repeat' first
      | (with_reducible first
          | exact h3 | exact Keeps.refl _ | apply State.modStage_keeps | apply State.modRow_keeps)
      | (intro _ _) | (apply Sub.of <;> first | assumption | rfl) | split | dsimp only

theorem State.passBarriers_keeps {μ : Nat} {s₀ : State} (s : State) (press : Nat) (bs : List (Nat × Nat)) (hk
    : Keeps μ s₀ s) (hm : Sub 0x4000 μ := by first | assumption | (apply Sub.of <;> first | assumption | rfl))
    : Keeps μ s₀ (State.passBarriers s press bs) := by
  unfold State.passBarriers
  repeat' first
      | (with_reducible first
          | exact hk | exact Keeps.refl _ | apply State.modEngine_keeps | apply forEach_keeps)
      | (intro _ _) | (apply Sub.of <;> first | assumption | rfl) | dsimp only

theorem State.releaseRectos_keeps {μ : Nat} {s₀ : State} (s : State) (press : Nat) (is : List Nat) (hk
    : Keeps μ s₀ s)
    (hm : Sub 0x81004810 μ := by first | assumption | (apply Sub.of <;> first | assumption | rfl))
    : Keeps μ s₀ (State.releaseRectos s press is) := by
  unfold State.releaseRectos
  repeat' first
      | (with_reducible first
          | exact hk | exact Keeps.refl _ | apply Keeps.ite | apply State.modPair_keeps | apply State.passHeads_keeps
          | apply forEach_keeps)
      | (intro _ _) | (apply Sub.of <;> first | assumption | rfl) | split | dsimp only

theorem State.noteAnswer_keeps {μ : Nat} {s₀ : State} (s : State) (press k : Nat) (ops : List LayerOp)
    (t : Tok) (a : MemAnswer) (hk : Keeps μ s₀ s)
    (hm : Sub 0xCD7DDDF8 μ := by first | assumption | (apply Sub.of <;> first | assumption | rfl))
    : Keeps μ s₀ (State.noteAnswer s press k ops t a) := by
  unfold State.noteAnswer
  repeat' first
      | (with_reducible first
          | exact hk | exact Keeps.refl _ | apply Keeps.ite | apply State.noteUe_keeps | apply State.modDie_keeps
          | apply State.tearStall_keeps | apply State.faultStream_keeps | apply State.memRecord_keeps
          | apply State.modPress_keeps)
      | (intro _ _) | (apply Sub.of <;> first | assumption | rfl) | split | dsimp only

theorem State.noteAnswers_keeps {μ : Nat} {s₀ : State} (s : State) (press r k : Nat) (beat : List Tok)
    (reads : List (Nat × MemAnswer)) (hk : Keeps μ s₀ s)
    (hm : Sub 0xCD7DDDF8 μ := by first | assumption | (apply Sub.of <;> first | assumption | rfl))
    : Keeps μ s₀ (State.noteAnswers s press r k beat reads) := by
  unfold State.noteAnswers
  repeat' first
      | (with_reducible first
          | exact hk | exact Keeps.refl _ | apply Keeps.ite | apply State.noteAnswer_keeps | apply forEach_keeps)
      | (intro _ _) | (apply Sub.of <;> first | assumption | rfl) | split | dsimp only

theorem State.runBeat_keeps {μ : Nat} {s₀ : State} (s : State) (press r k : Nat) (beat : List Tok) (hk
    : Keeps μ s₀ s)
    (hm : Sub 0x1CD7FFDF8 μ := by first | assumption | (apply Sub.of <;> first | assumption | rfl)) :
    Keeps μ s₀ ((State.runBeat s press r k beat).1) := by
  exact foldl_keeps (fun acc t =>
    let p := State.runTok press r k (s.stage k) ((s.row r).prog.length + 1) acc.1 t
    (p.1, acc.2 ++ [p.2])) (fun acc t h => State.runTok_keeps press r k _ _ acc.1 t h) beat (s, ([] : List (List Tok))) hk

theorem State.computeBeat_keeps {μ : Nat} {s₀ : State} (s : State) (press r k : Nat) (beat : List Tok)
    (reads : List (Nat × MemAnswer)) (hk : Keeps μ s₀ s)
    (hm : Sub 0x1CD7FFDF8 μ := by first | assumption | (apply Sub.of <;> first | assumption | rfl)) :
    Keeps μ s₀ (State.computeBeat s press r k beat reads) := by
  unfold State.computeBeat
  extract_lets w ops s1 s2 s3
  have h1 : Keeps μ s₀ s1 := State.passBarriers_keeps _ _ _ hk
  have h3 : Keeps μ s₀ s3 := State.noteAnswers_keeps _ _ _ _ _ _ (State.charge_keeps _ _ _ _ _ h1)
  have h := State.runBeat_keeps s3 press r k beat h3
  generalize State.runBeat s3 press r k beat = p at h
  exact State.writeProgram_keeps _ _ _ (State.releaseRectos_keeps _ _ _ (State.handOver_keeps _ _ _ _ _ (State.modStage_keeps _ _ _ h)))

theorem State.noteCauses_keeps {μ : Nat} {s₀ : State} (s : State) (hk
    : Keeps μ s₀ s) (hm : Sub 0x1800 μ := by first | assumption | (apply Sub.of <;> first | assumption | rfl))
    : Keeps μ s₀ (State.noteCauses s) := by
  unfold State.noteCauses
  repeat' first
      | (with_reducible first
          | exact hk | exact Keeps.refl _ | apply Keeps.ite | apply State.account_keeps | apply State.modStage_keeps
          | apply forEach_keeps)
      | (intro _ _) | (apply Sub.of <;> first | assumption | rfl) | split | dsimp only

theorem State.auditOut_keeps {μ : Nat} {s₀ : State} (s : State) (hk
    : Keeps μ s₀ s) (hm : Sub 0x1000004 μ := by first | assumption | (apply Sub.of <;> first | assumption | rfl))
    : Keeps μ s₀ (State.auditOut s) := by
  unfold State.auditOut
  repeat' first
      | (with_reducible first
          | exact hk | exact Keeps.refl _ | apply Keeps.ite | apply State.flashFree_keeps
          | apply State.flashWrite_keeps | apply State.modFlash_keeps | apply forEach_keeps)
      | (intro _ _) | (apply Sub.of <;> first | assumption | rfl) | split | dsimp only

theorem State.idle_keeps {μ : Nat} {s₀ : State} (s : State) (hk
    : Keeps μ s₀ s) (hm : Sub 0x1001805 μ := by first | assumption | (apply Sub.of <;> first | assumption | rfl)) :
    Keeps μ s₀ (State.idle s) := by
  unfold State.idle
  refine .ite hk ((State.noteCauses_keeps _ (State.auditOut_keeps s hk)).part (a := 0x1) rfl id ?_
    (by apply Sub.of <;> first | assumption | rfl))
  exact fun p => by cases p <;> first | exact fun _ => rfl | exact fun e => absurd e (by decide)

theorem State.nextBeat_keeps {μ : Nat} {s₀ : State} (s : State) (press r k : Nat)
    (reads : List (Nat × MemAnswer)) (hk : Keeps μ s₀ s)
    (hm : Sub 0x1CD7FFDF8 μ := by first | assumption | (apply Sub.of <;> first | assumption | rfl))
    : Keeps μ s₀ (State.nextBeat s press r k reads) := by
  unfold State.nextBeat
  repeat' first
      | (with_reducible first
          | exact hk | exact Keeps.refl _ | apply Keeps.ite | apply State.modStage_keeps
          | apply State.takeBeatIn_keeps | apply State.computeBeat_keeps)
      | refine Keeps.of_snd (by assumption) ?_ | refine Keeps.of_fst (by assumption) ?_ | (intro _ _)
      | (apply Sub.of <;> first | assumption | rfl) | split | dsimp only

theorem execBeat_keeps {press : Nat} {stage : StageVisit} {s : State} {t : State}
    (h : execBeat press stage s = .next t) : Keeps 0x1DD7FFFF8 s t := by
  have hm := Sub.refl 0x1DD7FFFF8
  unfold execBeat at h
  refine runSettled_keeps ?_ h
  intro _
  repeat' first
      | (with_reducible first
          | exact Keeps.refl _ | apply Keeps.ite | apply State.account_keeps | apply State.handOver_keeps
          | apply State.nextBeat_keeps | exact Keeps.id_ _ | assumption)
      | (apply Sub.of <;> first | assumption | rfl) | split | dsimp only | intro _

theorem execStaging_keeps {row : Nat} {s : State} {t : State} (h : execStaging row s = .next t)
    : Keeps 0x144B2 s t := by
  have hm := Sub.refl 0x144B2
  unfold execStaging at h
  refine run_keeps ?_ h
  intro _
  repeat' first
      | (with_reducible first
          | exact Keeps.refl _ | apply Keeps.ite | apply clerk_keeps | apply State.stageOne_keeps | exact Keeps.id_ _
          | assumption)
      | exact Or.inl ⟨rfl, rfl⟩ | refine Or.inr ?_ | (apply Sub.of <;> first | assumption | rfl) | split | dsimp only
      | intro _

theorem execStagingComplete_keeps {stream : Nat} {s : State} {t : State}
    (h : execStagingComplete stream s = .next t) : Keeps 0x1DD7FDFFA s t := by
  have hm := Sub.refl 0x1DD7FDFFA
  unfold execStagingComplete at h
  refine runSettled_keeps ?_ h
  intro _
  repeat' first
      | (with_reducible first
          | exact Keeps.refl _ | apply Keeps.ite | apply State.takeBar_keeps | apply State.modStream_keeps
          | apply State.tick_keeps | apply State.faultStream_keeps | exact Keeps.id_ _ | assumption)
      | (apply Sub.of <;> first | assumption | rfl) | split | dsimp only | intro _

theorem execAdmission_keeps {row : Nat} {s : State} {t : State} (h : execAdmission row s = .next t)
    : Keeps 0x430 s t := by
  have hm := Sub.refl 0x430
  unfold execAdmission at h
  refine run_keeps ?_ h
  intro _
  repeat' first
      | (with_reducible first
          | exact Keeps.refl _ | apply Keeps.ite | apply State.admitOne_keeps | exact Keeps.id_ _ | assumption)
      | (apply Sub.of <;> first | assumption | rfl) | split | dsimp only | intro _

theorem execQuireEnd_keeps {stream : Nat} {s : State} {t : State} (h : execQuireEnd stream s = .next t)
    : Keeps 0x10566C0F8 s t := by
  have hm := Sub.refl 0x10566C0F8
  unfold execQuireEnd at h
  refine run_keeps ?_ h
  intro _
  repeat' first
      | (with_reducible first
          | exact Keeps.refl _ | apply Keeps.ite | apply clerk_keeps | apply State.quireEnd_keeps | exact Keeps.id_ _
          | assumption)
      | exact Or.inl ⟨rfl, rfl⟩ | refine Or.inr ?_ | (apply Sub.of <;> first | assumption | rfl) | split | dsimp only
      | intro _

theorem execFolioWritten_keeps {stream : Nat} {s : State} {t : State} (h : execFolioWritten stream s = .next t)
    : Keeps 0x1DDFFDFFA s t := by
  have hm := Sub.refl 0x1DDFFDFFA
  unfold execFolioWritten at h
  refine run_keeps ?_ h
  intro _
  repeat' first
      | (with_reducible first
          | exact Keeps.refl _ | apply Keeps.ite | apply State.folioWritten_keeps | exact Keeps.id_ _ | assumption)
      | (apply Sub.of <;> first | assumption | rfl) | split | dsimp only | intro _

theorem execRowFault_keeps {row press : Nat} {s : State} {t : State} (h : execRowFault row press s = .next t)
    : Keeps 0x1DD7FDFF8 s t := by
  have hm := Sub.refl 0x1DD7FDFF8
  unfold execRowFault at h
  refine run_keeps ?_ h
  intro _
  repeat' first
      | (with_reducible first
          | exact Keeps.refl _ | apply Keeps.ite | apply State.rowFault_keeps | exact Keeps.id_ _ | assumption)
      | (apply Sub.of <;> first | assumption | rfl) | split | dsimp only | intro _

end Sys2Proof.Machine
end

