-- ==== Sys2Proof/Laws/Stalls.lean ====
section
/-! SUPPORT. What stalls keep: the queue of waiting commands, memory's canonical form, and the parts of the state that each
never writes (a mask over `Field`, by index). -/

namespace Sys2Proof.Machine
set_option Elab.async false

theorem stallOpenOwn_keeps {μ : Nat} (body : List Byte) (s : State)
    (hm : Sub 0x80 μ := by first | assumption | (apply Sub.of <;> first | assumption | rfl))
    : ActKeeps μ (stallOpenOwn body s) := by
  unfold stallOpenOwn
  repeat' first
      | (with_reducible first
          | exact Keeps.refl _ | exact ActKeeps.no _ | exact ActKeeps.conflict _ | exact OptKeeps.none
          | apply ActKeeps.ite | apply OptKeeps.ite | apply Keeps.ite | apply OptKeeps.some | apply ActKeeps.ok
          | apply ActKeeps.done | apply ActKeeps.later | apply ActKeeps.refuse | apply State.putStall_keeps
          | exact Keeps.id_ _ | assumption)
      | (apply Sub.of <;> first | assumption | rfl) | split | dsimp only | intro _

theorem execStallOpen_keeps {h : CmdHdr} {body : List Byte} {s : State} {t : State}
    (h : execStallOpen h body s = .next t) : Keeps 0x445C0080 s t := by
  have hm := Sub.refl 0x445C0080
  unfold execStallOpen at h
  refine run_keeps ?_ h
  intro _
  repeat' first
      | (with_reducible first
          | exact Keeps.refl _ | apply Keeps.ite | apply clerk_keeps | apply stallOpenOwn_keeps | apply clerk_keeps
          | exact Keeps.id_ _ | assumption)
      | exact Or.inl ⟨rfl, rfl⟩ | refine Or.inr ?_ | (apply Sub.of <;> first | assumption | rfl) | split | dsimp only
      | intro _

theorem State.withdraw_keeps {μ : Nat} {s₀ : State} (s : State) (k : Nat) (hk
    : Keeps μ s₀ s) (hm : Sub 0x400080 μ := by first | assumption | (apply Sub.of <;> first | assumption | rfl))
    : Keeps μ s₀ (State.withdraw s k) := by
  unfold State.withdraw
  repeat' first
      | (with_reducible first
          | exact hk | exact Keeps.refl _ | apply State.modClerk_keeps | apply State.tally_keeps
          | apply State.modStall_keeps)
      | (intro _ _) | (apply Sub.of <;> first | assumption | rfl) | dsimp only

theorem State.closeStall_keeps {μ : Nat} {s₀ : State} (s : State) (k : Nat) (abort : Bool) (hk
    : Keeps μ s₀ s)
    (hm : Sub 0x1CDFDDDFA μ := by first | assumption | (apply Sub.of <;> first | assumption | rfl))
    : Keeps μ s₀ (State.closeStall s k abort) := by
  unfold State.closeStall
  extract_lets v1 v2
  have h1 : Keeps μ s₀ v1 := by
    unfold v1
    repeat' first
        | (with_reducible first
            | exact hk | exact Keeps.refl _ | apply State.withdraw_keeps)
        | (apply Sub.of <;> first | assumption | rfl) | dsimp only
  clear_value v1
  have h2 : Keeps μ s₀ v2 := by
    unfold v2
    repeat' first
        | (with_reducible first
            | exact h1 | exact Keeps.refl _ | apply State.modStall_keeps)
        | (intro _ _) | (apply Sub.of <;> first | assumption | rfl) | dsimp only
  clear_value v2
  repeat' first
      | (with_reducible first
          | exact h2 | exact Keeps.refl _ | apply State.endStream_keeps | apply State.settleStall_keeps
          | apply forEach_keeps)
      | (intro _ _) | (apply Sub.of <;> first | assumption | rfl) | dsimp only

theorem State.tornRecord_keeps {μ : Nat} {s₀ : State} (s : State) (k : Nat) (hk
    : Keeps μ s₀ s) (hm : Sub 0x600000 μ := by first | assumption | (apply Sub.of <;> first | assumption | rfl))
    : Keeps μ s₀ (State.tornRecord s k) := by
  unfold State.tornRecord
  repeat' first
      | (with_reducible first
          | exact hk | exact Keeps.refl _ | apply State.raise_keeps)
      | (apply Sub.of <;> first | assumption | rfl) | dsimp only

theorem State.closeTorn_keeps {μ : Nat} {s₀ : State} (s : State) (k : Nat) (hk
    : Keeps μ s₀ s)
    (hm : Sub 0x89615DF0 μ := by first | assumption | (apply Sub.of <;> first | assumption | rfl))
    : Keeps μ s₀ (State.closeTorn s k) := by
  unfold State.closeTorn
  extract_lets v1 v2 v3 v4 v5 v6
  have h1 : Keeps μ s₀ v1 := by
    unfold v1
    repeat' first
        | (with_reducible first
            | exact hk | exact Keeps.refl _ | apply Keeps.ite | apply State.tornRecord_keeps)
        | (apply Sub.of <;> first | assumption | rfl) | split | dsimp only
  clear_value v1
  clear_value v2
  have h3 : Keeps μ s₀ v3 := by
    unfold v3
    repeat' first
        | (with_reducible first
            | exact h1 | exact Keeps.refl _ | apply State.freeStream_keeps | apply forEach_keeps)
        | (intro _ _) | (apply Sub.of <;> first | assumption | rfl) | dsimp only
  clear_value v3
  have h4 : Keeps μ s₀ v4 := by
    unfold v4
    repeat' first
        | (with_reducible first
            | exact h3 | exact Keeps.refl _ | apply State.dropVoice_keeps | apply forEach_keeps)
        | (intro _ _) | (apply Sub.of <;> first | assumption | rfl) | dsimp only
  clear_value v4
  clear_value v5
  have h6 : Keeps μ s₀ v6 := by
    unfold v6
    repeat' first
        | (with_reducible first
            | exact h4 | exact Keeps.refl _ | apply State.putStall_keeps)
        | (apply Sub.of <;> first | assumption | rfl) | dsimp only
  clear_value v6
  repeat' first
      | (with_reducible first
          | exact h6 | exact Keeps.refl _ | apply State.raise_keeps)
      | (apply Sub.of <;> first | assumption | rfl) | dsimp only

theorem stallCloseOwn_keeps {μ : Nat} (h : CmdHdr) (body : List Byte) (s : State)
    (hm : Sub 0x1CDFDDDFA μ := by first | assumption | (apply Sub.of <;> first | assumption | rfl))
    : ActKeeps μ (stallCloseOwn h body s) := by
  unfold stallCloseOwn
  repeat' first
      | (with_reducible first
          | exact Keeps.refl _ | exact ActKeeps.no _ | exact ActKeeps.conflict _ | exact OptKeeps.none
          | apply ActKeeps.ite | apply OptKeeps.ite | apply Keeps.ite | apply OptKeeps.some | apply ActKeeps.ok
          | apply ActKeeps.done | apply ActKeeps.later | apply ActKeeps.refuse | apply State.closeTorn_keeps
          | apply State.closeStall_keeps | exact Keeps.id_ _ | assumption)
      | (apply Sub.of <;> first | assumption | rfl) | split | dsimp only | intro _

theorem execStallClose_keeps {h : CmdHdr} {body : List Byte} {s : State} {t : State}
    (h : execStallClose h body s = .next t) : Keeps 0x1CDFDDDFA s t := by
  have hm := Sub.refl 0x1CDFDDDFA
  unfold execStallClose at h
  refine run_keeps ?_ h
  intro _
  repeat' first
      | (with_reducible first
          | exact Keeps.refl _ | apply Keeps.ite | apply clerk_keeps | apply stallCloseOwn_keeps | apply clerk_keeps
          | exact Keeps.id_ _ | assumption)
      | exact Or.inl ⟨rfl, rfl⟩ | refine Or.inr ?_ | (apply Sub.of <;> first | assumption | rfl) | split | dsimp only
      | intro _

theorem stallQueryOwn_keeps {μ : Nat} (h : CmdHdr) (s : State)
    (hm : Sub 0x0 μ := by first | assumption | (apply Sub.of <;> first | assumption | rfl))
    : ActKeeps μ (stallQueryOwn h s) := by
  unfold stallQueryOwn
  repeat' first
      | (with_reducible first
          | exact Keeps.refl _ | exact ActKeeps.no _ | exact ActKeeps.conflict _ | exact OptKeeps.none
          | apply ActKeeps.ite | apply OptKeeps.ite | apply Keeps.ite | apply OptKeeps.some | apply ActKeeps.ok
          | apply ActKeeps.done | apply ActKeeps.later | apply ActKeeps.refuse | exact Keeps.id_ _ | assumption)
      | (apply Sub.of <;> first | assumption | rfl) | split | dsimp only | intro _

theorem execStallQuery_keeps {h : CmdHdr} {body : List Byte} {s : State} {t : State}
    (h : execStallQuery h body s = .next t) : Keeps 0x405C0000 s t := by
  have hm := Sub.refl 0x405C0000
  unfold execStallQuery at h
  refine run_keeps ?_ h
  intro _
  repeat' first
      | (with_reducible first
          | exact Keeps.refl _ | apply Keeps.ite | apply clerk_keeps | apply stallQueryOwn_keeps | apply clerk_keeps
          | exact Keeps.id_ _ | assumption)
      | exact Or.inl ⟨rfl, rfl⟩ | refine Or.inr ?_ | (apply Sub.of <;> first | assumption | rfl) | split | dsimp only
      | intro _

theorem stallLimitsOwn_keeps {μ : Nat} (h : CmdHdr) (body : List Byte) (s : State)
    (hm : Sub 0x80 μ := by first | assumption | (apply Sub.of <;> first | assumption | rfl))
    : ActKeeps μ (stallLimitsOwn h body s) := by
  unfold stallLimitsOwn
  repeat' first
      | (with_reducible first
          | exact Keeps.refl _ | exact ActKeeps.no _ | exact ActKeeps.conflict _ | exact OptKeeps.none
          | apply ActKeeps.ite | apply OptKeeps.ite | apply Keeps.ite | apply OptKeeps.some | apply ActKeeps.ok
          | apply ActKeeps.done | apply ActKeeps.later | apply ActKeeps.refuse | apply State.open__keeps
          | apply State.modStall_keeps | exact Keeps.id_ _ | assumption)
      | (apply Sub.of <;> first | assumption | rfl) | split | dsimp only | intro _

theorem execStallLimits_keeps {h : CmdHdr} {body : List Byte} {s : State} {t : State}
    (h : execStallLimits h body s = .next t) : Keeps 0x445C0080 s t := by
  have hm := Sub.refl 0x445C0080
  unfold execStallLimits at h
  refine run_keeps ?_ h
  intro _
  repeat' first
      | (with_reducible first
          | exact Keeps.refl _ | apply Keeps.ite | apply clerk_keeps | apply stallLimitsOwn_keeps | apply clerk_keeps
          | exact Keeps.id_ _ | assumption)
      | exact Or.inl ⟨rfl, rfl⟩ | refine Or.inr ?_ | (apply Sub.of <;> first | assumption | rfl) | split | dsimp only
      | intro _

theorem State.grantStall_keeps {μ : Nat} {s₀ : State} (s : State) (k : Nat) (hk
    : Keeps μ s₀ s) (hm : Sub 0x405C0080 μ := by first | assumption | (apply Sub.of <;> first | assumption | rfl)) :
    Keeps μ s₀ (State.grantStall s k) := by
  unfold State.grantStall
  split
  · exact hk
  · exact .ite hk (State.post_keeps _ _ _ _ _ (State.modClerk_keeps _ _ (State.modStall_keeps _ _ _ hk)))

theorem execGrant_keeps {stall : Nat} {s : State} {t : State} (h : execGrant stall s = .next t)
    : Keeps 0x405C0080 s t := by
  have hm := Sub.refl 0x405C0080
  unfold execGrant at h
  refine run_keeps ?_ h
  intro _
  repeat' first
      | (with_reducible first
          | exact Keeps.refl _ | apply Keeps.ite | apply clerk_keeps | apply State.grantStall_keeps
          | exact Keeps.id_ _ | assumption)
      | exact Or.inl ⟨rfl, rfl⟩ | refine Or.inr ?_ | (apply Sub.of <;> first | assumption | rfl) | split | dsimp only
      | intro _

theorem execTeardownComplete_keeps {stall : Nat} {s : State} {t : State}
    (h : execTeardownComplete stall s = .next t) : Keeps 0x600080 s t := by
  have hm := Sub.refl 0x600080
  unfold execTeardownComplete at h
  refine run_keeps ?_ h
  intro _
  repeat' first
      | (with_reducible first
          | exact Keeps.refl _ | apply Keeps.ite | apply State.tornRecord_keeps | apply State.modStall_keeps
          | apply Keeps.free | apply Keeps.mem | apply Keeps.jtag | exact Keeps.id_ _ | assumption)
      | (apply Sub.of <;> first | assumption | rfl) | split | dsimp only | intro _

end Sys2Proof.Machine
end

