-- ==== Sys2Proof/Laws/Voices.lean ====
section
/-! SUPPORT. What voices and rows keep: the queue of waiting commands, memory's canonical form, and the parts of the state that each
never writes (a mask over `Field`, by index). -/

namespace Sys2Proof.Machine
set_option Elab.async false

theorem State.noExtent_keeps {μ : Nat} {s₀ : State} (stall : Option Nat) (s : State) (hk
    : Keeps μ s₀ s) (hm : Sub 0x600000 μ := by first | assumption | (apply Sub.of <;> first | assumption | rfl))
    : Keeps μ s₀ (State.noExtent stall s) := by
  unfold State.noExtent
  repeat' first
      | (with_reducible first
          | exact hk | exact Keeps.refl _ | apply State.raise_keeps)
      | (apply Sub.of <;> first | assumption | rfl) | dsimp only

theorem State.placeHots_keeps {μ : Nat} {s₀ : State} (s : State) (v : Nat) (hk
    : Keeps μ s₀ s) (hm : Sub 0x400 μ := by first | assumption | (apply Sub.of <;> first | assumption | rfl))
    : Keeps μ s₀ (State.placeHots s v) := by
  unfold State.placeHots
  repeat' first
      | (with_reducible first
          | exact hk | exact Keeps.refl _ | apply Keeps.ite | apply State.loadHots_keeps
          | apply State.releaseHot_keeps | apply forEach_keeps)
      | (intro _ _) | (apply Sub.of <;> first | assumption | rfl) | split | dsimp only

theorem State.loadVoice_keeps {μ : Nat} {s₀ : State} (s : State) (k v addr : Nat) (x : Voice) (b : List Byte)
    (hk : Keeps μ s₀ s)
    (hm : Sub 0x10566C5B8 μ := by first | assumption | (apply Sub.of <;> first | assumption | rfl))
    : Keeps μ s₀ (State.loadVoice s k v addr x b) := by
  unfold State.loadVoice
  extract_lets v1 v2
  clear_value v1
  have h2 : Keeps μ s₀ v2 := by
    unfold v2
    repeat' first
        | (with_reducible first
            | exact hk | exact Keeps.refl _ | apply State.libRead_keeps | apply State.bulkWrite_keeps
            | apply State.countMove_keeps | apply State.putVoice_keeps)
        | (apply Sub.of <;> first | assumption | rfl) | dsimp only
  clear_value v2
  repeat' first
      | (with_reducible first
          | exact h2 | exact Keeps.refl _ | apply State.placeHots_keeps | apply State.modStall_keeps
          | apply State.rebindAll_keeps | apply Keeps.voices)
      | (intro _ _) | (apply Sub.of <;> first | assumption | rfl) | dsimp only

theorem State.remask_keeps {μ : Nat} {s₀ : State} (s : State) (v mask : Nat) (hk
    : Keeps μ s₀ s) (hm : Sub 0x510 μ := by first | assumption | (apply Sub.of <;> first | assumption | rfl))
    : Keeps μ s₀ (State.remask s v mask) := by
  unfold State.remask
  repeat' first
      | (with_reducible first
          | exact hk | exact Keeps.refl _ | apply State.modVoice_keeps | apply State.placeHots_keeps
          | apply State.rebindAll_keeps)
      | (intro _ _) | (apply Sub.of <;> first | assumption | rfl) | dsimp only

theorem voiceLoadOwn_keeps {μ : Nat} (h : CmdHdr) (body : List Byte) (s : State)
    (hm : Sub 0x10566C5B8 μ := by first | assumption | (apply Sub.of <;> first | assumption | rfl))
    : ActKeeps μ (voiceLoadOwn h body s) := by
  unfold voiceLoadOwn
  repeat' first
      | (with_reducible first
          | exact Keeps.refl _ | exact ActKeeps.no _ | exact ActKeeps.conflict _ | exact OptKeeps.none
          | apply ActKeeps.ite | apply OptKeeps.ite | apply Keeps.ite | apply OptKeeps.some | apply ActKeeps.ok
          | apply ActKeeps.done | apply ActKeeps.later | apply ActKeeps.refuse | apply State.open__keeps
          | apply State.refuse_keeps | apply State.remask_keeps | apply State.noExtent_keeps
          | apply State.loadVoice_keeps | exact Keeps.id_ _ | assumption)
      | (apply Sub.of <;> first | assumption | rfl) | split | dsimp only | intro _

theorem execVoiceLoad_keeps {h : CmdHdr} {body : List Byte} {s : State} {t : State}
    (h : execVoiceLoad h body s = .next t) : Keeps 0x1457EC5B8 s t := by
  have hm := Sub.refl 0x1457EC5B8
  unfold execVoiceLoad at h
  refine run_keeps ?_ h
  intro _
  repeat' first
      | (with_reducible first
          | exact Keeps.refl _ | apply Keeps.ite | apply clerk_keeps | apply voiceLoadOwn_keeps | apply clerk_keeps
          | exact Keeps.id_ _ | assumption)
      | exact Or.inl ⟨rfl, rfl⟩ | refine Or.inr ?_ | (apply Sub.of <;> first | assumption | rfl) | split | dsimp only
      | intro _

theorem voiceUnloadOwn_keeps {μ : Nat} (h : CmdHdr) (body : List Byte) (s : State)
    (hm : Sub 0x580 μ := by first | assumption | (apply Sub.of <;> first | assumption | rfl))
    : ActKeeps μ (voiceUnloadOwn h body s) := by
  unfold voiceUnloadOwn
  repeat' first
      | (with_reducible first
          | exact Keeps.refl _ | exact ActKeeps.no _ | exact ActKeeps.conflict _ | exact OptKeeps.none
          | apply ActKeeps.ite | apply OptKeeps.ite | apply Keeps.ite | apply OptKeeps.some | apply ActKeeps.ok
          | apply ActKeeps.done | apply ActKeeps.later | apply ActKeeps.refuse | apply State.dropVoice_keeps
          | apply State.modStall_keeps | apply Keeps.free | apply Keeps.mem | exact Keeps.id_ _ | assumption)
      | (apply Sub.of <;> first | assumption | rfl) | split | dsimp only | intro _

theorem execVoiceUnload_keeps {h : CmdHdr} {body : List Byte} {s : State} {t : State}
    (h : execVoiceUnload h body s = .next t) : Keeps 0x445C0580 s t := by
  have hm := Sub.refl 0x445C0580
  unfold execVoiceUnload at h
  refine run_keeps ?_ h
  intro _
  repeat' first
      | (with_reducible first
          | exact Keeps.refl _ | apply Keeps.ite | apply clerk_keeps | apply voiceUnloadOwn_keeps | apply clerk_keeps
          | exact Keeps.id_ _ | assumption)
      | exact Or.inl ⟨rfl, rfl⟩ | refine Or.inr ?_ | (apply Sub.of <;> first | assumption | rfl) | split | dsimp only
      | intro _

theorem State.startRow_keeps {μ : Nat} {s₀ : State} (s : State) (r : Nat) (c : RowCfg) (d : Defer) (hk
    : Keeps μ s₀ s)
    (hm : Sub 0x1D57FDFB8 μ := by first | assumption | (apply Sub.of <;> first | assumption | rfl))
    : Keeps μ s₀ (State.startRow s r c d) := by
  unfold State.startRow
  extract_lets v1
  have h1 : Keeps μ s₀ v1 := by
    unfold v1
    repeat' first
        | (with_reducible first
            | exact hk | exact Keeps.refl _ | apply State.modRow_keeps)
        | (intro _ _) | (apply Sub.of <;> first | assumption | rfl) | dsimp only
  clear_value v1
  repeat' first
      | (with_reducible first
          | exact h1 | exact Keeps.refl _ | apply Keeps.ite | apply State.enterBuilding_keeps
          | apply State.drainRow_keeps | apply State.rowSettle_keeps)
      | (apply Sub.of <;> first | assumption | rfl) | split | dsimp only

theorem rowConfigureOwn_keeps {μ : Nat} (h : CmdHdr) (body : List Byte) (s : State)
    (hm : Sub 0x1D57FDFB8 μ := by first | assumption | (apply Sub.of <;> first | assumption | rfl))
    : ActKeeps μ (rowConfigureOwn h body s) := by
  unfold rowConfigureOwn
  repeat' first
      | (with_reducible first
          | exact Keeps.refl _ | exact ActKeeps.no _ | exact ActKeeps.conflict _ | exact OptKeeps.none
          | apply ActKeeps.ite | apply OptKeeps.ite | apply Keeps.ite | apply OptKeeps.some | apply ActKeeps.ok
          | apply ActKeeps.done | apply ActKeeps.later | apply ActKeeps.refuse | apply State.refuse_keeps
          | apply State.noExtent_keeps | apply State.startRow_keeps | apply State.putBase_keeps | exact Keeps.id_ _
          | assumption)
      | refine Keeps.of_snd (by assumption) ?_ | refine Keeps.of_fst (by assumption) ?_
      | (apply Sub.of <;> first | assumption | rfl) | split | dsimp only | intro _

theorem execRowConfigure_keeps {h : CmdHdr} {body : List Byte} {s : State} {t : State}
    (h : execRowConfigure h body s = .next t) : Keeps 0x1D57FDFB8 s t := by
  have hm := Sub.refl 0x1D57FDFB8
  unfold execRowConfigure at h
  refine run_keeps ?_ h
  intro _
  repeat' first
      | (with_reducible first
          | exact Keeps.refl _ | apply Keeps.ite | apply clerk_keeps | apply rowConfigureOwn_keeps | apply clerk_keeps
          | exact Keeps.id_ _ | assumption)
      | exact Or.inl ⟨rfl, rfl⟩ | refine Or.inr ?_ | (apply Sub.of <;> first | assumption | rfl) | split | dsimp only
      | intro _

theorem execRowBuildDone_keeps {row : Nat} {s : State} {t : State} (h : execRowBuildDone row s = .next t)
    : Keeps 0x505C4400 s t := by
  have hm := Sub.refl 0x505C4400
  unfold execRowBuildDone at h
  refine run_keeps ?_ h
  intro _
  repeat' first
      | (with_reducible first
          | exact Keeps.refl _ | apply Keeps.ite | apply State.modRow_keeps | apply State.writeProgram_keeps
          | apply State.modClk_keeps | apply State.answer_keeps | exact Keeps.id_ _ | assumption)
      | (apply Sub.of <;> first | assumption | rfl) | split | dsimp only | intro _

end Sys2Proof.Machine
end

