-- ==== Sys2Proof/Laws/Streams.lean ====
section
/-! SUPPORT. What stream commands keep: the queue of waiting commands, memory's canonical form, and the parts of the state that each
never writes (a mask over `Field`, by index). -/

namespace Sys2Proof.Machine
set_option Elab.async false

theorem State.openStream_keeps {μ : Nat} {s₀ : State} (s : State) (n : Nat) (x : Stream) (e : Egress) (hk
    : Keeps μ s₀ s) (hm : Sub 0xB2 μ := by first | assumption | (apply Sub.of <;> first | assumption | rfl))
    : Keeps μ s₀ (State.openStream s n x e) := by
  unfold State.openStream
  repeat' first
      | (with_reducible first
          | exact hk | exact Keeps.refl _ | apply State.putStream_keeps | apply State.putEgr_keeps
          | apply State.tick_keeps | apply State.modStall_keeps)
      | (intro _ _) | (apply Sub.of <;> first | assumption | rfl) | dsimp only

theorem streamOpenOwn_keeps {μ : Nat} (h : CmdHdr) (body : List Byte) (s : State)
    (hm : Sub 0x10566C0FA μ := by first | assumption | (apply Sub.of <;> first | assumption | rfl))
    : ActKeeps μ (streamOpenOwn h body s) := by
  unfold streamOpenOwn
  repeat' first
      | (with_reducible first
          | exact Keeps.refl _ | exact ActKeeps.no _ | exact ActKeeps.conflict _ | exact OptKeeps.none
          | apply ActKeeps.ite | apply OptKeeps.ite | apply Keeps.ite | apply OptKeeps.some | apply ActKeeps.ok
          | apply ActKeeps.done | apply ActKeeps.later | apply ActKeeps.refuse | apply State.open__keeps
          | apply State.idle_keeps | apply State.openStream_keeps | apply State.initFolio_keeps
          | apply State.writeJournal_keeps | exact Keeps.id_ _ | assumption)
      | (apply Sub.of <;> first | assumption | rfl) | split | dsimp only | intro _

theorem execStreamOpen_keeps {h : CmdHdr} {body : List Byte} {s : State} {t : State}
    (h : execStreamOpen h body s = .next t) : Keeps 0x1457EC0FA s t := by
  have hm := Sub.refl 0x1457EC0FA
  unfold execStreamOpen at h
  refine run_keeps ?_ h
  intro _
  repeat' first
      | (with_reducible first
          | exact Keeps.refl _ | apply Keeps.ite | apply clerk_keeps | apply streamOpenOwn_keeps | apply clerk_keeps
          | exact Keeps.id_ _ | assumption)
      | exact Or.inl ⟨rfl, rfl⟩ | refine Or.inr ?_ | (apply Sub.of <;> first | assumption | rfl) | split | dsimp only
      | intro _

theorem State.markConflict_keeps {μ : Nat} (s : State) (n : Nat)
    (hm : Sub 0x0 μ := by first | assumption | (apply Sub.of <;> first | assumption | rfl))
    : ActKeeps μ (State.markConflict s n) := by
  unfold State.markConflict
  repeat' first
      | (with_reducible first
          | exact Keeps.refl _ | exact ActKeeps.no _ | exact ActKeeps.conflict _ | exact OptKeeps.none
          | apply ActKeeps.ite | apply OptKeeps.ite | apply Keeps.ite | apply OptKeeps.some | apply ActKeeps.ok
          | apply ActKeeps.done | apply ActKeeps.later | apply ActKeeps.refuse | exact Keeps.id_ _ | assumption)
      | (apply Sub.of <;> first | assumption | rfl) | split | dsimp only | intro _

theorem streamMarkOwn_keeps {μ : Nat} (h : CmdHdr) (body : List Byte) (s : State)
    (hm : Sub 0x10 μ := by first | assumption | (apply Sub.of <;> first | assumption | rfl))
    : ActKeeps μ (streamMarkOwn h body s) := by
  unfold streamMarkOwn
  repeat' first
      | (with_reducible first
          | exact Keeps.refl _ | exact ActKeeps.no _ | exact ActKeeps.conflict _ | exact OptKeeps.none
          | apply State.markConflict_keeps | apply ActKeeps.ite | apply OptKeeps.ite | apply Keeps.ite
          | apply OptKeeps.some | apply ActKeeps.ok | apply ActKeeps.done | apply ActKeeps.later
          | apply ActKeeps.refuse | apply State.modStream_keeps | exact Keeps.id_ _ | assumption)
      | (apply Sub.of <;> first | assumption | rfl) | split | dsimp only | intro _

theorem execStreamMark_keeps {h : CmdHdr} {body : List Byte} {s : State} {t : State}
    (h : execStreamMark h body s = .next t) : Keeps 0x405C0010 s t := by
  have hm := Sub.refl 0x405C0010
  unfold execStreamMark at h
  refine run_keeps ?_ h
  intro _
  repeat' first
      | (with_reducible first
          | exact Keeps.refl _ | apply Keeps.ite | apply clerk_keeps | apply streamMarkOwn_keeps | apply clerk_keeps
          | exact Keeps.id_ _ | assumption)
      | exact Or.inl ⟨rfl, rfl⟩ | refine Or.inr ?_ | (apply Sub.of <;> first | assumption | rfl) | split | dsimp only
      | intro _

theorem streamPauseOwn_keeps {μ : Nat} (h : CmdHdr) (body : List Byte) (s : State)
    (hm : Sub 0x80614CB0 μ := by first | assumption | (apply Sub.of <;> first | assumption | rfl))
    : ActKeeps μ (streamPauseOwn h body s) := by
  unfold streamPauseOwn
  repeat' first
      | (with_reducible first
          | exact Keeps.refl _ | exact ActKeeps.no _ | exact ActKeeps.conflict _ | exact OptKeeps.none
          | apply ActKeeps.ite | apply OptKeeps.ite | apply Keeps.ite | apply OptKeeps.some | apply ActKeeps.ok
          | apply ActKeeps.done | apply ActKeeps.later | apply ActKeeps.refuse | apply State.modStream_keeps
          | apply State.abandon_keeps | apply State.idle_keeps | exact Keeps.id_ _ | assumption)
      | (apply Sub.of <;> first | assumption | rfl) | split | dsimp only | intro _

theorem execStreamPause_keeps {h : CmdHdr} {body : List Byte} {s : State} {t : State}
    (h : execStreamPause h body s = .next t) : Keeps 0xC07D4CB0 s t := by
  have hm := Sub.refl 0xC07D4CB0
  unfold execStreamPause at h
  refine run_keeps ?_ h
  intro _
  repeat' first
      | (with_reducible first
          | exact Keeps.refl _ | apply Keeps.ite | apply clerk_keeps | apply streamPauseOwn_keeps | apply clerk_keeps
          | exact Keeps.id_ _ | assumption)
      | exact Or.inl ⟨rfl, rfl⟩ | refine Or.inr ?_ | (apply Sub.of <;> first | assumption | rfl) | split | dsimp only
      | intro _

theorem streamResumeOwn_keeps {μ : Nat} (h : CmdHdr) (body : List Byte) (s : State)
    (hm : Sub 0x1000012 μ := by first | assumption | (apply Sub.of <;> first | assumption | rfl))
    : ActKeeps μ (streamResumeOwn h body s) := by
  unfold streamResumeOwn
  repeat' first
      | (with_reducible first
          | exact Keeps.refl _ | exact ActKeeps.no _ | exact ActKeeps.conflict _ | exact OptKeeps.none
          | apply ActKeeps.ite | apply OptKeeps.ite | apply Keeps.ite | apply OptKeeps.some | apply ActKeeps.ok
          | apply ActKeeps.done | apply ActKeeps.later | apply ActKeeps.refuse | apply State.modStream_keeps
          | apply State.wake_keeps | exact Keeps.id_ _ | assumption)
      | (apply Sub.of <;> first | assumption | rfl) | split | dsimp only | intro _

theorem execStreamResume_keeps {h : CmdHdr} {body : List Byte} {s : State} {t : State}
    (h : execStreamResume h body s = .next t) : Keeps 0x415C0012 s t := by
  have hm := Sub.refl 0x415C0012
  unfold execStreamResume at h
  refine run_keeps ?_ h
  intro _
  repeat' first
      | (with_reducible first
          | exact Keeps.refl _ | apply Keeps.ite | apply clerk_keeps | apply streamResumeOwn_keeps | apply clerk_keeps
          | exact Keeps.id_ _ | assumption)
      | exact Or.inl ⟨rfl, rfl⟩ | refine Or.inr ?_ | (apply Sub.of <;> first | assumption | rfl) | split | dsimp only
      | intro _

theorem streamEndOwn_keeps {μ : Nat} (h : CmdHdr) (body : List Byte) (s : State)
    (hm : Sub 0x1CDFDDDFA μ := by first | assumption | (apply Sub.of <;> first | assumption | rfl))
    : ActKeeps μ (streamEndOwn h body s) := by
  unfold streamEndOwn
  repeat' first
      | (with_reducible first
          | exact Keeps.refl _ | exact ActKeeps.no _ | exact ActKeeps.conflict _ | exact OptKeeps.none
          | apply ActKeeps.ite | apply OptKeeps.ite | apply Keeps.ite | apply OptKeeps.some | apply ActKeeps.ok
          | apply ActKeeps.done | apply ActKeeps.later | apply ActKeeps.refuse | apply State.endStream_keeps
          | exact Keeps.id_ _ | assumption)
      | (apply Sub.of <;> first | assumption | rfl) | split | dsimp only | intro _

theorem execStreamEnd_keeps {h : CmdHdr} {body : List Byte} {s : State} {t : State}
    (h : execStreamEnd h body s = .next t) : Keeps 0x1CDFDDDFA s t := by
  have hm := Sub.refl 0x1CDFDDDFA
  unfold execStreamEnd at h
  refine run_keeps ?_ h
  intro _
  repeat' first
      | (with_reducible first
          | exact Keeps.refl _ | apply Keeps.ite | apply clerk_keeps | apply streamEndOwn_keeps | apply clerk_keeps
          | exact Keeps.id_ _ | assumption)
      | exact Or.inl ⟨rfl, rfl⟩ | refine Or.inr ?_ | (apply Sub.of <;> first | assumption | rfl) | split | dsimp only
      | intro _

theorem State.drawTally_keeps {μ : Nat} {s₀ : State} (s : State) (units : Nat) (hk
    : Keeps μ s₀ s) (hm : Sub 0x1600000 μ := by first | assumption | (apply Sub.of <;> first | assumption | rfl)) :
    Keeps μ s₀ (State.drawTally s units) := by
  have h := State.modFlash_keeps s (fun f => { f with tally := f.tally - units }) hk
  exact .ite (State.flashEvent_keeps _ _ _ _ _ h) h

theorem noTally_keeps {μ : Nat}
    (hm : Sub 0x1000000 μ := by first | assumption | (apply Sub.of <;> first | assumption | rfl))
    : ActKeeps μ (noTally ) := by
  unfold noTally
  repeat' first
      | (with_reducible first
          | exact Keeps.refl _ | exact ActKeeps.no _ | exact ActKeeps.conflict _ | exact OptKeeps.none
          | apply ActKeeps.ite | apply OptKeeps.ite | apply Keeps.ite | apply OptKeeps.some | apply ActKeeps.ok
          | apply ActKeeps.done | apply ActKeeps.later | apply ActKeeps.refuse | apply State.refuse_keeps
          | apply State.modFlash_keeps | exact Keeps.id_ _ | assumption)
      | (apply Sub.of <;> first | assumption | rfl) | split | dsimp only | intro _

theorem State.startPark_keeps {μ : Nat} {s₀ : State} (s : State) (n : Nat) (hk
    : Keeps μ s₀ s) (hm : Sub 0x1604010 μ := by first | assumption | (apply Sub.of <;> first | assumption | rfl))
    : Keeps μ s₀ (State.startPark s n) := by
  unfold State.startPark
  extract_lets v1 v2
  clear_value v1
  have h2 : Keeps μ s₀ v2 := by
    unfold v2
    repeat' first
        | (with_reducible first
            | exact hk | exact Keeps.refl _ | apply Keeps.ite | apply State.drawTally_keeps
            | apply State.modPark_keeps)
        | (intro _ _) | (apply Sub.of <;> first | assumption | rfl) | split | dsimp only
  clear_value v2
  repeat' first
      | (with_reducible first
          | exact h2 | exact Keeps.refl _ | apply State.hubPush_keeps | apply State.modStream_keeps)
      | (intro _ _) | (apply Sub.of <;> first | assumption | rfl) | dsimp only

theorem streamParkOwn_keeps {μ : Nat} (h : CmdHdr) (body : List Byte) (s : State)
    (hm : Sub 0x1604010 μ := by first | assumption | (apply Sub.of <;> first | assumption | rfl))
    : ActKeeps μ (streamParkOwn h body s) := by
  unfold streamParkOwn
  repeat' first
      | (with_reducible first
          | exact Keeps.refl _ | exact ActKeeps.no _ | exact ActKeeps.conflict _ | exact OptKeeps.none
          | apply noTally_keeps | apply ActKeeps.ite | apply OptKeeps.ite | apply Keeps.ite | apply OptKeeps.some
          | apply ActKeeps.ok | apply ActKeeps.done | apply ActKeeps.later | apply ActKeeps.refuse
          | apply State.idle_keeps | apply State.tally_keeps | apply State.startPark_keeps | exact Keeps.id_ _
          | assumption)
      | (apply Sub.of <;> first | assumption | rfl) | split | dsimp only | intro _

theorem execStreamPark_keeps {h : CmdHdr} {body : List Byte} {s : State} {t : State}
    (h : execStreamPark h body s = .next t) : Keeps 0x417C4010 s t := by
  have hm := Sub.refl 0x417C4010
  unfold execStreamPark at h
  refine run_keeps ?_ h
  intro _
  repeat' first
      | (with_reducible first
          | exact Keeps.refl _ | apply Keeps.ite | apply clerk_keeps | apply streamParkOwn_keeps | apply clerk_keeps
          | exact Keeps.id_ _ | assumption)
      | exact Or.inl ⟨rfl, rfl⟩ | refine Or.inr ?_ | (apply Sub.of <;> first | assumption | rfl) | split | dsimp only
      | intro _

theorem streamExportOwn_keeps {μ : Nat} (h : CmdHdr) (body : List Byte) (s : State)
    (hm : Sub 0x1CDFDDDF8 μ := by first | assumption | (apply Sub.of <;> first | assumption | rfl))
    : ActKeeps μ (streamExportOwn h body s) := by
  unfold streamExportOwn
  repeat' first
      | (with_reducible first
          | exact Keeps.refl _ | exact ActKeeps.no _ | exact ActKeeps.conflict _ | exact OptKeeps.none
          | apply ActKeeps.ite | apply OptKeeps.ite | apply Keeps.ite | apply OptKeeps.some | apply ActKeeps.ok
          | apply ActKeeps.done | apply ActKeeps.later | apply ActKeeps.refuse | apply State.refuse_keeps
          | apply State.readFault_keeps | apply State.freeze_keeps | apply State.modStream_keeps | exact Keeps.id_ _
          | assumption)
      | (apply Sub.of <;> first | assumption | rfl) | split | dsimp only | intro _

theorem execStreamExport_keeps {h : CmdHdr} {body : List Byte} {s : State} {t : State}
    (h : execStreamExport h body s = .next t) : Keeps 0x1CDFDDDF8 s t := by
  have hm := Sub.refl 0x1CDFDDDF8
  unfold execStreamExport at h
  refine run_keeps ?_ h
  intro _
  repeat' first
      | (with_reducible first
          | exact Keeps.refl _ | apply Keeps.ite | apply clerk_keeps | apply streamExportOwn_keeps | apply clerk_keeps
          | exact Keeps.id_ _ | assumption)
      | exact Or.inl ⟨rfl, rfl⟩ | refine Or.inr ?_ | (apply Sub.of <;> first | assumption | rfl) | split | dsimp only
      | intro _

theorem State.gather_keeps {μ : Nat} {s₀ : State} (s : State) (n : Nat) (cs : List HeldChunk) (hk
    : Keeps μ s₀ s) (hm : Sub 0x30000 μ := by first | assumption | (apply Sub.of <;> first | assumption | rfl)) :
    Keeps μ s₀ (State.gather s n cs).2 := by
  induction cs generalizing s with
  | nil => exact hk
  | cons c cs ih =>
    have h := State.takeBufs_keeps (dieOrder n) (bufsFor c.tokens.length) s hk
    unfold State.gather
    generalize State.takeBufs (dieOrder n) (bufsFor c.tokens.length) s = p at h
    exact ih _ (State.storeTokens_keeps _ _ _ h)

theorem State.holdBufs_keeps {μ : Nat} {s₀ : State} (s : State) (k c : Nat) (hk
    : Keeps μ s₀ s) (hm : Sub 0x80 μ := by first | assumption | (apply Sub.of <;> first | assumption | rfl))
    : Keeps μ s₀ (State.holdBufs s k c) := by
  unfold State.holdBufs
  repeat' first
      | (with_reducible first
          | exact hk | exact Keeps.refl _ | apply State.modStall_keeps)
      | (intro _ _) | (apply Sub.of <;> first | assumption | rfl) | dsimp only

theorem State.askPeer_keeps {μ : Nat} {s₀ : State} (s : State) (to_ : BitVec 128 × BitVec 16) (a : PeerAsk)
    (hk : Keeps μ s₀ s)
    (hm : Sub 0x100000 μ := by first | assumption | (apply Sub.of <;> first | assumption | rfl))
    : Keeps μ s₀ (State.askPeer s to_ a) := by
  unfold State.askPeer
  repeat' first
      | (with_reducible first
          | exact hk | exact Keeps.refl _ | apply State.modVct_keeps)
      | (intro _ _) | (apply Sub.of <;> first | assumption | rfl) | dsimp only

theorem State.openPeer_keeps {μ : Nat} {s₀ : State} (s : State) (to_ : BitVec 128 × BitVec 16) (hk
    : Keeps μ s₀ s) (hm : Sub 0x100000 μ := by first | assumption | (apply Sub.of <;> first | assumption | rfl))
    : Keeps μ s₀ (State.openPeer s to_) := by
  unfold State.openPeer
  repeat' first
      | (with_reducible first
          | exact hk | exact Keeps.refl _ | apply Keeps.ite | apply State.modVct_keeps | apply State.askPeer_keeps)
      | (intro _ _) | (apply Sub.of <;> first | assumption | rfl) | split | dsimp only

theorem State.fetchImage_keeps {μ : Nat} {s₀ : State} (s : State) (f : Fetch) (hk
    : Keeps μ s₀ s) (hm : Sub 0x100000 μ := by first | assumption | (apply Sub.of <;> first | assumption | rfl))
    : Keeps μ s₀ (State.fetchImage s f) := by
  unfold State.fetchImage
  repeat' first
      | (with_reducible first
          | exact hk | exact Keeps.refl _ | apply State.askPeer_keeps | apply State.openPeer_keeps
          | apply forEach_keeps)
      | (intro _ _) | (apply Sub.of <;> first | assumption | rfl) | dsimp only

theorem State.importImage_keeps {μ : Nat} {s₀ : State} (s : State) (n : Nat) (d : ImportDesc) (x : Stream)
    (e : Egress) (hk : Keeps μ s₀ s)
    (hm : Sub 0x10577C0FA μ := by first | assumption | (apply Sub.of <;> first | assumption | rfl))
    : Keeps μ s₀ (State.importImage s n d x e) := by
  unfold State.importImage
  extract_lets v1 v2 v3
  clear_value v1
  clear_value v2
  have h3 : Keeps μ s₀ v3 := by
    unfold v3
    repeat' first
        | (with_reducible first
            | exact hk | exact Keeps.refl _ | apply State.openStream_keeps)
        | (apply Sub.of <;> first | assumption | rfl) | dsimp only
  clear_value v3
  repeat' first
      | (with_reducible first
          | exact h3 | exact Keeps.refl _ | apply State.takeBufs_keeps | apply State.holdBufs_keeps
          | apply State.modStream_keeps | apply State.fetchImage_keeps | apply State.writeJournal_keeps)
      | refine Keeps.of_snd (by assumption) ?_ | refine Keeps.of_fst (by assumption) ?_ | (intro _ _)
      | (apply Sub.of <;> first | assumption | rfl) | split | dsimp only

theorem State.importPeer_keeps {μ : Nat} {s₀ : State} (s : State) (n : Nat) (d : ImportDesc) (x : Stream)
    (e : Egress) (hk : Keeps μ s₀ s)
    (hm : Sub 0x10566C0FA μ := by first | assumption | (apply Sub.of <;> first | assumption | rfl))
    : Keeps μ s₀ (State.importPeer s n d x e) := by
  unfold State.importPeer
  extract_lets v1 v2 v3
  clear_value v1
  clear_value v2
  have h3 : Keeps μ s₀ v3 := by
    unfold v3
    repeat' first
        | (with_reducible first
            | exact hk | exact Keeps.refl _ | apply State.openStream_keeps | apply State.initFolio_keeps
            | apply State.writeJournal_keeps)
        | (apply Sub.of <;> first | assumption | rfl) | dsimp only
  clear_value v3
  repeat' first
      | (with_reducible first
          | exact h3 | exact Keeps.refl _ | apply State.modClerk_keeps)
      | (intro _ _) | (apply Sub.of <;> first | assumption | rfl) | dsimp only

theorem State.settleNew_keeps {μ : Nat} {s₀ : State} (s : State) (n : Nat) (hk
    : Keeps μ s₀ s) (hm : Sub 0x1000012 μ := by first | assumption | (apply Sub.of <;> first | assumption | rfl))
    : Keeps μ s₀ (State.settleNew s n) := by
  unfold State.settleNew
  repeat' first
      | (with_reducible first
          | exact hk | exact Keeps.refl _ | apply State.wake_keeps)
      | (apply Sub.of <;> first | assumption | rfl) | dsimp only

theorem State.importJournal_keeps {μ : Nat} {s₀ : State} (s : State) (n src : Nat) (j : Journal) (x : Stream)
    (e : Egress) (hk : Keeps μ s₀ s)
    (hm : Sub 0x1CD7FDDFA μ := by first | assumption | (apply Sub.of <;> first | assumption | rfl))
    : Keeps μ s₀ (State.importJournal s n src j x e) := by
  unfold State.importJournal
  extract_lets v1 v2 v3 v4 v5
  clear_value v1
  have h2 : Keeps μ s₀ v2 := by
    unfold v2
    repeat' first
        | (with_reducible first
            | exact hk | exact Keeps.refl _ | apply State.readSpan_keeps)
        | (apply Sub.of <;> first | assumption | rfl) | dsimp only
  clear_value v2
  have h3 : Keeps μ s₀ v3 := by
    unfold v3
    repeat' first
        | (with_reducible first
            | exact h2 | exact Keeps.refl _ | apply State.countMove_keeps)
        | (apply Sub.of <;> first | assumption | rfl) | dsimp only
  clear_value v3
  clear_value v4
  have h5 : Keeps μ s₀ v5 := by
    unfold v5
    repeat' first
        | (with_reducible first
            | exact h3 | exact Keeps.refl _ | apply State.openStream_keeps | apply State.initFolio_keeps)
        | (apply Sub.of <;> first | assumption | rfl) | dsimp only
  clear_value v5
  repeat' first
      | (with_reducible first
          | exact h5 | exact Keeps.refl _ | apply Keeps.ite | apply State.gather_keeps | apply State.holdBufs_keeps
          | apply State.modStream_keeps | apply State.releaseIdle_keeps | apply State.writeJournal_keeps
          | apply State.modClerk_keeps | apply State.settleNew_keeps | apply State.faultStream_keeps)
      | refine Keeps.of_snd (by assumption) ?_ | refine Keeps.of_fst (by assumption) ?_ | (intro _ _)
      | (apply Sub.of <;> first | assumption | rfl) | split | dsimp only

theorem streamImportOwn_keeps {μ : Nat} (h : CmdHdr) (body : List Byte) (s : State)
    (hm : Sub 0x1CD7FDDFA μ := by first | assumption | (apply Sub.of <;> first | assumption | rfl))
    : ActKeeps μ (streamImportOwn h body s) := by
  unfold streamImportOwn
  repeat' first
      | (with_reducible first
          | exact Keeps.refl _ | exact ActKeeps.no _ | exact ActKeeps.conflict _ | exact OptKeeps.none
          | apply ActKeeps.ite | apply OptKeeps.ite | apply Keeps.ite | apply OptKeeps.some | apply ActKeeps.ok
          | apply ActKeeps.done | apply ActKeeps.later | apply ActKeeps.refuse | apply State.open__keeps
          | apply State.idle_keeps | apply State.importImage_keeps | apply State.settleNew_keeps
          | apply State.importPeer_keeps | apply State.importJournal_keeps | exact Keeps.id_ _ | assumption)
      | (apply Sub.of <;> first | assumption | rfl) | split | dsimp only | intro _

theorem execStreamImport_keeps {h : CmdHdr} {body : List Byte} {s : State} {t : State}
    (h : execStreamImport h body s = .next t) : Keeps 0x1CD7FDDFA s t := by
  have hm := Sub.refl 0x1CD7FDDFA
  unfold execStreamImport at h
  refine run_keeps ?_ h
  intro _
  repeat' first
      | (with_reducible first
          | exact Keeps.refl _ | apply Keeps.ite | apply clerk_keeps | apply streamImportOwn_keeps | apply clerk_keeps
          | exact Keeps.id_ _ | assumption)
      | exact Or.inl ⟨rfl, rfl⟩ | refine Or.inr ?_ | (apply Sub.of <;> first | assumption | rfl) | split | dsimp only
      | intro _

theorem streamQueryOwn_keeps {μ : Nat} (h : CmdHdr) (body : List Byte) (s : State)
    (hm : Sub 0x0 μ := by first | assumption | (apply Sub.of <;> first | assumption | rfl))
    : ActKeeps μ (streamQueryOwn h body s) := by
  unfold streamQueryOwn
  repeat' first
      | (with_reducible first
          | exact Keeps.refl _ | exact ActKeeps.no _ | exact ActKeeps.conflict _ | exact OptKeeps.none
          | apply ActKeeps.ite | apply OptKeeps.ite | apply Keeps.ite | apply OptKeeps.some | apply ActKeeps.ok
          | apply ActKeeps.done | apply ActKeeps.later | apply ActKeeps.refuse | exact Keeps.id_ _ | assumption)
      | (apply Sub.of <;> first | assumption | rfl) | split | dsimp only | intro _

theorem execStreamQuery_keeps {h : CmdHdr} {body : List Byte} {s : State} {t : State}
    (h : execStreamQuery h body s = .next t) : Keeps 0x405C0000 s t := by
  have hm := Sub.refl 0x405C0000
  unfold execStreamQuery at h
  refine run_keeps ?_ h
  intro _
  repeat' first
      | (with_reducible first
          | exact Keeps.refl _ | apply Keeps.ite | apply clerk_keeps | apply streamQueryOwn_keeps | apply clerk_keeps
          | exact Keeps.id_ _ | assumption)
      | exact Or.inl ⟨rfl, rfl⟩ | refine Or.inr ?_ | (apply Sub.of <;> first | assumption | rfl) | split | dsimp only
      | intro _

theorem State.takeChunk_keeps {μ : Nat} {s₀ : State} (s : State) (n : Nat) (c : Chunk) (credits : Nat)
    (floor : Bool) (hk : Keeps μ s₀ s)
    (hm : Sub 0x410080 μ := by first | assumption | (apply Sub.of <;> first | assumption | rfl)) :
    Keeps μ s₀ ((State.takeChunk s n c credits floor).2) := by
  unfold State.takeChunk
  dsimp only
  split
  · exact State.holdBufs_keeps _ _ _ (State.modDie_keeps _ _ _ hk)
  · exact State.takeBufs_keeps _ _ _ (State.modClerk_keeps _ _ (State.modStall_keeps _ _ _ hk))

theorem State.acceptChunk_keeps {μ : Nat} {s₀ : State} (s : State) (n : Nat) (c : Chunk) (credits : Nat)
    (floor : Bool) (hk : Keeps μ s₀ s)
    (hm : Sub 0x10567C5FA μ := by first | assumption | (apply Sub.of <;> first | assumption | rfl))
    : Keeps μ s₀ (State.acceptChunk s n c credits floor) := by
  unfold State.acceptChunk
  repeat' first
      | (with_reducible first
          | exact hk | exact Keeps.refl _ | apply Keeps.ite | apply State.takeChunk_keeps
          | apply State.storeTokens_keeps | apply State.modStream_keeps | apply State.releaseIdle_keeps
          | apply State.journalAppend_keeps | apply State.wake_keeps | apply State.settleStall_keeps)
      | refine Keeps.of_snd (by assumption) ?_ | refine Keeps.of_fst (by assumption) ?_ | (intro _ _)
      | (apply Sub.of <;> first | assumption | rfl) | split | dsimp only

theorem State.feedRecord_keeps {μ : Nat} {s₀ : State} (s : State) (k : Nat) (r : FeedRec) (hk
    : Keeps μ s₀ s) (hm : Sub 0x80000 μ := by first | assumption | (apply Sub.of <;> first | assumption | rfl))
    : Keeps μ s₀ (State.feedRecord s k r) := by
  unfold State.feedRecord
  repeat' first
      | (with_reducible first
          | exact hk | exact Keeps.refl _ | apply State.modSess_keeps)
      | (intro _ _) | (apply Sub.of <;> first | assumption | rfl) | dsimp only

theorem State.feed_keeps {μ : Nat} {s₀ : State} (s : State) (k : Nat) (c : Chunk) (hk
    : Keeps μ s₀ s)
    (hm : Sub 0x1057FC5FA μ := by first | assumption | (apply Sub.of <;> first | assumption | rfl))
    : Keeps μ s₀ (State.feed s k c) := by
  unfold State.feed
  repeat' first
      | (with_reducible first
          | exact hk | exact Keeps.refl _ | apply State.refuse_keeps | apply State.feedRecord_keeps
          | apply State.modVct_keeps | apply State.acceptChunk_keeps)
      | (intro _ _) | (apply Sub.of <;> first | assumption | rfl) | split | dsimp only

theorem execStreamFeed_keeps {session : Nat} {c : Chunk} {s : State} {t : State}
    (h : execStreamFeed session c s = .next t) : Keeps 0x1057FC5FA s t := by
  have hm := Sub.refl 0x1057FC5FA
  unfold execStreamFeed at h
  refine run_keeps ?_ h
  intro _
  repeat' first
      | (with_reducible first
          | exact Keeps.refl _ | apply Keeps.ite | apply clerk_keeps | apply State.feedRecord_keeps
          | apply State.feed_keeps | exact Keeps.id_ _ | assumption)
      | exact Or.inl ⟨rfl, rfl⟩ | refine Or.inr ?_ | (apply Sub.of <;> first | assumption | rfl) | split | dsimp only
      | intro _

theorem execFeedStatus_keeps {session : Nat} {s : State} {t : State} (h : execFeedStatus session s = .next t)
    : Keeps 0x401C0000 s t := by
  have hm := Sub.refl 0x401C0000
  unfold execFeedStatus at h
  refine run_keeps ?_ h
  intro _
  repeat' first
      | (with_reducible first
          | exact Keeps.refl _ | apply Keeps.ite | apply clerk_keeps | apply State.modSess_keeps
          | apply State.post_keeps | exact Keeps.id_ _ | assumption)
      | exact Or.inl ⟨rfl, rfl⟩ | refine Or.inr ?_ | (apply Sub.of <;> first | assumption | rfl) | split | dsimp only
      | intro _

end Sys2Proof.Machine
end

