-- ==== Sys2Proof/Laws/Vct.lean ====
section
/-! SUPPORT. What the transport keep: the queue of waiting commands, memory's canonical form, and the parts of the state that each
never writes (a mask over `Field`, by index). -/

namespace Sys2Proof.Machine
set_option Elab.async false

theorem State.vctBad_keeps {μ : Nat} {s₀ : State} (s : State) (hk
    : Keeps μ s₀ s) (hm : Sub 0x100000 μ := by first | assumption | (apply Sub.of <;> first | assumption | rfl))
    : Keeps μ s₀ (State.vctBad s) := by
  unfold State.vctBad
  repeat' first
      | (with_reducible first
          | exact hk | exact Keeps.refl _ | apply State.modVct_keeps)
      | (intro _ _) | (apply Sub.of <;> first | assumption | rfl) | dsimp only

theorem State.sendPfc_keeps {μ : Nat} {s₀ : State} (s : State) (p : Nat) (pause : Bool) (hk
    : Keeps μ s₀ s)
    (hm : Sub 0x40040000 μ := by first | assumption | (apply Sub.of <;> first | assumption | rfl))
    : Keeps μ s₀ (State.sendPfc s p pause) := by
  unfold State.sendPfc
  repeat' first
      | (with_reducible first
          | exact hk | exact Keeps.refl _ | apply State.sendFrame_keeps)
      | (apply Sub.of <;> first | assumption | rfl) | dsimp only

theorem State.popRx_keeps {μ : Nat} {s₀ : State} (s : State) (x : Src) (m : VctMsg) (hk
    : Keeps μ s₀ s)
    (hm : Sub 0x40140000 μ := by first | assumption | (apply Sub.of <;> first | assumption | rfl))
    : Keeps μ s₀ (State.popRx s x m) := by
  unfold State.popRx
  repeat' first
      | (with_reducible first
          | exact hk | exact Keeps.refl _ | apply Keeps.ite | apply State.modVct_keeps | apply State.sendPfc_keeps)
      | (intro _ _) | (apply Sub.of <;> first | assumption | rfl) | split | dsimp only

theorem State.dropAudio_keeps {μ : Nat} {s₀ : State} (s : State) (k gen : Nat) (hk
    : Keeps μ s₀ s)
    (hm : Sub 0x10D76C5E8 μ := by first | assumption | (apply Sub.of <;> first | assumption | rfl))
    : Keeps μ s₀ (State.dropAudio s k gen) := by
  unfold State.dropAudio
  repeat' first
      | (with_reducible first
          | exact hk | exact Keeps.refl _ | apply Keeps.ite | apply State.modVct_keeps | apply State.modEgr_keeps
          | apply State.releaseEgress_keeps | apply State.raiseReplayMark_keeps | apply State.closeEgress_keeps
          | apply State.settleStall_keeps | apply forEach_keeps)
      | (intro _ _) | (apply Sub.of <;> first | assumption | rfl) | split | dsimp only

theorem State.killSession_keeps {μ : Nat} {s₀ : State} (s : State) (k : Nat) (hk
    : Keeps μ s₀ s)
    (hm : Sub 0x10D7EC5E8 μ := by first | assumption | (apply Sub.of <;> first | assumption | rfl))
    : Keeps μ s₀ (State.killSession s k) := by
  unfold State.killSession
  repeat' first
      | (with_reducible first
          | exact hk | exact Keeps.refl _ | apply Keeps.ite | apply State.dropHeld_keeps | apply State.modVct_keeps
          | apply State.putSess_keeps | apply State.dropAudio_keeps)
      | (intro _ _) | (apply Sub.of <;> first | assumption | rfl) | split | dsimp only

theorem State.freeSession_keeps {μ : Nat} {s₀ : State} (s : State) (k : Nat) (hk
    : Keeps μ s₀ s)
    (hm : Sub 0x10D7EC5E8 μ := by first | assumption | (apply Sub.of <;> first | assumption | rfl))
    : Keeps μ s₀ (State.freeSession s k) := by
  unfold State.freeSession
  extract_lets v1 v2 v3
  clear_value v1
  clear_value v2
  have h3 : Keeps μ s₀ v3 := by
    unfold v3
    repeat' first
        | (with_reducible first
            | exact hk | exact Keeps.refl _ | apply State.dropHeld_keeps | apply State.modVct_keeps)
        | (intro _ _) | (apply Sub.of <;> first | assumption | rfl) | dsimp only
  clear_value v3
  repeat' first
      | (with_reducible first
          | exact h3 | exact Keeps.refl _ | apply State.putSess_keeps | apply State.dropAudio_keeps)
      | (apply Sub.of <;> first | assumption | rfl) | dsimp only

theorem State.rspAcked_keeps {μ : Nat} {s₀ : State} (s : State) (k : Nat) (hk
    : Keeps μ s₀ s)
    (hm : Sub 0x405C0000 μ := by first | assumption | (apply Sub.of <;> first | assumption | rfl))
    : Keeps μ s₀ (State.rspAcked s k) := by
  unfold State.rspAcked
  extract_lets v1
  have h1 : Keeps μ s₀ v1 := by
    unfold v1
    repeat' first
        | (with_reducible first
            | exact hk | exact Keeps.refl _ | apply State.modSess_keeps)
        | (intro _ _) | (apply Sub.of <;> first | assumption | rfl) | dsimp only
  clear_value v1
  repeat' first
      | (with_reducible first
          | exact h1 | exact Keeps.refl _ | apply State.serveBad_keeps | apply State.modSess_keeps
          | apply State.writeResponse_keeps)
      | (intro _ _) | (apply Sub.of <;> first | assumption | rfl) | split | dsimp only

theorem State.acked_keeps {μ : Nat} {s₀ : State} (s : State) (k : Nat) (m : TxMsg) (hk
    : Keeps μ s₀ s)
    (hm : Sub 0x487C05A0 μ := by first | assumption | (apply Sub.of <;> first | assumption | rfl))
    : Keeps μ s₀ (State.acked s k m) := by
  unfold State.acked
  extract_lets v1 v2
  have h1 : Keeps μ s₀ v1 := by
    unfold v1
    repeat' first
        | (with_reducible first
            | exact hk | exact Keeps.refl _ | apply Keeps.ite | apply State.rspAcked_keeps)
        | (apply Sub.of <;> first | assumption | rfl) | split | dsimp only
  clear_value v1
  have h2 : Keeps μ s₀ v2 := by
    unfold v2
    repeat' first
        | (with_reducible first
            | exact h1 | exact Keeps.refl _ | apply Keeps.ite | apply State.modSess_keeps)
        | (intro _ _) | (apply Sub.of <;> first | assumption | rfl) | split | dsimp only
  clear_value v2
  repeat' first
      | (with_reducible first
          | exact h2 | exact Keeps.refl _ | apply Keeps.ite | apply State.releaseEgress_keeps
          | apply State.closeEgress_keeps | apply State.settleStall_keeps)
      | (apply Sub.of <;> first | assumption | rfl) | split | dsimp only

theorem State.drainTx_keeps {μ : Nat} {s₀ : State} (s : State) (k : Nat) (hk
    : Keeps μ s₀ s)
    (hm : Sub 0x400C0000 μ := by first | assumption | (apply Sub.of <;> first | assumption | rfl))
    : Keeps μ s₀ (State.drainTx s k) := by
  unfold State.drainTx
  extract_lets v1 v2 v3
  clear_value v1
  clear_value v2
  have h3 : Keeps μ s₀ v3 := by
    unfold v3
    repeat' first
        | (with_reducible first
            | exact hk | exact Keeps.refl _ | apply State.putSess_keeps)
        | (apply Sub.of <;> first | assumption | rfl) | dsimp only
  clear_value v3
  repeat' first
      | (with_reducible first
          | exact h3 | exact Keeps.refl _ | apply State.sendVct_keeps | apply forEach_keeps)
      | (intro _ _) | (apply Sub.of <;> first | assumption | rfl) | dsimp only

theorem State.retransmit_keeps {μ : Nat} {s₀ : State} (s : State) (k : Nat) (m : TxMsg) (hk
    : Keeps μ s₀ s)
    (hm : Sub 0x401C0000 μ := by first | assumption | (apply Sub.of <;> first | assumption | rfl))
    : Keeps μ s₀ (State.retransmit s k m) := by
  unfold State.retransmit
  extract_lets v1
  have h1 : Keeps μ s₀ v1 := by
    unfold v1
    repeat' first
        | (with_reducible first
            | exact hk | exact Keeps.refl _ | apply Keeps.ite | apply State.modSess_keeps)
        | (intro _ _) | (apply Sub.of <;> first | assumption | rfl) | split | dsimp only
  clear_value v1
  repeat' first
      | (with_reducible first
          | exact h1 | exact Keeps.refl _ | apply State.modVct_keeps | apply State.sendVct_keeps)
      | (intro _ _) | (apply Sub.of <;> first | assumption | rfl) | dsimp only

theorem State.takeAck_keeps {μ : Nat} {s₀ : State} (s : State) (k : Nat) (m : VctMsg) (hk
    : Keeps μ s₀ s)
    (hm : Sub 0x487C05A0 μ := by first | assumption | (apply Sub.of <;> first | assumption | rfl))
    : Keeps μ s₀ (State.takeAck s k m) := by
  unfold State.takeAck
  extract_lets v1 v2 v3 v4 v5 v6 v7 v8
  clear_value v1
  clear_value v2
  clear_value v3
  have h4 : Keeps μ s₀ v4 := by
    unfold v4
    repeat' first
        | (with_reducible first
            | exact hk | exact Keeps.refl _ | apply Keeps.ite | apply State.putSess_keeps)
        | (intro _ _) | (apply Sub.of <;> first | assumption | rfl) | split | dsimp only
  clear_value v4
  have h5 : Keeps μ s₀ v5 := by
    unfold v5
    repeat' first
        | (with_reducible first
            | exact h4 | exact Keeps.refl _ | apply State.acked_keeps | apply forEach_keeps)
        | (intro _ _) | (apply Sub.of <;> first | assumption | rfl) | dsimp only
  clear_value v5
  clear_value v6
  have h7 : Keeps μ s₀ v7 := by
    unfold v7
    repeat' first
        | (with_reducible first
            | exact h5 | exact Keeps.refl _ | apply Keeps.ite | apply State.modSess_keeps)
        | (intro _ _) | (apply Sub.of <;> first | assumption | rfl) | split | dsimp only
  clear_value v7
  have h8 : Keeps μ s₀ v8 := by
    unfold v8
    repeat' first
        | (with_reducible first
            | exact h7 | exact Keeps.refl _ | apply State.retransmit_keeps | apply forEach_keeps)
        | (intro _ _) | (apply Sub.of <;> first | assumption | rfl) | dsimp only
  clear_value v8
  repeat' first
      | (with_reducible first
          | exact h8 | exact Keeps.refl _ | apply State.drainTx_keeps)
      | (apply Sub.of <;> first | assumption | rfl) | dsimp only

theorem State.sendAck_keeps {μ : Nat} {s₀ : State} (s : State) (k : Nat) (hk
    : Keeps μ s₀ s)
    (hm : Sub 0x40040000 μ := by first | assumption | (apply Sub.of <;> first | assumption | rfl))
    : Keeps μ s₀ (State.sendAck s k) := by
  unfold State.sendAck
  repeat' first
      | (with_reducible first
          | exact hk | exact Keeps.refl _ | apply State.sendVct_keeps)
      | (apply Sub.of <;> first | assumption | rfl) | dsimp only

theorem State.feedPayload_keeps {μ : Nat} {s₀ : State} (s : State) (k : Nat) (b : List Byte) (hk
    : Keeps μ s₀ s)
    (hm : Sub 0x1057FC5FA μ := by first | assumption | (apply Sub.of <;> first | assumption | rfl))
    : Keeps μ s₀ (State.feedPayload s k b) := by
  unfold State.feedPayload
  repeat' first
      | (with_reducible first
          | exact hk | exact Keeps.refl _ | apply State.feed_keeps | apply State.feedRecord_keeps
          | apply forEach_keeps)
      | (intro _ _) | (apply Sub.of <;> first | assumption | rfl) | split | dsimp only

theorem State.pushCommand_keeps {μ : Nat} {s₀ : State} (s : State) (k : Nat) (m : VctMsg) (hk
    : Keeps μ s₀ s)
    (hm : Sub 0x405C0000 μ := by first | assumption | (apply Sub.of <;> first | assumption | rfl))
    : Keeps μ s₀ (State.pushCommand s k m) := by
  unfold State.pushCommand
  extract_lets v1
  have h1 : Keeps μ s₀ v1 := by
    unfold v1
    repeat' first
        | (with_reducible first
            | exact hk | exact Keeps.refl _ | apply State.modSess_keeps)
        | (intro _ _) | (apply Sub.of <;> first | assumption | rfl) | dsimp only
  clear_value v1
  repeat' first
      | (with_reducible first
          | exact h1 | exact Keeps.refl _ | apply State.serveBad_keeps)
      | (apply Sub.of <;> first | assumption | rfl) | dsimp only

theorem State.deliver_keeps {μ : Nat} {s₀ : State} (k fuel : Nat) (s : State) (hk
    : Keeps μ s₀ s)
    (hm : Sub 0x1457FC5FA μ := by first | assumption | (apply Sub.of <;> first | assumption | rfl)) :
    Keeps μ s₀ (State.deliver k fuel s) := by
  induction fuel generalizing s with
  | zero => exact hk
  | succ fuel ih =>
    unfold State.deliver
    dsimp only
    split
    · exact hk
    · split
      · exact hk
      · rename_i m ms _ _
        have h := State.putSess_keeps s k { s.sess k with rxHeld := ms, rxNext := (s.sess k).rxNext + 1 } hk
        exact ih _ (.ite (State.pushCommand_keeps _ _ _ h) (State.feedPayload_keeps _ _ _ h))

theorem State.takeSeq_keeps {μ : Nat} {s₀ : State} (s : State) (k : Nat) (m : VctMsg) (hk
    : Keeps μ s₀ s)
    (hm : Sub 0x1457FC5FA μ := by first | assumption | (apply Sub.of <;> first | assumption | rfl))
    : Keeps μ s₀ (State.takeSeq s k m) := by
  unfold State.takeSeq
  extract_lets v1 v2 v3
  clear_value v1
  clear_value v2
  have h3 : Keeps μ s₀ v3 := by
    unfold v3
    repeat' first
        | (with_reducible first
            | exact hk | exact Keeps.refl _ | apply Keeps.ite | apply State.modSess_keeps | apply State.deliver_keeps)
        | (intro _ _) | (apply Sub.of <;> first | assumption | rfl) | split | dsimp only
  clear_value v3
  repeat' first
      | (with_reducible first
          | exact h3 | exact Keeps.refl _ | apply Keeps.ite | apply State.sendAck_keeps)
      | (apply Sub.of <;> first | assumption | rfl) | split | dsimp only

theorem receive_keeps {μ : Nat} {s₀ : State} (type : Nat) (x : Src) (m : VctMsg) (f : State → State)
    (s : State) (hf : ∀ t u, Keeps μ t u → Keeps μ t (f u)) (hk : Keeps μ s₀ s)
    (hm : Sub 0x40140000 μ := by first | assumption | (apply Sub.of <;> first | assumption | rfl))
    : Keeps μ s₀ (receive type x m f s) := by
  unfold receive
  extract_lets v1
  have h1 : Keeps μ s₀ v1 := by
    unfold v1
    repeat' first
        | (with_reducible first
            | exact hk | exact Keeps.refl _ | apply State.popRx_keeps | apply hf)
        | (apply Sub.of <;> first | assumption | rfl) | dsimp only
  clear_value v1
  repeat' first
      | (with_reducible first
          | exact h1 | exact Keeps.refl _ | apply Keeps.ite | apply State.modVct_keeps | apply State.vctBad_keeps
          | apply hf)
      | (intro _ _) | (apply Sub.of <;> first | assumption | rfl) | split | dsimp only

theorem inSession_keeps {μ : Nat} {s₀ : State} (x : Src) (m : VctMsg) (f : Nat → State → State) (s : State)
    (hf : ∀ k t u, Keeps μ t u → Keeps μ t (f k u)) (hk : Keeps μ s₀ s)
    (hm : Sub 0x487C05A0 μ := by first | assumption | (apply Sub.of <;> first | assumption | rfl))
    : Keeps μ s₀ (inSession x m f s) := by
  unfold inSession
  repeat' first
      | (with_reducible first
          | exact hk | exact Keeps.refl _ | apply Keeps.ite | apply State.vctBad_keeps | apply State.takeAck_keeps
          | apply hf)
      | (apply Sub.of <;> first | assumption | rfl) | split | dsimp only

theorem State.refuseOpen_keeps {μ : Nat} {s₀ : State} (s : State) (x : Src) (m : VctMsg) (hk
    : Keeps μ s₀ s)
    (hm : Sub 0x40140000 μ := by first | assumption | (apply Sub.of <;> first | assumption | rfl))
    : Keeps μ s₀ (State.refuseOpen s x m) := by
  unfold State.refuseOpen
  repeat' first
      | (with_reducible first
          | exact hk | exact Keeps.refl _ | apply State.sendOn_keeps | apply State.vctBad_keeps)
      | (apply Sub.of <;> first | assumption | rfl) | dsimp only

theorem State.open__keeps {μ : Nat} {s₀ : State} (s : State) (x : Src) (m : VctMsg) (hk
    : Keeps μ s₀ s)
    (hm : Sub 0x401C0000 μ := by first | assumption | (apply Sub.of <;> first | assumption | rfl))
    : Keeps μ s₀ (State.open_ s x m) := by
  unfold State.open_
  repeat' first
      | (with_reducible first
          | exact hk | exact Keeps.refl _ | apply Keeps.ite | apply State.refuseOpen_keeps | apply State.putSess_keeps
          | apply State.sendOn_keeps)
      | (intro _ _) | (apply Sub.of <;> first | assumption | rfl) | split | dsimp only

theorem execVctOpen_keeps {src : Src} {m : VctMsg} {s : State} {t : State} (h : execVctOpen src m s = .next t)
    : Keeps 0x401C0000 s t := by
  have hm := Sub.refl 0x401C0000
  unfold execVctOpen at h
  refine runPort_keeps ?_ h
  intro _
  repeat' first
      | (with_reducible first
          | exact Keeps.refl _ | apply Keeps.ite | apply receive_keeps | apply State.open__keeps | apply receive_keeps
          | apply inSession_keeps | exact Keeps.id_ _ | assumption)
      | (apply Sub.of <;> first | assumption | rfl) | split | dsimp only | intro _

theorem execVctClose_keeps {src : Src} {m : VctMsg} {s : State} {t : State}
    (h : execVctClose src m s = .next t) : Keeps 0x14D7EC5E8 s t := by
  have hm := Sub.refl 0x14D7EC5E8
  unfold execVctClose at h
  refine runPort_keeps ?_ h
  intro _
  repeat' first
      | (with_reducible first
          | exact Keeps.refl _ | apply Keeps.ite | apply receive_keeps | apply inSession_keeps
          | apply State.freeSession_keeps | apply receive_keeps | apply inSession_keeps | exact Keeps.id_ _
          | assumption)
      | (apply Sub.of <;> first | assumption | rfl) | split | dsimp only | intro _

theorem execVctAck_keeps {src : Src} {m : VctMsg} {s : State} {t : State} (h : execVctAck src m s = .next t)
    : Keeps 0x487C05A0 s t := by
  have hm := Sub.refl 0x487C05A0
  unfold execVctAck at h
  refine runPort_keeps ?_ h
  intro _
  repeat' first
      | (with_reducible first
          | exact Keeps.refl _ | apply Keeps.ite | apply receive_keeps | apply inSession_keeps | apply receive_keeps
          | apply inSession_keeps | exact Keeps.id_ _ | assumption)
      | (apply Sub.of <;> first | assumption | rfl) | split | dsimp only | intro _

theorem execVctCommand_keeps {src : Src} {m : VctMsg} {s : State} {t : State}
    (h : execVctCommand src m s = .next t) : Keeps 0x14D7FC5FA s t := by
  have hm := Sub.refl 0x14D7FC5FA
  unfold execVctCommand at h
  refine runPort_keeps ?_ h
  intro _
  repeat' first
      | (with_reducible first
          | exact Keeps.refl _ | apply Keeps.ite | apply receive_keeps | apply inSession_keeps
          | apply State.takeSeq_keeps | apply receive_keeps | apply inSession_keeps | exact Keeps.id_ _ | assumption)
      | (apply Sub.of <;> first | assumption | rfl) | split | dsimp only | intro _

theorem execVctFeed_keeps {src : Src} {m : VctMsg} {s : State} {t : State} (h : execVctFeed src m s = .next t)
    : Keeps 0x14D7FC5FA s t := by
  have hm := Sub.refl 0x14D7FC5FA
  unfold execVctFeed at h
  refine runPort_keeps ?_ h
  intro _
  repeat' first
      | (with_reducible first
          | exact Keeps.refl _ | apply Keeps.ite | apply receive_keeps | apply inSession_keeps
          | apply State.takeSeq_keeps | apply receive_keeps | apply inSession_keeps | exact Keeps.id_ _ | assumption)
      | (apply Sub.of <;> first | assumption | rfl) | split | dsimp only | intro _

theorem State.dropFrame_keeps {μ : Nat} {s₀ : State} (s : State) (p : Nat) (hk
    : Keeps μ s₀ s) (hm : Sub 0x40000 μ := by first | assumption | (apply Sub.of <;> first | assumption | rfl))
    : Keeps μ s₀ (State.dropFrame s p) := by
  unfold State.dropFrame
  repeat' first
      | (with_reducible first
          | exact hk | exact Keeps.refl _ | apply State.modNet_keeps)
      | (intro _ _) | (apply Sub.of <;> first | assumption | rfl) | dsimp only

theorem State.answerFrame_keeps {μ : Nat} {s₀ : State} (s : State) (p kind : Nat) (mac : BitVec 48)
    (dst : BitVec 128) (data : List Byte) (hk : Keeps μ s₀ s)
    (hm : Sub 0x40040000 μ := by first | assumption | (apply Sub.of <;> first | assumption | rfl))
    : Keeps μ s₀ (State.answerFrame s p kind mac dst data) := by
  unfold State.answerFrame
  repeat' first
      | (with_reducible first
          | exact hk | exact Keeps.refl _ | apply State.sendOn_keeps | apply State.reply_keeps)
      | (apply Sub.of <;> first | assumption | rfl) | dsimp only

theorem State.pushRx_keeps {μ : Nat} {s₀ : State} (s : State) (x : Src) (m : VctMsg) (hk
    : Keeps μ s₀ s)
    (hm : Sub 0x40140000 μ := by first | assumption | (apply Sub.of <;> first | assumption | rfl))
    : Keeps μ s₀ (State.pushRx s x m) := by
  unfold State.pushRx
  extract_lets v1
  have h1 : Keeps μ s₀ v1 := by
    unfold v1
    repeat' first
        | (with_reducible first
            | exact hk | exact Keeps.refl _ | apply State.modVct_keeps)
        | (intro _ _) | (apply Sub.of <;> first | assumption | rfl) | dsimp only
  clear_value v1
  repeat' first
      | (with_reducible first
          | exact h1 | exact Keeps.refl _ | apply Keeps.ite | apply State.modVct_keeps | apply State.sendPfc_keeps)
      | (intro _ _) | (apply Sub.of <;> first | assumption | rfl) | split | dsimp only

theorem State.datagram_keeps {μ : Nat} {s₀ : State} (s : State) (x : Src) (len : Nat) (csumOk : Bool)
    (data : List Byte) (hk : Keeps μ s₀ s)
    (hm : Sub 0x40140000 μ := by first | assumption | (apply Sub.of <;> first | assumption | rfl))
    : Keeps μ s₀ (State.datagram s x len csumOk data) := by
  unfold State.datagram
  repeat' first
      | (with_reducible first
          | exact hk | exact Keeps.refl _ | apply Keeps.ite | apply State.modVct_keeps | apply State.vctBad_keeps
          | apply State.pushRx_keeps)
      | (intro _ _) | (apply Sub.of <;> first | assumption | rfl) | split | dsimp only

theorem State.frameBody_keeps {μ : Nat} {s₀ : State} (s : State) (p : Nat) (f : Frame) (hk
    : Keeps μ s₀ s)
    (hm : Sub 0x40140000 μ := by first | assumption | (apply Sub.of <;> first | assumption | rfl))
    : Keeps μ s₀ (State.frameBody s p f) := by
  unfold State.frameBody
  repeat' first
      | (with_reducible first
          | exact hk | exact Keeps.refl _ | apply Keeps.ite | apply State.modNet_keeps | apply State.sendHeld_keeps
          | apply State.dropFrame_keeps | apply State.answerFrame_keeps | apply State.datagram_keeps)
      | (intro _ _) | (apply Sub.of <;> first | assumption | rfl) | split | dsimp only

theorem State.receiveFrame_keeps {μ : Nat} {s₀ : State} (s : State) (port : Nat) (f : Frame) (hk
    : Keeps μ s₀ s)
    (hm : Sub 0x40140000 μ := by first | assumption | (apply Sub.of <;> first | assumption | rfl))
    : Keeps μ s₀ (State.receiveFrame s port f) := by
  unfold State.receiveFrame
  extract_lets v1 v2
  have h1 : Keeps μ s₀ v1 := by
    unfold v1
    repeat' first
        | (with_reducible first
            | exact hk | exact Keeps.refl _ | apply State.modNet_keeps)
        | (intro _ _) | (apply Sub.of <;> first | assumption | rfl) | dsimp only
  clear_value v1
  clear_value v2
  repeat' first
      | (with_reducible first
          | exact h1 | exact Keeps.refl _ | apply Keeps.ite | apply State.dropFrame_keeps | apply State.modNet_keeps
          | apply State.frameBody_keeps)
      | (intro _ _) | (apply Sub.of <;> first | assumption | rfl) | split | dsimp only

theorem execFrameReceive_keeps {port : Nat} {f : Frame} {s : State} {t : State}
    (h : execFrameReceive port f s = .next t) : Keeps 0x40140000 s t := by
  have hm := Sub.refl 0x40140000
  unfold execFrameReceive at h
  refine runPort_keeps ?_ h
  intro _
  repeat' first
      | (with_reducible first
          | exact Keeps.refl _ | apply Keeps.ite | apply State.receiveFrame_keeps | apply receive_keeps
          | apply inSession_keeps | exact Keeps.id_ _ | assumption)
      | (apply Sub.of <;> first | assumption | rfl) | split | dsimp only | intro _

theorem execPfcPauseExpire_keeps {port priority : Nat} {s : State} {t : State}
    (h : execPfcPauseExpire port priority s = .next t) : Keeps 0x40040000 s t := by
  have hm := Sub.refl 0x40040000
  unfold execPfcPauseExpire at h
  refine run_keeps ?_ h
  intro _
  repeat' first
      | (with_reducible first
          | exact Keeps.refl _ | apply Keeps.ite | apply State.modNet_keeps | apply State.sendHeld_keeps
          | apply Keeps.free | apply Keeps.mem | apply Keeps.jtag | exact Keeps.id_ _ | assumption)
      | (apply Sub.of <;> first | assumption | rfl) | split | dsimp only | intro _

theorem execRetransmissionTimeout_keeps {session : Nat} {seq : BitVec 32} {s : State} {t : State}
    (h : execRetransmissionTimeout session seq s = .next t) : Keeps 0x14D7EC5E8 s t := by
  have hm := Sub.refl 0x14D7EC5E8
  unfold execRetransmissionTimeout at h
  refine run_keeps ?_ h
  intro _
  repeat' first
      | (with_reducible first
          | exact Keeps.refl _ | apply Keeps.ite | apply clerk_keeps | apply State.killSession_keeps
          | apply State.retransmit_keeps | exact Keeps.id_ _ | assumption)
      | exact Or.inl ⟨rfl, rfl⟩ | refine Or.inr ?_ | (apply Sub.of <;> first | assumption | rfl) | split | dsimp only
      | intro _

theorem execSessionSilenceTimeout_keeps {session : Nat} {s : State} {t : State}
    (h : execSessionSilenceTimeout session s = .next t) : Keeps 0x10D7EC5E8 s t := by
  have hm := Sub.refl 0x10D7EC5E8
  unfold execSessionSilenceTimeout at h
  refine run_keeps ?_ h
  intro _
  repeat' first
      | (with_reducible first
          | exact Keeps.refl _ | apply Keeps.ite | apply State.killSession_keeps | exact Keeps.id_ _ | assumption)
      | (apply Sub.of <;> first | assumption | rfl) | split | dsimp only | intro _

theorem execSessionFreeTimeout_keeps {session : Nat} {s : State} {t : State}
    (h : execSessionFreeTimeout session s = .next t) : Keeps 0x10D7EC5E8 s t := by
  have hm := Sub.refl 0x10D7EC5E8
  unfold execSessionFreeTimeout at h
  refine run_keeps ?_ h
  intro _
  repeat' first
      | (with_reducible first
          | exact Keeps.refl _ | apply Keeps.ite | apply State.freeSession_keeps | exact Keeps.id_ _ | assumption)
      | (apply Sub.of <;> first | assumption | rfl) | split | dsimp only | intro _

theorem execSnapshotExpire_keeps {session : Nat} {report : Bool} {s : State} {t : State}
    (h : execSnapshotExpire session report s = .next t) : Keeps 0x80000 s t := by
  have hm := Sub.refl 0x80000
  unfold execSnapshotExpire at h
  refine run_keeps ?_ h
  intro _
  repeat' first
      | (with_reducible first
          | exact Keeps.refl _ | apply Keeps.ite | apply State.modSess_keeps | exact Keeps.id_ _ | assumption)
      | (apply Sub.of <;> first | assumption | rfl) | split | dsimp only | intro _

theorem execCrier_keeps {source : Nat} {s : State} {t : State} (h : execCrier source s = .next t)
    : Keeps 0x403C0000 s t := by
  have hm := Sub.refl 0x403C0000
  unfold execCrier at h
  refine run_keeps ?_ h
  intro _
  repeat' first
      | (with_reducible first
          | exact Keeps.refl _ | apply Keeps.ite | apply clerk_keeps | apply State.putCrierSrc_keeps
          | apply State.post_keeps | apply forEach_keeps | exact Keeps.id_ _ | assumption)
      | exact Or.inl ⟨rfl, rfl⟩ | refine Or.inr ?_ | refine Keeps.of_snd (by assumption) ?_
      | refine Keeps.of_fst (by assumption) ?_ | (apply Sub.of <;> first | assumption | rfl) | split | dsimp only
      | intro _

theorem execHeartbeatRaise_keeps {missed : List Probe} {s : State} {t : State}
    (h : execHeartbeatRaise missed s = .next t) : Keeps 0xD97D5FF0 s t := by
  have hm := Sub.refl 0xD97D5FF0
  unfold execHeartbeatRaise at h
  refine run_keeps ?_ h
  intro _
  repeat' first
      | (with_reducible first
          | exact Keeps.refl _ | apply Keeps.ite | apply clerk_keeps | apply State.modClerk_keeps
          | apply State.retirePress_keeps | apply forEach_keeps | exact Keeps.id_ _ | assumption)
      | exact Or.inl ⟨rfl, rfl⟩ | refine Or.inr ?_ | (apply Sub.of <;> first | assumption | rfl) | split | dsimp only
      | intro _

theorem execHeartbeatSend_keeps {session : Nat} {s : State} {t : State}
    (h : execHeartbeatSend session s = .next t) : Keeps 0x400C0000 s t := by
  have hm := Sub.refl 0x400C0000
  unfold execHeartbeatSend at h
  refine run_keeps ?_ h
  intro _
  repeat' first
      | (with_reducible first
          | exact Keeps.refl _ | apply Keeps.ite | apply clerk_keeps | apply State.modSess_keeps
          | apply State.sendVct_keeps | exact Keeps.id_ _ | assumption)
      | exact Or.inl ⟨rfl, rfl⟩ | refine Or.inr ?_ | (apply Sub.of <;> first | assumption | rfl) | split | dsimp only
      | intro _

theorem execClerkWatchdog_keeps {_core : Nat} {s : State} {t : State} (h : execClerkWatchdog _core s = .next t)
    : Keeps 0x56400A8 s t := by
  have hm := Sub.refl 0x56400A8
  have hf : ∀ u : State, Keeps 0x56400A8 u (if u.awake then u.failModule 2 else u) := fun u =>
    .ite (State.failModule_keeps _ _ (.refl u)) (.refl u)
  unfold execClerkWatchdog at h
  dsimp only at h
  split at h
  · injection h with h; exact h ▸ hf s
  · exact run_keeps hf h

end Sys2Proof.Machine
end

