-- ==== Sys2Proof/Laws/Egress.lean ====
section
/-! SUPPORT. What egress and links keep: the queue of waiting commands, memory's canonical form, and the parts of the state that each
never writes (a mask over `Field`, by index). -/

namespace Sys2Proof.Machine
set_option Elab.async false

theorem State.afterPacket_keeps {μ : Nat} {s₀ : State} (s : State) (n : Nat) (hk
    : Keeps μ s₀ s) (hm : Sub 0x86005A0 μ := by first | assumption | (apply Sub.of <;> first | assumption | rfl))
    : Keeps μ s₀ (State.afterPacket s n) := by
  unfold State.afterPacket
  repeat' first
      | (with_reducible first
          | exact hk | exact Keeps.refl _ | apply State.closeEgress_keeps | apply State.settleStall_keeps)
      | (apply Sub.of <;> first | assumption | rfl) | dsimp only

theorem State.leftTo_keeps {μ : Nat} {s₀ : State} (s : State) (n stop : Nat) (hk
    : Keeps μ s₀ s)
    (hm : Sub 0x10D66C5E8 μ := by first | assumption | (apply Sub.of <;> first | assumption | rfl))
    : Keeps μ s₀ (State.leftTo s n stop) := by
  unfold State.leftTo
  repeat' first
      | (with_reducible first
          | exact hk | exact Keeps.refl _ | apply State.releaseEgress_keeps | apply State.raiseReplayMark_keeps
          | apply State.afterPacket_keeps)
      | (apply Sub.of <;> first | assumption | rfl) | dsimp only

theorem State.sendRtp_keeps {μ : Nat} {s₀ : State} (s : State) (n : Nat) (hk
    : Keeps μ s₀ s)
    (hm : Sub 0x14D76C5E8 μ := by first | assumption | (apply Sub.of <;> first | assumption | rfl))
    : Keeps μ s₀ (State.sendRtp s n) := by
  unfold State.sendRtp
  repeat' first
      | (with_reducible first
          | exact hk | exact Keeps.refl _ | apply Keeps.ite | apply State.modNet_keeps | apply State.modVct_keeps
          | apply State.emit_keeps | apply State.putEgr_keeps | apply State.leftTo_keeps)
      | (intro _ _) | (apply Sub.of <;> first | assumption | rfl) | split | dsimp only

theorem execRtpPacketSend_keeps {stream : Nat} {s : State} {t : State}
    (h : execRtpPacketSend stream s = .next t) : Keeps 0x14D76C5E8 s t := by
  have hm := Sub.refl 0x14D76C5E8
  unfold execRtpPacketSend at h
  refine run_keeps ?_ h
  intro _
  repeat' first
      | (with_reducible first
          | exact Keeps.refl _ | apply Keeps.ite | apply clerk_keeps | apply State.sendRtp_keeps | exact Keeps.id_ _
          | assumption)
      | exact Or.inl ⟨rfl, rfl⟩ | refine Or.inr ?_ | (apply Sub.of <;> first | assumption | rfl) | split | dsimp only
      | intro _

theorem State.sendAudio_keeps {μ : Nat} {s₀ : State} (s : State) (n : Nat) (hk
    : Keeps μ s₀ s)
    (hm : Sub 0x14D7EC5E8 μ := by first | assumption | (apply Sub.of <;> first | assumption | rfl))
    : Keeps μ s₀ (State.sendAudio s n) := by
  unfold State.sendAudio
  repeat' first
      | (with_reducible first
          | exact hk | exact Keeps.refl _ | apply Keeps.ite | apply State.putEgr_keeps | apply State.post_keeps
          | apply State.raiseReplayMark_keeps | apply State.modVct_keeps | apply State.leftTo_keeps)
      | (intro _ _) | (apply Sub.of <;> first | assumption | rfl) | split | dsimp only

theorem execAudio_keeps {stream : Nat} {s : State} {t : State} (h : execAudio stream s = .next t)
    : Keeps 0x14D7EC5E8 s t := by
  have hm := Sub.refl 0x14D7EC5E8
  unfold execAudio at h
  refine run_keeps ?_ h
  intro _
  repeat' first
      | (with_reducible first
          | exact Keeps.refl _ | apply Keeps.ite | apply clerk_keeps | apply State.sendAudio_keeps | exact Keeps.id_ _
          | assumption)
      | exact Or.inl ⟨rfl, rfl⟩ | refine Or.inr ?_ | (apply Sub.of <;> first | assumption | rfl) | split | dsimp only
      | intro _

theorem execLinkDown_keeps {port : Nat} {s : State} {t : State} (h : execLinkDown port s = .next t)
    : Keeps 0x10640004 s t := by
  have hm := Sub.refl 0x10640004
  unfold execLinkDown at h
  refine run_keeps ?_ h
  intro _
  repeat' first
      | (with_reducible first
          | exact Keeps.refl _ | apply Keeps.ite | apply State.dropLink_keeps | exact Keeps.id_ _ | assumption)
      | (apply Sub.of <;> first | assumption | rfl) | split | dsimp only | intro _

theorem execLinkUp_keeps {port : Nat} {s : State} {t : State} (h : execLinkUp port s = .next t)
    : Keeps 0x640000 s t := by
  have hm := Sub.refl 0x640000
  unfold execLinkUp at h
  refine run_keeps ?_ h
  intro _
  repeat' first
      | (with_reducible first
          | exact Keeps.refl _ | apply Keeps.ite | apply State.modNet_keeps | apply State.linkEvent_keeps
          | apply Keeps.free | apply Keeps.mem | apply Keeps.jtag | exact Keeps.id_ _ | assumption)
      | (apply Sub.of <;> first | assumption | rfl) | split | dsimp only | intro _

end Sys2Proof.Machine
end

