-- ==== Sys2Proof/Laws/Sap.lean ====
section
/-! SUPPORT. What serial audio keep: the queue of waiting commands, memory's canonical form, and the parts of the state that each
never writes (a mask over `Field`, by index). -/

namespace Sys2Proof.Machine
set_option Elab.async false

theorem State.sapEvent_keeps {μ : Nat} {s₀ : State} (s : State) (p kind slot : Nat) (hk
    : Keeps μ s₀ s) (hm : Sub 0x600000 μ := by first | assumption | (apply Sub.of <;> first | assumption | rfl))
    : Keeps μ s₀ (State.sapEvent s p kind slot) := by
  unfold State.sapEvent
  repeat' first
      | (with_reducible first
          | exact hk | exact Keeps.refl _ | apply State.raise_keeps)
      | (apply Sub.of <;> first | assumption | rfl) | dsimp only

theorem State.switchMux_keeps {μ : Nat} {s₀ : State} (s : State) (p mclk : Nat) (hk
    : Keeps μ s₀ s)
    (hm : Sub 0x18000000 μ := by first | assumption | (apply Sub.of <;> first | assumption | rfl))
    : Keeps μ s₀ (State.switchMux s p mclk) := by
  unfold State.switchMux
  repeat' first
      | (with_reducible first
          | exact hk | exact Keeps.refl _ | apply Keeps.ite | apply State.modClk_keeps | apply State.modSap_keeps)
      | (intro _ _) | (apply Sub.of <;> first | assumption | rfl) | split | dsimp only

theorem State.stopPort_keeps {μ : Nat} {s₀ : State} (s : State) (p : Nat) (hk
    : Keeps μ s₀ s)
    (hm : Sub 0x585C0000 μ := by first | assumption | (apply Sub.of <;> first | assumption | rfl))
    : Keeps μ s₀ (State.stopPort s p) := by
  unfold State.stopPort
  extract_lets v1 v2 v3
  clear_value v1
  have h2 : Keeps μ s₀ v2 := by
    unfold v2
    repeat' first
        | (with_reducible first
            | exact hk | exact Keeps.refl _ | apply Keeps.ite | apply State.modClk_keeps)
        | (intro _ _) | (apply Sub.of <;> first | assumption | rfl) | split | dsimp only
  clear_value v2
  have h3 : Keeps μ s₀ v3 := by
    unfold v3
    repeat' first
        | (with_reducible first
            | exact h2 | exact Keeps.refl _ | apply State.modSap_keeps)
        | (intro _ _) | (apply Sub.of <;> first | assumption | rfl) | dsimp only
  clear_value v3
  repeat' first
      | (with_reducible first
          | exact h3 | exact Keeps.refl _ | apply State.respond_keeps | apply forEach_keeps)
      | (intro _ _) | (apply Sub.of <;> first | assumption | rfl) | dsimp only

theorem State.configPort_keeps {μ : Nat} {s₀ : State} (s : State) (p : Nat) (body : List Byte) (hk
    : Keeps μ s₀ s)
    (hm : Sub 0x585C0000 μ := by first | assumption | (apply Sub.of <;> first | assumption | rfl))
    : Keeps μ s₀ (State.configPort s p body) := by
  unfold State.configPort
  extract_lets v1 v2
  have h1 : Keeps μ s₀ v1 := by
    unfold v1
    repeat' first
        | (with_reducible first
            | exact hk | exact Keeps.refl _ | apply State.stopPort_keeps)
        | (apply Sub.of <;> first | assumption | rfl) | dsimp only
  clear_value v1
  have h2 : Keeps μ s₀ v2 := by
    unfold v2
    repeat' first
        | (with_reducible first
            | exact h1 | exact Keeps.refl _ | apply State.modSap_keeps)
        | (intro _ _) | (apply Sub.of <;> first | assumption | rfl) | dsimp only
  clear_value v2
  repeat' first
      | (with_reducible first
          | exact h2 | exact Keeps.refl _ | apply Keeps.ite | apply State.switchMux_keeps)
      | (apply Sub.of <;> first | assumption | rfl) | split | dsimp only

theorem sapConfigOwn_keeps {μ : Nat} (body : List Byte) (s : State)
    (hm : Sub 0x585C0000 μ := by first | assumption | (apply Sub.of <;> first | assumption | rfl))
    : ActKeeps μ (sapConfigOwn body s) := by
  unfold sapConfigOwn
  repeat' first
      | (with_reducible first
          | exact Keeps.refl _ | exact ActKeeps.no _ | exact ActKeeps.conflict _ | exact OptKeeps.none
          | apply ActKeeps.ite | apply OptKeeps.ite | apply Keeps.ite | apply OptKeeps.some | apply ActKeeps.ok
          | apply ActKeeps.done | apply ActKeeps.later | apply ActKeeps.refuse | apply State.configPort_keeps
          | exact Keeps.id_ _ | assumption)
      | (apply Sub.of <;> first | assumption | rfl) | split | dsimp only | intro _

theorem execSapConfig_keeps {h : CmdHdr} {body : List Byte} {s : State} {t : State}
    (h : execSapConfig h body s = .next t) : Keeps 0x5C5C0000 s t := by
  have hm := Sub.refl 0x5C5C0000
  unfold execSapConfig at h
  refine run_keeps ?_ h
  intro _
  repeat' first
      | (with_reducible first
          | exact Keeps.refl _ | apply Keeps.ite | apply clerk_keeps | apply sapConfigOwn_keeps | apply clerk_keeps
          | exact Keeps.id_ _ | assumption)
      | exact Or.inl ⟨rfl, rfl⟩ | refine Or.inr ?_ | (apply Sub.of <;> first | assumption | rfl) | split | dsimp only
      | intro _

theorem sapSlotmaskOwn_keeps {μ : Nat} (h : CmdHdr) (body : List Byte) (s : State)
    (hm : Sub 0x8000000 μ := by first | assumption | (apply Sub.of <;> first | assumption | rfl))
    : ActKeeps μ (sapSlotmaskOwn h body s) := by
  exact .ite (.no _) (.ite (.ok Keeps.refl) (.later (fun t => State.modSap_keeps _ _ _ (.refl t))))

theorem execSapSlotmask_keeps {h : CmdHdr} {body : List Byte} {s : State} {t : State}
    (h : execSapSlotmask h body s = .next t) : Keeps 0x4C5C0000 s t := by
  have hm := Sub.refl 0x4C5C0000
  unfold execSapSlotmask at h
  refine run_keeps ?_ h
  intro _
  repeat' first
      | (with_reducible first
          | exact Keeps.refl _ | apply Keeps.ite | apply clerk_keeps | apply sapSlotmaskOwn_keeps | apply clerk_keeps
          | exact Keeps.id_ _ | assumption)
      | exact Or.inl ⟨rfl, rfl⟩ | refine Or.inr ?_ | (apply Sub.of <;> first | assumption | rfl) | split | dsimp only
      | intro _

theorem State.commitMask_keeps {μ : Nat} {s₀ : State} (s : State) (p : Nat) (hk
    : Keeps μ s₀ s) (hm : Sub 0x485C0000 μ := by first | assumption | (apply Sub.of <;> first | assumption | rfl)) :
    Keeps μ s₀ (State.commitMask s p) := by
  unfold State.commitMask
  split
  · exact hk
  · exact State.respond_keeps _ _ _ _ _ (State.modSap_keeps _ _ _ hk)

theorem execSapMaskCommit_keeps {port : Nat} {s : State} {t : State} (h : execSapMaskCommit port s = .next t)
    : Keeps 0x485C0000 s t := by
  have hm := Sub.refl 0x485C0000
  unfold execSapMaskCommit at h
  refine run_keeps ?_ h
  intro _
  repeat' first
      | (with_reducible first
          | exact Keeps.refl _ | apply Keeps.ite | apply State.commitMask_keeps | exact Keeps.id_ _ | assumption)
      | (apply Sub.of <;> first | assumption | rfl) | split | dsimp only | intro _

theorem State.flushPackets_keeps {μ : Nat} {s₀ : State} (n fuel : Nat) (s : State) (hk
    : Keeps μ s₀ s)
    (hm : Sub 0x14D7EC5E8 μ := by first | assumption | (apply Sub.of <;> first | assumption | rfl)) :
    Keeps μ s₀ (State.flushPackets n fuel s) := by
  induction fuel generalizing s with
  | zero => exact hk
  | succ fuel ih =>
    unfold State.flushPackets
    exact .ite (ih _ (State.sendRtp_keeps _ _ hk)) (.ite (ih _ (State.sendAudio_keeps _ _ hk)) hk)

theorem State.leaveBinding_keeps {μ : Nat} {s₀ : State} (s : State) (n : Nat) (hk
    : Keeps μ s₀ s)
    (hm : Sub 0x14D7EC5E8 μ := by first | assumption | (apply Sub.of <;> first | assumption | rfl)) :
    Keeps μ s₀ (State.leaveBinding s n) := by
  exact State.unbindSlot_keeps _ _ _ (State.flushPackets_keeps _ _ _ hk)

theorem State.bindSlot_keeps {μ : Nat} {s₀ : State} (s : State) (n j group codec : Nat) (hold : Bool) (hk
    : Keeps μ s₀ s)
    (hm : Sub 0x14D7EC5F8 μ := by first | assumption | (apply Sub.of <;> first | assumption | rfl))
    : Keeps μ s₀ (State.bindSlot s n j group codec hold) := by
  unfold State.bindSlot
  extract_lets v1 v2
  have h1 : Keeps μ s₀ v1 := by
    unfold v1
    repeat' first
        | (with_reducible first
            | exact hk | exact Keeps.refl _ | apply State.leaveBinding_keeps)
        | (apply Sub.of <;> first | assumption | rfl) | dsimp only
  clear_value v1
  have h2 : Keeps μ s₀ v2 := by
    unfold v2
    repeat' first
        | (with_reducible first
            | exact h1 | exact Keeps.refl _ | apply State.modStream_keeps | apply State.modEgr_keeps)
        | (intro _ _) | (apply Sub.of <;> first | assumption | rfl) | dsimp only
  clear_value v2
  repeat' first
      | (with_reducible first
          | exact h2 | exact Keeps.refl _ | apply State.modSap_keeps)
      | (intro _ _) | (apply Sub.of <;> first | assumption | rfl) | dsimp only

theorem State.unbindStream_keeps {μ : Nat} {s₀ : State} (s : State) (n : Nat) (hk
    : Keeps μ s₀ s)
    (hm : Sub 0x14D7EC5F8 μ := by first | assumption | (apply Sub.of <;> first | assumption | rfl))
    : Keeps μ s₀ (State.unbindStream s n) := by
  unfold State.unbindStream
  extract_lets v1 v2 v3 v4
  have h1 : Keeps μ s₀ v1 := by
    unfold v1
    repeat' first
        | (with_reducible first
            | exact hk | exact Keeps.refl _ | apply State.leaveBinding_keeps)
        | (apply Sub.of <;> first | assumption | rfl) | dsimp only
  clear_value v1
  clear_value v2
  have h3 : Keeps μ s₀ v3 := by
    unfold v3
    repeat' first
        | (with_reducible first
            | exact h1 | exact Keeps.refl _ | apply State.dropEgress_keeps)
        | (apply Sub.of <;> first | assumption | rfl) | dsimp only
  clear_value v3
  clear_value v4
  repeat' first
      | (with_reducible first
          | exact h3 | exact Keeps.refl _ | apply State.modStream_keeps | apply State.modEgr_keeps)
      | (intro _ _) | (apply Sub.of <;> first | assumption | rfl) | dsimp only

theorem sapBindOwn_keeps {μ : Nat} (h : CmdHdr) (body : List Byte) (s : State)
    (hm : Sub 0x14D7EC5F8 μ := by first | assumption | (apply Sub.of <;> first | assumption | rfl))
    : ActKeeps μ (sapBindOwn h body s) := by
  unfold sapBindOwn
  repeat' first
      | (with_reducible first
          | exact Keeps.refl _ | exact ActKeeps.no _ | exact ActKeeps.conflict _ | exact OptKeeps.none
          | apply ActKeeps.ite | apply OptKeeps.ite | apply Keeps.ite | apply OptKeeps.some | apply ActKeeps.ok
          | apply ActKeeps.done | apply ActKeeps.later | apply ActKeeps.refuse | apply State.unbindStream_keeps
          | apply State.bindSlot_keeps | exact Keeps.id_ _ | assumption)
      | (apply Sub.of <;> first | assumption | rfl) | split | dsimp only | intro _

theorem execSapBind_keeps {h : CmdHdr} {body : List Byte} {s : State} {t : State}
    (h : execSapBind h body s = .next t) : Keeps 0x14D7EC5F8 s t := by
  have hm := Sub.refl 0x14D7EC5F8
  unfold execSapBind at h
  refine run_keeps ?_ h
  intro _
  repeat' first
      | (with_reducible first
          | exact Keeps.refl _ | apply Keeps.ite | apply clerk_keeps | apply sapBindOwn_keeps | apply clerk_keeps
          | exact Keeps.id_ _ | assumption)
      | exact Or.inl ⟨rfl, rfl⟩ | refine Or.inr ?_ | (apply Sub.of <;> first | assumption | rfl) | split | dsimp only
      | intro _

theorem State.detect_keeps {μ : Nat} {s₀ : State} (s : State) (p : Nat) (din : List (BitVec 32)) (hk
    : Keeps μ s₀ s) (hm : Sub 0x8600000 μ := by first | assumption | (apply Sub.of <;> first | assumption | rfl))
    : Keeps μ s₀ (State.detect s p din) := by
  unfold State.detect
  repeat' first
      | (with_reducible first
          | exact hk | exact Keeps.refl _ | apply Keeps.ite | apply State.modSap_keeps | apply State.sapEvent_keeps
          | apply forEach_keeps)
      | (intro _ _) | (apply Sub.of <;> first | assumption | rfl) | split | dsimp only

theorem State.consume_keeps {μ : Nat} {s₀ : State} (s : State) (p i m : Nat) (hk
    : Keeps μ s₀ s)
    (hm : Sub 0x10D66C5E8 μ := by first | assumption | (apply Sub.of <;> first | assumption | rfl))
    : Keeps μ s₀ (State.consume s p i m) := by
  unfold State.consume
  extract_lets v1 v2 v3 v4 v5 v6 v7
  clear_value v1
  clear_value v2
  clear_value v3
  clear_value v4
  clear_value v5
  have h6 : Keeps μ s₀ v6 := by
    unfold v6
    repeat' first
        | (with_reducible first
            | exact hk | exact Keeps.refl _ | apply State.modSap_keeps)
        | (intro _ _) | (apply Sub.of <;> first | assumption | rfl) | dsimp only
  clear_value v6
  have h7 : Keeps μ s₀ v7 := by
    unfold v7
    repeat' first
        | (with_reducible first
            | exact h6 | exact Keeps.refl _ | apply State.modEgr_keeps | apply State.releaseEgress_keeps
            | apply State.raiseReplayMark_keeps)
        | (intro _ _) | (apply Sub.of <;> first | assumption | rfl) | dsimp only
  clear_value v7
  repeat' first
      | (with_reducible first
          | exact h7 | exact Keeps.refl _ | apply State.closeEgress_keeps | apply State.settleStall_keeps)
      | (apply Sub.of <;> first | assumption | rfl) | dsimp only

theorem State.takeDue_keeps {μ : Nat} {s₀ : State} (s : State) (p : Nat) (hk
    : Keeps μ s₀ s)
    (hm : Sub 0x10D66C5E8 μ := by first | assumption | (apply Sub.of <;> first | assumption | rfl))
    : Keeps μ s₀ (State.takeDue s p) := by
  unfold State.takeDue
  repeat' first
      | (with_reducible first
          | exact hk | exact Keeps.refl _ | apply State.consume_keeps | apply forEach_keeps)
      | (intro _ _) | (apply Sub.of <;> first | assumption | rfl) | split | dsimp only

theorem State.underrunAt_keeps {μ : Nat} {s₀ : State} (s : State) (p : Nat) (hk
    : Keeps μ s₀ s) (hm : Sub 0x8000000 μ := by first | assumption | (apply Sub.of <;> first | assumption | rfl))
    : Keeps μ s₀ (State.underrunAt s p) := by
  unfold State.underrunAt
  repeat' first
      | (with_reducible first
          | exact hk | exact Keeps.refl _ | apply State.modSap_keeps)
      | (intro _ _) | (apply Sub.of <;> first | assumption | rfl) | dsimp only

theorem State.playSlot_keeps {μ : Nat} {s₀ : State} (s : State) (p i m : Nat) (hk
    : Keeps μ s₀ s) (hm : Sub 0x8000000 μ := by first | assumption | (apply Sub.of <;> first | assumption | rfl))
    : Keeps μ s₀ (State.playSlot s p i m) := by
  unfold State.playSlot
  repeat' first
      | (with_reducible first
          | exact hk | exact Keeps.refl _ | apply State.modSap_keeps)
      | (intro _ _) | (apply Sub.of <;> first | assumption | rfl) | dsimp only

theorem State.decideLone_keeps {μ : Nat} {s₀ : State} (s : State) (p i : Nat) (hk
    : Keeps μ s₀ s) (hm : Sub 0x8000000 μ := by first | assumption | (apply Sub.of <;> first | assumption | rfl))
    : Keeps μ s₀ (State.decideLone s p i) := by
  unfold State.decideLone
  repeat' first
      | (with_reducible first
          | exact hk | exact Keeps.refl _ | apply Keeps.ite | apply State.modSap_keeps | apply State.playSlot_keeps
          | apply State.underrunAt_keeps)
      | (intro _ _) | (apply Sub.of <;> first | assumption | rfl) | split | dsimp only

theorem State.joinGroup_keeps {μ : Nat} {s₀ : State} (s : State) (p i x : Nat) (hk
    : Keeps μ s₀ s) (hm : Sub 0x8000000 μ := by first | assumption | (apply Sub.of <;> first | assumption | rfl))
    : Keeps μ s₀ (State.joinGroup s p i x) := by
  unfold State.joinGroup
  repeat' first
      | (with_reducible first
          | exact hk | exact Keeps.refl _ | apply State.modSap_keeps)
      | (intro _ _) | (apply Sub.of <;> first | assumption | rfl) | dsimp only

theorem State.decideSkip_keeps {μ : Nat} {s₀ : State} (s : State) (p i x : Nat) (hk
    : Keeps μ s₀ s)
    (hm : Sub 0x10D66C5E8 μ := by first | assumption | (apply Sub.of <;> first | assumption | rfl))
    : Keeps μ s₀ (State.decideSkip s p i x) := by
  unfold State.decideSkip
  extract_lets v1 v2 v3 v4 v5
  clear_value v1
  clear_value v2
  clear_value v3
  clear_value v4
  have h5 : Keeps μ s₀ v5 := by
    unfold v5
    repeat' first
        | (with_reducible first
            | exact hk | exact Keeps.refl _ | apply Keeps.ite | apply State.modSap_keeps | apply State.consume_keeps)
        | (intro _ _) | (apply Sub.of <;> first | assumption | rfl) | split | dsimp only
  clear_value v5
  repeat' first
      | (with_reducible first
          | exact h5 | exact Keeps.refl _ | apply Keeps.ite | apply State.playSlot_keeps
          | apply State.underrunAt_keeps)
      | (apply Sub.of <;> first | assumption | rfl) | split | dsimp only

theorem State.setGroup_keeps {μ : Nat} {s₀ : State} (s : State) (p g x : Nat) (started : Bool) (hk
    : Keeps μ s₀ s) (hm : Sub 0x8000000 μ := by first | assumption | (apply Sub.of <;> first | assumption | rfl))
    : Keeps μ s₀ (State.setGroup s p g x started) := by
  unfold State.setGroup
  repeat' first
      | (with_reducible first
          | exact hk | exact Keeps.refl _ | apply State.modSap_keeps)
      | (intro _ _) | (apply Sub.of <;> first | assumption | rfl) | dsimp only

theorem State.decideFree_keeps {μ : Nat} {s₀ : State} (s : State) (p g : Nat) (hk
    : Keeps μ s₀ s)
    (hm : Sub 0x10D66C5E8 μ := by first | assumption | (apply Sub.of <;> first | assumption | rfl))
    : Keeps μ s₀ (State.decideFree s p g) := by
  unfold State.decideFree
  extract_lets v1 v2
  clear_value v1
  have h2 : Keeps μ s₀ v2 := by
    unfold v2
    repeat' first
        | (with_reducible first
            | exact hk | exact Keeps.refl _ | apply Keeps.ite | apply State.decideSkip_keeps
            | apply State.joinGroup_keeps | apply State.playSlot_keeps | apply forEach_keeps)
        | (intro _ _) | (apply Sub.of <;> first | assumption | rfl) | split | dsimp only
  clear_value v2
  repeat' first
      | (with_reducible first
          | exact h2 | exact Keeps.refl _ | apply State.setGroup_keeps)
      | (apply Sub.of <;> first | assumption | rfl) | dsimp only

theorem State.decideHeld_keeps {μ : Nat} {s₀ : State} (s : State) (p g : Nat) (hk
    : Keeps μ s₀ s) (hm : Sub 0x8000000 μ := by first | assumption | (apply Sub.of <;> first | assumption | rfl))
    : Keeps μ s₀ (State.decideHeld s p g) := by
  unfold State.decideHeld
  repeat' first
      | (with_reducible first
          | exact hk | exact Keeps.refl _ | apply Keeps.ite | apply State.joinGroup_keeps | apply State.playSlot_keeps
          | apply State.setGroup_keeps | apply State.underrunAt_keeps | apply State.modSap_keeps | apply forEach_keeps)
      | (intro _ _) | (apply Sub.of <;> first | assumption | rfl) | split | dsimp only

theorem State.decideGroup_keeps {μ : Nat} {s₀ : State} (s : State) (p g : Nat) (hk
    : Keeps μ s₀ s)
    (hm : Sub 0x10D66C5E8 μ := by first | assumption | (apply Sub.of <;> first | assumption | rfl))
    : Keeps μ s₀ (State.decideGroup s p g) := by
  unfold State.decideGroup
  repeat' first
      | (with_reducible first
          | exact hk | exact Keeps.refl _ | apply Keeps.ite | apply State.setGroup_keeps
          | apply State.decideHeld_keeps | apply State.decideFree_keeps)
      | (apply Sub.of <;> first | assumption | rfl) | split | dsimp only

theorem State.decide__keeps {μ : Nat} {s₀ : State} (s : State) (p : Nat) (hk
    : Keeps μ s₀ s)
    (hm : Sub 0x10D66C5E8 μ := by first | assumption | (apply Sub.of <;> first | assumption | rfl))
    : Keeps μ s₀ (State.decide_ s p) := by
  unfold State.decide_
  extract_lets v1 v2 v3
  have h1 : Keeps μ s₀ v1 := by
    unfold v1
    repeat' first
        | (with_reducible first
            | exact hk | exact Keeps.refl _ | apply State.modSap_keeps)
        | (intro _ _) | (apply Sub.of <;> first | assumption | rfl) | dsimp only
  clear_value v1
  clear_value v2
  have h3 : Keeps μ s₀ v3 := by
    unfold v3
    repeat' first
        | (with_reducible first
            | exact h1 | exact Keeps.refl _ | apply State.decideLone_keeps | apply forEach_keeps)
        | (intro _ _) | (apply Sub.of <;> first | assumption | rfl) | dsimp only
  clear_value v3
  repeat' first
      | (with_reducible first
          | exact h3 | exact Keeps.refl _ | apply State.decideGroup_keeps | apply forEach_keeps)
      | (intro _ _) | (apply Sub.of <;> first | assumption | rfl) | dsimp only

theorem State.framingError_keeps {μ : Nat} {s₀ : State} (s : State) (p : Nat) (hk
    : Keeps μ s₀ s) (hm : Sub 0x8600000 μ := by first | assumption | (apply Sub.of <;> first | assumption | rfl))
    : Keeps μ s₀ (State.framingError s p) := by
  unfold State.framingError
  extract_lets v1 v2
  clear_value v1
  have h2 : Keeps μ s₀ v2 := by
    unfold v2
    repeat' first
        | (with_reducible first
            | exact hk | exact Keeps.refl _ | apply State.modSap_keeps)
        | (intro _ _) | (apply Sub.of <;> first | assumption | rfl) | dsimp only
  clear_value v2
  repeat' first
      | (with_reducible first
          | exact h2 | exact Keeps.refl _ | apply Keeps.ite | apply State.sapEvent_keeps)
      | (apply Sub.of <;> first | assumption | rfl) | split | dsimp only

theorem State.countMask_keeps {μ : Nat} {s₀ : State} (s : State) (p : Nat) (hk
    : Keeps μ s₀ s) (hm : Sub 0x8600000 μ := by first | assumption | (apply Sub.of <;> first | assumption | rfl)) :
    Keeps μ s₀ (State.countMask s p) := by
  unfold State.countMask
  dsimp only
  split
  · exact hk
  · exact .ite (State.modSap_keeps _ _ _ hk) (State.sapEvent_keeps _ _ _ _ (State.modSap_keeps _ _ _ hk))

theorem State.frameSync_keeps {μ : Nat} {s₀ : State} (s : State) (p bclk : Nat) (din : List (BitVec 32)) (hk
    : Keeps μ s₀ s)
    (hm : Sub 0x10D66C5E8 μ := by first | assumption | (apply Sub.of <;> first | assumption | rfl))
    : Keeps μ s₀ (State.frameSync s p bclk din) := by
  unfold State.frameSync
  extract_lets v1 v2 v3 v4 v5 v6 v7 v8 v9 v10 v11 v12
  clear_value v1
  clear_value v2
  have h3 : Keeps μ s₀ v3 := by
    unfold v3
    repeat' first
        | (with_reducible first
            | exact hk | exact Keeps.refl _ | apply Keeps.ite | apply State.framingError_keeps)
        | (apply Sub.of <;> first | assumption | rfl) | split | dsimp only
  clear_value v3
  clear_value v4
  have h5 : Keeps μ s₀ v5 := by
    unfold v5
    repeat' first
        | (with_reducible first
            | exact h3 | exact Keeps.refl _ | apply Keeps.ite | apply State.detect_keeps)
        | (apply Sub.of <;> first | assumption | rfl) | split | dsimp only
  clear_value v5
  have h6 : Keeps μ s₀ v6 := by
    unfold v6
    repeat' first
        | (with_reducible first
            | exact h5 | exact Keeps.refl _ | apply State.modSap_keeps)
        | (intro _ _) | (apply Sub.of <;> first | assumption | rfl) | dsimp only
  clear_value v6
  have h7 : Keeps μ s₀ v7 := by
    unfold v7
    repeat' first
        | (with_reducible first
            | exact h6 | exact Keeps.refl _ | apply State.countMask_keeps)
        | (apply Sub.of <;> first | assumption | rfl) | dsimp only
  clear_value v7
  clear_value v8
  clear_value v9
  have h10 : Keeps μ s₀ v10 := by
    unfold v10
    repeat' first
        | (with_reducible first
            | exact h7 | exact Keeps.refl _ | apply Keeps.ite | apply State.modSap_keeps)
        | (intro _ _) | (apply Sub.of <;> first | assumption | rfl) | split | dsimp only
  clear_value v10
  have h11 : Keeps μ s₀ v11 := by
    unfold v11
    repeat' first
        | (with_reducible first
            | exact h10 | exact Keeps.refl _ | apply State.takeDue_keeps | apply State.modSap_keeps)
        | (intro _ _) | (apply Sub.of <;> first | assumption | rfl) | dsimp only
  clear_value v11
  have h12 : Keeps μ s₀ v12 := by
    unfold v12
    repeat' first
        | (with_reducible first
            | exact h11 | exact Keeps.refl _ | apply Keeps.ite | apply State.modSap_keeps | apply State.sapEvent_keeps)
        | (intro _ _) | (apply Sub.of <;> first | assumption | rfl) | split | dsimp only
  clear_value v12
  repeat' first
      | (with_reducible first
          | exact h12 | exact Keeps.refl _ | apply Keeps.ite | apply State.decide__keeps)
      | (apply Sub.of <;> first | assumption | rfl) | split | dsimp only

theorem execSapFrameSync_keeps {port bclk : Nat} {din : List (BitVec 32)} {s : State} {t : State}
    (h : execSapFrameSync port bclk din s = .next t) : Keeps 0x10D66C5E8 s t := by
  have hm := Sub.refl 0x10D66C5E8
  unfold execSapFrameSync at h
  refine run_keeps ?_ h
  intro _
  repeat' first
      | (with_reducible first
          | exact Keeps.refl _ | apply Keeps.ite | apply State.frameSync_keeps | exact Keeps.id_ _ | assumption)
      | (apply Sub.of <;> first | assumption | rfl) | split | dsimp only | intro _

theorem State.muteDue_keeps {μ : Nat} {s₀ : State} (s : State) (p : Nat) (hk
    : Keeps μ s₀ s)
    (hm : Sub 0x10D66C5E8 μ := by first | assumption | (apply Sub.of <;> first | assumption | rfl))
    : Keeps μ s₀ (State.muteDue s p) := by
  unfold State.muteDue
  extract_lets v1
  have h1 : Keeps μ s₀ v1 := by
    unfold v1
    repeat' first
        | (with_reducible first
            | exact hk | exact Keeps.refl _ | apply State.modSap_keeps)
        | (intro _ _) | (apply Sub.of <;> first | assumption | rfl) | dsimp only
  clear_value v1
  repeat' first
      | (with_reducible first
          | exact h1 | exact Keeps.refl _ | apply State.takeDue_keeps | apply State.modSap_keeps)
      | (intro _ _) | (apply Sub.of <;> first | assumption | rfl) | dsimp only

theorem execSapWatchdog_keeps {port : Nat} {s : State} {t : State} (h : execSapWatchdog port s = .next t)
    : Keeps 0x10D66C5E8 s t := by
  have hm := Sub.refl 0x10D66C5E8
  unfold execSapWatchdog at h
  refine run_keeps ?_ h
  intro _
  repeat' first
      | (with_reducible first
          | exact Keeps.refl _ | apply Keeps.ite | apply State.modSap_keeps | apply State.sapEvent_keeps
          | apply State.muteDue_keeps | apply Keeps.free | apply Keeps.mem | apply Keeps.jtag | exact Keeps.id_ _
          | assumption)
      | (apply Sub.of <;> first | assumption | rfl) | split | dsimp only | intro _

theorem execSapMutedPeriod_keeps {port : Nat} {s : State} {t : State} (h : execSapMutedPeriod port s = .next t)
    : Keeps 0x10D66C5E8 s t := by
  have hm := Sub.refl 0x10D66C5E8
  unfold execSapMutedPeriod at h
  refine run_keeps ?_ h
  intro _
  repeat' first
      | (with_reducible first
          | exact Keeps.refl _ | apply Keeps.ite | apply clerk_keeps | apply State.decide__keeps
          | apply State.modSap_keeps | apply State.muteDue_keeps | apply Keeps.free | apply Keeps.mem
          | apply Keeps.jtag | exact Keeps.id_ _ | assumption)
      | exact Or.inl ⟨rfl, rfl⟩ | refine Or.inr ?_ | (apply Sub.of <;> first | assumption | rfl) | split | dsimp only
      | intro _

end Sys2Proof.Machine
end

