-- ==== Sys2Proof/Laws/Flash.lean ====
section
/-! SUPPORT. What the flash store keep: the queue of waiting commands, memory's canonical form, and the parts of the state that each
never writes (a mask over `Field`, by index). -/

namespace Sys2Proof.Machine
set_option Elab.async false

theorem State.eraseLib_keeps {μ : Nat} {s₀ : State} (s : State) (n : Nat) (hk
    : Keeps μ s₀ s) (hm : Sub 0x1000000 μ := by first | assumption | (apply Sub.of <;> first | assumption | rfl))
    : Keeps μ s₀ (State.eraseLib s n) := by
  unfold State.eraseLib
  repeat' first
      | (with_reducible first
          | exact hk | exact Keeps.refl _ | apply State.modLib_keeps)
      | (intro _ _) | (apply Sub.of <;> first | assumption | rfl) | dsimp only

theorem State.writePart_keeps {μ : Nat} {s₀ : State} (s : State) (p : Part) (bytes : Nat) (hk
    : Keeps μ s₀ s) (hm : Sub 0x1600004 μ := by first | assumption | (apply Sub.of <;> first | assumption | rfl))
    : Keeps μ s₀ (State.writePart s p bytes) := by
  unfold State.writePart
  extract_lets v1 v2
  have h1 : Keeps μ s₀ v1 := by
    unfold v1
    repeat' first
        | (with_reducible first
            | exact hk | exact Keeps.refl _ | apply State.drawTally_keeps)
        | (apply Sub.of <;> first | assumption | rfl) | dsimp only
  clear_value v1
  have h2 : Keeps μ s₀ v2 := by
    unfold v2
    repeat' first
        | (with_reducible first
            | exact h1 | exact Keeps.refl _ | apply State.flashWrite_keeps)
        | (apply Sub.of <;> first | assumption | rfl) | dsimp only
  clear_value v2
  repeat' first
      | (with_reducible first
          | exact h2 | exact Keeps.refl _ | apply State.putLib_keeps)
      | (apply Sub.of <;> first | assumption | rfl) | dsimp only

theorem libWriteOwn_keeps {μ : Nat} (h : CmdHdr) (body : List Byte) (s : State)
    (hm : Sub 0x1600004 μ := by first | assumption | (apply Sub.of <;> first | assumption | rfl))
    : ActKeeps μ (libWriteOwn h body s) := by
  unfold libWriteOwn
  dsimp only
  split
  · rename_i a e
    revert e
    unfold State.libPart
    dsimp only
    repeat' split
    all_goals intro e
    all_goals first | cases e; exact .no _ | cases e; exact .refuse Keeps.refl | cases e
  · refine .ite noTally_keeps (.ite (.ok fun t => State.writePart_keeps _ _ _ (.refl t)) (.ite (.no _) ?_))
    split
    · exact .refuse (fun t => .ite (.refl t) (State.eraseLib_keeps _ _ (.refl t)))
    · exact .done (fun t => State.writePart_keeps _ _ _ (.refl t))

theorem execLibWrite_keeps {h : CmdHdr} {body : List Byte} {s : State} {t : State}
    (h : execLibWrite h body s = .next t) : Keeps 0x457C0004 s t := by
  have hm := Sub.refl 0x457C0004
  unfold execLibWrite at h
  refine run_keeps ?_ h
  intro _
  repeat' first
      | (with_reducible first
          | exact Keeps.refl _ | apply Keeps.ite | apply clerk_keeps | apply libWriteOwn_keeps | apply clerk_keeps
          | exact Keeps.id_ _ | assumption)
      | exact Or.inl ⟨rfl, rfl⟩ | refine Or.inr ?_ | (apply Sub.of <;> first | assumption | rfl) | split | dsimp only
      | intro _

theorem libListOwn_keeps {μ : Nat} (h : CmdHdr) (body : List Byte) (s : State)
    (hm : Sub 0x4 μ := by first | assumption | (apply Sub.of <;> first | assumption | rfl))
    : ActKeeps μ (libListOwn h body s) := by
  unfold libListOwn
  repeat' first
      | (with_reducible first
          | exact Keeps.refl _ | exact ActKeeps.no _ | exact ActKeeps.conflict _ | exact OptKeeps.none
          | apply ActKeeps.ite | apply OptKeeps.ite | apply Keeps.ite | apply OptKeeps.some | apply ActKeeps.ok
          | apply ActKeeps.done | apply ActKeeps.later | apply ActKeeps.refuse | apply Keeps.free | apply Keeps.mem
          | exact Keeps.id_ _ | assumption)
      | (apply Sub.of <;> first | assumption | rfl) | split | dsimp only | intro _

theorem execLibList_keeps {h : CmdHdr} {body : List Byte} {s : State} {t : State}
    (h : execLibList h body s = .next t) : Keeps 0x405C0004 s t := by
  have hm := Sub.refl 0x405C0004
  unfold execLibList at h
  refine run_keeps ?_ h
  intro _
  repeat' first
      | (with_reducible first
          | exact Keeps.refl _ | apply Keeps.ite | apply clerk_keeps | apply libListOwn_keeps | apply clerk_keeps
          | exact Keeps.id_ _ | assumption)
      | exact Or.inl ⟨rfl, rfl⟩ | refine Or.inr ?_ | (apply Sub.of <;> first | assumption | rfl) | split | dsimp only
      | intro _

theorem libEraseOwn_keeps {μ : Nat} (body : List Byte) (s : State)
    (hm : Sub 0x1000000 μ := by first | assumption | (apply Sub.of <;> first | assumption | rfl))
    : ActKeeps μ (libEraseOwn body s) := by
  unfold libEraseOwn
  repeat' first
      | (with_reducible first
          | exact Keeps.refl _ | exact ActKeeps.no _ | exact ActKeeps.conflict _ | exact OptKeeps.none
          | apply ActKeeps.ite | apply OptKeeps.ite | apply Keeps.ite | apply OptKeeps.some | apply ActKeeps.ok
          | apply ActKeeps.done | apply ActKeeps.later | apply ActKeeps.refuse | apply State.eraseLib_keeps
          | exact Keeps.id_ _ | assumption)
      | (apply Sub.of <;> first | assumption | rfl) | split | dsimp only | intro _

theorem execLibErase_keeps {h : CmdHdr} {body : List Byte} {s : State} {t : State}
    (h : execLibErase h body s = .next t) : Keeps 0x455C0000 s t := by
  have hm := Sub.refl 0x455C0000
  unfold execLibErase at h
  refine run_keeps ?_ h
  intro _
  repeat' first
      | (with_reducible first
          | exact Keeps.refl _ | apply Keeps.ite | apply clerk_keeps | apply libEraseOwn_keeps | apply clerk_keeps
          | exact Keeps.id_ _ | assumption)
      | exact Or.inl ⟨rfl, rfl⟩ | refine Or.inr ?_ | (apply Sub.of <;> first | assumption | rfl) | split | dsimp only
      | intro _

theorem execLibEraseDone_keeps {entry : Nat} {s : State} {t : State} (h : execLibEraseDone entry s = .next t)
    : Keeps 0x1000000 s t := by
  have hm := Sub.refl 0x1000000
  unfold execLibEraseDone at h
  refine run_keeps ?_ h
  intro _
  repeat' first
      | (with_reducible first
          | exact Keeps.refl _ | apply Keeps.ite | apply State.flashFree_keeps | apply State.putLib_keeps
          | exact Keeps.id_ _ | assumption)
      | (apply Sub.of <;> first | assumption | rfl) | split | dsimp only | intro _

theorem execLibEntryTimeout_keeps {entry : Nat} {s : State} {t : State}
    (h : execLibEntryTimeout entry s = .next t) : Keeps 0x1000000 s t := by
  have hm := Sub.refl 0x1000000
  unfold execLibEntryTimeout at h
  refine run_keeps ?_ h
  intro _
  repeat' first
      | (with_reducible first
          | exact Keeps.refl _ | apply Keeps.ite | apply State.eraseLib_keeps | exact Keeps.id_ _ | assumption)
      | (apply Sub.of <;> first | assumption | rfl) | split | dsimp only | intro _

theorem State.parkRecord_keeps {μ : Nat} {s₀ : State} (s : State) (n stall : Nat) (st : Status) (handle : Nat)
    (hk : Keeps μ s₀ s)
    (hm : Sub 0x600000 μ := by first | assumption | (apply Sub.of <;> first | assumption | rfl))
    : Keeps μ s₀ (State.parkRecord s n stall st handle) := by
  unfold State.parkRecord
  repeat' first
      | (with_reducible first
          | exact hk | exact Keeps.refl _ | apply State.raise_keeps)
      | (apply Sub.of <;> first | assumption | rfl) | dsimp only

theorem State.parkEnded_keeps {μ : Nat} {s₀ : State} (s : State) (n : Nat) (ok : Bool) (hk
    : Keeps μ s₀ s) (hm : Sub 0x1600004 μ := by first | assumption | (apply Sub.of <;> first | assumption | rfl))
    : Keeps μ s₀ (State.parkEnded s n ok) := by
  unfold State.parkEnded
  extract_lets v1
  have h1 : Keeps μ s₀ v1 := by
    unfold v1
    repeat' first
        | (with_reducible first
            | exact hk | exact Keeps.refl _ | apply State.modPark_keeps)
        | (intro _ _) | (apply Sub.of <;> first | assumption | rfl) | dsimp only
  clear_value v1
  repeat' first
      | (with_reducible first
          | exact h1 | exact Keeps.refl _ | apply Keeps.ite | apply State.flashFree_keeps
          | apply State.flashWrite_keeps | apply State.programFailed_keeps | apply State.modFlash_keeps)
      | (intro _ _) | (apply Sub.of <;> first | assumption | rfl) | split | dsimp only

theorem State.parkLost_keeps {μ : Nat} {s₀ : State} (s : State) (n : Nat) (hk
    : Keeps μ s₀ s) (hm : Sub 0x1000000 μ := by first | assumption | (apply Sub.of <;> first | assumption | rfl))
    : Keeps μ s₀ (State.parkLost s n) := by
  unfold State.parkLost
  repeat' first
      | (with_reducible first
          | exact hk | exact Keeps.refl _ | apply State.flashFree_keeps | apply State.modPark_keeps)
      | (intro _ _) | (apply Sub.of <;> first | assumption | rfl) | dsimp only

theorem State.parkValid_keeps {μ : Nat} {s₀ : State} (s : State) (n : Nat) (hk
    : Keeps μ s₀ s) (hm : Sub 0x1600010 μ := by first | assumption | (apply Sub.of <;> first | assumption | rfl))
    : Keeps μ s₀ (State.parkValid s n) := by
  unfold State.parkValid
  extract_lets v1 v2 v3 v4 v5
  clear_value v1
  clear_value v2
  have h3 : Keeps μ s₀ v3 := by
    unfold v3
    repeat' first
        | (with_reducible first
            | exact hk | exact Keeps.refl _ | apply State.modFlash_keeps)
        | (intro _ _) | (apply Sub.of <;> first | assumption | rfl) | dsimp only
  clear_value v3
  have h4 : Keeps μ s₀ v4 := by
    unfold v4
    repeat' first
        | (with_reducible first
            | exact h3 | exact Keeps.refl _ | apply State.modPark_keeps)
        | (intro _ _) | (apply Sub.of <;> first | assumption | rfl) | dsimp only
  clear_value v4
  have h5 : Keeps μ s₀ v5 := by
    unfold v5
    repeat' first
        | (with_reducible first
            | exact h4 | exact Keeps.refl _ | apply State.modStream_keeps)
        | (intro _ _) | (apply Sub.of <;> first | assumption | rfl) | dsimp only
  clear_value v5
  repeat' first
      | (with_reducible first
          | exact h5 | exact Keeps.refl _ | apply State.parkRecord_keeps)
      | (apply Sub.of <;> first | assumption | rfl) | dsimp only

theorem execParkDone_keeps {stream : Nat} {ok : Bool} {s : State} {t : State}
    (h : execParkDone stream ok s = .next t) : Keeps 0x1600014 s t := by
  have hm := Sub.refl 0x1600014
  unfold execParkDone at h
  refine run_keeps ?_ h
  intro _
  repeat' first
      | (with_reducible first
          | exact Keeps.refl _ | apply Keeps.ite | apply State.parkEnded_keeps | apply State.modPark_keeps
          | apply State.parkRecord_keeps | apply State.parkLost_keeps | apply State.parkValid_keeps
          | exact Keeps.id_ _ | assumption)
      | (apply Sub.of <;> first | assumption | rfl) | split | dsimp only | intro _

theorem execTallyRefill_keeps {s : State} {t : State} (h : execTallyRefill s = .next t) : Keeps 0x1000000 s t := by
  have hm := Sub.refl 0x1000000
  unfold execTallyRefill at h
  refine run_keeps ?_ h
  intro _
  repeat' first
      | (with_reducible first
          | exact Keeps.refl _ | apply Keeps.ite | apply State.modFlash_keeps | apply State.tally_keeps
          | exact Keeps.id_ _ | assumption)
      | (apply Sub.of <;> first | assumption | rfl) | split | dsimp only | intro _

theorem execTallySave_keeps {s : State} {t : State} (h : execTallySave s = .next t) : Keeps 0x1000000 s t := by
  have hm := Sub.refl 0x1000000
  unfold execTallySave at h
  refine run_keeps ?_ h
  intro _
  repeat' first
      | (with_reducible first
          | exact Keeps.refl _ | apply Keeps.ite | apply State.modFlash_keeps | apply State.tally_keeps
          | exact Keeps.id_ _ | assumption)
      | (apply Sub.of <;> first | assumption | rfl) | split | dsimp only | intro _

theorem State.damageEntry_keeps {μ : Nat} {s₀ : State} (s : State) (n channel : Nat) (hk
    : Keeps μ s₀ s) (hm : Sub 0x1600000 μ := by first | assumption | (apply Sub.of <;> first | assumption | rfl))
    : Keeps μ s₀ (State.damageEntry s n channel) := by
  unfold State.damageEntry
  repeat' first
      | (with_reducible first
          | exact hk | exact Keeps.refl _ | apply Keeps.ite | apply State.modLib_keeps | apply State.flashEvent_keeps)
      | (intro _ _) | (apply Sub.of <;> first | assumption | rfl) | split | dsimp only

theorem State.refreshBlock_keeps {μ : Nat} {s₀ : State} (s : State) (b : Nat) (hk
    : Keeps μ s₀ s) (hm : Sub 0x1000004 μ := by first | assumption | (apply Sub.of <;> first | assumption | rfl))
    : Keeps μ s₀ (State.refreshBlock s b) := by
  unfold State.refreshBlock
  repeat' first
      | (with_reducible first
          | exact hk | exact Keeps.refl _ | apply Keeps.ite | apply State.draw_keeps | apply State.modFlash_keeps)
      | refine Keeps.of_snd (by assumption) ?_ | refine Keeps.of_fst (by assumption) ?_ | (intro _ _)
      | (apply Sub.of <;> first | assumption | rfl) | split | dsimp only

theorem State.lostPage_keeps {μ : Nat} {s₀ : State} (s : State) (page : ScrubPage) (hk
    : Keeps μ s₀ s) (hm : Sub 0x1600000 μ := by first | assumption | (apply Sub.of <;> first | assumption | rfl))
    : Keeps μ s₀ (State.lostPage s page) := by
  unfold State.lostPage
  extract_lets v1 v2
  have h1 : Keeps μ s₀ v1 := by
    unfold v1
    repeat' first
        | (with_reducible first
            | exact hk | exact Keeps.refl _ | apply State.flashEvent_keeps)
        | (apply Sub.of <;> first | assumption | rfl) | dsimp only
  clear_value v1
  have h2 : Keeps μ s₀ v2 := by
    unfold v2
    repeat' first
        | (with_reducible first
            | exact h1 | exact Keeps.refl _ | apply Keeps.ite | apply State.damageEntry_keeps)
        | (apply Sub.of <;> first | assumption | rfl) | split | dsimp only
  clear_value v2
  repeat' first
      | (with_reducible first
          | exact h2 | exact Keeps.refl _ | apply State.retireBlock_keeps)
      | (apply Sub.of <;> first | assumption | rfl) | dsimp only

theorem execFlashScrub_keeps {page : ScrubPage} {s : State} {t : State} (h : execFlashScrub page s = .next t)
    : Keeps 0x1600004 s t := by
  have hm := Sub.refl 0x1600004
  unfold execFlashScrub at h
  refine run_keeps ?_ h
  intro _
  repeat' first
      | (with_reducible first
          | exact Keeps.refl _ | apply Keeps.ite | apply State.modFlashCh_keeps | apply State.lostPage_keeps
          | apply State.refreshBlock_keeps | exact Keeps.id_ _ | assumption)
      | (apply Sub.of <;> first | assumption | rfl) | split | dsimp only | intro _

theorem execBootScrubComplete_keeps {_refreshed : Nat} {s : State} {t : State}
    (h : execBootScrubComplete _refreshed s = .next t) : Keeps 0x1600000 s t := by
  have hm := Sub.refl 0x1600000
  unfold execBootScrubComplete at h
  refine run_keeps ?_ h
  intro _
  repeat' first
      | (with_reducible first
          | exact Keeps.refl _ | apply Keeps.ite | apply State.modFlash_keeps | apply State.flashEvent_keeps
          | exact Keeps.id_ _ | assumption)
      | (apply Sub.of <;> first | assumption | rfl) | split | dsimp only | intro _

theorem execFlashChannelReset_keeps {_channel : Nat} {s : State} {t : State}
    (h : execFlashChannelReset _channel s = .next t) : Keeps 0x10000000 s t := by
  have hm := Sub.refl 0x10000000
  unfold execFlashChannelReset at h
  refine run_keeps ?_ h
  intro _
  repeat' first
      | (with_reducible first
          | exact Keeps.refl _ | apply Keeps.ite | apply State.modClk_keeps | exact Keeps.id_ _ | assumption)
      | (apply Sub.of <;> first | assumption | rfl) | split | dsimp only | intro _

theorem State.freeOrphan_keeps {μ : Nat} {s₀ : State} (s : State) (n : Nat) (hk
    : Keeps μ s₀ s) (hm : Sub 0x1020000 μ := by first | assumption | (apply Sub.of <;> first | assumption | rfl))
    : Keeps μ s₀ (State.freeOrphan s n) := by
  unfold State.freeOrphan
  repeat' first
      | (with_reducible first
          | exact hk | exact Keeps.refl _ | apply Keeps.ite | apply State.flashFree_keeps | apply State.putPark_keeps
          | apply Keeps.mem)
      | exact fun w => wf_mclear _ _ _ w | (intro w; first | exact w | exact wf_mwrite _ _ _ w)
      | (apply Sub.of <;> first | assumption | rfl) | split | dsimp only

theorem execOrphanExpire_keeps {record : Nat} {s : State} {t : State} (h : execOrphanExpire record s = .next t)
    : Keeps 0x1020000 s t := by
  have hm := Sub.refl 0x1020000
  unfold execOrphanExpire at h
  refine run_keeps ?_ h
  intro _
  repeat' first
      | (with_reducible first
          | exact Keeps.refl _ | apply Keeps.ite | apply State.freeOrphan_keeps | exact Keeps.id_ _ | assumption)
      | (apply Sub.of <;> first | assumption | rfl) | split | dsimp only | intro _

end Sys2Proof.Machine
end

