-- ==== Sys2Proof/Laws/Clocks.lean ====
section
/-! SUPPORT. What clocks keep: the queue of waiting commands, memory's canonical form, and the parts of the state that each
never writes (a mask over `Field`, by index). -/

namespace Sys2Proof.Machine
set_option Elab.async false

theorem State.gateRequest_keeps {μ : Nat} {s₀ : State} (s : State) (node : Nat) (on : Bool) (hk
    : Keeps μ s₀ s)
    (hm : Sub 0x10000000 μ := by first | assumption | (apply Sub.of <;> first | assumption | rfl))
    : Keeps μ s₀ (State.gateRequest s node on) := by
  unfold State.gateRequest
  repeat' first
      | (with_reducible first
          | exact hk | exact Keeps.refl _ | apply Keeps.ite | apply State.modClk_keeps)
      | (intro _ _) | (apply Sub.of <;> first | assumption | rfl) | split | dsimp only

theorem gateOwn_keeps {μ : Nat} (node : Nat) (on : Bool) (_s : State)
    (hm : Sub 0x10000000 μ := by first | assumption | (apply Sub.of <;> first | assumption | rfl))
    : ActKeeps μ (gateOwn node on _s) := by
  unfold gateOwn
  repeat' first
      | (with_reducible first
          | exact Keeps.refl _ | exact ActKeeps.no _ | exact ActKeeps.conflict _ | exact OptKeeps.none
          | apply ActKeeps.ite | apply OptKeeps.ite | apply Keeps.ite | apply OptKeeps.some | apply ActKeeps.ok
          | apply ActKeeps.done | apply ActKeeps.later | apply ActKeeps.refuse | apply State.gateRequest_keeps
          | exact Keeps.id_ _ | assumption)
      | (apply Sub.of <;> first | assumption | rfl) | split | dsimp only | intro _

theorem execClkGateOn_keeps {h : CmdHdr} {node : Nat} {s : State} {t : State}
    (h : execClkGateOn h node s = .next t) : Keeps 0x545C0000 s t := by
  have hm := Sub.refl 0x545C0000
  unfold execClkGateOn at h
  refine run_keeps ?_ h
  intro _
  repeat' first
      | (with_reducible first
          | exact Keeps.refl _ | apply Keeps.ite | apply clerk_keeps | apply gateOwn_keeps | apply clerk_keeps
          | exact Keeps.id_ _ | assumption)
      | exact Or.inl ⟨rfl, rfl⟩ | refine Or.inr ?_ | (apply Sub.of <;> first | assumption | rfl) | split | dsimp only
      | intro _

theorem execClkGateOff_keeps {h : CmdHdr} {node : Nat} {s : State} {t : State}
    (h : execClkGateOff h node s = .next t) : Keeps 0x545C0000 s t := by
  have hm := Sub.refl 0x545C0000
  unfold execClkGateOff at h
  refine run_keeps ?_ h
  intro _
  repeat' first
      | (with_reducible first
          | exact Keeps.refl _ | apply Keeps.ite | apply clerk_keeps | apply gateOwn_keeps | apply clerk_keeps
          | exact Keeps.id_ _ | assumption)
      | exact Or.inl ⟨rfl, rfl⟩ | refine Or.inr ?_ | (apply Sub.of <;> first | assumption | rfl) | split | dsimp only
      | intro _

theorem State.sapSwitched_keeps {μ : Nat} {s₀ : State} (s : State) (p : Nat) (hk
    : Keeps μ s₀ s)
    (hm : Sub 0x18000000 μ := by first | assumption | (apply Sub.of <;> first | assumption | rfl))
    : Keeps μ s₀ (State.sapSwitched s p) := by
  unfold State.sapSwitched
  extract_lets v1 v2
  have h1 : Keeps μ s₀ v1 := by
    unfold v1
    repeat' first
        | (with_reducible first
            | exact hk | exact Keeps.refl _ | apply State.modSap_keeps)
        | (intro _ _) | (apply Sub.of <;> first | assumption | rfl) | dsimp only
  clear_value v1
  have h2 : Keeps μ s₀ v2 := by
    unfold v2
    repeat' first
        | (with_reducible first
            | exact h1 | exact Keeps.refl _ | apply State.modClk_keeps)
        | (intro _ _) | (apply Sub.of <;> first | assumption | rfl) | dsimp only
  clear_value v2
  repeat' first
      | (with_reducible first
          | exact h2 | exact Keeps.refl _ | apply Keeps.ite | apply State.modClk_keeps | apply State.modSap_keeps)
      | (intro _ _) | (apply Sub.of <;> first | assumption | rfl) | split | dsimp only

theorem execClkSrcSwitchDone_keeps {mux : Nat} {s : State} {t : State}
    (h : execClkSrcSwitchDone mux s = .next t) : Keeps 0x18000000 s t := by
  have hm := Sub.refl 0x18000000
  unfold execClkSrcSwitchDone at h
  refine run_keeps ?_ h
  intro _
  repeat' first
      | (with_reducible first
          | exact Keeps.refl _ | apply Keeps.ite | apply State.modClk_keeps | apply State.sapSwitched_keeps
          | exact Keeps.id_ _ | assumption)
      | (apply Sub.of <;> first | assumption | rfl) | split | dsimp only | intro _

theorem execClkSrcDeadold_keeps {mux : Nat} {s : State} {t : State} (h : execClkSrcDeadold mux s = .next t)
    : Keeps 0x10000000 s t := by
  have hm := Sub.refl 0x10000000
  unfold execClkSrcDeadold at h
  refine run_keeps ?_ h
  intro _
  repeat' first
      | (with_reducible first
          | exact Keeps.refl _ | apply Keeps.ite | apply State.modClk_keeps | exact Keeps.id_ _ | assumption)
      | (apply Sub.of <;> first | assumption | rfl) | split | dsimp only | intro _

theorem freqMeasureOwn_keeps {μ : Nat} (h : CmdHdr) (body : List Byte) (s : State)
    (hm : Sub 0x10000000 μ := by first | assumption | (apply Sub.of <;> first | assumption | rfl))
    : ActKeeps μ (freqMeasureOwn h body s) := by
  unfold freqMeasureOwn
  repeat' first
      | (with_reducible first
          | exact Keeps.refl _ | exact ActKeeps.no _ | exact ActKeeps.conflict _ | exact OptKeeps.none
          | apply ActKeeps.ite | apply OptKeeps.ite | apply Keeps.ite | apply OptKeeps.some | apply ActKeeps.ok
          | apply ActKeeps.done | apply ActKeeps.later | apply ActKeeps.refuse | apply State.modClk_keeps
          | exact Keeps.id_ _ | assumption)
      | (apply Sub.of <;> first | assumption | rfl) | split | dsimp only | intro _

theorem execFreqMeasure_keeps {h : CmdHdr} {body : List Byte} {s : State} {t : State}
    (h : execFreqMeasure h body s = .next t) : Keeps 0x505C0000 s t := by
  have hm := Sub.refl 0x505C0000
  unfold execFreqMeasure at h
  refine run_keeps ?_ h
  intro _
  repeat' first
      | (with_reducible first
          | exact Keeps.refl _ | apply Keeps.ite | apply clerk_keeps | apply freqMeasureOwn_keeps | apply clerk_keeps
          | exact Keeps.id_ _ | assumption)
      | exact Or.inl ⟨rfl, rfl⟩ | refine Or.inr ?_ | (apply Sub.of <;> first | assumption | rfl) | split | dsimp only
      | intro _

theorem execFreqMeasureDone_keeps {count : Nat} {s : State} {t : State}
    (h : execFreqMeasureDone count s = .next t) : Keeps 0x505C0000 s t := by
  have hm := Sub.refl 0x505C0000
  unfold execFreqMeasureDone at h
  refine run_keeps ?_ h
  intro _
  repeat' first
      | (with_reducible first
          | exact Keeps.refl _ | apply Keeps.ite | apply State.modClk_keeps | apply State.answer_keeps
          | exact Keeps.id_ _ | assumption)
      | (apply Sub.of <;> first | assumption | rfl) | split | dsimp only | intro _

theorem execFmtrTimeout_keeps {s : State} {t : State} (h : execFmtrTimeout s = .next t) : Keeps 0x505C0000 s t := by
  have hm := Sub.refl 0x505C0000
  unfold execFmtrTimeout at h
  refine run_keeps ?_ h
  intro _
  repeat' first
      | (with_reducible first
          | exact Keeps.refl _ | apply Keeps.ite | apply State.modClk_keeps | apply State.answer_keeps
          | exact Keeps.id_ _ | assumption)
      | (apply Sub.of <;> first | assumption | rfl) | split | dsimp only | intro _

theorem execDiagTimeout_keeps {h : CmdHdr} {press : Option Nat} {s : State} {t : State}
    (h : execDiagTimeout h press s = .next t) : Keeps 0xD97D5FF0 s t := by
  have hm := Sub.refl 0xD97D5FF0
  unfold execDiagTimeout at h
  refine run_keeps ?_ h
  intro _
  repeat' first
      | (with_reducible first
          | exact Keeps.refl _ | apply Keeps.ite | apply clerk_keeps | apply State.modClk_keeps
          | apply State.retirePress_keeps | apply State.reply_keeps | exact Keeps.id_ _ | assumption)
      | exact Or.inl ⟨rfl, rfl⟩ | refine Or.inr ?_ | (apply Sub.of <;> first | assumption | rfl) | split | dsimp only
      | intro _

end Sys2Proof.Machine
end

