-- ==== Sys2Proof/Laws/Frames.lean ====
section
/-! SUPPORT. The parts of the state that raising a record, posting a message, answering a command and writing an audit
record leave as they are, one lemma per part; and the frame of a command from what it keeps. -/

namespace Sys2Proof.Machine
set_option Elab.async false

theorem State.logged_keeps {μ : Nat} {s₀ : State} (s : State) (c : Shape) (h : CmdHdr) (hk : Keeps μ s₀ s)
    (hm : Sub 0x4000000 μ := by first | assumption | (apply Sub.of <;> first | assumption | rfl)) : Keeps μ s₀ (s.logged c h) := by
  unfold State.logged
  exact .ite (State.auditCmd_keeps _ _ _ _ _ hk) hk

/-- Every part, by its index. -/
def allFields : List Field :=
  [.now, .stamp, .free, .power, .streams, .egress, .journals, .stalls, .voices, .bases, .rows, .presses, .stages, .recUnits, .engines, .channels,
   .dies, .mem, .nets, .sessions, .vct, .criers, .clerk, .exports, .flash, .fw, .sec, .saps, .clk, .jtag, .sent, .rings, .heldMoves]

/-- What a mask does not name, a list that names the mask's parts does not either. -/
theorem Keeps.only {μ : Nat} {l : List Field} {s t : State} (h : Keeps μ s t)
    (k : (allFields.all fun f => l.contains f || !μ.testBit f.ctorIdx) = true) : Only l s t := by
  refine ⟨h.pending, fun f hf => h.frame f ?_⟩
  have := List.all_eq_true.mp k f (by cases f <;> decide)
  simpa [hf] using this

theorem Only.refl (l : List Field) (s : State) : Only l s s := ⟨rfl, fun f _ => f.same_refl s⟩
theorem Only.trans {l : List Field} {s t u : State} (h : Only l s t) (k : Only l t u) : Only l s u :=
  ⟨k.1.trans h.1, fun f q => f.same_trans (h.2 f q) (k.2 f q)⟩

/-- What sending a VCT frame on a port does. -/
theorem State.sendOn_sends (s : State) (p : Nat) (x : Sent) : Sends p x s (s.sendOn p x) := by
  unfold Sends State.sendOn State.sendFrame
  by_cases h : x.waits (s.net p) = true
  · simp +contextual [h]
  · by_cases k : (s.net p).live = true <;> simp +contextual [h, k]

/-- What sending a VCT frame of a session does. -/
theorem State.sendVct_sends (s : State) (k : Nat) (x : Sent) : Sends (s.sess k).src.port x s (s.sendVct k x) :=
  s.sendOn_sends _ x

theorem State.sendVct_only (s : State) (k : Nat) (x : Sent) : Only [.nets, .sent] s (s.sendVct k x) :=
  (State.sendVct_keeps s k x (.refl s) (.refl _)).only (by decide)

/-! ## `State.raise` -/

@[simp] theorem State.raise_pending (s : State) (src : Nat) (r : CrierRec) : (s.raise src r).pending = s.pending :=
  (State.raise_keeps s _ _ (.refl s) (.refl _)).pending
@[simp] theorem State.raise_now (s : State) (src : Nat) (r : CrierRec) : (s.raise src r).now = s.now :=
  (State.raise_keeps s _ _ (.refl s) (.refl _)).frame .now rfl
@[simp] theorem State.raise_stamp (s : State) (src : Nat) (r : CrierRec) : (s.raise src r).stamp = s.stamp :=
  (State.raise_keeps s _ _ (.refl s) (.refl _)).frame .stamp rfl
@[simp] theorem State.raise_free (s : State) (src : Nat) (r : CrierRec) : (s.raise src r).free = s.free :=
  (State.raise_keeps s _ _ (.refl s) (.refl _)).frame .free rfl
@[simp] theorem State.raise_power (s : State) (src : Nat) (r : CrierRec) : (s.raise src r).power = s.power :=
  (State.raise_keeps s _ _ (.refl s) (.refl _)).frame .power rfl
@[simp] theorem State.raise_streams (s : State) (src : Nat) (r : CrierRec) : (s.raise src r).streams = s.streams :=
  (State.raise_keeps s _ _ (.refl s) (.refl _)).frame .streams rfl
@[simp] theorem State.raise_stream (s : State) (src : Nat) (r : CrierRec) (j : Nat) : (s.raise src r).stream j = s.stream j := by
  simp [State.stream]
@[simp] theorem State.raise_egress (s : State) (src : Nat) (r : CrierRec) : (s.raise src r).egress = s.egress :=
  (State.raise_keeps s _ _ (.refl s) (.refl _)).frame .egress rfl
@[simp] theorem State.raise_egr (s : State) (src : Nat) (r : CrierRec) (j : Nat) : (s.raise src r).egr j = s.egr j := by
  simp [State.egr]
@[simp] theorem State.raise_journals (s : State) (src : Nat) (r : CrierRec) : (s.raise src r).journals = s.journals :=
  (State.raise_keeps s _ _ (.refl s) (.refl _)).frame .journals rfl
@[simp] theorem State.raise_journal (s : State) (src : Nat) (r : CrierRec) (j : Nat) : (s.raise src r).journal j = s.journal j := by
  simp [State.journal]
@[simp] theorem State.raise_stalls (s : State) (src : Nat) (r : CrierRec) : (s.raise src r).stalls = s.stalls :=
  (State.raise_keeps s _ _ (.refl s) (.refl _)).frame .stalls rfl
@[simp] theorem State.raise_stall (s : State) (src : Nat) (r : CrierRec) (j : Nat) : (s.raise src r).stall j = s.stall j := by
  simp [State.stall]
@[simp] theorem State.raise_voices (s : State) (src : Nat) (r : CrierRec) : (s.raise src r).voices = s.voices :=
  (State.raise_keeps s _ _ (.refl s) (.refl _)).frame .voices rfl
@[simp] theorem State.raise_voice (s : State) (src : Nat) (r : CrierRec) (j : Nat) : (s.raise src r).voice j = s.voice j := by
  simp [State.voice]
@[simp] theorem State.raise_bases (s : State) (src : Nat) (r : CrierRec) : (s.raise src r).bases = s.bases :=
  (State.raise_keeps s _ _ (.refl s) (.refl _)).frame .bases rfl
@[simp] theorem State.raise_base (s : State) (src : Nat) (r : CrierRec) (j : Nat) : (s.raise src r).base j = s.base j := by
  simp [State.base]
@[simp] theorem State.raise_rows (s : State) (src : Nat) (r : CrierRec) : (s.raise src r).rows = s.rows :=
  (State.raise_keeps s _ _ (.refl s) (.refl _)).frame .rows rfl
@[simp] theorem State.raise_row (s : State) (src : Nat) (r : CrierRec) (j : Nat) : (s.raise src r).row j = s.row j := by
  simp [State.row]
@[simp] theorem State.raise_presses (s : State) (src : Nat) (r : CrierRec) : (s.raise src r).presses = s.presses :=
  (State.raise_keeps s _ _ (.refl s) (.refl _)).frame .presses rfl
@[simp] theorem State.raise_press (s : State) (src : Nat) (r : CrierRec) (j : Nat) : (s.raise src r).press j = s.press j := by
  simp [State.press]
@[simp] theorem State.raise_stages (s : State) (src : Nat) (r : CrierRec) : (s.raise src r).stages = s.stages :=
  (State.raise_keeps s _ _ (.refl s) (.refl _)).frame .stages rfl
@[simp] theorem State.raise_stage (s : State) (src : Nat) (r : CrierRec) (j : Nat) : (s.raise src r).stage j = s.stage j := by
  simp [State.stage]
@[simp] theorem State.raise_recUnits (s : State) (src : Nat) (r : CrierRec) : (s.raise src r).recUnits = s.recUnits :=
  (State.raise_keeps s _ _ (.refl s) (.refl _)).frame .recUnits rfl
@[simp] theorem State.raise_recUnit (s : State) (src : Nat) (r : CrierRec) (j : Nat) : (s.raise src r).recUnit j = s.recUnit j := by
  simp [State.recUnit]
@[simp] theorem State.raise_engines (s : State) (src : Nat) (r : CrierRec) : (s.raise src r).engines = s.engines :=
  (State.raise_keeps s _ _ (.refl s) (.refl _)).frame .engines rfl
@[simp] theorem State.raise_engine (s : State) (src : Nat) (r : CrierRec) (j : Nat) : (s.raise src r).engine j = s.engine j := by
  simp [State.engine]
@[simp] theorem State.raise_channels (s : State) (src : Nat) (r : CrierRec) : (s.raise src r).channels = s.channels :=
  (State.raise_keeps s _ _ (.refl s) (.refl _)).frame .channels rfl
@[simp] theorem State.raise_channel (s : State) (src : Nat) (r : CrierRec) (j : Nat) : (s.raise src r).channel j = s.channel j := by
  simp [State.channel]
@[simp] theorem State.raise_dies (s : State) (src : Nat) (r : CrierRec) : (s.raise src r).dies = s.dies :=
  (State.raise_keeps s _ _ (.refl s) (.refl _)).frame .dies rfl
@[simp] theorem State.raise_die (s : State) (src : Nat) (r : CrierRec) (j : Nat) : (s.raise src r).die j = s.die j := by
  simp [State.die]
@[simp] theorem State.raise_mem (s : State) (src : Nat) (r : CrierRec) : (s.raise src r).mem = s.mem :=
  (State.raise_keeps s _ _ (.refl s) (.refl _)).frame .mem rfl
@[simp] theorem State.raise_nets (s : State) (src : Nat) (r : CrierRec) : (s.raise src r).nets = s.nets :=
  (State.raise_keeps s _ _ (.refl s) (.refl _)).frame .nets rfl
@[simp] theorem State.raise_net (s : State) (src : Nat) (r : CrierRec) (j : Nat) : (s.raise src r).net j = s.net j := by
  simp [State.net]
@[simp] theorem State.raise_sessions (s : State) (src : Nat) (r : CrierRec) : (s.raise src r).sessions = s.sessions :=
  (State.raise_keeps s _ _ (.refl s) (.refl _)).frame .sessions rfl
@[simp] theorem State.raise_sess (s : State) (src : Nat) (r : CrierRec) (j : Nat) : (s.raise src r).sess j = s.sess j := by
  simp [State.sess]
@[simp] theorem State.raise_vct (s : State) (src : Nat) (r : CrierRec) : (s.raise src r).vct = s.vct :=
  (State.raise_keeps s _ _ (.refl s) (.refl _)).frame .vct rfl
@[simp] theorem State.raise_exports (s : State) (src : Nat) (r : CrierRec) : (s.raise src r).exports = s.exports :=
  (State.raise_keeps s _ _ (.refl s) (.refl _)).frame .exports rfl
@[simp] theorem State.raise_img (s : State) (src : Nat) (r : CrierRec) (j : Nat) : (s.raise src r).img j = s.img j := by
  simp [State.img]
@[simp] theorem State.raise_flash (s : State) (src : Nat) (r : CrierRec) : (s.raise src r).flash = s.flash :=
  (State.raise_keeps s _ _ (.refl s) (.refl _)).frame .flash rfl
@[simp] theorem State.raise_park (s : State) (src : Nat) (r : CrierRec) (j : Nat) : (s.raise src r).park j = s.park j := by
  simp [State.park]
@[simp] theorem State.raise_lib (s : State) (src : Nat) (r : CrierRec) (j : Nat) : (s.raise src r).lib j = s.lib j := by
  simp [State.lib]
@[simp] theorem State.raise_fw (s : State) (src : Nat) (r : CrierRec) : (s.raise src r).fw = s.fw :=
  (State.raise_keeps s _ _ (.refl s) (.refl _)).frame .fw rfl
@[simp] theorem State.raise_sec (s : State) (src : Nat) (r : CrierRec) : (s.raise src r).sec = s.sec :=
  (State.raise_keeps s _ _ (.refl s) (.refl _)).frame .sec rfl
@[simp] theorem State.raise_saps (s : State) (src : Nat) (r : CrierRec) : (s.raise src r).saps = s.saps :=
  (State.raise_keeps s _ _ (.refl s) (.refl _)).frame .saps rfl
@[simp] theorem State.raise_sap (s : State) (src : Nat) (r : CrierRec) (j : Nat) : (s.raise src r).sap j = s.sap j := by
  simp [State.sap]
@[simp] theorem State.raise_clk (s : State) (src : Nat) (r : CrierRec) : (s.raise src r).clk = s.clk :=
  (State.raise_keeps s _ _ (.refl s) (.refl _)).frame .clk rfl
@[simp] theorem State.raise_jtag (s : State) (src : Nat) (r : CrierRec) : (s.raise src r).jtag = s.jtag :=
  (State.raise_keeps s _ _ (.refl s) (.refl _)).frame .jtag rfl
@[simp] theorem State.raise_sent (s : State) (src : Nat) (r : CrierRec) : (s.raise src r).sent = s.sent :=
  (State.raise_keeps s _ _ (.refl s) (.refl _)).frame .sent rfl
@[simp] theorem State.raise_rings (s : State) (src : Nat) (r : CrierRec) : (s.raise src r).rings = s.rings :=
  (State.raise_keeps s _ _ (.refl s) (.refl _)).frame .rings rfl
@[simp] theorem State.raise_heldMoves (s : State) (src : Nat) (r : CrierRec) : (s.raise src r).heldMoves = s.heldMoves :=
  (State.raise_keeps s _ _ (.refl s) (.refl _)).frame .heldMoves rfl

/-! ## `State.post` -/

@[simp] theorem State.post_pending (s : State) (k type : Nat) (body : List Byte) (aud : Option (Nat × Nat × Nat)) : (s.post k type body aud).pending = s.pending :=
  (State.post_keeps s _ _ _ _ (.refl s) (.refl _)).pending
@[simp] theorem State.post_now (s : State) (k type : Nat) (body : List Byte) (aud : Option (Nat × Nat × Nat)) : (s.post k type body aud).now = s.now :=
  (State.post_keeps s _ _ _ _ (.refl s) (.refl _)).frame .now rfl
@[simp] theorem State.post_stamp (s : State) (k type : Nat) (body : List Byte) (aud : Option (Nat × Nat × Nat)) : (s.post k type body aud).stamp = s.stamp :=
  (State.post_keeps s _ _ _ _ (.refl s) (.refl _)).frame .stamp rfl
@[simp] theorem State.post_free (s : State) (k type : Nat) (body : List Byte) (aud : Option (Nat × Nat × Nat)) : (s.post k type body aud).free = s.free :=
  (State.post_keeps s _ _ _ _ (.refl s) (.refl _)).frame .free rfl
@[simp] theorem State.post_power (s : State) (k type : Nat) (body : List Byte) (aud : Option (Nat × Nat × Nat)) : (s.post k type body aud).power = s.power :=
  (State.post_keeps s _ _ _ _ (.refl s) (.refl _)).frame .power rfl
@[simp] theorem State.post_streams (s : State) (k type : Nat) (body : List Byte) (aud : Option (Nat × Nat × Nat)) : (s.post k type body aud).streams = s.streams :=
  (State.post_keeps s _ _ _ _ (.refl s) (.refl _)).frame .streams rfl
@[simp] theorem State.post_stream (s : State) (k type : Nat) (body : List Byte) (aud : Option (Nat × Nat × Nat)) (j : Nat) : (s.post k type body aud).stream j = s.stream j := by
  simp [State.stream]
@[simp] theorem State.post_egress (s : State) (k type : Nat) (body : List Byte) (aud : Option (Nat × Nat × Nat)) : (s.post k type body aud).egress = s.egress :=
  (State.post_keeps s _ _ _ _ (.refl s) (.refl _)).frame .egress rfl
@[simp] theorem State.post_egr (s : State) (k type : Nat) (body : List Byte) (aud : Option (Nat × Nat × Nat)) (j : Nat) : (s.post k type body aud).egr j = s.egr j := by
  simp [State.egr]
@[simp] theorem State.post_journals (s : State) (k type : Nat) (body : List Byte) (aud : Option (Nat × Nat × Nat)) : (s.post k type body aud).journals = s.journals :=
  (State.post_keeps s _ _ _ _ (.refl s) (.refl _)).frame .journals rfl
@[simp] theorem State.post_journal (s : State) (k type : Nat) (body : List Byte) (aud : Option (Nat × Nat × Nat)) (j : Nat) : (s.post k type body aud).journal j = s.journal j := by
  simp [State.journal]
@[simp] theorem State.post_stalls (s : State) (k type : Nat) (body : List Byte) (aud : Option (Nat × Nat × Nat)) : (s.post k type body aud).stalls = s.stalls :=
  (State.post_keeps s _ _ _ _ (.refl s) (.refl _)).frame .stalls rfl
@[simp] theorem State.post_stall (s : State) (k type : Nat) (body : List Byte) (aud : Option (Nat × Nat × Nat)) (j : Nat) : (s.post k type body aud).stall j = s.stall j := by
  simp [State.stall]
@[simp] theorem State.post_voices (s : State) (k type : Nat) (body : List Byte) (aud : Option (Nat × Nat × Nat)) : (s.post k type body aud).voices = s.voices :=
  (State.post_keeps s _ _ _ _ (.refl s) (.refl _)).frame .voices rfl
@[simp] theorem State.post_voice (s : State) (k type : Nat) (body : List Byte) (aud : Option (Nat × Nat × Nat)) (j : Nat) : (s.post k type body aud).voice j = s.voice j := by
  simp [State.voice]
@[simp] theorem State.post_bases (s : State) (k type : Nat) (body : List Byte) (aud : Option (Nat × Nat × Nat)) : (s.post k type body aud).bases = s.bases :=
  (State.post_keeps s _ _ _ _ (.refl s) (.refl _)).frame .bases rfl
@[simp] theorem State.post_base (s : State) (k type : Nat) (body : List Byte) (aud : Option (Nat × Nat × Nat)) (j : Nat) : (s.post k type body aud).base j = s.base j := by
  simp [State.base]
@[simp] theorem State.post_rows (s : State) (k type : Nat) (body : List Byte) (aud : Option (Nat × Nat × Nat)) : (s.post k type body aud).rows = s.rows :=
  (State.post_keeps s _ _ _ _ (.refl s) (.refl _)).frame .rows rfl
@[simp] theorem State.post_row (s : State) (k type : Nat) (body : List Byte) (aud : Option (Nat × Nat × Nat)) (j : Nat) : (s.post k type body aud).row j = s.row j := by
  simp [State.row]
@[simp] theorem State.post_presses (s : State) (k type : Nat) (body : List Byte) (aud : Option (Nat × Nat × Nat)) : (s.post k type body aud).presses = s.presses :=
  (State.post_keeps s _ _ _ _ (.refl s) (.refl _)).frame .presses rfl
@[simp] theorem State.post_press (s : State) (k type : Nat) (body : List Byte) (aud : Option (Nat × Nat × Nat)) (j : Nat) : (s.post k type body aud).press j = s.press j := by
  simp [State.press]
@[simp] theorem State.post_stages (s : State) (k type : Nat) (body : List Byte) (aud : Option (Nat × Nat × Nat)) : (s.post k type body aud).stages = s.stages :=
  (State.post_keeps s _ _ _ _ (.refl s) (.refl _)).frame .stages rfl
@[simp] theorem State.post_stage (s : State) (k type : Nat) (body : List Byte) (aud : Option (Nat × Nat × Nat)) (j : Nat) : (s.post k type body aud).stage j = s.stage j := by
  simp [State.stage]
@[simp] theorem State.post_recUnits (s : State) (k type : Nat) (body : List Byte) (aud : Option (Nat × Nat × Nat)) : (s.post k type body aud).recUnits = s.recUnits :=
  (State.post_keeps s _ _ _ _ (.refl s) (.refl _)).frame .recUnits rfl
@[simp] theorem State.post_recUnit (s : State) (k type : Nat) (body : List Byte) (aud : Option (Nat × Nat × Nat)) (j : Nat) : (s.post k type body aud).recUnit j = s.recUnit j := by
  simp [State.recUnit]
@[simp] theorem State.post_engines (s : State) (k type : Nat) (body : List Byte) (aud : Option (Nat × Nat × Nat)) : (s.post k type body aud).engines = s.engines :=
  (State.post_keeps s _ _ _ _ (.refl s) (.refl _)).frame .engines rfl
@[simp] theorem State.post_engine (s : State) (k type : Nat) (body : List Byte) (aud : Option (Nat × Nat × Nat)) (j : Nat) : (s.post k type body aud).engine j = s.engine j := by
  simp [State.engine]
@[simp] theorem State.post_channels (s : State) (k type : Nat) (body : List Byte) (aud : Option (Nat × Nat × Nat)) : (s.post k type body aud).channels = s.channels :=
  (State.post_keeps s _ _ _ _ (.refl s) (.refl _)).frame .channels rfl
@[simp] theorem State.post_channel (s : State) (k type : Nat) (body : List Byte) (aud : Option (Nat × Nat × Nat)) (j : Nat) : (s.post k type body aud).channel j = s.channel j := by
  simp [State.channel]
@[simp] theorem State.post_dies (s : State) (k type : Nat) (body : List Byte) (aud : Option (Nat × Nat × Nat)) : (s.post k type body aud).dies = s.dies :=
  (State.post_keeps s _ _ _ _ (.refl s) (.refl _)).frame .dies rfl
@[simp] theorem State.post_die (s : State) (k type : Nat) (body : List Byte) (aud : Option (Nat × Nat × Nat)) (j : Nat) : (s.post k type body aud).die j = s.die j := by
  simp [State.die]
@[simp] theorem State.post_mem (s : State) (k type : Nat) (body : List Byte) (aud : Option (Nat × Nat × Nat)) : (s.post k type body aud).mem = s.mem :=
  (State.post_keeps s _ _ _ _ (.refl s) (.refl _)).frame .mem rfl
@[simp] theorem State.post_criers (s : State) (k type : Nat) (body : List Byte) (aud : Option (Nat × Nat × Nat)) : (s.post k type body aud).criers = s.criers :=
  (State.post_keeps s _ _ _ _ (.refl s) (.refl _)).frame .criers rfl
@[simp] theorem State.post_crierSrc (s : State) (k type : Nat) (body : List Byte) (aud : Option (Nat × Nat × Nat)) (j : Nat) : (s.post k type body aud).crierSrc j = s.crierSrc j := by
  simp [State.crierSrc]
@[simp] theorem State.post_clerk (s : State) (k type : Nat) (body : List Byte) (aud : Option (Nat × Nat × Nat)) : (s.post k type body aud).clerk = s.clerk :=
  (State.post_keeps s _ _ _ _ (.refl s) (.refl _)).frame .clerk rfl
@[simp] theorem State.post_exports (s : State) (k type : Nat) (body : List Byte) (aud : Option (Nat × Nat × Nat)) : (s.post k type body aud).exports = s.exports :=
  (State.post_keeps s _ _ _ _ (.refl s) (.refl _)).frame .exports rfl
@[simp] theorem State.post_img (s : State) (k type : Nat) (body : List Byte) (aud : Option (Nat × Nat × Nat)) (j : Nat) : (s.post k type body aud).img j = s.img j := by
  simp [State.img]
@[simp] theorem State.post_flash (s : State) (k type : Nat) (body : List Byte) (aud : Option (Nat × Nat × Nat)) : (s.post k type body aud).flash = s.flash :=
  (State.post_keeps s _ _ _ _ (.refl s) (.refl _)).frame .flash rfl
@[simp] theorem State.post_park (s : State) (k type : Nat) (body : List Byte) (aud : Option (Nat × Nat × Nat)) (j : Nat) : (s.post k type body aud).park j = s.park j := by
  simp [State.park]
@[simp] theorem State.post_lib (s : State) (k type : Nat) (body : List Byte) (aud : Option (Nat × Nat × Nat)) (j : Nat) : (s.post k type body aud).lib j = s.lib j := by
  simp [State.lib]
@[simp] theorem State.post_fw (s : State) (k type : Nat) (body : List Byte) (aud : Option (Nat × Nat × Nat)) : (s.post k type body aud).fw = s.fw :=
  (State.post_keeps s _ _ _ _ (.refl s) (.refl _)).frame .fw rfl
@[simp] theorem State.post_sec (s : State) (k type : Nat) (body : List Byte) (aud : Option (Nat × Nat × Nat)) : (s.post k type body aud).sec = s.sec :=
  (State.post_keeps s _ _ _ _ (.refl s) (.refl _)).frame .sec rfl
@[simp] theorem State.post_saps (s : State) (k type : Nat) (body : List Byte) (aud : Option (Nat × Nat × Nat)) : (s.post k type body aud).saps = s.saps :=
  (State.post_keeps s _ _ _ _ (.refl s) (.refl _)).frame .saps rfl
@[simp] theorem State.post_sap (s : State) (k type : Nat) (body : List Byte) (aud : Option (Nat × Nat × Nat)) (j : Nat) : (s.post k type body aud).sap j = s.sap j := by
  simp [State.sap]
@[simp] theorem State.post_clk (s : State) (k type : Nat) (body : List Byte) (aud : Option (Nat × Nat × Nat)) : (s.post k type body aud).clk = s.clk :=
  (State.post_keeps s _ _ _ _ (.refl s) (.refl _)).frame .clk rfl
@[simp] theorem State.post_jtag (s : State) (k type : Nat) (body : List Byte) (aud : Option (Nat × Nat × Nat)) : (s.post k type body aud).jtag = s.jtag :=
  (State.post_keeps s _ _ _ _ (.refl s) (.refl _)).frame .jtag rfl
@[simp] theorem State.post_rings (s : State) (k type : Nat) (body : List Byte) (aud : Option (Nat × Nat × Nat)) : (s.post k type body aud).rings = s.rings :=
  (State.post_keeps s _ _ _ _ (.refl s) (.refl _)).frame .rings rfl
@[simp] theorem State.post_heldMoves (s : State) (k type : Nat) (body : List Byte) (aud : Option (Nat × Nat × Nat)) : (s.post k type body aud).heldMoves = s.heldMoves :=
  (State.post_keeps s _ _ _ _ (.refl s) (.refl _)).frame .heldMoves rfl

/-! ## `State.respond` -/

@[simp] theorem State.respond_pending (s : State) (d : Defer) (st : Status) (flags : Nat) (body : List Byte) : (s.respond d st flags body).pending = s.pending :=
  (State.respond_keeps s _ _ _ _ (.refl s) (.refl _)).pending
@[simp] theorem State.respond_now (s : State) (d : Defer) (st : Status) (flags : Nat) (body : List Byte) : (s.respond d st flags body).now = s.now :=
  (State.respond_keeps s _ _ _ _ (.refl s) (.refl _)).frame .now rfl
@[simp] theorem State.respond_stamp (s : State) (d : Defer) (st : Status) (flags : Nat) (body : List Byte) : (s.respond d st flags body).stamp = s.stamp :=
  (State.respond_keeps s _ _ _ _ (.refl s) (.refl _)).frame .stamp rfl
@[simp] theorem State.respond_free (s : State) (d : Defer) (st : Status) (flags : Nat) (body : List Byte) : (s.respond d st flags body).free = s.free :=
  (State.respond_keeps s _ _ _ _ (.refl s) (.refl _)).frame .free rfl
@[simp] theorem State.respond_power (s : State) (d : Defer) (st : Status) (flags : Nat) (body : List Byte) : (s.respond d st flags body).power = s.power :=
  (State.respond_keeps s _ _ _ _ (.refl s) (.refl _)).frame .power rfl
@[simp] theorem State.respond_streams (s : State) (d : Defer) (st : Status) (flags : Nat) (body : List Byte) : (s.respond d st flags body).streams = s.streams :=
  (State.respond_keeps s _ _ _ _ (.refl s) (.refl _)).frame .streams rfl
@[simp] theorem State.respond_stream (s : State) (d : Defer) (st : Status) (flags : Nat) (body : List Byte) (j : Nat) : (s.respond d st flags body).stream j = s.stream j := by
  simp [State.stream]
@[simp] theorem State.respond_egress (s : State) (d : Defer) (st : Status) (flags : Nat) (body : List Byte) : (s.respond d st flags body).egress = s.egress :=
  (State.respond_keeps s _ _ _ _ (.refl s) (.refl _)).frame .egress rfl
@[simp] theorem State.respond_egr (s : State) (d : Defer) (st : Status) (flags : Nat) (body : List Byte) (j : Nat) : (s.respond d st flags body).egr j = s.egr j := by
  simp [State.egr]
@[simp] theorem State.respond_journals (s : State) (d : Defer) (st : Status) (flags : Nat) (body : List Byte) : (s.respond d st flags body).journals = s.journals :=
  (State.respond_keeps s _ _ _ _ (.refl s) (.refl _)).frame .journals rfl
@[simp] theorem State.respond_journal (s : State) (d : Defer) (st : Status) (flags : Nat) (body : List Byte) (j : Nat) : (s.respond d st flags body).journal j = s.journal j := by
  simp [State.journal]
@[simp] theorem State.respond_stalls (s : State) (d : Defer) (st : Status) (flags : Nat) (body : List Byte) : (s.respond d st flags body).stalls = s.stalls :=
  (State.respond_keeps s _ _ _ _ (.refl s) (.refl _)).frame .stalls rfl
@[simp] theorem State.respond_stall (s : State) (d : Defer) (st : Status) (flags : Nat) (body : List Byte) (j : Nat) : (s.respond d st flags body).stall j = s.stall j := by
  simp [State.stall]
@[simp] theorem State.respond_voices (s : State) (d : Defer) (st : Status) (flags : Nat) (body : List Byte) : (s.respond d st flags body).voices = s.voices :=
  (State.respond_keeps s _ _ _ _ (.refl s) (.refl _)).frame .voices rfl
@[simp] theorem State.respond_voice (s : State) (d : Defer) (st : Status) (flags : Nat) (body : List Byte) (j : Nat) : (s.respond d st flags body).voice j = s.voice j := by
  simp [State.voice]
@[simp] theorem State.respond_bases (s : State) (d : Defer) (st : Status) (flags : Nat) (body : List Byte) : (s.respond d st flags body).bases = s.bases :=
  (State.respond_keeps s _ _ _ _ (.refl s) (.refl _)).frame .bases rfl
@[simp] theorem State.respond_base (s : State) (d : Defer) (st : Status) (flags : Nat) (body : List Byte) (j : Nat) : (s.respond d st flags body).base j = s.base j := by
  simp [State.base]
@[simp] theorem State.respond_rows (s : State) (d : Defer) (st : Status) (flags : Nat) (body : List Byte) : (s.respond d st flags body).rows = s.rows :=
  (State.respond_keeps s _ _ _ _ (.refl s) (.refl _)).frame .rows rfl
@[simp] theorem State.respond_row (s : State) (d : Defer) (st : Status) (flags : Nat) (body : List Byte) (j : Nat) : (s.respond d st flags body).row j = s.row j := by
  simp [State.row]
@[simp] theorem State.respond_presses (s : State) (d : Defer) (st : Status) (flags : Nat) (body : List Byte) : (s.respond d st flags body).presses = s.presses :=
  (State.respond_keeps s _ _ _ _ (.refl s) (.refl _)).frame .presses rfl
@[simp] theorem State.respond_press (s : State) (d : Defer) (st : Status) (flags : Nat) (body : List Byte) (j : Nat) : (s.respond d st flags body).press j = s.press j := by
  simp [State.press]
@[simp] theorem State.respond_stages (s : State) (d : Defer) (st : Status) (flags : Nat) (body : List Byte) : (s.respond d st flags body).stages = s.stages :=
  (State.respond_keeps s _ _ _ _ (.refl s) (.refl _)).frame .stages rfl
@[simp] theorem State.respond_stage (s : State) (d : Defer) (st : Status) (flags : Nat) (body : List Byte) (j : Nat) : (s.respond d st flags body).stage j = s.stage j := by
  simp [State.stage]
@[simp] theorem State.respond_recUnits (s : State) (d : Defer) (st : Status) (flags : Nat) (body : List Byte) : (s.respond d st flags body).recUnits = s.recUnits :=
  (State.respond_keeps s _ _ _ _ (.refl s) (.refl _)).frame .recUnits rfl
@[simp] theorem State.respond_recUnit (s : State) (d : Defer) (st : Status) (flags : Nat) (body : List Byte) (j : Nat) : (s.respond d st flags body).recUnit j = s.recUnit j := by
  simp [State.recUnit]
@[simp] theorem State.respond_engines (s : State) (d : Defer) (st : Status) (flags : Nat) (body : List Byte) : (s.respond d st flags body).engines = s.engines :=
  (State.respond_keeps s _ _ _ _ (.refl s) (.refl _)).frame .engines rfl
@[simp] theorem State.respond_engine (s : State) (d : Defer) (st : Status) (flags : Nat) (body : List Byte) (j : Nat) : (s.respond d st flags body).engine j = s.engine j := by
  simp [State.engine]
@[simp] theorem State.respond_channels (s : State) (d : Defer) (st : Status) (flags : Nat) (body : List Byte) : (s.respond d st flags body).channels = s.channels :=
  (State.respond_keeps s _ _ _ _ (.refl s) (.refl _)).frame .channels rfl
@[simp] theorem State.respond_channel (s : State) (d : Defer) (st : Status) (flags : Nat) (body : List Byte) (j : Nat) : (s.respond d st flags body).channel j = s.channel j := by
  simp [State.channel]
@[simp] theorem State.respond_dies (s : State) (d : Defer) (st : Status) (flags : Nat) (body : List Byte) : (s.respond d st flags body).dies = s.dies :=
  (State.respond_keeps s _ _ _ _ (.refl s) (.refl _)).frame .dies rfl
@[simp] theorem State.respond_die (s : State) (d : Defer) (st : Status) (flags : Nat) (body : List Byte) (j : Nat) : (s.respond d st flags body).die j = s.die j := by
  simp [State.die]
@[simp] theorem State.respond_mem (s : State) (d : Defer) (st : Status) (flags : Nat) (body : List Byte) : (s.respond d st flags body).mem = s.mem :=
  (State.respond_keeps s _ _ _ _ (.refl s) (.refl _)).frame .mem rfl
@[simp] theorem State.respond_criers (s : State) (d : Defer) (st : Status) (flags : Nat) (body : List Byte) : (s.respond d st flags body).criers = s.criers :=
  (State.respond_keeps s _ _ _ _ (.refl s) (.refl _)).frame .criers rfl
@[simp] theorem State.respond_crierSrc (s : State) (d : Defer) (st : Status) (flags : Nat) (body : List Byte) (j : Nat) : (s.respond d st flags body).crierSrc j = s.crierSrc j := by
  simp [State.crierSrc]
@[simp] theorem State.respond_exports (s : State) (d : Defer) (st : Status) (flags : Nat) (body : List Byte) : (s.respond d st flags body).exports = s.exports :=
  (State.respond_keeps s _ _ _ _ (.refl s) (.refl _)).frame .exports rfl
@[simp] theorem State.respond_img (s : State) (d : Defer) (st : Status) (flags : Nat) (body : List Byte) (j : Nat) : (s.respond d st flags body).img j = s.img j := by
  simp [State.img]
@[simp] theorem State.respond_flash (s : State) (d : Defer) (st : Status) (flags : Nat) (body : List Byte) : (s.respond d st flags body).flash = s.flash :=
  (State.respond_keeps s _ _ _ _ (.refl s) (.refl _)).frame .flash rfl
@[simp] theorem State.respond_park (s : State) (d : Defer) (st : Status) (flags : Nat) (body : List Byte) (j : Nat) : (s.respond d st flags body).park j = s.park j := by
  simp [State.park]
@[simp] theorem State.respond_lib (s : State) (d : Defer) (st : Status) (flags : Nat) (body : List Byte) (j : Nat) : (s.respond d st flags body).lib j = s.lib j := by
  simp [State.lib]
@[simp] theorem State.respond_fw (s : State) (d : Defer) (st : Status) (flags : Nat) (body : List Byte) : (s.respond d st flags body).fw = s.fw :=
  (State.respond_keeps s _ _ _ _ (.refl s) (.refl _)).frame .fw rfl
@[simp] theorem State.respond_sec (s : State) (d : Defer) (st : Status) (flags : Nat) (body : List Byte) : (s.respond d st flags body).sec = s.sec :=
  (State.respond_keeps s _ _ _ _ (.refl s) (.refl _)).frame .sec rfl
@[simp] theorem State.respond_saps (s : State) (d : Defer) (st : Status) (flags : Nat) (body : List Byte) : (s.respond d st flags body).saps = s.saps :=
  (State.respond_keeps s _ _ _ _ (.refl s) (.refl _)).frame .saps rfl
@[simp] theorem State.respond_sap (s : State) (d : Defer) (st : Status) (flags : Nat) (body : List Byte) (j : Nat) : (s.respond d st flags body).sap j = s.sap j := by
  simp [State.sap]
@[simp] theorem State.respond_clk (s : State) (d : Defer) (st : Status) (flags : Nat) (body : List Byte) : (s.respond d st flags body).clk = s.clk :=
  (State.respond_keeps s _ _ _ _ (.refl s) (.refl _)).frame .clk rfl
@[simp] theorem State.respond_jtag (s : State) (d : Defer) (st : Status) (flags : Nat) (body : List Byte) : (s.respond d st flags body).jtag = s.jtag :=
  (State.respond_keeps s _ _ _ _ (.refl s) (.refl _)).frame .jtag rfl
@[simp] theorem State.respond_rings (s : State) (d : Defer) (st : Status) (flags : Nat) (body : List Byte) : (s.respond d st flags body).rings = s.rings :=
  (State.respond_keeps s _ _ _ _ (.refl s) (.refl _)).frame .rings rfl
@[simp] theorem State.respond_heldMoves (s : State) (d : Defer) (st : Status) (flags : Nat) (body : List Byte) : (s.respond d st flags body).heldMoves = s.heldMoves :=
  (State.respond_keeps s _ _ _ _ (.refl s) (.refl _)).frame .heldMoves rfl

/-! ## `State.reply` -/

@[simp] theorem State.reply_pending (s : State) (d : Defer) (st : Status) (flags : Nat) (body : List Byte) : (s.reply d st flags body).pending = s.pending :=
  (State.reply_keeps s _ _ _ _ (.refl s) (.refl _)).pending
@[simp] theorem State.reply_now (s : State) (d : Defer) (st : Status) (flags : Nat) (body : List Byte) : (s.reply d st flags body).now = s.now :=
  (State.reply_keeps s _ _ _ _ (.refl s) (.refl _)).frame .now rfl
@[simp] theorem State.reply_stamp (s : State) (d : Defer) (st : Status) (flags : Nat) (body : List Byte) : (s.reply d st flags body).stamp = s.stamp :=
  (State.reply_keeps s _ _ _ _ (.refl s) (.refl _)).frame .stamp rfl
@[simp] theorem State.reply_free (s : State) (d : Defer) (st : Status) (flags : Nat) (body : List Byte) : (s.reply d st flags body).free = s.free :=
  (State.reply_keeps s _ _ _ _ (.refl s) (.refl _)).frame .free rfl
@[simp] theorem State.reply_power (s : State) (d : Defer) (st : Status) (flags : Nat) (body : List Byte) : (s.reply d st flags body).power = s.power :=
  (State.reply_keeps s _ _ _ _ (.refl s) (.refl _)).frame .power rfl
@[simp] theorem State.reply_streams (s : State) (d : Defer) (st : Status) (flags : Nat) (body : List Byte) : (s.reply d st flags body).streams = s.streams :=
  (State.reply_keeps s _ _ _ _ (.refl s) (.refl _)).frame .streams rfl
@[simp] theorem State.reply_stream (s : State) (d : Defer) (st : Status) (flags : Nat) (body : List Byte) (j : Nat) : (s.reply d st flags body).stream j = s.stream j := by
  simp [State.stream]
@[simp] theorem State.reply_egress (s : State) (d : Defer) (st : Status) (flags : Nat) (body : List Byte) : (s.reply d st flags body).egress = s.egress :=
  (State.reply_keeps s _ _ _ _ (.refl s) (.refl _)).frame .egress rfl
@[simp] theorem State.reply_egr (s : State) (d : Defer) (st : Status) (flags : Nat) (body : List Byte) (j : Nat) : (s.reply d st flags body).egr j = s.egr j := by
  simp [State.egr]
@[simp] theorem State.reply_journals (s : State) (d : Defer) (st : Status) (flags : Nat) (body : List Byte) : (s.reply d st flags body).journals = s.journals :=
  (State.reply_keeps s _ _ _ _ (.refl s) (.refl _)).frame .journals rfl
@[simp] theorem State.reply_journal (s : State) (d : Defer) (st : Status) (flags : Nat) (body : List Byte) (j : Nat) : (s.reply d st flags body).journal j = s.journal j := by
  simp [State.journal]
@[simp] theorem State.reply_stalls (s : State) (d : Defer) (st : Status) (flags : Nat) (body : List Byte) : (s.reply d st flags body).stalls = s.stalls :=
  (State.reply_keeps s _ _ _ _ (.refl s) (.refl _)).frame .stalls rfl
@[simp] theorem State.reply_stall (s : State) (d : Defer) (st : Status) (flags : Nat) (body : List Byte) (j : Nat) : (s.reply d st flags body).stall j = s.stall j := by
  simp [State.stall]
@[simp] theorem State.reply_voices (s : State) (d : Defer) (st : Status) (flags : Nat) (body : List Byte) : (s.reply d st flags body).voices = s.voices :=
  (State.reply_keeps s _ _ _ _ (.refl s) (.refl _)).frame .voices rfl
@[simp] theorem State.reply_voice (s : State) (d : Defer) (st : Status) (flags : Nat) (body : List Byte) (j : Nat) : (s.reply d st flags body).voice j = s.voice j := by
  simp [State.voice]
@[simp] theorem State.reply_bases (s : State) (d : Defer) (st : Status) (flags : Nat) (body : List Byte) : (s.reply d st flags body).bases = s.bases :=
  (State.reply_keeps s _ _ _ _ (.refl s) (.refl _)).frame .bases rfl
@[simp] theorem State.reply_base (s : State) (d : Defer) (st : Status) (flags : Nat) (body : List Byte) (j : Nat) : (s.reply d st flags body).base j = s.base j := by
  simp [State.base]
@[simp] theorem State.reply_rows (s : State) (d : Defer) (st : Status) (flags : Nat) (body : List Byte) : (s.reply d st flags body).rows = s.rows :=
  (State.reply_keeps s _ _ _ _ (.refl s) (.refl _)).frame .rows rfl
@[simp] theorem State.reply_row (s : State) (d : Defer) (st : Status) (flags : Nat) (body : List Byte) (j : Nat) : (s.reply d st flags body).row j = s.row j := by
  simp [State.row]
@[simp] theorem State.reply_presses (s : State) (d : Defer) (st : Status) (flags : Nat) (body : List Byte) : (s.reply d st flags body).presses = s.presses :=
  (State.reply_keeps s _ _ _ _ (.refl s) (.refl _)).frame .presses rfl
@[simp] theorem State.reply_press (s : State) (d : Defer) (st : Status) (flags : Nat) (body : List Byte) (j : Nat) : (s.reply d st flags body).press j = s.press j := by
  simp [State.press]
@[simp] theorem State.reply_stages (s : State) (d : Defer) (st : Status) (flags : Nat) (body : List Byte) : (s.reply d st flags body).stages = s.stages :=
  (State.reply_keeps s _ _ _ _ (.refl s) (.refl _)).frame .stages rfl
@[simp] theorem State.reply_stage (s : State) (d : Defer) (st : Status) (flags : Nat) (body : List Byte) (j : Nat) : (s.reply d st flags body).stage j = s.stage j := by
  simp [State.stage]
@[simp] theorem State.reply_recUnits (s : State) (d : Defer) (st : Status) (flags : Nat) (body : List Byte) : (s.reply d st flags body).recUnits = s.recUnits :=
  (State.reply_keeps s _ _ _ _ (.refl s) (.refl _)).frame .recUnits rfl
@[simp] theorem State.reply_recUnit (s : State) (d : Defer) (st : Status) (flags : Nat) (body : List Byte) (j : Nat) : (s.reply d st flags body).recUnit j = s.recUnit j := by
  simp [State.recUnit]
@[simp] theorem State.reply_engines (s : State) (d : Defer) (st : Status) (flags : Nat) (body : List Byte) : (s.reply d st flags body).engines = s.engines :=
  (State.reply_keeps s _ _ _ _ (.refl s) (.refl _)).frame .engines rfl
@[simp] theorem State.reply_engine (s : State) (d : Defer) (st : Status) (flags : Nat) (body : List Byte) (j : Nat) : (s.reply d st flags body).engine j = s.engine j := by
  simp [State.engine]
@[simp] theorem State.reply_channels (s : State) (d : Defer) (st : Status) (flags : Nat) (body : List Byte) : (s.reply d st flags body).channels = s.channels :=
  (State.reply_keeps s _ _ _ _ (.refl s) (.refl _)).frame .channels rfl
@[simp] theorem State.reply_channel (s : State) (d : Defer) (st : Status) (flags : Nat) (body : List Byte) (j : Nat) : (s.reply d st flags body).channel j = s.channel j := by
  simp [State.channel]
@[simp] theorem State.reply_dies (s : State) (d : Defer) (st : Status) (flags : Nat) (body : List Byte) : (s.reply d st flags body).dies = s.dies :=
  (State.reply_keeps s _ _ _ _ (.refl s) (.refl _)).frame .dies rfl
@[simp] theorem State.reply_die (s : State) (d : Defer) (st : Status) (flags : Nat) (body : List Byte) (j : Nat) : (s.reply d st flags body).die j = s.die j := by
  simp [State.die]
@[simp] theorem State.reply_mem (s : State) (d : Defer) (st : Status) (flags : Nat) (body : List Byte) : (s.reply d st flags body).mem = s.mem :=
  (State.reply_keeps s _ _ _ _ (.refl s) (.refl _)).frame .mem rfl
@[simp] theorem State.reply_criers (s : State) (d : Defer) (st : Status) (flags : Nat) (body : List Byte) : (s.reply d st flags body).criers = s.criers :=
  (State.reply_keeps s _ _ _ _ (.refl s) (.refl _)).frame .criers rfl
@[simp] theorem State.reply_crierSrc (s : State) (d : Defer) (st : Status) (flags : Nat) (body : List Byte) (j : Nat) : (s.reply d st flags body).crierSrc j = s.crierSrc j := by
  simp [State.crierSrc]
@[simp] theorem State.reply_exports (s : State) (d : Defer) (st : Status) (flags : Nat) (body : List Byte) : (s.reply d st flags body).exports = s.exports :=
  (State.reply_keeps s _ _ _ _ (.refl s) (.refl _)).frame .exports rfl
@[simp] theorem State.reply_img (s : State) (d : Defer) (st : Status) (flags : Nat) (body : List Byte) (j : Nat) : (s.reply d st flags body).img j = s.img j := by
  simp [State.img]
@[simp] theorem State.reply_flash (s : State) (d : Defer) (st : Status) (flags : Nat) (body : List Byte) : (s.reply d st flags body).flash = s.flash :=
  (State.reply_keeps s _ _ _ _ (.refl s) (.refl _)).frame .flash rfl
@[simp] theorem State.reply_park (s : State) (d : Defer) (st : Status) (flags : Nat) (body : List Byte) (j : Nat) : (s.reply d st flags body).park j = s.park j := by
  simp [State.park]
@[simp] theorem State.reply_lib (s : State) (d : Defer) (st : Status) (flags : Nat) (body : List Byte) (j : Nat) : (s.reply d st flags body).lib j = s.lib j := by
  simp [State.lib]
@[simp] theorem State.reply_fw (s : State) (d : Defer) (st : Status) (flags : Nat) (body : List Byte) : (s.reply d st flags body).fw = s.fw :=
  (State.reply_keeps s _ _ _ _ (.refl s) (.refl _)).frame .fw rfl
@[simp] theorem State.reply_sec (s : State) (d : Defer) (st : Status) (flags : Nat) (body : List Byte) : (s.reply d st flags body).sec = s.sec :=
  (State.reply_keeps s _ _ _ _ (.refl s) (.refl _)).frame .sec rfl
@[simp] theorem State.reply_saps (s : State) (d : Defer) (st : Status) (flags : Nat) (body : List Byte) : (s.reply d st flags body).saps = s.saps :=
  (State.reply_keeps s _ _ _ _ (.refl s) (.refl _)).frame .saps rfl
@[simp] theorem State.reply_sap (s : State) (d : Defer) (st : Status) (flags : Nat) (body : List Byte) (j : Nat) : (s.reply d st flags body).sap j = s.sap j := by
  simp [State.sap]
@[simp] theorem State.reply_clk (s : State) (d : Defer) (st : Status) (flags : Nat) (body : List Byte) : (s.reply d st flags body).clk = s.clk :=
  (State.reply_keeps s _ _ _ _ (.refl s) (.refl _)).frame .clk rfl
@[simp] theorem State.reply_jtag (s : State) (d : Defer) (st : Status) (flags : Nat) (body : List Byte) : (s.reply d st flags body).jtag = s.jtag :=
  (State.reply_keeps s _ _ _ _ (.refl s) (.refl _)).frame .jtag rfl
@[simp] theorem State.reply_rings (s : State) (d : Defer) (st : Status) (flags : Nat) (body : List Byte) : (s.reply d st flags body).rings = s.rings :=
  (State.reply_keeps s _ _ _ _ (.refl s) (.refl _)).frame .rings rfl
@[simp] theorem State.reply_heldMoves (s : State) (d : Defer) (st : Status) (flags : Nat) (body : List Byte) : (s.reply d st flags body).heldMoves = s.heldMoves :=
  (State.reply_keeps s _ _ _ _ (.refl s) (.refl _)).frame .heldMoves rfl

/-! ## `State.startCmd` -/

@[simp] theorem State.startCmd_pending (s : State) (h : CmdHdr) : (s.startCmd h).pending = s.pending :=
  (State.startCmd_keeps s _ (.refl s) (.refl _)).pending
@[simp] theorem State.startCmd_now (s : State) (h : CmdHdr) : (s.startCmd h).now = s.now :=
  (State.startCmd_keeps s _ (.refl s) (.refl _)).frame .now rfl
@[simp] theorem State.startCmd_stamp (s : State) (h : CmdHdr) : (s.startCmd h).stamp = s.stamp :=
  (State.startCmd_keeps s _ (.refl s) (.refl _)).frame .stamp rfl
@[simp] theorem State.startCmd_free (s : State) (h : CmdHdr) : (s.startCmd h).free = s.free :=
  (State.startCmd_keeps s _ (.refl s) (.refl _)).frame .free rfl
@[simp] theorem State.startCmd_power (s : State) (h : CmdHdr) : (s.startCmd h).power = s.power :=
  (State.startCmd_keeps s _ (.refl s) (.refl _)).frame .power rfl
@[simp] theorem State.startCmd_streams (s : State) (h : CmdHdr) : (s.startCmd h).streams = s.streams :=
  (State.startCmd_keeps s _ (.refl s) (.refl _)).frame .streams rfl
@[simp] theorem State.startCmd_stream (s : State) (h : CmdHdr) (j : Nat) : (s.startCmd h).stream j = s.stream j := by
  simp [State.stream]
@[simp] theorem State.startCmd_egress (s : State) (h : CmdHdr) : (s.startCmd h).egress = s.egress :=
  (State.startCmd_keeps s _ (.refl s) (.refl _)).frame .egress rfl
@[simp] theorem State.startCmd_egr (s : State) (h : CmdHdr) (j : Nat) : (s.startCmd h).egr j = s.egr j := by
  simp [State.egr]
@[simp] theorem State.startCmd_journals (s : State) (h : CmdHdr) : (s.startCmd h).journals = s.journals :=
  (State.startCmd_keeps s _ (.refl s) (.refl _)).frame .journals rfl
@[simp] theorem State.startCmd_journal (s : State) (h : CmdHdr) (j : Nat) : (s.startCmd h).journal j = s.journal j := by
  simp [State.journal]
@[simp] theorem State.startCmd_stalls (s : State) (h : CmdHdr) : (s.startCmd h).stalls = s.stalls :=
  (State.startCmd_keeps s _ (.refl s) (.refl _)).frame .stalls rfl
@[simp] theorem State.startCmd_stall (s : State) (h : CmdHdr) (j : Nat) : (s.startCmd h).stall j = s.stall j := by
  simp [State.stall]
@[simp] theorem State.startCmd_voices (s : State) (h : CmdHdr) : (s.startCmd h).voices = s.voices :=
  (State.startCmd_keeps s _ (.refl s) (.refl _)).frame .voices rfl
@[simp] theorem State.startCmd_voice (s : State) (h : CmdHdr) (j : Nat) : (s.startCmd h).voice j = s.voice j := by
  simp [State.voice]
@[simp] theorem State.startCmd_bases (s : State) (h : CmdHdr) : (s.startCmd h).bases = s.bases :=
  (State.startCmd_keeps s _ (.refl s) (.refl _)).frame .bases rfl
@[simp] theorem State.startCmd_base (s : State) (h : CmdHdr) (j : Nat) : (s.startCmd h).base j = s.base j := by
  simp [State.base]
@[simp] theorem State.startCmd_rows (s : State) (h : CmdHdr) : (s.startCmd h).rows = s.rows :=
  (State.startCmd_keeps s _ (.refl s) (.refl _)).frame .rows rfl
@[simp] theorem State.startCmd_row (s : State) (h : CmdHdr) (j : Nat) : (s.startCmd h).row j = s.row j := by
  simp [State.row]
@[simp] theorem State.startCmd_presses (s : State) (h : CmdHdr) : (s.startCmd h).presses = s.presses :=
  (State.startCmd_keeps s _ (.refl s) (.refl _)).frame .presses rfl
@[simp] theorem State.startCmd_press (s : State) (h : CmdHdr) (j : Nat) : (s.startCmd h).press j = s.press j := by
  simp [State.press]
@[simp] theorem State.startCmd_stages (s : State) (h : CmdHdr) : (s.startCmd h).stages = s.stages :=
  (State.startCmd_keeps s _ (.refl s) (.refl _)).frame .stages rfl
@[simp] theorem State.startCmd_stage (s : State) (h : CmdHdr) (j : Nat) : (s.startCmd h).stage j = s.stage j := by
  simp [State.stage]
@[simp] theorem State.startCmd_recUnits (s : State) (h : CmdHdr) : (s.startCmd h).recUnits = s.recUnits :=
  (State.startCmd_keeps s _ (.refl s) (.refl _)).frame .recUnits rfl
@[simp] theorem State.startCmd_recUnit (s : State) (h : CmdHdr) (j : Nat) : (s.startCmd h).recUnit j = s.recUnit j := by
  simp [State.recUnit]
@[simp] theorem State.startCmd_engines (s : State) (h : CmdHdr) : (s.startCmd h).engines = s.engines :=
  (State.startCmd_keeps s _ (.refl s) (.refl _)).frame .engines rfl
@[simp] theorem State.startCmd_engine (s : State) (h : CmdHdr) (j : Nat) : (s.startCmd h).engine j = s.engine j := by
  simp [State.engine]
@[simp] theorem State.startCmd_channels (s : State) (h : CmdHdr) : (s.startCmd h).channels = s.channels :=
  (State.startCmd_keeps s _ (.refl s) (.refl _)).frame .channels rfl
@[simp] theorem State.startCmd_channel (s : State) (h : CmdHdr) (j : Nat) : (s.startCmd h).channel j = s.channel j := by
  simp [State.channel]
@[simp] theorem State.startCmd_dies (s : State) (h : CmdHdr) : (s.startCmd h).dies = s.dies :=
  (State.startCmd_keeps s _ (.refl s) (.refl _)).frame .dies rfl
@[simp] theorem State.startCmd_die (s : State) (h : CmdHdr) (j : Nat) : (s.startCmd h).die j = s.die j := by
  simp [State.die]
@[simp] theorem State.startCmd_mem (s : State) (h : CmdHdr) : (s.startCmd h).mem = s.mem :=
  (State.startCmd_keeps s _ (.refl s) (.refl _)).frame .mem rfl
@[simp] theorem State.startCmd_criers (s : State) (h : CmdHdr) : (s.startCmd h).criers = s.criers :=
  (State.startCmd_keeps s _ (.refl s) (.refl _)).frame .criers rfl
@[simp] theorem State.startCmd_crierSrc (s : State) (h : CmdHdr) (j : Nat) : (s.startCmd h).crierSrc j = s.crierSrc j := by
  simp [State.crierSrc]
@[simp] theorem State.startCmd_exports (s : State) (h : CmdHdr) : (s.startCmd h).exports = s.exports :=
  (State.startCmd_keeps s _ (.refl s) (.refl _)).frame .exports rfl
@[simp] theorem State.startCmd_img (s : State) (h : CmdHdr) (j : Nat) : (s.startCmd h).img j = s.img j := by
  simp [State.img]
@[simp] theorem State.startCmd_flash (s : State) (h : CmdHdr) : (s.startCmd h).flash = s.flash :=
  (State.startCmd_keeps s _ (.refl s) (.refl _)).frame .flash rfl
@[simp] theorem State.startCmd_park (s : State) (h : CmdHdr) (j : Nat) : (s.startCmd h).park j = s.park j := by
  simp [State.park]
@[simp] theorem State.startCmd_lib (s : State) (h : CmdHdr) (j : Nat) : (s.startCmd h).lib j = s.lib j := by
  simp [State.lib]
@[simp] theorem State.startCmd_fw (s : State) (h : CmdHdr) : (s.startCmd h).fw = s.fw :=
  (State.startCmd_keeps s _ (.refl s) (.refl _)).frame .fw rfl
@[simp] theorem State.startCmd_sec (s : State) (h : CmdHdr) : (s.startCmd h).sec = s.sec :=
  (State.startCmd_keeps s _ (.refl s) (.refl _)).frame .sec rfl
@[simp] theorem State.startCmd_saps (s : State) (h : CmdHdr) : (s.startCmd h).saps = s.saps :=
  (State.startCmd_keeps s _ (.refl s) (.refl _)).frame .saps rfl
@[simp] theorem State.startCmd_sap (s : State) (h : CmdHdr) (j : Nat) : (s.startCmd h).sap j = s.sap j := by
  simp [State.sap]
@[simp] theorem State.startCmd_clk (s : State) (h : CmdHdr) : (s.startCmd h).clk = s.clk :=
  (State.startCmd_keeps s _ (.refl s) (.refl _)).frame .clk rfl
@[simp] theorem State.startCmd_jtag (s : State) (h : CmdHdr) : (s.startCmd h).jtag = s.jtag :=
  (State.startCmd_keeps s _ (.refl s) (.refl _)).frame .jtag rfl
@[simp] theorem State.startCmd_rings (s : State) (h : CmdHdr) : (s.startCmd h).rings = s.rings :=
  (State.startCmd_keeps s _ (.refl s) (.refl _)).frame .rings rfl
@[simp] theorem State.startCmd_heldMoves (s : State) (h : CmdHdr) : (s.startCmd h).heldMoves = s.heldMoves :=
  (State.startCmd_keeps s _ (.refl s) (.refl _)).frame .heldMoves rfl

/-! ## `State.answer` -/

@[simp] theorem State.answer_pending (s : State) (d : Option Defer) (st : Status) (body : List Byte) : (s.answer d st body).pending = s.pending :=
  (State.answer_keeps s _ _ _ (.refl s) (.refl _)).pending
@[simp] theorem State.answer_now (s : State) (d : Option Defer) (st : Status) (body : List Byte) : (s.answer d st body).now = s.now :=
  (State.answer_keeps s _ _ _ (.refl s) (.refl _)).frame .now rfl
@[simp] theorem State.answer_stamp (s : State) (d : Option Defer) (st : Status) (body : List Byte) : (s.answer d st body).stamp = s.stamp :=
  (State.answer_keeps s _ _ _ (.refl s) (.refl _)).frame .stamp rfl
@[simp] theorem State.answer_free (s : State) (d : Option Defer) (st : Status) (body : List Byte) : (s.answer d st body).free = s.free :=
  (State.answer_keeps s _ _ _ (.refl s) (.refl _)).frame .free rfl
@[simp] theorem State.answer_power (s : State) (d : Option Defer) (st : Status) (body : List Byte) : (s.answer d st body).power = s.power :=
  (State.answer_keeps s _ _ _ (.refl s) (.refl _)).frame .power rfl
@[simp] theorem State.answer_streams (s : State) (d : Option Defer) (st : Status) (body : List Byte) : (s.answer d st body).streams = s.streams :=
  (State.answer_keeps s _ _ _ (.refl s) (.refl _)).frame .streams rfl
@[simp] theorem State.answer_stream (s : State) (d : Option Defer) (st : Status) (body : List Byte) (j : Nat) : (s.answer d st body).stream j = s.stream j := by
  simp [State.stream]
@[simp] theorem State.answer_egress (s : State) (d : Option Defer) (st : Status) (body : List Byte) : (s.answer d st body).egress = s.egress :=
  (State.answer_keeps s _ _ _ (.refl s) (.refl _)).frame .egress rfl
@[simp] theorem State.answer_egr (s : State) (d : Option Defer) (st : Status) (body : List Byte) (j : Nat) : (s.answer d st body).egr j = s.egr j := by
  simp [State.egr]
@[simp] theorem State.answer_journals (s : State) (d : Option Defer) (st : Status) (body : List Byte) : (s.answer d st body).journals = s.journals :=
  (State.answer_keeps s _ _ _ (.refl s) (.refl _)).frame .journals rfl
@[simp] theorem State.answer_journal (s : State) (d : Option Defer) (st : Status) (body : List Byte) (j : Nat) : (s.answer d st body).journal j = s.journal j := by
  simp [State.journal]
@[simp] theorem State.answer_stalls (s : State) (d : Option Defer) (st : Status) (body : List Byte) : (s.answer d st body).stalls = s.stalls :=
  (State.answer_keeps s _ _ _ (.refl s) (.refl _)).frame .stalls rfl
@[simp] theorem State.answer_stall (s : State) (d : Option Defer) (st : Status) (body : List Byte) (j : Nat) : (s.answer d st body).stall j = s.stall j := by
  simp [State.stall]
@[simp] theorem State.answer_voices (s : State) (d : Option Defer) (st : Status) (body : List Byte) : (s.answer d st body).voices = s.voices :=
  (State.answer_keeps s _ _ _ (.refl s) (.refl _)).frame .voices rfl
@[simp] theorem State.answer_voice (s : State) (d : Option Defer) (st : Status) (body : List Byte) (j : Nat) : (s.answer d st body).voice j = s.voice j := by
  simp [State.voice]
@[simp] theorem State.answer_bases (s : State) (d : Option Defer) (st : Status) (body : List Byte) : (s.answer d st body).bases = s.bases :=
  (State.answer_keeps s _ _ _ (.refl s) (.refl _)).frame .bases rfl
@[simp] theorem State.answer_base (s : State) (d : Option Defer) (st : Status) (body : List Byte) (j : Nat) : (s.answer d st body).base j = s.base j := by
  simp [State.base]
@[simp] theorem State.answer_rows (s : State) (d : Option Defer) (st : Status) (body : List Byte) : (s.answer d st body).rows = s.rows :=
  (State.answer_keeps s _ _ _ (.refl s) (.refl _)).frame .rows rfl
@[simp] theorem State.answer_row (s : State) (d : Option Defer) (st : Status) (body : List Byte) (j : Nat) : (s.answer d st body).row j = s.row j := by
  simp [State.row]
@[simp] theorem State.answer_presses (s : State) (d : Option Defer) (st : Status) (body : List Byte) : (s.answer d st body).presses = s.presses :=
  (State.answer_keeps s _ _ _ (.refl s) (.refl _)).frame .presses rfl
@[simp] theorem State.answer_press (s : State) (d : Option Defer) (st : Status) (body : List Byte) (j : Nat) : (s.answer d st body).press j = s.press j := by
  simp [State.press]
@[simp] theorem State.answer_stages (s : State) (d : Option Defer) (st : Status) (body : List Byte) : (s.answer d st body).stages = s.stages :=
  (State.answer_keeps s _ _ _ (.refl s) (.refl _)).frame .stages rfl
@[simp] theorem State.answer_stage (s : State) (d : Option Defer) (st : Status) (body : List Byte) (j : Nat) : (s.answer d st body).stage j = s.stage j := by
  simp [State.stage]
@[simp] theorem State.answer_recUnits (s : State) (d : Option Defer) (st : Status) (body : List Byte) : (s.answer d st body).recUnits = s.recUnits :=
  (State.answer_keeps s _ _ _ (.refl s) (.refl _)).frame .recUnits rfl
@[simp] theorem State.answer_recUnit (s : State) (d : Option Defer) (st : Status) (body : List Byte) (j : Nat) : (s.answer d st body).recUnit j = s.recUnit j := by
  simp [State.recUnit]
@[simp] theorem State.answer_engines (s : State) (d : Option Defer) (st : Status) (body : List Byte) : (s.answer d st body).engines = s.engines :=
  (State.answer_keeps s _ _ _ (.refl s) (.refl _)).frame .engines rfl
@[simp] theorem State.answer_engine (s : State) (d : Option Defer) (st : Status) (body : List Byte) (j : Nat) : (s.answer d st body).engine j = s.engine j := by
  simp [State.engine]
@[simp] theorem State.answer_channels (s : State) (d : Option Defer) (st : Status) (body : List Byte) : (s.answer d st body).channels = s.channels :=
  (State.answer_keeps s _ _ _ (.refl s) (.refl _)).frame .channels rfl
@[simp] theorem State.answer_channel (s : State) (d : Option Defer) (st : Status) (body : List Byte) (j : Nat) : (s.answer d st body).channel j = s.channel j := by
  simp [State.channel]
@[simp] theorem State.answer_dies (s : State) (d : Option Defer) (st : Status) (body : List Byte) : (s.answer d st body).dies = s.dies :=
  (State.answer_keeps s _ _ _ (.refl s) (.refl _)).frame .dies rfl
@[simp] theorem State.answer_die (s : State) (d : Option Defer) (st : Status) (body : List Byte) (j : Nat) : (s.answer d st body).die j = s.die j := by
  simp [State.die]
@[simp] theorem State.answer_mem (s : State) (d : Option Defer) (st : Status) (body : List Byte) : (s.answer d st body).mem = s.mem :=
  (State.answer_keeps s _ _ _ (.refl s) (.refl _)).frame .mem rfl
@[simp] theorem State.answer_criers (s : State) (d : Option Defer) (st : Status) (body : List Byte) : (s.answer d st body).criers = s.criers :=
  (State.answer_keeps s _ _ _ (.refl s) (.refl _)).frame .criers rfl
@[simp] theorem State.answer_crierSrc (s : State) (d : Option Defer) (st : Status) (body : List Byte) (j : Nat) : (s.answer d st body).crierSrc j = s.crierSrc j := by
  simp [State.crierSrc]
@[simp] theorem State.answer_exports (s : State) (d : Option Defer) (st : Status) (body : List Byte) : (s.answer d st body).exports = s.exports :=
  (State.answer_keeps s _ _ _ (.refl s) (.refl _)).frame .exports rfl
@[simp] theorem State.answer_img (s : State) (d : Option Defer) (st : Status) (body : List Byte) (j : Nat) : (s.answer d st body).img j = s.img j := by
  simp [State.img]
@[simp] theorem State.answer_flash (s : State) (d : Option Defer) (st : Status) (body : List Byte) : (s.answer d st body).flash = s.flash :=
  (State.answer_keeps s _ _ _ (.refl s) (.refl _)).frame .flash rfl
@[simp] theorem State.answer_park (s : State) (d : Option Defer) (st : Status) (body : List Byte) (j : Nat) : (s.answer d st body).park j = s.park j := by
  simp [State.park]
@[simp] theorem State.answer_lib (s : State) (d : Option Defer) (st : Status) (body : List Byte) (j : Nat) : (s.answer d st body).lib j = s.lib j := by
  simp [State.lib]
@[simp] theorem State.answer_fw (s : State) (d : Option Defer) (st : Status) (body : List Byte) : (s.answer d st body).fw = s.fw :=
  (State.answer_keeps s _ _ _ (.refl s) (.refl _)).frame .fw rfl
@[simp] theorem State.answer_sec (s : State) (d : Option Defer) (st : Status) (body : List Byte) : (s.answer d st body).sec = s.sec :=
  (State.answer_keeps s _ _ _ (.refl s) (.refl _)).frame .sec rfl
@[simp] theorem State.answer_saps (s : State) (d : Option Defer) (st : Status) (body : List Byte) : (s.answer d st body).saps = s.saps :=
  (State.answer_keeps s _ _ _ (.refl s) (.refl _)).frame .saps rfl
@[simp] theorem State.answer_sap (s : State) (d : Option Defer) (st : Status) (body : List Byte) (j : Nat) : (s.answer d st body).sap j = s.sap j := by
  simp [State.sap]
@[simp] theorem State.answer_clk (s : State) (d : Option Defer) (st : Status) (body : List Byte) : (s.answer d st body).clk = s.clk :=
  (State.answer_keeps s _ _ _ (.refl s) (.refl _)).frame .clk rfl
@[simp] theorem State.answer_jtag (s : State) (d : Option Defer) (st : Status) (body : List Byte) : (s.answer d st body).jtag = s.jtag :=
  (State.answer_keeps s _ _ _ (.refl s) (.refl _)).frame .jtag rfl
@[simp] theorem State.answer_rings (s : State) (d : Option Defer) (st : Status) (body : List Byte) : (s.answer d st body).rings = s.rings :=
  (State.answer_keeps s _ _ _ (.refl s) (.refl _)).frame .rings rfl
@[simp] theorem State.answer_heldMoves (s : State) (d : Option Defer) (st : Status) (body : List Byte) : (s.answer d st body).heldMoves = s.heldMoves :=
  (State.answer_keeps s _ _ _ (.refl s) (.refl _)).frame .heldMoves rfl

/-! ## `State.audit` -/

@[simp] theorem State.audit_pending (s : State) (kind op : Nat) (status : Byte) (role : Nat) (sess stall : Option Nat) (src : BitVec 128) (detail : List Byte) : (s.audit kind op status role sess stall src detail).pending = s.pending :=
  (State.audit_keeps s _ _ _ _ _ _ _ _ (.refl s) (.refl _)).pending
@[simp] theorem State.audit_now (s : State) (kind op : Nat) (status : Byte) (role : Nat) (sess stall : Option Nat) (src : BitVec 128) (detail : List Byte) : (s.audit kind op status role sess stall src detail).now = s.now :=
  (State.audit_keeps s _ _ _ _ _ _ _ _ (.refl s) (.refl _)).frame .now rfl
@[simp] theorem State.audit_stamp (s : State) (kind op : Nat) (status : Byte) (role : Nat) (sess stall : Option Nat) (src : BitVec 128) (detail : List Byte) : (s.audit kind op status role sess stall src detail).stamp = s.stamp :=
  (State.audit_keeps s _ _ _ _ _ _ _ _ (.refl s) (.refl _)).frame .stamp rfl
@[simp] theorem State.audit_free (s : State) (kind op : Nat) (status : Byte) (role : Nat) (sess stall : Option Nat) (src : BitVec 128) (detail : List Byte) : (s.audit kind op status role sess stall src detail).free = s.free :=
  (State.audit_keeps s _ _ _ _ _ _ _ _ (.refl s) (.refl _)).frame .free rfl
@[simp] theorem State.audit_power (s : State) (kind op : Nat) (status : Byte) (role : Nat) (sess stall : Option Nat) (src : BitVec 128) (detail : List Byte) : (s.audit kind op status role sess stall src detail).power = s.power :=
  (State.audit_keeps s _ _ _ _ _ _ _ _ (.refl s) (.refl _)).frame .power rfl
@[simp] theorem State.audit_streams (s : State) (kind op : Nat) (status : Byte) (role : Nat) (sess stall : Option Nat) (src : BitVec 128) (detail : List Byte) : (s.audit kind op status role sess stall src detail).streams = s.streams :=
  (State.audit_keeps s _ _ _ _ _ _ _ _ (.refl s) (.refl _)).frame .streams rfl
@[simp] theorem State.audit_stream (s : State) (kind op : Nat) (status : Byte) (role : Nat) (sess stall : Option Nat) (src : BitVec 128) (detail : List Byte) (j : Nat) : (s.audit kind op status role sess stall src detail).stream j = s.stream j := by
  simp [State.stream]
@[simp] theorem State.audit_egress (s : State) (kind op : Nat) (status : Byte) (role : Nat) (sess stall : Option Nat) (src : BitVec 128) (detail : List Byte) : (s.audit kind op status role sess stall src detail).egress = s.egress :=
  (State.audit_keeps s _ _ _ _ _ _ _ _ (.refl s) (.refl _)).frame .egress rfl
@[simp] theorem State.audit_egr (s : State) (kind op : Nat) (status : Byte) (role : Nat) (sess stall : Option Nat) (src : BitVec 128) (detail : List Byte) (j : Nat) : (s.audit kind op status role sess stall src detail).egr j = s.egr j := by
  simp [State.egr]
@[simp] theorem State.audit_journals (s : State) (kind op : Nat) (status : Byte) (role : Nat) (sess stall : Option Nat) (src : BitVec 128) (detail : List Byte) : (s.audit kind op status role sess stall src detail).journals = s.journals :=
  (State.audit_keeps s _ _ _ _ _ _ _ _ (.refl s) (.refl _)).frame .journals rfl
@[simp] theorem State.audit_journal (s : State) (kind op : Nat) (status : Byte) (role : Nat) (sess stall : Option Nat) (src : BitVec 128) (detail : List Byte) (j : Nat) : (s.audit kind op status role sess stall src detail).journal j = s.journal j := by
  simp [State.journal]
@[simp] theorem State.audit_stalls (s : State) (kind op : Nat) (status : Byte) (role : Nat) (sess stall : Option Nat) (src : BitVec 128) (detail : List Byte) : (s.audit kind op status role sess stall src detail).stalls = s.stalls :=
  (State.audit_keeps s _ _ _ _ _ _ _ _ (.refl s) (.refl _)).frame .stalls rfl
@[simp] theorem State.audit_stall (s : State) (kind op : Nat) (status : Byte) (role : Nat) (sess stall : Option Nat) (src : BitVec 128) (detail : List Byte) (j : Nat) : (s.audit kind op status role sess stall src detail).stall j = s.stall j := by
  simp [State.stall]
@[simp] theorem State.audit_voices (s : State) (kind op : Nat) (status : Byte) (role : Nat) (sess stall : Option Nat) (src : BitVec 128) (detail : List Byte) : (s.audit kind op status role sess stall src detail).voices = s.voices :=
  (State.audit_keeps s _ _ _ _ _ _ _ _ (.refl s) (.refl _)).frame .voices rfl
@[simp] theorem State.audit_voice (s : State) (kind op : Nat) (status : Byte) (role : Nat) (sess stall : Option Nat) (src : BitVec 128) (detail : List Byte) (j : Nat) : (s.audit kind op status role sess stall src detail).voice j = s.voice j := by
  simp [State.voice]
@[simp] theorem State.audit_bases (s : State) (kind op : Nat) (status : Byte) (role : Nat) (sess stall : Option Nat) (src : BitVec 128) (detail : List Byte) : (s.audit kind op status role sess stall src detail).bases = s.bases :=
  (State.audit_keeps s _ _ _ _ _ _ _ _ (.refl s) (.refl _)).frame .bases rfl
@[simp] theorem State.audit_base (s : State) (kind op : Nat) (status : Byte) (role : Nat) (sess stall : Option Nat) (src : BitVec 128) (detail : List Byte) (j : Nat) : (s.audit kind op status role sess stall src detail).base j = s.base j := by
  simp [State.base]
@[simp] theorem State.audit_rows (s : State) (kind op : Nat) (status : Byte) (role : Nat) (sess stall : Option Nat) (src : BitVec 128) (detail : List Byte) : (s.audit kind op status role sess stall src detail).rows = s.rows :=
  (State.audit_keeps s _ _ _ _ _ _ _ _ (.refl s) (.refl _)).frame .rows rfl
@[simp] theorem State.audit_row (s : State) (kind op : Nat) (status : Byte) (role : Nat) (sess stall : Option Nat) (src : BitVec 128) (detail : List Byte) (j : Nat) : (s.audit kind op status role sess stall src detail).row j = s.row j := by
  simp [State.row]
@[simp] theorem State.audit_presses (s : State) (kind op : Nat) (status : Byte) (role : Nat) (sess stall : Option Nat) (src : BitVec 128) (detail : List Byte) : (s.audit kind op status role sess stall src detail).presses = s.presses :=
  (State.audit_keeps s _ _ _ _ _ _ _ _ (.refl s) (.refl _)).frame .presses rfl
@[simp] theorem State.audit_press (s : State) (kind op : Nat) (status : Byte) (role : Nat) (sess stall : Option Nat) (src : BitVec 128) (detail : List Byte) (j : Nat) : (s.audit kind op status role sess stall src detail).press j = s.press j := by
  simp [State.press]
@[simp] theorem State.audit_stages (s : State) (kind op : Nat) (status : Byte) (role : Nat) (sess stall : Option Nat) (src : BitVec 128) (detail : List Byte) : (s.audit kind op status role sess stall src detail).stages = s.stages :=
  (State.audit_keeps s _ _ _ _ _ _ _ _ (.refl s) (.refl _)).frame .stages rfl
@[simp] theorem State.audit_stage (s : State) (kind op : Nat) (status : Byte) (role : Nat) (sess stall : Option Nat) (src : BitVec 128) (detail : List Byte) (j : Nat) : (s.audit kind op status role sess stall src detail).stage j = s.stage j := by
  simp [State.stage]
@[simp] theorem State.audit_recUnits (s : State) (kind op : Nat) (status : Byte) (role : Nat) (sess stall : Option Nat) (src : BitVec 128) (detail : List Byte) : (s.audit kind op status role sess stall src detail).recUnits = s.recUnits :=
  (State.audit_keeps s _ _ _ _ _ _ _ _ (.refl s) (.refl _)).frame .recUnits rfl
@[simp] theorem State.audit_recUnit (s : State) (kind op : Nat) (status : Byte) (role : Nat) (sess stall : Option Nat) (src : BitVec 128) (detail : List Byte) (j : Nat) : (s.audit kind op status role sess stall src detail).recUnit j = s.recUnit j := by
  simp [State.recUnit]
@[simp] theorem State.audit_engines (s : State) (kind op : Nat) (status : Byte) (role : Nat) (sess stall : Option Nat) (src : BitVec 128) (detail : List Byte) : (s.audit kind op status role sess stall src detail).engines = s.engines :=
  (State.audit_keeps s _ _ _ _ _ _ _ _ (.refl s) (.refl _)).frame .engines rfl
@[simp] theorem State.audit_engine (s : State) (kind op : Nat) (status : Byte) (role : Nat) (sess stall : Option Nat) (src : BitVec 128) (detail : List Byte) (j : Nat) : (s.audit kind op status role sess stall src detail).engine j = s.engine j := by
  simp [State.engine]
@[simp] theorem State.audit_channels (s : State) (kind op : Nat) (status : Byte) (role : Nat) (sess stall : Option Nat) (src : BitVec 128) (detail : List Byte) : (s.audit kind op status role sess stall src detail).channels = s.channels :=
  (State.audit_keeps s _ _ _ _ _ _ _ _ (.refl s) (.refl _)).frame .channels rfl
@[simp] theorem State.audit_channel (s : State) (kind op : Nat) (status : Byte) (role : Nat) (sess stall : Option Nat) (src : BitVec 128) (detail : List Byte) (j : Nat) : (s.audit kind op status role sess stall src detail).channel j = s.channel j := by
  simp [State.channel]
@[simp] theorem State.audit_dies (s : State) (kind op : Nat) (status : Byte) (role : Nat) (sess stall : Option Nat) (src : BitVec 128) (detail : List Byte) : (s.audit kind op status role sess stall src detail).dies = s.dies :=
  (State.audit_keeps s _ _ _ _ _ _ _ _ (.refl s) (.refl _)).frame .dies rfl
@[simp] theorem State.audit_die (s : State) (kind op : Nat) (status : Byte) (role : Nat) (sess stall : Option Nat) (src : BitVec 128) (detail : List Byte) (j : Nat) : (s.audit kind op status role sess stall src detail).die j = s.die j := by
  simp [State.die]
@[simp] theorem State.audit_mem (s : State) (kind op : Nat) (status : Byte) (role : Nat) (sess stall : Option Nat) (src : BitVec 128) (detail : List Byte) : (s.audit kind op status role sess stall src detail).mem = s.mem :=
  (State.audit_keeps s _ _ _ _ _ _ _ _ (.refl s) (.refl _)).frame .mem rfl
@[simp] theorem State.audit_nets (s : State) (kind op : Nat) (status : Byte) (role : Nat) (sess stall : Option Nat) (src : BitVec 128) (detail : List Byte) : (s.audit kind op status role sess stall src detail).nets = s.nets :=
  (State.audit_keeps s _ _ _ _ _ _ _ _ (.refl s) (.refl _)).frame .nets rfl
@[simp] theorem State.audit_net (s : State) (kind op : Nat) (status : Byte) (role : Nat) (sess stall : Option Nat) (src : BitVec 128) (detail : List Byte) (j : Nat) : (s.audit kind op status role sess stall src detail).net j = s.net j := by
  simp [State.net]
@[simp] theorem State.audit_sessions (s : State) (kind op : Nat) (status : Byte) (role : Nat) (sess stall : Option Nat) (src : BitVec 128) (detail : List Byte) : (s.audit kind op status role sess stall src detail).sessions = s.sessions :=
  (State.audit_keeps s _ _ _ _ _ _ _ _ (.refl s) (.refl _)).frame .sessions rfl
@[simp] theorem State.audit_sess (s : State) (kind op : Nat) (status : Byte) (role : Nat) (sess stall : Option Nat) (src : BitVec 128) (detail : List Byte) (j : Nat) : (s.audit kind op status role sess stall src detail).sess j = s.sess j := by
  simp [State.sess]
@[simp] theorem State.audit_vct (s : State) (kind op : Nat) (status : Byte) (role : Nat) (sess stall : Option Nat) (src : BitVec 128) (detail : List Byte) : (s.audit kind op status role sess stall src detail).vct = s.vct :=
  (State.audit_keeps s _ _ _ _ _ _ _ _ (.refl s) (.refl _)).frame .vct rfl
@[simp] theorem State.audit_criers (s : State) (kind op : Nat) (status : Byte) (role : Nat) (sess stall : Option Nat) (src : BitVec 128) (detail : List Byte) : (s.audit kind op status role sess stall src detail).criers = s.criers :=
  (State.audit_keeps s _ _ _ _ _ _ _ _ (.refl s) (.refl _)).frame .criers rfl
@[simp] theorem State.audit_crierSrc (s : State) (kind op : Nat) (status : Byte) (role : Nat) (sess stall : Option Nat) (src : BitVec 128) (detail : List Byte) (j : Nat) : (s.audit kind op status role sess stall src detail).crierSrc j = s.crierSrc j := by
  simp [State.crierSrc]
@[simp] theorem State.audit_clerk (s : State) (kind op : Nat) (status : Byte) (role : Nat) (sess stall : Option Nat) (src : BitVec 128) (detail : List Byte) : (s.audit kind op status role sess stall src detail).clerk = s.clerk :=
  (State.audit_keeps s _ _ _ _ _ _ _ _ (.refl s) (.refl _)).frame .clerk rfl
@[simp] theorem State.audit_exports (s : State) (kind op : Nat) (status : Byte) (role : Nat) (sess stall : Option Nat) (src : BitVec 128) (detail : List Byte) : (s.audit kind op status role sess stall src detail).exports = s.exports :=
  (State.audit_keeps s _ _ _ _ _ _ _ _ (.refl s) (.refl _)).frame .exports rfl
@[simp] theorem State.audit_img (s : State) (kind op : Nat) (status : Byte) (role : Nat) (sess stall : Option Nat) (src : BitVec 128) (detail : List Byte) (j : Nat) : (s.audit kind op status role sess stall src detail).img j = s.img j := by
  simp [State.img]
@[simp] theorem State.audit_flash (s : State) (kind op : Nat) (status : Byte) (role : Nat) (sess stall : Option Nat) (src : BitVec 128) (detail : List Byte) : (s.audit kind op status role sess stall src detail).flash = s.flash :=
  (State.audit_keeps s _ _ _ _ _ _ _ _ (.refl s) (.refl _)).frame .flash rfl
@[simp] theorem State.audit_park (s : State) (kind op : Nat) (status : Byte) (role : Nat) (sess stall : Option Nat) (src : BitVec 128) (detail : List Byte) (j : Nat) : (s.audit kind op status role sess stall src detail).park j = s.park j := by
  simp [State.park]
@[simp] theorem State.audit_lib (s : State) (kind op : Nat) (status : Byte) (role : Nat) (sess stall : Option Nat) (src : BitVec 128) (detail : List Byte) (j : Nat) : (s.audit kind op status role sess stall src detail).lib j = s.lib j := by
  simp [State.lib]
@[simp] theorem State.audit_fw (s : State) (kind op : Nat) (status : Byte) (role : Nat) (sess stall : Option Nat) (src : BitVec 128) (detail : List Byte) : (s.audit kind op status role sess stall src detail).fw = s.fw :=
  (State.audit_keeps s _ _ _ _ _ _ _ _ (.refl s) (.refl _)).frame .fw rfl
@[simp] theorem State.audit_saps (s : State) (kind op : Nat) (status : Byte) (role : Nat) (sess stall : Option Nat) (src : BitVec 128) (detail : List Byte) : (s.audit kind op status role sess stall src detail).saps = s.saps :=
  (State.audit_keeps s _ _ _ _ _ _ _ _ (.refl s) (.refl _)).frame .saps rfl
@[simp] theorem State.audit_sap (s : State) (kind op : Nat) (status : Byte) (role : Nat) (sess stall : Option Nat) (src : BitVec 128) (detail : List Byte) (j : Nat) : (s.audit kind op status role sess stall src detail).sap j = s.sap j := by
  simp [State.sap]
@[simp] theorem State.audit_clk (s : State) (kind op : Nat) (status : Byte) (role : Nat) (sess stall : Option Nat) (src : BitVec 128) (detail : List Byte) : (s.audit kind op status role sess stall src detail).clk = s.clk :=
  (State.audit_keeps s _ _ _ _ _ _ _ _ (.refl s) (.refl _)).frame .clk rfl
@[simp] theorem State.audit_jtag (s : State) (kind op : Nat) (status : Byte) (role : Nat) (sess stall : Option Nat) (src : BitVec 128) (detail : List Byte) : (s.audit kind op status role sess stall src detail).jtag = s.jtag :=
  (State.audit_keeps s _ _ _ _ _ _ _ _ (.refl s) (.refl _)).frame .jtag rfl
@[simp] theorem State.audit_sent (s : State) (kind op : Nat) (status : Byte) (role : Nat) (sess stall : Option Nat) (src : BitVec 128) (detail : List Byte) : (s.audit kind op status role sess stall src detail).sent = s.sent :=
  (State.audit_keeps s _ _ _ _ _ _ _ _ (.refl s) (.refl _)).frame .sent rfl
@[simp] theorem State.audit_rings (s : State) (kind op : Nat) (status : Byte) (role : Nat) (sess stall : Option Nat) (src : BitVec 128) (detail : List Byte) : (s.audit kind op status role sess stall src detail).rings = s.rings :=
  (State.audit_keeps s _ _ _ _ _ _ _ _ (.refl s) (.refl _)).frame .rings rfl
@[simp] theorem State.audit_heldMoves (s : State) (kind op : Nat) (status : Byte) (role : Nat) (sess stall : Option Nat) (src : BitVec 128) (detail : List Byte) : (s.audit kind op status role sess stall src detail).heldMoves = s.heldMoves :=
  (State.audit_keeps s _ _ _ _ _ _ _ _ (.refl s) (.refl _)).frame .heldMoves rfl

/-! ## `State.auditCmd` -/

@[simp] theorem State.auditCmd_pending (s : State) (c : Shape) (h : CmdHdr) (kind : Nat) (st : Status) : (s.auditCmd c h kind st).pending = s.pending :=
  (State.auditCmd_keeps s _ _ _ _ (.refl s) (.refl _)).pending
@[simp] theorem State.auditCmd_now (s : State) (c : Shape) (h : CmdHdr) (kind : Nat) (st : Status) : (s.auditCmd c h kind st).now = s.now :=
  (State.auditCmd_keeps s _ _ _ _ (.refl s) (.refl _)).frame .now rfl
@[simp] theorem State.auditCmd_stamp (s : State) (c : Shape) (h : CmdHdr) (kind : Nat) (st : Status) : (s.auditCmd c h kind st).stamp = s.stamp :=
  (State.auditCmd_keeps s _ _ _ _ (.refl s) (.refl _)).frame .stamp rfl
@[simp] theorem State.auditCmd_free (s : State) (c : Shape) (h : CmdHdr) (kind : Nat) (st : Status) : (s.auditCmd c h kind st).free = s.free :=
  (State.auditCmd_keeps s _ _ _ _ (.refl s) (.refl _)).frame .free rfl
@[simp] theorem State.auditCmd_power (s : State) (c : Shape) (h : CmdHdr) (kind : Nat) (st : Status) : (s.auditCmd c h kind st).power = s.power :=
  (State.auditCmd_keeps s _ _ _ _ (.refl s) (.refl _)).frame .power rfl
@[simp] theorem State.auditCmd_streams (s : State) (c : Shape) (h : CmdHdr) (kind : Nat) (st : Status) : (s.auditCmd c h kind st).streams = s.streams :=
  (State.auditCmd_keeps s _ _ _ _ (.refl s) (.refl _)).frame .streams rfl
@[simp] theorem State.auditCmd_stream (s : State) (c : Shape) (h : CmdHdr) (kind : Nat) (st : Status) (j : Nat) : (s.auditCmd c h kind st).stream j = s.stream j := by
  simp [State.stream]
@[simp] theorem State.auditCmd_egress (s : State) (c : Shape) (h : CmdHdr) (kind : Nat) (st : Status) : (s.auditCmd c h kind st).egress = s.egress :=
  (State.auditCmd_keeps s _ _ _ _ (.refl s) (.refl _)).frame .egress rfl
@[simp] theorem State.auditCmd_egr (s : State) (c : Shape) (h : CmdHdr) (kind : Nat) (st : Status) (j : Nat) : (s.auditCmd c h kind st).egr j = s.egr j := by
  simp [State.egr]
@[simp] theorem State.auditCmd_journals (s : State) (c : Shape) (h : CmdHdr) (kind : Nat) (st : Status) : (s.auditCmd c h kind st).journals = s.journals :=
  (State.auditCmd_keeps s _ _ _ _ (.refl s) (.refl _)).frame .journals rfl
@[simp] theorem State.auditCmd_journal (s : State) (c : Shape) (h : CmdHdr) (kind : Nat) (st : Status) (j : Nat) : (s.auditCmd c h kind st).journal j = s.journal j := by
  simp [State.journal]
@[simp] theorem State.auditCmd_stalls (s : State) (c : Shape) (h : CmdHdr) (kind : Nat) (st : Status) : (s.auditCmd c h kind st).stalls = s.stalls :=
  (State.auditCmd_keeps s _ _ _ _ (.refl s) (.refl _)).frame .stalls rfl
@[simp] theorem State.auditCmd_stall (s : State) (c : Shape) (h : CmdHdr) (kind : Nat) (st : Status) (j : Nat) : (s.auditCmd c h kind st).stall j = s.stall j := by
  simp [State.stall]
@[simp] theorem State.auditCmd_voices (s : State) (c : Shape) (h : CmdHdr) (kind : Nat) (st : Status) : (s.auditCmd c h kind st).voices = s.voices :=
  (State.auditCmd_keeps s _ _ _ _ (.refl s) (.refl _)).frame .voices rfl
@[simp] theorem State.auditCmd_voice (s : State) (c : Shape) (h : CmdHdr) (kind : Nat) (st : Status) (j : Nat) : (s.auditCmd c h kind st).voice j = s.voice j := by
  simp [State.voice]
@[simp] theorem State.auditCmd_bases (s : State) (c : Shape) (h : CmdHdr) (kind : Nat) (st : Status) : (s.auditCmd c h kind st).bases = s.bases :=
  (State.auditCmd_keeps s _ _ _ _ (.refl s) (.refl _)).frame .bases rfl
@[simp] theorem State.auditCmd_base (s : State) (c : Shape) (h : CmdHdr) (kind : Nat) (st : Status) (j : Nat) : (s.auditCmd c h kind st).base j = s.base j := by
  simp [State.base]
@[simp] theorem State.auditCmd_rows (s : State) (c : Shape) (h : CmdHdr) (kind : Nat) (st : Status) : (s.auditCmd c h kind st).rows = s.rows :=
  (State.auditCmd_keeps s _ _ _ _ (.refl s) (.refl _)).frame .rows rfl
@[simp] theorem State.auditCmd_row (s : State) (c : Shape) (h : CmdHdr) (kind : Nat) (st : Status) (j : Nat) : (s.auditCmd c h kind st).row j = s.row j := by
  simp [State.row]
@[simp] theorem State.auditCmd_presses (s : State) (c : Shape) (h : CmdHdr) (kind : Nat) (st : Status) : (s.auditCmd c h kind st).presses = s.presses :=
  (State.auditCmd_keeps s _ _ _ _ (.refl s) (.refl _)).frame .presses rfl
@[simp] theorem State.auditCmd_press (s : State) (c : Shape) (h : CmdHdr) (kind : Nat) (st : Status) (j : Nat) : (s.auditCmd c h kind st).press j = s.press j := by
  simp [State.press]
@[simp] theorem State.auditCmd_stages (s : State) (c : Shape) (h : CmdHdr) (kind : Nat) (st : Status) : (s.auditCmd c h kind st).stages = s.stages :=
  (State.auditCmd_keeps s _ _ _ _ (.refl s) (.refl _)).frame .stages rfl
@[simp] theorem State.auditCmd_stage (s : State) (c : Shape) (h : CmdHdr) (kind : Nat) (st : Status) (j : Nat) : (s.auditCmd c h kind st).stage j = s.stage j := by
  simp [State.stage]
@[simp] theorem State.auditCmd_recUnits (s : State) (c : Shape) (h : CmdHdr) (kind : Nat) (st : Status) : (s.auditCmd c h kind st).recUnits = s.recUnits :=
  (State.auditCmd_keeps s _ _ _ _ (.refl s) (.refl _)).frame .recUnits rfl
@[simp] theorem State.auditCmd_recUnit (s : State) (c : Shape) (h : CmdHdr) (kind : Nat) (st : Status) (j : Nat) : (s.auditCmd c h kind st).recUnit j = s.recUnit j := by
  simp [State.recUnit]
@[simp] theorem State.auditCmd_engines (s : State) (c : Shape) (h : CmdHdr) (kind : Nat) (st : Status) : (s.auditCmd c h kind st).engines = s.engines :=
  (State.auditCmd_keeps s _ _ _ _ (.refl s) (.refl _)).frame .engines rfl
@[simp] theorem State.auditCmd_engine (s : State) (c : Shape) (h : CmdHdr) (kind : Nat) (st : Status) (j : Nat) : (s.auditCmd c h kind st).engine j = s.engine j := by
  simp [State.engine]
@[simp] theorem State.auditCmd_channels (s : State) (c : Shape) (h : CmdHdr) (kind : Nat) (st : Status) : (s.auditCmd c h kind st).channels = s.channels :=
  (State.auditCmd_keeps s _ _ _ _ (.refl s) (.refl _)).frame .channels rfl
@[simp] theorem State.auditCmd_channel (s : State) (c : Shape) (h : CmdHdr) (kind : Nat) (st : Status) (j : Nat) : (s.auditCmd c h kind st).channel j = s.channel j := by
  simp [State.channel]
@[simp] theorem State.auditCmd_dies (s : State) (c : Shape) (h : CmdHdr) (kind : Nat) (st : Status) : (s.auditCmd c h kind st).dies = s.dies :=
  (State.auditCmd_keeps s _ _ _ _ (.refl s) (.refl _)).frame .dies rfl
@[simp] theorem State.auditCmd_die (s : State) (c : Shape) (h : CmdHdr) (kind : Nat) (st : Status) (j : Nat) : (s.auditCmd c h kind st).die j = s.die j := by
  simp [State.die]
@[simp] theorem State.auditCmd_mem (s : State) (c : Shape) (h : CmdHdr) (kind : Nat) (st : Status) : (s.auditCmd c h kind st).mem = s.mem :=
  (State.auditCmd_keeps s _ _ _ _ (.refl s) (.refl _)).frame .mem rfl
@[simp] theorem State.auditCmd_nets (s : State) (c : Shape) (h : CmdHdr) (kind : Nat) (st : Status) : (s.auditCmd c h kind st).nets = s.nets :=
  (State.auditCmd_keeps s _ _ _ _ (.refl s) (.refl _)).frame .nets rfl
@[simp] theorem State.auditCmd_net (s : State) (c : Shape) (h : CmdHdr) (kind : Nat) (st : Status) (j : Nat) : (s.auditCmd c h kind st).net j = s.net j := by
  simp [State.net]
@[simp] theorem State.auditCmd_sessions (s : State) (c : Shape) (h : CmdHdr) (kind : Nat) (st : Status) : (s.auditCmd c h kind st).sessions = s.sessions :=
  (State.auditCmd_keeps s _ _ _ _ (.refl s) (.refl _)).frame .sessions rfl
@[simp] theorem State.auditCmd_sess (s : State) (c : Shape) (h : CmdHdr) (kind : Nat) (st : Status) (j : Nat) : (s.auditCmd c h kind st).sess j = s.sess j := by
  simp [State.sess]
@[simp] theorem State.auditCmd_vct (s : State) (c : Shape) (h : CmdHdr) (kind : Nat) (st : Status) : (s.auditCmd c h kind st).vct = s.vct :=
  (State.auditCmd_keeps s _ _ _ _ (.refl s) (.refl _)).frame .vct rfl
@[simp] theorem State.auditCmd_criers (s : State) (c : Shape) (h : CmdHdr) (kind : Nat) (st : Status) : (s.auditCmd c h kind st).criers = s.criers :=
  (State.auditCmd_keeps s _ _ _ _ (.refl s) (.refl _)).frame .criers rfl
@[simp] theorem State.auditCmd_crierSrc (s : State) (c : Shape) (h : CmdHdr) (kind : Nat) (st : Status) (j : Nat) : (s.auditCmd c h kind st).crierSrc j = s.crierSrc j := by
  simp [State.crierSrc]
@[simp] theorem State.auditCmd_clerk (s : State) (c : Shape) (h : CmdHdr) (kind : Nat) (st : Status) : (s.auditCmd c h kind st).clerk = s.clerk :=
  (State.auditCmd_keeps s _ _ _ _ (.refl s) (.refl _)).frame .clerk rfl
@[simp] theorem State.auditCmd_exports (s : State) (c : Shape) (h : CmdHdr) (kind : Nat) (st : Status) : (s.auditCmd c h kind st).exports = s.exports :=
  (State.auditCmd_keeps s _ _ _ _ (.refl s) (.refl _)).frame .exports rfl
@[simp] theorem State.auditCmd_img (s : State) (c : Shape) (h : CmdHdr) (kind : Nat) (st : Status) (j : Nat) : (s.auditCmd c h kind st).img j = s.img j := by
  simp [State.img]
@[simp] theorem State.auditCmd_flash (s : State) (c : Shape) (h : CmdHdr) (kind : Nat) (st : Status) : (s.auditCmd c h kind st).flash = s.flash :=
  (State.auditCmd_keeps s _ _ _ _ (.refl s) (.refl _)).frame .flash rfl
@[simp] theorem State.auditCmd_park (s : State) (c : Shape) (h : CmdHdr) (kind : Nat) (st : Status) (j : Nat) : (s.auditCmd c h kind st).park j = s.park j := by
  simp [State.park]
@[simp] theorem State.auditCmd_lib (s : State) (c : Shape) (h : CmdHdr) (kind : Nat) (st : Status) (j : Nat) : (s.auditCmd c h kind st).lib j = s.lib j := by
  simp [State.lib]
@[simp] theorem State.auditCmd_fw (s : State) (c : Shape) (h : CmdHdr) (kind : Nat) (st : Status) : (s.auditCmd c h kind st).fw = s.fw :=
  (State.auditCmd_keeps s _ _ _ _ (.refl s) (.refl _)).frame .fw rfl
@[simp] theorem State.auditCmd_saps (s : State) (c : Shape) (h : CmdHdr) (kind : Nat) (st : Status) : (s.auditCmd c h kind st).saps = s.saps :=
  (State.auditCmd_keeps s _ _ _ _ (.refl s) (.refl _)).frame .saps rfl
@[simp] theorem State.auditCmd_sap (s : State) (c : Shape) (h : CmdHdr) (kind : Nat) (st : Status) (j : Nat) : (s.auditCmd c h kind st).sap j = s.sap j := by
  simp [State.sap]
@[simp] theorem State.auditCmd_clk (s : State) (c : Shape) (h : CmdHdr) (kind : Nat) (st : Status) : (s.auditCmd c h kind st).clk = s.clk :=
  (State.auditCmd_keeps s _ _ _ _ (.refl s) (.refl _)).frame .clk rfl
@[simp] theorem State.auditCmd_jtag (s : State) (c : Shape) (h : CmdHdr) (kind : Nat) (st : Status) : (s.auditCmd c h kind st).jtag = s.jtag :=
  (State.auditCmd_keeps s _ _ _ _ (.refl s) (.refl _)).frame .jtag rfl
@[simp] theorem State.auditCmd_sent (s : State) (c : Shape) (h : CmdHdr) (kind : Nat) (st : Status) : (s.auditCmd c h kind st).sent = s.sent :=
  (State.auditCmd_keeps s _ _ _ _ (.refl s) (.refl _)).frame .sent rfl
@[simp] theorem State.auditCmd_rings (s : State) (c : Shape) (h : CmdHdr) (kind : Nat) (st : Status) : (s.auditCmd c h kind st).rings = s.rings :=
  (State.auditCmd_keeps s _ _ _ _ (.refl s) (.refl _)).frame .rings rfl
@[simp] theorem State.auditCmd_heldMoves (s : State) (c : Shape) (h : CmdHdr) (kind : Nat) (st : Status) : (s.auditCmd c h kind st).heldMoves = s.heldMoves :=
  (State.auditCmd_keeps s _ _ _ _ (.refl s) (.refl _)).frame .heldMoves rfl

/-! ## `State.logged` -/

@[simp] theorem State.logged_pending (s : State) (c : Shape) (h : CmdHdr) : (s.logged c h).pending = s.pending :=
  (State.logged_keeps s _ _ (.refl s) (.refl _)).pending
@[simp] theorem State.logged_now (s : State) (c : Shape) (h : CmdHdr) : (s.logged c h).now = s.now :=
  (State.logged_keeps s _ _ (.refl s) (.refl _)).frame .now rfl
@[simp] theorem State.logged_stamp (s : State) (c : Shape) (h : CmdHdr) : (s.logged c h).stamp = s.stamp :=
  (State.logged_keeps s _ _ (.refl s) (.refl _)).frame .stamp rfl
@[simp] theorem State.logged_free (s : State) (c : Shape) (h : CmdHdr) : (s.logged c h).free = s.free :=
  (State.logged_keeps s _ _ (.refl s) (.refl _)).frame .free rfl
@[simp] theorem State.logged_power (s : State) (c : Shape) (h : CmdHdr) : (s.logged c h).power = s.power :=
  (State.logged_keeps s _ _ (.refl s) (.refl _)).frame .power rfl
@[simp] theorem State.logged_streams (s : State) (c : Shape) (h : CmdHdr) : (s.logged c h).streams = s.streams :=
  (State.logged_keeps s _ _ (.refl s) (.refl _)).frame .streams rfl
@[simp] theorem State.logged_stream (s : State) (c : Shape) (h : CmdHdr) (j : Nat) : (s.logged c h).stream j = s.stream j := by
  simp [State.stream]
@[simp] theorem State.logged_egress (s : State) (c : Shape) (h : CmdHdr) : (s.logged c h).egress = s.egress :=
  (State.logged_keeps s _ _ (.refl s) (.refl _)).frame .egress rfl
@[simp] theorem State.logged_egr (s : State) (c : Shape) (h : CmdHdr) (j : Nat) : (s.logged c h).egr j = s.egr j := by
  simp [State.egr]
@[simp] theorem State.logged_journals (s : State) (c : Shape) (h : CmdHdr) : (s.logged c h).journals = s.journals :=
  (State.logged_keeps s _ _ (.refl s) (.refl _)).frame .journals rfl
@[simp] theorem State.logged_journal (s : State) (c : Shape) (h : CmdHdr) (j : Nat) : (s.logged c h).journal j = s.journal j := by
  simp [State.journal]
@[simp] theorem State.logged_stalls (s : State) (c : Shape) (h : CmdHdr) : (s.logged c h).stalls = s.stalls :=
  (State.logged_keeps s _ _ (.refl s) (.refl _)).frame .stalls rfl
@[simp] theorem State.logged_stall (s : State) (c : Shape) (h : CmdHdr) (j : Nat) : (s.logged c h).stall j = s.stall j := by
  simp [State.stall]
@[simp] theorem State.logged_voices (s : State) (c : Shape) (h : CmdHdr) : (s.logged c h).voices = s.voices :=
  (State.logged_keeps s _ _ (.refl s) (.refl _)).frame .voices rfl
@[simp] theorem State.logged_voice (s : State) (c : Shape) (h : CmdHdr) (j : Nat) : (s.logged c h).voice j = s.voice j := by
  simp [State.voice]
@[simp] theorem State.logged_bases (s : State) (c : Shape) (h : CmdHdr) : (s.logged c h).bases = s.bases :=
  (State.logged_keeps s _ _ (.refl s) (.refl _)).frame .bases rfl
@[simp] theorem State.logged_base (s : State) (c : Shape) (h : CmdHdr) (j : Nat) : (s.logged c h).base j = s.base j := by
  simp [State.base]
@[simp] theorem State.logged_rows (s : State) (c : Shape) (h : CmdHdr) : (s.logged c h).rows = s.rows :=
  (State.logged_keeps s _ _ (.refl s) (.refl _)).frame .rows rfl
@[simp] theorem State.logged_row (s : State) (c : Shape) (h : CmdHdr) (j : Nat) : (s.logged c h).row j = s.row j := by
  simp [State.row]
@[simp] theorem State.logged_presses (s : State) (c : Shape) (h : CmdHdr) : (s.logged c h).presses = s.presses :=
  (State.logged_keeps s _ _ (.refl s) (.refl _)).frame .presses rfl
@[simp] theorem State.logged_press (s : State) (c : Shape) (h : CmdHdr) (j : Nat) : (s.logged c h).press j = s.press j := by
  simp [State.press]
@[simp] theorem State.logged_stages (s : State) (c : Shape) (h : CmdHdr) : (s.logged c h).stages = s.stages :=
  (State.logged_keeps s _ _ (.refl s) (.refl _)).frame .stages rfl
@[simp] theorem State.logged_stage (s : State) (c : Shape) (h : CmdHdr) (j : Nat) : (s.logged c h).stage j = s.stage j := by
  simp [State.stage]
@[simp] theorem State.logged_recUnits (s : State) (c : Shape) (h : CmdHdr) : (s.logged c h).recUnits = s.recUnits :=
  (State.logged_keeps s _ _ (.refl s) (.refl _)).frame .recUnits rfl
@[simp] theorem State.logged_recUnit (s : State) (c : Shape) (h : CmdHdr) (j : Nat) : (s.logged c h).recUnit j = s.recUnit j := by
  simp [State.recUnit]
@[simp] theorem State.logged_engines (s : State) (c : Shape) (h : CmdHdr) : (s.logged c h).engines = s.engines :=
  (State.logged_keeps s _ _ (.refl s) (.refl _)).frame .engines rfl
@[simp] theorem State.logged_engine (s : State) (c : Shape) (h : CmdHdr) (j : Nat) : (s.logged c h).engine j = s.engine j := by
  simp [State.engine]
@[simp] theorem State.logged_channels (s : State) (c : Shape) (h : CmdHdr) : (s.logged c h).channels = s.channels :=
  (State.logged_keeps s _ _ (.refl s) (.refl _)).frame .channels rfl
@[simp] theorem State.logged_channel (s : State) (c : Shape) (h : CmdHdr) (j : Nat) : (s.logged c h).channel j = s.channel j := by
  simp [State.channel]
@[simp] theorem State.logged_dies (s : State) (c : Shape) (h : CmdHdr) : (s.logged c h).dies = s.dies :=
  (State.logged_keeps s _ _ (.refl s) (.refl _)).frame .dies rfl
@[simp] theorem State.logged_die (s : State) (c : Shape) (h : CmdHdr) (j : Nat) : (s.logged c h).die j = s.die j := by
  simp [State.die]
@[simp] theorem State.logged_mem (s : State) (c : Shape) (h : CmdHdr) : (s.logged c h).mem = s.mem :=
  (State.logged_keeps s _ _ (.refl s) (.refl _)).frame .mem rfl
@[simp] theorem State.logged_nets (s : State) (c : Shape) (h : CmdHdr) : (s.logged c h).nets = s.nets :=
  (State.logged_keeps s _ _ (.refl s) (.refl _)).frame .nets rfl
@[simp] theorem State.logged_net (s : State) (c : Shape) (h : CmdHdr) (j : Nat) : (s.logged c h).net j = s.net j := by
  simp [State.net]
@[simp] theorem State.logged_sessions (s : State) (c : Shape) (h : CmdHdr) : (s.logged c h).sessions = s.sessions :=
  (State.logged_keeps s _ _ (.refl s) (.refl _)).frame .sessions rfl
@[simp] theorem State.logged_sess (s : State) (c : Shape) (h : CmdHdr) (j : Nat) : (s.logged c h).sess j = s.sess j := by
  simp [State.sess]
@[simp] theorem State.logged_vct (s : State) (c : Shape) (h : CmdHdr) : (s.logged c h).vct = s.vct :=
  (State.logged_keeps s _ _ (.refl s) (.refl _)).frame .vct rfl
@[simp] theorem State.logged_criers (s : State) (c : Shape) (h : CmdHdr) : (s.logged c h).criers = s.criers :=
  (State.logged_keeps s _ _ (.refl s) (.refl _)).frame .criers rfl
@[simp] theorem State.logged_crierSrc (s : State) (c : Shape) (h : CmdHdr) (j : Nat) : (s.logged c h).crierSrc j = s.crierSrc j := by
  simp [State.crierSrc]
@[simp] theorem State.logged_clerk (s : State) (c : Shape) (h : CmdHdr) : (s.logged c h).clerk = s.clerk :=
  (State.logged_keeps s _ _ (.refl s) (.refl _)).frame .clerk rfl
@[simp] theorem State.logged_exports (s : State) (c : Shape) (h : CmdHdr) : (s.logged c h).exports = s.exports :=
  (State.logged_keeps s _ _ (.refl s) (.refl _)).frame .exports rfl
@[simp] theorem State.logged_img (s : State) (c : Shape) (h : CmdHdr) (j : Nat) : (s.logged c h).img j = s.img j := by
  simp [State.img]
@[simp] theorem State.logged_flash (s : State) (c : Shape) (h : CmdHdr) : (s.logged c h).flash = s.flash :=
  (State.logged_keeps s _ _ (.refl s) (.refl _)).frame .flash rfl
@[simp] theorem State.logged_park (s : State) (c : Shape) (h : CmdHdr) (j : Nat) : (s.logged c h).park j = s.park j := by
  simp [State.park]
@[simp] theorem State.logged_lib (s : State) (c : Shape) (h : CmdHdr) (j : Nat) : (s.logged c h).lib j = s.lib j := by
  simp [State.lib]
@[simp] theorem State.logged_fw (s : State) (c : Shape) (h : CmdHdr) : (s.logged c h).fw = s.fw :=
  (State.logged_keeps s _ _ (.refl s) (.refl _)).frame .fw rfl
@[simp] theorem State.logged_saps (s : State) (c : Shape) (h : CmdHdr) : (s.logged c h).saps = s.saps :=
  (State.logged_keeps s _ _ (.refl s) (.refl _)).frame .saps rfl
@[simp] theorem State.logged_sap (s : State) (c : Shape) (h : CmdHdr) (j : Nat) : (s.logged c h).sap j = s.sap j := by
  simp [State.sap]
@[simp] theorem State.logged_clk (s : State) (c : Shape) (h : CmdHdr) : (s.logged c h).clk = s.clk :=
  (State.logged_keeps s _ _ (.refl s) (.refl _)).frame .clk rfl
@[simp] theorem State.logged_jtag (s : State) (c : Shape) (h : CmdHdr) : (s.logged c h).jtag = s.jtag :=
  (State.logged_keeps s _ _ (.refl s) (.refl _)).frame .jtag rfl
@[simp] theorem State.logged_sent (s : State) (c : Shape) (h : CmdHdr) : (s.logged c h).sent = s.sent :=
  (State.logged_keeps s _ _ (.refl s) (.refl _)).frame .sent rfl
@[simp] theorem State.logged_rings (s : State) (c : Shape) (h : CmdHdr) : (s.logged c h).rings = s.rings :=
  (State.logged_keeps s _ _ (.refl s) (.refl _)).frame .rings rfl
@[simp] theorem State.logged_heldMoves (s : State) (c : Shape) (h : CmdHdr) : (s.logged c h).heldMoves = s.heldMoves :=
  (State.logged_keeps s _ _ (.refl s) (.refl _)).frame .heldMoves rfl

/-! ## Completing a command -/

/-- An accepted command that carries out at once completes: state its effect first, then use this. -/
theorem completes_done {i : Instr} {c : Shape} {h : CmdHdr} {len op : Nat} {own : State → Act} {s : State}
    {f : State → State} {b : State → List Byte} {n : Nat} (he : exec i s = run s (clerk c h len own))
    (ha : s.Accepts c h len) (ho : own s = .done f b n) (hop : c.opcode = op) :
    Completes i s op h n (f (s.logged c h)) (b (f (s.logged c h))) := by
  subst hop
  exact he.trans (clerk_done ha ho)

/-- An accepted command whose response is deferred. -/
theorem next_later {i : Instr} {c : Shape} {h : CmdHdr} {len : Nat} {own : State → Act} {s : State} {f : State → State}
    (he : exec i s = run s (clerk c h len own)) (ha : s.Accepts c h len) (ho : own s = .later f) :
    exec i s = .next ((f (s.logged c h)).startCmd h) := he.trans (clerk_later ha ho)

end Sys2Proof.Machine
end

