-- ==== Sys2Proof/Laws/Security.lean ====
section
/-! SUPPORT. What security and firmware keep: the queue of waiting commands, memory's canonical form, and the parts of the state that each
never writes (a mask over `Field`, by index). -/

namespace Sys2Proof.Machine
set_option Elab.async false

theorem State.writeFw_keeps {μ : Nat} {s₀ : State} (s : State) (slot bytes : Nat) (hk
    : Keeps μ s₀ s) (hm : Sub 0x1000004 μ := by first | assumption | (apply Sub.of <;> first | assumption | rfl))
    : Keeps μ s₀ (State.writeFw s slot bytes) := by
  unfold State.writeFw
  repeat' first
      | (with_reducible first
          | exact hk | exact Keeps.refl _ | apply State.flashFree_keeps | apply State.flashWrite_keeps)
      | (apply Sub.of <;> first | assumption | rfl) | dsimp only

theorem State.writeCfg_keeps {μ : Nat} {s₀ : State} (s : State) (f : CfgRec → CfgRec) (hk
    : Keeps μ s₀ s) (hm : Sub 0x1600004 μ := by first | assumption | (apply Sub.of <;> first | assumption | rfl))
    : Keeps μ s₀ (State.writeCfg s f) := by
  unfold State.writeCfg
  repeat' first
      | (with_reducible first
          | exact hk | exact Keeps.refl _ | apply State.drawTally_keeps | apply State.writeFw_keeps
          | apply State.modFlash_keeps)
      | (intro _ _) | (apply Sub.of <;> first | assumption | rfl) | dsimp only

theorem cfgOwn_keeps {μ : Nat} (f : State → CfgRec → CfgRec) (back : Nat) (s : State)
    (hm : Sub 0x1600004 μ := by first | assumption | (apply Sub.of <;> first | assumption | rfl))
    : ActKeeps μ (cfgOwn f back s) := by
  unfold cfgOwn
  repeat' first
      | (with_reducible first
          | exact Keeps.refl _ | exact ActKeeps.no _ | exact ActKeeps.conflict _ | exact OptKeeps.none
          | apply noTally_keeps | apply ActKeeps.ite | apply OptKeeps.ite | apply Keeps.ite | apply OptKeeps.some
          | apply ActKeeps.ok | apply ActKeeps.done | apply ActKeeps.later | apply ActKeeps.refuse
          | apply State.tally_keeps | apply State.writeCfg_keeps | exact Keeps.id_ _ | assumption)
      | (apply Sub.of <;> first | assumption | rfl) | split | dsimp only | intro _

theorem credOwn_keeps {μ : Nat} (slot : Nat) (clear : Bool) (s : State)
    (hm : Sub 0x1600004 μ := by first | assumption | (apply Sub.of <;> first | assumption | rfl))
    : ActKeeps μ (credOwn slot clear s) := by
  unfold credOwn
  repeat' first
      | (with_reducible first
          | exact Keeps.refl _ | exact ActKeeps.no _ | exact ActKeeps.conflict _ | exact OptKeeps.none
          | apply cfgOwn_keeps | apply ActKeeps.ite | apply OptKeeps.ite | apply Keeps.ite | apply OptKeeps.some
          | apply ActKeeps.ok | apply ActKeeps.done | apply ActKeeps.later | apply ActKeeps.refuse | exact Keeps.id_ _
          | assumption)
      | (apply Sub.of <;> first | assumption | rfl) | split | dsimp only | intro _

theorem execSecCredCommit_keeps {h : CmdHdr} {slot : Nat} {s : State} {t : State}
    (h : execSecCredCommit h slot s = .next t) : Keeps 0x457C0004 s t := by
  have hm := Sub.refl 0x457C0004
  unfold execSecCredCommit at h
  refine run_keeps ?_ h
  intro _
  repeat' first
      | (with_reducible first
          | exact Keeps.refl _ | apply Keeps.ite | apply clerk_keeps | apply credOwn_keeps | apply clerk_keeps
          | exact Keeps.id_ _ | assumption)
      | exact Or.inl ⟨rfl, rfl⟩ | refine Or.inr ?_ | (apply Sub.of <;> first | assumption | rfl) | split | dsimp only
      | intro _

theorem execSecCredClear_keeps {h : CmdHdr} {slot : Nat} {s : State} {t : State}
    (h : execSecCredClear h slot s = .next t) : Keeps 0x457C0004 s t := by
  have hm := Sub.refl 0x457C0004
  unfold execSecCredClear at h
  refine run_keeps ?_ h
  intro _
  repeat' first
      | (with_reducible first
          | exact Keeps.refl _ | apply Keeps.ite | apply clerk_keeps | apply credOwn_keeps | apply clerk_keeps
          | exact Keeps.id_ _ | assumption)
      | exact Or.inl ⟨rfl, rfl⟩ | refine Or.inr ?_ | (apply Sub.of <;> first | assumption | rfl) | split | dsimp only
      | intro _

theorem cfgSaveOwn_keeps {μ : Nat} (save : Bool) (s : State)
    (hm : Sub 0x1600004 μ := by first | assumption | (apply Sub.of <;> first | assumption | rfl))
    : ActKeeps μ (cfgSaveOwn save s) := by
  unfold cfgSaveOwn
  repeat' first
      | (with_reducible first
          | exact Keeps.refl _ | exact ActKeeps.no _ | exact ActKeeps.conflict _ | exact OptKeeps.none
          | apply cfgOwn_keeps | apply ActKeeps.ite | apply OptKeeps.ite | apply Keeps.ite | apply OptKeeps.some
          | apply ActKeeps.ok | apply ActKeeps.done | apply ActKeeps.later | apply ActKeeps.refuse | exact Keeps.id_ _
          | assumption)
      | (apply Sub.of <;> first | assumption | rfl) | split | dsimp only | intro _

theorem execSecCfgSave_keeps {h : CmdHdr} {s : State} {t : State} (h : execSecCfgSave h s = .next t)
    : Keeps 0x457C0004 s t := by
  have hm := Sub.refl 0x457C0004
  unfold execSecCfgSave at h
  refine run_keeps ?_ h
  intro _
  repeat' first
      | (with_reducible first
          | exact Keeps.refl _ | apply Keeps.ite | apply clerk_keeps | apply cfgSaveOwn_keeps | apply clerk_keeps
          | exact Keeps.id_ _ | assumption)
      | exact Or.inl ⟨rfl, rfl⟩ | refine Or.inr ?_ | (apply Sub.of <;> first | assumption | rfl) | split | dsimp only
      | intro _

theorem attestOwn_keeps {μ : Nat} (h : CmdHdr) (body : List Byte) (s : State)
    (hm : Sub 0x480000 μ := by first | assumption | (apply Sub.of <;> first | assumption | rfl))
    : ActKeeps μ (attestOwn h body s) := by
  unfold attestOwn
  repeat' first
      | (with_reducible first
          | exact Keeps.refl _ | exact ActKeeps.no _ | exact ActKeeps.conflict _ | exact OptKeeps.none
          | apply ActKeeps.ite | apply OptKeeps.ite | apply Keeps.ite | apply OptKeeps.some | apply ActKeeps.ok
          | apply ActKeeps.done | apply ActKeeps.later | apply ActKeeps.refuse | apply State.modSess_keeps
          | apply State.modClerk_keeps | exact Keeps.id_ _ | assumption)
      | refine Keeps.of_snd (by assumption) ?_ | refine Keeps.of_fst (by assumption) ?_
      | (apply Sub.of <;> first | assumption | rfl) | split | dsimp only | intro _

theorem execAttest_keeps {h : CmdHdr} {body : List Byte} {s : State} {t : State}
    (h : execAttest h body s = .next t) : Keeps 0x405C0000 s t := by
  have hm := Sub.refl 0x405C0000
  unfold execAttest at h
  refine run_keeps ?_ h
  intro _
  repeat' first
      | (with_reducible first
          | exact Keeps.refl _ | apply Keeps.ite | apply clerk_keeps | apply attestOwn_keeps | apply clerk_keeps
          | exact Keeps.id_ _ | assumption)
      | exact Or.inl ⟨rfl, rfl⟩ | refine Or.inr ?_ | (apply Sub.of <;> first | assumption | rfl) | split | dsimp only
      | intro _

theorem execAttestKeyReady_keeps {s : State} {t : State} (h : execAttestKeyReady s = .next t)
    : Keeps 0x4000000 s t := by
  have hm := Sub.refl 0x4000000
  unfold execAttestKeyReady at h
  refine run_keeps ?_ h
  intro _
  repeat' first
      | (with_reducible first
          | exact Keeps.refl _ | apply Keeps.ite | apply State.modSec_keeps | exact Keeps.id_ _ | assumption)
      | (apply Sub.of <;> first | assumption | rfl) | split | dsimp only | intro _

theorem unlockChallengeOwn_keeps {μ : Nat} (body : List Byte) (s : State)
    (hm : Sub 0x4000004 μ := by first | assumption | (apply Sub.of <;> first | assumption | rfl))
    : ActKeeps μ (unlockChallengeOwn body s) := by
  unfold unlockChallengeOwn
  repeat' first
      | (with_reducible first
          | exact Keeps.refl _ | exact ActKeeps.no _ | exact ActKeeps.conflict _ | exact OptKeeps.none
          | apply ActKeeps.ite | apply OptKeeps.ite | apply Keeps.ite | apply OptKeeps.some | apply ActKeeps.ok
          | apply ActKeeps.done | apply ActKeeps.later | apply ActKeeps.refuse | apply State.draw_keeps
          | apply State.modSec_keeps | exact Keeps.id_ _ | assumption)
      | (apply Sub.of <;> first | assumption | rfl) | split | dsimp only | intro _

theorem execUnlockChallenge_keeps {h : CmdHdr} {body : List Byte} {s : State} {t : State}
    (h : execUnlockChallenge h body s = .next t) : Keeps 0x445C0004 s t := by
  have hm := Sub.refl 0x445C0004
  unfold execUnlockChallenge at h
  refine run_keeps ?_ h
  intro _
  repeat' first
      | (with_reducible first
          | exact Keeps.refl _ | apply Keeps.ite | apply clerk_keeps | apply unlockChallengeOwn_keeps
          | apply clerk_keeps | exact Keeps.id_ _ | assumption)
      | exact Or.inl ⟨rfl, rfl⟩ | refine Or.inr ?_ | (apply Sub.of <;> first | assumption | rfl) | split | dsimp only
      | intro _

theorem State.unlocked_keeps {μ : Nat} {s₀ : State} (s : State) (k : Nat) (c : Challenge) (hk
    : Keeps μ s₀ s) (hm : Sub 0x4080000 μ := by first | assumption | (apply Sub.of <;> first | assumption | rfl))
    : Keeps μ s₀ (State.unlocked s k c) := by
  unfold State.unlocked
  extract_lets v1 v2 v3
  clear_value v1
  have h2 : Keeps μ s₀ v2 := by
    unfold v2
    repeat' first
        | (with_reducible first
            | exact hk | exact Keeps.refl _ | apply Keeps.ite | apply State.modSec_keeps)
        | (intro _ _) | (apply Sub.of <;> first | assumption | rfl) | split | dsimp only
  clear_value v2
  have h3 : Keeps μ s₀ v3 := by
    unfold v3
    repeat' first
        | (with_reducible first
            | exact h2 | exact Keeps.refl _ | apply Keeps.ite | apply State.modSess_keeps)
        | (intro _ _) | (apply Sub.of <;> first | assumption | rfl) | split | dsimp only
  clear_value v3
  repeat' first
      | (with_reducible first
          | exact h3 | exact Keeps.refl _ | apply Keeps.ite | apply State.audit_keeps)
      | (apply Sub.of <;> first | assumption | rfl) | split | dsimp only

theorem State.unlockFailed_keeps {μ : Nat} {s₀ : State} (s : State) (c : Challenge) (hk
    : Keeps μ s₀ s) (hm : Sub 0x4000000 μ := by first | assumption | (apply Sub.of <;> first | assumption | rfl))
    : Keeps μ s₀ (State.unlockFailed s c) := by
  unfold State.unlockFailed
  extract_lets v1
  have h1 : Keeps μ s₀ v1 := by
    unfold v1
    repeat' first
        | (with_reducible first
            | exact hk | exact Keeps.refl _ | apply State.modSec_keeps)
        | (intro _ _) | (apply Sub.of <;> first | assumption | rfl) | dsimp only
  clear_value v1
  repeat' first
      | (with_reducible first
          | exact h1 | exact Keeps.refl _ | apply Keeps.ite | apply State.credFailed_keeps)
      | (apply Sub.of <;> first | assumption | rfl) | split | dsimp only

theorem unlockResponseOwn_keeps {μ : Nat} (h : CmdHdr) (body : List Byte) (s : State)
    (hm : Sub 0x4080000 μ := by first | assumption | (apply Sub.of <;> first | assumption | rfl))
    : ActKeeps μ (unlockResponseOwn h body s) := by
  unfold unlockResponseOwn
  refine .ite (.no _) ?_
  split
  · exact .no _
  · exact .ite (.no _) (.ite (.no _) (.ite (.no _) (.ite (.refuse Keeps.refl) (.ite
      (.ok fun t => State.modSec_keeps _ _ (.refl t)) (.ite (.done fun t => State.unlocked_keeps _ _ _ (.refl t))
        (.refuse fun t => State.unlockFailed_keeps _ _ (.refl t)))))))

theorem execUnlockResponse_keeps {h : CmdHdr} {body : List Byte} {s : State} {t : State}
    (h : execUnlockResponse h body s = .next t) : Keeps 0x445C0000 s t := by
  have hm := Sub.refl 0x445C0000
  unfold execUnlockResponse at h
  refine run_keeps ?_ h
  intro _
  repeat' first
      | (with_reducible first
          | exact Keeps.refl _ | apply Keeps.ite | apply clerk_keeps | apply unlockResponseOwn_keeps
          | apply clerk_keeps | exact Keeps.id_ _ | assumption)
      | exact Or.inl ⟨rfl, rfl⟩ | refine Or.inr ?_ | (apply Sub.of <;> first | assumption | rfl) | split | dsimp only
      | intro _

theorem execChallengeExpire_keeps {s : State} {t : State} (h : execChallengeExpire s = .next t)
    : Keeps 0x4000000 s t := by
  have hm := Sub.refl 0x4000000
  unfold execChallengeExpire at h
  refine run_keeps ?_ h
  intro _
  repeat' first
      | (with_reducible first
          | exact Keeps.refl _ | apply Keeps.ite | apply State.modSec_keeps | exact Keeps.id_ _ | assumption)
      | (apply Sub.of <;> first | assumption | rfl) | split | dsimp only | intro _

theorem execLockoutEnd_keeps {s : State} {t : State} (h : execLockoutEnd s = .next t) : Keeps 0x4000000 s t := by
  have hm := Sub.refl 0x4000000
  unfold execLockoutEnd at h
  refine run_keeps ?_ h
  intro _
  repeat' first
      | (with_reducible first
          | exact Keeps.refl _ | apply Keeps.ite | apply State.modSec_keeps | exact Keeps.id_ _ | assumption)
      | (apply Sub.of <;> first | assumption | rfl) | split | dsimp only | intro _

theorem execEntropyFail_keeps {s : State} {t : State} (h : execEntropyFail s = .next t) : Keeps 0x4000000 s t := by
  have hm := Sub.refl 0x4000000
  unfold execEntropyFail at h
  refine run_keeps ?_ h
  intro _
  repeat' first
      | (with_reducible first
          | exact Keeps.refl _ | apply Keeps.ite | apply State.modSec_keeps | exact Keeps.id_ _ | assumption)
      | (apply Sub.of <;> first | assumption | rfl) | split | dsimp only | intro _

theorem State.dropStaged_keeps {μ : Nat} {s₀ : State} (s : State) (hk
    : Keeps μ s₀ s) (hm : Sub 0x3000000 μ := by first | assumption | (apply Sub.of <;> first | assumption | rfl))
    : Keeps μ s₀ (State.dropStaged s) := by
  unfold State.dropStaged
  extract_lets v1 v2
  clear_value v1
  have h2 : Keeps μ s₀ v2 := by
    unfold v2
    repeat' first
        | (with_reducible first
            | exact hk | exact Keeps.refl _ | apply Keeps.ite | apply State.modFlash_keeps | apply State.idle_keeps)
        | (intro _ _) | (apply Sub.of <;> first | assumption | rfl) | split | dsimp only
  clear_value v2
  repeat' first
      | (with_reducible first
          | exact h2 | exact Keeps.refl _ | apply State.modFw_keeps)
      | (intro _ _) | (apply Sub.of <;> first | assumption | rfl) | dsimp only

theorem State.stagePages_keeps {μ : Nat} {s₀ : State} (s : State) (had bytes : Nat) (hk
    : Keeps μ s₀ s) (hm : Sub 0x1000004 μ := by first | assumption | (apply Sub.of <;> first | assumption | rfl))
    : Keeps μ s₀ (State.stagePages s had bytes) := by
  unfold State.stagePages
  repeat' first
      | (with_reducible first
          | exact hk | exact Keeps.refl _ | apply Keeps.ite | apply State.flashFree_keeps
          | apply State.flashWrite_keeps)
      | (apply Sub.of <;> first | assumption | rfl) | split | dsimp only

theorem State.stagedIn_keeps {μ : Nat} {s₀ : State} (s : State) (slot : Nat) (hk
    : Keeps μ s₀ s) (hm : Sub 0x1000000 μ := by first | assumption | (apply Sub.of <;> first | assumption | rfl))
    : Keeps μ s₀ (State.stagedIn s slot) := by
  unfold State.stagedIn
  repeat' first
      | (with_reducible first
          | exact hk | exact Keeps.refl _ | apply State.flashFree_keeps | apply State.modWear_keeps)
      | (intro _ _) | (apply Sub.of <;> first | assumption | rfl) | dsimp only

theorem fwStageOwn_keeps {μ : Nat} (h : CmdHdr) (body : List Byte) (s : State)
    (hm : Sub 0x3600004 μ := by first | assumption | (apply Sub.of <;> first | assumption | rfl))
    : ActKeeps μ (fwStageOwn h body s) := by
  unfold fwStageOwn
  repeat' first
      | (with_reducible first
          | exact Keeps.refl _ | exact ActKeeps.no _ | exact ActKeeps.conflict _ | exact OptKeeps.none
          | apply noTally_keeps | apply ActKeeps.ite | apply OptKeeps.ite | apply Keeps.ite | apply OptKeeps.some
          | apply ActKeeps.ok | apply ActKeeps.done | apply ActKeeps.later | apply ActKeeps.refuse
          | apply State.refuse_keeps | apply State.tally_keeps | apply State.dropStaged_keeps
          | apply State.drawTally_keeps | apply State.stagePages_keeps | apply State.modFw_keeps
          | apply State.stagedIn_keeps | apply State.modFlash_keeps | exact Keeps.id_ _ | assumption)
      | (apply Sub.of <;> first | assumption | rfl) | split | dsimp only | intro _

theorem execFwStage_keeps {h : CmdHdr} {body : List Byte} {s : State} {t : State}
    (h : execFwStage h body s = .next t) : Keeps 0x477C0004 s t := by
  have hm := Sub.refl 0x477C0004
  unfold execFwStage at h
  refine run_keeps ?_ h
  intro _
  repeat' first
      | (with_reducible first
          | exact Keeps.refl _ | apply Keeps.ite | apply clerk_keeps | apply fwStageOwn_keeps | apply clerk_keeps
          | exact Keeps.id_ _ | assumption)
      | exact Or.inl ⟨rfl, rfl⟩ | refine Or.inr ?_ | (apply Sub.of <;> first | assumption | rfl) | split | dsimp only
      | intro _

theorem fwCommitOwn_keeps {μ : Nat} (body : List Byte) (s : State)
    (hm : Sub 0x3000000 μ := by first | assumption | (apply Sub.of <;> first | assumption | rfl))
    : ActKeeps μ (fwCommitOwn body s) := by
  unfold fwCommitOwn
  repeat' first
      | (with_reducible first
          | exact Keeps.refl _ | exact ActKeeps.no _ | exact ActKeeps.conflict _ | exact OptKeeps.none
          | apply ActKeeps.ite | apply OptKeeps.ite | apply Keeps.ite | apply OptKeeps.some | apply ActKeeps.ok
          | apply ActKeeps.done | apply ActKeeps.later | apply ActKeeps.refuse | apply State.modFlash_keeps
          | apply State.modFw_keeps | exact Keeps.id_ _ | assumption)
      | (apply Sub.of <;> first | assumption | rfl) | split | dsimp only | intro _

theorem execFwCommit_keeps {h : CmdHdr} {body : List Byte} {s : State} {t : State}
    (h : execFwCommit h body s = .next t) : Keeps 0x475C0000 s t := by
  have hm := Sub.refl 0x475C0000
  unfold execFwCommit at h
  refine run_keeps ?_ h
  intro _
  repeat' first
      | (with_reducible first
          | exact Keeps.refl _ | apply Keeps.ite | apply clerk_keeps | apply fwCommitOwn_keeps | apply clerk_keeps
          | exact Keeps.id_ _ | assumption)
      | exact Or.inl ⟨rfl, rfl⟩ | refine Or.inr ?_ | (apply Sub.of <;> first | assumption | rfl) | split | dsimp only
      | intro _

theorem execProbationEnd_keeps {s : State} {t : State} (h : execProbationEnd s = .next t) : Keeps 0x5000000 s t := by
  have hm := Sub.refl 0x5000000
  unfold execProbationEnd at h
  refine run_keeps ?_ h
  intro _
  repeat' first
      | (with_reducible first
          | exact Keeps.refl _ | apply Keeps.ite | apply clerk_keeps | apply State.modFlash_keeps
          | apply State.audit_keeps | exact Keeps.id_ _ | assumption)
      | exact Or.inl ⟨rfl, rfl⟩ | refine Or.inr ?_ | (apply Sub.of <;> first | assumption | rfl) | split | dsimp only
      | intro _

theorem State.auditRead_keeps {μ : Nat} {s₀ : State} (s : State) (k : Nat) (hk
    : Keeps μ s₀ s) (hm : Sub 0x1000004 μ := by first | assumption | (apply Sub.of <;> first | assumption | rfl))
    : Keeps μ s₀ (State.auditRead s k) := by
  unfold State.auditRead
  repeat' first
      | (with_reducible first
          | exact hk | exact Keeps.refl _ | apply Keeps.ite | apply State.draw_keeps | apply State.modWear_keeps)
      | (intro _ _) | (apply Sub.of <;> first | assumption | rfl) | split | dsimp only

theorem auditReadOwn_keeps {μ : Nat} (h : CmdHdr) (body : List Byte) (s : State)
    (hm : Sub 0x1000004 μ := by first | assumption | (apply Sub.of <;> first | assumption | rfl))
    : ActKeeps μ (auditReadOwn h body s) := by
  unfold auditReadOwn
  repeat' first
      | (with_reducible first
          | exact Keeps.refl _ | exact ActKeeps.no _ | exact ActKeeps.conflict _ | exact OptKeeps.none
          | apply ActKeeps.ite | apply OptKeeps.ite | apply Keeps.ite | apply OptKeeps.some | apply ActKeeps.ok
          | apply ActKeeps.done | apply ActKeeps.later | apply ActKeeps.refuse | apply State.auditRead_keeps
          | exact Keeps.id_ _ | assumption)
      | (apply Sub.of <;> first | assumption | rfl) | split | dsimp only | intro _

theorem execAuditRead_keeps {h : CmdHdr} {body : List Byte} {s : State} {t : State}
    (h : execAuditRead h body s = .next t) : Keeps 0x415C0004 s t := by
  have hm := Sub.refl 0x415C0004
  unfold execAuditRead at h
  refine run_keeps ?_ h
  intro _
  repeat' first
      | (with_reducible first
          | exact Keeps.refl _ | apply Keeps.ite | apply clerk_keeps | apply auditReadOwn_keeps | apply clerk_keeps
          | exact Keeps.id_ _ | assumption)
      | exact Or.inl ⟨rfl, rfl⟩ | refine Or.inr ?_ | (apply Sub.of <;> first | assumption | rfl) | split | dsimp only
      | intro _

end Sys2Proof.Machine
end

