-- ==== Sys2Proof/Laws/Power.lean ====
section
/-! SUPPORT. What power and reset keep: the queue of waiting commands, memory's canonical form, and the parts of the state that each
never writes (a mask over `Field`, by index). -/

namespace Sys2Proof.Machine
set_option Elab.async false

theorem State.bootImage_keeps {μ : Nat} {s₀ : State} (s : State) (hk
    : Keeps μ s₀ s) (hm : Sub 0x3040008 μ := by first | assumption | (apply Sub.of <;> first | assumption | rfl))
    : Keeps μ s₀ (State.bootImage s) := by
  unfold State.bootImage
  repeat' first
      | (with_reducible first
          | exact hk | exact Keeps.refl _ | apply Keeps.ite | apply State.modFw_keeps | apply State.modFlash_keeps
          | apply State.modPower_keeps | apply State.modNet_keeps | apply forEach_keeps)
      | (intro _ _) | (apply Sub.of <;> first | assumption | rfl) | split | dsimp only

theorem State.bootRecords_keeps {μ : Nat} {s₀ : State} (s : State) (hk
    : Keeps μ s₀ s) (hm : Sub 0x5000000 μ := by first | assumption | (apply Sub.of <;> first | assumption | rfl))
    : Keeps μ s₀ (State.bootRecords s) := by
  unfold State.bootRecords
  extract_lets v1 v2
  clear_value v1
  have h2 : Keeps μ s₀ v2 := by
    unfold v2
    repeat' first
        | (with_reducible first
            | exact hk | exact Keeps.refl _ | apply State.audit_keeps)
        | (apply Sub.of <;> first | assumption | rfl) | dsimp only
  clear_value v2
  repeat' first
      | (with_reducible first
          | exact h2 | exact Keeps.refl _ | apply State.audit_keeps | apply State.modFlash_keeps)
      | (intro _ _) | (apply Sub.of <;> first | assumption | rfl) | split | dsimp only

theorem State.loadNets_keeps {μ : Nat} {s₀ : State} (s : State) (hk
    : Keeps μ s₀ s) (hm : Sub 0x40000 μ := by first | assumption | (apply Sub.of <;> first | assumption | rfl))
    : Keeps μ s₀ (State.loadNets s) := by
  unfold State.loadNets
  repeat' first
      | (with_reducible first
          | exact hk | exact Keeps.refl _ | apply State.modNet_keeps | apply forEach_keeps)
      | (intro _ _) | (apply Sub.of <;> first | assumption | rfl) | split | dsimp only

theorem State.coldReset_keeps {μ : Nat} {s₀ : State} (s : State) (phase : Phase) (hk
    : Keeps μ s₀ s)
    (hm : Sub 0x1BFFFFFF8 μ := by first | assumption | (apply Sub.of <;> first | assumption | rfl)) :
    Keeps μ s₀ (State.coldReset s phase) := by
  have h := State.failProbation_keeps s hk
  exact h.part rfl (fun w => wf_filter _ _ w) (fun p => by cases p <;> first | exact fun _ => rfl | exact fun e => absurd e (by decide)) hm

theorem State.warmReset_keeps {μ : Nat} {s₀ : State} (s : State) (hk
    : Keeps μ s₀ s)
    (hm : Sub 0x19FDFDFF8 μ := by first | assumption | (apply Sub.of <;> first | assumption | rfl)) :
    Keeps μ s₀ (State.warmReset s) := by
  unfold State.warmReset
  extract_lets s1 f1 s2 s3 s4 s5 s6 s7
  have h1 : Keeps μ s₀ s1 := forEach_keeps _ _ _ (fun t k => State.account_keeps _ _ (.refl t)) (State.failProbation_keeps s hk)
  have h2 : Keeps μ s₀ s2 := h1.part (a := 0x19FDFDFF8) rfl (fun w => wf_filter _ _ w)
      (fun p => by cases p <;> first | exact fun _ => rfl | exact fun e => absurd e (by decide)) hm
  have h7 : Keeps μ s₀ s7 := State.bootImage_keeps _ (State.loadNets_keeps _ (State.modFw_keeps _ _
    (State.modPower_keeps _ _ (State.modVct_keeps _ _ (State.modSec_keeps _ _ (State.modClerk_keeps _ _ h2))))))
  exact .ite h7 (State.bootRecords_keeps _ h7)

theorem State.beginDieReset_keeps {μ : Nat} {s₀ : State} (s : State) (die : Nat) (hk
    : Keeps μ s₀ s)
    (hm : Sub 0x505C8008 μ := by first | assumption | (apply Sub.of <;> first | assumption | rfl))
    : Keeps μ s₀ (State.beginDieReset s die) := by
  unfold State.beginDieReset
  repeat' first
      | (with_reducible first
          | exact hk | exact Keeps.refl _ | apply Keeps.ite | apply State.beginPressReset_keeps
          | apply State.modPower_keeps | apply State.modClk_keeps | apply State.modChannel_keeps | apply forEach_keeps)
      | (intro _ _) | (apply Sub.of <;> first | assumption | rfl) | split | dsimp only

theorem pressResetAct_keeps {μ : Nat} (h : CmdHdr) (die : Nat) (s : State)
    (hm : Sub 0x505C8008 μ := by first | assumption | (apply Sub.of <;> first | assumption | rfl))
    : ActKeeps μ (pressResetAct h die s) := by
  unfold pressResetAct
  repeat' first
      | (with_reducible first
          | exact Keeps.refl _ | exact ActKeeps.no _ | exact ActKeeps.conflict _ | exact OptKeeps.none
          | apply ActKeeps.ite | apply OptKeeps.ite | apply Keeps.ite | apply OptKeeps.some | apply ActKeeps.ok
          | apply ActKeeps.done | apply ActKeeps.later | apply ActKeeps.refuse | apply State.modPower_keeps
          | apply State.beginDieReset_keeps | exact Keeps.id_ _ | assumption)
      | (apply Sub.of <;> first | assumption | rfl) | split | dsimp only | intro _

theorem resetCtrlOwn_keeps {μ : Nat} (h : CmdHdr) (kind die : Nat) (force : Bool) (s : State)
    (hm : Sub 0x525C8008 μ := by first | assumption | (apply Sub.of <;> first | assumption | rfl))
    : ActKeeps μ (resetCtrlOwn h kind die force s) := by
  unfold resetCtrlOwn
  repeat' first
      | (with_reducible first
          | exact Keeps.refl _ | exact ActKeeps.no _ | exact ActKeeps.conflict _ | exact OptKeeps.none
          | apply pressResetAct_keeps | apply ActKeeps.ite | apply OptKeeps.ite | apply Keeps.ite
          | apply OptKeeps.some | apply ActKeeps.ok | apply ActKeeps.done | apply ActKeeps.later
          | apply ActKeeps.refuse | apply State.modFw_keeps | apply State.beginDieReset_keeps | exact Keeps.id_ _
          | assumption)
      | (apply Sub.of <;> first | assumption | rfl) | split | dsimp only | intro _

theorem execWarmReset_keeps {h : CmdHdr} {force : Bool} {s : State} {t : State}
    (h : execWarmReset h force s = .next t) : Keeps 0x565C8008 s t := by
  have hm := Sub.refl 0x565C8008
  unfold execWarmReset at h
  refine run_keeps ?_ h
  intro _
  repeat' first
      | (with_reducible first
          | exact Keeps.refl _ | apply Keeps.ite | apply clerk_keeps | apply resetCtrlOwn_keeps | apply clerk_keeps
          | exact Keeps.id_ _ | assumption)
      | exact Or.inl ⟨rfl, rfl⟩ | refine Or.inr ?_ | (apply Sub.of <;> first | assumption | rfl) | split | dsimp only
      | intro _

theorem execColdResetRequest_keeps {h : CmdHdr} {force : Bool} {s : State} {t : State}
    (h : execColdResetRequest h force s = .next t) : Keeps 0x565C8008 s t := by
  have hm := Sub.refl 0x565C8008
  unfold execColdResetRequest at h
  refine run_keeps ?_ h
  intro _
  repeat' first
      | (with_reducible first
          | exact Keeps.refl _ | apply Keeps.ite | apply clerk_keeps | apply resetCtrlOwn_keeps | apply clerk_keeps
          | exact Keeps.id_ _ | assumption)
      | exact Or.inl ⟨rfl, rfl⟩ | refine Or.inr ?_ | (apply Sub.of <;> first | assumption | rfl) | split | dsimp only
      | intro _

theorem execPerDieReset_keeps {h : CmdHdr} {die : Nat} {s : State} {t : State}
    (h : execPerDieReset h die s = .next t) : Keeps 0x565C8008 s t := by
  have hm := Sub.refl 0x565C8008
  unfold execPerDieReset at h
  refine run_keeps ?_ h
  intro _
  repeat' first
      | (with_reducible first
          | exact Keeps.refl _ | apply Keeps.ite | apply clerk_keeps | apply resetCtrlOwn_keeps | apply clerk_keeps
          | exact Keeps.id_ _ | assumption)
      | exact Or.inl ⟨rfl, rfl⟩ | refine Or.inr ?_ | (apply Sub.of <;> first | assumption | rfl) | split | dsimp only
      | intro _

theorem execPerDieResetComplete_keeps {die : Nat} {untrained : List Nat} {s : State} {t : State}
    (h : execPerDieResetComplete die untrained s = .next t) : Keeps 0x10566DCA8 s t := by
  have hm := Sub.refl 0x10566DCA8
  unfold execPerDieResetComplete at h
  refine run_keeps ?_ h
  intro _
  repeat' first
      | (with_reducible first
          | exact Keeps.refl _ | apply Keeps.ite | apply State.modPower_keeps | apply State.countDieReset_keeps
          | apply State.resetPress_keeps | apply State.reloadRow_keeps | apply State.modChannel_keeps
          | apply State.resetEdge_keeps | apply State.requestsAgain_keeps | apply State.landHeld_keeps
          | apply State.failModule_keeps | apply forEach_keeps | exact Keeps.id_ _ | assumption)
      | (apply Sub.of <;> first | assumption | rfl) | split | dsimp only | intro _

theorem execScheduledReset_keeps {s : State} {t : State} (h : execScheduledReset s = .next t)
    : Keeps 0x1BFFFFFF8 s t := by
  have hm := Sub.refl 0x1BFFFFFF8
  unfold execScheduledReset at h
  refine run_keeps ?_ h
  intro _
  repeat' first
      | (with_reducible first
          | exact Keeps.refl _ | apply Keeps.ite | apply clerk_keeps | apply State.warmReset_keeps
          | apply State.coldReset_keeps | exact Keeps.id_ _ | assumption)
      | exact Or.inl ⟨rfl, rfl⟩ | refine Or.inr ?_ | (apply Sub.of <;> first | assumption | rfl) | split | dsimp only
      | intro _

theorem execInputLoss_keeps {s : State} {t : State} (h : execInputLoss s = .next t) : Keeps 0x1BFFFFFF8 s t := by
  have hm := Sub.refl 0x1BFFFFFF8
  injection h with h
  exact h ▸ .ite (.refl s) (State.coldReset_keeps _ _ (.refl s))

theorem execThermalTrip_keeps {s : State} {t : State} (h : execThermalTrip s = .next t) : Keeps 0x1BFFFFFF8 s t := by
  have hm := Sub.refl 0x1BFFFFFF8
  injection h with h
  exact h ▸ .ite (.refl s) (State.coldReset_keeps _ _ (.refl s))

theorem execPowerUp_keeps {s : State} {t : State} (h : execPowerUp s = .next t) : Keeps 0x1BFFFFFF8 s t := by
  have hm := Sub.refl 0x1BFFFFFF8
  injection h with h
  exact h ▸ .ite (.jtag (State.coldReset_keeps _ _ (.refl s))) (.refl s)

theorem State.captureCell_keeps {μ : Nat} {s₀ : State} (s : State) (k : Nat) (v : Bool) (hk
    : Keeps μ s₀ s)
    (hm : Sub 0x20000000 μ := by first | assumption | (apply Sub.of <;> first | assumption | rfl))
    : Keeps μ s₀ (State.captureCell s k v) := by
  unfold State.captureCell
  repeat' first
      | (with_reducible first
          | exact hk | exact Keeps.refl _ | apply Keeps.jtag)
      | (apply Sub.of <;> first | assumption | rfl) | dsimp only

theorem execResetN_keeps {s : State} {t : State} (h : execResetN s = .next t) : Keeps 0x1BFFFFFF8 s t := by
  have hm := Sub.refl 0x1BFFFFFF8
  injection h with h
  have hp := State.modPower_keeps s (fun p => { p with resetN := false }) (.refl s)
  exact h ▸ .ite hp (.ite (.jtag (State.coldReset_keeps _ _ hp)) (.ite (State.captureCell_keeps _ _ _ hp) (State.coldReset_keeps _ _ hp)))

theorem State.releaseReset_keeps {μ : Nat} {s₀ : State} (s : State) (hk
    : Keeps μ s₀ s) (hm : Sub 0x8 μ := by first | assumption | (apply Sub.of <;> first | assumption | rfl))
    : Keeps μ s₀ (State.releaseReset s) := by
  unfold State.releaseReset
  repeat' first
      | (with_reducible first
          | exact hk | exact Keeps.refl _ | apply Keeps.ite | apply State.modPower_keeps)
      | (intro _ _) | (apply Sub.of <;> first | assumption | rfl) | split | dsimp only

theorem execResetNRelease_keeps {slotId : BitVec 4} {fpgmN : Bool} {s : State} {t : State}
    (h : execResetNRelease slotId fpgmN s = .next t) : Keeps 0x20000008 s t := by
  have hm := Sub.refl 0x20000008
  unfold execResetNRelease at h
  refine run_keeps ?_ h
  intro _
  repeat' first
      | (with_reducible first
          | exact Keeps.refl _ | apply Keeps.ite | apply State.modPower_keeps | apply State.captureCell_keeps
          | apply State.releaseReset_keeps | exact Keeps.id_ _ | assumption)
      | (apply Sub.of <;> first | assumption | rfl) | split | dsimp only | intro _

theorem State.boot_keeps {μ : Nat} {s₀ : State} (s : State) (b : BootResult) (hk
    : Keeps μ s₀ s)
    (hm : Sub 0x17048008 μ := by first | assumption | (apply Sub.of <;> first | assumption | rfl))
    : Keeps μ s₀ (State.boot s b) := by
  unfold State.boot
  extract_lets v1
  have h1 : Keeps μ s₀ v1 := by
    unfold v1
    repeat' first
        | (with_reducible first
            | exact hk | exact Keeps.refl _ | apply State.modClk_keeps)
        | (intro _ _) | (apply Sub.of <;> first | assumption | rfl) | dsimp only
  clear_value v1
  repeat' first
      | (with_reducible first
          | exact h1 | exact Keeps.refl _ | apply Keeps.ite | apply State.modPower_keeps | apply State.modSec_keeps
          | apply State.modChannel_keeps | apply State.bootImage_keeps | apply forEach_keeps)
      | (intro _ _) | (apply Sub.of <;> first | assumption | rfl) | split | dsimp only

theorem execPllLock_keeps {b : BootResult} {s : State} {t : State} (h : execPllLock b s = .next t)
    : Keeps 0x17048008 s t := by
  have hm := Sub.refl 0x17048008
  unfold execPllLock at h
  refine run_keeps ?_ h
  intro _
  repeat' first
      | (with_reducible first
          | exact Keeps.refl _ | apply Keeps.ite | apply State.boot_keeps | exact Keeps.id_ _ | assumption)
      | (apply Sub.of <;> first | assumption | rfl) | split | dsimp only | intro _

theorem execPalhaniStart_keeps {s : State} {t : State} (h : execPalhaniStart s = .next t) : Keeps 0x56400A8 s t := by
  have hm := Sub.refl 0x56400A8
  unfold execPalhaniStart at h
  refine run_keeps ?_ h
  intro _
  repeat' first
      | (with_reducible first
          | exact Keeps.refl _ | apply Keeps.ite | apply State.loadNets_keeps | apply State.modPower_keeps
          | apply State.modFlash_keeps | apply State.bootRecords_keeps | apply State.failModule_keeps
          | exact Keeps.id_ _ | assumption)
      | (apply Sub.of <;> first | assumption | rfl) | split | dsimp only | intro _

theorem execPortsEnable_keeps {s : State} {t : State} (h : execPortsEnable s = .next t) : Keeps 0x8 s t := by
  have hm := Sub.refl 0x8
  unfold execPortsEnable at h
  refine run_keeps ?_ h
  intro _
  repeat' first
      | (with_reducible first
          | exact Keeps.refl _ | apply Keeps.ite | apply clerk_keeps | apply State.modPower_keeps | exact Keeps.id_ _
          | assumption)
      | exact Or.inl ⟨rfl, rfl⟩ | refine Or.inr ?_ | (apply Sub.of <;> first | assumption | rfl) | split | dsimp only
      | intro _

theorem State.capTick_keeps {μ : Nat} {s₀ : State} (s : State) (volts amps watts : Nat) (hk
    : Keeps μ s₀ s) (hm : Sub 0x40C μ := by first | assumption | (apply Sub.of <;> first | assumption | rfl))
    : Keeps μ s₀ (State.capTick s volts amps watts) := by
  unfold State.capTick
  extract_lets v1 v2 v3 v4
  have h1 : Keeps μ s₀ v1 := by
    unfold v1
    repeat' first
        | (with_reducible first
            | exact hk | exact Keeps.refl _ | apply State.modPower_keeps)
        | (intro _ _) | (apply Sub.of <;> first | assumption | rfl) | dsimp only
  clear_value v1
  clear_value v2
  clear_value v3
  have h4 : Keeps μ s₀ v4 := by
    unfold v4
    repeat' first
        | (with_reducible first
            | exact h1 | exact Keeps.refl _ | apply Keeps.ite | apply State.draw_keeps | apply State.modPower_keeps)
        | (intro _ _) | (apply Sub.of <;> first | assumption | rfl) | split | dsimp only
  clear_value v4
  repeat' first
      | (with_reducible first
          | exact h4 | exact Keeps.refl _ | apply Keeps.ite | apply State.modRow_keeps | apply forEach_keeps)
      | (intro _ _) | (apply Sub.of <;> first | assumption | rfl) | split | dsimp only

theorem execPowerCapTick_keeps {volts amps watts : Nat} {s : State} {t : State}
    (h : execPowerCapTick volts amps watts s = .next t) : Keeps 0x40C s t := by
  have hm := Sub.refl 0x40C
  unfold execPowerCapTick at h
  refine run_keeps ?_ h
  intro _
  repeat' first
      | (with_reducible first
          | exact Keeps.refl _ | apply Keeps.ite | apply State.capTick_keeps | exact Keeps.id_ _ | assumption)
      | (apply Sub.of <;> first | assumption | rfl) | split | dsimp only | intro _

theorem State.thermStep_keeps {μ : Nat} {s₀ : State} (s : State) (temps : List Int) (hk
    : Keeps μ s₀ s) (hm : Sub 0x8 μ := by first | assumption | (apply Sub.of <;> first | assumption | rfl))
    : Keeps μ s₀ (State.thermStep s temps) := by
  unfold State.thermStep
  repeat' first
      | (with_reducible first
          | exact hk | exact Keeps.refl _ | apply State.modPower_keeps)
      | (intro _ _) | (apply Sub.of <;> first | assumption | rfl) | dsimp only

theorem execThermalStep_keeps {temps : List Int} {s : State} {t : State}
    (h : execThermalStep temps s = .next t) : Keeps 0x8 s t := by
  have hm := Sub.refl 0x8
  unfold execThermalStep at h
  refine run_keeps ?_ h
  intro _
  repeat' first
      | (with_reducible first
          | exact Keeps.refl _ | apply Keeps.ite | apply State.thermStep_keeps | exact Keeps.id_ _ | assumption)
      | (apply Sub.of <;> first | assumption | rfl) | split | dsimp only | intro _

theorem execThermalFailure_keeps {s : State} {t : State} (h : execThermalFailure s = .next t)
    : Keeps 0x56400A8 s t := by
  have hm := Sub.refl 0x56400A8
  unfold execThermalFailure at h
  refine run_keeps ?_ h
  intro _
  repeat' first
      | (with_reducible first
          | exact Keeps.refl _ | apply Keeps.ite | apply State.failModule_keeps | exact Keeps.id_ _ | assumption)
      | (apply Sub.of <;> first | assumption | rfl) | split | dsimp only | intro _

theorem execSpineLinkFail_keeps {die : Nat} {s : State} {t : State} (h : execSpineLinkFail die s = .next t)
    : Keeps 0xDD7D5FF8 s t := by
  have hm := Sub.refl 0xDD7D5FF8
  unfold execSpineLinkFail at h
  refine run_keeps ?_ h
  intro _
  repeat' first
      | (with_reducible first
          | exact Keeps.refl _ | apply Keeps.ite | apply State.retirePress_keeps | apply State.failModule_keeps
          | exact Keeps.id_ _ | assumption)
      | (apply Sub.of <;> first | assumption | rfl) | split | dsimp only | intro _

theorem execReferenceClockLoss_keeps {ethernet : Bool} {s : State} {t : State}
    (h : execReferenceClockLoss ethernet s = .next t) : Keeps 0x8 s t := by
  have hm := Sub.refl 0x8
  injection h with h
  exact h ▸ State.modPower_keeps _ _ (.refl s)

end Sys2Proof.Machine
end

