-- ==== Sys2Proof/Laws/Jtag.lean ====
section
/-! SUPPORT. What boundary scan keep: the queue of waiting commands, memory's canonical form, and the parts of the state that each
never writes (a mask over `Field`, by index). -/

namespace Sys2Proof.Machine
set_option Elab.async false

theorem State.modDev_keeps {μ : Nat} {s₀ : State} (s : State) (d : ChainDev) (f : TapDev → TapDev) (hk
    : Keeps μ s₀ s)
    (hm : Sub 0x20000000 μ := by first | assumption | (apply Sub.of <;> first | assumption | rfl))
    : Keeps μ s₀ (State.modDev s d f) := by
  unfold State.modDev
  repeat' first
      | (with_reducible first
          | exact hk | exact Keeps.refl _ | apply Keeps.jtag)
      | (apply Sub.of <;> first | assumption | rfl) | dsimp only

theorem State.pinsSeen_keeps {μ : Nat} {s₀ : State} (s : State) (hk
    : Keeps μ s₀ s)
    (hm : Sub 0x1BFFFFFFC μ := by first | assumption | (apply Sub.of <;> first | assumption | rfl))
    : Keeps μ s₀ (State.pinsSeen s) := by
  unfold State.pinsSeen
  extract_lets v1
  have h1 : Keeps μ s₀ v1 := by
    unfold v1
    repeat' first
        | (with_reducible first
            | exact hk | exact Keeps.refl _ | apply Keeps.ite | apply State.dropLink_keeps | apply forEach_keeps)
        | (intro _ _) | (apply Sub.of <;> first | assumption | rfl) | split | dsimp only
  clear_value v1
  repeat' first
      | (with_reducible first
          | exact h1 | exact Keeps.refl _ | apply Keeps.ite | apply State.releaseReset_keeps
          | apply State.coldReset_keeps)
      | (apply Sub.of <;> first | assumption | rfl) | split | dsimp only

theorem State.loadIr_keeps {μ : Nat} {s₀ : State} (s : State) (d : ChainDev) (f : TapDev → TapDev) (hk
    : Keeps μ s₀ s)
    (hm : Sub 0x1BFFFFFFC μ := by first | assumption | (apply Sub.of <;> first | assumption | rfl))
    : Keeps μ s₀ (State.loadIr s d f) := by
  unfold State.loadIr
  repeat' first
      | (with_reducible first
          | exact hk | exact Keeps.refl _ | apply State.modDev_keeps | apply State.pinsSeen_keeps)
      | (apply Sub.of <;> first | assumption | rfl) | dsimp only

theorem State.loadBypass_keeps {μ : Nat} {s₀ : State} (s : State) (d : ChainDev) (ir : TapIr) (hk
    : Keeps μ s₀ s)
    (hm : Sub 0x1BFFFFFFC μ := by first | assumption | (apply Sub.of <;> first | assumption | rfl))
    : Keeps μ s₀ (State.loadBypass s d ir) := by
  unfold State.loadBypass
  repeat' first
      | (with_reducible first
          | exact hk | exact Keeps.refl _ | apply State.loadIr_keeps)
      | (intro _ _) | (apply Sub.of <;> first | assumption | rfl) | dsimp only

theorem State.loadDrive_keeps {μ : Nat} {s₀ : State} (s : State) (d : ChainDev) (code : Nat)
    (cells : List Bool) (hk : Keeps μ s₀ s)
    (hm : Sub 0x1BFFFFFFC μ := by first | assumption | (apply Sub.of <;> first | assumption | rfl))
    : Keeps μ s₀ (State.loadDrive s d code cells) := by
  unfold State.loadDrive
  repeat' first
      | (with_reducible first
          | exact hk | exact Keeps.refl _ | apply Keeps.ite | apply State.loadBypass_keeps | apply State.loadIr_keeps
          | apply State.draw_keeps | apply State.modDev_keeps)
      | (intro _ _) | (apply Sub.of <;> first | assumption | rfl) | split | dsimp only

theorem execExtest_keeps {dev : ChainDev} {cells : List Bool} {s : State} {t : State}
    (h : execExtest dev cells s = .next t) : Keeps 0x1BFFFFFFC s t := by
  have hm := Sub.refl 0x1BFFFFFFC
  unfold execExtest at h
  refine run_keeps ?_ h
  intro _
  repeat' first
      | (with_reducible first
          | exact Keeps.refl _ | apply Keeps.ite | apply State.loadDrive_keeps | exact Keeps.id_ _ | assumption)
      | (apply Sub.of <;> first | assumption | rfl) | split | dsimp only | intro _

theorem execExtestPulse_keeps {dev : ChainDev} {cells : List Bool} {s : State} {t : State}
    (h : execExtestPulse dev cells s = .next t) : Keeps 0x1BFFFFFFC s t := by
  have hm := Sub.refl 0x1BFFFFFFC
  unfold execExtestPulse at h
  refine run_keeps ?_ h
  intro _
  repeat' first
      | (with_reducible first
          | exact Keeps.refl _ | apply Keeps.ite | apply State.loadDrive_keeps | exact Keeps.id_ _ | assumption)
      | (apply Sub.of <;> first | assumption | rfl) | split | dsimp only | intro _

theorem execExtestTrain_keeps {dev : ChainDev} {cells : List Bool} {s : State} {t : State}
    (h : execExtestTrain dev cells s = .next t) : Keeps 0x1BFFFFFFC s t := by
  have hm := Sub.refl 0x1BFFFFFFC
  unfold execExtestTrain at h
  refine run_keeps ?_ h
  intro _
  repeat' first
      | (with_reducible first
          | exact Keeps.refl _ | apply Keeps.ite | apply State.loadDrive_keeps | exact Keeps.id_ _ | assumption)
      | (apply Sub.of <;> first | assumption | rfl) | split | dsimp only | intro _

theorem execIdcode_keeps {dev : ChainDev} {s : State} {t : State} (h : execIdcode dev s = .next t)
    : Keeps 0x1BFFFFFFC s t := by
  have hm := Sub.refl 0x1BFFFFFFC
  unfold execIdcode at h
  refine run_keeps ?_ h
  intro _
  repeat' first
      | (with_reducible first
          | exact Keeps.refl _ | apply Keeps.ite | apply State.loadIr_keeps | exact Keeps.id_ _ | assumption)
      | (apply Sub.of <;> first | assumption | rfl) | split | dsimp only | intro _

theorem execSamplePreload_keeps {dev : ChainDev} {pins cells : List Bool} {s : State} {t : State}
    (h : execSamplePreload dev pins cells s = .next t) : Keeps 0x1BFFFFFFC s t := by
  have hm := Sub.refl 0x1BFFFFFFC
  unfold execSamplePreload at h
  refine run_keeps ?_ h
  intro _
  repeat' first
      | (with_reducible first
          | exact Keeps.refl _ | apply Keeps.ite | apply State.loadIr_keeps | apply State.modPower_keeps
          | exact Keeps.id_ _ | assumption)
      | (apply Sub.of <;> first | assumption | rfl) | split | dsimp only | intro _

theorem execHighz_keeps {dev : ChainDev} {s : State} {t : State} (h : execHighz dev s = .next t)
    : Keeps 0x1BFFFFFFC s t := by
  have hm := Sub.refl 0x1BFFFFFFC
  unfold execHighz at h
  refine run_keeps ?_ h
  intro _
  repeat' first
      | (with_reducible first
          | exact Keeps.refl _ | apply Keeps.ite | apply State.loadBypass_keeps | exact Keeps.id_ _ | assumption)
      | (apply Sub.of <;> first | assumption | rfl) | split | dsimp only | intro _

theorem execClamp_keeps {dev : ChainDev} {s : State} {t : State} (h : execClamp dev s = .next t)
    : Keeps 0x1BFFFFFFC s t := by
  have hm := Sub.refl 0x1BFFFFFFC
  unfold execClamp at h
  refine run_keeps ?_ h
  intro _
  repeat' first
      | (with_reducible first
          | exact Keeps.refl _ | apply Keeps.ite | apply State.loadBypass_keeps | exact Keeps.id_ _ | assumption)
      | (apply Sub.of <;> first | assumption | rfl) | split | dsimp only | intro _

theorem execBypass_keeps {dev : ChainDev} {s : State} {t : State} (h : execBypass dev s = .next t)
    : Keeps 0x1BFFFFFFC s t := by
  have hm := Sub.refl 0x1BFFFFFFC
  unfold execBypass at h
  refine run_keeps ?_ h
  intro _
  repeat' first
      | (with_reducible first
          | exact Keeps.refl _ | apply Keeps.ite | apply State.loadBypass_keeps | exact Keeps.id_ _ | assumption)
      | (apply Sub.of <;> first | assumption | rfl) | split | dsimp only | intro _

theorem execDbgRd_keeps {_addr : BitVec 64} {s : State} {t : State} (h : execDbgRd _addr s = .next t)
    : Keeps 0x1BFFFFFFC s t := by
  have hm := Sub.refl 0x1BFFFFFFC
  unfold execDbgRd at h
  refine run_keeps ?_ h
  intro _
  repeat' first
      | (with_reducible first
          | exact Keeps.refl _ | apply Keeps.ite | apply State.loadBypass_keeps | apply State.draw_keeps
          | apply State.loadIr_keeps | exact Keeps.id_ _ | assumption)
      | (apply Sub.of <;> first | assumption | rfl) | split | dsimp only | intro _

theorem execDbgWr_keeps {addr : BitVec 64} {value : Byte} {s : State} {t : State}
    (h : execDbgWr addr value s = .next t) : Keeps 0x1BFFFFFFC s t := by
  have hm := Sub.refl 0x1BFFFFFFC
  unfold execDbgWr at h
  refine run_keeps ?_ h
  intro _
  repeat' first
      | (with_reducible first
          | exact Keeps.refl _ | apply Keeps.ite | apply State.loadBypass_keeps | apply State.loadIr_keeps
          | apply Keeps.free | apply Keeps.mem | apply Keeps.jtag | exact Keeps.id_ _ | assumption)
      | (apply Sub.of <;> first | assumption | rfl) | split | dsimp only | intro _

theorem execFpgm_keeps {image : List Byte} {s : State} {t : State} (h : execFpgm image s = .next t)
    : Keeps 0x1BFFFFFFC s t := by
  have hm := Sub.refl 0x1BFFFFFFC
  unfold execFpgm at h
  refine run_keeps ?_ h
  intro _
  repeat' first
      | (with_reducible first
          | exact Keeps.refl _ | apply Keeps.ite | apply State.loadBypass_keeps | apply State.loadIr_keeps
          | apply State.modPower_keeps | apply State.writeFw_keeps | apply State.modFlash_keeps | exact Keeps.id_ _
          | assumption)
      | (apply Sub.of <;> first | assumption | rfl) | split | dsimp only | intro _

theorem execTapReset_keeps {s : State} {t : State} (h : execTapReset s = .next t) : Keeps 0x1BFFFFFFC s t := by
  have hm := Sub.refl 0x1BFFFFFFC
  unfold execTapReset at h
  refine run_keeps ?_ h
  intro _
  repeat' first
      | (with_reducible first
          | exact Keeps.refl _ | apply Keeps.ite | apply State.modDev_keeps | apply State.modClk_keeps
          | apply State.pinsSeen_keeps | apply forEach_keeps | exact Keeps.id_ _ | assumption)
      | (apply Sub.of <;> first | assumption | rfl) | split | dsimp only | intro _

end Sys2Proof.Machine
end

