-- ==== Sys2Proof/Laws/Regs.lean ====
section
/-! SUPPORT. What register accesses keep: the queue of waiting commands, memory's canonical form, and the parts of the state that each
never writes (a mask over `Field`, by index). -/

namespace Sys2Proof.Machine
set_option Elab.async false

theorem State.noteRead_keeps {μ : Nat} {s₀ : State} (s : State) (handle i c : Nat) (hk
    : Keeps μ s₀ s) (hm : Sub 0x1820004 μ := by first | assumption | (apply Sub.of <;> first | assumption | rfl))
    : Keeps μ s₀ (State.noteRead s handle i c) := by
  unfold State.noteRead
  repeat' first
      | (with_reducible first
          | exact hk | exact Keeps.refl _ | apply Keeps.ite | apply State.modPark_keeps
          | apply State.flashReadPage_keeps | apply State.freeOrphan_keeps | apply State.modImg_keeps
          | apply State.putImg_keeps)
      | (intro _ _) | (apply Sub.of <;> first | assumption | rfl) | split | dsimp only

theorem exportReadOwn_keeps {μ : Nat} (h : CmdHdr) (handle index count : Nat) (s : State)
    (hm : Sub 0x1820004 μ := by first | assumption | (apply Sub.of <;> first | assumption | rfl))
    : ActKeeps μ (exportReadOwn h handle index count s) := by
  unfold exportReadOwn
  repeat' first
      | (with_reducible first
          | exact Keeps.refl _ | exact ActKeeps.no _ | exact ActKeeps.conflict _ | exact OptKeeps.none
          | apply ActKeeps.ite | apply OptKeeps.ite | apply Keeps.ite | apply OptKeeps.some | apply ActKeeps.ok
          | apply ActKeeps.done | apply ActKeeps.later | apply ActKeeps.refuse | apply State.noteRead_keeps
          | exact Keeps.id_ _ | assumption)
      | (apply Sub.of <;> first | assumption | rfl) | split | dsimp only | intro _

theorem execExportImageRead_keeps {h : CmdHdr} {handle index count : Nat} {s : State} {t : State}
    (h : execExportImageRead h handle index count s = .next t) : Keeps 0x41DE0004 s t := by
  have hm := Sub.refl 0x41DE0004
  unfold execExportImageRead at h
  refine run_keeps ?_ h
  intro _
  repeat' first
      | (with_reducible first
          | exact Keeps.refl _ | apply Keeps.ite | apply clerk_keeps | apply exportReadOwn_keeps | apply clerk_keeps
          | exact Keeps.id_ _ | assumption)
      | exact Or.inl ⟨rfl, rfl⟩ | refine Or.inr ?_ | (apply Sub.of <;> first | assumption | rfl) | split | dsimp only
      | intro _

theorem execExportExpire_keeps {handle : Nat} {s : State} {t : State} (h : execExportExpire handle s = .next t)
    : Keeps 0x800000 s t := by
  have hm := Sub.refl 0x800000
  unfold execExportExpire at h
  refine run_keeps ?_ h
  intro _
  repeat' first
      | (with_reducible first
          | exact Keeps.refl _ | apply Keeps.ite | apply State.putImg_keeps | exact Keeps.id_ _ | assumption)
      | (apply Sub.of <;> first | assumption | rfl) | split | dsimp only | intro _

theorem hungRead_keeps {μ : Nat}
    (hm : Sub 0x400000 μ := by first | assumption | (apply Sub.of <;> first | assumption | rfl))
    : ActKeeps μ (hungRead ) := by
  unfold hungRead
  repeat' first
      | (with_reducible first
          | exact Keeps.refl _ | exact ActKeeps.no _ | exact ActKeeps.conflict _ | exact OptKeeps.none
          | apply ActKeeps.ite | apply OptKeeps.ite | apply Keeps.ite | apply OptKeeps.some | apply ActKeeps.ok
          | apply ActKeeps.done | apply ActKeeps.later | apply ActKeeps.refuse | apply State.modClerk_keeps
          | exact Keeps.id_ _ | assumption)
      | (apply Sub.of <;> first | assumption | rfl) | split | dsimp only | intro _

theorem runRead_keeps {μ : Nat} {c : Shape} {h : CmdHdr} {len : Nat} {own : State → Act} {s t : State}
    (ho : ∀ t, ActKeeps μ (own t)) (ha : (c.audited = false ∧ c.auditRefused = false) ∨ Sub 0x4000000 μ)
    (e : runRead c h len own s = .next t) (hm : Sub 0x405C0000 μ := by first | assumption | (apply Sub.of <;> first | assumption | rfl)) : Keeps μ s t := by
  unfold runRead at e
  split at e
  · injection e with e; exact e ▸ clerk_keeps ho ha
  · exact run_keeps (fun u => clerk_keeps ho ha) e

theorem timedOut_keeps {μ : Nat}
    (hm : Sub 0x10000000 μ := by first | assumption | (apply Sub.of <;> first | assumption | rfl))
    : ActKeeps μ timedOut := .refuse (fun t => State.modClk_keeps _ _ (.refl t))

theorem viewRead_keeps {μ : Nat} (h : CmdHdr) (v : RegView) (index count : Nat) (s : State)
    (hm : Sub 0x10400000 μ := by first | assumption | (apply Sub.of <;> first | assumption | rfl))
    : ActKeeps μ (viewRead h v index count s) := by
  exact .ite (.no _) (.ite (.no _) (.ite timedOut_keeps (.ite hungRead_keeps (.ok Keeps.refl))))

theorem regReadOwn_keeps {μ : Nat} (h : CmdHdr) (body : List Byte) (s : State)
    (hm : Sub 0x11C20004 μ := by first | assumption | (apply Sub.of <;> first | assumption | rfl))
    : ActKeeps μ (regReadOwn h body s) := by
  unfold regReadOwn
  repeat' first
      | (with_reducible first
          | exact Keeps.refl _ | exact ActKeeps.no _ | exact ActKeeps.conflict _ | exact OptKeeps.none
          | apply exportReadOwn_keeps | apply viewRead_keeps | apply ActKeeps.ite | apply OptKeeps.ite
          | apply Keeps.ite | apply OptKeeps.some | apply ActKeeps.ok | apply ActKeeps.done | apply ActKeeps.later
          | apply ActKeeps.refuse | apply Keeps.free | apply Keeps.mem | exact Keeps.id_ _ | assumption)
      | (apply Sub.of <;> first | assumption | rfl) | split | dsimp only | intro _

theorem execRegRead_keeps {h : CmdHdr} {body : List Byte} {s : State} {t : State}
    (h : execRegRead h body s = .next t) : Keeps 0x51DE0004 s t := by
  have hm := Sub.refl 0x51DE0004
  refine runRead_keeps (fun u => regReadOwn_keeps _ _ _) (Or.inl ⟨rfl, rfl⟩) h

theorem rwWord_keeps {μ : Nat} (v mask : Nat) (ok : Bool) (f : State → State) (hf : ∀ t, Keeps μ t (f t))
    (hm : Sub 0x0 μ := by first | assumption | (apply Sub.of <;> first | assumption | rfl))
    : OptKeeps μ (rwWord v mask ok f) := by
  unfold rwWord
  repeat' first
      | (with_reducible first
          | exact Keeps.refl _ | exact ActKeeps.no _ | exact ActKeeps.conflict _ | exact OptKeeps.none | apply hf
          | apply ActKeeps.ite | apply OptKeeps.ite | apply Keeps.ite | apply OptKeeps.some | apply ActKeeps.ok
          | apply ActKeeps.done | apply ActKeeps.later | apply ActKeeps.refuse | exact Keeps.id_ _ | assumption)
      | (apply Sub.of <;> first | assumption | rfl) | split | dsimp only | intro _

theorem w1c_keeps {μ : Nat} (v mask : Nat) (f : State → State) (back : State → Nat) (hf : ∀ t, Keeps μ t (f t))
    (hm : Sub 0x0 μ := by first | assumption | (apply Sub.of <;> first | assumption | rfl))
    : OptKeeps μ (w1c v mask f back) := by
  unfold w1c
  repeat' first
      | (with_reducible first
          | exact Keeps.refl _ | exact ActKeeps.no _ | exact ActKeeps.conflict _ | exact OptKeeps.none | apply hf
          | apply ActKeeps.ite | apply OptKeeps.ite | apply Keeps.ite | apply OptKeeps.some | apply ActKeeps.ok
          | apply ActKeeps.done | apply ActKeeps.later | apply ActKeeps.refuse | exact Keeps.id_ _ | assumption)
      | (apply Sub.of <;> first | assumption | rfl) | split | dsimp only | intro _

theorem netWrite_keeps {μ : Nat} (pat : String) (i : List Nat) (v : Nat)
    (hm : Sub 0x40000 μ := by first | assumption | (apply Sub.of <;> first | assumption | rfl))
    : OptKeeps μ (netWrite pat i v) := by
  unfold netWrite
  repeat' first
      | (with_reducible first
          | exact Keeps.refl _ | exact ActKeeps.no _ | exact ActKeeps.conflict _ | exact OptKeeps.none
          | apply rwWord_keeps | apply w1c_keeps | apply ActKeeps.ite | apply OptKeeps.ite | apply Keeps.ite
          | apply OptKeeps.some | apply ActKeeps.ok | apply ActKeeps.done | apply ActKeeps.later
          | apply ActKeeps.refuse | apply State.modNet_keeps | apply Keeps.free | apply Keeps.mem | exact Keeps.id_ _
          | assumption)
      | (apply Sub.of <;> first | assumption | rfl) | split | dsimp only | intro _

theorem limitWrite_keeps {μ : Nat} (pat : String) (i : List Nat) (v : Nat)
    (hm : Sub 0x4000 μ := by first | assumption | (apply Sub.of <;> first | assumption | rfl))
    : OptKeeps μ (limitWrite pat i v) := by
  unfold limitWrite
  repeat' first
      | (with_reducible first
          | exact Keeps.refl _ | exact ActKeeps.no _ | exact ActKeeps.conflict _ | exact OptKeeps.none
          | apply rwWord_keeps | apply ActKeeps.ite | apply OptKeeps.ite | apply Keeps.ite | apply OptKeeps.some
          | apply ActKeeps.ok | apply ActKeeps.done | apply ActKeeps.later | apply ActKeeps.refuse
          | apply State.modEngine_keeps | exact Keeps.id_ _ | assumption)
      | (apply Sub.of <;> first | assumption | rfl) | split | dsimp only | intro _

theorem unitWrite_keeps {μ : Nat} (pat : String) (i : List Nat) (v : Nat)
    (hm : Sub 0x9018000 μ := by first | assumption | (apply Sub.of <;> first | assumption | rfl))
    : OptKeeps μ (unitWrite pat i v) := by
  unfold unitWrite
  repeat' first
      | (with_reducible first
          | exact Keeps.refl _ | exact ActKeeps.no _ | exact ActKeeps.conflict _ | exact OptKeeps.none
          | apply rwWord_keeps | apply w1c_keeps | apply ActKeeps.ite | apply OptKeeps.ite | apply Keeps.ite
          | apply OptKeeps.some | apply ActKeeps.ok | apply ActKeeps.done | apply ActKeeps.later
          | apply ActKeeps.refuse | apply State.modChannel_keeps | apply State.modDie_keeps | apply State.modSap_keeps
          | apply State.modFlash_keeps | apply Keeps.free | apply Keeps.mem | exact Keeps.id_ _ | assumption)
      | (apply Sub.of <;> first | assumption | rfl) | split | dsimp only | intro _

theorem systemWrite_keeps {μ : Nat} (h : CmdHdr) (pat : String) (i : List Nat) (v : Nat) (s : State)
    (hm : Sub 0x577C800C μ := by first | assumption | (apply Sub.of <;> first | assumption | rfl))
    : OptKeeps μ (systemWrite h pat i v s) := by
  unfold systemWrite
  repeat' first
      | (with_reducible first
          | exact Keeps.refl _ | exact ActKeeps.no _ | exact ActKeeps.conflict _ | exact OptKeeps.none
          | apply gateOwn_keeps | apply credOwn_keeps | apply cfgSaveOwn_keeps | apply resetCtrlOwn_keeps
          | apply rwWord_keeps | apply w1c_keeps | apply ActKeeps.ite | apply OptKeeps.ite | apply Keeps.ite
          | apply OptKeeps.some | apply ActKeeps.ok | apply ActKeeps.done | apply ActKeeps.later
          | apply ActKeeps.refuse | apply State.modClk_keeps | apply State.modSec_keeps | apply State.modPower_keeps
          | exact Keeps.id_ _ | assumption)
      | (apply Sub.of <;> first | assumption | rfl) | split | dsimp only | intro _

theorem regWriteOwn_keeps {μ : Nat} (h : CmdHdr) (body : List Byte) (s : State)
    (hm : Sub 0x5F7DC00C μ := by first | assumption | (apply Sub.of <;> first | assumption | rfl))
    : ActKeeps μ (regWriteOwn h body s) := by
  have orElse {a b : Option Act} (ha : OptKeeps μ a) (hb : OptKeeps μ b) : OptKeeps μ (a.orElse (fun _ => b)) := by
    cases a
    · exact hb
    · exact ha
  unfold regWriteOwn
  dsimp only
  split
  · exact .no _
  · refine .ite (.ite (.ok fun t => .free (.refl t)) (.no _)) (.ite (.no _) ?_)
    split
    · exact .no _
    · rename_i pat i _ _ _ _
      have hw := orElse (orElse (netWrite_keeps (μ := μ) pat i (fld body 40 8)) (limitWrite_keeps pat i (fld body 40 8)))
        (orElse (unitWrite_keeps pat i (fld body 40 8)) (systemWrite_keeps h pat i (fld body 40 8) s))
      split
      · exact .no _
      · rename_i e
        exact .ite (.no _) (hw _ e)
      · rename_i e
        exact .ite (.no _) (.ite timedOut_keeps (hw _ e))

theorem execRegWrite_keeps {h : CmdHdr} {body : List Byte} {s : State} {t : State}
    (h : execRegWrite h body s = .next t) : Keeps 0x5F7DC00C s t := by
  have hm := Sub.refl 0x5F7DC00C
  unfold execRegWrite at h
  refine run_keeps ?_ h
  intro _
  repeat' first
      | (with_reducible first
          | exact Keeps.refl _ | apply Keeps.ite | apply clerk_keeps | apply regWriteOwn_keeps | apply clerk_keeps
          | exact Keeps.id_ _ | assumption)
      | exact Or.inl ⟨rfl, rfl⟩ | refine Or.inr ?_ | (apply Sub.of <;> first | assumption | rfl) | split | dsimp only
      | intro _

theorem countersReadOwn_keeps {μ : Nat} (body : List Byte) (s : State)
    (hm : Sub 0x10400000 μ := by first | assumption | (apply Sub.of <;> first | assumption | rfl))
    : ActKeeps μ (countersReadOwn body s) := by
  exact .ite (.no _) (.ite timedOut_keeps (.ite hungRead_keeps (.ok Keeps.refl)))

theorem execCountersRead_keeps {h : CmdHdr} {body : List Byte} {s : State} {t : State}
    (h : execCountersRead h body s = .next t) : Keeps 0x505C0000 s t := by
  have hm := Sub.refl 0x505C0000
  refine runRead_keeps (fun u => countersReadOwn_keeps _ _) (Or.inl ⟨rfl, rfl⟩) h

end Sys2Proof.Machine
end

