-- ==== Sys2Proof/Machine/Pins.lean ====
section
/-! DEFINITION. J2 and the boundary-scan chain: what each position of the connector carries (R475), what each boundary cell
is and how a scan runs through the chain (R485), and the level of each pin that the module drives (R477, R478, R486). -/

namespace Sys2Proof.Machine

/-- The signal at a position of J2, 1 to 160; a position that Table 21.3 does not name is ground. -/
def j2At (pos : Nat) : Pin :=
  if pos = 0 ∨ 160 < pos then .ground
  else if pos < 49 then
    let k := (pos - 1) % 24
    let signal := if k < 12 then Pin.tx else Pin.rx
    if k % 3 = 0 then .ground else signal ((pos - 1) / 24) (k % 12 / 3) (decide (k % 3 = 1))
  else if 50 ≤ pos ∧ pos < 114 then [Pin.bclk, .fsync, .dout, .din].getD ((pos - 50) % 4) .din ((pos - 50) / 4)
  else if 116 ≤ pos ∧ pos ≤ 125 then
    [.tck, .tms, .tdi, .tdo, .trstN, .resetN, .faultN, .alertN, .fpgmN, .presentN].getD (pos - 116) .ground
  else if 126 ≤ pos ∧ pos ≤ 129 then .slotId (pos - 126)
  else if pos = 114 then .mclkIn
  else .ground

/-- Bits of a device's instruction register, and its boundary cells (Table 21.7). -/
def irBits : ChainDev → Nat
  | .hub => 10
  | _ => 8

/-- The devices from TDO to TDI, so that the first bit shifted in ends nearest TDO. -/
def fromTdo : List ChainDev := [.hub, .retimer1, .retimer0]

/-- The instructions that a scan of 26 bits loads, by device from TDO (R485). -/
def irScan (bits : List Bool) : List (ChainDev × TapIr) :=
  (fromTdo.foldl (fun (acc : List (ChainDev × TapIr) × List Bool) d =>
    (acc.1 ++ [(d, tapIr d (bitsNum (acc.2.take (irBits d))))], acc.2.drop (irBits d))) ([], bits)).1

/-- The data register that a device's instruction selects, as Capture-DR leaves it, the bit nearest TDO first; none where the
spec gives no length. (DESIGN CHOICE, log 110) -/
def TapDev.captured (d : TapDev) (dev : ChainDev) : Option (List Bool) :=
  match d.ir with
  | .idcode => some ((List.range 32).map d.dr.getLsbD)
  | .bypass | .highz | .clamp => some [false]
  | .dbgRd | .dbgWr | .fpgm => none
  | _ => some ((List.range (cellCount dev)).map (fun i => d.capture.getD i false))

/-- The chain's data registers in a row, the bit nearest TDO first. -/
def Jtag.chain (j : Jtag) : Option (List Bool) := (fromTdo.mapM (fun d => (j.dev d).captured d)).map List.flatten

/-- A data scan: the bits that come out at TDO, and the registers afterwards (R485). -/
def dataScan (chain into : List Bool) : List Bool × List Bool :=
  ((chain ++ into).take into.length, (chain ++ into).drop into.length)

/-- FAULT_N: low while the module is unpowered, since its transistor conducts without power; open drain (R477). -/
def State.faultPin (s : State) : Option Bool :=
  if ¬s.tapUp then some false else s.jtag.pinOr .faultN (if s.power.faultN then none else some false)

/-- The level of SAPn_BCLK, where the module drives it (R370, R374, R486): a master's bit clock, `high` in the half of the cycle that
is asked about; none where a slave's partner drives it. -/
def State.bclkPin (s : State) (n : Nat) (high : Bool) : Option Bool :=
  if ¬s.tapUp then none else s.jtag.pinOr (.bclk n) (if (s.sap n).drivesClocks then some high else none)

/-- The level of SAPn_FSYNC in BCLK cycle `b` of a frame, where the module drives it (R370, R371, R486). -/
def State.fsyncPin (s : State) (n b : Nat) : Option Bool :=
  if ¬s.tapUp then none else s.jtag.pinOr (.fsync n) (if (s.sap n).drivesClocks then some ((s.sap n).fsync b) else none)

/-- SAPn_DOUT in BCLK cycle `b` of the frame being sent (R373, R486). -/
def State.doutPin (s : State) (n b : Nat) : Option Bool :=
  if ¬s.tapUp then none else s.jtag.pinOr (.dout n) ((s.sap n).doutBit b)

end Sys2Proof.Machine
end

