-- ==== Sys2Proof/Machine/Wire.lean ====
section
/-! DEFINITION. The bytes of the frames that leave the ports, in network byte order (R5): the VCT message (R260, R261), the
RTP header (R276), the answers to ARP, Neighbor Discovery and echo requests, priority flow control (R258, R259), UDP, IP and
Ethernet with the port's addresses, priorities and tag (R259, R276, R285); and the bytes of ring records (R208, R299). -/

namespace Sys2Proof.Machine

/-- A VCT message's bytes with its crc in place (R260, R261). -/
def vctWire (m : VctMsg) : List Byte := (msgBytes m).take 28 ++ beBytes 4 (crc32c (msgBytes m)).toNat ++ (msgBytes m).drop 32

/-- A message that the device sends on session `k`: Table 12.1 from the session's state; a message of a type that takes no
sequence number carries 0. (PRESUMED, log 145) -/
def Session.message (q : Session) (k type : Nat) (seq ack : BitVec 32) (sacks : List (BitVec 32 × BitVec 32)) (body : List Byte) : VctMsg :=
  { version := BitVec.ofNat 8 q.version, type := BitVec.ofNat 8 type, flags := if sacks = [] then 0 else 1,
    nsack := BitVec.ofNat 8 sacks.length, session := BitVec.ofNat 16 k,
    stall := match q.stall with | some i => BitVec.ofNat 16 i | none => 16384, seq := seq, ack := ack, window := 64,
    length := BitVec.ofNat 16 body.length, epoch := if q.version = 6 then 0 else q.epoch, crc := 0, sacks := sacks, payload := body }

/-- The 12-byte RTP header (R276) and the payload. -/
def RtpPkt.wire (p : RtpPkt) : List Byte :=
  [0x80, BitVec.ofNat 8 (128 * b2n p.marker + p.pt)] ++ beBytes 2 p.seq.toNat ++ beBytes 4 p.stamp.toNat ++ beBytes 4 p.ssrc.toNat ++ p.payload

/-- What an IP packet needs beside its payload: addresses, UDP ports and traffic class. -/
structure Route where
  dst   : BitVec 128
  dport : Nat
  sport : Nat
  dscp  : Nat
  pcp   : Nat
  deriving DecidableEq, Repr

/-- The destination is an IPv4-mapped address. -/
def Route.v4 (r : Route) : Bool := decide (r.dst.toNat / 2 ^ 32 = 0xFFFF)

/-- A UDP datagram with its checksum over the pseudo-header, which the device always sends (R261). -/
def udpWire (src dst : List Byte) (r : Route) (b : List Byte) : List Byte :=
  let head := beBytes 2 r.sport ++ beBytes 2 r.dport ++ beBytes 2 (b.length + 8)
  let c := checksum (pseudoHeader src dst 17 (b.length + 8) ++ head ++ [0, 0] ++ b)
  head ++ beBytes 2 (if c = 0 then 65535 else c) ++ b

/-- The source and destination addresses of a packet of port `t`, in network byte order. -/
def Route.ends (r : Route) (t : NetPort) : List Byte × List Byte :=
  if r.v4 then (beBytes 4 t.ipv4.toNat, beBytes 4 (r.dst.toNat % 2 ^ 32)) else (beBytes 16 t.ipv6.toNat, beBytes 16 r.dst.toNat)

/-- An IP packet of port `t` around a datagram of a protocol: no options, never a fragment (R259). Identification and hop limit
are not in the spec: free values. (PRESUMED, log 145) -/
def ipWire (t : NetPort) (r : Route) (proto : Nat) (hops : Byte) (u : List Byte) : List Byte :=
  let (src, dst) := r.ends t
  if r.v4 then
    let h := [0x45, BitVec.ofNat 8 (4 * r.dscp)] ++ beBytes 2 (20 + u.length) ++ beBytes 2 Config.ipIdent.toNat ++
      [if Config.ipDont then 0x40 else 0, 0, hops, BitVec.ofNat 8 proto]
    h ++ beBytes 2 (checksum (h ++ [0, 0] ++ src ++ dst)) ++ src ++ dst ++ u
  else beBytes 4 (6 * 2 ^ 28 + r.dscp * 2 ^ 22) ++ beBytes 2 u.length ++ [BitVec.ofNat 8 proto, hops] ++ src ++ dst ++ u

/-- An Ethernet frame: padded to 64 bytes, with its tag when there is one, and its FCS (R257, R259). -/
def ethWire (p : Nat) (tag : List Byte) (dst : BitVec 48) (type : Nat) (b : List Byte) : List Byte :=
  let f := beBytes 6 dst.toNat ++ beBytes 6 (Config.mac p).toNat ++ tag ++ beBytes 2 type ++ b
  let f := f ++ List.replicate (60 - f.length) 0
  f ++ fcs f

/-- The tag of the frames of a port: its VLAN ID and the PCP of the traffic class, when vlan_en = 1 (R259). -/
def NetPort.tag (t : NetPort) (pcp : Nat) : List Byte :=
  if t.cfg.getLsbD 3 then beBytes 2 0x8100 ++ beBytes 2 (8192 * pcp + bits t.cfg.toNat 15 4) else []

/-- The Ethernet type of a route's packets. -/
def Route.etherType (r : Route) : Nat := if r.v4 then 0x0800 else 0x86DD

/-- The frame of a UDP payload by port `p`; the next hop's MAC address is a free value. (PRESUMED, log 145) -/
def State.udpFrame (s : State) (p : Nat) (r : Route) (b : List Byte) : List Byte :=
  let t := s.net p
  let (src, dst) := r.ends t
  ethWire p (t.tag r.pcp) (Config.nextHop p r.dst) r.etherType (ipWire t r 17 Config.ipHops (udpWire src dst r b))

/-- Where a VCT message of the port goes. -/
def State.vctRoute (s : State) (x : Src) : Route :=
  let t := s.net x.port
  { dst := x.addr, dport := x.udp.toNat, sport := bits t.ports.toNat 15 0, dscp := bits t.qos.toNat 11 6, pcp := bits t.qos.toNat 2 0 }

/-- A message of session `k` as a frame. -/
def State.vctFrame (s : State) (k : Nat) (m : VctMsg) : Nat × List Byte :=
  let x := (s.sess k).src
  (x.port, s.udpFrame x.port (s.vctRoute x) (vctWire m))

/-- The ACK that answers an OPEN: of the session it names, or refused, which opens nothing: version 7, session and stall 0
(R260, R263). (PRESUMED, log 145) -/
def State.ackMessage (s : State) (k : Nat) (epoch : BitVec 32) (refused : Bool) : VctMsg :=
  if refused then { ({ version := 7, stall := some 0 } : Session).message 32768 2 0 0 [] [] with epoch := epoch }
  else { (s.sess k).message k 2 0 0 [] [] with epoch := epoch }

/-- An ICMP or ICMPv6 message with its checksum: type, code 0 and what follows; ICMPv6's covers the pseudo-header. -/
def icmpWire (ends : List Byte × List Byte) (v4 : Bool) (type : Byte) (b : List Byte) : List Byte :=
  let pseudo := if v4 then [] else pseudoHeader ends.1 ends.2 58 (b.length + 4)
  [type, 0] ++ beBytes 2 (checksum (pseudo ++ [type, 0, 0, 0] ++ b)) ++ b

/-- The answer to an ARP request (0), a neighbour solicitation (1) or an echo request (2, 3) as a frame to who asked, in the
layouts of RFC 826, 4861, 792 and 4443. (PRESUMED, log 145) -/
def State.answerWire (s : State) (p kind : Nat) (mac : BitVec 48) (dst : BitVec 128) (data : List Byte) : List Byte :=
  let t := s.net p
  let r : Route := { dst := dst, dport := 0, sport := 0, dscp := Config.replyPrio.2.toNat, pcp := Config.replyPrio.1.toNat }
  let own := beBytes 6 (Config.mac p).toNat
  let eth := ethWire p (t.tag r.pcp) mac
  match kind with
  | 0 => eth 0x0806 ([0, 1, 8, 0, 6, 4, 0, 2] ++ own ++ beBytes 4 t.ipv4.toNat ++ beBytes 6 mac.toNat ++ beBytes 4 (dst.toNat % 2 ^ 32))
  | 1 => eth 0x86DD (ipWire t r 58 255 (icmpWire (r.ends t) false 136 (beBytes 4 0x60000000 ++ beBytes 16 t.ipv6.toNat ++ [2, 1] ++ own)))
  | 2 => eth 0x0800 (ipWire t r 1 Config.ipHops (icmpWire (r.ends t) true 0 data))
  | _ => eth 0x86DD (ipWire t r 58 Config.ipHops (icmpWire (r.ends t) false 129 data))

/-- A priority flow control frame (IEEE 802.1Qbb): the longest pause, or none. MAC control frames carry no tag. (PRESUMED, log 145) -/
def pfcWire (p priority : Nat) (pause : Bool) : List Byte :=
  ethWire p [] 0x0180C2000001#48 0x8808 (beBytes 2 0x0101 ++ beBytes 2 (2 ^ priority) ++
    (List.range 8).flatMap (fun i => beBytes 2 (if i = priority ∧ pause then 65535 else 0)))

/-- The port of a frame. -/
def State.portOf (s : State) : Sent → Nat
  | .vct k _ _ _ | .ackMsg k _ _ _ => (s.sess k).src.port
  | .ackTo x _ _ _ => x.port
  | .rtp p _ | .reply p _ _ _ _ | .pfc p _ _ => p
  | .queued _ _ _ _ _ x => s.portOf x

/-- The port and the bytes of a frame as it leaves in state `s` (R5, R257 to R261, R263, R276); one that was held, under the words it
was queued with (R285). (PRESUMED, log 145) -/
def State.wire : State → Sent → Nat × List Byte
  | s, .vct k type seq body => s.vctFrame k ((s.sess k).message k type seq (s.sess k).rxNext [] body)
  | s, .ackMsg k ack sacks body => s.vctFrame k ((s.sess k).message k 2 0 ack sacks body)
  | s, .ackTo x k epoch refused => (x.port, s.udpFrame x.port (s.vctRoute x) (vctWire (s.ackMessage k epoch refused)))
  | s, .rtp p x =>
    (p, s.udpFrame p { dst := x.dst, dport := x.dport.toNat, sport := x.sport.toNat, dscp := x.dscp,
                       pcp := match x.vlan with | some v => v.2 | none => 0 } x.wire)
  | s, .reply p kind mac dst data => (p, s.answerWire p kind mac dst data)
  | _, .pfc p priority pause => (p, pfcWire p priority pause)
  | s, .queued c q w a b x => (s.modNet (s.portOf x) (fun t => t.under c q w a b)).wire x

/-! ## Rings in memory (R5, R208, R299) -/

/-- A crier record as its source's ring stores it, little-endian, with its extension (Table 13.6, R299). -/
def recordLE (r : CrierRec) : List Byte :=
  leBytes 8 r.seq ++ [BitVec.ofNat 8 r.source, r.status.code] ++ leBytes 2 r.event ++
    [BitVec.ofNat 8 (b2n r.gap + 2 * b2n (!r.ext.isEmpty)), 0] ++ leBytes 2 (r.stall.getD 16384) ++
    leBytes 4 (r.stream.getD (2 ^ 31)) ++ leBytes 4 r.unit ++ leBytes 8 r.arg.toNat ++
    (if r.ext.isEmpty then [] else r.ext.flatMap (leBytes 4) ++ List.replicate (32 - 4 * r.ext.length) 0)

/-- The bytes of a source's crier ring, oldest record first (R299, R300). -/
def State.crierBytes (s : State) (src : Nat) : List Byte := (s.crierSrc src).ring.flatMap recordLE

/-- A completion record as its ring stores it (Table 9.5), little-endian (R5). -/
def CompRec.bytes (c : CompRec) : List Byte :=
  leBytes 8 c.tag.toNat ++ [c.status.code, BitVec.ofNat 8 c.op, BitVec.ofNat 8 c.engine, BitVec.ofNat 8 c.queue] ++ leBytes 4 c.transfers

/-- The bytes of a producer's completion ring, oldest record first (R208). -/
def State.ringBytes (s : State) (who : Producer) : List Byte :=
  (s.rings.filter (fun p => decide (p.1 = who))).flatMap (fun p => p.2.bytes)

end Sys2Proof.Machine
end

