-- ==== Sys2Proof/Tests/Slice0.lean ====
section
/-! SUPPORT. Tests: an ill-formed term for each check of Instr.wf, worked examples and tables of the spec, and for every
statement of Certificates/Slice0/Obligations.lean that has hypotheses a concrete state and operands that meet them, clause
by clause, at the boundaries of their ranges. -/

namespace Sys2Proof.Machine

set_option Elab.async false

/-! ## Helper states -/

namespace Test

/-- The module in operation. -/
def up : State := { power := { phase := .up } }

/-- An open, greeted session of a role, on a stall or on the module. -/
def sess (role : Nat) (stall : Option Nat) : Session :=
  { st := .opened, version := 7, role := role, greeted := true, window := 8, stall := stall }

/-- A header with module scope. -/
def mod (len : Nat) : CmdHdr := { session := 0, seq := 1, bytes := BitVec.ofNat 16 len, tag := 9, target := 0x4000 }

/-- A header that names stall 5, on that stall's session. -/
def st5 (len : Nat) : CmdHdr := { session := 1, seq := 1, bytes := BitVec.ofNat 16 len, tag := 9, target := 5 }

/-- Bytes of numbers. -/
def by_ (l : List Nat) : List Byte := l.map (BitVec.ofNat 8)

/-- Session 0 is the module's, with the maker's role; session 1 is stall 5's, an installer's. Stall 5 is OPEN with voice 3,
row 2 is LIVE on press 4, and both run base 0. -/
def hosted : State :=
  { up with
    sessions := [(0, sess 3 none), (1, sess 2 (some 5))]
    stalls := [(5, { st := .open_, weight := 2, quota := 8, vquota := 2, opened := 1, voices := 1, ceiling := 64, tally := 2,
                     seed := 7 })]
    voices := [(3, { loaded := true, stall := 5, hash := 21, mask := 4, entry := 2, baseHash := 20, rate := 24000, hop := 240,
                     inventory := 64, hot := 4096, addr := 0x2000010000, bytes := 512, inRegion := true })]
    bases := [(0, { used := true, hash := 20, entry := 1, addr := 0x2000000000, bytes := 512, loaded := true, rate := 24000,
                    hop := 240, inventory := 64 })]
    rows := [(2, { st := .live, cfg := { first := 4, presses := 1, quire := 480, base := some 0 },
                   cache := [(3, { here := true })] })] }

/-- Stream 9 of stall 5 and voice 3, on row 2, with changes. -/
def with9 (f : Stream → Stream) : State :=
  { hosted with streams := [(9, f { st := .idle, stall := 5, voice := 3, row := some 2, outKind := 3, origin := 9 })] }

end Test

open Test

/-! ## Well-formed commands -/

theorem test_wf_ok : (Instr.stallQuery (st5 0) []).wf = true ∧ (Instr.beat 15 { stage := 15 }).wf = true ∧
    (Instr.extest .hub (List.replicate 156 true)).wf = true := by decide +kernel

/-- One ill-formed term for each check. -/
theorem test_wf_refuses :
    (Instr.hello { mod 8 with session := 2048 } []).wf = false ∧ (Instr.streamFeed 2048 default).wf = false ∧
    (Instr.clkGateOn { mod 48 with session := 2048 } 0).wf = false ∧ (Instr.perDieReset (mod 48) 24).wf = false ∧
    (Instr.secCredClear (mod 48) 3).wf = false ∧ (Instr.vctAck ⟨2, 0, 0⟩ default).wf = false ∧
    (Instr.frameReceive 2 default).wf = false ∧ (Instr.feedStatus 2048).wf = false ∧ (Instr.grant 16384).wf = false ∧
    (Instr.crier 15).wf = false ∧ (Instr.heartbeatRaise [.core 4]).wf = false ∧ (Instr.heartbeatRaise [.scheduler 8]).wf = false ∧
    (Instr.heartbeatRaise [.engine 25]).wf = false ∧ (Instr.heartbeatRaise [.press 16]).wf = false ∧
    (Instr.clerkWatchdog 4).wf = false ∧ (Instr.staging 8).wf = false ∧ (Instr.quireEnd 262144).wf = false ∧
    (Instr.beat 16 { stage := 0 }).wf = false ∧ (Instr.beat 0 { stage := 16 }).wf = false ∧ (Instr.transferIssue 25).wf = false ∧
    (Instr.swap 0 64).wf = false ∧ (Instr.swap 16 0).wf = false ∧ (Instr.dlkFired 4 0 0).wf = false ∧
    (Instr.dlkFired 0 262144 0).wf = false ∧ (Instr.dlkFired 0 0 262144).wf = false ∧ (Instr.patrolScrub 48 0 {}).wf = false ∧
    (Instr.rowFault 8 0).wf = false ∧ (Instr.rowFault 0 16).wf = false ∧ (Instr.linkUp 2).wf = false ∧
    (Instr.sapWatchdog 16).wf = false ∧ (Instr.clkSrcDeadold 17).wf = false ∧
    (Instr.flashScrub { (default : ScrubPage) with channel := 8 }).wf = false ∧ (Instr.flashChannelReset 8).wf = false ∧
    (Instr.extest .retimer0 (List.replicate 156 true)).wf = false ∧ (Instr.samplePreload .hub [] []).wf = false ∧
    (Instr.spineLinkFail 25).wf = false ∧ (Instr.perDieResetComplete 24 []).wf = false := by decide +kernel

/-! ## The machine -/

theorem test_meets_machine : State.reset.pending = [] ∧ Memory.wf State.reset.mem = true ∧ State.reset.clocked = true ∧
    ({ up with power := { ref100 := false } } : State).clocked = false ∧ unclocked .consCheck = false ∧
    ({ up with power := { ref100 := false } } : State).portsLost = false ∧
    (up.power.phase ≠ .off ∧ up.power.phase ≠ .tripped) ∧ ({ power := { phase := .off } } : State).pending = [] := by decide +kernel

/-- After the loss of the 156.25 MHz reference: a command that stops, one that a port receives, COUNTERS_READ of a port's
group, and the watchdog of the clerk core that hangs. -/
theorem test_meets_ports_lost :
    let s := { hosted with power := { phase := .up, ref156 := false } }
    let g := s.modClerk (fun c => { c with hung := true })
    let c := Instr.countersRead (mod 4) (by_ [7, 1, 0, 0])
    s.portsLost = true ∧ received .tallySave = false ∧ hangs s .tallySave = false ∧
    received (.frameReceive 0 default) = true ∧ hangs s c = true ∧
    g.clerk.hung = true ∧ g.awake = true ∧ g.clerk.failed = none ∧ g.portsLost = true := by decide +kernel

/-- REG_READ of a port's counter after the loss of the 156.25 MHz reference: the core hangs. -/
theorem test_meets_port_read :
    let s := { hosted with power := { phase := .up, ref156 := false } }
    let body := nameBytes "NET1_RX_DROP" ++ [0, 0, 0, 0, 0, 1, 0, 0]
    s.portsLost = true ∧ s.takes (mod 40) = true ∧ s.precheck (regReadShape body) (mod 40) body.length = none ∧
    8 ≤ s.maxBody 0 ∧ hangs s (.regRead (mod 40) body) = true := by decide +kernel

/-- A step from a state of canonical memory to a next state; a command that runs. -/
theorem test_meets_step : (∃ t, step { up with pending := [.tallySave] } = .next t) ∧ (∃ t, exec .tallySave up = .next t) :=
  ⟨⟨_, rfl⟩, ⟨_, rfl⟩⟩

/-! ## The command path -/

/-- R292 in order: a wrong length, a reserved field, no HELLO, a role too low, a TORN stall, a FREE stall, and none. -/
theorem test_checks_in_order :
    let c := stallQueryShape []
    let s := hosted
    s.precheck c (st5 1) 0 = some (.badLength, []) ∧
    s.precheck c { st5 0 with rsv1 := 1 } 0 = some (.badDescriptor, []) ∧
    (s.modSess 1 (fun q => { q with greeted := false })).precheck c (st5 0) 0 =
      some (.stateConflict, [0, 1, 0, 0, 4, 0, 0, 0, 0, 0, 0, 0, 0, 0, 0, 0, 0, 0, 0, 0]) ∧
    (s.modSess 1 (fun q => { q with role := 0 })).precheck c (st5 0) 0 = some (.noRight, []) ∧
    (s.modStall 5 (fun t => { t with st := .torn })).precheck { c with tornOk := false } (st5 0) 0 = some (.stallTorn, []) ∧
    (s.modStall 5 (fun _ => {})).precheck c (st5 0) 0 =
      some (.stateConflict, [0, 1, 0, 0, 2, 0, 0, 0, 0, 0, 0, 5, 0, 0, 0, 0, 0, 0, 0, 0]) ∧
    s.precheck c (st5 0) 0 = none := by decide +kernel

theorem test_meets_refused : hosted.takes { mod 0 with session := 2 } = false ∧ hosted.takes (st5 1) = true ∧
    hosted.precheck (stallQueryShape []) (st5 1) 0 = some (.badLength, []) ∧
    mailbox hosted (.stallQuery (st5 1) []) = some (stallQueryShape [], st5 1, 0) :=
  ⟨by decide +kernel, by decide +kernel, by decide +kernel, rfl⟩

/-- A response: within ring and window, with a full ring, and of a session freed since. -/
theorem test_meets_response :
    let q := hosted.sess 1
    let f := { q with rspUsed := 16 }
    hosted.clerk.failed = none ∧ q.gen = 0 ∧ q.st = .opened ∧ q.rspUsed < 16 ∧ q.txWait = [] ∧ q.tx.length < q.window ∧
    f.st = .opened ∧ 16 ≤ f.rspUsed ∧ q.gen ≠ 1 ∧ q.life = 0 ∧ q.ring = [] ∧
    ({ q with ring := [{ seq := 1, bytes := List.replicate 16 1 }] } : Session).nextCmd.all (fun c => !c.bad) = true := by decide +kernel

theorem test_meets_records : (∀ r, State.reset.sec.audit.head? = some r → 508 ≤ r.length) ∧
    ((State.reset.crierSrc 0).ring.length < 65536) ∧
    65536 ≤ (({ ring := List.replicate 65536 default } : CrierSrc)).ring.length :=
  ⟨fun r h => by simp [State.reset] at h, by decide +kernel, Nat.le_of_eq (List.length_replicate ..).symm⟩

/-! ## Session control -/

theorem test_meets_hello :
    let yes := by_ [6, 7, 0, 0, 0, 0, 0, 0]
    let no := by_ [8, 9, 0, 0, 0, 0, 0, 0]
    hosted.Accepts (helloShape yes) (mod 8) 8 ∧ (fld yes 0 1 ≤ (hosted.sess 0).version ∧ (hosted.sess 0).version ≤ fld yes 1 1) ∧
    hosted.Accepts (helloShape no) (mod 8) 8 ∧ ¬(fld no 0 1 ≤ (hosted.sess 0).version ∧ (hosted.sess 0).version ≤ fld no 1 1) := by
  decide +kernel

theorem test_meets_heartbeat : hosted.Accepts (heartbeatShape (by_ [0, 250, 0, 0])) (mod 4) 4 ∧
    hosted.Accepts (heartbeatShape (by_ [0, 0, 0, 0])) (mod 4) 4 := by decide +kernel

/-- A role at hand, an unset slot, and a credential that matches no slot (R431, R432). -/
theorem test_meets_role_assert :
    let low := hosted.modSess 0 (fun q => { q with role := 0 })
    hosted.Accepts (roleAssertShape (mod 4) (by_ [2, 0, 0, 0])) (mod 4) 4 ∧ 2 ≤ (hosted.sess 0).role ∧
    low.Accepts (roleAssertShape (mod 4) (by_ [1, 0, 0, 0])) (mod 4) 4 ∧ (low.sess 0).role < 1 ∧ (low.cred 0).ver = 0 ∧
    low.Accepts (roleAssertShape (mod 5) (by_ [2, 1, 0, 0, 7])) (mod 5) 5 ∧ low.sec.lockout = false ∧
    (low.cred 1).matches (by_ [7]) = false ∧ (low.cred 2).matches (by_ [7]) = false := by decide +kernel

/-- A credential that matches the slot it was set from, be it the role's own or the peer's: 4,096 hashes, which a test does
not run; the verifier stands for itself. -/
theorem test_meets_role_match (v : BitVec 256) (h0 : v ≠ 0) (h : verifier (leBytes 16 0) (by_ [7]) = leBytes 32 v.toNat) :
    ({ ver := v } : Cred).matches (by_ [7]) = true := by
  have e : (0 : BitVec 128).toNat = 0 := rfl
  simp only [Cred.matches, e, h]; simpa [by_] using h0

theorem test_meets_resync :
    let first := by_ ([0, 0, 0, 1] ++ [255, 255, 255, 255] ++ List.replicate 8 0)
    let later := by_ ([0, 1, 0, 0] ++ [255, 255, 255, 255] ++ [0, 0, 0, 4] ++ [0, 0, 0, 0])
    let kept : Kept := { id := 4, records := List.replicate 40 (7, List.replicate 72 (0 : Byte)) }
    let s := hosted.modSess 0 (fun q => { q with snap := some kept })
    hosted.Accepts (resyncShape first) (mod 16) 16 ∧ fld first 0 2 = 0 ∧ (hosted.sess 0).stall = none ∧
    s.Accepts (resyncShape later) (mod 16) 16 ∧ fld later 0 2 = 1 ∧ (s.sess 0).snap = some kept ∧ fld later 8 4 = kept.id ∧
    fld later 0 2 < (s.snapPage (s.maxBody 0) kept (fld later 0 2)).2 := by decide +kernel

/-! ## Stalls -/

theorem test_meets_stall_open :
    let b := beBytes 8 7 ++ by_ [255, 0, 4, 0] ++ beBytes 4 262144 ++ beBytes 4 65536
    let s := hosted.putStall 0 { porter := 1 }
    s.Accepts (stallOpenShape (mod 20) b) (mod 20) 20 ∧ s.fw.restart = none ∧ s.stallTakeable 0 = false ∧
    s.stallTakeable 1 = true ∧ (∀ j, j < 1 → s.stallTakeable j = false) := by decide +kernel

theorem test_meets_stall_limits :
    let b := by_ [0, 0, 0, 1] ++ beBytes 4 1 ++ beBytes 4 0
    hosted.Accepts (stallLimitsShape (st5 12) b) (st5 12) 12 ∧ (hosted.stall 5).st = .open_ ∧
    (hosted.stall 5).opened ≤ fld b 4 4 ∧ (hosted.stall 5).voices ≤ fld b 2 2 ∧
    hosted.Accepts (stallQueryShape []) (st5 0) 0 := by decide +kernel

/-- STALL_CLOSE of an OPEN stall, of a QUIESCING one with abort, of a TORN one, and of one that holds nothing. -/
theorem test_meets_stall_close :
    let b := fun n => by_ [n, 0, 0, 0]
    let q := hosted.modStall 5 (fun t => { t with st := .quiescing })
    let torn := hosted.modStall 5 (fun t => { t with st := .torn })
    let bare := hosted.modStall 5 (fun t => { t with opened := 0 })
    hosted.Accepts (stallCloseShape (st5 4) (b 0)) (st5 4) 4 ∧ (hosted.stall 5).st = .open_ ∧
    q.Accepts (stallCloseShape (st5 4) (b 1)) (st5 4) 4 ∧ (q.stall 5).st = .quiescing ∧
    torn.Accepts (stallCloseShape (st5 4) (b 0)) (st5 4) 4 ∧ (torn.stall 5).st = .torn ∧
    bare.Accepts (stallCloseShape (st5 4) (b 0)) (st5 4) 4 ∧ (bare.stall 5).opened = 0 ∧ (bare.stall 5).held = 0 ∧
    (bare.stall 5).pitches = 0 ∧ (bare.stall 5).egress = 0 ∧ (bare.stall 5).porter = 0 ∧ bare.stallStreams 5 = [] := by
  decide +kernel

theorem test_meets_grant :
    let t := ((up.putStall 5 { st := .torn, tear := .dataError, tearing := true, opened := 1 }).stall 5)
    hosted.clocked = true ∧ hosted.clerkUp = true ∧ hosted.grantTurn 5 = true ∧ hosted.homeOf 5 = some 1 ∧
    (hosted.stall 5).st = .open_ ∧ 2 * (hosted.stall 5).tally ≤ (hosted.stall 5).ceiling ∧
    0 < min ((hosted.stall 5).ceiling - (hosted.stall 5).tally) (hosted.feedFreeSum - hosted.clerk.feedGrant) ∧
    t.tearing = true ∧ t.tally = 0 ∧ t.held = 0 ∧ t.pitches = 0 ∧ t.egress = 0 ∧ t.porter = 0 := by decide +kernel

/-! ## Voices and rows -/

namespace Test

/-- A package: kind, base hash, one placement for one press, a stationary section (Table 2.3). -/
def pkg (kind : Nat) (base sect : List Byte) : List Byte :=
  leBytes 4 0x4B505856 ++ leBytes 2 3 ++ by_ [kind, 3, 0, 2] ++ leBytes 2 240 ++ leBytes 2 64 ++ leBytes 2 1 ++
    leBytes 8 sect.length ++ leBytes 8 0 ++ sha256 sect ++ base ++ by_ [1, 0, 0, 0, 0, 0, 0, 0] ++ leBytes 8 255 ++
    List.replicate 144 0 ++ sect

/-- A stationary section, and its hash. -/
def sect : List Byte := by_ [7, 0, 255, 1]

def sectHash : BitVec 256 := sha256w sect

/-- An adapter package and its base's. -/
def adapterPkg : List Byte := pkg 1 (wordBytes sectHash) sect

def basePkg : List Byte := pkg 0 (List.replicate 32 0) sect

/-- A placement of a token stage and an egress stage, with no descriptor. -/
def plain : PlacementMap := ⟨[⟨0, 1, 1, [], 0⟩, ⟨1, 512, 1, [], 4⟩], [], [], [], [], [], [], [], [], [], [], []⟩

/-- Library entry 6 holds an adapter package compiled against a base of the same hash as base 0's, entry 7 a base package;
base 0 is of that hash, and no voice is loaded. -/
def packed : State :=
  { hosted with
    voices := []
    stalls := [(5, { st := .open_, weight := 2, quota := 8, vquota := 1, ceiling := 64 })]
    rows := [(2, { hosted.row 2 with cache := [] })]
    bases := [(0, { used := true, hash := sectHash, entry := 7, addr := 0x2000000000, bytes := 4, loaded := true,
                    rate := 24000, hop := 240, inventory := 64 })]
    flash := { lib := [(6, { used := true, ready := true, total := 260, bytes := adapterPkg }),
                       (7, { used := true, ready := true, total := 260, bytes := basePkg })] } }

end Test

/-- A package of Table 2.3 passes its checks, and each of the first rows of Table 2.2 names its status. -/
theorem test_image_check :
    let p := fun kind => pkg kind (List.replicate 32 0) sect
    imageCheck (p 0) false = none ∧ imageCheck (p 0) true = some .dataError ∧ imageCheck (p 2) false = some .badDescriptor ∧
    imageCheck ((p 0).set 7 2) false = some .archMismatch ∧ imageCheck ((p 0).set 32 0) false = some .dataError := by decide +kernel

/-- VOICE_LOAD: a first load, and a load of a voice the stall has already. The constants that say what an image and a
placement hold (logs 14 and 15) stand for themselves: an image of no operations, and a hot part all on one press. -/
theorem test_meets_voice_load (hi : Config.imageMap sect = ⟨[], [], 0⟩)
    (hp : (placementOf adapterPkg 1).shares = [4]) :
    let b := beBytes 4 6 ++ by_ [4, 0, 0, 0]
    let e := packed.lib 6
    let hash := voiceHash (pkgOf e.bytes).baseHash (pkgOf e.bytes).hash
    let own := packed.putVoice 3 { loaded := true, stall := 5, hash := hash, mask := 4, inRegion := true }
    (packed.Accepts (voiceLoadShape (st5 8) b) (st5 8) 8 ∧ (packed.stall 5).st = .open_ ∧ e.used = true ∧ e.ready = true ∧
    e.erasing = false ∧ (pkgOf e.bytes).kind = 1 ∧ fld b 4 1 = 4 ∧ imageCheck e.bytes e.damaged = none ∧
    (pkgOf e.bytes).imageBytes ≤ 33554432 ∧ (pkgOf e.bytes).stationary ≤ 1048576 ∧ maskRows 4 = [2] ∧
    packed.ownVoice 5 hash = none ∧ (packed.stall 5).voices ≠ (packed.stall 5).vquota ∧
    packed.adapterCheck e.bytes [2] [2] = none ∧ (packed.row 2).st = .live ∧ (packed.rowBase 2).hash = (pkgOf e.bytes).baseHash ∧
    (packed.row 2).latest.presses = 1 ∧ packed.hosted 2 none = [] ∧
    firstFit packed.extents 4 = some 0x2000010000 ∧ lowest Config.nVoices (fun v => !(packed.voice v).loaded) = some 0 ∧
    packed.closedGranules 0x2000010000 4 = [] ∧
    own.Accepts (voiceLoadShape (st5 8) b) (st5 8) 8 ∧ own.ownVoice 5 hash = some 3 ∧ bitAt (own.voice 3).mask.toNat 2 = true ∧
    own.adapterCheck e.bytes [2] [] = none) ∧
    recordsBad e.bytes = false ∧ sharesOk e.bytes = true ∧ cacheFits [e.bytes] 1 = true ∧
    voiceBad (packed.lib (packed.rowBase 2).entry).bytes e.bytes = false := by
  have hc : canonical adapterPkg = sect := by decide +kernel
  have he : (packed.lib 6).bytes = adapterPkg := rfl
  have hn : (pkgOf adapterPkg).stationary = 4 := by decide +kernel
  have hk : (pkgOf adapterPkg).kind = 1 := by decide +kernel
  have hs : pkgCounts adapterPkg = [1] := by decide +kernel
  have hb : (packed.lib (packed.rowBase 2).entry).bytes = basePkg := by decide +kernel
  have hd : canonical basePkg = sect := by decide +kernel
  refine ⟨by decide +kernel, ?_, ?_, ?_, ?_⟩
  · simp [he, recordsBad, imageOps, tableValues, hc, hi, opsFrom, opsBad, hk]
  · simp [he, sharesOk, hs, hp, hn]
  · simp [he, cacheFits, hp]
  · simp [he, hb, voiceBad, imageOps, hc, hd, hi, opsFrom, sroundsBad]

theorem test_meets_voice_unload :
    let b := by_ [0, 3, 0, 0]
    let s := with9 id
    hosted.Accepts (voiceUnloadShape (st5 4) b) (st5 4) 4 ∧ s.Accepts (voiceUnloadShape (st5 4) b) (st5 4) 4 ∧
    3 < Config.nVoices ∧ (hosted.voice 3).loaded = true ∧ (hosted.voice 3).stall = tgt (st5 4) ∧ hosted.streams = [] ∧
    (s.streams.filter (fun p => decide (p.2.st ≠ .free ∧ p.2.voice = 3))).map Prod.fst = [9] := by decide +kernel

/-- ROW_CONFIGURE: a base some row runs, on an ABSENT and on a LIVE row, a base no row runs, and a removal; a BUILDING row.
The constants that say what the image and the placement hold (logs 14 and 15) stand for themselves: an image of no
operations, a token stage and an egress stage, no descriptor. -/
theorem test_meets_row_configure (hi : Config.imageMap sect = ⟨[], [], 0⟩)
    (hp : placementOf basePkg 1 = plain) :
    let b := fun r first => by_ [r, first, 1, 0] ++ beBytes 2 480 ++ by_ [0, 0] ++ beBytes 4 7
    let rm := by_ [2, 0, 0, 0, 0, 0, 0, 0, 0, 0, 0, 0]
    let e := packed.lib 7
    let bare : State := { packed with bases := [], rows := [] }
    let cfg : RowCfg := { first := 15, presses := 1, quire := 480, entry := 7 }
    (packed.Accepts (rowConfigureShape (mod 12) (b 1 15)) (mod 12) 12 ∧ (packed.row 1).st = .absent ∧
    packed.Accepts (rowConfigureShape (mod 12) (b 2 15)) (mod 12) 12 ∧ (packed.row 2).st = .live ∧
    bare.Accepts (rowConfigureShape (mod 12) (b 1 15)) (mod 12) 12 ∧
    e.used = true ∧ e.ready = true ∧ e.erasing = false ∧ (pkgOf e.bytes).kind = 0 ∧ (pkgOf e.bytes).hop = 240 ∧
    480 % 240 = 0 ∧ 480 ≤ 32 * 240 ∧ (pkgOf e.bytes).mode = 0 ∧ packed.otherOwners 1 cfg = [] ∧ packed.otherOwners 2 cfg = [] ∧
    (packed.rowBase 1).used = false ∧ (packed.rowBase 2).used = true ∧ (packed.rowBase 2).hash = (pkgOf e.bytes).hash ∧
    packed.voices = [] ∧ (packed.press 15).retired = false ∧ imageCheck e.bytes e.damaged = none ∧ pkgCounts e.bytes = [1] ∧
    packed.baseWith (pkgOf e.bytes).hash = some 0 ∧ bare.baseWith (pkgOf e.bytes).hash = none ∧
    (packed.row 2).resident = 0 ∧ packed.rowStaged 2 = [] ∧
    firstFit bare.extents 4 = some 0x2000000000 ∧ lowest 8 (fun i => !(bare.base i).used) = some 0 ∧
    bare.closedGranules 0x2000000000 4 = [] ∧
    packed.Accepts (rowConfigureShape (mod 12) rm) (mod 12) 12 ∧
    (let t := packed.modRow 2 (fun w => { w with st := .draining, newCfg := some {} })
     (t.row 2).st = .draining ∧ (t.row 2).newCfg = some {} ∧ (t.row 2).resident = 0) ∧
    (let t := packed.modRow 2 (fun w => { w with st := .building })
     let reset : State := { t with power := { t.power with dieWait := [(4, false)] } }
     t.clocked = true ∧ t.awake = true ∧ (t.row 2).st = .building ∧ t.rowInReset 2 = false ∧ t.power.dieWait = [] ∧
     packed.power.dieWait = [] ∧ bare.power.dieWait = [] ∧ reset.clocked = true ∧ reset.rowInReset 2 = true)) ∧
    recordsBad e.bytes = false ∧ descsBad e.bytes 1 = false ∧ placementOk e.bytes 1 = true ∧ cacheFits [] 1 = true := by
  have hc : canonical basePkg = sect := by decide +kernel
  have he : (packed.lib 7).bytes = basePkg := rfl
  refine ⟨by decide +kernel, ?_, ?_, ?_, ?_⟩
  · simp [he, recordsBad, imageOps, tableValues, hc, hi, opsFrom, opsBad, sroundsBad]
  · simp [he, descsBad, hp, plain]
  · simp [he, placementOk, rowProgram, imageOps, hc, hi, hp, plain, opsFrom, markLead, pressesAscend]
  · simp [cacheFits]

/-- ROW_BUILD_DONE of a row whose base's bytes wait for a die in reset, and of one whose base has none that do. -/
theorem test_meets_held_base :
    let t := packed.modRow 2 (fun w => { w with st := .building })
    let at_ := fun a => { t with heldMoves := [{ addr := a, len := 4, bytes := some [1, 2, 3, 4] }] }
    let b := t.rowBase 2
    let within := fun (m : HeldMove) => b.addr ≤ m.addr ∧ m.addr < b.addr + b.bytes
    (∃ m ∈ (at_ 0x2000000003).heldMoves, within m) ∧ (∀ m ∈ (at_ 0x2000000004).heldMoves, ¬within m) := by decide +kernel

/-! ## Streams -/

theorem test_meets_stream_open :
    let b := by_ [0, 3, 3, 0] ++ beBytes 4 0 ++ beBytes 4 77 ++ List.replicate 28 0
    let e := { egressOf (b.drop 16) with kind := 3, index := 0, rVoice := 24000, stall := 5, markerNext := true }
    let s := hosted.putEgr 0 { final := some 5 }
    s.Accepts (streamOpenShape b) (st5 40) 40 ∧ s.fw.restart = none ∧ (s.voice 3).loaded = true ∧ codecKnown e = true ∧
    s.egressOk 5 e = true ∧ e.kind ≠ 2 ∧ (s.voice 3).stall = 5 ∧ (s.stall 5).st = .open_ ∧ (s.stall 5).opened < (s.stall 5).quota ∧
    ((s.stream 1).st = .free ∧ (s.egr 1).busy = false) ∧ (∀ j, j < 1 → ¬((s.stream j).st = .free ∧ (s.egr j).busy = false)) ∧
    s.closedGranules (Config.journalBase + 1 * Config.journalSlot) 64 = [] ∧
    BitVec.ofNat 32 (fld b 4 4) - 1 = 0xFFFFFFFF#32 := by decide +kernel

namespace Test

/-- A chunk of stream 9. -/
def chunk (seq : BitVec 32) (ts : List FToken) : Chunk := { stream := 9, seq := seq, tokens := ts }

/-- A token of some duration. -/
def tok (d : Nat) : FToken := { (default : FToken) with duration := BitVec.ofNat 16 d, pitch0 := 0xFFFF, pitch1 := 0xFFFF }

/-- The distance of a chunk from the expected one. -/
def dist (s : State) (c : Chunk) : Nat := (c.seq - (s.stream 9).lastAcc - 1).toNat

end Test

/-- R58's table: the stream has accepted 0xFFFF_FFFD, and what d is for the chunks that arrive. -/
theorem test_feed_example :
    let s := with9 (fun x => { x with lastAcc := 0xFFFFFFFD#32 })
    let t := with9 (fun x => { x with lastAcc := 0xFFFFFFFE#32 })
    let u := with9 (fun x => { x with lastAcc := 0xFFFFFFFF#32 })
    dist s (chunk 0xFFFFFFFE#32 []) = 0 ∧ dist t (chunk 1#32 []) = 2 ∧ dist t (chunk 0xFFFFFFFF#32 []) = 0 ∧
    dist u (chunk 0xFFFFFFFE#32 []) = 0xFFFFFFFE ∧ dist u (chunk 0#32 []) = 0 := by decide +kernel

/-- STREAM_FEED: no token and too many, a duplicate and a gap at the ends of their ranges, too many frames, a chunk that
credits pay, the last frame of the limit, and a chunk the floor pays. -/
theorem test_meets_feed :
    let s := with9 id
    let full := with9 (fun x => { x with pendFrames := 16777215 })
    let poor := s.modStall 5 (fun t => { t with tally := 0 })
    let ok := fun (s : State) => s.clocked = true ∧ s.clerkUp = true ∧ (s.sess 1).st = .opened ∧ (s.sess 1).role ≠ 0 ∧
      (s.sess 1).peer = false ∧
      (s.sess 1).stall = some (s.stream 9).stall ∧ (s.stream 9).st = .idle ∧ (s.stall 5).st = .open_ ∧ (s.stream 9).endReq = false ∧
      (s.stream 9).exportMove = false
    ok s ∧ ok full ∧ ok poor ∧ (chunk 1#32 []).tokens.length = 0 ∧ 512 < (List.replicate 513 (tok 1)).length ∧
    2 ^ 31 < dist s (chunk 0x80000002#32 []) ∧ dist s (chunk 0x80000001#32 []) = 2 ^ 31 ∧
    dist s (chunk 2#32 []) = 1 ∧ (chunk 1#32 [tok 1]).seq = (s.stream 9).lastAcc + 1 ∧ (chunk 1#32 [tok 1]).rsv = 0 ∧
    [tok 1].all (tokenOk (s.voice 3).inventory) = true ∧ 16777215 < 16777215 + frames [tok 1] ∧
    16777215 + frames [tok 0] ≤ 16777215 ∧ (full.stream 9).feedUnits = 0 ∧ frames [tok 0] = 0 ∧ frames [tok 1] ≠ 0 ∧
    bufsFor [tok 1].length = 1 ∧ 1 ≤ (s.stall 5).tally ∧ (poor.stall 5).tally < 1 ∧
    (s.stream 9).floorHeld = false ∧ (s.stream 9).chunks = [] ∧
    frames (List.replicate 32 (tok 0) ++ [tok 1]) = 1 ∧ frames ((List.replicate 32 (tok 0) ++ [tok 1]).take 32) = 0 ∧
    bufsFor (List.replicate 32 (tok 0) ++ [tok 1]).length = 2 ∧ 2 ≤ (s.stall 5).tally := by decide +kernel

theorem test_meets_mark :
    let b := fun p => beBytes 4 9 ++ by_ [0, 0] ++ beBytes 6 p
    let s := with9 (fun x => { x with samples := 480, marks := [720, 960] })
    s.Accepts (streamMarkShape (b 1200)) (st5 12) 12 ∧ (s.stream 9).stall = tgt (st5 12) ∧ 1200 % max 1 (s.hopOf 9) = 0 ∧
    1200 ∉ (s.stream 9).marks ∧ s.boundary 9 ≤ 1200 ∧ (∀ m ∈ (s.stream 9).marks, m ≤ 1200) ∧ (s.stream 9).marks.length < 3 ∧
    s.Accepts (streamMarkShape (b 960)) (st5 12) 12 ∧ 960 ∈ (s.stream 9).marks := by decide +kernel

/-- STREAM_PAUSE and STREAM_RESUME in each state they act in, on a row that hosts the voice. -/
theorem test_meets_pause :
    let b := beBytes 4 9
    let p := fun (st : SState) => with9 (fun x => { x with st := st })
    (∀ st ∈ [SState.idle, .parked, .queued, .resident, .draining], (p st).Accepts (streamPauseShape b) (st5 4) 4 ∧
      ((p st).stream 9).paused = false ∧ ((p st).stream 9).stall = tgt (st5 4) ∧ streamArg b = 9 ∧
      2 ∈ (p st).bindRows ((p st).stream 9) ∧ ((p st).stream 9).row = some 2) ∧
    (with9 (fun x => { x with paused := true, pendFrames := 1 })).Accepts (streamResumeShape b) (st5 4) 4 := by decide +kernel

/-- STREAM_END: graceful and abort, at rest and on a row, with and without frames, and FAULTED. -/
theorem test_meets_end :
    let b := fun n => beBytes 4 9 ++ by_ [n, 0, 0, 0]
    let p := fun (st : SState) (f : Nat) => with9 (fun x => { x with st := st, pendFrames := f, quire := some default })
    ∀ st ∈ [SState.idle, .parked, .queued, .resident, .draining, .faulted], ∀ f ∈ [0, 1], ∀ a ∈ [0, 1],
      (p st f).Accepts (streamEndShape (b a)) (st5 8) 8 ∧ ((p st f).stream 9).exportReq = false ∧ fld (b a) 4 1 = a ∧
      ((p st f).stream 9).stall = tgt (st5 8) := by decide +kernel

theorem test_meets_park :
    let s := with9 id
    let w := s.putPark 9 { st := .writing, gen := 1, writing := true, copied := 1 }
    let d := s.putPark 9 { st := .writing, gen := 1, writing := true, copied := 1, discard := some .stateConflict }
    s.Accepts (streamParkShape (beBytes 4 9)) (st5 4) 4 ∧ (s.stream 9).st = .idle ∧ (s.stream 9).pendFrames = 0 ∧
    s.flash.readOnly = false ∧ 1 ≤ s.flash.tally ∧ (s.park 9).writing = false ∧
    w.clocked = true ∧ w.awake = true ∧ (w.park 9).gone = [] ∧ (w.park 9).writing = true ∧ (w.park 9).discard = none ∧
    0 < (w.park 9).copied ∧ 0 < (d.park 9).copied ∧
    (d.park 9).discard = some .stateConflict ∧ (w.crierSrc 12).ring.length < 65535 := by decide +kernel

theorem test_meets_export :
    let b := fun n => beBytes 4 9 ++ by_ [n, 0, 0, 0]
    let s := with9 id
    let r := with9 (fun x => { x with st := .resident })
    (∀ m ∈ [0, 1], s.Accepts (streamExportShape (b m)) (st5 8) 8 ∧ r.Accepts (streamExportShape (b m)) (st5 8) 8) ∧
    s.exportsHeld < 1024 ∧ s.freeHandle = some 1 ∧ (s.stream 9).res ≠ .remote ∧ s.imagePoisoned 9 = false ∧
    (s.stream 9).endReq = false ∧ (s.stream 9).exportReq = false ∧
    (r.stream 9).st = .resident ∧ r.exportsHeld < 1024 ∧ r.freeHandle = some 1 ∧
    s.Accepts (streamQueryShape (beBytes 4 9)) (st5 4) 4 ∧ s.Accepts (streamQueryShape (beBytes 4 0)) (mod 4) 4 ∧
    modScope (mod 4) = true := by decide +kernel

namespace Test

/-- The body of STREAM_IMPORT: handle, stream, hash, sample count, sequence numbers, marks, image bytes, out_kind 3. -/
def imp (handle stream hash samples : Nat) (marks : List Nat) (bytes : Nat) : List Byte :=
  beBytes 4 handle ++ beBytes 4 stream ++ beBytes 32 hash ++ beBytes 8 samples ++ beBytes 8 0 ++ beBytes 4 5 ++ beBytes 4 5 ++
    (marks ++ List.replicate (3 - marks.length) 0).flatMap (beBytes 8) ++ by_ [marks.length, 0, 0, 0] ++ beBytes 4 0 ++
    beBytes 4 0 ++ beBytes 4 0 ++ beBytes 8 0 ++ beBytes 4 0 ++ List.replicate 24 0 ++ beBytes 8 480 ++ beBytes 4 bytes ++
    List.replicate 20 0 ++ by_ [3, 0, 0, 0, 0, 0, 0, 0]

end Test

/-- STREAM_IMPORT: an image, a peer replay, and the journal replay of a FAULTED stream. -/
theorem test_meets_import :
    let ok := fun (s : State) (b : List Byte) => s.Accepts (streamImportShape b) (st5 180) 180 ∧ s.fw.restart = none ∧
      fld b 172 1 = 3 ∧ (s.stall 5).st = .open_ ∧ (s.stall 5).opened < (s.stall 5).quota ∧ s.freeStreamId = some 0
    let img := imp 1 0 21 480 [] 524288
    let peer := imp 0 0 21 480 [480] 0
    let jrn := beBytes 4 (2 ^ 32 - 1) ++ beBytes 4 9 ++ List.replicate 164 0 ++ by_ [3, 0, 0, 0, 0, 0, 0, 0]
    let held : HeldChunk := { seq := 1, tokens := [tok 1], frame0 := 0, bufs := [], floor := false }
    let s := (with9 (fun x => { x with st := .faulted, status := .timeout })).putJournal 9 { complete := true, records := [held] }
    let e := importEgress (importDesc peer).egress 3 0 24000 5
    ok hosted img ∧ hosted.outOk 3 0 = true ∧ s.outOk 3 0 = true ∧ (importDesc img).bytes = 524288 ∧
    (importDesc img).chunks = 0 ∧ (importDesc img).scan = (hosted.voice 3).scan ∧
    hosted.ownVoice 5 (importDesc img).hash = some 3 ∧ (hosted.voice 3).rate = 24000 ∧
    codecKnown e = true ∧ hosted.egressOk 5 e = true ∧ importBufs (importDesc img) ≤ hosted.ungranted ∧
    ok hosted peer ∧ (importDesc peer).bytes = 0 ∧ (importDesc peer).handle = 0 ∧ replayOk (importDesc peer) peer = true ∧
    (importDesc peer).scan = (hosted.voice 3).scan ∧
    peerOk (importDesc peer) 240 (Egress.nv { (importDesc peer).egress with rVoice := 24000 }) = true ∧
    ok s jrn ∧ (importDesc jrn).handle = 2 ^ 32 - 1 ∧ (importDesc jrn).bytes = 0 ∧ (importDesc jrn).stream = 9 ∧
    (s.stream 9).stall = 5 ∧ (s.stream 9).st = .faulted ∧ (s.stream 9).status = .timeout ∧
    (s.journal 9).complete = true ∧ s.journalPoisoned 9 = false ∧ replayOk (importDesc jrn) jrn = true ∧
    s.barrierRows (s.voice 3) = [2] ∧ (s.row 2).st = .live ∧
    codecKnown (importEgress (s.egr 9) 3 0 24000 5) = true ∧ s.egressOk 5 (importEgress (s.egr 9) 3 0 24000 5) = true ∧
    bufsFor held.tokens.length ≤ s.ungranted := by decide +kernel

/-! ## The row pipeline -/

namespace Test

/-- Stream 9 is QUEUED with one frame. -/
def queued9 (f : Stream → Stream) : State :=
  with9 (fun x => f { x with st := .queued, pendFrames := 1 })

/-- A header of Table 10.2 for stream 9 in its pitch. -/
def staged9 (good : Bool) : State :=
  let s := queued9 (fun x => { x with staged := true, pitch := 5, copyIn := .done })
  { s with mem := mwrite [] (pitchAddr 5) (folioHeader (s.stream 9) (if good then 21 else 22) 64 64) }

end Test

/-- STAGING; STAGING_COMPLETE of a header that fits and of one of another voice; ADMISSION with a mark inside the quire. -/
theorem test_meets_staging :
    let s := queued9 id
    let g := staged9 true
    let b := staged9 false
    let a := queued9 (fun x => { x with staged := true, pitch := 5, readyAt := some 3, marks := [120, 240] })
    let may := fun j => j ∈ a.ready 2 ∧ 0 < a.quireFrames j 2 ∧ (a.row 2).hosts (a.stream j).voice = true
    s.clocked = true ∧ s.awake = true ∧ (s.row 2).st = .live ∧ s.clerk.failed = none ∧ s.candidates 2 = [9] ∧
    (g.stream 9).staged = true ∧ (g.stream 9).copyIn = .done ∧ (g.stream 9).readyAt = none ∧
    g.headerOk (pitchAddr 5) (g.stream 9) true = true ∧ b.headerOk (pitchAddr 5) (b.stream 9) true = false ∧
    (b.stream 9).endReq = false ∧ (a.row 2).resident < 512 * (a.row 2).cfg.presses ∧ may 9 ∧ a.ready 2 = [9] := by
  decide +kernel

namespace Test

/-- Press 4 in row 2, with a two-operation program: the token stage's and the egress stage's. -/
def pressed (g0 g1 : Stage) : State :=
  let r := { hosted.row 2 with prog := [(0, .token), (1, .egress)] }
  { hosted with rows := [(2, r)], stages := [(64, { g0 with row := some 2 }), (65, { g1 with row := some 2, kind := 5 })] }

/-- A token of a stream at an operation of the program. -/
def t (n next : Nat) : Tok := { stream := n, stall := 5, voice := 3, pos := 0, next := next }

end Test

/-- BEAT of stage 64 and of stage 65: two streams' tokens and a second one of the first stream taken two at a time; a core
that waits for a barrier counter, and one whose counter has its count; nothing to take; a computed token handed on, kept back
by a full verso, coming back to a section, and at the end of the program. -/
theorem test_meets_beat :
    let s := (pressed { beat := 2 } {}).modRow 2 (fun w => { w with issue := [t 9 0, t 9 0, t 10 0] })
    let wait := (pressed {} { beat := 1, verso := [t 9 1] }).modRow 2 (fun w => { w with waits := [(65, 1, 255, 3)] })
    let pass := wait.putEngine 4 { bars := [(255, 3)] }
    let full := pressed { recto := [t 9 1] } { beat := 1, verso := [t 10 1] }
    let room := pressed { recto := [t 9 1] } { beat := 2, verso := [t 10 1] }
    let back := (pressed {} { recto := [t 9 2] }).modRow 2 (fun w => { w with prog := [(0, .token), (1, .keep), (0, .egress)] })
    let last := pressed {} { recto := [t 9 2] }
    let idle := fun (s : State) (k : Nat) => (s.stage k).recto = [] ∧ (s.stage k).out = [] ∧ (s.stage k).back = []
    s.clocked = true ∧ s.awake = true ∧ (s.stage 64).row = some 2 ∧ rowRuns (s.row 2) = true ∧ idle s 64 ∧ (s.stage 64).kind = 0 ∧
    (takeBeat (min 2 (1024 * 1 - (s.row 2).inflight)) [] (s.row 2).issue).1 = [t 9 0, t 10 0] ∧ (s.row 2).cfg.presses = 1 ∧
    s.visitCause 2 4 64 [t 9 0, t 10 0] = none ∧
    idle wait 65 ∧ (wait.account 65).visitCause 2 4 65 [t 9 1] = some .barrier ∧ (pass.account 65).visitCause 2 4 65 [t 9 1] = none ∧
    idle s 65 ∧ (s.stage 65).verso = [] ∧
    (full.row 2).opStage 1 = some 65 ∧ (full.row 2).returns 65 1 = false ∧ (full.stage 65).accepts (full.rowScan 2) (t 9 1) = false ∧
    (room.stage 65).accepts (room.rowScan 2) (t 9 1) = true ∧ (back.row 2).opStage 2 = some 64 ∧ (back.row 2).returns 64 2 = true ∧
    (last.row 2).opStage 2 = none ∧ (t 9 2).frame = true := by decide +kernel

/-- A barrier that staging's COPY has signalled, and one that it has not (R204). -/
theorem test_meets_staging_barrier :
    let g := (staged9 true).putEngine 17 { bars := [(2, 1)] }
    let bar := fun (s : State) => tget (0 : BitVec 32) (s.engine (16 + 9 % 4)).bars (((s.stream 9).row).getD 0)
    bar g ≠ 0 ∧ bar (staged9 true) = 0 ∧ g.headerOk (pitchAddr 5) (g.stream 9) true = true ∧ (g.stream 9).copyIn = .done := by
  decide +kernel

/-- The premises of the arithmetic: a block at the greatest exponent, numbers of the least and the greatest exponent, a list, the
ends of a draw's fields, and the last and another step of a quire. -/
theorem test_meets_arithmetic :
    let d : Draw := { key := [], pos := 2 ^ 48 - 1, op := 127, use := 255 }
    let q : Quire := { frame0 := 0, frames := 1, marks := [], left := false }
    let s := with9 (fun x => { x with st := .resident, pitch := 5, quire := some q })
    ({ e := 255, m := [] } : BfBlock).e ≤ 255 ∧ bits (0x008000 : Fp24).toNat 22 15 = 1 ∧ bits (0x7F0000 : Fp24).toNat 22 15 = 254 ∧
    ([0] : List Int) ≠ [] ∧ ([0x400000] : List Fp24) ≠ [] ∧ d.pos < 2 ^ 48 ∧ d.op < 128 ∧ d.use < 256 ∧ (1023 : Nat) < 1024 ∧
    d.counter 1023 = d.counter 1023 ∧ { (t 9 1) with last := true }.last = true ∧ (t 9 1).last = false ∧
    { (t 9 1) with reset := true }.reset = true ∧ { (t 9 1) with first := true }.first = true ∧ (t 9 1).first = false ∧
    (s.stream 9).quire = some q := by decide +kernel

/-- QUIRE_END, and FOLIO_WRITTEN of a stream that ends and of one with frames left. -/
theorem test_meets_quire :
    let q : Quire := { frame0 := 0, frames := 1, marks := [120], left := true }
    let s := with9 (fun x => { x with st := .resident, pitch := 5, quire := some q })
    let d := fun (e : Bool) (n : Nat) => with9 (fun x => { x with st := .draining, copyOut := .done, endReq := e, pendFrames := n })
    s.clocked = true ∧ s.awake = true ∧ (s.stream 9).quire = some q ∧ (s.stream 9).st = .resident ∧ q.left = true ∧
    s.clerk.failed = none ∧ (∀ e ∈ [false, true], ∀ n ∈ [0, 1], ((d e n).stream 9).copyOut = .done ∧
      ((d e n).stream 9).row = some 2 ∧ ((d e n).row 2).st = .live ∧ ((d e n).stream 9).exportReq = false ∧
      ((d e n).stream 9).staged = false) := by decide +kernel

/-- QUIRE_END behind a wait for three slices that were written back. -/
theorem test_meets_backs :
    let q : Quire := { frame0 := 0, frames := 1, marks := [], left := true, backs := 3 }
    let s := with9 (fun x => { x with st := .resident, pitch := 5, quire := some q })
    (s.stream 9).quire = some q ∧ q.backs ≠ 0 ∧ (s.stream 9).row = some 2 ∧ 2 < Config.nRows ∧ s.clerk.failed = none := by decide +kernel

/-- ROW_FAULT on press 4 of row 2: the first fault, a second one a day later to the cycle, and one past the day. -/
theorem test_meets_row_fault :
    let s := with9 (fun x => { x with st := .resident })
    let twice := fun now => { (s.putPress 4 { faultAt := some 7 }) with now := now }
    s.clocked = true ∧ s.awake = true ∧ s.pressRow 4 = some 2 ∧ (s.press 4).faultAt = none ∧ (s.row 2).newCfg = none ∧
    (s.stream 9).endReq = false ∧ (twice (7 + dayCycles)).now - 7 ≤ dayCycles ∧ ((twice 7).press 4).retired = false ∧
    dayCycles < (twice (8 + dayCycles)).now - 7 ∧ (twice 7).pressRow 4 = some 2 := by decide +kernel

/-! ## Porters and memories -/

namespace Test

/-- Engine 20 with one queue of descriptors, on stream 9's state. -/
def engined (xs : List QDesc) (g : Engine) (f : Stream → Stream) : State :=
  { with9 f with engines := [(20, { g with queues := [(0, { descs := xs })] })] }

/-- A COPY of 512 bytes out of stream 9's folio, of stall 5. -/
def copy9 : Desc :=
  { op := 0, cls := 1, stall := 5, stream := 9, src := BitVec.ofNat 64 (folioAddr 9), dst := BitVec.ofNat 64 (pitchAddr 5),
    count0 := 512 }

/-- Its transfer, issued. -/
def flown : Xfer :=
  { queue := 0, desc := 7, op := 0, src := folioAddr 9, dst := pitchAddr 5, at_ := pitchAddr 5, len := 512,
    data := List.replicate 512 3, cls := 1, sys := false, stall := 5, stream := 9 }

end Test

/-- TRANSFER_ISSUE of one offer with its page present and absent; TRANSFER_COMPLETE of an issued transfer that its
controllers serve, and of one behind an earlier request for its granule. -/
theorem test_meets_transfer :
    let d : QDesc := { id := 7, d := copy9 }
    let s := engined [d] {} id
    let away := engined [d] {} (fun x => { x with res := .inFlash })
    let c := engined [{ d with elem := 1, flying := 1 }] { issued := [flown] } id
    let late := c.putChannel 3 { reqs := [⟨0, 0, 5, false⟩, ⟨0, 0, 9, false⟩] }
    let one := fun (l : List Offer) => l.map (fun o => (o.queue, o.x, o.piece, o.slot)) =
      [(0, d, .move (folioAddr 9) (pitchAddr 5) 512, .queue)]
    s.clocked = true ∧ s.awake = true ∧ s.dieInReset 20 = false ∧
    one ((s.passHeads 20).offers 20) ∧ one ((away.passHeads 20).offers 20) ∧
    (s.passHeads 20).needsPage copy9 (folioAddr 9) (pitchAddr 5) = none ∧
    (away.passHeads 20).needsPage copy9 (folioAddr 9) (pitchAddr 5) = some 9 ∧
    (c.engine 20).issued[0]? = some flown ∧ c.canComplete flown = true ∧ c.poisoned flown.src = false ∧ flown.data.length = 512 ∧
    spaceOf flown.at_ ≠ 0 ∧ late.canComplete { flown with serial := 9 } = false ∧
    late.canComplete { flown with serial := 5 } = true := by
  decide +kernel

/-- An INDEXED whose index lies in space 0, with no granule poisoned, and a transfer into space 0 whose controller is not in
reset. -/
theorem test_meets_indexed :
    let x : Desc := { op := 1, cls := 1, stall := 5, stream := 9, src := BitVec.ofNat 64 (folioAddr 9),
                      dst := BitVec.ofNat 64 (pitchAddr 5), index := 0x1000, count0 := 512, indexCount := 1 }
    let s := engined [{ id := 7, d := x }] {} id
    let back := engined [{ id := 7, d := copy9, elem := 1, flying := 1 }]
      { issued := [{ flown with dst := folioAddr 9, at_ := folioAddr 9 }] } id
    let out := { flown with dst := folioAddr 9, at_ := folioAddr 9 }
    spaceOf x.index.toNat = 0 ∧ s.channels = [] ∧ back.canComplete out = true ∧ spaceOf out.at_ = 0 ∧
    back.closedGranules out.at_ out.data.length = [] ∧ back.poisoned out.dst = false := by decide +kernel

/-- WAIT at its count and one short of it, SIGNAL of a counter and of a full one, SWAP of a full released pair, of one that
is not full, and of one whose recto is held. -/
theorem test_meets_barriers :
    let wait : Desc := { op := 4, opArg := BitVec.ofNat 32 (255 + 2 * 2 ^ 13) }
    let signal : Desc := { op := 3, opArg := BitVec.ofNat 32 (255 + 24 * 2 ^ 8) }
    let s := fun (d : Desc) (v : BitVec 32) =>
      ((engined [{ id := 7, d := d }] { bars := [(255, v)] } id).putEngine 24 { bars := [(255, v)] })
    let p := hosted.putPress 15 { pairs := [(0, { kib := 1 }), (62, { kib := 1, full := true, held := true }), (63, { kib := 1, full := true })] }
    (s wait 2).reached 20 [] (tget ({} : PQueue) ((s wait 2).engine 20).queues 0).decoded = some { id := 7, d := wait } ∧
    bits wait.opArg.toNat 31 13 ≤ (tget 0 ((s wait 2).engine 20).bars 255).toNat ∧
    (tget 0 ((s wait 1).engine 20).bars 255).toNat < bits wait.opArg.toNat 31 13 ∧ bits signal.opArg.toNat 12 8 = 24 ∧
    (s signal 0).headDesc 20 0 = some { id := 7, d := signal } ∧ tget 0 ((s signal 0xFFFFFFFE#32).engine 24).bars 255 ≠ 0xFFFFFFFF#32 ∧
    tget 0 ((s signal 0xFFFFFFFF#32).engine 24).bars 255 = 0xFFFFFFFF#32 ∧
    (tget ({} : Pair) (p.press 15).pairs 0).kib ≠ 0 ∧ (tget ({} : Pair) (p.press 15).pairs 62).held = true ∧
    (tget ({} : Pair) (p.press 15).pairs 63).full = true ∧ (tget ({} : Pair) (p.press 15).pairs 63).held = false := by decide +kernel

/-- SIGNAL with a completion record asked for, and a full counter of an INDEXED queue's stream. -/
theorem test_meets_notify :
    let d : Desc := { op := 3, opArg := BitVec.ofNat 32 (255 + 24 * 2 ^ 8), notify := true, stream := 9, stall := 5 }
    let s := engined [{ id := 7, d := d }] {} (fun x => { x with st := .resident })
    s.headDesc 20 0 = some { id := 7, d := d } ∧ d.notify = true ∧ d.sys = false ∧ (s.stream 9).st = .resident ∧
    (s.stream 9).endReq = false := by decide +kernel

namespace Test

/-- A folio's image of stream 9, its header first. -/
def image9 : List Byte := folioHeader ((with9 id).stream 9) 21 64 64 ++ List.replicate (Config.folioBytes - 256) 1

/-- Stream 9 waits for an import's image. -/
def fetching : State := with9 (fun x => { x with res := .remote, fetch := some ⟨1, 2, 3, Config.folioBytes, 0, []⟩ })

end Test

/-- PAGE_IN_COMPLETE of a park record's reading, and of an import's image; DLK_FIRED on the younger of two stagings, in a
cycle of waits (it waits for a place in a queue, the older for an egress buffer), and in none. Whether an image's header
fits is left to its clause, which takes both answers. -/
theorem test_meets_page_in :
    let s := (with9 (fun x => { x with res := .inFlash })).putPark 9 { st := .valid, gen := 1, reading := true, fetched := true }
    let y := (with9 (fun x => { x with st := .queued, staged := true, claimAt := 2, pitch := 5 })).putStream 13
      { st := .resident, stall := 5, claimAt := 1, pitch := 6 }
    let g : Engine := { queues := [(0, { limit := 1, descs := [{ id := 7, d := copy9 }] })], issued := [{ flown with stream := 13 }] }
    let z := ((y.putEngine 20 g).putEgr 9
      { bufs := [{ pos := 0, samples := [], floor := false }] }).putEgr 13 { kind := 0, quireEnd := 240 }
    let z := { z with clerk := { z.clerk with egrFree := 16384 } }
    let f := fetching
    s.clocked = true ∧ s.awake = true ∧ (s.stream 9).fetch = none ∧ (s.park 9).reading = true ∧ (s.park 9).fetched = true ∧
    (s.stream 9).res = .inFlash ∧
    (s.stream 9).st = .idle ∧ (s.stream 9).endReq = false ∧ (f.stream 9).fetch = some ⟨1, 2, 3, Config.folioBytes, 0, []⟩ ∧
    (f.stream 9).st = .idle ∧ (f.stream 9).exportReq = false ∧ (f.stream 9).endReq = false ∧
    (y.stream 9).staged = true ∧ 9 % 4 = 1 ∧ (y.stream 13).holdsPitch = true ∧ (y.stream 13).claimAt < (y.stream 9).claimAt ∧
    y.waitCycle 1 9 13 = false ∧ z.waitCycle 1 9 13 = true := by
  decide +kernel

theorem test_meets_image : (List.replicate Config.folioBytes (0 : Byte)).length = Config.folioBytes := List.length_replicate ..

/-- CONS_CHECK of pools that add up, of a stall row that does not, and of a pool row that does not. -/
theorem test_meets_cons_check :
    let full := { hosted with
      stalls := [(5, { hosted.stall 5 with tally := 0 })] }
    let stall := full.modStall 5 (fun t => { t with held := 1 })
    let pool := full.modDie 0 (fun d => { d with feedFree := d.feedFree - 1 })
    full.clocked = true ∧ full.awake = true ∧ full.clerk.failed = none ∧ full.failedRows = 0 ∧
    stall.failedRows = 64 ∧ stall.failedRows % 64 = 0 ∧ 5 ∈ tkeys stall.stalls ∧ stall.stallRow 5 = false ∧ (stall.stall 5).st = .open_ ∧
    pool.failedRows % 64 ≠ 0 := by decide +kernel

/-- PATROL_SCRUB of a check granule, of a slot that holds nothing with a corrected and with an uncorrectable error, of one in a
folio and of one in an adapter image, BASE_GRANULE_REWRITE of a poisoned granule of base 0, STREAM_ENTRY_REWRITE of a stream
and of a FREE entry. -/
theorem test_meets_scrubs :
    let s := hosted
    let g := granuleAt s.sec.hashKey (0x2000000000 / 512)
    let a := granuleAt s.sec.hashKey (0x2000010000 / 512)
    let f := granuleAt s.sec.hashKey (folioAddr 9 / 512)
    let fixed : MemAnswer := { bad := [1] }
    let lost : MemAnswer := { bad := [3] }
    let b := { s.putChannel g.1 { poison := [g.2] } with flash := { lib := [(1, { used := true, bytes := List.replicate 512 7 })] } }
    (7864320 : Nat) < 8388608 ∧ (47 : Nat) < 48 ∧ 0 < fixed.ces ∧ fixed.ues = 0 ∧ fixed.lost = false ∧ 0 < lost.ues ∧
    granuleOf s.sec.hashKey 47 7864319 = none ∧ (s.channel 47).poison.contains 7864319 = false ∧
    granuleOf s.sec.hashKey a.1 a.2 = some (0x2000010000 / 512) ∧ s.regionAt 0x2000010000 = .adapter 3 ∧
    granuleOf s.sec.hashKey f.1 f.2 = some (folioAddr 9 / 512) ∧ s.regionAt (folioAddr 9) = .folio 9 ∧
    ((with9 id).stream 9).st = .idle ∧ ((with9 id).stream 9).res = .present ∧ (s.stall 5).st = .open_ ∧
    b.regionAt 0x2000000000 = .base 0 ∧ b.poisoned 0x2000000000 = true ∧ (b.lib (b.base 0).entry).used = true ∧
    (b.lib (b.base 0).entry).damaged = false ∧ ((with9 id).stream 8).st = .free ∧ 9 < Config.nStreams := by decide +kernel

/-- Palhani's folio pages of an import whose dies are not in reset and are; a base's granule likewise; the channels of a die in
reset and of the others. -/
theorem test_meets_dies :
    let r := fun (s : State) => ({ s with power := { s.power with dieWait := [(20, true), (21, true), (22, true), (23, true)] } } : State)
    fetching.stoppedGranules (folioAddr 9) Config.folioBytes = [] ∧ (r fetching).stoppedGranules (folioAddr 9) Config.folioBytes ≠ [] ∧
    (r hosted).dieInReset (20 + 47 / 12) = true ∧ hosted.dieInReset (20 + 47 / 12) = false ∧
    hosted.stoppedGranules 0x2000000000 512 = [] ∧ 0 < ({ bad := [1] } : MemAnswer).ces := by decide +kernel

/-! ## Audio out -/

namespace Test

/-- Port 15 in TDM of two 16-bit slots, enabled, with changes. -/
def ported (f : Sap → Sap) : State :=
  { hosted with saps := [(15, f { mode := 2, master := true, enable := true, slots := 2, bits := 16, rate := 48000 })] }

/-- A deferred response. -/
def owed : Defer := { session := 0, seq := 1, tag := 9, opcode := 0x41, gen := 0 }

end Test

/-- SAP_CONFIG of port 15 as a master on another clock and as a slave; mask writes and reads at the ends of their range. -/
theorem test_meets_port_settings :
    let rate := fun mclk => if mclk = 1 then 44100 else 48000
    let b := fun clock mclk => by_ [15, 1, clock, mclk, 2, 32, 1, 0] ++ beBytes 4 (rate mclk)
    let m := fun op mask => by_ [15, op, 0, 0] ++ beBytes 16 mask
    let s := ported id
    let w := ported (fun t => { t with writes := [(3, owed)] })
    (∀ c ∈ [0, 1], ∀ k ∈ [0, 1], s.Accepts (sapConfigShape (mod 12) (b c k)) (mod 12) 12 ∧
      sapFormatBad 1 c k 2 32 (rate k) = false) ∧
    (s.sap 15).bound = [] ∧ s.clk.switching.getLsbD 15 = false ∧ fld (b 1 1) 3 1 ≠ (s.sap 15).mux ∧ (s.sap 15).mux = 0 ∧
    (∀ o ∈ [0, 1], s.Accepts (sapSlotmaskShape (mod 20) (m o 3)) (mod 20) 20 ∧ fld (m o 3) 4 16 < 2 ^ (s.sap 15).slots) ∧
    w.clocked = true ∧ w.awake = true ∧ (w.sap 15).writes = (3, owed) :: [] ∧ w.portClocked 15 = true ∧ (w.sap 15).enable = true ∧
    ({ w with clk := { switching := 0x8000 } } : State).portClocked 15 = false := by decide +kernel

/-- SAP_BIND of stream 9, IDLE, PARKED and QUEUED, to slot 1 of port 15, and away from it. -/
theorem test_meets_sap_bind :
    let b := fun j => beBytes 4 9 ++ beBytes 2 j ++ by_ [0, 2, 0, 0, 0, 0]
    let p := fun (st : SState) => { with9 (fun x => { x with st := st }) with saps := (ported id).saps }
    let q := ((p .idle).putEgr 9 { kind := 1, index := 1921 }).modSap 15 (fun t => { t with
      tbl := [(1, { bound := true, stream := 9, codec := 2 })] })
    (∀ st ∈ [SState.idle, .parked, .queued], (p st).Accepts (sapBindShape (b 1921)) (st5 12) 12 ∧
      ((p st).stream 9).staged = false ∧ ((p st).stream 9).stall = tgt (st5 12)) ∧ 1921 / 128 = 15 ∧
    ((p .idle).sap 15).bindBad 1 0 2 false = false ∧ (((p .idle).sap 15).slot 1).bound = false ∧ ((p .idle).sap 15).enable = true ∧
    q.Accepts (sapBindShape (b 0xFFFF)) (st5 12) 12 ∧ (q.egr 9).kind = 1 ∧ ((q.sap 15).slot 1).stream = 9 := by decide +kernel

/-- Frame syncs on port 15: a slave's frame of a right and of a wrong length, a mask pending for one sync and for two, the
eighth right frame of a muted port, a failed module's frame; the watchdog; a muted period. -/
theorem test_meets_frame_sync :
    let s := ported (fun t => { t with running := true, synced := true, pend := 3, act := 1, count := some 1 })
    let slave := ported (fun t => { t with master := false, running := true, synced := true, count := some 0 })
    let mute := ported (fun t => { t with running := true, synced := true, wdLive := true, good := 7, act := 3 })
    let taken := ported (fun t => { t with running := true, next := [none, some 5] })
    let dark := ported (fun t => { t with wdLive := true })
    let fail := { mute with clerk := { failed := some 3 } }
    s.clocked = true ∧ s.awake = true ∧ (s.sap 15).enable = true ∧ s.clk.switching.getLsbD 15 = false ∧
    (s.sap 15).count = some 1 ∧ (slave.sap 15).count = some 0 ∧ slave.jtag.hub.takesPins = false ∧
    32 = (slave.sap 15).slots * (slave.sap 15).bits ∧ 33 ≠ (slave.sap 15).slots * (slave.sap 15).bits ∧
    (mute.sap 15).wdLive = true ∧ 7 ≤ (mute.sap 15).good ∧ (mute.sap 15).cs = false ∧ (mute.sap 15).ctrlNext = none ∧
    (slave.sap 15).synced = true ∧ (mute.sap 15).running = true ∧ (dark.sap 15).running = false ∧ dark.clerk.failed = none ∧
    ((taken.sap 15).next.filter Option.isSome).length = 1 ∧ (taken.sap 15).wdLive = false ∧
    (s.sap 15).next = [] ∧ (s.sap 15).tbl = [] ∧ s.portClocked 15 = true ∧ slave.portClocked 15 = true ∧ (s.crierSrc 11).ring = [] ∧
    (mute.sap 15).act.getLsbD 1 = true ∧ fail.clerk.failed ≠ none ∧ (s.sap 15).wdLive = false ∧ mute.clerk.failed = none := by
  decide +kernel

/-- SAP_CONFIG of a port that masks wait on; a frame sync with bits of the frame before on DOUT; the watchdog of a port that had a
sync, with driven and undriven slots. -/
theorem test_meets_frames_sent :
    let w := ported (fun t => { t with writes := [(3, owed)] })
    let b := by_ [15, 1, 0, 0, 2, 32, 1, 0] ++ beBytes 4 48000
    let s := ported (fun t => { t with running := true, synced := true, act := 1, dout := [none, some 3] })
    w.Accepts (sapConfigShape (mod 12) b) (mod 12) 12 ∧ (w.sap 15).bound = [] ∧ (w.sap 15).writes ≠ [] ∧
    (s.sap 15).enable = true ∧ (s.sap 15).synced = true ∧ (s.sap 15).act.getLsbD 0 = true ∧ (s.sap 15).act.getLsbD 1 = false ∧
    (s.sap 15).cs = false ∧ (s.sap 15).mode = 2 ∧ (0 : Nat) < (s.sap 15).slots ∧ (15 : Nat) < (s.sap 15).bits ∧
    ((ported id).sap 15).synced = false ∧ (s.sap 15).next = [] := by decide +kernel

namespace Test

/-- Stream 9's egress entry: μ-law packets of 20 ms at 8,000 Hz by RTP link 1 or by session 1, with the samples of one. -/
def sounding (kind : Nat) (up : Bool) : State :=
  let buf : EgrBuf := { pos := 0, samples := List.replicate 160 (5, 0), floor := false }
  { with9 (fun x => { x with st := .resident }) with
    egress := [(9, { stall := 5, kind := kind, index := 1, rVoice := 8000, ptime := 20, seqBase := 0xFFFF, bufs := [buf] })]
    nets := [(1, { up := up, cfg := 1 })] }

end Test

/-- RTP_PACKET_SEND with a link, with the other one by fail-over, and with none; AUDIO on an open session and on one gone. -/
theorem test_meets_samples :
    let s := sounding 0 true
    let over_ := { sounding 0 false with nets := [(0, { up := true, cfg := 1 }), (1, { cfg := 5 })] }
    let a := sounding 2 true
    s.clocked = true ∧ s.awake = true ∧ s.clerk.failed = none ∧ (s.egr 9).kind = 0 ∧ (s.egr 9).ready = true ∧ (s.stream 9).st ≠ .free ∧
    s.egressPort 1 = some 1 ∧ (s.net 1).paused.getLsbD (bits (s.net 1).qos.toNat 5 3) = false ∧ over_.egressPort 1 = some 0 ∧
    ({ s with nets := [(1, { up := true, cfg := 1, paused := 0xFF })] } : State).egressPort 1 = some 1 ∧
    (sounding 0 false).egressPort 1 = none ∧ (a.egr 9).kind = 2 ∧ (a.egr 9).ready = true ∧ (a.sess 1).st = .opened ∧
    (a.sess 1).gen = (a.egr 9).gen ∧ ((a.modSess 1 (fun q => { q with gen := 1 })).sess 1).gen ≠ (a.egr 9).gen ∧
    (∃ p, over_.egressPort 1 = some p ∧ (over_.net p).paused = 0) ∧
    ((a.modSess 1 (fun q => { q with st := .dead })).sess 1).st ≠ .opened := by decide +kernel

theorem test_meets_links :
    let s := sounding 0 true
    let d := sounding 0 false
    s.clocked = true ∧ s.awake = true ∧ (s.net 1).up = true ∧ (s.crierSrc 15).ring.length < 65536 ∧ d.power.phase = .up ∧
    (d.net 1).cfg.getLsbD 0 = true ∧ (d.net 1).up = false ∧ d.lanesTaken 1 = false := by decide +kernel

/-! ## Flash -/

namespace Test

/-- The body of LIB_WRITE. -/
def part (entry off total commit : Nat) (data : List Byte) : List Byte :=
  beBytes 4 entry ++ beBytes 8 off ++ beBytes 8 total ++ by_ [commit, 0, 0, 0] ++ data

/-- The image of a base package, and module state in which entry 0 holds its first 16 bytes for session 0. -/
def base0 : List Byte := pkg 0 (List.replicate 32 0) []

def begun : State :=
  { up with
    sessions := [(0, sess 3 none)]
    flash := { lib := [(0, { used := true, total := 256, bytes := base0.take 16, owner := (0, 0) })] } }

end Test

/-- LIB_WRITE that creates an entry, that continues one and that commits it; the tally holds just what it draws. -/
theorem test_meets_lib_write :
    let b := part (2 ^ 32 - 1) 0 256 0 (base0.take 16)
    let c := part 0 16 256 1 (base0.drop 16)
    let s := { up with sessions := [(0, sess 3 none)] }
    s.Accepts (libWriteShape (mod 40) b) (mod 40) 40 ∧ b.length = 40 ∧ 16 ≤ (256 : Nat) ∧ (256 : Nat) ≤ libMax ∧
    lowest 65536 (fun i => !(s.lib i).used) = some 0 ∧ (libFit s.libExtents 256).isSome = true ∧ s.flash.readOnly = false ∧
    libDraw 16 = 1 ∧ libDraw 16 ≤ s.flash.tally ∧ c.length = 264 ∧
    begun.Accepts (libWriteShape (mod 264) c) (mod 264) 264 ∧ (begun.lib 0).used = true ∧ (begun.lib 0).erasing = false ∧
    (begun.lib 0).ready = false ∧ (begun.lib 0).total = 256 ∧ (begun.lib 0).owner = (0, (begun.sess 0).gen) ∧
    (begun.lib 0).bytes.length = 16 ∧ ((begun.lib 0).bytes ++ base0.drop 16).length = 256 ∧
    imageCheck ((begun.lib 0).bytes ++ base0.drop 16) false = none := by decide +kernel

theorem test_meets_library :
    let s := begun.putLib 1 { used := true, ready := true, total := 256, bytes := base0 }
    let e := s.putLib 1 { used := true, ready := true, total := 256, bytes := base0, erasing := true }
    s.Accepts (libListShape (beBytes 8 0)) (mod 8) 8 ∧ s.Accepts (libEraseShape (mod 4) (beBytes 4 1)) (mod 4) 4 ∧
    (s.lib 1).used = true ∧ (s.lib 1).erasing = false ∧ s.libInUse 1 = false ∧ s.clocked = true ∧ s.awake = true ∧
    (e.lib 1).erasing = true ∧ (s.lib 0).used = true ∧ (s.lib 0).erasing = false ∧ (s.lib 0).ready = false := by decide +kernel

/-- The clauses of a scrubbed page at the ends of their ranges (its block's data is 90 days old to the cycle, and a cycle
younger), a page past the correction limit, the last spare block, an orphan, and the boot scrub. -/
theorem test_meets_flash_upkeep :
    let g : ScrubPage := { (default : ScrubPage) with channel := 7, block := 131071, corrBits := 72, retries := 4, readable := true }
    let bad : ScrubPage := { g with readable := false, entry := some 0 }
    let s := begun.putPark 9 { st := .orphan, gen := 3 }
    let at_ := fun n => { s with now := n }
    let due := fun (u : State) (x : ScrubPage) => 72 < x.corrBits ∨ 4 < x.retries ∨ 90 * dayCycles ≤ u.now - (u.flash.wear.blk x.block).since
    let few := { s with flash := { s.flash with spares := 1 } }
    s.clocked = true ∧ s.awake = true ∧ (s.park 9).st = .orphan ∧ g.wf = true ∧ bad.wf = true ∧ { g with corrBits := 121 }.wf = false ∧
    ¬due (at_ (90 * dayCycles - 1)) g ∧ due (at_ (90 * dayCycles)) g ∧ due s { g with corrBits := 73 } ∧ due s { g with retries := 5 } ∧
    bad.readable = false ∧ few.flash.spares ≤ 1 ∧ 1 < { few.flash with spares := 2 }.spares ∧ bad.rebuilt = false ∧
    (s.lib 0).used = true ∧
    s.flash.bootScrub = true ∧ (s.crierSrc 12).ring.length < 65536 := by decide +kernel

/-! ## Security -/

namespace Test

/-- Credential slot 1 is set, a challenge of level 1 is in force, and the attestation key is ready. -/
def guarded : State :=
  { up with
    sessions := [(0, sess 3 none)]
    sec := { attestReady := true, issued := [(1, 1), (2, 2)], nextCh := 3, challenge := some { id := 1, level := 1, nonce := 5 } }
    flash := { cfg := { creds := [{}, { ver := 1 }, {}] } } }

end Test

/-- ATTEST of page 0 and of page 1 of a kept report; UNLOCK_CHALLENGE of both levels. -/
theorem test_meets_attest :
    let b := fun page id => beBytes 2 page ++ by_ [0, 0] ++ beBytes 4 id ++ List.replicate 32 0
    let k : Kept := { id := 4, bytes := List.replicate 1600 1 }
    let s := guarded.modSess 0 (fun q => { q with report := some k })
    guarded.Accepts (attestShape (b 0 0)) (mod 40) 40 ∧ guarded.sec.attestReady = true ∧
    s.Accepts (attestShape (b 1 4)) (mod 40) 40 ∧ (s.sess 0).report = some k ∧ 1 < (reportPage (s.maxBody 0) k 1).2 ∧
    s.clocked = true ∧ s.awake = true ∧
    (∀ l ∈ [1, 2], guarded.Accepts (unlockChallengeShape (mod 4) (by_ [l, 0, 0, 0])) (mod 4) 4) ∧
    guarded.sec.entropyFail = false ∧ (guarded.cred 1).ver ≠ 0 := by decide +kernel

/-- UNLOCK_RESPONSE: a first part and the last one. Whether the content verifies is the host's (State.unlockOk), and the two
clauses that ask it take both answers. -/
theorem test_meets_unlock :
    let n := contentBytes 1
    let b := fun off (data : List Byte) => beBytes 4 1 ++ beBytes 2 off ++ beBytes 2 n ++ data
    let s := guarded
    let c : Challenge := { id := 1, level := 1, nonce := 5, got := List.replicate (n - 1) 0 }
    let t := { s with sec := { s.sec with challenge := some c } }
    s.Accepts (unlockResponseShape (b 0 (by_ [0])) s) (mod 9) 9 ∧ tget 0 s.sec.issued 1 ≠ 0 ∧ s.sec.lockout = false ∧
    1 < n ∧ t.Accepts (unlockResponseShape (b (n - 1) (by_ [0])) t) (mod 9) 9 ∧ c.got.length = n - 1 ∧
    (c.got ++ by_ [0]).length = n := by decide +kernel

/-- FW_STAGE of a first part and of the last part, its image's signature aside (fwCheck); FW_COMMIT in both modes; the end of
a probation. -/
theorem test_meets_firmware :
    let b := fun off data => beBytes 8 off ++ beBytes 8 32 ++ beBytes 4 0 ++ List.replicate data (1 : Byte)
    let s := guarded
    let t := { s with now := 60 * Config.ctPerSecond - 1, fw := { part := List.replicate 16 1, partTotal := 32, partOwner := some (0, 0) } }
    let again := { s with fw := { staged := some ⟨7, 2, 1, true⟩, committed := true }, flash := { s.flash with probation := some 1 } }
    let c := { s with fw := { staged := some ⟨7, 2, 1, true⟩ } }
    let p := { s with flash := { s.flash with probation := some 0 }, fw := { greeted := true } }
    s.Accepts (fwStageShape (mod 36) (b 0 16)) (mod 36) 36 ∧ (32 : Nat) ≤ fwMax ∧ fwDraw 16 ≤ s.flash.tally ∧
    t.Accepts (fwStageShape (mod 36) (b 16 16)) (mod 36) 36 ∧ t.fw.part.length = 16 ∧ t.fw.partOwner = some (0, (t.sess 0).gen) ∧
    t.now - t.fw.partAt < 60 * Config.ctPerSecond ∧ s.flash.readOnly = false ∧ again.Accepts (fwStageShape (mod 36) (b 0 16)) (mod 36) 36 ∧
    again.flash.probation = some (1 - again.fw.running) ∧
    (∀ m ∈ [0, 1], c.Accepts (fwCommitShape (mod 36) (beBytes 32 7 ++ by_ [m, 0, 0, 0])) (mod 36) 36) ∧
    c.fw.staged.map (·.hash) = some 7 ∧ c.holdingStalls = [] ∧ c.fw.restart = none ∧
    p.flash.probation = some p.fw.running ∧ p.fw.greeted = true ∧ p.clerk.failed = none ∧ p.clocked = true ∧ p.awake = true := by
  decide +kernel

theorem test_meets_credentials :
    let s := guarded
    (∀ i ∈ [0, 2], ∀ c ∈ [false, true], s.Accepts (regWriteShape (mod 48) (credBody i c)) (mod 48) 48) ∧ 4 ≤ s.flash.tally ∧
    s.Accepts (regWriteShape (mod 48) (writeBody "SEC_CFG_SAVE" 1)) (mod 48) 48 ∧
    s.Accepts (auditReadShape (beBytes 8 0 ++ beBytes 2 16 ++ by_ [0, 0, 0, 0, 0, 0])) (mod 16) 16 := by decide +kernel

/-! ## Registers and clocks -/

namespace Test

/-- REG_WRITE's and REG_READ's body for a name of the tables is accepted, the name is a register's, and its clock runs. -/
def reaches (s : State) (n pat : String) (i : List Nat) (v : Nat) : Bool :=
  decide (s.Accepts (regWriteShape (mod 48) (writeBody n v)) (mod 48) 48) && decide (regName (writeBody n v) = some (pat, i)) &&
    !isDebug (writeBody n v) && (regDef pat i).any (fun d => !(d.view i).stop s)

/-- The body of REG_READ. -/
def readBody (n : String) (index count : Nat) : List Byte := nameBytes n ++ beBytes 4 index ++ beBytes 2 count ++ by_ [0, 0]

/-- Every writable register of the statement by a name, its pattern and indices, and a value it takes. -/
def writable : List (String × String × List Nat × Nat) :=
  [("NET1_CFG", "NET#_CFG", [1], 1280 * 2 ^ 16), ("NET0_QOS", "NET#_QOS", [0], 2 ^ 26 - 1),
   ("NET1_PORTS", "NET#_PORTS", [1], 2 ^ 32 - 1 - 2 ^ 16), ("NET0_IPV4", "NET#_IPV#", [0, 4], 2 ^ 32 - 1),
   ("NET0_IPV4_MASK", "NET#_IPV#_MASK", [0, 4], 0), ("NET1_IPV4_GW", "NET#_IPV#_GW", [1, 4], 7),
   ("NET0_IPV6_ADDR3", "NET#_IPV#_ADDR#", [0, 6, 3], 2 ^ 32 - 1), ("NET1_IPV6_GW0", "NET#_IPV#_GW#", [1, 6, 0], 1),
   ("NET0_IPV6_PREFIX", "NET#_IPV#_PREFIX", [0, 6], 128), ("NET1_STATUS", "NET#_STATUS", [1], 7),
   ("PRS15_PRT_Q31_LIMIT", "PRS#_PRT_Q#_LIMIT", [15, 31], 1024), ("SS3_PRT_Q0_LIMIT", "SS#_PRT_Q#_LIMIT", [3, 0], 1),
   ("ME0_PRT_Q7_LIMIT", "ME#_PRT_Q#_LIMIT", [0, 7], 1), ("HUB_PRT_Q63_LIMIT", "HUB_PRT_Q#_LIMIT", [63], 1024),
   ("ME3_GD11_STATUS", "ME#_GD#_STATUS", [3, 11], 7), ("SS3_STATUS", "SS#_STATUS", [3], 1), ("SAP15_CTRL", "SAP#_CTRL", [15], 3),
   ("SAP0_STATUS", "SAP#_STATUS", [0], 0x7F), ("HUB_FLASH_STATUS", "HUB_FLASH_STATUS", [], 0xF),
   ("CLK_GATE_EVENT", "CLK_GATE_EVENT", [], 0x1FF0001), ("SEC_STATUS", "SEC_STATUS", [], 0x1FF),
   ("SEC_CRED_STAGE5", "SEC_CRED_STAGE#", [5], 7), ("PWR_CAP_CTRL", "PWR_CAP_CTRL", [], 48), ("THM_STATUS", "THM_STATUS", [], 3),
   ("MOD_ALERT_CTRL", "MOD_ALERT_CTRL", [], 0x3F)]

end Test

/-- REG_WRITE: each register the statement names, a value outside a range and one outside a mask, one that cannot be written,
a nonzero index, and a press whose clock is off. -/
theorem test_meets_reg_write :
    let s := ({ guarded with clk := { on := [15] } } : State).putChannel 47 { trained := true }
    let act := fun (n : String) => ((netWrite n [] 0).isSome || (limitWrite n [] 0).isSome || (unitWrite n [] 0).isSome ||
      (systemWrite (mod 48) n [] 0 s).isSome)
    (∀ x ∈ writable, reaches s x.1 x.2.1 x.2.2.1 x.2.2.2 = true) ∧ netCfgOk (1280 * 2 ^ 16) = true ∧
    reaches s "PWR_CAP_CTRL" "PWR_CAP_CTRL" [] 101 ∧ reaches s "THM_STATUS" "THM_STATUS" [] 4 ∧
    reaches s "PWR_POWER" "PWR_POWER" [] 0 ∧ act "PWR_POWER" = false ∧ act "PWR_CAP_CTRL" = true ∧
    s.Accepts (regWriteShape (mod 48) (nameBytes "PWR_CAP_CTRL" ++ beBytes 4 1 ++ beBytes 4 0 ++ beBytes 8 48)) (mod 48) 48 ∧
    (regDef "PRS#_PRT_Q#_LIMIT" [0, 0]).any (fun d => (d.view [0, 0]).stop s) = true := by decide +kernel

/-- REG_READ of a register, of a window at its end, and of a press's with its clock off; COUNTERS_READ of groups whose clock
runs and of one whose clock is off. -/
theorem test_meets_reg_read :
    let s := guarded
    let ok := fun (n pat : String) (i : List Nat) (index count : Nat) =>
      s.Accepts (regReadShape (readBody n index count)) (mod 40) 40 ∧ regName (readBody n index count) = some (pat, i) ∧
        isDebug (readBody n index count) = false
    ok "PWR_POWER" "PWR_POWER" [] 0 1 ∧ ok "HUB_RSMP_COEF" "HUB_RSMP_COEF" [] 1191 16 ∧ ok "PRS0_RNG_BLOCKS" "PRS#_RNG_BLOCKS" [0] 0 1 ∧
    (regDef "PWR_POWER" []).any (fun d => !(d.view []).stop s && decide ((d.view []).window = none)) = true ∧
    (regDef "HUB_RSMP_COEF" []).any (fun d => decide ((d.view []).window = some 1207 ∧ 16 * (d.view []).width ≤ s.maxBody 0)) = true ∧
    (regDef "PRS#_RNG_BLOCKS" [0]).any (fun d => (d.view [0]).stop s) = true ∧
    s.Accepts (countersReadShape (by_ [8, 0, 0, 0])) (mod 4) 4 ∧ s.Accepts (countersReadShape (by_ [4, 15, 0, 0])) (mod 4) 4 ∧
    0 < groupUnits 8 ∧ 15 < groupUnits 4 ∧ s.groupOff 8 0 = false ∧ s.groupOff 4 15 = true := by decide +kernel

/-- An export image of two entries: one read with the other left, and the last one. -/
theorem test_meets_export_read :
    let s := guarded.putImg 3 { held := true, bytes := List.replicate 1024 0, read := [0] }
    let t := guarded.putImg 3 { held := true, bytes := List.replicate 1024 0 }
    s.Accepts (exportReadShape 3 1 1) (mod 40) 40 ∧ t.Accepts (exportReadShape 3 0 1) (mod 40) 40 ∧ (s.img 3).held = true ∧
    (insertNat (s.img 3).read 1).length = 2 ∧ (insertNat (t.img 3).read 0).length = 1 ∧ 512 * 2 ≤ s.maxBody 0 ∧
    s.clocked = true ∧ s.awake = true := by decide +kernel

/-- An orphan's image: a read with entries left, and the one that reads the last. -/
theorem test_meets_orphan_read :
    let s := guarded.putPark 9 { st := .orphan, gen := 3 }
    let last := guarded.putPark 9 { st := .orphan, gen := 3, read := List.range 1023 }
    s.Accepts (exportReadShape (2 ^ 31 + 9) 1 1) (mod 40) 40 ∧ last.Accepts (exportReadShape (2 ^ 31 + 9) 1023 1) (mod 40) 40 ∧
    (s.park 9).st = .orphan ∧ 1023 + 1 ≤ 1024 ∧ 512 * 1 ≤ s.maxBody 0 ∧ (insertNat (s.park 9).read 1).length ≠ 1024 ∧
    (insertNat (last.park 9).read 1023).length = 1024 ∧ s.Accepts (exportReadShape 3 0 1) (mod 40) 40 ∧ (s.img 3).held = false ∧
    (s.park 8).st ≠ .orphan ∧ s.Accepts (exportReadShape (2 ^ 31 + 8) 0 1) (mod 40) 40 := by decide +kernel

/-- Node 271 turned on, off while unused, and off while a placement uses it. -/
theorem test_meets_gates :
    let s := guarded
    let u := { s with clk := { on := [15, 271], used := [271] } }
    s.Accepts (regWriteShape (mod 48) (gateBody 271 true)) (mod 48) 48 ∧ s.Accepts (regWriteShape (mod 48) (gateBody 271 false)) (mod 48) 48 ∧
    u.Accepts (regWriteShape (mod 48) (gateBody 271 false)) (mod 48) 48 ∧ s.nodeUsed 271 = false ∧ u.nodeUsed 271 = true ∧
    (271 - 16) / 16 = 15 := by decide +kernel

theorem test_meets_measurement :
    let b := by_ [1, 0, 10, 0]
    let busy := { guarded with clk := { fmBusy := true, fmDefer := some { owed with opcode := 0x72 } } }
    let mux := { guarded with clk := { switching := 0x8000, ctSwitch := true } }
    let asks := by_ (0x70 :: List.replicate 15 0) ++ readBody "PRS15_RNG_BLOCKS" 0 1
    let ring : State := guarded.modSess 0 (fun q => { q with ring := [{ seq := 1, bytes := asks }] })
    let c := (ring.commandBytes 0 1).getD []
    let edge := by_ (0x73 :: List.replicate 15 0) ++ by_ [6, 47, 0, 0]
    guarded.Accepts (freqMeasureShape b) (mod 4) 4 ∧ guarded.clk.fmBusy = false ∧ busy.Accepts (freqMeasureShape b) (mod 4) 4 ∧
    busy.clocked = true ∧ busy.awake = true ∧ busy.clk.fmBusy = true ∧ mux.clk.switching.getLsbD 15 = true ∧
    mux.clk.muxed.getLsbD 15 = false ∧ 15 ∉ mux.clk.sapWait ∧ mux.clk.ctSwitch = true ∧ mux.clk.ctDead = false ∧
    ring.clerkUp = true ∧ (ring.commandBytes 0 1).isSome = true ∧ diagDie c = some 15 ∧ diagDie edge = some 23 ∧
    diagDie (by_ (0x70 :: List.replicate 15 0) ++ readBody "PWR_POWER" 0 1) = none ∧ ring.pressOn 15 = false ∧
    ({ ring with clk := { on := [15] } } : State).pressOn 15 = true := by decide +kernel

/-! ## J2 and boundary scan (R475, R485) -/

/-- Table 21.3's note: port 1 lane 3 receive sits at positions 47 and 48, between ground positions 46 and 49. -/
theorem test_j2_positions :
    [46, 47, 48, 49].map j2At = [.ground, .rx 1 3 true, .rx 1 3 false, .ground] ∧ j2At 2 = .tx 0 0 true ∧ j2At 113 = .din 15 ∧
    j2At 115 = .ground ∧ j2At 122 = .faultN ∧ j2At 129 = .slotId 3 := by decide

/-- R487's example: 26 bits load EXTEST into the hub and BYPASS into both retimers; of 158 bits, bit k lands in hub cell k, and
cells 33, 34 and 35 are DOUT, its control and DIN of SAP3. -/
theorem test_boundary_example :
    let cells := (List.range 158).map (fun k => decide (k = 33 ∨ k = 34))
    irScan (List.replicate 10 false ++ List.replicate 16 true) = [(.hub, .extest), (.retimer1, .bypass), (.retimer0, .bypass)] ∧
    (dataScan (List.replicate 158 false) cells).2.take 156 = cells.take 156 ∧
    [33, 34, 35].map hubCell = [some (.dout 3, .output), some (.dout 3, .control), some (.din 3, .input)] ∧
    ({ hub := { ir := .extest, update := cells.take 156 } } : Jtag).pinOr (.dout 3) none = some true ∧
    hubCell 155 = some (.slotId 3, .input) ∧ hubCell 156 = none := by decide +kernel

/-! ## Resets, power and heat -/

/-- Resets asked for, forced and not, with and without a held stream; a press and a memory-edge die. -/
theorem test_meets_resets :
    let s := guarded
    let sh := fun kind die force => regWriteShape (mod 48) (resetBody kind die force)
    let held := { with9 id with power := { phase := .up } }
    let die := fun d => { s with power := { s.power with dieWait := [(d, true)] } }
    (∀ k ∈ [1, 2], ∀ f ∈ [false, true], s.Accepts (sh k 0 f) (mod 48) 48 ∧ held.Accepts (sh k 0 f) (mod 48) 48) ∧
    s.fw.restart = none ∧ s.power.dieWait = [] ∧ s.holdingStalls = [] ∧ held.holdingStalls = [5] ∧
    (∀ d ∈ [0, 15, 20, 23], s.Accepts (sh 3 d false) (mod 48) 48 ∧ (die d).dieInReset d = true) ∧
    s.pressRow 15 = none ∧ (s.press 15).retired = false ∧ ((s.putPress 15 { retired := true }).press 15).retired = true ∧
    (let t : State := { hosted with power := { phase := .up, dieWait := [(4, true)] } }.modRow 2 (fun w => { w with st := .building })
     t.clocked = true ∧ t.awake = true ∧ t.dieInReset 4 = true ∧ t.pressRow 4 = some 2 ∧ (t.row 2).st = .building) ∧
    s.presentRows = [] ∧ s.clocked = true ∧ s.awake = true := by decide +kernel

/-- A press whose engine still moves, and one that may begin its reset; Palhani's write that waits for a die; a channel that fails
to train. -/
theorem test_meets_die_resets :
    let s := guarded
    let busy := s.putEngine 15 { issued := [flown] }
    let m : HeldMove := { addr := 512, len := 4, bytes := some [1, 2, 3, 4] }
    let w : State := { s with power := { s.power with dieWait := [(20, true)] }, heldMoves := [m] }
    busy.Accepts (regWriteShape (mod 48) (resetBody 3 15 false)) (mod 48) 48 ∧ busy.pressRow 15 = none ∧
    (busy.engine 15).issued ≠ [] ∧ (s.engine 15).issued = [] ∧ s.power.asked = none ∧ s.fw.restart = none ∧ s.power.dieWait = [] ∧
    w.clocked = true ∧ w.awake = true ∧ w.dieInReset 20 = true ∧ w.power.dieWait = [(20, true)] ∧ w.heldMoves = [m] ∧
    m.bytes = some [1, 2, 3, 4] ∧ m.len = 4 ∧ w.channels = [] ∧ 12 * (20 - 20) + 0 ∈ [0] ∧ 12 * (20 - 20) + 11 ∉ [0] := by decide +kernel

/-- The states in which each reset of the statement happens. -/
theorem test_meets_cold_resets :
    let r := fun k => { guarded with fw := { restart := some k } }
    guarded.power.phase ≠ .off ∧ guarded.jtag.hub.takesPins = false ∧
    (∀ k ∈ [0, 1, 2], (r k).clocked = true ∧ (r k).awake = true ∧ (r k).fw.restart = some k ∧ (r k).clerk.failed = none) ∧
    twf ({} : Row) hosted.rows = true := by decide +kernel

/-- RESET_N without power, after a trip, under boundary scan and otherwise; the warm reset's tables. -/
theorem test_meets_reset_pins :
    let p := fun (ph : Phase) (ir : TapIr) => ({ guarded with power := { phase := ph }, jtag := { hub := { ir := ir } } } : State)
    (p .off .idcode).power.phase = .off ∧ (p .tripped .extest).power.phase = .tripped ∧ (p .up .extest).jtag.hub.takesPins = true ∧
    (p .up .highz).jtag.hub.takesPins = true ∧ (p .up .idcode).jtag.hub.takesPins = false ∧
    twf ({} : Sap) (ported id).saps = true ∧ twf ({} : Row) hosted.rows = true := by decide +kernel

/-- The boot's phases; three failed entropy tests and two; an image to run, one to fall back to, and none. -/
theorem test_meets_boot :
    let p := fun ph => ({ power := { phase := ph, resetN := decide (ph ≠ .held) } } : State)
    let r := p .released
    let back := { r with flash := { probation := some 1, slots := [some ⟨0, 2, 0, true⟩, some ⟨0, 2, 0, false⟩] } }
    let none_ := { r with flash := { slots := [none, none] } }
    (p .off).power.phase = .off ∧ (p .held).clocked = true ∧ (p .held).power.phase = .held ∧ r.power.fpgmN = true ∧
    { r.power with fpgmN := false }.fpgmN = false ∧ (r.flash.probation.getD r.flash.perm) = 0 ∧ r.slotGood 0 = true ∧
    back.flash.probation.getD back.flash.perm = 1 ∧ back.slotGood 1 = false ∧ back.slotGood 0 = true ∧
    none_.slotGood 0 = false ∧ none_.slotGood 1 = false ∧ (p .booting).power.phase = .booting ∧
    (p .booting).jtag.hub.takesPins = false ∧ (p .started).power.phase = .started := by decide +kernel

/-- The boot: RESET_N high and low at POWER_UP; its release from a hold, outside one and under boundary scan; a maker's key that fails
the fused hash and one that does not; CTCLK still switching, and running on. -/
theorem test_meets_boot_steps :
    let p := fun (ph : Phase) (low : Bool) => ({ power := { phase := ph, resetN := !low } } : State)
    let scan : State := { p .held true with jtag := { hub := { ir := .extest } } }
    let b : BootResult := { (default : BootResult) with keyOk := true }
    let slow : State := { p .booting false with clk := { ctSwitch := true } }
    (p .off true).power.resetN = false ∧ (p .off false).power.resetN = true ∧ (p .held true).power.phase = .held ∧
    (p .up true).power.phase ≠ .held ∧ (p .up true).clocked = true ∧ (p .up true).jtag.hub.takesPins = false ∧
    scan.tapUp = true ∧ scan.clocked = true ∧ scan.jtag.hub.takesPins = true ∧ b.keyOk = true ∧ { b with keyOk := false }.keyOk = false ∧
    slow.clk.ctSwitch = true ∧ slow.power.phase = .booting ∧ (p .booting false).clk.ctSwitch = false ∧ slow.clocked = true := by decide +kernel

/-- The cap bound, met and missed by one watt; temperatures at 95 °C, at 90 °C and a quarter below, and at 105 °C. -/
theorem test_meets_caps :
    let s := { guarded with power := { phase := .up, withhold := 1, cap := 48 } }
    let cap := 25 * min (min s.power.cap (463 * 54000 / 25000)) s.power.thermCap
    s.clocked = true ∧ s.awake = true ∧ cap < cap + 1 ∧ s.power.withhold < 512 ∧ 0 < s.power.withhold ∧
    (∃ t ∈ (380 : Int) :: List.replicate 24 0, (380 : Int) ≤ t) ∧ 48 ≤ s.power.base ∧ s.power.base ≤ 100 ∧
    (∀ t ∈ List.replicate 25 (359 : Int), t < 360) ∧ (∀ t ∈ (360 : Int) :: List.replicate 24 379, t < 380) ∧
    (∃ t ∈ (360 : Int) :: List.replicate 24 379, (360 : Int) ≤ t) ∧ (∃ t ∈ (420 : Int) :: List.replicate 24 0, (420 : Int) ≤ t) := by
  decide +kernel

theorem test_meets_failures : guarded.clocked = true ∧ guarded.awake = true ∧ guarded.clerk.failed = none ∧
    (∃ d, (440 : Int) ≤ tget 0 ({ temps := [(24, 440)] } : Power).temps d) ∧
    (∃ d, (420 : Int) ≤ tget 0 ({ temps := [(24, 420)], thermCap := 48 } : Power).temps d ∧
      ({ temps := [(24, 420)], thermCap := 48 } : Power).eff ≤ 48) ∧
    (guarded.crierSrc 0).ring.length < 65536 ∧ (hosted.press 4).retired = false ∧ hosted.pressRow 4 = some 2 :=
  ⟨rfl, rfl, rfl, ⟨24, by decide +kernel⟩, ⟨24, by decide +kernel⟩, by decide +kernel, rfl, by decide +kernel⟩

/-! ## Voxry Command Transport -/

namespace Test

/-- Where the host of session 0 sends from. -/
def host : Src := { port := 0, addr := BitVec.ofNat 128 (0xFFFF * 2 ^ 32 + 7), udp := 4000 }

/-- A message with its crc. -/
def msg (m : VctMsg) : VctMsg :=
  let m := { m with length := BitVec.ofNat 16 m.payload.length }
  { m with crc := crc32c (msgBytes m) }

/-- A message of session 0 with the number it expects. -/
def say (type : Byte) (payload : List Byte) : VctMsg :=
  msg { (default : VctMsg) with version := 7, type := type, stall := 0x4000, window := 4, epoch := 3, payload := payload }

/-- Session 0 opened by that host, with changes. -/
def talking (f : Session → Session) : State :=
  { hosted with sessions := [(0, f { (sess 3 none) with src := host, epoch := 3 })] }

end Test

/-- OPEN: a new session on stall 5 and on the module, a repeat, a wrong version, a FREE stall, and a DEAD session resumed. -/
theorem test_meets_open :
    let o := fun v epoch stall flags => msg { (default : VctMsg) with version := v, type := 7, stall := stall, epoch := epoch, flags := flags }
    let s := talking id
    let dead := talking (fun q => { q with st := .dead })
    let same := fun (q : Session) (e : BitVec 32) => q.src.addr = host.addr ∧ q.src.udp = host.udp ∧ q.epoch = e
    (∀ m ∈ [o 6 9 5 0, o 7 9 0x4000 0, o 7 3 0x4000 0, o 5 9 5 0, o 7 9 6 0, o 7 3 0x4000 2],
      m.type = 7 ∧ crcOk m = true ∧ headerClean m = true) ∧
    s.clocked = true ∧ s.power.phase = .up ∧ s.clerk.failed = none ∧ msgResume (o 6 9 5 0) = false ∧
    (∀ e ∈ s.sessions, ¬(e.2.st = .opened ∧ same e.2 9)) ∧ s.openTarget (o 6 9 5 0) = true ∧ s.openTarget (o 7 9 0x4000 0) = true ∧
    lowest Config.nSessions (fun k => decide ((s.sess k).st = .closed)) = some 1 ∧
    (s.sessions.find? (fun e => decide (e.2.st = .opened ∧ e.2.src.addr = host.addr ∧ e.2.src.udp = host.udp ∧
      e.2.epoch = 3))).map Prod.fst = some 0 ∧ s.openTarget (o 7 9 6 0) = false ∧
    (s.sess 0).st ≠ .dead ∧ msgResume (o 7 3 0x4000 2) = true ∧ (dead.sess 0).st = .dead ∧ same (dead.sess 0) 3 ∧ (dead.sess 0).version = 7 ∧
    dead.openTarget (o 7 3 0x4000 2) = true ∧
    openStall (o 7 3 0x4000 2) = (dead.sess 0).stall ∧ (o 7 3 0x4000 2).stall.toNat % 16384 = 0 := by decide +kernel

/-- CLOSE and ACK of a session; COMMAND with room in the ring and without, and a FEED of one chunk. -/
theorem test_meets_messages :
    let s := talking id
    let cmd := say 0 (by_ [0x10, 0, 0, 0, 0, 0, 0, 9, 0, 0, 0, 0, 0, 0, 0, 0])
    let feed := say 1 (beBytes 4 9 ++ beBytes 4 1 ++ beBytes 2 1 ++ List.replicate 22 0)
    let full := talking (fun q => { q with ring := List.replicate 16 { seq := 0, bytes := [] } })
    (∀ m ∈ [say 8 [], say 2 [], cmd, feed], crcOk m = true ∧ headerClean m = true ∧ s.sessionOf host m = some 0 ∧
      m.seq = (s.sess 0).rxNext) ∧ s.clocked = true ∧ s.power.phase = .up ∧ s.clerk.failed = none ∧
    (s.sess 0).txWait = [] ∧ (s.sess 0).rspWait = [] ∧ (s.sess 0).rxHeld = [] ∧ (s.sess 0).ring.length < 16 ∧
    16 ≤ cmd.payload.length ∧ fld cmd.payload 0 1 ∈ opcodes ∧
    16 ≤ (((full.popRx host cmd).takeAck 0 cmd).sess 0).ring.length ∧
    (parseChunks (feed.payload.length / 16) feed.payload).map List.length = some 1 := by decide +kernel

/-- A COMMAND shorter than 16 bytes, and one of no opcode, to an empty ring. -/
theorem test_meets_bad_commands :
    let s := talking id
    ∀ m ∈ [say 0 (by_ [0x10]), say 0 (by_ (0xFE :: List.replicate 15 0))],
      crcOk m = true ∧ headerClean m = true ∧ s.sessionOf host m = some 0 ∧ m.seq = (s.sess 0).rxNext ∧ m.type = 0 ∧
      ((s.popRx host m).takeAck 0 m |>.sess 0).ring = [] ∧ ((s.popRx host m).takeAck 0 m |>.sess 0).rspUsed < 16 ∧
      (m.payload.length < 16 ∨ fld m.payload 0 1 ∉ opcodes) := by decide +kernel

/-- The two forms of a COMMAND that is answered at once are each met. -/
theorem test_bad_command_forms : (by_ [0x10]).length < 16 ∧ ¬(by_ (0xFE :: List.replicate 15 0)).length < 16 ∧
    fld (by_ (0xFE :: List.replicate 15 0)) 0 1 ∉ opcodes := by decide +kernel

namespace Test

/-- Port 1 live, with its address. -/
def ported1 : State := { up with nets := [(1, { up := true, cfg := 3, ipv4 := 7, ports := 0x0000_1F40 })] }

/-- A frame to port 1 itself: its address is a free constant. -/
def frame (fcs : Bool) (body : FrameBody) : Frame := { fcsOk := fcs, dst := Config.mac 1, body := body }

end Test

/-- Frames: a bad FCS, a VCT datagram, an ARP request, a PFC frame that pauses vct_pcp and one that does not. -/
theorem test_meets_frames :
    let t := ported1.net 1
    let m := say 2 []
    ported1.clocked = true ∧ ported1.power.phase = .up ∧ t.live = true ∧ t.ipv4 ≠ 0 ∧ bits t.ports.toNat 15 0 = 8000 ∧
    t.cfg.getLsbD 1 = true ∧ t.cfg.getLsbD 3 = false ∧
    parseMsg (msgBytes { m with crc := 0 } |>.take 28 |>.append (beBytes 4 m.crc.toNat)) = some m ∧ crcOk m = true ∧
    m.type.toNat ∈ [0, 1, 2, 7, 8] ∧ { t with paused := 1 }.vctPaused = true ∧ { t with paused := 2 }.vctPaused = false := by decide +kernel

/-- The premises over a frame's fields: good ones for the port, of the first and the last length, and bad ones. -/
theorem test_meets_frame_shapes :
    let t := { ported1.net 1 with ipv6 := 8 }
    let plain := fun (f : Frame) => f.fcsOk = true ∧ f.lengthOk = true ∧ f.fragment = false ∧ f.options = false ∧ vlanOk t f = true
    let mine := fun (f : Frame) => frameForPort 1 f = true ∧ ipForPort t f.body = true
    let bodies := [FrameBody.arp 9 7, .nd 9 8, .echo4 9 7 [], .echo6 9 8 [], .udp4 9 7 4000 8000 8 true []]
    (frame false .other).fcsOk = false ∧ (∀ b ∈ bodies, plain (frame true b) ∧ mine (frame true b) ∧ (frame true b).read = frame true b) ∧
    plain (frame true (.pfc 1 [1])) ∧ { frame true .other with length := 64 }.lengthOk = true ∧
    { frame true .other with length := 9216 }.lengthOk = true ∧ { frame true .other with length := 9217 }.lengthOk = false := by
  have h : ported1.net 1 = { up := true, cfg := 3, ipv4 := 7, ports := 0x0000_1F40 } := by decide +kernel
  simp [h, frame, frameForPort, ipForPort, vlanOk, Frame.read, Frame.lengthOk, Frame.least]

/-- Frames that a port drops, UDP over IPv6 to it and to another port of it, a datagram whose crc is wrong, and PFC frames with a
VCT frame held. -/
theorem test_meets_dropped_frames :
    let t : NetPort := { up := true, cfg := 3, ipv4 := 7, ports := 0x0000_1F40, ipv6 := 8 }
    let f := frame true
    let m := say 2 []
    let wrong := { m with crc := m.crc + 1 }
    let held : NetPort := { t with paused := 1, held := [.vct 0 2 0 []] }
    { f .other with fragment := true }.fragment = true ∧ { f .other with options := true }.options = true ∧
    vlanOk { t with cfg := 11 } (f .other) = false ∧ isPfc (FrameBody.arp 9 7) = false ∧ ipForPort t (.echo4 9 6 []) = false ∧
    ipForPort t (.udp6 9 8 4000 8000 8 true []) = true ∧ (8000 : BitVec 16).toNat = bits t.ports.toNat 15 0 ∧
    (8001 : BitVec 16).toNat ≠ bits t.ports.toNat 15 0 ∧ crcOk wrong = false ∧ parseMsg [] = none ∧
    (held.held.filter (fun y => y.waits held)) ≠ [] ∧ (held.held.filter (fun y => y.waits { held with paused := 0 })) = [] ∧
    { t with cfg := 1 }.cfg.getLsbD 1 = false := by decide +kernel

/-- Timeouts: a message sent seven times again and one sent eight, an open and a DEAD session. -/
theorem test_meets_timeouts :
    let m := fun n => ({ seq := 4, type := 3, body := [], sentAt := 0, retx := n, rto := 1050000 } : TxMsg)
    let s := fun n => talking (fun q => { q with tx := [m n] })
    (∀ n ∈ [7, 8], (s n).clocked = true ∧ (s n).power.phase = .up ∧ (s n).clerk.failed = none ∧ ((s n).sess 0).st = .opened ∧
      ((s n).sess 0).tx.find? (fun x => decide (x.seq = 4)) = some (m n) ∧ (m n).sacked = false) ∧ (m 7).retx < 8 ∧ 8 ≤ (m 8).retx ∧
    ((talking (fun q => { q with st := .dead })).sess 0).st = .dead := by decide +kernel

/-- Feed status records to send, a crier record that one session takes and one behind it, a press probed, and a heartbeat
that a session has not sent. -/
theorem test_meets_leaving :
    let r : CrierRec := { seq := 0, source := 0, status := .ok, event := 0x0040 }
    let s := talking (fun q => { q with feedRecs := [⟨9, false, 0, .ok, 2, 1, 0⟩], hbPeriod := 1 })
    let c := s.putCrierSrc 11 { ring := [r, r] }
    let on := { s with clk := { on := [15] } }
    let stuck := (on.putEngine 15 { issued := [{ flown with dst := addrWord 2 14 0, at_ := addrWord 2 14 0 }] })
    s.clocked = true ∧ s.clerkUp = true ∧ (s.sess 0).st = .opened ∧
    (s.sess 0).feedRecs.take (min 64 ((s.maxBody 0 + 16) / 16)) ≠ [] ∧ (c.crierSrc 11).ring = r :: [r] ∧ c.takers r = [0] ∧
    (recordBE r).length ≤ min 9216 (c.maxBody 0 + 16) ∧ s.awake = true ∧ s.clerk.failed = none ∧ (s.press 15).retired = false ∧
    (∀ e, e < Config.nEngines → on.engineWaits e = false) ∧ 15 ∈ on.clk.on ∧ (on.press 15).retired = false ∧
    stuck.engineWaits 15 = true ∧
    0 < (s.sess 0).hbPeriod ∧ (s.sess 0).hbSent ≠ ({ s with clerk := { hb := 1 } }).clerk.hb.toNat := by decide +kernel

/-- The crier: no session takes the record, two module sessions take it, and a record between that none takes. -/
theorem test_meets_crier :
    let r : CrierRec := { seq := 0, source := 0, status := .ok, event := 0x0040 }
    let other : CrierRec := { r with stall := some 6 }
    let s := ({ up with sessions := [(0, sess 3 none), (2, sess 1 none)] } : State).putCrierSrc 11 { ring := [other, r, other, r] }
    s.clocked = true ∧ s.clerkUp = true ∧ s.takers r = [0, 2] ∧ s.takers { other with stall := some 6 } ≠ [0, 2] ∧
    (recordBE r).length ≤ ([0, 2].map (fun k => s.maxBody k + 16)).foldl min 9216 ∧
    (s.crierSrc 11).ring = [other] ++ r :: [other, r] := by decide +kernel

/-! ## Boundary scan and test -/

/-- The TAP with power, each debug level, factory programming and not, and a port whose link the retimer takes. Whether an
image is good is the host's (fwGood), and both clauses are stated. -/
theorem test_meets_test_access :
    let d := fun n => { up with sec := { debug := n } }
    let f := { up with power := { phase := .factory } }
    up.clocked = true ∧ up.tapUp = true ∧ up.awake = true ∧ (sounding 0 true).awake = true ∧ ((sounding 0 true).net 1).up = true ∧
    (d 0).sec.debug = 0 ∧ (d 1).sec.debug ≠ 0 ∧ (d 1).sec.debug < 2 ∧ 2 ≤ (d 2).sec.debug ∧ f.power.phase = .factory ∧
    f.clocked = true ∧ fwGood [] = false ∧ up.power.phase ≠ .factory := by decide +kernel

/-- The TAP's chain where RESET_N is high and the module is not held, and low and held; a pin that comes back low while the module
runs, and high while it is held; an image written before. -/
theorem test_meets_pin_levels :
    let p := fun (ph : Phase) (high : Bool) => ({ power := { phase := ph, resetN := high } } : State)
    let agrees := fun (s : State) => s.power.resetN = true ↔ s.power.phase ≠ .held
    agrees (p .up true) ∧ agrees (p .held false) ∧ ¬agrees (p .up false) ∧ ¬agrees (p .held true) ∧ (p .held false).tapUp = true ∧
    (p .held false).clocked = true ∧ (p .up false).tapUp = true ∧ (p .held true).tapUp = true ∧
    up.lanesTaken 0 = false ∧ up.lanesTaken 1 = false ∧
    ({ power := { phase := .factory, programmed := true } } : State).power.programmed = true := by decide +kernel

end Sys2Proof.Machine
end

section
/-! SUPPORT. VOICE_UNLOAD (R44, R321): what unloading a voice does to the tables, the two answers that the command's own
checks give for a loaded voice of its stall, and the obligation. -/

namespace Sys2Proof.Machine

/-! ## Unloading a voice -/

/-- A change of each listed entry is a change of every reading, where it leaves the default as it is. -/
theorem tget_mapEntries {α : Type} (d : α) (g : α → α) (hd : g d = d) (t : Tbl α) (j : Nat) :
    tget d (t.map (fun p => (p.1, g p.2))) j = g (tget d t j) := by
  induction t with
  | nil => exact hd.symm
  | cons p t ih =>
    simp only [List.map_cons, tget, ih]
    split <;> rfl

@[simp] theorem State.dropHot_voice (s : State) (v j : Nat) : (s.dropHot v).voice j = s.voice j := rfl
@[simp] theorem State.dropHot_stall (s : State) (v j : Nat) : (s.dropHot v).stall j = s.stall j := rfl
@[simp] theorem State.dropHot_row (s : State) (v r : Nat) :
    (s.dropHot v).row r = { s.row r with cache := tdel (s.row r).cache v } :=
  tget_mapEntries ({} : Row) (fun w => { w with cache := tdel w.cache v }) rfl s.rows r

@[simp] theorem State.dropVoice_voice (s : State) (v j : Nat) :
    (s.dropVoice v).voice j = if j = v then {} else s.voice j := by
  simp [State.dropVoice]
@[simp] theorem State.dropVoice_stall (s : State) (v j : Nat) : (s.dropVoice v).stall j = s.stall j := rfl
@[simp] theorem State.dropVoice_row (s : State) (v r : Nat) :
    (s.dropVoice v).row r = { s.row r with cache := tdel (s.row r).cache v } := by
  simp [State.dropVoice]

/-- VOICE_UNLOAD's effect: the voice is unloaded, and its stall counts one voice less (R321). -/
def State.unloadVoice (k v : Nat) (s : State) : State :=
  (s.dropVoice v).modStall k (fun t => { t with voices := t.voices - 1 })

@[simp] theorem State.unloadVoice_voice (s : State) (k v j : Nat) :
    (s.unloadVoice k v).voice j = if j = v then {} else s.voice j := by
  simp [State.unloadVoice]
@[simp] theorem State.unloadVoice_row (s : State) (k v r : Nat) :
    (s.unloadVoice k v).row r = { s.row r with cache := tdel (s.row r).cache v } := by
  simp [State.unloadVoice]
@[simp] theorem State.unloadVoice_stall (s : State) (k v j : Nat) :
    (s.unloadVoice k v).stall j = if j = k then { s.stall k with voices := (s.stall k).voices - 1 } else s.stall j := by
  simp [State.unloadVoice]

/-- Unloading a voice writes stalls, voices and rows, and no other part of the state. -/
theorem State.unloadVoice_only (s : State) (k v : Nat) : Only [.stalls, .voices, .rows] s (s.unloadVoice k v) :=
  have hk : Keeps 0x580 s (s.unloadVoice k v) :=
    have hm := Sub.refl 0x580
    State.modStall_keeps _ _ _ (State.dropVoice_keeps s v (.refl s))
  hk.only (by decide)

/-! ## The command's own checks -/

/-- VOICE_UNLOAD is a command of the mailbox. -/
theorem exec_voiceUnload_eq (h : CmdHdr) (body : List Byte) (s : State) : exec (.voiceUnload h body) s =
    run s (clerk (voiceUnloadShape h body) h body.length (voiceUnloadOwn h body)) := rfl

/-- The streams of a voice that are in a state other than FREE (R44). -/
def State.voiceUsers (s : State) (v : Nat) : List Nat :=
  (s.streams.filter (fun p => decide (p.2.st ≠ .free ∧ p.2.voice = v))).map Prod.fst

section LoadedVoice
variable {h : CmdHdr} {body : List Byte} {s : State} (hv : fld body 0 2 < Config.nVoices)
  (hl : (s.voice (fld body 0 2)).loaded = true) (hk : (s.voice (fld body 0 2)).stall = tgt h)
include hv hl hk

/-- For a loaded voice of the command's stall, R44's check alone decides. -/
theorem voiceUnloadOwn_loaded : voiceUnloadOwn h body s =
    if s.voiceUsers (fld body 0 2) ≠ [] then .conflict ((s.voiceUsers (fld body 0 2)).map s.streamEntry)
    else .done (State.unloadVoice (tgt h) (fld body 0 2)) (fun _ => []) 1 := by
  have h1 : ¬(Config.nVoices ≤ fld body 0 2 ∨ ¬(s.voice (fld body 0 2)).loaded) := by simp [hl, hv]
  have h2 : ¬(s.voice (fld body 0 2)).stall ≠ tgt h := not_not_intro hk
  unfold voiceUnloadOwn
  rw [if_neg h1, if_neg h2]
  rfl

/-- A voice that no stream uses is unloaded. -/
theorem voiceUnload_completes (ha : s.Accepts (voiceUnloadShape h body) h body.length)
    (hu : s.voiceUsers (fld body 0 2) = []) : Completes (.voiceUnload h body) s 0x21 h 1
      ((s.logged (voiceUnloadShape h body) h).unloadVoice (tgt h) (fld body 0 2)) [] := by
  have ho : voiceUnloadOwn h body s = .done (State.unloadVoice (tgt h) (fld body 0 2)) (fun _ => []) 1 := by
    rw [voiceUnloadOwn_loaded hv hl hk, if_neg (not_not_intro hu)]
  exact completes_done (f := State.unloadVoice (tgt h) (fld body 0 2)) (b := fun _ => [])
    (exec_voiceUnload_eq h body s) ha ho rfl

/-- A voice that some stream uses is not unloaded: the answer is ST_STATE_CONFLICT with those streams' entries. -/
theorem voiceUnload_conflicts (ha : s.Accepts (voiceUnloadShape h body) h body.length)
    (hu : s.voiceUsers (fld body 0 2) ≠ []) : exec (.voiceUnload h body) s =
      .next (s.reply (s.hdrDefer 0x21 h) .stateConflict 0
        (conflictBytes ((s.voiceUsers (fld body 0 2)).map s.streamEntry))) := by
  have ho : voiceUnloadOwn h body s = .conflict ((s.voiceUsers (fld body 0 2)).map s.streamEntry) := by
    rw [voiceUnloadOwn_loaded hv hl hk, if_pos hu]
  exact (exec_voiceUnload_eq h body s).trans (clerk_refused ha ho)

end LoadedVoice

/-! ## The obligation -/

/-- Settles O16: R44's check is the only one left for a loaded voice of the stall, and each of its answers has its lemma. -/
theorem voiceUnloadWaitsForItsStreams : Obligations.VoiceUnloadWaitsForItsStreams := by
  intro h body s ha v users hv hl hk
  refine ⟨fun hu => ⟨(s.logged (voiceUnloadShape h body) h).unloadVoice (tgt h) v,
    voiceUnload_completes hv hl hk ha hu, ?voice, fun j hj => ?otherVoices, fun r => ?rows, ?stall,
    fun j hj => ?otherStalls, State.unloadVoice_only ..⟩, voiceUnload_conflicts hv hl hk ha⟩
  case voice => simp
  case otherVoices => simp [hj]
  case rows => simp
  case stall => simp
  case otherStalls => simp [hj]

end Sys2Proof.Machine
end

section
/-! SUPPORT. What a write of a run of GDDR7 bytes does (R218, R236, R424): the byte that each address reads afterwards, and,
where no poisoned granule is covered in part, that no channel fails by it and nothing but channels, memory and the moves that
wait is written. -/

namespace Sys2Proof.Machine

/-! ## Granules -/

/-- The memory-edge die that holds granule `g` is in reset (R424). -/
def State.granuleStopped (s : State) (g : Nat) : Bool := s.dieInReset (20 + (granuleAt s.sec.hashKey g).1 / 12)

/-- The granules that a run touches, each with whether the run covers it. -/
theorem mem_granulesOf {a len g : Nat} {w : Bool} : (g, w) ∈ granulesOf a len ↔
    0 < len ∧ a / 512 ≤ g ∧ g ≤ (a + len - 1) / 512 ∧ w = decide (a ≤ 512 * g ∧ 512 * (g + 1) ≤ a + len) := by
  unfold granulesOf
  split
  case isTrue h => simp [h]
  case isFalse h =>
    simp only [List.mem_map, List.mem_range, Prod.mk.injEq]
    constructor
    · rintro ⟨i, hi, rfl, rfl⟩
      exact ⟨by omega, by omega, by omega, rfl⟩
    · rintro ⟨_, h1, h2, rfl⟩
      exact ⟨g - a / 512, by omega, by omega, by rw [Nat.add_sub_cancel' h1]⟩

theorem mem_granules {a len g : Nat} :
    g ∈ (granulesOf a len).map Prod.fst ↔ 0 < len ∧ a / 512 ≤ g ∧ g ≤ (a + len - 1) / 512 := by
  simp [mem_granulesOf]

/-- The stopped granules of a run are those it touches whose die is in reset. -/
theorem State.mem_stoppedGranules {s : State} {a len g : Nat} : g ∈ s.stoppedGranules a len ↔
    (0 < len ∧ a / 512 ≤ g ∧ g ≤ (a + len - 1) / 512) ∧ s.granuleStopped g = true := by
  unfold State.stoppedGranules
  split
  case isTrue h => simp [State.granuleStopped, State.dieInReset, h]
  case isFalse h => rw [List.mem_filter, mem_granules]; rfl

/-- What holds of the default and of every entry holds of every reading. -/
theorem tget_of_forall {α : Type} {d : α} {p : α → Prop} {t : Tbl α} (hd : p d) (ht : ∀ e ∈ t, p e.2) (k : Nat) :
    p (tget d t k) := by
  induction t with
  | nil => exact hd
  | cons e t ih =>
    obtain ⟨i, a⟩ := e
    simp only [tget]
    split
    · exact ht (i, a) List.mem_cons_self
    · exact ih fun e he => ht e (List.mem_cons_of_mem _ he)

/-- Where no channel lists a poisoned slot, no granule is poisoned. -/
theorem State.poisoned_of_clean {s : State} (h : s.channels.any (fun p => !p.2.poison.isEmpty) = false) (key : Nat) :
    s.poisoned key = false := by
  have hp : ∀ c, (s.channel c).poison = [] := fun c =>
    tget_of_forall (p := fun x : Channel => x.poison = []) rfl (by simpa using h) c
  unfold State.poisoned
  split <;> simp [hp]

/-- A granule of space 0 is poisoned where its channel lists its slot. -/
theorem State.poisoned_granule (s : State) {g : Nat} (h : 512 * g < 2 ^ 48) :
    s.poisoned (512 * g) = (s.channel (granuleAt s.sec.hashKey g).1).poison.contains (granuleAt s.sec.hashKey g).2 := by
  have h0 : spaceOf (512 * g) = 0 := by simp only [spaceOf, bits]; omega
  have hg : byteOf (512 * g) / 512 = g := by simp only [byteOf, bits]; omega
  simp only [State.poisoned, h0, if_true, hg]

/-- No granule of the run is closed: each that it covers in part is free of poison. -/
theorem State.closedGranules_eq_nil {s : State} {a len : Nat} :
    s.closedGranules a len = [] ↔ ∀ g, (g, false) ∈ granulesOf a len → s.poisoned (512 * g) = false := by
  unfold State.closedGranules
  split
  case isTrue h => simp
  case isFalse h =>
    exact iff_of_true rfl fun g _ => State.poisoned_of_clean (by simpa using h) _

/-- A run that starts and ends at a granule's bound covers every granule it touches. -/
theorem State.closedGranules_aligned (s : State) {a len : Nat} (ha : a % 512 = 0) (hl : len % 512 = 0) :
    s.closedGranules a len = [] := by
  refine State.closedGranules_eq_nil.mpr fun g hg => ?_
  obtain ⟨h0, h1, h2, hw⟩ := mem_granulesOf.mp hg
  exact absurd hw.symm (by simp only [decide_eq_false_iff_not, Decidable.not_not]; omega)

/-! ## The bytes that a write leaves -/

/-- What a byte reads after whole granules have been set back to what an earlier memory holds. -/
theorem mget_restore (m₀ : List Host.Cell) (gs : List Nat) (m : List Host.Cell) (i : Nat) :
    mget ((gs.map (fun g => (512 * g, mread m₀ (512 * g) 512))).foldl (fun m p => mwrite m p.1 p.2) m) i =
      if i / 512 ∈ gs then mget m₀ i else mget m i := by
  induction gs generalizing m with
  | nil => simp
  | cons g gs ih =>
    simp only [List.map_cons, List.foldl_cons, ih, mget_mwrite, mread_length, List.mem_cons]
    by_cases hg : i / 512 = g
    · have hi : 512 * g ≤ i ∧ i < 512 * g + 512 := by omega
      have hm : (mread m₀ (512 * g) 512).getD (i - 512 * g) 0 = mget m₀ i := by
        have hlt : i - 512 * g < 512 := by omega
        simp [mread, hlt, Nat.add_sub_cancel' hi.1]
      rw [if_pos hi, hm, if_pos (Or.inl hg), ite_self]
    · have hi : ¬(512 * g ≤ i ∧ i < 512 * g + 512) := by omega
      simp [hg, hi]

theorem State.onGranules_mem (s : State) (a len : Nat) (not_ : List Nat) (f : Channel → Nat → Bool → Channel) :
    (s.onGranules a len not_ f).mem = s.mem :=
  (State.onGranules_keeps s a len not_ f (.refl s) (.refl _)).frame .mem rfl

theorem State.granuleRecords_mem (s : State) (gs : List Nat) (w : Nat → Option Nat × Option Nat) :
    (s.granuleRecords gs w).mem = s.mem :=
  (State.granuleRecords_keeps s gs w (.refl s) (.refl _)).frame .mem rfl

/-- What a byte reads after a write of a run: a closed or a stopped granule keeps its bytes, the rest of the run reads the
bytes written and 0 behind them, and every other address reads as before (R236, R424). -/
theorem State.mget_bulkInit (s : State) (a len : Nat) (bs : List Byte) (hb : bs.length ≤ len) (i : Nat) :
    mget (s.bulkInit a len bs).mem i =
      if i / 512 ∈ s.closedGranules a len ∨ i / 512 ∈ s.stoppedGranules a len then mget s.mem i
      else if a ≤ i ∧ i < a + len then bs.getD (i - a) 0 else mget s.mem i := by
  have hk : i / 512 ∈ (s.closedGranules a len).filter (fun g => !(s.stoppedGranules a len).contains g) ++
      s.stoppedGranules a len ↔ i / 512 ∈ s.closedGranules a len ∨ i / 512 ∈ s.stoppedGranules a len := by
    simp only [List.mem_append, List.mem_filter]
    by_cases h : i / 512 ∈ s.stoppedGranules a len <;> simp [h]
  have hw : mget (mwrite (mclear s.mem a len) a bs) i =
      if a ≤ i ∧ i < a + len then bs.getD (i - a) 0 else mget s.mem i := by
    rw [mget_mwrite, mget_mclear]
    by_cases h1 : a ≤ i ∧ i < a + bs.length
    · rw [if_pos h1, if_pos (by omega)]
    · rw [if_neg h1]
      split
      · rw [List.getD_eq_getElem?_getD, List.getElem?_eq_none (by omega)]; rfl
      · rfl
  unfold State.bulkInit
  simp only [State.onGranules_mem, State.granuleRecords_mem, mget_restore, hk, hw]

/-! ## The channels that a write leaves -/

/-- The channel has not failed since, and has no more poisoned slots. -/
structure Channel.NoWorse (x y : Channel) : Prop where
  failed : y.failed = x.failed
  poison : ∀ j ∈ y.poison, j ∈ x.poison

theorem Channel.NoWorse.refl (x : Channel) : x.NoWorse x := ⟨rfl, fun _ => id⟩
theorem Channel.NoWorse.trans {x y z : Channel} (h : x.NoWorse y) (k : y.NoWorse z) : x.NoWorse z :=
  ⟨k.failed.trans h.failed, fun j hj => h.poison j (k.poison j hj)⟩

/-- A write that covers the granule, or that meets no poison, leaves the channel no worse. -/
theorem Channel.writeAt_noWorse (x : Channel) (now j : Nat) (whole : Bool) (h : whole = false → j ∉ x.poison) :
    x.NoWorse (x.writeAt now j whole) := by
  cases whole with
  | true => exact ⟨rfl, fun i hi => (List.mem_filter.mp hi).1⟩
  | false => simpa [Channel.writeAt, h rfl] using (⟨rfl, fun _ => id⟩ : x.NoWorse { x with rmw := x.rmw + 1 })

/-- Channels written granule by granule are no worse, where each granule that is covered in part is free of poison. -/
theorem foldl_writeAt_noWorse (key : BitVec 128) (now : Nat) (old : Tbl Channel) (gs : List (Nat × Bool))
    (hp : ∀ g ∈ gs, g.2 = false → (granuleAt key g.1).2 ∉ (tget {} old (granuleAt key g.1).1).poison) (cs : Tbl Channel)
    (h : ∀ c, (tget {} old c).NoWorse (tget {} cs c)) (c : Nat) :
    (tget {} old c).NoWorse (tget {} (gs.foldl (fun cs g => tset {} cs (granuleAt key g.1).1
      ((tget {} cs (granuleAt key g.1).1).writeAt now (granuleAt key g.1).2 g.2)) cs) c) := by
  induction gs generalizing cs with
  | nil => exact h c
  | cons g gs ih =>
    refine ih (fun q hq => hp q (List.mem_cons_of_mem _ hq)) _ fun d => ?_
    rw [tget_tset]
    split
    case isFalse => exact h d
    case isTrue hd =>
      subst hd
      exact (h _).trans (Channel.writeAt_noWorse _ _ _ _ fun hg hj =>
        hp g List.mem_cons_self hg ((h _).poison _ hj))

/-- No channel has failed since: the module goes on. -/
theorem State.checkChannels_of_failed_eq {s : State} {old : Tbl Channel}
    (h : ∀ c, (s.channel c).failed = (tget {} old c).failed) : s.checkChannels old = s := by
  simp [State.checkChannels, h]

section Calm
variable {s : State} {a len : Nat} (hc : s.closedGranules a len = []) (hl : a + len ≤ 2 ^ 48)
include hc hl

/-- The granules of the run that a write covers in part are free of poison. -/
theorem State.part_unpoisoned {g : Nat × Bool} (hg : g ∈ granulesOf a len) (hw : g.2 = false) :
    (granuleAt s.sec.hashKey g.1).2 ∉ (s.channel (granuleAt s.sec.hashKey g.1).1).poison := by
  obtain ⟨g, w⟩ := g
  obtain rfl : w = false := hw
  have hb := (mem_granulesOf.mp hg).2.2.1
  have hp := State.closedGranules_eq_nil.mp hc g hg
  rw [State.poisoned_granule s (by omega)] at hp
  simpa using hp

/-- A write that closes no granule writes the channels, which are no worse by it, and nothing else of the state's tables. -/
theorem State.onGranules_calm (not_ : List Nat) (now : Nat) :
    ∃ cs, s.onGranules a len not_ (fun x j whole => x.writeAt now j whole) = { s with channels := cs } ∧
      ∀ c, (s.channel c).NoWorse (tget {} cs c) := by
  have h := foldl_writeAt_noWorse s.sec.hashKey now s.channels
    ((granulesOf a len).filter (fun g => !not_.contains g.1))
    (fun g hg hw => State.part_unpoisoned hc hl (List.mem_filter.mp hg).1 hw) s.channels (fun c => .refl _)
  exact ⟨_, State.checkChannels_of_failed_eq fun c => (h c).failed, h⟩

/-- A write that closes no granule writes channels, memory and the moves that wait. -/
theorem State.bulkInit_calm (bs : List Byte) : Keeps 0x100028000 s (s.bulkInit a len bs) ∧
    ∀ c, (s.channel c).NoWorse ((s.bulkInit a len bs).channel c) := by
  have hm := Sub.refl 0x100028000
  unfold State.bulkInit
  extract_lets held shut s₁ kept m
  have hs : s₁ = s := by
    simp only [s₁, shut, hc, List.filter_nil]; rfl
  have hw : Memory.wf s.mem = true → Memory.wf m = true := fun w =>
    wf_foldl (fun m (p : Nat × List Byte) => mwrite m p.1 p.2) (fun m p h => wf_mwrite m p.1 p.2 h) _ _
      (wf_mwrite _ _ _ (wf_mclear _ _ _ (hs ▸ w)))
  rw [hs]
  clear_value m
  obtain ⟨cs, he, hcs⟩ := State.onGranules_calm (s := { s with mem := m, heldMoves := s.heldMoves ++ held.map (heldPart a len (some bs)) })
    hc hl held s.now
  rw [he]
  exact ⟨.channels (.heldMoves (.mem (.refl s) hw)), hcs⟩

end Calm

end Sys2Proof.Machine
end

section
/-! SUPPORT. The bytes of a journal slot (R353, R354), and what writing one leaves: the slot's entry, every byte outside it,
every byte of a granule whose die is in reset, and the rest of the state. -/

namespace Sys2Proof.Machine

/-! ## Reading a table through a frame -/

section Frames
variable {μ : Nat} {s t : State} (h : Keeps μ s t)
include h

theorem Keeps.stream_eq (hm : μ.testBit 4 = false := by decide) (j : Nat) : t.stream j = s.stream j :=
  congrArg (fun l => tget ({} : Stream) l j) (h.frame .streams hm)
theorem Keeps.egr_eq (hm : μ.testBit 5 = false := by decide) (j : Nat) : t.egr j = s.egr j :=
  congrArg (fun l => tget ({} : Egress) l j) (h.frame .egress hm)
theorem Keeps.journal_eq (hm : μ.testBit 6 = false := by decide) (j : Nat) : t.journal j = s.journal j :=
  congrArg (fun l => tget ({} : Journal) l j) (h.frame .journals hm)
theorem Keeps.stall_eq (hm : μ.testBit 7 = false := by decide) (j : Nat) : t.stall j = s.stall j :=
  congrArg (fun l => tget ({} : Stall) l j) (h.frame .stalls hm)
theorem Keeps.channel_eq (hm : μ.testBit 15 = false := by decide) (j : Nat) : t.channel j = s.channel j :=
  congrArg (fun l => tget ({} : Channel) l j) (h.frame .channels hm)
theorem Keeps.sess_eq (hm : μ.testBit 19 = false := by decide) (j : Nat) : t.sess j = s.sess j :=
  congrArg (fun l => tget ({} : Session) l j) (h.frame .sessions hm)
theorem Keeps.granuleStopped_eq (hp : μ.testBit 3 = false := by decide) (hs : μ.testBit 26 = false := by decide) (g : Nat) :
    t.granuleStopped g = s.granuleStopped g := by
  have h1 : t.power = s.power := h.frame .power hp
  have h2 : t.sec = s.sec := h.frame .sec hs
  simp only [State.granuleStopped, State.dieInReset, h1, h2]
theorem Keeps.stoppedGranules_eq (hp : μ.testBit 3 = false := by decide) (hs : μ.testBit 26 = false := by decide)
    (a len : Nat) : t.stoppedGranules a len = s.stoppedGranules a len := by
  have h1 : t.power = s.power := h.frame .power hp
  have h2 : t.sec = s.sec := h.frame .sec hs
  simp only [State.stoppedGranules, State.dieInReset, h1, h2]

end Frames

/-! ## The bytes of a slot -/

@[simp] theorem tokenBytes_length (t : FToken) : (tokenBytes t).length = 16 := by simp [tokenBytes]

@[simp] theorem tokens_length (ts : List FToken) : (ts.flatMap tokenBytes).length = 16 * ts.length := by
  simp only [List.length_flatMap, tokenBytes_length, List.map_const', List.sum_replicate_nat, Nat.mul_comm]

@[simp] theorem recordBytes_length (n : Nat) (c : HeldChunk) : (recordBytes n c).length = recordSize c := by
  simp only [recordBytes, recordSize, List.length_append, leBytes_length, tokens_length]

theorem journalBytes_length (n : Nat) (j : Journal) :
    (journalBytes n j).length = 64 + (j.records.map recordSize).sum := by
  have h : (j.records.flatMap (recordBytes n)).length = (j.records.map recordSize).sum := by
    rw [List.length_flatMap]
    exact congrArg List.sum (List.map_congr_left fun c _ => recordBytes_length n c)
  simp [journalBytes, h]
  omega

/-! ## Writing a slot -/

/-- The first address of stream `n`'s journal slot. -/
def journalAddr (n : Nat) : Nat := Config.journalBase + n * Config.journalSlot

@[simp] theorem State.writeJournal_journal (s : State) (n : Nat) (j : Journal) (i : Nat) :
    (s.writeJournal n j).journal i = if i = n then j else s.journal i := by
  have hm := Sub.refl 0x1056680A8
  have hk (t : State) (a e c len : Nat) (bs : List Byte) :
      ((t.bulkWrite a bs).countMove e c a len).journal i = t.journal i :=
    (State.bulkWrite_keeps t a bs (.refl t)).journal_eq (by decide) i
  exact (hk ..).trans (State.putJournal_journal ..)

/-- The memory that a slot is written into: cleared, where no granule of it is stopped. -/
def State.slotMem (s : State) (n : Nat) : List Host.Cell :=
  if s.stoppedGranules (journalAddr n) Config.journalSlot = [] then mclear s.mem (journalAddr n) Config.journalSlot else s.mem

/-- The state that a slot is written into: its entry written, its bytes cleared. -/
def State.slotOpened (s : State) (n : Nat) (j : Journal) : State := { s.putJournal n j with mem := s.slotMem n }

@[simp] theorem State.slotOpened_closedGranules (s : State) (n : Nat) (j : Journal) (a len : Nat) :
    (s.slotOpened n j).closedGranules a len = s.closedGranules a len := rfl
@[simp] theorem State.slotOpened_stoppedGranules (s : State) (n : Nat) (j : Journal) (a len : Nat) :
    (s.slotOpened n j).stoppedGranules a len = s.stoppedGranules a len := rfl

theorem State.countMove_mem (s : State) (e c a len : Nat) : (s.countMove e c a len).mem = s.mem := rfl

theorem State.writeJournal_eq (s : State) (n : Nat) (j : Journal) : s.writeJournal n j =
    ((s.slotOpened n j).bulkWrite (journalAddr n) (journalBytes n j)).countMove (20 + n % 4) 5 (journalAddr n)
      (journalBytes n j).length := rfl

/-- What a byte reads after a slot is written. -/
theorem State.mget_writeJournal (s : State) (n : Nat) (j : Journal) (i : Nat) : mget (s.writeJournal n j).mem i =
    if i / 512 ∈ s.closedGranules (journalAddr n) (journalBytes n j).length ∨
        i / 512 ∈ s.stoppedGranules (journalAddr n) (journalBytes n j).length then mget (s.slotMem n) i
    else if journalAddr n ≤ i ∧ i < journalAddr n + (journalBytes n j).length then
      (journalBytes n j).getD (i - journalAddr n) 0
    else mget (s.slotMem n) i := by
  rw [State.writeJournal_eq, State.countMove_mem, State.bulkWrite, State.mget_bulkInit _ _ _ _ (Nat.le_refl _),
    State.slotOpened_closedGranules, State.slotOpened_stoppedGranules]
  rfl

section
variable {s : State} {n : Nat} {j : Journal} (hj : (journalBytes n j).length ≤ Config.journalSlot)
include hj

/-- A byte outside the slot reads as before. -/
theorem State.mget_writeJournal_outside {i : Nat} (hi : i < journalAddr n ∨ journalAddr n + Config.journalSlot ≤ i) :
    mget (s.writeJournal n j).mem i = mget s.mem i := by
  have hm : mget (s.slotMem n) i = mget s.mem i := by
    unfold State.slotMem
    split
    · rw [mget_mclear, if_neg (by omega)]
    · rfl
  rw [State.mget_writeJournal, if_neg (c := journalAddr n ≤ i ∧ _) (by omega), ite_self, hm]

/-- A byte of a stopped granule that the write touches reads as before (R424). -/
theorem State.mget_writeJournal_stopped {i : Nat}
    (hi : i / 512 ∈ s.stoppedGranules (journalAddr n) (journalBytes n j).length) :
    mget (s.writeJournal n j).mem i = mget s.mem i := by
  have hm : s.slotMem n = s.mem := by
    obtain ⟨hr, hs⟩ := State.mem_stoppedGranules.mp hi
    refine if_neg (List.ne_nil_of_mem (State.mem_stoppedGranules.mpr ⟨?_, hs⟩))
    simp only [Config.journalSlot] at hj ⊢
    omega
  rw [State.mget_writeJournal, if_pos (Or.inr hi), hm]

end

/-- A slot write that closes no granule writes the journals, engines, channels, memory and the moves that wait. -/
theorem State.writeJournal_calm {s : State} {n : Nat} {j : Journal}
    (hc : s.closedGranules (journalAddr n) (journalBytes n j).length = [])
    (hl : journalAddr n + (journalBytes n j).length ≤ 2 ^ 48) : Keeps 0x10002C040 s (s.writeJournal n j) := by
  have hm := Sub.refl 0x10002C040
  have hw : Memory.wf s.mem = true → Memory.wf (s.slotMem n) = true := fun w => by
    unfold State.slotMem
    split
    · exact wf_mclear _ _ _ w
    · exact w
  have hb := (State.bulkInit_calm (s := s.slotOpened n j) hc hl (journalBytes n j)).1
  exact State.countMove_keeps _ _ _ _ _
    ((Keeps.mem (State.putJournal_keeps _ n j (.refl s)) hw).trans (hb.mono (.of hm rfl)))

end Sys2Proof.Machine
end

section
/-! SUPPORT. STREAM_OPEN (R52, R53, R323): the lowest key that is free, what the initial folio of a stream leaves in memory and
in the rest of the state, the state that an opened stream leaves, and the obligation. -/

namespace Sys2Proof.Machine

/-! ## The lowest free key -/

/-- The search from `i` on finds the first key that is free. -/
theorem findFrom_eq_some {free : Nat → Bool} {fuel i n : Nat} (hi : i ≤ n) (hn : n < i + fuel) (hf : free n = true)
    (hl : ∀ j, i ≤ j → j < n → free j = false) : findFrom free fuel i = some n := by
  induction fuel generalizing i with
  | zero => omega
  | succ fuel ih =>
    simp only [findFrom]
    by_cases he : i = n
    · rw [he, hf, if_pos rfl]
    · rw [hl i (Nat.le_refl i) (by omega), if_neg Bool.false_ne_true]
      exact ih (by omega) (by omega) fun j hj => hl j (by omega)

/-- The lowest stream ID that R52 allows: FREE, with no samples to leave. -/
theorem State.freeStreamId_eq_some {s : State} {n : Nat} (hn : n < Config.nStreams)
    (hf : (s.stream n).st = .free ∧ (s.egr n).busy = false)
    (hl : ∀ j, j < n → ¬((s.stream j).st = .free ∧ (s.egr j).busy = false)) : s.freeStreamId = some n :=
  findFrom_eq_some (free := fun n => decide ((s.stream n).st = .free) && !(s.egr n).busy) (Nat.zero_le n)
    ((Nat.zero_add _).symm ▸ hn) (by rw [hf.1, hf.2]; rfl) fun j _ hj =>
      Bool.eq_false_iff.mpr fun h => hl j hj (by simpa using h)

/-! ## The initial folio -/

@[simp] theorem wordBytes_length (w : BitVec 256) : (wordBytes w).length = 32 := beBytes_length 32 _

@[simp] theorem folioHeader_length (x : Stream) (hash : BitVec 256) (hot cold : Nat) :
    (folioHeader x hash hot cold).length = 256 := by
  simp only [folioHeader, List.length_append, leBytes_length, wordBytes_length, List.length_replicate, List.length_cons,
    List.length_nil]

/-- The bytes of the header that stream `n`'s initial folio starts with (R53). -/
def State.initHeader (s : State) (n : Nat) : List Byte :=
  let v := s.voice (s.stream n).voice
  folioHeader (s.stream n) v.hash (hotStateOf (s.basePackage v)) (coldBytesOf (s.basePackage v))

/-- The exponent bytes of stream `n`'s initial state, by their place in the state section (R108). -/
def State.initBytes (s : State) (n : Nat) : List (Nat × Byte) :=
  initExponents (imageOps (s.basePackage (s.voice (s.stream n).voice)))

theorem State.initFolio_eq (s : State) (n : Nat) : s.initFolio n =
    forEach (fun s x => s.initByte (folioAddr n + 256 + x.1) x.2) (s.initBytes n)
      (s.bulkInit (folioAddr n) Config.folioBytes (s.initHeader n)) := rfl

/-- A single byte's run has a stopped granule where the byte's own granule is stopped. -/
theorem State.stoppedGranules_byte {s : State} {a : Nat} : s.stoppedGranules a 1 = [] ↔ s.granuleStopped (a / 512) = false := by
  rw [List.eq_nil_iff_forall_not_mem]
  simp only [State.mem_stoppedGranules]
  constructor
  · intro h
    simpa using h (a / 512)
  · rintro h g ⟨⟨-, h1, h2⟩, hg⟩
    rw [show g = a / 512 by omega, h] at hg
    cases hg

@[simp] theorem State.initByte_granuleStopped (s : State) (a : Nat) (v : Byte) (g : Nat) :
    (s.initByte a v).granuleStopped g = s.granuleStopped g := by
  unfold State.initByte
  split <;> rfl

/-- Any other byte reads as before, and so does the byte itself in a stopped granule (R424). -/
theorem State.mget_initByte {s : State} {a i : Nat} (v : Byte) (h : i = a → s.granuleStopped (i / 512) = true) :
    mget (s.initByte a v).mem i = mget s.mem i := by
  unfold State.initByte
  split
  case isTrue hs =>
    rw [State.stoppedGranules_byte] at hs
    refine (mget_mset ..).trans (if_neg fun hi => ?_)
    rw [← hi, h hi] at hs
    cases hs
  case isFalse => rfl

theorem State.mget_initByte_each {s : State} {i a : Nat} (l : List (Nat × Byte))
    (h : ∀ x ∈ l, i = a + x.1 → s.granuleStopped (i / 512) = true) :
    mget (forEach (fun s x => s.initByte (a + x.1) x.2) l s).mem i = mget s.mem i := by
  induction l generalizing s with
  | nil => rfl
  | cons x l ih =>
    refine (ih fun y hy => ?_).trans (State.mget_initByte x.2 (h x List.mem_cons_self))
    rw [State.initByte_granuleStopped]
    exact h y (List.mem_cons_of_mem _ hy)

theorem folio_aligned (n : Nat) : folioAddr n % 512 = 0 ∧ Config.folioBytes % 512 = 0 := by
  exact ⟨by simp only [folioAddr, Config.folioBytes]; omega, rfl⟩

/-- The folio slot's write covers its granules whole, so that it closes none. -/
theorem State.folioWrite_calm (s : State) {n : Nat} (hn : n < Config.nStreams) (bs : List Byte) :
    Keeps 0x100028000 s (s.bulkInit (folioAddr n) Config.folioBytes bs) ∧
      ∀ c, (s.channel c).NoWorse ((s.bulkInit (folioAddr n) Config.folioBytes bs).channel c) :=
  State.bulkInit_calm (s.closedGranules_aligned (folio_aligned n).1 (folio_aligned n).2)
    (by simp only [folioAddr, Config.folioBytes, Config.nStreams] at hn ⊢; omega) bs

/-- Writing an initial folio writes channels, memory and the moves that wait, and leaves no channel worse. -/
theorem State.initFolio_calm (s : State) {n : Nat} (hn : n < Config.nStreams) :
    Keeps 0x100028000 s (s.initFolio n) ∧ ∀ c, (s.channel c).NoWorse ((s.initFolio n).channel c) := by
  obtain ⟨hk, hw⟩ := s.folioWrite_calm hn (s.initHeader n)
  rw [State.initFolio_eq]
  generalize s.bulkInit (folioAddr n) Config.folioBytes (s.initHeader n) = t at hk hw ⊢
  have he : Keeps 0x100020000 t (forEach (fun s x => s.initByte (folioAddr n + 256 + x.1) x.2) (s.initBytes n) t) :=
    forEach_keeps _ _ _ (fun u x => State.initByte_keeps u _ _ (.refl u) (.refl _)) (.refl t)
  refine ⟨hk.trans (he.mono (.of (.refl _) rfl)), fun c => ?_⟩
  rw [he.channel_eq]
  exact hw c

/-- What a byte reads after the initial folio is written, but for the exponents that land: stopped granules keep their bytes,
and the rest of the slot is the header with 0 behind it. -/
theorem State.mget_initFolio {s : State} {n i : Nat} (hn : n < Config.nStreams)
    (h : ∀ x ∈ s.initBytes n, i = folioAddr n + 256 + x.1 → s.granuleStopped (i / 512) = true) :
    mget (s.initFolio n).mem i =
      if i / 512 ∈ s.stoppedGranules (folioAddr n) Config.folioBytes then mget s.mem i
      else if folioAddr n ≤ i ∧ i < folioAddr n + Config.folioBytes then (s.initHeader n).getD (i - folioAddr n) 0
      else mget s.mem i := by
  have hh : (s.initHeader n).length ≤ Config.folioBytes := by simp [State.initHeader, Config.folioBytes]
  have hk := (s.folioWrite_calm hn (s.initHeader n)).1
  rw [State.initFolio_eq, State.mget_initByte_each, State.mget_bulkInit _ _ _ _ hh,
    s.closedGranules_aligned (folio_aligned n).1 (folio_aligned n).2]
  · simp
  · intro x hx hi
    rw [hk.granuleStopped_eq]
    exact h x hx hi

/-- A byte of a stopped granule reads as before (R424). -/
theorem State.mget_initFolio_stopped {s : State} {n i : Nat} (hn : n < Config.nStreams)
    (hs : s.granuleStopped (i / 512) = true) : mget (s.initFolio n).mem i = mget s.mem i := by
  rw [State.mget_initFolio hn fun _ _ _ => hs]
  split
  · rfl
  case isFalse hh =>
    refine if_neg fun hr => hh (State.mem_stoppedGranules.mpr ⟨?_, hs⟩)
    simp only [Config.folioBytes] at hr ⊢
    omega

/-! ## An opened stream -/

/-- No granule of the run closes by what leaves no channel worse. -/
theorem State.closedGranules_of_noWorse {s t : State} {a len : Nat} (hk : t.sec = s.sec)
    (hw : ∀ c, (s.channel c).NoWorse (t.channel c)) (hc : s.closedGranules a len = []) : t.closedGranules a len = [] := by
  refine State.closedGranules_eq_nil.mpr fun g hg => ?_
  have hs := State.closedGranules_eq_nil.mp hc g hg
  unfold State.poisoned at hs ⊢
  split at hs
  case isFalse h => rw [if_neg h]
  case isTrue h =>
    rw [if_pos h, hk]
    simp only [List.contains_eq_mem, decide_eq_false_iff_not] at hs ⊢
    exact fun hj => hs ((hw _).poison _ hj)

/-- A journal with no records (R53, R354). -/
def emptyJournal (first : BitVec 32) : Journal := { complete := true, firstSeq := first }

@[simp] theorem emptyJournal_length (n : Nat) (first : BitVec 32) : (journalBytes n (emptyJournal first)).length = 64 := by
  simp [journalBytes_length, emptyJournal]

/-- STREAM_OPEN's effect: the entries, the initial folio and the empty journal (R323). -/
def State.openedStream (s : State) (n : Nat) (y : Stream) (e : Egress) (first : BitVec 32) : State :=
  ((s.openStream n y e).initFolio n).writeJournal n (emptyJournal first)

section Opened
variable {s : State} {n : Nat} {y : Stream} {e : Egress} {first : BitVec 32} (hn : n < Config.nStreams)
  (hc : s.closedGranules (journalAddr n) 64 = [])
include hn

theorem journalSlot_end : journalAddr n + Config.journalSlot ≤ 2 ^ 48 := by
  simp only [Config.nStreams, journalAddr, Config.journalBase, Config.journalSlot] at hn ⊢
  omega

/-- The folio slots lie below the journals (Table 10.1). -/
theorem folio_below_journal : folioAddr n + Config.folioBytes ≤ journalAddr n := by
  simp only [Config.nStreams, folioAddr, Config.folioBytes, journalAddr, Config.journalBase, Config.journalSlot] at hn ⊢
  omega

include hc

/-- The folio and the journal of a stream are written, and nothing else behind its entries. -/
theorem State.openedStream_after : Keeps 0x10002C040 (s.openStream n y e) (s.openedStream n y e first) := by
  obtain ⟨hf, hw⟩ := (s.openStream n y e).initFolio_calm hn
  have hj : ((s.openStream n y e).initFolio n).closedGranules (journalAddr n) (journalBytes n (emptyJournal first)).length = [] := by
    rw [emptyJournal_length]
    exact State.closedGranules_of_noWorse (s := s.openStream n y e) (hf.frame .sec (by decide)) hw hc
  refine (hf.mono (.of (.refl _) rfl)).trans (State.writeJournal_calm hj ?_)
  have := journalSlot_end hn
  rw [emptyJournal_length]
  simp only [Config.journalSlot] at this
  omega

/-- The parts of the state that opening a stream writes. -/
theorem State.openedStream_only :
    Only [.stamp, .streams, .egress, .journals, .stalls, .engines, .channels, .mem, .heldMoves] s (s.openedStream n y e first) := by
  have hk : Keeps 0x10002C0F2 s (s.openedStream n y e first) :=
    (State.openStream_keeps s n y e (.refl s) (.of (.refl _) rfl)).trans ((State.openedStream_after hn hc).mono (.of (.refl _) rfl))
  exact hk.only (by decide)

theorem State.openedStream_stream (j : Nat) :
    (s.openedStream n y e first).stream j = if j = n then y else s.stream j := by
  rw [(State.openedStream_after hn hc).stream_eq]
  simp [State.openStream]

theorem State.openedStream_egr (j : Nat) : (s.openedStream n y e first).egr j =
    if j = n then { e with ssrc := y.ssrc, life := s.stamp + 1 } else s.egr j := by
  rw [(State.openedStream_after hn hc).egr_eq]
  simp [State.openStream]

theorem State.openedStream_stall (j : Nat) : (s.openedStream n y e first).stall j =
    if j = y.stall then { s.stall y.stall with opened := (s.stall y.stall).opened + 1 } else s.stall j := by
  rw [(State.openedStream_after hn hc).stall_eq]
  simp [State.openStream]

omit hc in
theorem State.openedStream_journal (j : Nat) :
    (s.openedStream n y e first).journal j = if j = n then emptyJournal first else s.journal j := by
  rw [State.openedStream, State.writeJournal_journal, ((s.openStream n y e).initFolio_calm hn).1.journal_eq]
  simp [State.openStream]

end Opened

/-! ## The memory of an opened stream -/

/-- A read gives the bytes that stand there. -/
theorem mread_eq_of_mget {m : List Host.Cell} {a n : Nat} {l : List Byte} (hl : l.length = n)
    (h : ∀ i, i < n → mget m (a + i) = l.getD i 0) : mread m a n = l := by
  refine List.ext_getElem (by simp [hl]) fun i h1 h2 => ?_
  have := h i (by simpa using h1)
  simpa [mread, List.getElem?_eq_getElem h2] using this

theorem State.openStream_initBytes (s : State) (n : Nat) (y : Stream) (e : Egress) :
    (s.openStream n y e).initBytes n = initExponents (imageOps (s.basePackage (s.voice y.voice))) := by
  have hy : (s.openStream n y e).stream n = y := by simp [State.openStream]
  unfold State.initBytes
  rw [hy]
  rfl

theorem State.openStream_initHeader (s : State) (n : Nat) (y : Stream) (e : Egress) :
    (s.openStream n y e).initHeader n = folioHeader y (s.voice y.voice).hash (hotStateOf (s.basePackage (s.voice y.voice)))
      (coldBytesOf (s.basePackage (s.voice y.voice))) := by
  have hy : (s.openStream n y e).stream n = y := by simp [State.openStream]
  unfold State.initHeader
  rw [hy]
  rfl

section Memory
variable {s : State} {n : Nat} {y : Stream} {e : Egress} {first : BitVec 32} {i : Nat} (hn : n < Config.nStreams)
include hn

/-- The journal is written behind the folio: a byte outside its slot, or of a granule that waits, reads as the folio left it. -/
theorem State.mget_openedStream
    (hi : (i < journalAddr n ∨ journalAddr n + Config.journalSlot ≤ i) ∨ i / 512 ∈ s.stoppedGranules (journalAddr n) 64) :
    mget (s.openedStream n y e first).mem i = mget ((s.openStream n y e).initFolio n).mem i := by
  have hl : (journalBytes n (emptyJournal first)).length ≤ Config.journalSlot := by simp [Config.journalSlot]
  rcases hi with hi | hi
  · exact State.mget_writeJournal_outside hl hi
  · refine State.mget_writeJournal_stopped hl ?_
    rw [((s.openStream n y e).initFolio_calm hn).1.stoppedGranules_eq, emptyJournal_length]
    exact hi

/-- A byte of the folio slot that no exponent lies at and whose granule does not wait: the header, and 0 behind it. -/
theorem State.mget_openedStream_folio (hi : folioAddr n ≤ i ∧ i < folioAddr n + Config.folioBytes)
    (hx : ∀ x ∈ (s.openStream n y e).initBytes n, i ≠ folioAddr n + 256 + x.1)
    (hh : i / 512 ∉ s.stoppedGranules (folioAddr n) Config.folioBytes) :
    mget (s.openedStream n y e first).mem i = ((s.openStream n y e).initHeader n).getD (i - folioAddr n) 0 := by
  have hb := folio_below_journal hn
  rw [State.mget_openedStream hn (.inl (.inl (by omega))), State.mget_initFolio hn fun x h he => absurd he (hx x h)]
  exact (if_neg hh).trans (if_pos hi)

/-- A byte of a granule that waits reads as before. -/
theorem State.mget_openedStream_held
    (hi : i / 512 ∈ s.stoppedGranules (folioAddr n) Config.folioBytes ++ s.stoppedGranules (journalAddr n) 64) :
    mget (s.openedStream n y e first).mem i = mget s.mem i := by
  have hb := folio_below_journal hn
  have hs : s.granuleStopped (i / 512) = true :=
    (List.mem_append.mp hi).elim (fun h => (State.mem_stoppedGranules.mp h).2) (fun h => (State.mem_stoppedGranules.mp h).2)
  refine (State.mget_openedStream hn ?_).trans (State.mget_initFolio_stopped (s := s.openStream n y e) hn hs)
  rcases List.mem_append.mp hi with h | h
  case inr => exact .inr h
  case inl =>
    have hr := (State.mem_stoppedGranules.mp h).1
    obtain ⟨h1, h2⟩ := folio_aligned n
    exact .inl (.inl (by omega))

/-- A byte outside both slots that no exponent lies at reads as before. -/
theorem State.mget_openedStream_outside (ha : i < folioAddr n ∨ folioAddr n + Config.folioBytes ≤ i)
    (hb : i < journalAddr n ∨ journalAddr n + Config.journalSlot ≤ i)
    (hx : ∀ x ∈ (s.openStream n y e).initBytes n, i ≠ folioAddr n + 256 + x.1) :
    mget (s.openedStream n y e first).mem i = mget s.mem i := by
  rw [State.mget_openedStream hn (.inl hb), State.mget_initFolio hn fun x h he => absurd he (hx x h)]
  rw [if_neg (c := folioAddr n ≤ i ∧ _) (by omega), ite_self]
  rfl

end Memory

/-! ## The command -/

/-- STREAM_OPEN is a command of the mailbox. -/
theorem exec_streamOpen_eq (h : CmdHdr) (body : List Byte) (s : State) : exec (.streamOpen h body) s =
    run s (clerk (streamOpenShape body) h body.length (streamOpenOwn h body)) := rfl

/-- The egress entry that a STREAM_OPEN body gives a stream of stall `k` (R275, R323). -/
def State.openedEgress (s : State) (k : Nat) (body : List Byte) : Egress :=
  { egressOf (body.drop 16) with
    kind := fld body 2 1, index := fld body 12 2, gen := (s.sess (fld body 12 2)).gen, rVoice := (s.voice (fld body 0 2)).rate,
    stall := k, markerNext := true }

/-- The stream table entry that a STREAM_OPEN body gives stream `n` of stall `k` (R53, R55). -/
def State.openedEntry (s : State) (k n : Nat) (body : List Byte) : Stream :=
  { st := .idle, scan := (s.voice (fld body 0 2)).scan, stall := k, voice := fld body 0 2,
    row := s.pickRow (s.voice (fld body 0 2)).rows, outKind := fld body 2 1, outIndex := fld body 12 2,
    lastAcc := BitVec.ofNat 32 (fld body 4 4) - 1, lastEm := BitVec.ofNat 32 (fld body 4 4) - 1,
    ssrc := BitVec.ofNat 32 (fld body 8 4), origin := n, seed := (s.stall k).seed }

/-- A body that none of R323's checks refuses opens the lowest stream that is free. -/
theorem streamOpenOwn_opens {h : CmdHdr} {body : List Byte} {s : State} {n : Nat}
    (hr : s.fw.restart = none) (hv : fld body 0 2 < Config.nVoices) (hl : (s.voice (fld body 0 2)).loaded = true)
    (hc : codecKnown (s.openedEgress (tgt h) body) = true) (he : s.egressOk (tgt h) (s.openedEgress (tgt h) body) = true)
    (h6 : ¬((s.openedEgress (tgt h) body).kind = 2 ∧ (s.sess (s.openedEgress (tgt h) body).index).version = 6))
    (hk : (s.voice (fld body 0 2)).stall = tgt h) (ho : (s.stall (tgt h)).st = .open_)
    (hq : (s.stall (tgt h)).opened < (s.stall (tgt h)).quota) (hf : s.freeStreamId = some n) :
    streamOpenOwn h body s = .ok (fun s' => s'.openedStream n (s.openedEntry (tgt h) n body) (s.openedEgress (tgt h) body)
      (BitVec.ofNat 32 (fld body 4 4))) (beBytes 4 n) := by
  have h1 : ¬(s.fw.restart.isSome = true) := by simp [hr]
  have h2 : ¬(¬(fld body 0 2 < Config.nVoices ∧ (s.voice (fld body 0 2)).loaded = true) ∨
      ¬codecKnown (s.openedEgress (tgt h) body) = true ∨ ¬s.egressOk (tgt h) (s.openedEgress (tgt h) body) = true) := by
    simp [hv, hl, hc, he]
  have h3 : ¬(s.voice (fld body 0 2)).stall ≠ tgt h := not_not_intro hk
  have h4 : ¬(s.stall (tgt h)).st ≠ .open_ := not_not_intro ho
  have h5 : ¬(s.stall (tgt h)).quota ≤ (s.stall (tgt h)).opened := by omega
  unfold streamOpenOwn
  rw [if_neg h1]
  refine (if_neg h2).trans ?_
  refine (if_neg h6).trans ?_
  rw [if_neg h3, if_neg h4, if_neg h5, hf]
  rfl

/-- The opened stream is the state that the command completes in: STREAM_OPEN writes no audit record. -/
theorem streamOpen_completes {h : CmdHdr} {body : List Byte} {s : State} {n : Nat} {y : Stream} {e : Egress}
    {first : BitVec 32} (ha : s.Accepts (streamOpenShape body) h body.length)
    (ho : streamOpenOwn h body s = .ok (fun s' => s'.openedStream n y e first) (beBytes 4 n)) :
    Completes (.streamOpen h body) s 0x30 h 0 (s.openedStream n y e first) (beBytes 4 n) := by
  have hd := completes_done (f := fun s' => s'.openedStream n y e first) (b := fun _ => beBytes 4 n)
    (exec_streamOpen_eq h body s) ha ho rfl
  rwa [State.logged_unaudited rfl] at hd

/-! ## The obligation -/

/-- Settles O18: none of the command's checks refuses, and what the opened stream leaves is read off entry by entry and byte
by byte. -/
theorem streamOpenStartsBelowFirstSeq : Obligations.StreamOpenStartsBelowFirstSeq := by
  intro h body s n ha k v e first ssrc mayTake pkg a b set held hr hv hl hcodec hegr h6 hk ho hq hn hm hlow hc
  have hown := streamOpenOwn_opens (n := n) hr hv hl hcodec hegr h6 hk ho hq (State.freeStreamId_eq_some hn hm hlow)
  have hset {i : Nat} (hi : i ∉ set) :
      ∀ x ∈ (s.openStream n (s.openedEntry k n body) e).initBytes n, i ≠ folioAddr n + 256 + x.1 := by
    rw [State.openStream_initBytes]
    exact fun x hx he => hi (List.mem_map.mpr ⟨x, hx, he.symm⟩)
  have hfolio {i : Nat} (hi : i / 512 ∉ held) : i / 512 ∉ s.stoppedGranules (folioAddr n) Config.folioBytes :=
    fun h => hi (List.mem_append_left _ h)
  refine ⟨s.openedStream n (s.openedEntry k n body) e first, ?completes, ?stream, fun j hj => ?otherStreams, ?egress, fun j hj => ?otherEgress, ?stall,
    fun j hj => ?otherStalls, ?journal, fun j hj => ?otherJournals, fun h0 => ?header, fun i h1 h2 hi hh => ?zero,
    fun i hi => State.mget_openedStream_held hn hi, fun i h1 h2 hi => State.mget_openedStream_outside hn h1 h2 (hset hi),
    State.openedStream_only hn hc⟩
  case completes => exact streamOpen_completes ha hown
  case stream => exact (State.openedStream_stream hn hc n).trans (if_pos rfl)
  case otherStreams => exact (State.openedStream_stream hn hc j).trans (if_neg hj)
  case egress => exact (State.openedStream_egr hn hc n).trans (if_pos rfl)
  case otherEgress => exact (State.openedStream_egr hn hc j).trans (if_neg hj)
  case stall => exact (State.openedStream_stall hn hc k).trans (if_pos rfl)
  case otherStalls => exact (State.openedStream_stall hn hc j).trans (if_neg hj)
  case journal => exact (State.openedStream_journal hn n).trans (if_pos rfl)
  case otherJournals => exact (State.openedStream_journal hn j).trans (if_neg hj)
  case header =>
    rw [State.openedStream_stream hn hc, if_pos rfl]
    refine mread_eq_of_mget (folioHeader_length ..) fun i hi => ?_
    rw [State.mget_openedStream_folio hn (by simp only [Config.folioBytes]; omega)
      (State.openStream_initBytes .. ▸ fun x _ => by omega) (hfolio (h0 ▸ List.not_mem_nil)), Nat.add_sub_cancel_left,
      State.openStream_initHeader]
    rfl
  case zero =>
    rw [State.mget_openedStream_folio hn ⟨by omega, h2⟩ (hset hi) (hfolio hh), State.openStream_initHeader]
    rw [List.getD_eq_getElem?_getD, List.getElem?_eq_none (by rw [folioHeader_length]; omega)]
    rfl

end Sys2Proof.Machine
end

section
/-! SUPPORT. The credits (R244, R252) behind a journal write: a channel that fails by it takes the module down (R217), which
gives egress buffers back, and no stall's credits or held feed buffers move. And the room that a journal makes for a record
(R354), so that a slot is never overrun. -/

namespace Sys2Proof.Machine

/-! ## Operations that move no feed credit -/

/-- Every stall stands as before but for its egress buffers, and no credit has been granted or taken back. -/
structure SameCredits (s t : State) : Prop where
  stall : ∀ k, ∃ g, t.stall k = { s.stall k with egress := g }
  grant : t.clerk.feedGrant = s.clerk.feedGrant

namespace SameCredits
theorem refl (s : State) : SameCredits s s := ⟨fun _ => ⟨_, rfl⟩, rfl⟩
theorem trans {s t u : State} (h : SameCredits s t) (k : SameCredits t u) : SameCredits s u := by
  refine ⟨fun i => ?_, k.grant.trans h.grant⟩
  obtain ⟨a, ha⟩ := h.stall i
  obtain ⟨b, hb⟩ := k.stall i
  exact ⟨b, by rw [hb, ha]⟩
theorem ite {s t u : State} {c : Prop} [Decidable c] (h : SameCredits s t) (k : SameCredits s u) :
    SameCredits s (if c then t else u) := by
  split <;> assumption
/-- An operation that writes neither the stalls nor the clerk. -/
theorem of_eq {s t : State} (h1 : t.stalls = s.stalls) (h2 : t.clerk = s.clerk) : SameCredits s t :=
  ⟨fun k => ⟨_, congrArg (fun l => tget ({} : Stall) l k) h1⟩, congrArg Clerk.feedGrant h2⟩
theorem of_keeps {μ : Nat} {s t : State} (h : Keeps μ s t) (h1 : μ.testBit 7 = false := by decide)
    (h2 : μ.testBit 22 = false := by decide) : SameCredits s t :=
  of_eq (h.frame .stalls h1) (h.frame .clerk h2)
theorem forEach {α : Type} {f : State → α → State} (hf : ∀ t a, SameCredits t (f t a)) (l : List α) (s : State) :
    SameCredits s (forEach f l s) := by
  induction l generalizing s with
  | nil => exact refl s
  | cons a l ih => exact (hf s a).trans (ih _)
theorem st {s t : State} (h : SameCredits s t) (k : Nat) : (t.stall k).st = (s.stall k).st := by
  obtain ⟨g, hg⟩ := h.stall k
  rw [hg]
theorem tally {s t : State} (h : SameCredits s t) (k : Nat) : (t.stall k).tally = (s.stall k).tally := by
  obtain ⟨g, hg⟩ := h.stall k
  rw [hg]
theorem held {s t : State} (h : SameCredits s t) (k : Nat) : (t.stall k).held = (s.stall k).held := by
  obtain ⟨g, hg⟩ := h.stall k
  rw [hg]
end SameCredits

theorem State.modClerk_sameCredits (s : State) {f : Clerk → Clerk} (hf : ∀ c, (f c).feedGrant = c.feedGrant) :
    SameCredits s (s.modClerk f) := ⟨fun _ => ⟨_, rfl⟩, hf _⟩

theorem State.raise_sameCredits (s : State) (src : Nat) (r : CrierRec) : SameCredits s (s.raise src r) := by
  refine ⟨fun k => ⟨_, State.raise_stall s src r k⟩, ?_⟩
  unfold State.raise
  dsimp only
  split <;> rfl

theorem State.giveEgress_sameCredits (s : State) (k c : Nat) : SameCredits s (s.giveEgress k c) := by
  refine ⟨fun i => ?_, rfl⟩
  by_cases h : i = k
  · exact ⟨(s.stall k).egress - c, by simp [State.giveEgress, h]⟩
  · exact ⟨(s.stall i).egress, by simp [State.giveEgress, h]⟩

theorem State.dropAllEgress_sameCredits (s : State) : SameCredits s s.dropAllEgress :=
  .forEach (fun t n => (t.giveEgress_sameCredits _ _).trans
    (.of_keeps (State.putEgr_keeps _ _ _ (.refl _) (.refl 0x20)))) _ s

/-- A module failure discards egress samples and moves no feed credit (R217, R348). -/
theorem State.failModule_sameCredits (s : State) (cause : Nat) : SameCredits s (s.failModule cause) := by
  unfold State.failModule
  extract_lets s1 s2 s3
  refine .ite (.refl s) ?_
  have h2 : SameCredits s s2 := (s.raise_sameCredits _ _).trans
    (.ite (.refl _) (.of_keeps (State.audit_keeps _ _ _ _ _ _ _ _ _ (.refl _) (.refl 0x4000000))))
  have h3 : SameCredits s2 s3 := s2.modClerk_sameCredits fun _ => rfl
  have h4 : Keeps 0x1040008 s3.dropAllEgress
      (s3.dropAllEgress.dropFrames.modPower (fun p => { p with faultN := false })).failProbation :=
    have hm := Sub.refl 0x1040008
    State.failProbation_keeps _ (State.modPower_keeps _ _ (State.dropFrames_keeps _ (.refl _)))
  exact h2.trans (h3.trans (s3.dropAllEgress_sameCredits.trans (.of_keeps h4)))

theorem State.onGranules_sameCredits (s : State) (a len : Nat) (not_ : List Nat) (f : Channel → Nat → Bool → Channel) :
    SameCredits s (s.onGranules a len not_ f) := by
  unfold State.onGranules State.checkChannels
  exact (SameCredits.of_keeps (.channels (.refl s) (.refl 0x8000))).trans
    (.ite (State.failModule_sameCredits _ _) (.refl _))

theorem State.granuleRecords_sameCredits (s : State) (gs : List Nat) (w : Nat → Option Nat × Option Nat) :
    SameCredits s (s.granuleRecords gs w) := .forEach (fun _ _ => State.raise_sameCredits ..) gs s

theorem State.bulkInit_sameCredits (s : State) (a len : Nat) (bs : List Byte) : SameCredits s (s.bulkInit a len bs) := by
  unfold State.bulkInit
  extract_lets held shut s₁ kept m
  have h1 : SameCredits s s₁ := s.granuleRecords_sameCredits _ _
  clear_value s₁ m
  have h2 : SameCredits s₁ { s₁ with mem := m, heldMoves := s₁.heldMoves ++ held.map (heldPart a len (some bs)) } :=
    .of_eq rfl rfl
  exact h1.trans (h2.trans (State.onGranules_sameCredits ..))

theorem State.writeJournal_sameCredits (s : State) (n : Nat) (j : Journal) : SameCredits s (s.writeJournal n j) := by
  rw [State.writeJournal_eq]
  have h1 : SameCredits s (s.slotOpened n j) := .of_eq rfl rfl
  exact h1.trans ((State.bulkInit_sameCredits _ _ _ _).trans
    (.of_keeps (State.countMove_keeps _ _ _ _ _ (.refl _) (.refl 0x4000))))

/-! ## Appending a record -/

/-- The records that stay leave room for one of `size` bytes, or there are none (R354). -/
theorem Journal.makeRoom_fits (f size : Nat) {fuel : Nat} {j : Journal} (lost : Bool) (h : j.records.length < fuel) :
    (j.makeRoom f size fuel lost).1.records = [] ∨
      ((j.makeRoom f size fuel lost).1.records.map recordSize).sum + size ≤ Config.journalCap := by
  induction fuel generalizing j lost with
  | zero => omega
  | succ fuel ih =>
    unfold Journal.makeRoom
    split
    case h_1 hr => exact .inl hr
    case h_2 c cs hr =>
      split
      case isTrue hs => exact .inr hs
      case isFalse =>
        refine ih _ ?_
        simp only [Journal.drop, hr, List.length_cons] at h ⊢
        omega

/-- The journal that an accepted chunk's record leaves (R354). -/
def State.appendedJournal (s : State) (n : Nat) (c : HeldChunk) : Journal :=
  let j := s.journal n
  let (j, lost) := j.makeRoom (j.replayMark / max 1 (s.hopOf n)) (recordSize c) (j.records.length + 1) false
  let j := if j.records = [] then { j with firstFrame := c.frame0, firstSeq := c.seq } else j
  { j with records := j.records ++ [c], complete := j.complete && !lost }

/-- A record that a slot can hold at all leaves a journal that its slot holds. -/
theorem State.appendedJournal_fits (s : State) (n : Nat) {c : HeldChunk} (h : recordSize c ≤ Config.journalCap) :
    (journalBytes n (s.appendedJournal n c)).length ≤ Config.journalSlot := by
  have hf := Journal.makeRoom_fits ((s.journal n).replayMark / max 1 (s.hopOf n)) (recordSize c) (j := s.journal n) false
    (Nat.lt_add_one _)
  have hr : (s.appendedJournal n c).records = ((s.journal n).makeRoom ((s.journal n).replayMark / max 1 (s.hopOf n))
      (recordSize c) ((s.journal n).records.length + 1) false).1.records ++ [c] := by
    unfold State.appendedJournal
    dsimp only
    split <;> rfl
  rw [journalBytes_length, hr, List.map_append, List.sum_append]
  simp only [Config.journalCap, Config.journalSlot, List.map_cons, List.map_nil, List.sum_cons, List.sum_nil] at h hf ⊢
  rcases hf with h0 | h0
  · rw [h0, List.map_nil, List.sum_nil]
    omega
  · omega

/-- A journal's overflow is counted and reported (R354, Table 15.2). -/
def State.noteOverflow (s : State) (r : CrierRec) : State :=
  (s.modClerk (fun k => { k with jrnlOvf := k.jrnlOvf + 1 })).raise 0 r

theorem State.noteOverflow_mem (s : State) (r : CrierRec) : (s.noteOverflow r).mem = s.mem := State.raise_mem ..

theorem State.noteOverflow_sameCredits (s : State) (r : CrierRec) : SameCredits s (s.noteOverflow r) :=
  (s.modClerk_sameCredits (f := fun k => { k with jrnlOvf := k.jrnlOvf + 1 }) fun _ => rfl).trans (State.raise_sameCredits ..)

/-- An append writes the slot, and notes an overflow where a record was lost (R354). -/
theorem State.journalAppend_eq (s : State) (n : Nat) (c : HeldChunk) :
    s.journalAppend n c = s.writeJournal n (s.appendedJournal n c) ∨
    ∃ r, s.journalAppend n c = (s.writeJournal n (s.appendedJournal n c)).noteOverflow r := by
  unfold State.journalAppend State.appendedJournal
  dsimp only
  generalize Journal.makeRoom _ _ _ _ _ = p
  generalize (if p.1.records = [] then _ else p.1) = j
  generalize s.writeJournal n _ = t
  split
  · exact .inr ⟨_, rfl⟩
  · exact .inl rfl

theorem State.journalAppend_mem (s : State) (n : Nat) (c : HeldChunk) :
    (s.journalAppend n c).mem = (s.writeJournal n (s.appendedJournal n c)).mem := by
  rcases s.journalAppend_eq n c with h | ⟨r, h⟩ <;> rw [h]
  exact State.noteOverflow_mem ..

theorem State.journalAppend_sameCredits (s : State) (n : Nat) (c : HeldChunk) : SameCredits s (s.journalAppend n c) := by
  have hw := s.writeJournal_sameCredits n (s.appendedJournal n c)
  rcases s.journalAppend_eq n c with h | ⟨r, h⟩ <;> rw [h]
  · exact hw
  · exact hw.trans (State.noteOverflow_sameCredits ..)

end Sys2Proof.Machine
end

section
/-! SUPPORT. What a stream does with a chunk it accepts (R56, R59, R65, R244, R246): the buffers and credits taken, the bytes
written, the leading buffers released, the queueing, and the stall that may settle. -/

namespace Sys2Proof.Machine

/-! ## Queueing -/

theorem State.rebind_stream_self (s : State) (n : Nat) :
    ∃ r, (s.rebind n).stream n = { s.stream n with row := r } := by
  unfold State.rebind
  extract_lets x rows hosted
  split
  · exact ⟨_, rfl⟩
  · exact ⟨s.pickRow rows, (State.putStream_stream ..).trans (if_pos rfl)⟩

theorem State.rebind_stream_other (s : State) {n j : Nat} (h : j ≠ n) : (s.rebind n).stream j = s.stream j := by
  unfold State.rebind
  extract_lets x rows hosted
  split
  · rfl
  · simp [h]

theorem State.queue_stream_self (s : State) (n : Nat) :
    ∃ r, (s.queue n).stream n = { s.stream n with st := .queued, row := r, queuedAt := s.stamp } := by
  obtain ⟨r, hr⟩ := s.rebind_stream_self n
  exact ⟨r, by rw [State.queue, State.tick_stream, State.modStream_eq, State.putStream_stream, if_pos rfl, hr]⟩

theorem State.queue_stream_other (s : State) {n j : Nat} (h : j ≠ n) : (s.queue n).stream j = s.stream j := by
  rw [State.queue, State.tick_stream, State.modStream_eq, State.putStream_stream, if_neg h, State.rebind_stream_other _ h]

@[simp] theorem State.discardPark_stream (s : State) (n : Nat) (st : Status) (j : Nat) :
    (s.discardPark n st).stream j = s.stream j := rfl

/-- The state that a stream wakes to: QUEUED where it was IDLE or PARKED and is eligible (Table 3.4). -/
def Stream.awake (x : Stream) : SState :=
  if (x.st = .idle ∨ x.st = .parked) ∧ x.paused = false ∧ 0 < x.pendFrames then .queued else x.st

/-- Waking a stream sets its state, its row and its place in the queue, and no other field. -/
theorem State.wake_stream_self (s : State) (n : Nat) :
    ∃ r q, (s.wake n).stream n = { s.stream n with st := (s.stream n).awake, row := r, queuedAt := q } := by
  unfold State.wake Stream.awake
  simp only [Bool.not_eq_true]
  split
  case isFalse => exact ⟨_, _, rfl⟩
  case isTrue =>
    obtain ⟨r, hr⟩ := (s.discardPark n .stateConflict).queue_stream_self n
    exact ⟨r, _, hr⟩

theorem State.wake_stream_other (s : State) {n j : Nat} (h : j ≠ n) : (s.wake n).stream j = s.stream j := by
  unfold State.wake
  extract_lets x
  split
  · exact State.queue_stream_other _ h
  · rfl

/-! ## A stall that settles -/

/-- An OPEN stall does not settle. -/
theorem State.settleStall_open {s : State} {k : Nat} (h : (s.stall k).st = .open_) : s.settleStall k = s := by
  unfold State.settleStall
  exact if_neg (by simp [h])

theorem State.settleStall_grant (s : State) (k : Nat) : (s.settleStall k).clerk.feedGrant = s.clerk.feedGrant := by
  unfold State.settleStall
  extract_lets t s₁ s₂
  split
  case isFalse => rfl
  case isTrue =>
    have h1 : s₁.clerk = s.clerk :=
      (forEach_keeps _ _ _ (fun t v => State.dropVoice_keeps t v (.refl t) (.refl _)) (.refl s)).frame .clerk (by decide)
    exact (s₁.raise_sameCredits _ _).grant.trans (congrArg Clerk.feedGrant h1)

/-! ## Releasing buffers -/

theorem State.releaseChunk_stall (s : State) (n : Nat) (c : HeldChunk) (k : Nat) :
    ∃ h, (State.releaseChunk n s c).stall k = { s.stall k with held := h } := by
  unfold State.releaseChunk
  extract_lets i s₁ s₂
  have h1 : Keeps 0x10000 s s₁ := State.giveBufs_keeps s c.bufs (.refl s) (.refl _)
  have h2 : Keeps 0x10000 s s₂ := .ite (State.modDie_keeps _ _ _ h1 (.refl _)) h1
  rw [State.modStall_eq, State.putStall_stall, h2.stall_eq, h2.stall_eq]
  clear_value i
  split
  case isTrue hk =>
    subst hk
    exact ⟨_, rfl⟩
  case isFalse => exact ⟨_, rfl⟩

theorem State.releaseFirst_stall (s : State) (n done : Nat) (c : HeldChunk) (k : Nat) :
    ∃ h, (s.releaseFirst n done c).1.stall k = { s.stall k with held := h } := by
  unfold State.releaseFirst
  split
  · exact ⟨_, rfl⟩
  · exact s.releaseChunk_stall n _ k

theorem State.releaseLead_stall (n : Nat) (cs : List HeldChunk) (s : State) (k : Nat) :
    ∃ h, (State.releaseLead n cs s).1.stall k = { s.stall k with held := h } := by
  induction cs generalizing s with
  | nil => exact ⟨_, rfl⟩
  | cons c cs ih =>
    obtain ⟨h, hh⟩ := s.releaseFirst_stall n (c.doneBufs c.frame0) c k
    unfold State.releaseLead State.releasePart
    dsimp only
    split
    · exact ⟨h, hh⟩
    · obtain ⟨h', hh'⟩ := ih (s.releaseFirst n (c.doneBufs c.frame0) c).1
      exact ⟨h', by rw [hh', hh]⟩

/-- What the release of a stream's leading buffers makes of its entry, where `l` are its chunks with what they still hold. -/
def Stream.idled (c : HeldChunk) (l : List HeldChunk) (x : Stream) : Stream :=
  { x with lastEm := emittedBy c.frame0 x.lastEm l, chunks := l.dropWhile (fun d => decide (d.frame0 + frames d.tokens ≤ c.frame0)) }

theorem State.releaseIdle_of_cons {s : State} {n : Nat} {c : HeldChunk} {cs : List HeldChunk}
    (h : (s.stream n).chunks = c :: cs) : s.releaseIdle n =
      (State.releaseLead n (c :: cs) s).1.modStream n (Stream.idled c (State.releaseLead n (c :: cs) s).2) := by
  unfold State.releaseIdle
  rw [h]
  rfl

theorem State.releaseIdle_of_nil {s : State} {n : Nat} (h : (s.stream n).chunks = []) : s.releaseIdle n = s := by
  unfold State.releaseIdle
  rw [h]

/-- Releasing leading buffers changes how many a stall holds, and no credit. -/
theorem State.releaseIdle_stall (s : State) (n k : Nat) :
    ∃ h, (s.releaseIdle n).stall k = { s.stall k with held := h } := by
  cases hc : (s.stream n).chunks with
  | nil => exact ⟨_, by rw [State.releaseIdle_of_nil hc]⟩
  | cons c cs =>
    rw [State.releaseIdle_of_cons hc]
    exact State.releaseLead_stall n (c :: cs) s k

theorem State.releaseIdle_stream_self (s : State) (n : Nat) :
    ∃ em l, (s.releaseIdle n).stream n = { s.stream n with lastEm := em, chunks := l } := by
  cases hc : (s.stream n).chunks with
  | nil => exact ⟨_, _, by rw [State.releaseIdle_of_nil hc]⟩
  | cons c cs =>
    have hk := (State.releaseLead_keeps n (c :: cs) s (.refl s) (.refl 0x10080)).stream_eq (by decide) n
    rw [State.releaseIdle_of_cons hc, State.modStream_eq, State.putStream_stream, if_pos rfl, hk]
    exact ⟨_, _, rfl⟩

theorem State.releaseIdle_stream_other (s : State) {n j : Nat} (h : j ≠ n) : (s.releaseIdle n).stream j = s.stream j := by
  cases hc : (s.stream n).chunks with
  | nil => rw [State.releaseIdle_of_nil hc]
  | cons c cs =>
    have hk := (State.releaseLead_keeps n (c :: cs) s (.refl s) (.refl 0x10080)).stream_eq (by decide) j
    rw [State.releaseIdle_of_cons hc, State.modStream_eq, State.putStream_stream, if_neg h, hk]

/-! ## A chunk that is alone -/

/-- Buffers at the front of a list of tokens whose tokens all have duration 0 (R246). -/
def leadBufs (ts : List FToken) : Nat :=
  ((List.range (bufsFor ts.length)).filter (fun i => decide (frames (ts.take (32 * (i + 1))) = 0))).length

theorem HeldChunk.doneBufs_start (c : HeldChunk) : c.doneBufs c.frame0 = leadBufs c.tokens := by
  have h0 (x : Nat) : c.frame0 + x ≤ c.frame0 ↔ x = 0 := by omega
  simp only [HeldChunk.doneBufs, leadBufs, bufsFor, h0]

theorem frames_append (as bs : List FToken) : frames (as ++ bs) = frames as + frames bs := by
  simp only [frames, List.map_append, List.sum_append_nat]

theorem frames_take_le (ts : List FToken) (k : Nat) : frames (ts.take k) ≤ frames ts :=
  calc frames (ts.take k) ≤ frames (ts.take k) + frames (ts.drop k) := Nat.le_add_right ..
    _ = frames ts := by rw [← frames_append, List.take_append_drop]

/-- Tokens of no frames fill leading buffers alone. -/
theorem leadBufs_of_frames_eq_zero {ts : List FToken} (h : frames ts = 0) : leadBufs ts = bufsFor ts.length := by
  have hz (k : Nat) : frames (ts.take k) = 0 := Nat.le_zero.mp (h ▸ frames_take_le ts k)
  rw [leadBufs, List.filter_eq_self.mpr fun _ _ => decide_eq_true (hz _), List.length_range]

/-- Tokens whose first buffer has a duration have one. -/
theorem frames_ne_zero_of_leadBufs {ts : List FToken} (h : leadBufs ts = 0) (hl : 0 < ts.length) : frames ts ≠ 0 := by
  intro hf
  rw [leadBufs_of_frames_eq_zero hf] at h
  simp only [bufsFor, ceilDiv] at h
  omega

theorem Stream.idled_singleton {c d : HeldChunk} (h : d.frame0 = c.frame0) (x : Stream) : x.idled c [d] =
    { x with lastEm := if frames d.tokens = 0 then d.seq else x.lastEm, chunks := if frames d.tokens = 0 then [] else [d] } := by
  have hd : d.frame0 + frames d.tokens ≤ c.frame0 ↔ frames d.tokens = 0 := by omega
  simp only [Stream.idled, emittedBy, List.dropWhile_cons, List.dropWhile_nil, hd, decide_eq_true_eq]

/-- Released buffers leave a chunk its number, its tokens and its place. -/
theorem State.releaseFirst_snd (s : State) (n done : Nat) (c : HeldChunk) : (s.releaseFirst n done c).2.seq = c.seq ∧
    (s.releaseFirst n done c).2.tokens = c.tokens ∧ (s.releaseFirst n done c).2.frame0 = c.frame0 := by
  unfold State.releaseFirst
  split <;> exact ⟨rfl, rfl, rfl⟩

theorem State.releaseLead_singleton (n : Nat) (c : HeldChunk) (s : State) : State.releaseLead n [c] s =
    ((s.releaseFirst n (leadBufs c.tokens) c).1, [(s.releaseFirst n (leadBufs c.tokens) c).2]) := by
  unfold State.releaseLead State.releasePart
  rw [c.doneBufs_start]
  dsimp only
  split <;> rfl

section Alone
variable {s : State} {n : Nat} {c : HeldChunk} (hc : (s.stream n).chunks = [c])
include hc

/-- A lone chunk is complete where it has no frames, and else stays with the buffers that it still holds. -/
theorem State.releaseIdle_singleton : (s.releaseIdle n).stream n = { s.stream n with
    lastEm := if frames c.tokens = 0 then c.seq else (s.stream n).lastEm,
    chunks := if frames c.tokens = 0 then [] else [(s.releaseFirst n (leadBufs c.tokens) c).2] } := by
  have hk := (State.releaseFirst_keeps s n (leadBufs c.tokens) c (.refl s) (.refl 0x10080)).stream_eq (by decide) n
  obtain ⟨h1, h2, h3⟩ := s.releaseFirst_snd n (leadBufs c.tokens) c
  rw [State.releaseIdle_of_cons hc, State.releaseLead_singleton, State.modStream_eq, State.putStream_stream, if_pos rfl]
  dsimp only
  rw [hk, Stream.idled_singleton h3, h2, h1]

/-- A lone chunk whose first buffer has a duration stays as it is. -/
theorem State.releaseIdle_alone (h0 : leadBufs c.tokens = 0) (hl : 0 < c.tokens.length) :
    (s.releaseIdle n).stream n = s.stream n ∧ SameCredits s (s.releaseIdle n) := by
  have hf := frames_ne_zero_of_leadBufs h0 hl
  have hr : s.releaseFirst n 0 c = (s, c) := if_pos (Nat.zero_le _)
  constructor
  · rw [State.releaseIdle_singleton hc, if_neg hf, if_neg hf, h0, hr, ← hc]
  · rw [State.releaseIdle_of_cons hc, State.releaseLead_singleton, h0, hr]
    exact .of_keeps (State.modStream_keeps s n _ (.refl s) (.refl 0x10))

/-- A lone chunk with leading buffers of duration 0 releases those and stays (R246). -/
theorem State.releaseIdle_alone_lead (hd : c.freed = 0) (h0 : 0 < leadBufs c.tokens) (hf : frames c.tokens ≠ 0) :
    (s.releaseIdle n).stream n = { s.stream n with
      chunks := [{ c with bufs := c.bufs.drop (leadBufs c.tokens), floor := false, freed := leadBufs c.tokens }] } := by
  have hr : (s.releaseFirst n (leadBufs c.tokens) c).2 =
      { c with bufs := c.bufs.drop (leadBufs c.tokens), floor := false, freed := leadBufs c.tokens } := by
    unfold State.releaseFirst
    rw [if_neg (by omega), hd]
    rfl
  rw [State.releaseIdle_singleton hc, if_neg hf, if_neg hf, hr]

/-- A lone chunk of no frames is complete at once (R59). -/
theorem State.releaseIdle_alone_empty (hf : frames c.tokens = 0) :
    (s.releaseIdle n).stream n = { s.stream n with lastEm := c.seq, chunks := [] } := by
  rw [State.releaseIdle_singleton hc, if_pos hf, if_pos hf]

end Alone

/-! ## Taking what pays for a chunk -/

/-- The chunk as its stream holds it. -/
def State.heldChunk (s : State) (n : Nat) (c : Chunk) (b : List (Nat × Nat)) (floor : Bool) : HeldChunk :=
  { seq := c.seq, tokens := c.tokens, frame0 := (s.stream n).fedFrames, bufs := b, floor := floor }

theorem State.takeChunk_fst (s : State) (n : Nat) (c : Chunk) (credits : Nat) (floor : Bool) :
    ∃ b, (s.takeChunk n c credits floor).1 = s.heldChunk n c b floor ∧ (floor = true → b = []) := by
  cases floor with
  | true => exact ⟨[], rfl, fun _ => rfl⟩
  | false => exact ⟨_, rfl, nofun⟩

/-- The credits go from the stall's tally and from the grant, and the buffers, or the floor, are held (R244). -/
theorem State.takeChunk_credits (s : State) (n : Nat) (c : Chunk) {credits : Nat} {floor : Bool}
    (hf : floor = true → credits = 0) :
    (s.takeChunk n c credits floor).2.stall (s.stream n).stall = { s.stall (s.stream n).stall with
      tally := (s.stall (s.stream n).stall).tally - credits,
      held := (s.stall (s.stream n).stall).held + if floor then 1 else credits } ∧
    (s.takeChunk n c credits floor).2.clerk.feedGrant = s.clerk.feedGrant - credits := by
  cases floor with
  | true =>
    rw [hf rfl]
    exact ⟨(State.putStall_stall ..).trans (if_pos rfl), rfl⟩
  | false =>
    unfold State.takeChunk
    dsimp only
    generalize hu : (s.modStall _ _).modClerk _ = u
    have hk : Keeps 0x10000 u (State.takeBufs (dieOrder n) credits u).2 := State.takeBufs_keeps _ _ _ (.refl u) (.refl _)
    have hc : (State.takeBufs (dieOrder n) credits u).2.clerk = u.clerk := hk.frame .clerk (by decide)
    refine ⟨?_, ?_⟩
    · exact (hk.stall_eq (by decide) _).trans (hu ▸ (State.putStall_stall ..).trans (if_pos rfl))
    · exact (congrArg Clerk.feedGrant hc).trans (hu ▸ rfl)

end Sys2Proof.Machine
end

section
/-! SUPPORT. STREAM_FEED (R56, R57, R244): the verdict on a chunk, what an accepted chunk leaves in its stream, in the ledgers
and in its buffers, and the obligation. -/

namespace Sys2Proof.Machine

/-! ## The bytes of a chunk (R28) -/

/-- The keys of the buffers that hold a chunk's tokens. -/
def HeldChunk.keys (n : Nat) (c : HeldChunk) : List Nat :=
  if c.floor then [floorKey n] else c.bufs.map (fun b => sharedKey b.1 b.2)

/-- A chunk that one buffer holds stands there whole. -/
theorem State.mread_storeTokens {s : State} {n key : Nat} {c : HeldChunk} (hk : c.keys n = [key]) (hl : c.tokens.length ≤ 32) :
    mread (s.storeTokens n c).mem key (16 * c.tokens.length) = c.tokens.flatMap tokenBytes := by
  have hm : (s.storeTokens n c).mem = mwrite s.mem key (c.tokens.flatMap tokenBytes) := by
    unfold HeldChunk.keys at hk
    simp [State.storeTokens, hk, List.take_of_length_le hl]
  rw [hm]
  refine mread_eq_of_mget (tokens_length _) fun i hi => ?_
  rw [mget_mwrite, if_pos (by rw [tokens_length]; omega), Nat.add_sub_cancel_left]

/-- The buffers lie in the state-store dies, far above the journals (Tables 9.3 and 10.4). -/
theorem floorKey_high (n : Nat) : 2 ^ 50 ≤ floorKey n := by
  simp only [floorKey, addrWord]
  omega
theorem sharedKey_high (d i : Nat) : 2 ^ 50 ≤ sharedKey d i := by
  simp only [sharedKey, addrWord]
  omega

/-! ## The stages of an acceptance -/

/-- The entry of a stream that takes chunk `c`, held as `h`. -/
def Stream.takes (c : Chunk) (h : HeldChunk) (x : Stream) : Stream :=
  { x with lastAcc := c.seq, pendFrames := x.pendFrames + frames c.tokens, fedFrames := x.fedFrames + frames c.tokens,
           chunks := x.chunks ++ [h] }

section Accept
variable (s : State) (n : Nat) (c : Chunk) (credits : Nat) (floor : Bool)

/-- The chunk is paid for, stored and queued. -/
def State.queuedChunk : State :=
  ((s.takeChunk n c credits floor).2.storeTokens n (s.takeChunk n c credits floor).1).modStream n
    (Stream.takes c (s.takeChunk n c credits floor).1)

/-- The leading buffers of a stream that held none are released (R246). -/
def State.releasedChunk : State :=
  if (s.stream n).feedUnits = 0 then (s.queuedChunk n c credits floor).releaseIdle n else s.queuedChunk n c credits floor

theorem State.acceptChunk_eq : s.acceptChunk n c credits floor =
    (((s.releasedChunk n c credits floor).journalAppend n (s.takeChunk n c credits floor).1).wake n).settleStall
      ((s.releasedChunk n c credits floor).stream n).stall := rfl

/-- Taking and storing a chunk writes ledgers and buffers, and no stream. -/
theorem State.storedChunk_keeps :
    Keeps 0x430080 s ((s.takeChunk n c credits floor).2.storeTokens n (s.takeChunk n c credits floor).1) :=
  have hm := Sub.refl 0x430080
  State.storeTokens_keeps _ _ _ (State.takeChunk_keeps _ _ _ _ _ (.refl s))

theorem State.queuedChunk_stream_self :
    (s.queuedChunk n c credits floor).stream n = (s.stream n).takes c (s.takeChunk n c credits floor).1 := by
  rw [State.queuedChunk, State.modStream_eq, State.putStream_stream, if_pos rfl, (s.storedChunk_keeps ..).stream_eq]

theorem State.queuedChunk_stream_other {j : Nat} (h : j ≠ n) : (s.queuedChunk n c credits floor).stream j = s.stream j := by
  rw [State.queuedChunk, State.modStream_eq, State.putStream_stream, if_neg h, (s.storedChunk_keeps ..).stream_eq]

theorem State.queuedChunk_keeps : Keeps 0x20010 (s.takeChunk n c credits floor).2 (s.queuedChunk n c credits floor) :=
  have hm := Sub.refl 0x20010
  State.modStream_keeps _ _ _ (State.storeTokens_keeps _ _ _ (.refl _))

/-- The release of leading buffers sets which chunks stand and which is the last complete one. -/
theorem State.releasedChunk_stream_self : ∃ em l, (s.releasedChunk n c credits floor).stream n =
    { (s.stream n).takes c (s.takeChunk n c credits floor).1 with lastEm := em, chunks := l } := by
  unfold State.releasedChunk
  rw [← s.queuedChunk_stream_self n c credits floor]
  split
  · exact State.releaseIdle_stream_self _ n
  · exact ⟨_, _, rfl⟩

theorem State.releasedChunk_stream_other {j : Nat} (h : j ≠ n) :
    (s.releasedChunk n c credits floor).stream j = s.stream j := by
  rw [← s.queuedChunk_stream_other n c credits floor h]
  unfold State.releasedChunk
  split
  · exact State.releaseIdle_stream_other _ h
  · rfl

theorem State.releasedChunk_keeps : Keeps 0x10090 (s.queuedChunk n c credits floor) (s.releasedChunk n c credits floor) :=
  .ite (State.releaseIdle_keeps _ _ (.refl _) (.refl _)) (.refl _)

theorem State.releasedChunk_stall (k : Nat) : ∃ g, (s.releasedChunk n c credits floor).stall k =
    { (s.takeChunk n c credits floor).2.stall k with held := g } := by
  unfold State.releasedChunk
  rw [← (s.queuedChunk_keeps n c credits floor).stall_eq (by decide) k]
  split
  · exact State.releaseIdle_stall _ n k
  · exact ⟨_, rfl⟩

theorem State.releasedChunk_grant :
    (s.releasedChunk n c credits floor).clerk.feedGrant = (s.takeChunk n c credits floor).2.clerk.feedGrant := by
  have h1 : (s.queuedChunk n c credits floor).clerk = _ := (s.queuedChunk_keeps n c credits floor).frame .clerk (by decide)
  have h2 : (s.releasedChunk n c credits floor).clerk = _ := (s.releasedChunk_keeps n c credits floor).frame .clerk (by decide)
  rw [h2, h1]

theorem State.releasedChunk_mem : (s.releasedChunk n c credits floor).mem =
    ((s.takeChunk n c credits floor).2.storeTokens n (s.takeChunk n c credits floor).1).mem :=
  (s.releasedChunk_keeps n c credits floor).frame .mem (by decide)

/-- What the journal, the queueing and the stall's settling leave of the stream's entry. -/
theorem State.acceptChunk_stream_self : ∃ r q, (s.acceptChunk n c credits floor).stream n =
    { (s.releasedChunk n c credits floor).stream n with
      st := ((s.releasedChunk n c credits floor).stream n).awake, row := r, queuedAt := q } := by
  rw [State.acceptChunk_eq]
  generalize s.releasedChunk n c credits floor = t
  have hj := (State.journalAppend_keeps t n (s.takeChunk n c credits floor).1 (.refl t) (.refl _)).stream_eq (by decide) n
  have hs (u : State) (k : Nat) := (State.settleStall_keeps u k (.refl u) (.refl _)).stream_eq (by decide) n
  rw [hs, ← hj]
  exact State.wake_stream_self _ n

theorem State.acceptChunk_stream_other {j : Nat} (h : j ≠ n) : (s.acceptChunk n c credits floor).stream j = s.stream j := by
  rw [State.acceptChunk_eq, ← s.releasedChunk_stream_other n c credits floor h]
  generalize s.releasedChunk n c credits floor = t
  have hj := (State.journalAppend_keeps t n (s.takeChunk n c credits floor).1 (.refl t) (.refl _)).stream_eq (by decide) j
  have hs (u : State) (k : Nat) := (State.settleStall_keeps u k (.refl u) (.refl _)).stream_eq (by decide) j
  rw [hs, State.wake_stream_other _ h, hj]

/-- The journal and the queueing move no credit. -/
theorem State.journaledChunk_sameCredits (t : State) (h : HeldChunk) : SameCredits t ((t.journalAppend n h).wake n) :=
  (t.journalAppend_sameCredits n h).trans (.of_keeps (State.wake_keeps _ _ (.refl _) (.refl _)))

theorem State.acceptChunk_grant :
    (s.acceptChunk n c credits floor).clerk.feedGrant = (s.takeChunk n c credits floor).2.clerk.feedGrant := by
  rw [State.acceptChunk_eq, State.settleStall_grant, (State.journaledChunk_sameCredits ..).grant, State.releasedChunk_grant]

theorem State.acceptChunk_sess (j : Nat) : (s.acceptChunk n c credits floor).sess j = s.sess j :=
  (State.acceptChunk_keeps s n c credits floor (.refl s) (.refl _)).sess_eq (by decide) j

end Accept

/-! ## What an acceptance leaves -/

section Accepted
variable {s : State} {n : Nat} {c : Chunk} {credits : Nat} {floor : Bool}

/-- The chunk is released in no part: its stream holds other buffers, or its first buffer has a duration. -/
def State.holdsWhole (s : State) (n : Nat) (c : Chunk) : Prop :=
  (s.stream n).feedUnits ≠ 0 ∨ (leadBufs c.tokens = 0 ∧ (s.stream n).chunks = [])

/-- The chunk's form as its stream holds it, whatever paid for it. -/
theorem State.takeChunk_tokens : (s.takeChunk n c credits floor).1.tokens = c.tokens ∧
    (s.takeChunk n c credits floor).1.seq = c.seq ∧ (s.takeChunk n c credits floor).1.freed = 0 := by
  obtain ⟨b, hb, -⟩ := s.takeChunk_fst n c credits floor
  rw [hb]
  exact ⟨rfl, rfl, rfl⟩

/-- The queue of a stream that held no chunk is the chunk alone. -/
theorem State.queuedChunk_alone (h : (s.stream n).chunks = []) :
    ((s.queuedChunk n c credits floor).stream n).chunks = [(s.takeChunk n c credits floor).1] := by
  rw [State.queuedChunk_stream_self, Stream.takes, h, List.nil_append]

theorem State.releasedChunk_whole (hl : 0 < c.tokens.length) (hw : s.holdsWhole n c) :
    (s.releasedChunk n c credits floor).stream n = (s.stream n).takes c (s.takeChunk n c credits floor).1 ∧
    SameCredits (s.takeChunk n c credits floor).2 (s.releasedChunk n c credits floor) := by
  have hq : SameCredits (s.takeChunk n c credits floor).2 (s.queuedChunk n c credits floor) :=
    .of_keeps (s.queuedChunk_keeps n c credits floor)
  rw [← s.queuedChunk_stream_self n c credits floor]
  unfold State.releasedChunk
  split
  case isFalse => exact ⟨rfl, hq⟩
  case isTrue h0 =>
    obtain ⟨hlead, hnil⟩ := hw.resolve_left (not_not_intro h0)
    obtain ⟨ht, -, -⟩ := s.takeChunk_tokens (n := n) (c := c) (credits := credits) (floor := floor)
    obtain ⟨h1, h2⟩ := State.releaseIdle_alone (s.queuedChunk_alone hnil) (ht ▸ hlead) (ht ▸ hl)
    exact ⟨h1, hq.trans h2⟩

section Alone
variable (h0 : (s.stream n).feedUnits = 0) (hnil : (s.stream n).chunks = [])
include h0 hnil

theorem State.releasedChunk_lead (hlead : 0 < leadBufs c.tokens) (hf : frames c.tokens ≠ 0) :
    ∃ b, (s.releasedChunk n c credits floor).stream n = { (s.stream n).takes c (s.takeChunk n c credits floor).1 with
      chunks := [{ s.heldChunk n c b false with freed := leadBufs c.tokens }] } := by
  obtain ⟨ht, -, hd⟩ := s.takeChunk_tokens (n := n) (c := c) (credits := credits) (floor := floor)
  obtain ⟨b, hb, -⟩ := s.takeChunk_fst n c credits floor
  refine ⟨b.drop (leadBufs c.tokens), ?_⟩
  rw [State.releasedChunk, if_pos h0, State.releaseIdle_alone_lead (s.queuedChunk_alone hnil) hd (ht.symm ▸ hlead)
    (ht.symm ▸ hf), s.queuedChunk_stream_self, hb]
  rfl

theorem State.releasedChunk_empty (hf : frames c.tokens = 0) :
    (s.releasedChunk n c credits floor).stream n =
      { (s.stream n).takes c (s.takeChunk n c credits floor).1 with lastEm := c.seq, chunks := [] } := by
  obtain ⟨ht, hq, -⟩ := s.takeChunk_tokens (n := n) (c := c) (credits := credits) (floor := floor)
  rw [State.releasedChunk, if_pos h0, State.releaseIdle_alone_empty (s.queuedChunk_alone hnil) (ht.symm ▸ hf),
    s.queuedChunk_stream_self, hq]

end Alone

/-- An OPEN stall does not settle, so that its credits stay as the release of buffers left them. -/
theorem State.acceptChunk_open (hf : floor = true → credits = 0) (ho : (s.stall (s.stream n).stall).st = .open_) :
    SameCredits (s.releasedChunk n c credits floor) (s.acceptChunk n c credits floor) := by
  obtain ⟨em, l, hx⟩ := s.releasedChunk_stream_self n c credits floor
  obtain ⟨g, hg⟩ := s.releasedChunk_stall n c credits floor (s.stream n).stall
  have hj := State.journaledChunk_sameCredits n (s.releasedChunk n c credits floor) (s.takeChunk n c credits floor).1
  have hs : ((s.releasedChunk n c credits floor).stream n).stall = (s.stream n).stall := by rw [hx]; rfl
  have hst : ((s.takeChunk n c credits floor).2.stall (s.stream n).stall).st = .open_ :=
    (congrArg Stall.st (s.takeChunk_credits n c hf).1).trans ho
  rw [State.acceptChunk_eq, hs, State.settleStall_open (by rw [hj.st, hg]; exact hst)]
  exact hj

theorem State.acceptChunk_tally (hf : floor = true → credits = 0) (ho : (s.stall (s.stream n).stall).st = .open_) :
    ((s.acceptChunk n c credits floor).stall (s.stream n).stall).tally = (s.stall (s.stream n).stall).tally - credits := by
  obtain ⟨g, hg⟩ := s.releasedChunk_stall n c credits floor (s.stream n).stall
  rw [(State.acceptChunk_open hf ho).tally, hg]
  exact congrArg Stall.tally (s.takeChunk_credits n c hf).1

theorem State.acceptChunk_held (hf : floor = true → credits = 0) (ho : (s.stall (s.stream n).stall).st = .open_)
    (hl : 0 < c.tokens.length) (hw : s.holdsWhole n c) : ((s.acceptChunk n c credits floor).stall (s.stream n).stall).held =
      (s.stall (s.stream n).stall).held + if floor then 1 else credits := by
  rw [(State.acceptChunk_open hf ho).held, (State.releasedChunk_whole hl hw).2.held]
  exact congrArg Stall.held (s.takeChunk_credits n c hf).1

/-- The journal's slot lies below the state-store dies: an accepted chunk's bytes stand as they were stored. -/
theorem State.acceptChunk_mread {key : Nat} (hn : n < Config.nStreams) (hl : c.tokens.length ≤ 32) (hk : 2 ^ 50 ≤ key)
    (hkey : (s.takeChunk n c credits floor).1.keys n = [key]) :
    mread (s.acceptChunk n c credits floor).mem key (16 * c.tokens.length) = c.tokens.flatMap tokenBytes := by
  obtain ⟨ht, -, -⟩ := s.takeChunk_tokens (n := n) (c := c) (credits := credits) (floor := floor)
  have hfit : recordSize (s.takeChunk n c credits floor).1 ≤ Config.journalCap := by
    simp only [recordSize, ht, Config.journalCap]
    omega
  have hb := journalSlot_end hn
  have hm (i : Nat) (hi : key ≤ i) : mget (s.acceptChunk n c credits floor).mem i =
      mget ((s.takeChunk n c credits floor).2.storeTokens n (s.takeChunk n c credits floor).1).mem i := by
    have hs (u : State) (k : Nat) : (u.settleStall k).mem = u.mem := (State.settleStall_keeps u k (.refl u) (.refl _)).frame .mem (by decide)
    have hw (u : State) : (u.wake n).mem = u.mem := (State.wake_keeps u n (.refl u) (.refl _)).frame .mem (by decide)
    rw [State.acceptChunk_eq, hs, hw, State.journalAppend_mem,
      State.mget_writeJournal_outside (State.appendedJournal_fits _ n hfit) (.inr (by omega)), State.releasedChunk_mem]
  have hst := State.mread_storeTokens (s := (s.takeChunk n c credits floor).2) hkey (ht.symm ▸ hl)
  rw [ht] at hst
  rw [← hst]
  exact List.map_congr_left fun i _ => hm _ (Nat.le_add_right ..)

/-! ### The entry of the stream -/

theorem State.acceptChunk_lastAcc : ((s.acceptChunk n c credits floor).stream n).lastAcc = c.seq := by
  obtain ⟨r, q, hu⟩ := s.acceptChunk_stream_self n c credits floor
  obtain ⟨em, l, hx⟩ := s.releasedChunk_stream_self n c credits floor
  rw [hu, hx]
  rfl

theorem State.acceptChunk_pendFrames :
    ((s.acceptChunk n c credits floor).stream n).pendFrames = (s.stream n).pendFrames + frames c.tokens := by
  obtain ⟨r, q, hu⟩ := s.acceptChunk_stream_self n c credits floor
  obtain ⟨em, l, hx⟩ := s.releasedChunk_stream_self n c credits floor
  rw [hu, hx]
  rfl

/-- What the stream has played and its marks stay as they are. -/
theorem State.acceptChunk_played : ((s.acceptChunk n c credits floor).stream n).samples = (s.stream n).samples ∧
    ((s.acceptChunk n c credits floor).stream n).marks = (s.stream n).marks := by
  obtain ⟨r, q, hu⟩ := s.acceptChunk_stream_self n c credits floor
  obtain ⟨em, l, hx⟩ := s.releasedChunk_stream_self n c credits floor
  rw [hu, hx]
  exact ⟨rfl, rfl⟩

/-- An unpaused IDLE or PARKED stream with frames becomes QUEUED (Table 3.4). -/
theorem State.acceptChunk_st : ((s.acceptChunk n c credits floor).stream n).st =
    if ((s.stream n).st = .idle ∨ (s.stream n).st = .parked) ∧ (s.stream n).paused = false ∧
      0 < (s.stream n).pendFrames + frames c.tokens then .queued else (s.stream n).st := by
  obtain ⟨r, q, hu⟩ := s.acceptChunk_stream_self n c credits floor
  obtain ⟨em, l, hx⟩ := s.releasedChunk_stream_self n c credits floor
  rw [hu, hx]
  rfl

theorem State.acceptChunk_whole (hl : 0 < c.tokens.length) (hw : s.holdsWhole n c) :
    ((s.acceptChunk n c credits floor).stream n).lastEm = (s.stream n).lastEm ∧
    ((s.acceptChunk n c credits floor).stream n).chunks = (s.stream n).chunks ++ [(s.takeChunk n c credits floor).1] := by
  obtain ⟨r, q, hu⟩ := s.acceptChunk_stream_self n c credits floor
  rw [hu, (State.releasedChunk_whole hl hw).1]
  exact ⟨rfl, rfl⟩

theorem State.acceptChunk_lead (h0 : (s.stream n).feedUnits = 0) (hnil : (s.stream n).chunks = [])
    (hlead : 0 < leadBufs c.tokens) (hf : frames c.tokens ≠ 0) :
    ((s.acceptChunk n c credits floor).stream n).lastEm = (s.stream n).lastEm ∧
    ∃ b, ((s.acceptChunk n c credits floor).stream n).chunks =
      [{ s.heldChunk n c b false with freed := leadBufs c.tokens }] := by
  obtain ⟨r, q, hu⟩ := s.acceptChunk_stream_self n c credits floor
  obtain ⟨b, hb⟩ := State.releasedChunk_lead (credits := credits) (floor := floor) h0 hnil hlead hf
  rw [hu, hb]
  exact ⟨rfl, b, rfl⟩

theorem State.acceptChunk_empty (h0 : (s.stream n).feedUnits = 0) (hnil : (s.stream n).chunks = [])
    (hf : frames c.tokens = 0) : ((s.acceptChunk n c credits floor).stream n).lastEm = c.seq ∧
      ((s.acceptChunk n c credits floor).stream n).chunks = [] := by
  obtain ⟨r, q, hu⟩ := s.acceptChunk_stream_self n c credits floor
  rw [hu, State.releasedChunk_empty h0 hnil hf]
  exact ⟨rfl, rfl⟩

/-- A chunk that the floor holds, or a lone shared buffer, stands there whole. -/
theorem State.acceptChunk_bytes (hn : n < Config.nStreams) (h1 : bufsFor c.tokens.length = 1) :
    (floor = true →
      mread (s.acceptChunk n c credits floor).mem (floorKey n) (16 * c.tokens.length) = c.tokens.flatMap tokenBytes) ∧
    (∀ d i, floor = false → (s.takeChunk n c credits floor).1.bufs = [(d, i)] →
      mread (s.acceptChunk n c credits floor).mem (sharedKey d i) (16 * c.tokens.length) = c.tokens.flatMap tokenBytes) := by
  have hl : c.tokens.length ≤ 32 := by
    simp only [bufsFor, ceilDiv] at h1
    omega
  obtain ⟨b, hb, -⟩ := s.takeChunk_fst n c credits floor
  refine ⟨fun hf => State.acceptChunk_mread hn hl (floorKey_high n) ?_,
    fun d i hf hd => State.acceptChunk_mread hn hl (sharedKey_high d i) ?_⟩
  · rw [hb]
    exact if_pos hf
  · rw [hb] at hd ⊢
    have hd : b = [(d, i)] := hd
    rw [hd]
    exact if_neg (Bool.eq_false_iff.mp hf)

end Accepted

/-! ## The verdict -/

/-- The verdict on a chunk whose sender may feed its stream, and whose stream takes chunks: by its number, then by the stream's
end, its tokens, its frames, and what pays for it (R56, R57, R244). -/
def State.verdict (s : State) (c : Chunk) : Verdict :=
  let x := s.stream c.stream.toNat
  let d := c.seq - x.lastAcc - 1
  let need := bufsFor c.tokens.length
  if 2 ^ 31 < d.toNat then .duplicate
  else if d ≠ 0 then .refuse .seqGap 0 (x.lastAcc + 1)
  else if x.endReq ∨ x.exportMove then .refuse .stateConflict x.st.code 0
  else if ¬c.tokens.all (tokenOk (s.voice x.voice).inventory) then .refuse .badDescriptor 0 0
  else if Config.pendingLimit < x.pendFrames + frames c.tokens then .refuse .quota 0 0
  else if need ≤ (s.stall x.stall).tally then .accept need false
  else if need = 1 ∧ ¬x.floorHeld then .accept 0 true
  else .refuse .quota 0 0

section Verdict
variable {s : State} {k : Nat} {c : Chunk}

/-- The session may feed the stream, and the stream and its stall take chunks (R56, R313, R433). -/
structure State.Feeds (s : State) (k : Nat) (c : Chunk) : Prop where
  stream : c.stream.toNat < 2 ^ 18
  rsv : c.rsv = 0
  role : (s.sess k).role ≠ 0
  peer : (s.sess k).peer = false
  session : (s.sess k).stall = none ∨ (s.sess k).stall = some (s.stream c.stream.toNat).stall
  free : (s.stream c.stream.toNat).st ≠ .free
  faulted : (s.stream c.stream.toNat).st ≠ .faulted
  torn : (s.stall (s.stream c.stream.toNat).stall).st ≠ .torn

theorem State.Feeds.classify (h : s.Feeds k c) : s.classify k c = s.verdict c := by
  have h1 : ¬(2 ^ 18 ≤ c.stream.toNat ∨ c.rsv ≠ 0) := not_or.mpr ⟨Nat.not_le.mpr h.stream, not_not_intro h.rsv⟩
  have h2 : ¬((s.sess k).role = 0 ∨ (s.sess k).peer = true) := by simp [h.role, h.peer]
  have h3 : ¬((s.sess k).stall.isSome = true ∧ (s.sess k).stall ≠ some (s.stream c.stream.toNat).stall) := by
    rcases h.session with h | h <;> simp [h]
  unfold State.classify
  dsimp only
  rw [if_neg h1, if_neg h2, if_neg h.free, if_neg h3, if_neg h.torn, if_neg h.faulted]
  rfl

/-- A chunk behind the expected one. -/
theorem State.verdict_duplicate (hd : 2 ^ 31 < (c.seq - (s.stream c.stream.toNat).lastAcc - 1).toNat) :
    s.verdict c = .duplicate := if_pos hd

/-- A chunk ahead of the expected one. -/
theorem State.verdict_gap (h1 : 1 ≤ (c.seq - (s.stream c.stream.toNat).lastAcc - 1).toNat)
    (h2 : (c.seq - (s.stream c.stream.toNat).lastAcc - 1).toNat ≤ 2 ^ 31) :
    s.verdict c = .refuse .seqGap 0 ((s.stream c.stream.toNat).lastAcc + 1) := by
  have h0 : c.seq - (s.stream c.stream.toNat).lastAcc - 1 ≠ 0 := fun h => absurd (h ▸ h1) (by decide)
  exact (if_neg (by omega)).trans (if_pos h0)

/-- The chunk is the expected one, its stream is not to end or to move, and its tokens are valid for its voice. -/
structure State.Expects (s : State) (c : Chunk) : Prop where
  seq : c.seq = (s.stream c.stream.toNat).lastAcc + 1
  endReq : (s.stream c.stream.toNat).endReq = false
  move : (s.stream c.stream.toNat).exportMove = false
  tokens : c.tokens.all (tokenOk (s.voice (s.stream c.stream.toNat).voice).inventory) = true

/-- The frames and the payment decide on an expected chunk. -/
theorem State.Expects.verdict (h : s.Expects c) : s.verdict c =
    if 16777215 < (s.stream c.stream.toNat).pendFrames + frames c.tokens then .refuse .quota 0 0
    else if bufsFor c.tokens.length ≤ (s.stall (s.stream c.stream.toNat).stall).tally then .accept (bufsFor c.tokens.length) false
    else if bufsFor c.tokens.length = 1 ∧ ¬(s.stream c.stream.toNat).floorHeld = true then .accept 0 true
    else .refuse .quota 0 0 := by
  have hd : c.seq - (s.stream c.stream.toNat).lastAcc - 1 = 0 := by
    rw [h.seq]
    bv_omega
  have h1 : ¬2 ^ 31 < (c.seq - (s.stream c.stream.toNat).lastAcc - 1).toNat := hd ▸ by decide
  have h2 : ¬((s.stream c.stream.toNat).endReq = true ∨ (s.stream c.stream.toNat).exportMove = true) := by
    simp [h.endReq, h.move]
  unfold State.verdict
  dsimp only
  rw [if_neg h1, if_neg (not_not_intro hd), if_neg h2, if_neg (not_not_intro h.tokens)]
  rfl

end Verdict

/-! ## The command -/

theorem State.feedRecord_sess (s : State) (k : Nat) (r : FeedRec) (j : Nat) : (s.feedRecord k r).sess j =
    if j = k then { s.sess k with feedRecs := (s.sess k).feedRecs ++ [r] } else s.sess j := by
  simp [State.feedRecord]

@[simp] theorem State.feedRecord_stream (s : State) (k : Nat) (r : FeedRec) (j : Nat) :
    (s.feedRecord k r).stream j = s.stream j := rfl
@[simp] theorem State.feedRecord_stall (s : State) (k : Nat) (r : FeedRec) (j : Nat) :
    (s.feedRecord k r).stall j = s.stall j := rfl
@[simp] theorem State.feedRecord_clerk (s : State) (k : Nat) (r : FeedRec) : (s.feedRecord k r).clerk = s.clerk := rfl
@[simp] theorem State.feedRecord_mem (s : State) (k : Nat) (r : FeedRec) : (s.feedRecord k r).mem = s.mem := rfl

/-- A record changes the sessions alone. -/
theorem State.feedRecord_only (s : State) (k : Nat) (r : FeedRec) (l : List Field) : Only (.sessions :: l) s (s.feedRecord k r) := by
  have h : Only [.sessions] s (s.feedRecord k r) := (State.feedRecord_keeps s k r (.refl s) (.refl 0x80000)).only (by decide)
  exact ⟨h.1, fun f hf => h.2 f fun hm => hf (List.mem_cons.mpr (.inl (List.mem_singleton.mp hm)))⟩

/-- A duplicate is counted (R57). -/
def State.countDuplicate (s : State) : State := s.modVct (fun v => { v with dups := v.dups + 1 })

theorem State.countDuplicate_only (s : State) : Only [.sessions, .vct] s s.countDuplicate :=
  (State.modVct_keeps s _ (.refl s) (.refl 0x100000)).only (by decide)

/-- What a verdict has done: the record it leaves its session, and a chunk accepted or a duplicate counted (R272). -/
def State.carryOut (s : State) (k : Nat) (c : Chunk) : Verdict → State
  | .refuse st state info => s.feedRecord k ⟨c.stream.toNat % 2 ^ 18, false, c.seq, st, 0, state, info⟩
  | .duplicate => s.countDuplicate.feedRecord k ⟨c.stream.toNat % 2 ^ 18, false, c.seq, .ok, 0, 0, 1⟩
  | .accept credits floor => (s.acceptChunk c.stream.toNat c credits floor).feedRecord k
      ⟨c.stream.toNat % 2 ^ 18, false, c.seq, .ok, credits, 0, 0⟩

section Command
variable {s : State} {k : Nat} {c : Chunk} (hc : s.clocked = true) (hu : s.clerkUp = true) (ho : (s.sess k).st = .opened)
include hc hu ho

/-- A feed of an open session has its effect: a record where the token count is out of range, and else R56's verdict. -/
theorem exec_streamFeed : exec (.streamFeed k c) s = .next
    (if c.tokens.length = 0 ∨ 512 < c.tokens.length then s.feedRecord k badPayload else s.feed k c) := by
  have h : exec (.streamFeed k c) s = execStreamFeed k c s := rfl
  rw [h, execStreamFeed, run_next hc, if_pos ⟨hu, ho⟩]

theorem exec_streamFeed_badLength (hl : c.tokens.length = 0 ∨ 512 < c.tokens.length) :
    exec (.streamFeed k c) s = .next (s.feedRecord k badPayload) := by
  rw [exec_streamFeed hc hu ho, if_pos hl]

variable (hf : s.Feeds k c) (h1 : 1 ≤ c.tokens.length) (h2 : c.tokens.length ≤ 512)
include hf h1 h2

theorem exec_streamFeed_verdict : exec (.streamFeed k c) s = .next (s.carryOut k c (s.verdict c)) := by
  rw [exec_streamFeed hc hu ho, if_neg (by omega), State.feed, hf.classify]
  rfl

end Command

/-! ## The obligation -/

/-- Settles O19: the verdict decides, a refusal and a duplicate leave a record, and an accepted chunk goes through its stages. -/
theorem streamFeedTakesTheExpectedChunk : Obligations.StreamFeedTakesTheExpectedChunk := by
  intro k c s hc hu ho n x t f need lead whole rec_ reply nothing takes
  have hreply {v : State} {l : List Field} {r : FeedRec} {more : State → Prop}
      (he : exec (.streamFeed k c) s = .next (v.feedRecord k r)) (hs : ∀ j, v.sess j = s.sess j) (hm : more (v.feedRecord k r))
      (hv : Only (.sessions :: l) s v) : reply l r more :=
    ⟨_, he, (State.feedRecord_sess ..).trans ((if_pos rfl).trans (hs k ▸ rfl)),
      fun j hj => (State.feedRecord_sess ..).trans ((if_neg hj).trans (hs j)), hm, hv.trans (State.feedRecord_only ..)⟩
  refine ⟨fun hl => hreply (exec_streamFeed_badLength hc hu ho hl) (fun _ => rfl) trivial (.refl _ s), ?_⟩
  intro h1 h2 hn hr hrole hpeer hstall hfree hfault htorn
  have hf : s.Feeds k c := ⟨hn, hr, hrole, hpeer, hstall, hfree, hfault, htorn⟩
  have he {v : Verdict} (hv : s.verdict c = v) : exec (.streamFeed k c) s = .next (s.carryOut k c v) :=
    hv ▸ exec_streamFeed_verdict hc hu ho hf h1 h2
  have htakes {credits : Nat} {floor : Bool} (hv : s.verdict c = .accept credits floor) (hz : floor = true → credits = 0)
      (h32 : floor = true → need = 1) : takes credits floor := by
    obtain ⟨b, hb, hnil⟩ := s.takeChunk_fst n c credits floor
    refine ⟨_, he hv, ?_⟩
    simp only [State.carryOut, State.feedRecord_stream, State.feedRecord_stall, State.feedRecord_clerk, State.feedRecord_mem]
    refine ⟨State.acceptChunk_lastAcc, State.acceptChunk_pendFrames, State.acceptChunk_played.1,
      State.acceptChunk_played.2, fun hw => ?whole, fun h0 hx hlead hpos => State.acceptChunk_lead h0 hx hlead (by omega),
      fun h0 hx hz => State.acceptChunk_empty h0 hx hz, State.acceptChunk_st, fun j hj => State.acceptChunk_stream_other s n c _ _ hj,
      fun hopen => ⟨State.acceptChunk_tally hz hopen, fun hw => State.acceptChunk_held hz hopen h1 hw⟩,
      (State.acceptChunk_grant ..).trans (s.takeChunk_credits n c hz).2, ?record, fun j hj => ?otherSessions⟩
    case whole =>
      obtain ⟨hem, hch⟩ := State.acceptChunk_whole (credits := credits) (floor := floor) h1 hw
      refine ⟨hem, b, hch.trans (by rw [hb]; rfl), fun hfl => ⟨hnil hfl, ?_⟩, fun d i h1 hd => ?_⟩
      · exact (State.acceptChunk_bytes hn (h32 hfl)).1 hfl
      · have hfl : floor = false := Bool.eq_false_iff.mpr fun hfl => by
          rw [hnil hfl] at hd
          cases hd
        exact (State.acceptChunk_bytes hn h1).2 d i hfl (by rw [hb]; exact hd)
    case record =>
      rw [State.feedRecord_sess, if_pos rfl, State.acceptChunk_sess]
    case otherSessions =>
      rw [State.feedRecord_sess, if_neg hj, State.acceptChunk_sess]
  refine ⟨fun hd => ?duplicate, fun hd1 hd2 => ?gap, fun hseq hend hmove htok => ⟨fun hq => ?quota, fun hq hp => ?byCredits,
    fun hq hp h1 hfl => ?byFloor⟩⟩
  case duplicate =>
    exact hreply (v := s.countDuplicate) (he (State.verdict_duplicate hd)) (fun _ => rfl) rfl s.countDuplicate_only
  case gap => exact hreply (he (State.verdict_gap hd1 hd2)) (fun _ => rfl) trivial (.refl _ s)
  case quota =>
    have hv := (State.Expects.verdict ⟨hseq, hend, hmove, htok⟩).trans (if_pos hq)
    exact hreply (he hv) (fun _ => rfl) trivial (.refl _ s)
  case byCredits =>
    have hv := (State.Expects.verdict ⟨hseq, hend, hmove, htok⟩).trans ((if_neg (Nat.not_lt.mpr hq)).trans (if_pos hp))
    exact htakes hv nofun nofun
  case byFloor =>
    have hv := (State.Expects.verdict ⟨hseq, hend, hmove, htok⟩).trans
      ((if_neg (Nat.not_lt.mpr hq)).trans ((if_neg (Nat.not_le.mpr hp)).trans (if_pos ⟨h1, by rw [hfl]; decide⟩)))
    exact htakes hv (fun _ => rfl) (fun _ => h1)

end Sys2Proof.Machine
end

section
/-! SUPPORT. FREQ_MEASURE (R341, R417): the two answers that its own check gives, busy or started, and the obligation. -/

namespace Sys2Proof.Machine

/-- FREQ_MEASURE's effect: the measurement that the body asks for runs, and its end owes the response (R341). -/
def State.startMeasurement (h : CmdHdr) (body : List Byte) (s : State) : State :=
  s.modClk (fun c => { c with
    fmTarget := fld body 0 1, fmRef := fld body 1 1, fmK := fld body 2 1, fmBusy := true, fmDone := false, fmSat := false,
    fmTimeout := false, fmDefer := some (s.hdrDefer 0x72 h) })

/-- A refusal that leaves no audit record and has no effect of its own is the response alone (R312). -/
theorem State.refuse_unaudited {s : State} {c : Shape} {h : CmdHdr} {st : Status} {b : List Byte}
    (e : c.auditRefused = false) : s.refuse c h st b id = s.reply (s.hdrDefer c.opcode h) st 0 b := by
  simp [State.refuse, e]

/-! ## The command's own check -/

/-- FREQ_MEASURE is a command of the mailbox. -/
theorem exec_freqMeasure_eq (h : CmdHdr) (body : List Byte) (s : State) : exec (.freqMeasure h body) s =
    run s (clerk (freqMeasureShape body) h body.length (freqMeasureOwn h body)) := rfl

/-- The counter's busy bit alone decides (R417). -/
theorem freqMeasureOwn_eq (h : CmdHdr) (body : List Byte) (s : State) :
    freqMeasureOwn h body s = if s.clk.fmBusy then .no .busy else .later (State.startMeasurement h body) := rfl

section Accepted
variable {h : CmdHdr} {body : List Byte} {s : State} (ha : s.Accepts (freqMeasureShape body) h body.length)
include ha

/-- While a measurement runs, the ST_BUSY response is all that the command leaves. -/
theorem freqMeasure_busy (hb : s.clk.fmBusy = true) :
    exec (.freqMeasure h body) s = .next (s.reply (s.hdrDefer 0x72 h) .busy 0 []) := by
  have ho : freqMeasureOwn h body s = .refuse .busy [] id := (freqMeasureOwn_eq ..).trans (if_pos hb)
  rw [exec_freqMeasure_eq, clerk_refused ha ho, State.refuse_unaudited rfl]
  rfl

/-- While none runs, the measurement starts, and the commands behind this one may start. -/
theorem freqMeasure_starts (hb : s.clk.fmBusy = false) :
    exec (.freqMeasure h body) s = .next ((s.startMeasurement h body).startCmd h) := by
  have ho : freqMeasureOwn h body s = .later (State.startMeasurement h body) :=
    (freqMeasureOwn_eq ..).trans (if_neg (Bool.eq_false_iff.mp hb))
  rw [next_later (exec_freqMeasure_eq h body s) ha ho, State.logged_unaudited rfl]

end Accepted

/-! ## The obligation -/

/-- Settles O48: an accepted FREQ_MEASURE is decided by the busy bit alone, and each of its values has its lemma. -/
theorem oneMeasurementAtATime : Obligations.OneMeasurementAtATime := fun _ _ _ ha =>
  ⟨freqMeasure_busy ha, freqMeasure_starts ha⟩

end Sys2Proof.Machine
end
